-- ==== Sys2Proof/Word.lean ====
section
/-! DEFINITION. The two bit vectors the manual itself treats as bits: an octet on the wing line and a reading of the
32-bit station clock. Every other quantity of the manual (ids, masses, counts, station numbers) is a number and stands
as a `Nat` or a `Fin` in the model. -/

namespace Sys2Proof

/-- An octet of a frame, of an item or of the configuration image (2.4). -/
abbrev Byte := BitVec 8

/-- A reading of the station clock, or a stamp taken from it: 32 bits, wrapping (R153, R154). -/
abbrev Time := BitVec 32

/-- A desk, 0..7 (1.1). -/
abbrev Desk := Fin 8

/-- A fire compartment, 0..7 (1.1). -/
abbrev Compartment := Fin 8

end Sys2Proof
end

