-- ==== Sys2Proof/Syntax.lean ====
section
/-! DEFINITION. The commands of the station: one constructor of `Instr` for each row of spec/opcode_table.json, and the
records that stand in their operands: sensor readings, frame headers, item bodies (chapter 10). -/

namespace Sys2Proof

/-! ## Places in the aisle and on the spine -/

/-- A rack face (R1). -/
inductive Face where
  | L | R
  deriving DecidableEq, Repr

/-- A slot of the rack, named by face, column and level (R1). -/
structure Slot where
  face  : Face
  col   : Nat
  level : Nat
  deriving DecidableEq, Repr

/-- A crane position (R27). -/
structure Pos where
  col   : Nat
  level : Nat
  deriving DecidableEq, Repr

/-- The two lanes of the segment (1.1). -/
inductive Lane where
  | down | up
  deriving DecidableEq, Repr

/-- The four places of the spine unit (R105). -/
inductive SpinePlace where
  | portOut | portIn | down | up
  deriving DecidableEq, Repr

/-- The three fire inputs (R129). -/
inductive FireInput where
  | smoke | heat | callPoint
  deriving DecidableEq, Repr

/-! ## Sensor readings -/

/-- The entry and the position sensor of one place; `true` when it sees a bin (R105). -/
structure PlaceSensors where
  entry    : Bool
  position : Bool
  deriving DecidableEq, Repr

/-- The readings of the input pins at one event (1.3). Every command carries them. -/
structure Pins where
  /-- column encoder -/
  encCol       : Nat
  /-- level encoder -/
  encLevel     : Nat
  /-- fork load sensor: a load stands on the fork (R62) -/
  load         : Bool
  /-- fork slot sensor: the target slot is occupied (R57) -/
  slot         : Bool
  portOut      : PlaceSensors
  portIn       : PlaceSensors
  down         : PlaceSensors
  up           : PlaceSensors
  /-- some boundary sensor reads a bin (R138, R141) -/
  boundary     : Bool
  openSensor   : Bool
  closedSensor : Bool
  smoke        : Bool
  heat         : Bool
  callPoint    : Bool
  deriving DecidableEq, Repr

/-- A report of the fork tag reader (R50). -/
inductive TagRead where
  | hit
  | mismatch (id : Nat)
  | noRead
  deriving DecidableEq, Repr

/-! ## Records shared by item bodies (10.2) -/

/-- A room call: desk and call number (R87). -/
structure Call where
  desk : Desk
  num  : Nat
  deriving DecidableEq, Repr

/-- The face octet of a slot record: L, R, a position without face, or none (10.2). -/
inductive FaceCode where
  | L | R | position | none
  deriving DecidableEq, Repr

/-- A slot record as items carry it; it need not name a slot of the rack (10.2, R19). -/
structure SlotName where
  face  : FaceCode
  col   : Nat
  level : Nat
  deriving DecidableEq, Repr

/-- The place octet of items (10.2). -/
inductive PlaceCode where
  | none | crane | portOut | portIn | down | up
  deriving DecidableEq, Repr

/-- The place of a TAKEN: 0, 4 or 5 (10.2, R180). -/
inductive TakenPlace where
  | none | down | up
  deriving DecidableEq, Repr

/-- The location kinds of BIN_OVERDUE (10.2). -/
inductive LocationKind where
  | crane | portOut | portIn | laneDown | laneUp | desk | caught | unknown
  deriving DecidableEq, Repr

/-- The cause an ALARM names (10.2). -/
inductive Cause where
  | panel | smoke | heat | callPoint
  deriving DecidableEq, Repr

/-- The rank a LEND asks for (R64, 10.2). -/
inductive RankAsked where
  | normal | urgent
  deriving DecidableEq, Repr

/-- The destination of a travel record (R106). -/
inductive Dest where
  | desk (d : Desk)
  | home
  deriving DecidableEq, Repr

/-- The purpose of a travel record (R106). -/
inductive Purpose where
  | lend | room | lendRoom | ret
  deriving DecidableEq, Repr

/-- The call a travel record carries, with its volume and mass (R106). -/
structure CallPart where
  call   : Call
  volume : Nat
  mass   : Nat
  deriving DecidableEq, Repr

/-- The travel record of a bin on the spine (R106, R181). -/
structure TravelRecord where
  bin        : Nat
  home       : Nat
  dest       : Dest
  purpose    : Purpose
  hop        : Nat
  grade      : Nat
  fill       : Nat
  mass       : Nat
  count      : Nat
  restricted : Bool
  call       : Option CallPart
  requests   : List Nat
  deriving DecidableEq, Repr

/-- The kinds of FAULT (R182). -/
inductive FaultKind where
  | craneStall | storeBlocked | slotConflict | tagMismatch | tagUnread
  | portTag | handoffLost | shutterFault | binCaught | craneLoadUnknown
  deriving DecidableEq, Repr

/-! ## Item bodies (10.2 to 10.5) -/

structure AlarmBody where
  comp   : Compartment
  epoch  : Nat
  cause  : Cause
  source : Nat
  deriving DecidableEq, Repr

structure SafeBody where
  comp    : Compartment
  epoch   : Nat
  station : Nat
  deriving DecidableEq, Repr

structure RestoreBody where
  comp  : Compartment
  epoch : Nat
  deriving DecidableEq, Repr

structure TakenBody where
  bin   : Nat
  taker : Nat
  place : TakenPlace
  deriving DecidableEq, Repr

structure RoomCallBody where
  call       : Call
  volume     : Nat
  mass       : Nat
  restricted : Bool
  window     : Nat
  deriving DecidableEq, Repr

structure BidBody where
  call    : Call
  cost    : Nat
  station : Nat
  bin     : Nat
  deriving DecidableEq, Repr

structure ClaimBody where
  call    : Call
  station : Nat
  bin     : Nat
  deriving DecidableEq, Repr

structure LendBody where
  id   : Nat
  bin  : Nat
  ref  : Nat
  desk : Desk
  rank : RankAsked
  deriving DecidableEq, Repr

structure StockBody where
  bin        : Nat
  grade      : Nat
  fill       : Nat
  mass       : Nat
  count      : Nat
  restricted : Bool
  deriving DecidableEq, Repr

/-- A body of REQUEST_DONE or REQUEST_FAILED: the head, marked by request id 0, or one request (R182). -/
inductive NoticeBody where
  | head (bin : Nat) (desk : Option Desk) (reason : Nat)
  | request (id : Nat) (ref : Nat)
  deriving DecidableEq, Repr

structure BinStoredBody where
  bin  : Nat
  slot : SlotName
  deriving DecidableEq, Repr

structure BinOverdueBody where
  bin     : Nat
  kind    : LocationKind
  value   : Nat
  minutes : Nat
  deriving DecidableEq, Repr

/-- The one body of FAULT, for every kind (R182). -/
structure FaultBody where
  kind   : FaultKind
  bin    : Nat
  second : Nat
  slotA  : SlotName
  slotB  : SlotName
  code   : Nat
  place  : Nat
  hop    : Nat
  deriving DecidableEq, Repr

/-- The body of a STATION_REPORT (R183). -/
structure ReportBody where
  mode       : Nat
  crane      : Nat
  pool       : Nat
  visits     : Nat
  empties    : Nat
  occupied   : Nat
  reserved   : Nat
  bad        : Nat
  limited    : Bool
  discarded  : Bool
  clamped    : Bool
  crc        : Nat
  upAge      : Nat
  downAge    : Nat
  deriving DecidableEq, Repr

/-- The reason of a STOCK_REFUSED (10.2). -/
structure StockRefusedBody where
  reason : Nat
  slot   : SlotName
  bin    : Nat
  deriving DecidableEq, Repr

/-- One item of an item stream (10.2). -/
inductive Item where
  | alarm (b : AlarmBody)
  | closing (seg : Nat)
  | closed (seg : Nat)
  | opened (seg : Nat)
  | safe (b : SafeBody)
  | restore (b : RestoreBody)
  | offer (r : TravelRecord)
  | taken (b : TakenBody)
  | roomCall (b : RoomCallBody)
  | bid (b : BidBody)
  | claim (b : ClaimBody)
  | lend (b : LendBody)
  | cancel (id : Nat)
  | stockAt (slot : SlotName)
  | stock (b : StockBody)
  | stockEnd
  | stop
  | resume
  | writeOff (bin : Nat)
  | query
  | requestDone (b : NoticeBody)
  | requestFailed (b : NoticeBody)
  | binStored (b : BinStoredBody)
  | binOverdue (b : BinOverdueBody)
  | fault (b : FaultBody)
  | stationReport (b : ReportBody)
  | stockRefused (b : StockRefusedBody)
  deriving DecidableEq, Repr

/-- What a frame heard with a good check carries before its item stream: priority class, sender number, group flag and
value of the address field, condition word (R162, R179). -/
structure Header where
  cls    : Nat
  sender : Nat
  group  : Bool
  addr   : Nat
  cond   : Byte
  deriving DecidableEq, Repr

/-! ## The commands -/

/-- The commands of the station, one constructor per row of spec/opcode_table.json. `p` are the input pins as they read
at the event. A frame heard with a good check is named by its first item: `h` is its header, then that item's body, and
`rest` the items after it in stream order (R167). -/
inductive Instr where
  | resetRelease (p : Pins)
  | resetAssert (p : Pins)
  /-- `image` are the octets read from the serial memory, in address order (R185). -/
  | readComplete (p : Pins) (image : List Byte)
  /-- `rivals` are the contention fields, class and sender number, of the other stations that begin at the same bit (R163). -/
  | contention (p : Pins) (rivals : List (Nat × Nat))
  | frameAbandoned (p : Pins)
  /-- `ack` and `obj` are the two slots as the sender reads them, `true` for driven (R174). -/
  | outcome (p : Pins) (ack obj : Bool)
  | alarm (p : Pins) (h : Header) (b : AlarmBody) (rest : List Item)
  | closing (p : Pins) (h : Header) (seg : Nat) (rest : List Item)
  | closed (p : Pins) (h : Header) (seg : Nat) (rest : List Item)
  | opened (p : Pins) (h : Header) (seg : Nat) (rest : List Item)
  | safe (p : Pins) (h : Header) (b : SafeBody) (rest : List Item)
  | restore (p : Pins) (h : Header) (b : RestoreBody) (rest : List Item)
  | offer (p : Pins) (h : Header) (r : TravelRecord) (rest : List Item)
  | taken (p : Pins) (h : Header) (b : TakenBody) (rest : List Item)
  | roomCall (p : Pins) (h : Header) (b : RoomCallBody) (rest : List Item)
  | bid (p : Pins) (h : Header) (b : BidBody) (rest : List Item)
  | claim (p : Pins) (h : Header) (b : ClaimBody) (rest : List Item)
  | lend (p : Pins) (h : Header) (b : LendBody) (rest : List Item)
  | cancel (p : Pins) (h : Header) (id : Nat) (rest : List Item)
  | stockAt (p : Pins) (h : Header) (slot : SlotName) (rest : List Item)
  | stock (p : Pins) (h : Header) (b : StockBody) (rest : List Item)
  | stockEnd (p : Pins) (h : Header) (rest : List Item)
  | stop (p : Pins) (h : Header) (rest : List Item)
  | resume (p : Pins) (h : Header) (rest : List Item)
  | writeOff (p : Pins) (h : Header) (bin : Nat) (rest : List Item)
  | query (p : Pins) (h : Header) (rest : List Item)
  | faultBinCaught (p : Pins) (h : Header) (b : FaultBody) (rest : List Item)
  | faultHandoffLost (p : Pins) (h : Header) (b : FaultBody) (rest : List Item)
  | fault (p : Pins) (h : Header) (b : FaultBody) (rest : List Item)
  | requestDone (p : Pins) (h : Header) (b : NoticeBody) (rest : List Item)
  | requestFailed (p : Pins) (h : Header) (b : NoticeBody) (rest : List Item)
  | binStored (p : Pins) (h : Header) (b : BinStoredBody) (rest : List Item)
  | binOverdue (p : Pins) (h : Header) (b : BinOverdueBody) (rest : List Item)
  | stationReport (p : Pins) (h : Header) (b : ReportBody) (rest : List Item)
  | stockRefused (p : Pins) (h : Header) (b : StockRefusedBody) (rest : List Item)
  | inPosition (p : Pins)
  | forkTagRead (p : Pins) (r : TagRead)
  | forkDone (p : Pins)
  | stopped (p : Pins)
  | moveBudgetExpiry (p : Pins)
  | holdLimitExpiry (p : Pins)
  | arrival (p : Pins) (place : SpinePlace)
  | binAtPosition (p : Pins) (place : SpinePlace)
  /-- `id` is the bin id read, `none` for NO_READ (R55). -/
  | portInTagRead (p : Pins) (id : Option Nat)
  | transferLimitExpiryOut (p : Pins) (lane : Lane)
  | diversionExpiry (p : Pins)
  | transferLimitExpiryIn (p : Pins) (lane : Lane)
  | mergeTransferExpiry (p : Pins)
  | offerRetryExpiry (p : Pins) (lane : Lane)
  | mergeWaitExpiry (p : Pins)
  | evaluationDone (p : Pins)
  | windowExpiry (p : Pins) (call : Call)
  | inputActive (p : Pins) (i : FireInput)
  | inputInactive (p : Pins) (i : FireInput)
  | inputFilterExpiry (p : Pins) (i : FireInput)
  | closingRetryExpiry (p : Pins)
  | closeLimitExpiry (p : Pins)
  | shutterDriveLimitExpiry (p : Pins)
  | closedSensor (p : Pins)
  | openSensor (p : Pins)
  | boundarySensorChange (p : Pins)
  | overdueSweepExpiry (p : Pins)
  | lineIdle (p : Pins)
  /-- `items` are the items read up to the point at which processing would end (R165, R167). -/
  | discardedFrame (p : Pins) (h : Header) (items : List Item)
  deriving DecidableEq, Repr

end Sys2Proof
end

