-- ==== Sys2Proof/Config.lean ====
section
/-! DEFINITION. What one implementation fixes: the figures a station takes from its configuration image (R184, R187,
after clamping), and the values the manual leaves open, as constants without a body. -/

namespace Sys2Proof

/-- Capacity, mass limit and tare of one grade (R9, R184). -/
structure Grade where
  capacity  : Nat
  massLimit : Nat
  tare      : Nat
  deriving DecidableEq, Repr

/-- Lock code 0..7 and complement bit of one face (R7). -/
structure LockCode where
  code       : Nat
  complement : Bool
  deriving DecidableEq, Repr

/-- The configured values, after the clamping of R187, as every block takes them at read complete (R189). -/
structure StationConfig where
  station         : Nat
  segment         : Nat
  up              : Nat
  down            : Nat
  compMap         : Vector (Option Nat) 8
  lineRate        : Nat
  nc              : Nat
  nl              : Nat
  pc              : Nat
  pl              : Nat
  portLevel       : Nat
  parkCol         : Nat
  parkLevel       : Nat
  vx              : Nat
  ax              : Nat
  vy              : Nat
  ay              : Nat
  settleTime      : Nat
  forkTime        : Nat
  slack           : Nat
  /-- seconds -/
  holdLimit       : Nat
  grade1          : Grade
  grade2          : Grade
  grade3          : Grade
  grade4          : Grade
  columnMassLimit : Nat
  lockL           : LockCode
  lockR           : LockCode
  restrictedDesks : List Nat
  searchSpan      : Nat
  passTime        : Nat
  /-- seconds -/
  transferLimit   : Nat
  offerRetry      : Nat
  /-- seconds -/
  ageLimit        : Nat
  /-- minutes -/
  outLimit        : Nat
  /-- seconds -/
  fireGrace       : Nat
  /-- seconds -/
  closeLimit      : Nat
  /-- seconds -/
  driveLimit      : Nat
  closingRetry    : Nat
  gateway1        : Nat
  gateway2        : Nat
  firePanel       : Nat
  deriving DecidableEq, Repr

/-- The configured values before read complete. DESIGN CHOICE (log 5), unsafe: the manual gives none. No rule reads
them in START or UNCONFIGURED. -/
def StationConfig.unread : StationConfig :=
  { station := 0, segment := 0, up := 0, down := 0, compMap := Vector.replicate 8 none, lineRate := 0,
    nc := 0, nl := 0, pc := 0, pl := 0, portLevel := 0, parkCol := 0, parkLevel := 0,
    vx := 0, ax := 0, vy := 0, ay := 0, settleTime := 0, forkTime := 0, slack := 0, holdLimit := 0,
    grade1 := ⟨0, 0, 0⟩, grade2 := ⟨0, 0, 0⟩, grade3 := ⟨0, 0, 0⟩, grade4 := ⟨0, 0, 0⟩,
    columnMassLimit := 0, lockL := ⟨0, false⟩, lockR := ⟨0, false⟩, restrictedDesks := [],
    searchSpan := 0, passTime := 0, transferLimit := 0, offerRetry := 0, ageLimit := 0, outLimit := 0,
    fireGrace := 0, closeLimit := 0, driveLimit := 0, closingRetry := 0,
    gateway1 := 0, gateway2 := 0, firePanel := 0 }

/-! ## Values the manual leaves open (log 15)

The argument is the state's counter of free values drawn, so that two draws need not agree. -/

/-- The desk of a travel record formed for a bin whose visit no longer exists (R106 gives none; log 15). -/
opaque Config.freeDesk : Nat → Desk

/-- Grade, fill, mass and item count of a travel record formed for a bin absent from the bin table (R106 gives none;
log 15). -/
opaque Config.freeContents : Nat → Nat × Nat × Nat × Nat

/-- The restricted flag of that travel record (log 15). -/
opaque Config.freeRestricted : Nat → Bool

/-! ## The order of expiries at one reading (log 2) -/

/-- The place, among the expiries of a reading, at which each is taken: R157 gives them no order. The arguments are the reading
and how many of them stand behind it (log 2). -/
opaque Config.freeOrder : Time → Nat → Nat

end Sys2Proof
end

