-- ==== Sys2Proof/Machine/State.lean ====
section
/-! DEFINITION. The state of the station: what its ten blocks hold, its input pins as last read, and the queue of the
commands that wait. INVENTORY.md lists every field with its rule and its value after reset. -/

namespace Sys2Proof.Machine
open Sys2Proof

/-! ## Timers and tables -/

/-- A running timer: start stamp and duration (R156). A timer that is not running is `none`. -/
structure Timer where
  start : Time
  dur   : Nat
  deriving DecidableEq, Repr

/-- A keyed table in canonical form: keys strictly rising. -/
abbrev Table (α : Type) := List (Nat × α)

/-! ## Mode -/

/-- The station mode (R132, R185). -/
inductive Mode where
  | start | unconfigured | stocking | run | guard | fire | fireSafe | halted
  deriving DecidableEq, Repr

/-! ## Directory (chapter 1) -/

/-- The state of a slot record (R2). -/
inductive SlotState where
  | empty
  | occupied (b : Nat)
  | reserved (b : Nat)
  | bad
  deriving DecidableEq, Repr

/-- A slot record: its state and its doubt mark (R2). -/
structure SlotRec where
  state : SlotState
  doubt : Bool
  deriving DecidableEq, Repr

/-- The location of an OUT bin (R10). -/
inductive Location where
  | crane
  | portOut
  | portIn
  | lane (station : Nat) (l : Lane)
  | desk (d : Desk)
  | caught (segment : Nat)
  | unknown
  deriving DecidableEq, Repr

/-- STORED, or OUT with location and out-since stamp (R9). -/
inductive BinStatus where
  | stored
  | out (loc : Location) (since : Time)
  deriving DecidableEq, Repr

/-- A bin table entry (R9). -/
structure BinEntry where
  grade      : Nat
  fill       : Nat
  mass       : Nat
  count      : Nat
  restricted : Bool
  slot       : Slot
  status     : BinStatus
  overdue    : Bool
  promVolume : Nat
  promMass   : Nat
  doubt      : Bool
  deriving DecidableEq, Repr

/-- The number of slots in each state (R2). `empties` is an integer, so that the four counts keep their sum over slots of any
column and level, those of no rack included. -/
structure SlotCounts where
  empties  : Int
  occupied : Nat
  reserved : Nat
  bad      : Nat
  deriving DecidableEq, Repr

/-- The directory (R25). Unlisted slots are EMPTY without doubt, unlisted column faces bear load 0; `cursor` is `none`
at end (R19). -/
structure Directory where
  slots  : Table SlotRec
  counts : SlotCounts
  bins   : Table BinEntry
  loads  : Table Nat
  cursor : Option Slot
  deriving DecidableEq, Repr

/-! ## Planner (chapter 4) -/

/-- QUEUED or CANCELLED (R64). -/
inductive ReqState where
  | queued | cancelled
  deriving DecidableEq, Repr

/-- A request pool entry, keyed in the pool by its request id (R64). -/
structure Request where
  ref   : Nat
  desk  : Desk
  rank  : RankAsked
  state : ReqState
  visit : Nat
  deriving DecidableEq, Repr

/-- The rank of a visit (R66). -/
inductive Rank where
  | urgent | room | normal
  deriving DecidableEq, Repr

/-- The ten states of a visit (R67). -/
inductive VisitState where
  | waitingBin | waitingRoute | ready | staged | fetching | onCrane | holding | delivering | atPort | onSpine
  deriving DecidableEq, Repr

/-- The room part of a visit (R65). The desk of its call is the visit's desk. -/
structure RoomPart where
  call   : Call
  volume : Nat
  mass   : Nat
  deriving DecidableEq, Repr

/-- A visit (R65). -/
structure Visit where
  number   : Nat
  bin      : Nat
  desk     : Desk
  rank     : Rank
  requests : List Nat
  room     : Option RoomPart
  stamp    : Time
  seq      : BitVec 32
  state    : VisitState
  deriving DecidableEq, Repr

/-- The stow: no checked bin at port-in, ready work, its TAKE_IN staged, or its TAKE_IN current (R76). -/
inductive StowState where
  | absent | ready | staged | current
  deriving DecidableEq, Repr

/-- The planner (R86). -/
structure Planner where
  pool         : Table Request
  visits       : List Visit
  nextVisit    : Nat
  seqCount     : BitVec 32
  stow         : StowState
  mark         : Bool
  reservations : List (Nat × Desk)
  sweep        : Option Timer
  /-- the stamp of the start that the crane unit reported last (R46, log 33) -/
  startStamp   : Option Time
  /-- the model's own: since a CANCEL or a MISMATCH has emptied the stage, the ready work passed over since: what stood ready when
  that CANCEL's event began or at the MISMATCH, then at the end of the last event, each piece with its order; `none` when neither
  has emptied it since the last selection (R45, R51, R75, log 8) -/
  passed       : Option (List (Option Nat × Nat))
  deriving DecidableEq, Repr

/-! ## Crane unit (chapter 3) -/

/-- The move kinds (R41). -/
inductive MoveKind where
  | fetch | deliver | takeIn | store | park
  deriving DecidableEq, Repr

/-- The target of a move: a slot, face included, or a position (R41). -/
inductive Target where
  | slot (s : Slot)
  | pos (p : Pos)
  deriving DecidableEq, Repr

/-- A move record (R41). `timer` holds the start stamp and the budget of a started move; it is the move budget timer. -/
structure Move where
  kind     : MoveKind
  target   : Target
  visit    : Option Nat
  bound    : Bool
  estimate : Nat
  timer    : Option Timer
  deriving DecidableEq, Repr

/-- The carried bin (R40). -/
structure Carried where
  bin       : Nat
  record    : Option TravelRecord
  visit     : Option Nat
  uncertain : Bool
  deriving DecidableEq, Repr

/-- The seven states of the crane record (R42). -/
inductive CraneState where
  | idle | moving | holding | stopping | parked | halted | faulted
  deriving DecidableEq, Repr

/-- The fork tag reading of the current FETCH: none yet, read without mismatch, or MISMATCH (R50, R51). -/
inductive TagState where
  | awaited | passed | mismatched
  deriving DecidableEq, Repr

/-- The last order on the crane drive link (R46, R48, R60). -/
inductive DriveOrder where
  | still
  | go (kind : MoveKind) (target : Target)
  | controlledStop
  | stop
  deriving DecidableEq, Repr

/-- The crane record and the crane unit's notes on the running move (R40, R63). -/
structure Crane where
  pos         : Pos
  carried     : Option Carried
  state       : CraneState
  current     : Option Move
  staged      : Option Move
  unknownLoad : Bool
  holdTimer   : Option Timer
  /-- an axis time of the current move's estimate was held (R29, log 29) -/
  estimateHeld : Bool
  /-- the current move has reported in position and its fork cycle runs (R47) -/
  forkCycle   : Bool
  tag         : TagState
  /-- STOPPING under a fire order to stop, not after a STOP (R134) -/
  fireStop    : Bool
  /-- the current move runs under a fire order to finish (R134, R135) -/
  fireFinish  : Bool
  /-- a RESUME taken while STOPPING after a STOP is kept (R61) -/
  resumeKept  : Bool
  drive       : DriveOrder
  deriving DecidableEq, Repr

/-! ## Spine unit (chapter 6) -/

/-- The state of a spine place (R105). A BLOCKED place may keep a travel record; `lost` names bin and peer of the lost
or caught handoff whose TAKEN may still free the place (R119, R144). -/
inductive PlaceState where
  | empty
  | holding (r : TravelRecord)
  | reserved
  | blocked (kept : Option TravelRecord) (lost : Option (Nat × Nat))
  deriving DecidableEq, Repr

/-- A handoff record; the transfer timer starts at the handoff's stamp (R107). An incoming handoff from another station
carries the OFFER's travel record (R116). -/
structure Handoff where
  bin    : Nat
  peer   : Nat
  timer  : Timer
  record : Option TravelRecord
  deriving DecidableEq, Repr

/-- The claimants of DOWN (R111). -/
inductive Grant where
  | portOut | upNeighbour
  deriving DecidableEq, Repr

/-- The spine unit (R127). -/
structure Spine where
  portOut      : PlaceState
  portIn       : PlaceState
  down         : PlaceState
  up           : PlaceState
  portOutVisit : Option Nat
  inDown       : Option Handoff
  inUp         : Option Handoff
  outDown      : Option Handoff
  outUp        : Option Handoff
  retryDown    : Option Timer
  retryUp      : Option Timer
  lastGrant    : Grant
  waiting      : Bool
  kept         : Bool
  mergeWait    : Option Timer
  routeOpen    : Bool
  driveDown    : Bool
  driveUp      : Bool
  drivePortOut : Bool
  drivePortIn  : Bool
  deriving DecidableEq, Repr

/-! ## Placement unit (chapter 5) -/

/-- The states of an open call (R87). -/
inductive CallState where
  | waitingEval | evaluating | noBid | bidQueued | bidSent | claimQueued | claimSent
  deriving DecidableEq, Repr

/-- An open call table entry (R87). `window` starts at the receipt stamp. -/
structure CallEntry where
  call       : Call
  volume     : Nat
  mass       : Nat
  restricted : Bool
  window     : Timer
  state      : CallState
  /-- own bid: cost and bin -/
  own        : Option (Nat × Nat)
  /-- best other: cost and station -/
  best       : Option (Nat × Nat)
  /-- the held bin left the table while the CLAIM was on the line (R100) -/
  writtenOff : Bool
  deriving DecidableEq, Repr

/-- The placement unit (R104). Calls stand in the order of their arrival. -/
structure Placement where
  sweep : Nat
  calls : List CallEntry
  deriving DecidableEq, Repr

/-! ## Fire unit (chapter 7) -/

/-- The alarm record of a compartment (R128). -/
structure AlarmRec where
  alarmed   : Bool
  epoch     : Nat
  last      : Nat
  smoke     : Bool
  heat      : Bool
  callPoint : Bool
  stamp     : Option Time
  deriving DecidableEq, Repr

/-- The filter of one fire input; `held` is an expiry that fell in START (R129, R151). -/
structure InputFilter where
  timer  : Option Timer
  active : Bool
  held   : Bool
  deriving DecidableEq, Repr

/-- The direction of a shutter drive (R139). -/
inductive ShutterDir where
  | closing | opening
  deriving DecidableEq, Repr

/-- The states of the shutter state machine (R139). -/
inductive ShutterState where
  | isOpen | clearing | closingDrive | shut | opening
  | faultDrive (d : ShutterDir)
  deriving DecidableEq, Repr

/-- The owned shutter (R139, R152). -/
structure Shutter where
  state      : ShutterState
  foundShut  : Bool
  closeLimit : Option Timer
  retry      : Option Timer
  driveLimit : Option Timer
  deriving DecidableEq, Repr

/-- The fire unit (R151); `shutter` is `none` for a station that owns no shutter (R138). -/
structure Fire where
  alarms    : Vector AlarmRec 8
  smoke     : InputFilter
  heat      : InputFilter
  callPoint : InputFilter
  shutter   : Option Shutter
  deriving DecidableEq, Repr

/-! ## Line unit (chapter 9) -/

/-- The block that queued a frame, and what it needs of the outcome (R174). -/
inductive Owner where
  | plain
  | alarm (c : Compartment)
  | closing
  | offer (l : Lane)
  | taken (bin : Nat) (place : TakenPlace) (sending : Nat)
  | bid (c : Call)
  | claim (c : Call)
  deriving DecidableEq, Repr

/-- A frame of the transmit queue. `onLine` holds the latched condition word once the frame has won contention (R169,
R176). -/
structure TxFrame where
  cls    : Nat
  addr   : Nat
  items  : List Item
  owner  : Owner
  onLine : Option Byte
  deriving DecidableEq, Repr

/-- The line unit (R178). Unlisted neighbours are never-heard. -/
structure LineUnit where
  queue      : List TxFrame
  neighbours : Table (Byte × Time)
  discarded  : Bool
  footing    : Bool
  ack        : Bool
  obj        : Bool
  deriving DecidableEq, Repr

/-! ## Config loader (chapter 11) -/

/-- The config loader: the image as read, and CONFIG_CLAMPED (R184, R188). -/
structure Loader where
  image   : List Byte
  clamped : Bool
  deriving DecidableEq, Repr

/-! ## The state -/

/-- The whole state of the station. -/
structure State where
  clock      : Time
  inReset    : Bool
  mode       : Mode
  stockEnded : Bool
  stopTaken  : Bool
  safeMade   : Bool
  loader     : Loader
  cfg        : StationConfig
  pins       : Pins
  dir        : Directory
  limited    : Bool
  planner    : Planner
  crane      : Crane
  spine      : Spine
  placement  : Placement
  fire       : Fire
  line       : LineUnit
  /-- the model's own: how many free values have been drawn (log 15) -/
  free       : Nat
  /-- the model's own: the commands that wait, first in, first out (log 1) -/
  pending    : List Instr
  deriving DecidableEq, Repr

/-- Reasons the station could stop with a fault. The manual names none: a FAULT is a notice and FAULTED a crane state
(R42, R191), so no meaning raises it and no step answers with it (log 24). -/
inductive Fault where
  /-- Raised by no one. Safe: it stands only so that the type has a name for 'the station stopped'. -/
  | stopped
  deriving DecidableEq, Repr

/-- Reasons a command has no meaning. -/
inductive Refusal where
  /-- Raised by `exec` for a row whose meaning is not written yet, by the row's mnemonic. Safe: nothing can be proved
  of a state that is not reached. No arm of `exec` raises it now. -/
  | notModelled (mnemonic : String)
  deriving DecidableEq, Repr

/-! ## Reset -/

/-- The pins as State.reset has them. DESIGN CHOICE (log 4), unsafe: the manual gives no reading. -/
def Pins.unread : Pins :=
  { encCol := 0, encLevel := 0, load := false, slot := false,
    portOut := ⟨false, false⟩, portIn := ⟨false, false⟩, down := ⟨false, false⟩, up := ⟨false, false⟩,
    boundary := false, openSensor := false, closedSensor := false,
    smoke := false, heat := false, callPoint := false }

/-- R25, before the configuration is read. -/
def Directory.reset : Directory :=
  { slots := [], counts := ⟨0, 0, 0, 0⟩, bins := [], loads := [], cursor := some ⟨.L, 1, 1⟩ }

/-- R86. -/
def Planner.reset : Planner :=
  { pool := [], visits := [], nextVisit := 1, seqCount := 0, stow := .absent, mark := false,
    reservations := [], sweep := some ⟨0, 60000⟩, startStamp := none, passed := none }

/-- R63, the encoders reading (0, 0) (log 4), held in the limits of R40 (log 17). -/
def Crane.reset : Crane :=
  { pos := ⟨0, 1⟩, carried := none, state := .idle, current := none, staged := none, unknownLoad := false,
    holdTimer := none, estimateHeld := false, forkCycle := false, tag := .awaited, fireStop := false, fireFinish := false,
    resumeKept := false, drive := .still }

/-- R127, every place sensor reading empty (log 4). -/
def Spine.reset : Spine :=
  { portOut := .empty, portIn := .empty, down := .empty, up := .empty, portOutVisit := none,
    inDown := none, inUp := none, outDown := none, outUp := none, retryDown := none, retryUp := none,
    lastGrant := .portOut, waiting := false, kept := false, mergeWait := none, routeOpen := false,
    driveDown := false, driveUp := false, drivePortOut := false, drivePortIn := false }

/-- R104. -/
def Placement.reset : Placement :=
  { sweep := 0, calls := [] }

/-- R151, every fire input reading inactive (log 4). -/
def Fire.reset : Fire :=
  { alarms := Vector.replicate 8 ⟨false, 0, 0, false, false, false, none⟩,
    smoke := ⟨none, false, false⟩, heat := ⟨none, false, false⟩, callPoint := ⟨none, false, false⟩,
    shutter := none }

/-- R178. -/
def LineUnit.reset : LineUnit :=
  { queue := [], neighbours := [], discarded := false, footing := false, ack := false, obj := false }

/-- The station right after the release of the reset input (R25, R30, R63, R86, R104, R127, R151, R153, R159, R178,
R185, R188). -/
def State.reset : State :=
  { clock := 0, inReset := false, mode := .start, stockEnded := false, stopTaken := false, safeMade := false,
    loader := ⟨[], false⟩, cfg := StationConfig.unread, pins := Pins.unread, dir := Directory.reset,
    limited := false, planner := Planner.reset, crane := Crane.reset, spine := Spine.reset,
    placement := Placement.reset, fire := Fire.reset, line := LineUnit.reset, free := 0, pending := [] }

end Sys2Proof.Machine
end

