-- ==== Sys2Proof/Machine/Ops.lean ====
section
/-! DEFINITION. The operations every block shares: ages and timers (chapter 8), keyed tables, the one update function
for each block of the state, and the frame of an event. -/

namespace Sys2Proof.Machine
open Sys2Proof

/-! ## Ages and timers -/

/-- The age of a stamp at the reading `now`, modulo 2^32 (R155). -/
def age (now stamp : Time) : Nat := (now - stamp).toNat

/-- A timer has expired when the age of its start stamp has reached its duration (R156, 2.2). -/
def Timer.due (now : Time) (t : Timer) : Bool := t.dur ≤ age now t.start

/-- A running timer that has expired; a timer that is not running gives no expiry (R156). -/
def timerDue (now : Time) : Option Timer → Bool
  | some t => t.due now
  | none => false

/-- A running timer that expires exactly at the reading `now`: the age first equals the duration (R156). -/
def timerHits (now : Time) : Option Timer → Bool
  | some t => age now t.start == t.dur
  | none => false

/-! ## Keyed tables

A table lists its records with strictly rising keys. -/

/-- The record at a key. -/
def tblGet {α : Type} : Table α → Nat → Option α
  | [], _ => none
  | (k', v) :: t, k => if k = k' then some v else tblGet t k

/-- Write a record at a key, keeping the order. -/
def tblPut {α : Type} (k : Nat) (v : α) : Table α → Table α
  | [] => [(k, v)]
  | (k', v') :: t =>
    if k < k' then (k, v) :: (k', v') :: t
    else if k = k' then (k, v) :: t
    else (k', v') :: tblPut k v t

/-- Remove the record at a key. -/
def tblErase {α : Type} (k : Nat) : Table α → Table α
  | [] => []
  | (k', v') :: t => if k = k' then t else (k', v') :: tblErase k t

/-- Rewrite the record at a key, if there is one. -/
def tblModify {α : Type} (k : Nat) (f : α → α) (t : Table α) : Table α :=
  match tblGet t k with
  | some v => tblPut k (f v) t
  | none => t

/-- Every key of the table lies above `k`. -/
def tblAbove {α : Type} (k : Nat) : Table α → Bool
  | [] => true
  | (k', _) :: t => decide (k < k') && tblAbove k t

/-- Canonical form: the keys rise strictly. -/
def tblWf {α : Type} : Table α → Bool
  | [] => true
  | (k, _) :: t => tblAbove k t && tblWf t

/-! ## One update for each block of the state -/

def State.setClock (s : State) (v : Time) : State := { s with clock := v }
def State.setMode (s : State) (v : Mode) : State := { s with mode := v }
def State.setStockEnded (s : State) (v : Bool) : State := { s with stockEnded := v }
def State.setStopTaken (s : State) (v : Bool) : State := { s with stopTaken := v }
def State.setSafeMade (s : State) (v : Bool) : State := { s with safeMade := v }
def State.setLoader (s : State) (v : Loader) : State := { s with loader := v }
def State.setCfg (s : State) (v : StationConfig) : State := { s with cfg := v }
def State.setPins (s : State) (v : Pins) : State := { s with pins := v }
def State.setDir (s : State) (v : Directory) : State := { s with dir := v }
def State.setLimited (s : State) (v : Bool) : State := { s with limited := v }
def State.setPlanner (s : State) (v : Planner) : State := { s with planner := v }
def State.setCrane (s : State) (v : Crane) : State := { s with crane := v }
def State.setSpine (s : State) (v : Spine) : State := { s with spine := v }
def State.setPlacement (s : State) (v : Placement) : State := { s with placement := v }
def State.setFire (s : State) (v : Fire) : State := { s with fire := v }
def State.setLine (s : State) (v : LineUnit) : State := { s with line := v }
def State.setFree (s : State) (v : Nat) : State := { s with free := v }
def State.setPending (s : State) (v : List Instr) : State := { s with pending := v }

/-! ## Modes -/

/-- START and UNCONFIGURED: no block takes an item, no drive is commanded (R185, R189). -/
def Mode.idle : Mode → Bool
  | .start | .unconfigured => true
  | _ => false

/-- RUN and GUARD, the modes in which the station works (R137). -/
def Mode.working : Mode → Bool
  | .run | .guard => true
  | _ => false

/-- FIRE and FIRE_SAFE. -/
def Mode.fiery : Mode → Bool
  | .fire | .fireSafe => true
  | _ => false

/-- The station is out of reset and past START with a good configuration. -/
def State.live (s : State) : Bool := !s.inReset && !s.mode.idle

end Sys2Proof.Machine
end

