-- ==== Sys2Proof/Machine/Operands.lean ====
section
/-! DEFINITION. Reading the operands of a command: the sensors at its event, the figures of the configuration, the kind,
class and code of an item, and the item records formed from what the state holds (chapter 10). -/

namespace Sys2Proof
open Machine

/-! ## Sensors -/

/-- A place's sensor reads empty when both of its sensors report no bin (R105). -/
def PlaceSensors.readsEmpty (x : PlaceSensors) : Bool := !x.entry && !x.position

/-- The sensors of a place. -/
def Machine.placeSensors (p : Pins) : SpinePlace → PlaceSensors
  | .portOut => p.portOut
  | .portIn => p.portIn
  | .down => p.down
  | .up => p.up

/-- The sensors of a lane. -/
def Machine.laneSensors (p : Pins) : Lane → PlaceSensors
  | .down => p.down
  | .up => p.up

/-- Whether a fire input reads active. -/
def Machine.inputLevel (p : Pins) : FireInput → Bool
  | .smoke => p.smoke
  | .heat => p.heat
  | .callPoint => p.callPoint

/-- A value held at the nearest limit of lo..hi (2.1). -/
def Machine.hold (lo hi x : Nat) : Nat := max lo (min hi x)

/-- The encoder reading, held within 0..Nc and 1..Nl (R40). -/
def Machine.encoderPos (cfg : StationConfig) (p : Pins) : Pos := ⟨hold 0 cfg.nc p.encCol, hold 1 cfg.nl p.encLevel⟩

/-! ## Configuration -/

/-- The grade figures, the grade held at 1..4 (R9, R20). -/
def Machine.gradeOf (cfg : StationConfig) (g : Nat) : Grade :=
  if g ≤ 1 then cfg.grade1 else if g = 2 then cfg.grade2 else if g = 3 then cfg.grade3 else cfg.grade4

/-- The port's position (R27). -/
def Machine.portPos (cfg : StationConfig) : Pos := ⟨0, cfg.portLevel⟩

/-- The park position (R27). -/
def Machine.parkPos (cfg : StationConfig) : Pos := ⟨cfg.parkCol, cfg.parkLevel⟩

/-- A slot's travel position (R1). -/
def Slot.pos (sl : Slot) : Pos := ⟨sl.col, sl.level⟩

/-- The slot names a slot of the rack (R1). -/
def Machine.inRack (cfg : StationConfig) (sl : Slot) : Bool :=
  decide (1 ≤ sl.col) && decide (sl.col ≤ cfg.nc) && decide (1 ≤ sl.level) && decide (sl.level ≤ cfg.nl)

/-- The slot of the rack that a slot record names, if it names one (R1, R180). -/
def SlotName.slot? (cfg : StationConfig) (n : SlotName) : Option Slot :=
  match n.face with
  | .L => if inRack cfg ⟨.L, n.col, n.level⟩ then some ⟨.L, n.col, n.level⟩ else none
  | .R => if inRack cfg ⟨.R, n.col, n.level⟩ then some ⟨.R, n.col, n.level⟩ else none
  | _ => none

/-- The gateways' numbers (R168). -/
def Machine.isGateway (cfg : StationConfig) (n : Nat) : Bool := n == cfg.gateway1 || n == cfg.gateway2

/-- Desk stations 48..55 (1.1). -/
def Machine.isDeskStation (n : Nat) : Bool := decide (48 ≤ n) && decide (n ≤ 55)

/-- The desk of a desk station, and the desk station of a desk (1.1). -/
def Machine.deskOf (n : Nat) : Desk := Fin.ofNat 8 (n - 48)
def Machine.deskStation (d : Desk) : Nat := 48 + d.val

/-- A restricted bin may be delivered to this desk (R8, R70). -/
def Machine.restrictedDesk (cfg : StationConfig) (d : Desk) : Bool := cfg.restrictedDesks.contains d.val

/-! ## Kinds, classes and codes of items (10.2, R165) -/

/-- The priority class of an item (R165). -/
def Item.cls : Item → Nat
  | .alarm _ | .closing _ | .closed _ | .opened _ | .safe _ | .restore _ => 0
  | .offer _ | .taken _ => 1
  | .roomCall _ | .bid _ | .claim _ => 2
  | .lend _ | .cancel _ | .stockAt _ | .stock _ | .stockEnd | .stop | .resume | .writeOff _ | .query => 3
  | .requestDone _ | .requestFailed _ | .binStored _ | .binOverdue _ | .fault _ | .stationReport _
  | .stockRefused _ => 4

/-- The item code (10.2). -/
def Item.code : Item → Nat
  | .alarm _ => 0x01
  | .closing _ => 0x02
  | .closed _ => 0x03
  | .opened _ => 0x04
  | .safe _ => 0x05
  | .restore _ => 0x06
  | .offer _ => 0x10
  | .taken _ => 0x11
  | .roomCall _ => 0x18
  | .bid _ => 0x19
  | .claim _ => 0x1A
  | .lend _ => 0x20
  | .cancel _ => 0x21
  | .stockAt _ => 0x22
  | .stock _ => 0x23
  | .stockEnd => 0x24
  | .stop => 0x25
  | .resume => 0x26
  | .writeOff _ => 0x27
  | .query => 0x28
  | .requestDone _ => 0x30
  | .requestFailed _ => 0x31
  | .binStored _ => 0x32
  | .binOverdue _ => 0x33
  | .fault _ => 0x34
  | .stationReport _ => 0x35
  | .stockRefused _ => 0x36

/-- Taken from the configured gateways alone (R168). -/
def Item.fromGateway : Item → Bool
  | .lend _ | .cancel _ | .stockAt _ | .stock _ | .stockEnd | .stop | .resume | .writeOff _ | .query => true
  | _ => false

/-! ## Item records formed from the state (10.2) -/

/-- A slot the notice names. -/
def Slot.name (sl : Slot) : SlotName :=
  match sl.face with
  | .L => ⟨.L, sl.col, sl.level⟩
  | .R => ⟨.R, sl.col, sl.level⟩

/-- A slot record that names none: face FFh (10.2). Its column and level octets, of which no rule speaks in a STOCK_REFUSED, are sent
as 0, 0: the model's choice (log 43). -/
def SlotName.nowhere : SlotName := ⟨.none, 0, 0⟩

/-- A move's target: the slot, or the position with face 2 (R182). -/
def Machine.Target.name : Target → SlotName
  | .slot sl => sl.name
  | .pos p => ⟨.position, p.col, p.level⟩

/-- The position a target stands at (R32). -/
def Machine.Target.at : Target → Pos
  | .slot sl => sl.pos
  | .pos p => p

/-- The place octet as a number, for the code field of FAULT (10.2, R182). -/
def PlaceCode.num : PlaceCode → Nat
  | .none => 0
  | .crane => 1
  | .portOut => 2
  | .portIn => 3
  | .down => 4
  | .up => 5

def Lane.place : Lane → PlaceCode
  | .down => .down
  | .up => .up

def Lane.takenPlace : Lane → TakenPlace
  | .down => .down
  | .up => .up

/-- Move kinds in the code field of CRANE_STALL (R182). -/
def Machine.MoveKind.num : MoveKind → Nat
  | .fetch => 1
  | .deliver => 2
  | .takeIn => 3
  | .store => 4
  | .park => 5

/-- Directions in the code field of SHUTTER_FAULT (R182). -/
def Machine.ShutterDir.num : ShutterDir → Nat
  | .closing => 1
  | .opening => 2

/-- The kind octet of a location (10.2). -/
def Machine.Location.kind : Location → LocationKind
  | .crane => .crane
  | .portOut => .portOut
  | .portIn => .portIn
  | .lane _ .down => .laneDown
  | .lane _ .up => .laneUp
  | .desk _ => .desk
  | .caught _ => .caught
  | .unknown => .unknown

/-- The value octet of a location (10.2). -/
def Machine.Location.value : Location → Nat
  | .lane x _ => x
  | .desk d => d.val
  | .caught b => b
  | _ => 0

/-- A FAULT with every field its kind does not use at 0, and no slots (R182). -/
def Machine.faultBody (k : FaultKind) : FaultBody :=
  { kind := k, bin := 0, second := 0, slotA := SlotName.nowhere, slotB := SlotName.nowhere, code := 0, place := 0, hop := 0 }

/-- The code octet of a FAULT whose kind has a place there names one of the places 0..5 (R180, R182). -/
def FaultBody.placed (b : FaultBody) : Bool :=
  match b.kind with
  | .portTag | .handoffLost | .binCaught => decide (b.code ≤ 5)
  | _ => true

/-- The value octet of a BIN_OVERDUE whose location is a desk names one of the desks 0..7 (R180). -/
def BinOverdueBody.placed (b : BinOverdueBody) : Bool := b.kind != .desk || decide (b.value ≤ 7)

/-- The cause a fire input gives an ALARM (R130). -/
def FireInput.cause : FireInput → Cause
  | .smoke => .smoke
  | .heat => .heat
  | .callPoint => .callPoint

end Sys2Proof
end

