-- ==== Sys2Proof/Machine/Estimator.lean ====
section
/-! DEFINITION. The travel estimator (chapter 2): axis times in exact integers, legs, round trips, remaining time. The
one state it holds is the sticky LIMITED flag; an answer comes with the note whether an axis time was held (R29). -/

namespace Sys2Proof.Machine
open Sys2Proof

/-- The quotient rounded upward. -/
def ceilDiv (n d : Nat) : Nat := (n + d - 1) / d

/-- The greatest `t + x`, x below 2^k, whose square is below `q`, one bit at a time. -/
def sqrtBelow (q : Nat) : Nat → Nat → Nat
  | 0, t => t
  | k + 1, t => if (t + 2 ^ k) * (t + 2 ^ k) < q then sqrtBelow q k (t + 2 ^ k) else sqrtBelow q k t

/-- The least integer whose square is at least `q` (R28). -/
def ceilSqrt (q : Nat) : Nat := if q = 0 then 0 else sqrtBelow q (q.log2 / 2 + 1) 0 + 1

/-- The axis time of R28, before it is held. -/
def axisExact (d v a : Nat) : Nat :=
  if d = 0 then 0
  else if v * v ≤ d * a then ceilDiv (1000 * (d * a + v * v)) (v * a)
  else ceilSqrt (ceilDiv (4000000 * d) a)

/-- The axis time held at 65,535 (R29). -/
def axisTime (d v a : Nat) : Nat := min 65535 (axisExact d v a)

/-- The hold of R29 takes effect. -/
def axisHeld (d v a : Nat) : Bool := decide (65535 < axisExact d v a)

/-- The distance of two columns or two levels. -/
def gap (a b : Nat) : Nat := max a b - min a b

def legX (cfg : StationConfig) (a b : Pos) : Nat := gap a.col b.col * cfg.pc
def legY (cfg : StationConfig) (a b : Pos) : Nat := gap a.level b.level * cfg.pl

/-- The leg estimate between two positions, with the fork time or, for a PARK, without (R31). -/
def legTime (cfg : StationConfig) (a b : Pos) (fork : Bool) : Nat :=
  max (axisTime (legX cfg a b) cfg.vx cfg.ax) (axisTime (legY cfg a b) cfg.vy cfg.ay) + cfg.settleTime
    + (if fork then cfg.forkTime else 0)

/-- One of the leg's axis times was held (R29). -/
def legHeld (cfg : StationConfig) (a b : Pos) : Bool :=
  axisHeld (legX cfg a b) cfg.vx cfg.ax || axisHeld (legY cfg a b) cfg.vy cfg.ay

/-- The fork time is included for every move kind but PARK (R32). -/
def MoveKind.forks : MoveKind → Bool
  | .park => false
  | _ => true

/-- Note a held axis time in the LIMITED flag (R29). -/
def noteHeld (h : Bool) (s : State) : State := s.setLimited (s.limited || h)

/-- The round trip of a slot (R34). -/
def roundTrip (cfg : StationConfig) (sl : Slot) : Nat := 2 * legTime cfg (portPos cfg) sl.pos true

def roundTripHeld (cfg : StationConfig) (sl : Slot) : Bool := legHeld cfg (portPos cfg) sl.pos

/-- The elapsed-time reduction of an estimate: held at 0 below (R33). -/
def remainingOf (now : Time) (m : Move) : Nat :=
  match m.timer with
  | some t => m.estimate - age now t.start
  | none => m.estimate

/-- The remaining time of the current move: 0 when none is current and while it is being abandoned, the full estimate
while the crane is HOLDING (R33). -/
def remainingTime (s : State) : Nat :=
  match s.crane.state, s.crane.current with
  | .moving, some m => remainingOf s.clock m
  | .holding, some m => m.estimate
  | _, _ => 0

/-- A remaining time that is asked for rests on a held axis time: a move that counts is current and its estimate was held (R29, R33;
log 29). -/
def remainingHeld (s : State) : Bool :=
  match s.crane.state, s.crane.current with
  | .moving, some _ | .holding, some _ => s.crane.estimateHeld
  | _, _ => false

end Sys2Proof.Machine
end

