-- ==== Sys2Proof/Machine/Directory.lean ====
section
/-! DEFINITION. The directory (chapter 1): slot records, bin table, column loads, stock cursor, lock map, and each of its
changes as one step on all of them (R3). The changes are functions of the directory alone, with the configuration and the
clock reading as arguments. -/

namespace Sys2Proof.Machine
open Sys2Proof

/-! ## Slot records and their counts (R2) -/

/-- The key of a slot in the slot table. -/
def slotKey (sl : Slot) : Nat := (match sl.face with | .L => 0 | .R => 1) * 65536 + sl.col * 256 + sl.level

/-- The key of a column face in the column load table (R12). -/
def faceKey (sl : Slot) : Nat := (match sl.face with | .L => 0 | .R => 1) * 256 + sl.col

/-- The record of a slot; a slot not listed is EMPTY without doubt (R25). -/
def Directory.slotRec (d : Directory) (sl : Slot) : SlotRec := (tblGet d.slots (slotKey sl)).getD ⟨.empty, false⟩

/-- A slot leaves a state (R2). -/
def SlotCounts.leave (c : SlotCounts) : SlotState → SlotCounts
  | .empty => { c with empties := c.empties - 1 }
  | .occupied _ => { c with occupied := c.occupied - 1 }
  | .reserved _ => { c with reserved := c.reserved - 1 }
  | .bad => { c with bad := c.bad - 1 }

/-- A slot enters a state (R2). -/
def SlotCounts.enter (c : SlotCounts) : SlotState → SlotCounts
  | .empty => { c with empties := c.empties + 1 }
  | .occupied _ => { c with occupied := c.occupied + 1 }
  | .reserved _ => { c with reserved := c.reserved + 1 }
  | .bad => { c with bad := c.bad + 1 }

/-- Write a slot record; the counts change as the slot leaves one state and enters the other (R2). -/
def Directory.setSlot (d : Directory) (sl : Slot) (r : SlotRec) : Directory :=
  { d with
    slots := if r = ⟨.empty, false⟩ then tblErase (slotKey sl) d.slots else tblPut (slotKey sl) r d.slots
    counts := (d.counts.leave (d.slotRec sl).state).enter r.state }

/-- A slot's state and doubt mark. -/
def Directory.slotState (d : Directory) (sl : Slot) : SlotState := (d.slotRec sl).state
def Directory.slotDoubt (d : Directory) (sl : Slot) : Bool := (d.slotRec sl).doubt

/-! ## Bin table (R9) -/

/-- The entry of a bin. The table is keyed 1..65535, and bin id 0 names none (R9, R180). -/
def Directory.bin (d : Directory) (b : Nat) : Option BinEntry := if b = 0 then none else tblGet d.bins b

def Directory.setBin (d : Directory) (b : Nat) (e : BinEntry) : Directory := { d with bins := tblPut b e d.bins }
def Directory.dropBin (d : Directory) (b : Nat) : Directory := { d with bins := tblErase b d.bins }

/-- The bin is OUT (R9). -/
def BinEntry.isOut (e : BinEntry) : Bool :=
  match e.status with
  | .out _ _ => true
  | .stored => false

/-- The bin is in the table and OUT. -/
def Directory.isOut (d : Directory) (b : Nat) : Bool :=
  match d.bin b with
  | some e => e.isOut
  | none => false

/-- The bin is in the table and STORED. -/
def Directory.isStored (d : Directory) (b : Nat) : Bool :=
  match d.bin b with
  | some e => !e.isOut
  | none => false

/-- The bin's doubt flag (R4, R5). -/
def Directory.isDoubted (d : Directory) (b : Nat) : Bool :=
  match d.bin b with
  | some e => e.doubt
  | none => false

/-! ## Column loads (R12) -/

/-- What a bin puts on its column face: tare, mass and promised mass (R12). -/
def binShare (cfg : StationConfig) (e : BinEntry) : Nat := (gradeOf cfg e.grade).tare + e.mass + e.promMass

/-- The load of a slot's column face. -/
def Directory.load (d : Directory) (sl : Slot) : Nat := (tblGet d.loads (faceKey sl)).getD 0

/-- Write the load of a slot's column face; a load of 0 is not listed. -/
def Directory.setLoad (d : Directory) (sl : Slot) (n : Nat) : Directory :=
  { d with loads := if n = 0 then tblErase (faceKey sl) d.loads else tblPut (faceKey sl) n d.loads }

def Directory.addLoad (d : Directory) (sl : Slot) (n : Nat) : Directory := d.setLoad sl (d.load sl + n)
def Directory.subLoad (d : Directory) (sl : Slot) (n : Nat) : Directory := d.setLoad sl (d.load sl - n)

/-- A column face is over while its load exceeds the column mass limit (R12). -/
def Directory.over (cfg : StationConfig) (d : Directory) (sl : Slot) : Bool := decide (cfg.columnMassLimit < d.load sl)

/-- Replace a bin's entry, its column face losing the old share and gaining the new (R12). -/
def Directory.rewriteBin (cfg : StationConfig) (d : Directory) (b : Nat) (old new : BinEntry) : Directory :=
  ((d.setBin b new).subLoad old.slot (binShare cfg old)).addLoad new.slot (binShare cfg new)

/-! ## Lock map (R7, R8) -/

/-- The length L of a lock code's run of columns: max(1, floor(Nc/n)) (R7). -/
def lockRun (nc n : Nat) : Nat := max 1 (nc / n)

/-- The column is in the code's set, without the complement bit (R7). -/
def lockSet (nc col : Nat) : Nat → Bool
  | 0 => false
  | 1 => decide (nc - lockRun nc 8 + 1 ≤ col)
  | 2 => decide (nc - lockRun nc 4 + 1 ≤ col)
  | 3 => decide (nc - lockRun nc 2 + 1 ≤ col)
  | 4 => decide (col ≤ lockRun nc 8)
  | 5 => decide (col ≤ lockRun nc 4)
  | 6 => decide (col ≤ lockRun nc 2)
  | _ => true

/-- The slot is locked (R7). -/
def lockedSlot (cfg : StationConfig) (sl : Slot) : Bool :=
  let lc := match sl.face with | .L => cfg.lockL | .R => cfg.lockR
  lockSet cfg.nc sl.col lc.code != lc.complement

/-! ## Slot choice (R17) -/

/-- Every slot of the rack, ordered by column, then level, then face L before face R. -/
def rackSlots (cfg : StationConfig) : List Slot :=
  (List.range cfg.nc).flatMap fun c => (List.range cfg.nl).flatMap fun l => [⟨.L, c + 1, l + 1⟩, ⟨.R, c + 1, l + 1⟩]

/-- The slots R17 keeps for a bin of that restricted flag and share. -/
def Directory.keptSlots (cfg : StationConfig) (d : Directory) (restricted : Bool) (share : Nat) : List Slot :=
  (rackSlots cfg).filter fun sl =>
    d.slotRec sl == ⟨.empty, false⟩ && lockedSlot cfg sl == restricted && decide (d.load sl + share ≤ cfg.columnMassLimit)

/-- The first slot of least leg from a position; earlier slots of the list win ties. -/
def nearestSlot (cfg : StationConfig) (start : Pos) : List Slot → Option Slot
  | [] => none
  | sl :: rest =>
    match nearestSlot cfg start rest with
    | none => some sl
    | some best => if legTime cfg start best.pos true < legTime cfg start sl.pos true then some best else some sl

/-- The slot chosen for a bin of that restricted flag and share, from a start position (R17). -/
def Directory.chooseSlot (cfg : StationConfig) (d : Directory) (restricted : Bool) (share : Nat) (start : Pos) : Option Slot :=
  nearestSlot cfg start (d.keptSlots cfg restricted share)

/-- An axis time was held while the kept slots were compared (R29). -/
def Directory.chooseHeld (cfg : StationConfig) (d : Directory) (restricted : Bool) (share : Nat) (start : Pos) : Bool :=
  (d.keptSlots cfg restricted share).any fun sl => legHeld cfg start sl.pos

/-! ## Changes for the crane and the spine (1.6) -/

/-- The content values a store may carry (R14). -/
structure Contents where
  fill       : Nat
  mass       : Nat
  count      : Nat
  restricted : Bool
  deriving DecidableEq, Repr

/-- The content values of a travel record (R58, R103). -/
def recordContents (r : TravelRecord) : Contents := ⟨r.fill, r.mass, r.count, r.restricted⟩

/-- The room part of a travel record that carries a call (R58). -/
def recordRoom (r : TravelRecord) : Option (Nat × Nat) := r.call.map fun c => (c.volume, c.mass)

/-- Take-out (R13); `none` when it is refused. -/
def Directory.takeOut (now : Time) (d : Directory) (b : Nat) : Option Directory :=
  match d.bin b with
  | some e =>
    if e.isOut then none
    else some ((d.setSlot e.slot ⟨.reserved b, false⟩).setBin b { e with status := .out .crane now, overdue := false })
  | none => none

/-- The room part's volume and mass leave the promised fields, held at 0 below (R14 step 1, R11). -/
def BinEntry.lessRoom (e : BinEntry) (v m : Nat) : BinEntry :=
  { e with promVolume := e.promVolume - v, promMass := e.promMass - m }

/-- The content values as carried, held at what the promised values leave (R14 step 2, R103). -/
def BinEntry.withContents (cfg : StationConfig) (e : BinEntry) (c : Contents) : BinEntry :=
  { e with
    fill := min c.fill ((gradeOf cfg e.grade).capacity - e.promVolume)
    mass := min c.mass ((gradeOf cfg e.grade).massLimit - e.promMass)
    count := min c.count 63
    restricted := c.restricted }

/-- The entry a store leaves (R14 steps 1 to 3). -/
def storedEntry (cfg : StationConfig) (e : BinEntry) (content : Option Contents) (room : Option (Nat × Nat)) : BinEntry :=
  let e1 := match room with | some (v, m) => e.lessRoom v m | none => e
  let e2 := match content with | some c => e1.withContents cfg c | none => e1
  { e2 with status := .stored, overdue := false }

/-- Store (R14); `none` when it is refused. -/
def Directory.store (cfg : StationConfig) (d : Directory) (b : Nat) (content : Option Contents) (room : Option (Nat × Nat)) :
    Option Directory :=
  match d.bin b with
  | some e =>
    if e.isOut then
      some ((d.setSlot e.slot ⟨.occupied b, false⟩).rewriteBin cfg b e (storedEntry cfg e content room))
    else none
  | none => none

/-- Re-slot of a bin OUT with `old` RESERVED for it, from a position (R15): the new slot and the directory after. -/
def Directory.reslot (cfg : StationConfig) (d : Directory) (b : Nat) (old : Slot) (start : Pos) : Option (Slot × Directory) :=
  match d.bin b with
  | some e =>
    if e.isOut && e.slot == old && d.slotState old == .reserved b then
      match d.chooseSlot cfg e.restricted (binShare cfg e) start with
      | some new =>
        some (new, ((d.setSlot old ⟨.bad, false⟩).setSlot new ⟨.reserved b, false⟩).rewriteBin cfg b e { e with slot := new })
      | none => none
    else none
  | none => none

/-- The re-slot's choice held an axis time (R29). -/
def Directory.reslotHeld (cfg : StationConfig) (d : Directory) (b : Nat) (old : Slot) (start : Pos) : Bool :=
  match d.bin b with
  | some e =>
    e.isOut && e.slot == old && d.slotState old == .reserved b && d.chooseHeld cfg e.restricted (binShare cfg e) start
  | none => false

/-- Locate (R16). -/
def Directory.locate (d : Directory) (b : Nat) (loc : Location) : Directory :=
  match d.bin b with
  | some e =>
    match e.status with
    | .out _ since => d.setBin b { e with status := .out loc since }
    | .stored => d
  | none => d

/-- The entry an adoption makes from a travel record (R18). -/
def adoptedEntry (cfg : StationConfig) (now : Time) (r : TravelRecord) (sl : Slot) (loc : Location) : BinEntry :=
  let g := hold 1 4 r.grade
  { grade := g, fill := min r.fill (gradeOf cfg g).capacity, mass := min r.mass (gradeOf cfg g).massLimit
    count := min r.count 63, restricted := r.restricted, slot := sl, status := .out loc now, overdue := false
    promVolume := 0, promMass := 0, doubt := false }

/-- The share of a bin of the travel record's grade and of its mass as carried, with promised mass 0 (R17, R18). -/
def recordShare (cfg : StationConfig) (r : TravelRecord) : Nat := (gradeOf cfg (hold 1 4 r.grade)).tare + r.mass

/-- The slot for an adoption, chosen from the port (R17, R18). A record of bin id 0 names no bin, and no slot is found for it
(log 32). -/
def Directory.adoptSlot (cfg : StationConfig) (d : Directory) (r : TravelRecord) : Option Slot :=
  if r.bin = 0 then none else d.chooseSlot cfg r.restricted (recordShare cfg r) (portPos cfg)

/-- The adoption's slot choice held an axis time (R29). -/
def Directory.adoptHeld (cfg : StationConfig) (d : Directory) (r : TravelRecord) : Bool :=
  r.bin != 0 && d.chooseHeld cfg r.restricted (recordShare cfg r) (portPos cfg)

/-- Adoption into the chosen slot (R18); `none` when no slot is found. -/
def Directory.adopt (cfg : StationConfig) (now : Time) (d : Directory) (r : TravelRecord) (loc : Location) : Option Directory :=
  match d.adoptSlot cfg r with
  | some sl =>
    let e := adoptedEntry cfg now r sl loc
    some (((d.setSlot sl ⟨.reserved r.bin, false⟩).setBin r.bin e).addLoad sl (binShare cfg e))
  | none => none

/-! ## Holds (R11) -/

/-- The three tests of a hold, and that its bin is STORED and not doubt-marked (R11). -/
def Directory.holdFits (cfg : StationConfig) (d : Directory) (e : BinEntry) (v m : Nat) : Bool :=
  !e.isOut && !e.doubt && decide (e.fill + e.promVolume + v ≤ (gradeOf cfg e.grade).capacity)
    && decide (e.mass + e.promMass + m ≤ (gradeOf cfg e.grade).massLimit)
    && decide (d.load e.slot + m ≤ cfg.columnMassLimit)

/-- Place a hold (R11); `none` when it is refused. -/
def Directory.placeHold (cfg : StationConfig) (d : Directory) (b v m : Nat) : Option Directory :=
  match d.bin b with
  | some e =>
    if d.holdFits cfg e v m then
      some ((d.setBin b { e with promVolume := e.promVolume + v, promMass := e.promMass + m }).addLoad e.slot m)
    else none
  | none => none

/-- Release a hold: v and m leave the promised fields and m the column load, held at 0 below (R11). The whole of m leaves the
load, though less of it may still be promised (log 31). -/
def Directory.releaseHold (d : Directory) (b v m : Nat) : Directory :=
  match d.bin b with
  | some e => (d.setBin b (e.lessRoom v m)).subLoad e.slot m
  | none => d

/-! ## Doubt (R4) -/

/-- Set the doubt mark of the slot of a STORED bin, and the bin's flag with it (R4). -/
def Directory.doubtBin (d : Directory) (b : Nat) : Directory :=
  match d.bin b with
  | some e => if e.isOut then d else (d.setSlot e.slot { d.slotRec e.slot with doubt := true }).setBin b { e with doubt := true }
  | none => d

/-- Doubt marking after MISMATCH(x) at the slot where `b` is recorded (R4). -/
def Directory.markDoubt (d : Directory) (b x : Nat) : Directory :=
  if x = b then d.doubtBin b else (d.doubtBin b).doubtBin x

/-! ## Stocking and write-off (1.7, 1.8) -/

/-- The cursor after a STOCK body: by level, then column, then face; `none` is end (R19). -/
def nextCursor (cfg : StationConfig) (sl : Slot) : Option Slot :=
  if sl.level < cfg.nl then some { sl with level := sl.level + 1 }
  else if sl.col < cfg.nc then some { sl with col := sl.col + 1, level := 1 }
  else match sl.face with
    | .L => some ⟨.R, 1, 1⟩
    | .R => none

/-- Why a STOCK body or a STOCK_AT is refused, with the numbers of 10.2. -/
inductive StockReason where
  | duplicateBin | cursorEnd | slotBusy | notReady
  deriving DecidableEq, Repr

def StockReason.num : StockReason → Nat
  | .duplicateBin => 1
  | .cursorEnd => 2
  | .slotBusy => 3
  | .notReady => 4

/-- The entry a stock body enters or rewrites in a slot; `pv` and `pm` are the promised fields it keeps (R20). -/
def stockEntry (cfg : StationConfig) (body : StockBody) (sl : Slot) (pv pm : Nat) : BinEntry :=
  let g := hold 1 4 body.grade
  let v := min pv (gradeOf cfg g).capacity
  let m := min pm (gradeOf cfg g).massLimit
  { grade := g, fill := min body.fill ((gradeOf cfg g).capacity - v), mass := min body.mass ((gradeOf cfg g).massLimit - m)
    count := min body.count 63, restricted := body.restricted, slot := sl, status := .stored, overdue := false
    promVolume := v, promMass := m, doubt := false }

/-- A bin leaves the table with its share of the column load (R21, R24). -/
def Directory.removeBin (cfg : StationConfig) (d : Directory) (b : Nat) : Directory :=
  match d.bin b with
  | some e => (d.dropBin b).subLoad e.slot (binShare cfg e)
  | none => d

/-- Enter a bin in a slot (R20). -/
def Directory.enterBin (cfg : StationConfig) (d : Directory) (body : StockBody) (sl : Slot) (pv pm : Nat) : Directory :=
  let e := stockEntry cfg body sl pv pm
  ((d.setSlot sl ⟨.occupied body.bin, false⟩).setBin body.bin e).addLoad sl (binShare cfg e)

/-- The tests of R20 that refuse a body for the slot at the cursor, in the order of the table. `late` says that the
recorded bin has a visit STAGED or later. -/
def Directory.stockRefusal (d : Directory) (sl : Slot) (bin : Nat) (late : Bool) : Option StockReason :=
  let busy : Bool := match d.slotState sl with
    | .reserved _ => true
    | .occupied a =>
      late || (!d.slotDoubt sl && match d.bin a with
        | some e => decide (0 < e.promVolume) || decide (0 < e.promMass)
        | none => false)
    | .bad => bin != 0
    | .empty => false
  if busy then some .slotBusy
  else if bin != 0 && (match d.bin bin with | some e => e.slot != sl | none => false) then some .duplicateBin
  else none

/-- A body that passes the tests, applied to the slot at the cursor: the directory after, and the bin it removed (R20,
R21). -/
def Directory.stockApply (cfg : StationConfig) (d : Directory) (sl : Slot) (body : StockBody) : Directory × Option Nat :=
  match d.slotState sl with
  | .occupied a =>
    if body.bin = a then
      let (pv, pm) := match d.bin a with | some e => (e.promVolume, e.promMass) | none => (0, 0)
      ((d.removeBin cfg a).enterBin cfg body sl pv pm, none)
    else if body.bin = 0 then ((d.removeBin cfg a).setSlot sl ⟨.empty, false⟩, some a)
    else ((d.removeBin cfg a).enterBin cfg body sl 0 0, some a)
  | _ =>
    if body.bin = 0 then (d.setSlot sl ⟨.empty, false⟩, none) else (d.enterBin cfg body sl 0 0, none)

/-- WRITE_OFF is taken: the bin is OUT at CAUGHT or UNKNOWN (R24). -/
def Directory.lostBin (d : Directory) (b : Nat) : Bool :=
  match d.bin b with
  | some e =>
    match e.status with
    | .out (.caught _) _ => true
    | .out .unknown _ => true
    | _ => false
  | none => false

/-- Write-off (R24): the slot becomes EMPTY, the share leaves the load, the entry goes. -/
def Directory.writeOff (cfg : StationConfig) (d : Directory) (b : Nat) : Directory :=
  match d.bin b with
  | some e => (d.removeBin cfg b).setSlot e.slot ⟨.empty, false⟩
  | none => d

end Sys2Proof.Machine
end

