-- ==== Sys2Proof/Machine/Routes.lean ====
section
/-! DEFINITION. Segments, compartments and boundaries, and the route test (R108, R109). -/

namespace Sys2Proof.Machine
open Sys2Proof

/-- The compartments, highest number first. -/
def compartmentsDown : List Compartment := [7, 6, 5, 4, 3, 2, 1, 0]

/-- The compartment of a segment: the highest-numbered used one whose lowest segment is at or below it (R108). -/
def compOf (cfg : StationConfig) (seg : Nat) : Option Compartment :=
  compartmentsDown.find? fun c =>
    match cfg.compMap.get c with
    | some lo => decide (lo ≤ seg)
    | none => false

/-- The station's own compartment (R128). A configured station has one (R186). -/
def ownComp (cfg : StationConfig) : Compartment := (compOf cfg cfg.segment).getD 0

/-- A boundary stands at segment `b` (R108). -/
def isBoundary (cfg : StationConfig) (b : Nat) : Bool :=
  compartmentsDown.any fun c => cfg.compMap.get c == some b && some c != compOf cfg 0

/-- The station owns the shutter at its own segment (R138). -/
def ownsShutter (cfg : StationConfig) : Bool := isBoundary cfg cfg.segment

/-- The lower compartment of the owned shutter (R138). -/
def lowerComp (cfg : StationConfig) : Option Compartment := compOf cfg (cfg.segment - 1)

/-- The compartment borders the owned shutter (R138). -/
def bordersShutter (cfg : StationConfig) (c : Compartment) : Bool := c == ownComp cfg || some c == lowerComp cfg

/-- The alarm records show the compartment alarmed (R128). -/
def Fire.alarmed (f : Fire) (c : Compartment) : Bool := (f.alarms.get c).alarmed

/-- A segment's compartment is not alarmed. A segment below every used entry of the map lies in none and counts as clear
(log 35). -/
def segClear (cfg : StationConfig) (f : Fire) (seg : Nat) : Bool :=
  match compOf cfg seg with
  | some c => !f.alarmed c
  | none => true

/-- The owned-shutter field of a condition word, bits 4..3 (R179). -/
def shutterField (w : Byte) : Nat := w.toNat / 8 % 4

/-- The own shutter state machine is OPEN (R139). -/
def Fire.shutterOpen (f : Fire) : Bool :=
  match f.shutter with
  | some x => x.state == .isOpen
  | none => false

/-- The boundary at segment `b` shows OPEN (R109). -/
def showsOpen (s : State) (b : Nat) : Bool :=
  if b = s.cfg.segment then s.fire.shutterOpen
  else match tblGet s.line.neighbours b with
    | some (w, _) => shutterField w == 1
    | none => false

/-- Every segment lo..hi is clear, and every boundary above lo up to hi shows OPEN (R109). -/
def spanOpen (s : State) (lo hi : Nat) : Bool :=
  (List.range (hi + 1)).all fun j =>
    decide (j < lo) || (segClear s.cfg s.fire j && (j == lo || !isBoundary s.cfg j || showsOpen s j))

/-- The down route, toward every desk, is open (R109). -/
def downOpen (s : State) : Bool := spanOpen s 0 s.cfg.segment

/-- The up route toward a home station is open; a bin at its own home station has an open route (R109). -/
def upOpen (s : State) (home : Nat) : Bool := home == s.cfg.station || spanOpen s s.cfg.segment (max s.cfg.segment home)

/-- The route of a bin on the spine is open (R108, R109). -/
def routeOpenFor (s : State) (r : TravelRecord) : Bool :=
  match r.dest with
  | .desk _ => downOpen s
  | .home => upOpen s r.home

/-- No boundary lies between two segments, or each one shows OPEN and neither compartment beside it is alarmed (R115,
test 2). -/
def crossingOpen (s : State) (lo hi : Nat) : Bool :=
  (List.range (hi + 1)).all fun b =>
    decide (b ≤ lo) || !isBoundary s.cfg b || (showsOpen s b && segClear s.cfg s.fire b && segClear s.cfg s.fire (b - 1))

end Sys2Proof.Machine
end

