-- ==== Sys2Proof/Machine/Planner.lean ====
section
/-! DEFINITION. The planner's own records (chapter 4): the request pool, visits, ranks, the readiness test, hand-backs,
releases, route reports and reservations. Choosing the crane's work stands in Machine/Select.lean. -/

namespace Sys2Proof.Machine
open Sys2Proof

/-! ## Visits -/

/-- The waiting states, those before STAGED (R67). -/
def VisitState.waiting : VisitState → Bool
  | .waitingBin | .waitingRoute | .ready => true
  | _ => false

/-- FETCHING or a later state (R91). -/
def VisitState.fetched : VisitState → Bool
  | .waitingBin | .waitingRoute | .ready | .staged => false
  | _ => true

/-- WAITING_BIN to DELIVERING (R70, R72). -/
def VisitState.beforePort : VisitState → Bool
  | .atPort | .onSpine => false
  | _ => true

/-- The visit of a number. -/
def Planner.visit (pl : Planner) (n : Nat) : Option Visit := pl.visits.find? fun v => v.number == n

/-- Rewrite the visit of a number. -/
def Planner.modifyVisit (pl : Planner) (n : Nat) (f : Visit → Visit) : Planner :=
  { pl with visits := pl.visits.map fun v => if v.number = n then f v else v }

def Planner.removeVisit (pl : Planner) (n : Nat) : Planner := { pl with visits := pl.visits.filter fun v => v.number != n }

def Planner.setVisitState (pl : Planner) (n : Nat) (st : VisitState) : Planner := pl.modifyVisit n fun v => { v with state := st }

/-- Free the pool entries of a list of requests (R64). -/
def freeRequests (ids : List Nat) (pool : Table Request) : Table Request := ids.foldl (fun t i => tblErase i t) pool

def Planner.freePool (pl : Planner) (ids : List Nat) : Planner := { pl with pool := freeRequests ids pl.pool }

/-- The request is in the pool and QUEUED (R64). -/
def Planner.queued (pl : Planner) (id : Nat) : Bool :=
  match tblGet pl.pool id with
  | some r => r.state == .queued
  | none => false

/-- A visit's QUEUED requests, in list order. -/
def Planner.queuedOf (pl : Planner) (v : Visit) : List Nat := v.requests.filter pl.queued

/-- The rank a visit carries (R66). -/
def Planner.rankOf (pl : Planner) (requests : List Nat) (room : Option RoomPart) : Rank :=
  if requests.any (fun id => match tblGet pl.pool id with
      | some r => r.state == .queued && r.rank == .urgent
      | none => false) then .urgent
  else if room.isSome then .room else .normal

/-- Of two visits, `a` was made first: the difference of the sequence numbers, modulo 2^32, is below 2^31 (R65, log 11). -/
def madeFirst (a b : Visit) : Bool := decide ((b.seq - a.seq).toNat < 2 ^ 31) && a.seq != b.seq

/-- The readiness test (R68). -/
def readiness (s : State) (bin : Nat) : VisitState :=
  if !s.dir.isStored bin || s.dir.isDoubted bin then .waitingBin
  else if downOpen s then .ready else .waitingRoute

/-- The number of a new visit: the next one counting 255 on to 1 that no visit uses (R65). -/
def freeNumber (pl : Planner) : Nat → Nat → Nat
  | 0, n => n
  | fuel + 1, n => if pl.visits.any (fun v => v.number == n) then freeNumber pl fuel (n % 255 + 1) else n

/-- Make a new visit at the end of the list (R65, R71, R72). -/
def makeVisit (s : State) (bin : Nat) (desk : Desk) (rank : Rank) (requests : List Nat) (room : Option RoomPart) : Visit :=
  { number := freeNumber s.planner 255 s.planner.nextVisit, bin := bin, desk := desk, rank := rank
    requests := requests, room := room, stamp := s.clock, seq := s.planner.seqCount, state := readiness s bin }

def Planner.addVisit (pl : Planner) (v : Visit) : Planner :=
  { pl with visits := pl.visits ++ [v], nextVisit := v.number % 255 + 1, seqCount := pl.seqCount + 1 }

/-- The visit of this bin to this desk that stands in a waiting state (R70, R71). -/
def Planner.waitingVisit (pl : Planner) (bin : Nat) (desk : Desk) : Option Visit :=
  pl.visits.find? fun v => v.bin == bin && v.desk == desk && v.state.waiting

/-! ## Hand-back (R68) -/

/-- Requests of a visit are listed by the visit of another number. -/
def relist (ids : List Nat) (n : Nat) (pool : Table Request) : Table Request :=
  ids.foldl (fun t i => tblModify i (fun r => { r with visit := n }) t) pool

/-- The visit as it returns to the waiting states: rank computed, readiness test applied (R66, R68). -/
def Planner.replaced (pl : Planner) (s : State) (v : Visit) : Planner :=
  pl.modifyVisit v.number fun _ => { v with rank := pl.rankOf v.requests v.room, state := readiness s v.bin }

/-- Merge `b` into `a`: the first keeps number, stamp and sequence number and takes the other's requests, and its room
part if it has none (R68). -/
def mergeVisits (a b : Visit) : Visit :=
  { a with requests := a.requests ++ b.requests, room := a.room.or b.room }

/-- A hand-back of the visit of a number (R68). -/
def handBack (n : Nat) (s : State) : State :=
  match s.planner.visit n with
  | none => s
  | some v0 =>
    let kept := s.planner.queuedOf v0
    let pl := s.planner.freePool (v0.requests.filter fun id => !s.planner.queued id)
    let v := { v0 with requests := kept }
    if kept.isEmpty && v.room.isNone then s.setPlanner (pl.removeVisit n)
    else
      match pl.visits.find? (fun w => w.number != n && w.bin == v.bin && w.desk == v.desk && w.state.waiting) with
      | none => s.setPlanner (pl.replaced s v)
      | some w =>
        let a := if madeFirst v w then v else w
        let b := if madeFirst v w then w else v
        let pl := { (pl.removeVisit b.number) with pool := relist b.requests a.number pl.pool }
        s.setPlanner (pl.replaced s (mergeVisits a b))

/-- Hand back the visit a link names, if there is one. -/
def handBackLink (link : Option Nat) (s : State) : State :=
  match link with
  | some n => handBack n s
  | none => s

/-! ## Waiting for the bin and the route (4.4) -/

/-- A bin has become fetchable: the readiness test for its visits in WAITING_BIN (R73). -/
def releaseBin (bin : Nat) (s : State) : State :=
  s.setPlanner { s.planner with visits := s.planner.visits.map fun v =>
    if v.bin = bin ∧ v.state = .waitingBin then { v with state := readiness s bin } else v }

/-- A bin has stopped being fetchable: its READY and WAITING_ROUTE visits go to WAITING_BIN (R73). -/
def withholdBin (bin : Nat) (s : State) : State :=
  s.setPlanner { s.planner with visits := s.planner.visits.map fun v =>
    if v.bin = bin ∧ (v.state = .ready ∨ v.state = .waitingRoute) then { v with state := .waitingBin } else v }

/-- A report that the route has opened: the readiness test for every visit in WAITING_ROUTE; or that it has closed:
every READY visit goes to WAITING_ROUTE (R74; the down route is the route to every desk, R109). -/
def reportRoute (isOpen : Bool) (s : State) : State :=
  s.setPlanner { s.planner with visits := s.planner.visits.map fun v =>
    if isOpen then (if v.state = .waitingRoute then { v with state := readiness s v.bin } else v)
    else (if v.state = .ready then { v with state := .waitingRoute } else v) }

/-- A visit of the number takes a state (R79). -/
def visitTo (link : Option Nat) (st : VisitState) (s : State) : State :=
  match link with
  | some n => s.setPlanner (s.planner.setVisitState n st)
  | none => s

/-! ## Reservations and room parts (R72) -/

/-- A room part for this bin and desk can be taken (R72). -/
def roomPartFits (s : State) (bin : Nat) (desk : Desk) : Bool :=
  !s.planner.visits.any (fun v => v.bin == bin && v.desk == desk && v.state.beforePort && v.room.isSome)
    && !s.planner.reservations.contains (bin, desk)
    && decide (s.planner.visits.length + s.planner.reservations.length < 24)

def reserveEntry (bin : Nat) (desk : Desk) (s : State) : State :=
  s.setPlanner { s.planner with reservations := s.planner.reservations ++ [(bin, desk)] }

def dropReservation (bin : Nat) (desk : Desk) (s : State) : State :=
  s.setPlanner { s.planner with reservations := s.planner.reservations.erase (bin, desk) }

/-- A won room part: attached to the waiting visit of the bin to the desk, or a ROOM visit of its own; the reservation
is removed (R72). -/
def takeRoomPart (bin : Nat) (part : RoomPart) (s : State) : State :=
  let s := dropReservation bin part.call.desk s
  match s.planner.waitingVisit bin part.call.desk with
  | some w =>
    s.setPlanner (s.planner.modifyVisit w.number fun v =>
      { v with room := some part, rank := s.planner.rankOf v.requests (some part) })
  | none => s.setPlanner (s.planner.addVisit (makeVisit s bin part.call.desk .room [] (some part)))

/-- PORT_IN has stopped holding the bin: no stow, and the promotion mark is cleared (R76). -/
def clearStow (s : State) : State := s.setPlanner { s.planner with stow := .absent, mark := false }

def setStow (st : StowState) (s : State) : State := s.setPlanner { s.planner with stow := st }

/-- An OFFER of a home-bound bin has been objected to: the stow, ready or staged, is marked (R76). -/
def promoteStow (s : State) : State :=
  if s.planner.stow = .ready ∨ s.planner.stow = .staged then s.setPlanner { s.planner with mark := true } else s

end Sys2Proof.Machine
end

