-- ==== Sys2Proof/Machine/Flags.lean ====
section
/-! DEFINITION. The flags the station shows: the condition word (R110, R139, R169, R179), and the mode, crane state and
neighbour ages as the STATION_REPORT codes them (R183). -/

namespace Sys2Proof.Machine
open Sys2Proof

/-- The mode's code in the condition word and the STATION_REPORT (R179, R183). START and UNCONFIGURED are in no frame. -/
def Mode.num : Mode → Nat
  | .start | .unconfigured | .stocking => 0
  | .run => 1
  | .guard => 2
  | .fire => 3
  | .fireSafe => 4
  | .halted => 5

/-- The owned-shutter code: 0 NONE, 1 OPEN, 2 MOVING, 3 CLOSED (R139, R179). -/
def shutterCode : Option Shutter → Nat
  | none => 0
  | some x =>
    match x.state with
    | .isOpen => 1
    | .shut => 3
    | _ => 2

/-- The drive of the owned shutter: closing, opening or still (R139). -/
def shutterDrive : Option Shutter → Option ShutterDir
  | none => none
  | some x =>
    match x.state with
    | .closingDrive => some .closing
    | .opening => some .opening
    | .faultDrive d => some d
    | _ => none

/-- A lane's held flag: BLOCKED, or HOLDING a bin with no outgoing handoff in flight and a route that is not open
(R110). A bin at its own home station has an open route (R109), so one that waits in UP of its home in a fire mode leaves the flag
clear, although R136 says of a bin on a lane that the flag stands: the model's choice (log 41). -/
def laneHeld (s : State) (place : PlaceState) (out : Option Handoff) : Bool :=
  match place with
  | .blocked _ _ => true
  | .holding r => out.isNone && !routeOpenFor s r
  | _ => false

/-- The condition word (R169, packed as R179 gives it). -/
def condWord (s : State) : Byte :=
  BitVec.ofNat 8 (s.mode.num * 32 + shutterCode s.fire.shutter * 8
    + (if laneHeld s s.spine.down s.spine.outDown then 2 else 0) + (if laneHeld s s.spine.up s.spine.outUp then 1 else 0))

/-- The crane state's code (R183). -/
def CraneState.num : CraneState → Nat
  | .idle => 0
  | .moving => 1
  | .holding => 2
  | .stopping => 3
  | .parked => 4
  | .halted => 5
  | .faulted => 6

/-- A neighbour's age in whole seconds, held at 65,534; 65,535 when never-heard or the number is 63 (R183). -/
def neighbourAge (s : State) (n : Nat) : Nat :=
  if n = 63 then 65535
  else match tblGet s.line.neighbours n with
    | some (_, t) => min 65534 (age s.clock t / 1000)
    | none => 65535

/-- The CRC octets of the image as read, 126 and 127, most significant first (R184). -/
def imageCrc (image : List Byte) : Nat := (image.getD 126 0xFF).toNat * 256 + (image.getD 127 0xFF).toNat

/-- The STATION_REPORT with the values standing now (R183, R190). -/
def stationReport (s : State) : ReportBody :=
  { mode := s.mode.num, crane := s.crane.state.num, pool := s.planner.pool.length, visits := s.planner.visits.length
    empties := s.dir.counts.empties.toNat, occupied := s.dir.counts.occupied, reserved := s.dir.counts.reserved
    bad := s.dir.counts.bad, limited := s.limited, discarded := s.line.discarded, clamped := s.loader.clamped
    crc := imageCrc s.loader.image, upAge := neighbourAge s s.cfg.up, downAge := neighbourAge s s.cfg.down }

end Sys2Proof.Machine
end

