-- ==== Sys2Proof/Machine/Transmit.lean ====
section
/-! DEFINITION. The transmit queue (R175, R176, R177): admission in class order under the notice share, withdrawal, and
what a block does with a frame the queue cannot take. -/

namespace Sys2Proof.Machine
open Sys2Proof

/-! ## The queue itself -/

/-- A notice (R165). -/
def TxFrame.isNotice (f : TxFrame) : Bool := f.cls == 4

/-- A frame not yet on the line (R176). -/
def TxFrame.waits (f : TxFrame) : Bool := f.onLine.isNone

/-- The number of notices in the queue, the one on the line included (R175). -/
def noticeCount (q : List TxFrame) : Nat := q.countP TxFrame.isNotice

/-- Put a frame behind those of its class or a lower one (R175). -/
def insertFrame (f : TxFrame) : List TxFrame → List TxFrame
  | [] => [f]
  | g :: q => if g.cls ≤ f.cls then g :: insertFrame f q else f :: g :: q

/-- Take out the last frame in queue order that satisfies a test: that frame, and the queue without it. -/
def takeLast (p : TxFrame → Bool) : List TxFrame → Option (TxFrame × List TxFrame)
  | [] => none
  | g :: q =>
    match takeLast p q with
    | some (f, q') => some (f, g :: q')
    | none => if p g then some (g, q) else none

/-- What admission did with a frame (R175). -/
inductive Admission where
  /-- cases 1 and 3 -/
  | taken (q : List TxFrame)
  /-- case 2: the notice is discarded -/
  | lost
  /-- case 4: taken, a notice discarded -/
  | noticeOut (q : List TxFrame)
  /-- case 5: taken, another block's frame displaced -/
  | displaced (out : TxFrame) (q : List TxFrame)
  /-- case 6: the queue cannot take the frame -/
  | full
  deriving DecidableEq, Repr

/-- The six cases of R175, in order. -/
def admission (f : TxFrame) (q : List TxFrame) : Admission :=
  if f.isNotice then
    if noticeCount q < 6 ∧ q.length < 12 then .taken (insertFrame f q) else .lost
  else if q.length < 12 then .taken (insertFrame f q)
  else match takeLast (fun g => g.isNotice && g.waits) q with
    | some (_, q') => .noticeOut (insertFrame f q')
    | none =>
      if f.cls = 0 then
        match takeLast (fun g => (g.cls == 1 || g.cls == 2) && g.waits) q with
        | some (g, q') => .displaced g (insertFrame f q')
        | none => .full
      else .full

def LineUnit.setQueue (u : LineUnit) (q : List TxFrame) : LineUnit := { u with queue := q }

/-- The line unit after an admission (R175, R177). -/
def LineUnit.afterAdmission (u : LineUnit) : Admission → LineUnit
  | .taken q => u.setQueue q
  | .lost => { u with discarded := true }
  | .noticeOut q => { u with queue := q, discarded := true }
  | .displaced _ q => u.setQueue q
  | .full => u

/-- The frame entered the queue. -/
def Admission.entered : Admission → Bool
  | .taken _ | .noticeOut _ | .displaced _ _ => true
  | _ => false

/-! ## Frames the station forms -/

/-- A frame of one item to a station number, 63 for ALL (R175, R180). -/
def frameOf (item : Item) (addr : Nat) (owner : Owner) : TxFrame :=
  { cls := item.cls, addr := addr, items := [item], owner := owner, onLine := none }

/-- The TAKEN frame of one sending (R117, R118). -/
def takenFrame (own bin : Nat) (place : TakenPlace) (sending : Nat) : TxFrame :=
  frameOf (.taken ⟨bin, own, place⟩) 63 (.taken bin place sending)

/-! ## A frame the queue cannot take (R175) -/

/-- The table entry of a call. -/
def Placement.entry (pc : Placement) (c : Call) : Option CallEntry := pc.calls.find? fun e => e.call == c

def Placement.modify (pc : Placement) (c : Call) (f : CallEntry → CallEntry) : Placement :=
  { pc with calls := pc.calls.map fun e => if e.call = c then f e else e }

def Placement.remove (pc : Placement) (c : Call) : Placement := { pc with calls := pc.calls.filter fun e => e.call != c }

/-- Release the tentative hold of an entry (R11, R95). An entry whose held bin left the table has none (R100). -/
def releaseEntry (e : CallEntry) (s : State) : State :=
  match e.own with
  | some (_, bin) => if e.writtenOff then s else s.setDir (s.dir.releaseHold bin e.volume e.mass)
  | none => s

/-- The planner removes the reservation of an entry's claim (R72). -/
def unreserveEntry (e : CallEntry) (s : State) : State :=
  match e.own with
  | some (_, bin) => dropReservation bin e.call.desk s
  | none => s

/-- A BID the queue cannot take: the hold is released and the entry becomes NO_BID (R92). -/
def bidRefused (c : Call) (s : State) : State :=
  match s.placement.entry c with
  | some e =>
    let s := releaseEntry e s
    s.setPlacement (s.placement.modify c fun e => { e with state := .noBid, own := none })
  | none => s

/-- A CLAIM that ends without a win: the hold is released, the reservation removed, the call closes (R96, R97). -/
def claimLost (c : Call) (s : State) : State :=
  match s.placement.entry c with
  | some e =>
    let s := unreserveEntry e (releaseEntry e s)
    s.setPlacement (s.placement.remove c)
  | none => s

/-- Start the offer retry timer of a lane (R113, R114). -/
def startRetry (l : Lane) (s : State) : State :=
  let t : Timer := ⟨s.clock, s.cfg.offerRetry⟩
  match l with
  | .down => s.setSpine { s.spine with retryDown := some t }
  | .up => s.setSpine { s.spine with retryUp := some t }

/-- Start the closing retry timer (R142, R175). -/
def startClosingRetry (s : State) : State :=
  s.setFire { s.fire with shutter := s.fire.shutter.map fun x => { x with retry := some ⟨s.clock, s.cfg.closingRetry⟩ } }

/-- Queue TAKEN again, each sending the queue cannot take counting as one UNHEARD, up to the third (R118). -/
def tryTaken (own bin : Nat) (place : TakenPlace) : Nat → Nat → LineUnit → LineUnit
  | 0, _, u => u
  | left + 1, sending, u =>
    let a := admission (takenFrame own bin place sending) u.queue
    if a.entered then u.afterAdmission a else tryTaken own bin place left (sending + 1) u

/-- What the block that formed a frame does when the queue cannot take it, or displaces it (R175). -/
def frameRefused (o : Owner) (s : State) : State :=
  match o with
  | .offer l => startRetry l s
  | .taken bin place sending => s.setLine (tryTaken s.cfg.station bin place (3 - sending) (sending + 1) s.line)
  | .bid c => bidRefused c s
  | .claim c => claimLost c s
  | .closing => startClosingRetry s
  | .alarm _ | .plain => s

/-- Offer a frame to the transmit queue (R175). -/
def queueFrame (f : TxFrame) (s : State) : State :=
  let a := admission f s.line.queue
  let s := s.setLine (s.line.afterAdmission a)
  match a with
  | .displaced g _ => frameRefused g.owner s
  | .full => frameRefused f.owner s
  | _ => s

/-- A notice to ALL (R191). -/
def noticeFrame (items : List Item) : TxFrame := { cls := 4, addr := 63, items := items, owner := .plain, onLine := none }

/-- Queue a notice under the notice share (R175, R191). -/
def notice (items : List Item) (s : State) : State :=
  s.setLine (s.line.afterAdmission (admission (noticeFrame items) s.line.queue))

/-- The notice enters the queue. -/
def noticeEnters (items : List Item) (s : State) : Bool := (admission (noticeFrame items) s.line.queue).entered

/-- Queue a FAULT (R191). -/
def faultNotice (b : FaultBody) (s : State) : State := notice [.fault b] s

/-- Withdraw the frames of an owner that have not won contention (R176). -/
def withdraw (p : Owner → Bool) (s : State) : State :=
  s.setLine (s.line.setQueue (s.line.queue.filter fun f => !(f.waits && p f.owner)))

/-- A frame of an owner is queued or on the line. -/
def hasFrame (p : Owner → Bool) (s : State) : Bool := s.line.queue.any fun f => p f.owner

def Owner.isOffer (l : Lane) : Owner → Bool
  | .offer l' => l == l'
  | _ => false

def Owner.isAlarm (c : Compartment) : Owner → Bool
  | .alarm c' => c == c'
  | _ => false

def Owner.isClosing : Owner → Bool
  | .closing => true
  | _ => false

def Owner.isCall (c : Call) : Owner → Bool
  | .bid c' => c == c'
  | .claim c' => c == c'
  | _ => false

/-! ## Notices of the planner (R84, R182) -/

/-- The reasons of REQUEST_FAILED (R182). CANCELLED_ALL, 9, is not sent (R191). -/
inductive FailReason where
  | notReady | fire | restricted | queueFull | duplicate | unknownBin | tagMismatch | writtenOff
  deriving DecidableEq, Repr

def FailReason.num : FailReason → Nat
  | .notReady => 1
  | .fire => 2
  | .restricted => 3
  | .queueFull => 4
  | .duplicate => 5
  | .unknownBin => 6
  | .tagMismatch => 7
  | .writtenOff => 8

/-- The item kind a REQUEST_FAILED answers (R182). -/
inductive AnsweredKind where
  | visit | lend | cancel | stop | writeOff
  deriving DecidableEq, Repr

def AnsweredKind.num : AnsweredKind → Nat
  | .visit => 0
  | .lend => 1
  | .cancel => 2
  | .stop => 3
  | .writeOff => 4

/-- REQUEST_FAILED: the head and one body for each request, id and item reference (R182). -/
def requestFailed (reason : FailReason) (kind : AnsweredKind) (bin : Nat) (desk : Option Desk) (requests : List (Nat × Nat))
    (s : State) : State :=
  notice (.requestFailed (.head bin desk (reason.num * 16 + kind.num))
    :: requests.map fun r => .requestFailed (.request r.1 r.2)) s

/-- A list of requests with their item references, as the pool holds them (R84). -/
def Planner.withRefs (pl : Planner) (ids : List Nat) : List (Nat × Nat) :=
  ids.map fun id => (id, match tblGet pl.pool id with | some r => r.ref | none => 0)

/-- REQUEST_DONE (R83, R182). -/
def requestDone (bin : Nat) (desk : Desk) (requests : List (Nat × Nat)) (s : State) : State :=
  notice (.requestDone (.head bin (some desk) 0) :: requests.map fun r => .requestDone (.request r.1 r.2)) s

/-! ## Failed visits (R80) -/

/-- A visit fails (R80): it leaves the list, its pool entries are freed, REQUEST_FAILED is queued for its QUEUED
requests, and where `release` is set the hold of its room part is released. -/
def failVisit (n : Nat) (reason : FailReason) (release : Bool) (s : State) : State :=
  match s.planner.visit n with
  | none => s
  | some v =>
    let asked := s.planner.withRefs (s.planner.queuedOf v)
    let s := s.setPlanner ((s.planner.removeVisit n).freePool v.requests)
    let s := if asked.isEmpty then s else requestFailed reason .visit v.bin (some v.desk) asked s
    match v.room with
    | some part => if release then s.setDir (s.dir.releaseHold v.bin part.volume part.mass) else s
    | none => s

/-- Every visit of a bin fails; the holds have left with the bin's entry (R80, R21, R24). That they fail in the order of the
visit list, which is the order of their REQUEST_FAILED, is the model's choice (log 49). -/
def failVisits (bin : Nat) (reason : FailReason) (s : State) : State :=
  ((s.planner.visits.filter fun v => v.bin == bin).map (·.number)).foldl (fun s n => failVisit n reason false s) s

/-! ## Open calls that close (chapter 5) -/

/-- A call closes without a win: a queued BID or CLAIM is withdrawn, the hold released, a reservation removed (R95, R98,
R99). -/
def closeCall (c : Call) (s : State) : State :=
  match s.placement.entry c with
  | none => s
  | some e =>
    let s := if e.state = .bidQueued ∨ e.state = .claimQueued then withdraw (Owner.isCall c) s else s
    let s := releaseEntry e s
    let s := if e.state = .claimQueued then unreserveEntry e s else s
    s.setPlacement (s.placement.remove c)

/-- The calls in one of the states a test names close. -/
def closeCalls (p : CallState → Bool) (s : State) : State :=
  ((s.placement.calls.filter fun e => p e.state).map (·.call)).foldl (fun s c => closeCall c s) s

/-- The held bin has left the table: its calls close without a release; an entry in CLAIM_SENT stays until its outcome
(R21, R100). -/
def closeCallsOfBin (bin : Nat) (s : State) : State :=
  let held (e : CallEntry) : Bool := match e.own with | some (_, b) => b == bin | none => false
  let s := s.setPlacement { s.placement with calls := s.placement.calls.map fun e => if held e then { e with writtenOff := true } else e }
  ((s.placement.calls.filter fun e => held e && e.state != .claimSent).map (·.call)).foldl (fun s c => closeCall c s) s

end Sys2Proof.Machine
end

