-- ==== Sys2Proof/Machine/CraneUnit.lean ====
section
/-! DEFINITION. The crane unit (chapter 3): moves made current, started, staged, promoted, abandoned; completions; PARK,
STOP, RESUME and the load resolution. The commands that reach it stand in Machine/CraneCommands.lean. -/

namespace Sys2Proof.Machine
open Sys2Proof

/-! ## Small updates of the crane record -/

def Crane.setState (c : Crane) (st : CraneState) : Crane := { c with state := st }

def craneTo (st : CraneState) (s : State) : State := s.setCrane (s.crane.setState st)

/-- The crane unit reads the encoders (R40). -/
def readEncoders (s : State) : State := s.setCrane { s.crane with pos := encoderPos s.cfg s.pins }

/-- The current move is removed, its budget timer with it (R47, R60). -/
def clearCurrent (s : State) : State :=
  s.setCrane { s.crane with current := none, forkCycle := false, tag := .awaited }

/-- Ask for a leg estimate: its value and, in the state, the LIMITED flag (R29, R31). -/
def askLeg (a b : Pos) (fork : Bool) (s : State) : Nat × State :=
  (legTime s.cfg a b fork, noteHeld (legHeld s.cfg a b) s)

/-- The directory locates a bin (R16). -/
def locateBin (b : Nat) (loc : Location) (s : State) : State := s.setDir (s.dir.locate b loc)

/-- The slot the directory names for a bin (R41). -/
def binSlot (s : State) (b : Nat) : Option Slot := (s.dir.bin b).map (·.slot)

/-! ## Places of the port -/

/-- The travel record of a HOLDING place. -/
def PlaceState.record? : PlaceState → Option TravelRecord
  | .holding r => some r
  | _ => none

def PlaceState.isBlocked : PlaceState → Bool
  | .blocked _ _ => true
  | _ => false

def setPortOut (x : PlaceState) (s : State) : State := s.setSpine { s.spine with portOut := x }
def setPortIn (x : PlaceState) (s : State) : State := s.setSpine { s.spine with portIn := x }

/-! ## Starting a move (R46) -/

/-- The planner records the stamp of a start (R46, log 33). -/
def stampStart (s : State) : State := s.setPlanner { s.planner with startStamp := some s.clock }

/-- The planner's part of a start: its stamp, and FETCHING, DELIVERING, or the stow no longer waiting and its mark cleared; of a
PARK nothing is reported (R46, R76, R79). -/
def reportStart (m : Move) (s : State) : State :=
  match m.kind with
  | .fetch => visitTo m.visit .fetching (stampStart s)
  | .deliver => visitTo m.visit .delivering (stampStart s)
  | .takeIn => (stampStart s).setPlanner { (stampStart s).planner with stow := .current, mark := false }
  | .store => stampStart s
  | .park => s

/-- Start a move: target sent, start stamped, budget computed, crane MOVING (R41, R46). In FIRE and FIRE_SAFE no move
but a PARK is started. -/
def startMove (m : Move) (s : State) : State :=
  if s.mode.fiery && m.kind != .park then s.setCrane { s.crane with state := .idle, current := none }
  else
    let timed := { m with timer := some ⟨s.clock, m.estimate + m.estimate / 4 + s.cfg.slack⟩ }
    let s := s.setCrane { s.crane with
      pos := encoderPos s.cfg s.pins, state := .moving, current := some timed, forkCycle := false, tag := .awaited
      holdTimer := none, fireStop := false, fireFinish := false, drive := .go m.kind m.target }
    reportStart m s

/-- A DELIVER that finds PORT_OUT not EMPTY waits: HOLDING, under the hold limit (R52). -/
def holdDeliver (m : Move) (s : State) : State :=
  let s := s.setCrane { s.crane with
    state := .holding, current := some m, forkCycle := false, tag := .awaited
    holdTimer := some ⟨s.clock, s.cfg.holdLimit * 1000⟩ }
  visitTo m.visit .holding s

/-- The continuation a FETCH or TAKE_IN stages when it becomes current: the bound DELIVER, or the bound STORE to the slot
the directory names (R43). Where the directory no longer names the bin at port-in, the STORE is staged to the port position and
estimated so (log 14). -/
def stageContinuation (m : Move) (s : State) : State :=
  match m.kind with
  | .fetch =>
    let (est, s) := askLeg m.target.at (portPos s.cfg) true s
    s.setCrane { s.crane with staged := some ⟨.deliver, .pos (portPos s.cfg), m.visit, true, est, none⟩ }
  | .takeIn =>
    let target : Target := match s.spine.portIn.record?.bind (fun r => binSlot s r.bin) with
      | some sl => .slot sl
      | none => .pos (portPos s.cfg)
    let (est, s) := askLeg (portPos s.cfg) target.at true s
    s.setCrane { s.crane with staged := some ⟨.store, target, none, true, est, none⟩ }
  | _ => s

/-- The planner may select again for all ready work: a selection is made, or a move becomes current (R75). -/
def clearPassed (s : State) : State := s.setPlanner { s.planner with passed := none }

/-- Ask for the estimate of a move that becomes current, from the crane's encoder position: its value, and whether an axis time was
held, noted for the remaining times asked of it later (R29, R32). -/
def askEstimate (target : Target) (fork : Bool) (s : State) : Nat × State :=
  let (est, t) := askLeg (encoderPos s.cfg s.pins) target.at fork s
  (est, t.setCrane { t.crane with estimateHeld := legHeld s.cfg (encoderPos s.cfg s.pins) target.at })

/-- Make a move current, estimated from the crane's encoder position (R32, R43). -/
def makeCurrent (kind : MoveKind) (target : Target) (visit : Option Nat) (bound : Bool) (s : State) : State :=
  let (est, s) := askEstimate target kind.forks (clearPassed s)
  let m : Move := ⟨kind, target, visit, bound, est, none⟩
  match kind with
  | .deliver => if s.spine.portOut = .empty then startMove m s else holdDeliver m s
  | .fetch | .takeIn => stageContinuation m (startMove m s)
  | .store | .park => startMove m s

/-! ## The stage -/

/-- The staged move is discarded: a free FETCH's visit is handed back, a free TAKE_IN makes the stow ready again (R48,
R60, R134). -/
def discardStaged (s : State) : State :=
  match s.crane.staged with
  | none => s
  | some m =>
    let s := s.setCrane { s.crane with staged := none }
    if m.bound then s
    else match m.kind with
      | .fetch => handBackLink m.visit s
      | .takeIn => if s.planner.stow = .staged then setStow .ready s else s
      | _ => s

/-- The crane is FAULTED with STORE_BLOCKED: no slot is found for its bin (R57). -/
def storeBlocked (bin : Nat) (slot : SlotName) (s : State) : State :=
  let s := discardStaged (clearCurrent s)
  let s := s.setCrane { s.crane with state := .faulted, fireFinish := false, drive := .stop }
  faultNotice { faultBody .storeBlocked with bin := bin, slotA := slot } s

/-- A bound STORE of a bin to the slot the directory names for it. Where it names none, the bin cannot be stored and the
crane is FAULTED with STORE_BLOCKED (log 14). -/
def makeStore (bin : Nat) (s : State) : State :=
  match binSlot s bin with
  | some sl => makeCurrent .store (.slot sl) none true s
  | none => storeBlocked bin SlotName.nowhere s

/-- The carried bin's next move: a DELIVER for its visit, else a STORE (R41). -/
def nextMove (s : State) : State :=
  match s.crane.carried with
  | some c =>
    match c.visit with
    | some v => makeCurrent .deliver (.pos (portPos s.cfg)) (some v) true s
    | none => makeStore c.bin s
  | none => s

/-- A PARK is made current and started, carrying the carried bin; whatever is staged is discarded first (R59, R134). Behind
a move under a fire order to finish a RESTORE lets selection stage a free move, which R59 and R135 do not foresee: that it is
discarded here, its visit handed back or its stow ready again, is the model's choice (log 46). -/
def park (s : State) : State := makeCurrent .park (.pos (parkPos s.cfg)) none false (discardStaged s)

/-- The work of a free staged move still stands (R44). -/
def stagedStands (m : Move) (s : State) : Bool :=
  match m.kind with
  | .fetch =>
    !s.mode.fiery && (match m.visit.bind s.planner.visit with
      | some v => readiness s v.bin == .ready
      | none => false)
  | .takeIn => s.planner.stow == .staged && s.spine.portIn.record?.isSome
  | _ => false

/-- The staged move becomes current at a completion, re-estimated from the encoders; a free one only while its work
stands (R44). With nothing staged the crane is IDLE. -/
def promote (s : State) : State :=
  match s.crane.staged with
  | none => craneTo .idle s
  | some m =>
    if m.bound then
      let s := s.setCrane { s.crane with staged := none }
      match m.kind, s.crane.carried with
      | .store, some c => makeStore c.bin s
      | _, _ => makeCurrent m.kind m.target m.visit true s
    else if stagedStands m s then
      makeCurrent m.kind m.target m.visit false (s.setCrane { s.crane with staged := none })
    else craneTo .idle (discardStaged s)

/-- What follows a completion: the PARK under a fire order to finish, else the staged move (R44, R135). -/
def afterCompletion (s : State) : State :=
  if s.crane.fireFinish then park (s.setCrane { s.crane with fireFinish := false }) else promote s

/-! ## Taking out and storing (R50, R58) -/

/-- The directory stores a bin; when it does, BIN_STORED is queued and the bin's waiting visits are released (R14, R58,
R73). -/
def storeBin (bin : Nat) (content : Option Contents) (room : Option (Nat × Nat)) (s : State) : State :=
  match s.dir.store s.cfg bin content room with
  | some d =>
    let s := releaseBin bin (s.setDir d)
    notice [.binStored ⟨bin, match binSlot s bin with | some sl => sl.name | none => SlotName.nowhere⟩] s
  | none => s

/-- A take-out made: the bin is recorded on the crane and its other visits wait for it (R50, R73). -/
def carryFetched (bin : Nat) (visit : Option Nat) (uncertain : Bool) (d : Directory) (s : State) : State :=
  let s := withholdBin bin (s.setDir d)
  let s := s.setCrane { s.crane with carried := some ⟨bin, none, visit, uncertain⟩ }
  visitTo visit .onCrane s

/-- The bin a FETCH is for: its visit's bin, or after a MISMATCH the bin recorded in the slot. -/
def fetchBin (m : Move) (s : State) : Nat :=
  match m.visit.bind s.planner.visit with
  | some v => v.bin
  | none =>
    match m.target with
    | .slot sl =>
      match s.dir.slotState sl with
      | .occupied b => b
      | .reserved b => b
      | _ => 0
    | .pos _ => 0

/-! ## Abandoned moves (R49) -/

/-- A FETCH abandoned: before in position the visit is handed back; in the fork cycle the bin is taken out and carried
uncertain, or no bin is recorded and the unknown-load mark is set (R49). A visit whose take-out is refused here fails as
at fork done (log 13). -/
def abandonFetch (m : Move) (s : State) : State :=
  if !s.crane.forkCycle then handBackLink m.visit s
  else if s.crane.tag = .mismatched then s.setCrane { s.crane with unknownLoad := true }
  else
    let b := fetchBin m s
    match s.dir.takeOut s.clock b with
    | some d => carryFetched b m.visit true d s
    | none =>
      let s := s.setCrane { s.crane with unknownLoad := true }
      match m.visit with
      | some v => failVisit v .unknownBin true s
      | none => s

/-- A DELIVER abandoned: the bin stays carried, in the fork cycle uncertain with PORT_OUT BLOCKED; the visit is ON_CRANE
(R49, R79). -/
def abandonDeliver (m : Move) (s : State) : State :=
  let s := visitTo m.visit .onCrane s
  if s.crane.forkCycle then
    setPortOut (.blocked none none) (s.setCrane { s.crane with carried := s.crane.carried.map fun c => { c with uncertain := true } })
  else s

/-- A TAKE_IN abandoned: before in position the stow waits again; in the fork cycle the bin is carried uncertain with the
travel record, located CRANE, and PORT_IN is BLOCKED (R49, R56, R76). -/
def abandonTakeIn (s : State) : State :=
  if !s.crane.forkCycle then setStow .ready s
  else match s.spine.portIn.record? with
    | some r =>
      let s := s.setCrane { s.crane with carried := some ⟨r.bin, some r, none, true⟩ }
      clearStow (setPortIn (.blocked none none) (locateBin r.bin .crane s))
    | none => clearStow (s.setCrane { s.crane with unknownLoad := true })

/-- A STORE abandoned: the bin stays carried, in the fork cycle uncertain (R49). -/
def abandonStore (s : State) : State :=
  if s.crane.forkCycle then s.setCrane { s.crane with carried := s.crane.carried.map fun c => { c with uncertain := true } } else s

/-- The current move is abandoned at its last certain point and removed (R49). -/
def abandonMove (s : State) : State :=
  match s.crane.current with
  | none => s
  | some m =>
    clearCurrent (match m.kind with
      | .fetch => abandonFetch m s
      | .deliver => abandonDeliver m s
      | .takeIn => abandonTakeIn s
      | .store => abandonStore s
      | .park => s)

/-- The bin a CRANE_STALL names: the carried bin, the bin of the FETCH, or the bin at port-in, else 0 (R48, R182). -/
def stallBin (m : Move) (s : State) : Nat :=
  match s.crane.carried with
  | some c => c.bin
  | none =>
    match m.kind with
    | .fetch => fetchBin m s
    | .takeIn => match s.spine.portIn.record? with | some r => r.bin | none => 0
    | _ => 0

/-- A stall (R48). A RESUME kept while the crane was STOPPING is dropped with the move (log 12). -/
def stall (m : Move) (s : State) : State :=
  let s := readEncoders s
  let bin := stallBin m s
  let s := s.setCrane { s.crane with
    state := .faulted, fireStop := false, fireFinish := false, resumeKept := false, drive := .stop }
  let s := discardStaged (abandonMove s)
  faultNotice { faultBody .craneStall with bin := bin, slotA := m.target.name, code := m.kind.num } s

/-! ## Load resolution (R62) -/

/-- A load resolution that leaves the crane FAULTED (R62). -/
def loadFault (bin : Nat) (s : State) : State :=
  faultNotice { faultBody .craneLoadUnknown with bin := bin } (craneTo .faulted s)

/-- The fork load sensor settles the carried bin and the unknown-load mark (R62). `false` beside the state: the crane is
left FAULTED. An uncertain bin without a load whose store the directory refuses leaves the fork all the same, with no notice, and the
load counts as resolved: R62 gives that case no outcome, and this one is the model's choice (log 40). -/
def resolveLoad (s : State) : Bool × State :=
  match s.crane.carried with
  | some c =>
    if c.uncertain then
      if s.pins.load then (true, s.setCrane { s.crane with carried := some { c with uncertain := false } })
      else
        let s := s.setCrane { s.crane with carried := none }
        let s := storeBin c.bin none (c.record.bind recordRoom) s
        (true, handBackLink c.visit s)
    else if s.pins.load then (true, s)
    else (false, loadFault c.bin s)
  | none =>
    if s.pins.load then (false, loadFault 0 s)
    else (true, s.setCrane { s.crane with unknownLoad := false })

/-! ## PORT_OUT emptied, fire orders, restore -/

/-- The crane unit is told that PORT_OUT has become EMPTY: a waiting DELIVER starts (R52). -/
def portOutEmptied (s : State) : State :=
  match s.crane.state, s.crane.current with
  | .holding, some m => startMove m s
  | _, _ => s

/-- The waiting DELIVER of a HOLDING crane is removed; its visit is ON_CRANE (R52, R79). -/
def dropWaiting (s : State) : State :=
  let link := s.crane.current.bind (·.visit)
  visitTo link .onCrane (s.setCrane { s.crane with current := none, holdTimer := none })

/-- The crane's part of an entry to FIRE; the remaining time asked for may set LIMITED (R29, R134). A crane that a new
entry finds STOPPING under the fire order of an earlier one, which R134's table does not list, is left as it is, under that
order: the model's choice (log 48). -/
def craneEntersFire (s : State) : State :=
  let s := discardStaged s
  match s.crane.state, s.crane.current with
  | .idle, _ => park s
  | .holding, _ => park (dropWaiting s)
  | .moving, some m =>
    if m.kind = .park then s
    else
      let t := noteHeld (remainingHeld s) s
      if remainingTime s ≤ s.cfg.fireGrace * 1000 then t.setCrane { t.crane with fireFinish := true }
      else t.setCrane { t.crane with state := .stopping, fireStop := true, drive := .controlledStop }
  | _, _ => s

/-- The restore's effect on a PARKED crane: HALTED where a STOP stands, else IDLE with a carried bin's next move made
current (R59, R135). -/
def unpark (s : State) : State :=
  if s.crane.state = .parked then
    if s.stopTaken then craneTo .halted s else nextMove (craneTo .idle s)
  else s

/-- The crane's part of a STOP taken (R60). -/
def craneStop (s : State) : State :=
  match s.crane.state with
  | .idle | .parked => craneTo .halted s
  | .holding => craneTo .halted (discardStaged (dropWaiting s))
  | .moving =>
    let s := discardStaged s
    s.setCrane { s.crane with state := .stopping, fireStop := false, fireFinish := false, drive := .controlledStop }
  | .stopping => s.setCrane { s.crane with fireStop := false, resumeKept := false }
  | .halted | .faulted => s

end Sys2Proof.Machine
end

