-- ==== Sys2Proof/Machine/Select.lean ====
section
/-! DEFINITION. Choosing the crane's work (R75 to R78): ready work by rank, the choice within a rank by age and score, the
free move given to the crane or staged, and the displacement of a free staged move. -/

namespace Sys2Proof.Machine
open Sys2Proof

/-- A piece of ready work: a visit, or the stow (R76). -/
inductive Work where
  | visit (v : Visit)
  | stow
  deriving DecidableEq, Repr

/-- The order of a visit's rank (R76). -/
def Rank.order : Rank → Nat
  | .urgent => 1
  | .room => 2
  | .normal => 4

/-- The order of the stow: 3, or 0 with the promotion mark (R76). -/
def stowOrder (s : State) : Nat := if s.planner.mark then 0 else 3

/-- The visits in READY of one order. Their bins are STORED (R67), so each has a slot. -/
def readyVisits (s : State) (order : Nat) : List Visit :=
  s.planner.visits.filter fun v => v.state == .ready && v.rank.order == order && (binSlot s v.bin).isSome

/-- Ready work stands at an order (R76). -/
def readyAt (s : State) (order : Nat) : Bool :=
  (s.planner.stow == .ready && stowOrder s == order) || !(readyVisits s order).isEmpty

/-- The crane's predicted position: the target of the staged move, else of the current move, else the encoder position
(R39, R77). -/
def predictedPos (s : State) : Pos :=
  match s.crane.staged, s.crane.current with
  | some m, _ => m.target.at
  | none, some m => m.target.at
  | none, none => encoderPos s.cfg s.pins

/-- The slot of a visit's bin as a position; a visit weighed has one. -/
def visitPos (s : State) (v : Visit) : Pos :=
  match binSlot s v.bin with
  | some sl => sl.pos
  | none => predictedPos s

/-- The score of a visit: the fetch leg from the predicted position minus half its age, signed (R39). -/
def score (s : State) (v : Visit) : Int :=
  (legTime s.cfg (predictedPos s) (visitPos s v) true : Int) - ((age s.clock v.stamp / 2 : Nat) : Int)

/-- Scoring the visits held an axis time (R29). -/
def scoreHeld (s : State) (vs : List Visit) : Bool := vs.any fun v => legHeld s.cfg (predictedPos s) (visitPos s v)

/-- `a` is taken before `b` by age: the greater age, a tie going to the visit made first (R77, steps 1 and 3). -/
def olderFirst (s : State) (a b : Visit) : Bool :=
  decide (age s.clock b.stamp < age s.clock a.stamp)
    || (age s.clock b.stamp == age s.clock a.stamp && madeFirst a b)

/-- `a` is taken before `b` by score: the lower score, a tie going to the visit made first (R77, steps 2 and 3). -/
def lowerFirst (s : State) (a b : Visit) : Bool :=
  decide (score s a < score s b) || (score s a == score s b && madeFirst a b)

/-- The visit that comes before every other of a list. -/
def pickFirst (before : Visit → Visit → Bool) : List Visit → Option Visit
  | [] => none
  | v :: vs =>
    match pickFirst before vs with
    | none => some v
    | some w => if before w v then some w else some v

/-- The visits at or above the age limit (R77, step 1). -/
def overAge (s : State) (vs : List Visit) : List Visit := vs.filter fun v => decide (s.cfg.ageLimit * 1000 ≤ age s.clock v.stamp)

/-- The choice among visits of one rank (R77). -/
def chooseVisit (s : State) (vs : List Visit) : Option Visit :=
  if (overAge s vs).isEmpty then pickFirst (lowerFirst s) vs else pickFirst (olderFirst s) (overAge s vs)

/-- The choice at one order, with the LIMITED note of its scores (R29, R77). A choice that the age limit decides asks no score and
notes nothing (log 29). -/
def chooseAt (s : State) (order : Nat) : Option Work × State :=
  if s.planner.stow = .ready ∧ stowOrder s = order then (some .stow, s)
  else
    let vs := readyVisits s order
    ((chooseVisit s vs).map .visit, if (overAge s vs).isEmpty then noteHeld (scoreHeld s vs) s else s)

/-- The highest order of a list that has ready work. -/
def highestReady (s : State) (orders : List Nat) : Option Nat := orders.find? (readyAt s)

/-- The target of a piece of work: its bin's slot, or the port (R32). -/
def workTarget (s : State) : Work → Target
  | .visit v => match binSlot s v.bin with
    | some sl => .slot sl
    | none => .pos (portPos s.cfg)
  | .stow => .pos (portPos s.cfg)

def Work.kind : Work → MoveKind
  | .visit _ => .fetch
  | .stow => .takeIn

def Work.link : Work → Option Nat
  | .visit v => some v.number
  | .stow => none

/-- Stage a free move, estimated from the current move's target; the visit becomes STAGED, the stow is marked staged (R43,
R75). -/
def stageFree (w : Work) (s : State) : State :=
  match s.crane.current with
  | some cur =>
    let (est, s) := askLeg cur.target.at (workTarget s w).at true s
    let s := s.setCrane { s.crane with staged := some ⟨w.kind, workTarget s w, w.link, false, est, none⟩ }
    match w with
    | .visit v => visitTo (some v.number) .staged s
    | .stow => setStow .staged s
  | none => s

/-- Hand a free move to the crane unit: made current by an IDLE crane, else staged (R43, R75). -/
def giveFree (w : Work) (s : State) : State :=
  if s.crane.state = .idle then makeCurrent w.kind (workTarget s w) w.link false s else stageFree w s

/-- The crane's part of the selection condition (R75). -/
def craneTakesWork (c : Crane) : Bool :=
  c.staged.isNone && match c.state with
    | .idle | .holding => true
    | .moving => match c.current with
      | some m => m.kind != .park
      | none => false
    | _ => false

/-- The selection condition (R75). -/
def selectionCondition (s : State) : Bool := s.mode.working && craneTakesWork s.crane

/-- One selection among the orders given (R75 to R77). -/
def selectAmong (orders : List Nat) (give : Work → State → State) (s : State) : State :=
  match highestReady s orders with
  | some o =>
    match chooseAt s o with
    | (some w, s) => give w s
    | (none, s) => s
  | none => s

/-- The order of a staged free move's work (R78). -/
def stagedOrder (s : State) (m : Move) : Nat :=
  match m.visit.bind s.planner.visit with
  | some v => v.rank.order
  | none => stowOrder s

/-- The work of a displaced staged move goes back: the visit is handed back, the stow is ready again and keeps its mark
(R45, R78). -/
def giveBack (m : Move) (s : State) : State :=
  match m.kind with
  | .takeIn => setStow .ready s
  | _ => handBackLink m.visit s

/-- A free staged move displaced by work of higher rank (R78). -/
def displace (m : Move) (s : State) : State :=
  selectAmong ([0, 1, 2, 3, 4].filter fun o => decide (o < stagedOrder s m)) (fun w s => giveBack m (stageFree w s)) s

/-- Ready work, each piece with its order: the stow as `none`, a visit by its number (R76). -/
def readyWork (s : State) : List (Option Nat × Nat) :=
  (if s.planner.stow = .ready then [(none, stowOrder s)] else [])
    ++ (s.planner.visits.filter fun v => v.state == .ready).map fun v => (some v.number, v.rank.order)

/-- A selection is due where the condition holds. After a CANCEL has emptied the stage it waits for work that becomes ready or
rises in rank, or for an idle crane (R45, R75). -/
def selectionDue (s : State) : Bool :=
  match s.planner.passed with
  | none => true
  | some seen => s.crane.state == .idle || (readyWork s).any fun w => !seen.any fun x => x.1 == w.1 && decide (x.2 ≤ w.2)

/-- What the planner does at the end of an event: a selection where the condition holds and one is due, or a displacement
where a free move is staged (R75, R78, log 8). -/
def selectWork (s : State) : State :=
  match s.crane.staged with
  | some m => if s.mode.working && !m.bound then displace m s else s
  | none =>
    if !selectionCondition s then clearPassed s
    else if selectionDue s then selectAmong [0, 1, 2, 3, 4] giveFree (clearPassed s)
    else s.setPlanner { s.planner with passed := some (readyWork s) }

end Sys2Proof.Machine
end

