-- ==== Sys2Proof/Machine/SpineUnit.lean ====
section
/-! DEFINITION. The spine unit (chapter 6): the merge arbiter, offers, the tests of an OFFER, arrivals, TAKEN, the home
diversion, expiries, blocked places, and the forming of travel records. -/

namespace Sys2Proof.Machine
open Sys2Proof

/-! ## Lanes -/

/-- The state of a lane place. -/
def Spine.lane (x : Spine) : Lane → PlaceState
  | .down => x.down
  | .up => x.up

/-- The outgoing handoff record of a lane place (R107). -/
def Spine.out (x : Spine) : Lane → Option Handoff
  | .down => x.outDown
  | .up => x.outUp

/-- The incoming handoff record of a lane place (R107). -/
def Spine.incoming (x : Spine) : Lane → Option Handoff
  | .down => x.inDown
  | .up => x.inUp

def Spine.retry (x : Spine) : Lane → Option Timer
  | .down => x.retryDown
  | .up => x.retryUp

def setLane (l : Lane) (v : PlaceState) (s : State) : State :=
  match l with
  | .down => s.setSpine { s.spine with down := v }
  | .up => s.setSpine { s.spine with up := v }

def setOut (l : Lane) (v : Option Handoff) (s : State) : State :=
  match l with
  | .down => s.setSpine { s.spine with outDown := v }
  | .up => s.setSpine { s.spine with outUp := v }

def setIncoming (l : Lane) (v : Option Handoff) (s : State) : State :=
  match l with
  | .down => s.setSpine { s.spine with inDown := v }
  | .up => s.setSpine { s.spine with inUp := v }

def clearRetry (l : Lane) (s : State) : State :=
  match l with
  | .down => s.setSpine { s.spine with retryDown := none }
  | .up => s.setSpine { s.spine with retryUp := none }

def driveLane (l : Lane) (on : Bool) (s : State) : State :=
  match l with
  | .down => s.setSpine { s.spine with driveDown := on }
  | .up => s.setSpine { s.spine with driveUp := on }

/-- A new handoff record: stamp and transfer timer of this event (R107). -/
def newHandoff (s : State) (bin peer : Nat) (record : Option TravelRecord) : Handoff :=
  ⟨bin, peer, ⟨s.clock, s.cfg.transferLimit * 1000⟩, record⟩

/-- The handoff is with another station, not one of the two internal transfers (R107). -/
def Handoff.external (own : Nat) (h : Handoff) : Bool := h.peer != own

/-- An outgoing handoff of a lane to another station. -/
def outExternal (s : State) (l : Lane) : Option Handoff := (s.spine.out l).filter (Handoff.external s.cfg.station)

/-- The home diversion in flight (R121). -/
def diversion (s : State) : Option Handoff := s.spine.outUp.filter fun h => !h.external s.cfg.station

/-- The port-out merge in flight (R112). -/
def merge (s : State) : Option Handoff := s.spine.inDown.filter fun h => !h.external s.cfg.station

/-- An incoming handoff of a lane from another station. -/
def inExternal (s : State) (l : Lane) : Option Handoff := (s.spine.incoming l).filter (Handoff.external s.cfg.station)

/-- No handoff is in flight, outgoing, incoming or internal (R148). -/
def Spine.quiet (x : Spine) : Bool := x.inDown.isNone && x.inUp.isNone && x.outDown.isNone && x.outUp.isNone

/-- FAULT HANDOFF_LOST (R112, R121, R122, R182). -/
def handoffLost (bin peer : Nat) (place : PlaceCode) (hop : Nat) (s : State) : State :=
  faultNotice { faultBody .handoffLost with bin := bin, code := place.num, place := peer, hop := hop } s

/-! ## The port-out merge (R106, R111, R112) -/

/-- PORT_OUT is ready (R111). -/
def portOutReady (s : State) : Bool := s.spine.portOut.record?.isSome && s.mode.working && downOpen s

/-- PORT_OUT is granted DOWN (R111, R112). -/
def grantPortOut (s : State) : State :=
  match s.spine.portOut.record? with
  | some r => s.setSpine { s.spine with
      down := .reserved, inDown := some (newHandoff s r.bin s.cfg.station none), lastGrant := .portOut
      kept := false, drivePortOut := true, driveDown := true }
  | none => s

/-- DOWN is kept for the up neighbour (R111). -/
def keepDown (s : State) : State :=
  s.setSpine { s.spine with kept := true, mergeWait := some ⟨s.clock, s.cfg.offerRetry⟩ }

/-- The merge arbiter, at each event after which DOWN is EMPTY, not kept, and PORT_OUT is ready (R111). -/
def mergeArbiter (s : State) : State :=
  if s.spine.down = .empty ∧ s.spine.kept = false ∧ portOutReady s = true then
    if s.spine.waiting = false ∨ s.spine.lastGrant = .upNeighbour then grantPortOut s else keepDown s
  else s

/-- The port-out merge's first step: the travel record of a bin handed over by the crane (R102, R106). Where the visit
or the bin's entry no longer exists, what they would give is free (log 15). -/
def formRecord (s : State) (bin : Nat) (visit : Option Nat) : TravelRecord :=
  let v := visit.bind s.planner.visit
  let e := s.dir.bin bin
  let f := Config.freeContents s.free
  let requests := match v with | some v => s.planner.queuedOf v | none => []
  let room := v.bind (·.room)
  { bin := bin
    home := s.cfg.station
    dest := .desk (match v with | some v => v.desk | none => Config.freeDesk s.free)
    purpose := if room.isNone then .lend else if requests.isEmpty then .room else .lendRoom
    hop := 0
    grade := match e with | some e => e.grade | none => f.1
    fill := match e with | some e => e.fill | none => f.2.1
    mass := match e with | some e => e.mass | none => f.2.2.1
    count := match e with | some e => e.count | none => f.2.2.2
    restricted := match e with | some e => e.restricted | none => Config.freeRestricted s.free
    call := room.map fun p => ⟨p.call, p.volume, p.mass⟩
    requests := requests }

/-- The counter of free values moves on where the record took one (log 15). -/
def noteFree (bin : Nat) (visit : Option Nat) (s : State) : State :=
  if (visit.bind s.planner.visit).isNone || (s.dir.bin bin).isNone then s.setFree (s.free + 1) else s

/-- The crane hands a bin to the spine unit at fork done of a DELIVER (R54, R106). -/
def handOver (bin : Nat) (visit : Option Nat) (s : State) : State :=
  let r := formRecord s bin visit
  let s := noteFree bin visit s
  let s := s.setSpine { s.spine with portOut := .holding r, portOutVisit := visit }
  visitTo visit .atPort (locateBin bin .portOut s)

/-! ## Offering (R113, R114) -/

/-- The peer that a bin of a lane is offered to (R108). A bin in UP has none where no up neighbour exists (log 20). -/
def offerPeer (cfg : StationConfig) (l : Lane) (r : TravelRecord) : Option Nat :=
  match l, r.dest with
  | .down, .desk d => some (if cfg.down = 63 then deskStation d else cfg.down)
  | .up, .home => if cfg.up = 63 ∨ r.home = cfg.station then none else some cfg.up
  | _, _ => none

/-- The conditions under which the bin of a lane is offered, but for its peer (R113). -/
def offerDue (s : State) (l : Lane) (r : TravelRecord) : Bool :=
  s.mode.working && (s.spine.out l).isNone && !hasFrame (Owner.isOffer l) s && (s.spine.retry l).isNone && routeOpenFor s r

/-- Queue an OFFER of a lane's bin where R113 asks for one. -/
def offerLane (l : Lane) (s : State) : State :=
  match (s.spine.lane l).record? with
  | some r =>
    match offerPeer s.cfg l r with
    | some peer => if offerDue s l r then queueFrame (frameOf (.offer r) peer (.offer l)) s else s
    | none => s
  | none => s

/-- A queued OFFER is withdrawn once its route is closed or the station has left RUN and GUARD (R113). -/
def withdrawOffer (l : Lane) (s : State) : State :=
  let stands := match (s.spine.lane l).record? with
    | some r => s.mode.working && routeOpenFor s r
    | none => false
  if stands then s else withdraw (Owner.isOffer l) s

/-- The outcome of an OFFER at the sender (R114): `heard` for HEARD. -/
def offerOutcome (l : Lane) (peer : Nat) (heard : Bool) (s : State) : State :=
  match (s.spine.lane l).record? with
  | some r => if heard then driveLane l true (setOut l (some (newHandoff s r.bin peer none)) s) else startRetry l s
  | none => startRetry l s

/-! ## Accepting an OFFER (R115, R116) -/

/-- Test 1: the place an OFFER is for, by its sender and destination (R115). -/
def offerLaneOf (cfg : StationConfig) (sender : Nat) (r : TravelRecord) : Option Lane :=
  match r.dest with
  | .desk _ => if sender = cfg.up then some .down else none
  | .home => if sender = cfg.down ∨ (cfg.down = 63 ∧ isDeskStation sender = true) then some .up else none

/-- Test 2: the boundary between the sender's segment and this one (R115). None lies between segment 0 and the desk end
(R124). -/
def offerBoundary (s : State) (sender : Nat) : Bool :=
  isDeskStation sender || crossingOpen s (min sender s.cfg.segment) (max sender s.cfg.segment)

/-- The bin of the record is bound home to this station. -/
def boundHere (cfg : StationConfig) (r : TravelRecord) : Bool := r.dest == .home && r.home == cfg.station

/-- Test 3: a bin passing through (R115). -/
def offerThrough (cfg : StationConfig) (r : TravelRecord) : Bool :=
  r.dest != .home || r.home == cfg.station || (cfg.up != 63 && decide (cfg.segment < r.home))

/-- Test 4: room (R115). -/
def offerRoom (s : State) (sender : Nat) (l : Lane) (r : TravelRecord) : Bool :=
  if boundHere s.cfg r then s.spine.up == .empty && s.spine.portIn == .empty
  else s.spine.lane l == .empty && (l != .down || !s.spine.kept || sender == s.cfg.up)

/-- Test 5: R111 does not give DOWN to PORT_OUT in this event (R115). -/
def offerMerge (s : State) (l : Lane) : Bool := l != .down || !(portOutReady s && s.spine.lastGrant == .upNeighbour)

/-- Test 6 applies: a bin bound here that is absent from the bin table (R115). A record of bin id 0 is always absent and finds no
slot, so its OFFER is objected to (log 32). -/
def offerAdopts (s : State) (r : TravelRecord) : Bool := boundHere s.cfg r && (s.dir.bin r.bin).isNone

/-- An accepted OFFER (R116). -/
def acceptOffer (l : Lane) (sender : Nat) (r : TravelRecord) (s : State) : State :=
  let h := newHandoff s r.bin sender (some r)
  let s := driveLane l true (setIncoming l (some h) (setLane l .reserved s))
  match l with
  | .down => s.setSpine { s.spine with lastGrant := .upNeighbour, waiting := false, kept := false, mergeWait := none }
  | .up => s

/-- What a refusal by test 4 records: the waiting mark for DOWN, the stow's promotion for a bin bound here (R76, R111). -/
def noRoom (l : Lane) (r : TravelRecord) (s : State) : State :=
  if boundHere s.cfg r then promoteStow s
  else match l with
    | .down => s.setSpine { s.spine with waiting := true }
    | .up => s

/-- A refusal by test 5: the waiting mark is set and PORT_OUT is granted DOWN (R111). -/
def mergeWins (s : State) : State := grantPortOut (s.setSpine { s.spine with waiting := true })

/-- An OFFER the gate admits: whether it is accepted, and the state after (R115, R116). -/
def hearOffer (sender : Nat) (r : TravelRecord) (s : State) : Bool × State :=
  match offerLaneOf s.cfg sender r with
  | none => (false, s)
  | some l =>
    if !offerBoundary s sender then (false, s)
    else if !offerThrough s.cfg r then (false, s)
    else if !offerRoom s sender l r then (false, noRoom l r s)
    else if !offerMerge s l then (false, mergeWins s)
    else if offerAdopts s r then
      let t := noteHeld (s.dir.adoptHeld s.cfg r) s
      if (s.dir.adoptSlot s.cfg r).isSome then (true, acceptOffer l sender r t) else (false, t)
    else (true, acceptOffer l sender r s)

/-! ## The home diversion (R121) -/

/-- The diversion's transfer begins (R107, R121). -/
def startDiversion (r : TravelRecord) (s : State) : State :=
  s.setSpine { s.spine with outUp := some (newHandoff s r.bin s.cfg.station none), drivePortIn := true, driveUp := true }

/-- The diversion of a bin the directory names begins once PORT_IN is EMPTY: nothing moves into a place that holds a bin or is
BLOCKED, and the bin waits in UP until then (R105, R121, log 16). -/
def beginDiversion (r : TravelRecord) (s : State) : State :=
  if s.spine.portIn = .empty then startDiversion r s else s

/-- UP becomes BLOCKED keeping the record, with FAULT STORE_BLOCKED (R121). -/
def blockUp (r : TravelRecord) (slot : SlotName) (s : State) : State :=
  faultNotice { faultBody .storeBlocked with bin := r.bin, slotA := slot }
    (s.setSpine { s.spine with up := .blocked (some r) none, driveUp := false })

/-- What the bin table decides for a home-bound bin standing in UP, whatever PORT_IN holds (R121). -/
def divert (r : TravelRecord) (s : State) : State :=
  match s.dir.bin r.bin with
  | some e => if e.isOut then beginDiversion r s else blockUp r e.slot.name s
  | none =>
    let t := noteHeld (s.dir.adoptHeld s.cfg r) s
    match s.dir.adopt s.cfg s.clock r (.lane s.cfg.station .up) with
    | some d => beginDiversion r (t.setDir d)
    | none => blockUp r SlotName.nowhere t

/-- The record of a bin bound here that stands at position in UP with no diversion running (R121; log 16). -/
def homeBinWaits (s : State) : Option TravelRecord :=
  match s.spine.up.record? with
  | some r =>
    if boundHere s.cfg r && s.pins.up.position && s.spine.outUp.isNone then some r else none
  | none => none

/-- The diversion is looked at in RUN, GUARD and HALTED at each event (R121, R126, log 8). -/
def diversionCheck (s : State) : State :=
  if s.mode.working || s.mode == .halted then
    match homeBinWaits s with
    | some r => divert r s
    | none => s
  else s

/-- In FIRE and FIRE_SAFE a bin that reaches position is diverted (R136, log 16). -/
def fireDiversion (s : State) : State :=
  if s.mode.fiery then
    match homeBinWaits s with
    | some r => divert r s
    | none => s
  else s

/-! ## Arrivals (R112, R117, R121) -/

/-- The record with its hop count increased, held at 255 (R106). -/
def hopped (r : TravelRecord) : TravelRecord := { r with hop := min 255 (r.hop + 1) }

/-- An unannounced arrival (R117). -/
def unannounced (place : SpinePlace) (s : State) : State :=
  match place with
  | .portOut => setPortOut (.blocked none none) s
  | .portIn => setPortIn (.blocked none none) s
  | .down => setLane .down (.blocked none none) s
  | .up => setLane .up (.blocked none none) s

/-- The merge's bin enters DOWN (R112). -/
def mergeArrives (s : State) : State :=
  match s.spine.portOut.record? with
  | some r =>
    let link := s.spine.portOutVisit
    let s := s.setSpine { s.spine with
      down := .holding r, portOut := .empty, inDown := none, portOutVisit := none, drivePortOut := false }
    portOutEmptied (visitTo link .onSpine (locateBin r.bin (.lane s.cfg.station .down) s))
  | none => s.setSpine { s.spine with down := .blocked none none, inDown := none, drivePortOut := false, driveDown := false }

/-- A bin from another station enters a lane (R117). -/
def laneArrives (l : Lane) (h : Handoff) (s : State) : State :=
  match h.record with
  | some r =>
    let s := setIncoming l none (setLane l (.holding (hopped r)) s)
    let s := if r.home = s.cfg.station then locateBin r.bin (.lane s.cfg.station l) s else s
    queueFrame (takenFrame s.cfg.station r.bin l.takenPlace 1) s
  | none => setIncoming l none (setLane l (.blocked none none) s)

/-- The diverted bin enters PORT_IN (R121). -/
def diversionArrives (s : State) : State :=
  match s.spine.up.record? with
  | some r => locateBin r.bin .portIn
      (s.setSpine { s.spine with portIn := .holding r, up := .empty, outUp := none, driveUp := false })
  | none => s.setSpine { s.spine with portIn := .blocked none none, outUp := none, driveUp := false, drivePortIn := false }

/-- An entry sensor sees a bin in a lane place (R117). -/
def laneEntry (l : Lane) (s : State) : State :=
  match s.spine.lane l with
  | .reserved =>
    match s.spine.incoming l with
    | some h => if h.external s.cfg.station then laneArrives l h s else mergeArrives s
    | none => s
  | .empty => unannounced (match l with | .down => .down | .up => .up) s
  | .holding _ | .blocked _ _ => s

/-- An entry sensor sees a bin (R117). -/
def entryReport (place : SpinePlace) (s : State) : State :=
  match place with
  | .down => laneEntry .down s
  | .up => laneEntry .up s
  | .portOut => if s.spine.portOut = .empty then unannounced .portOut s else s
  | .portIn =>
    if s.spine.portIn = .empty then
      if (diversion s).isSome then diversionArrives s else unannounced .portIn s
    else s

/-- A position sensor sees a bin: the drive of a receiving place stops, unless a transfer out of the place runs it (R107,
log 26). -/
def positionReport (place : SpinePlace) (s : State) : State :=
  match place with
  | .down => if s.spine.outDown.isNone then driveLane .down false s else s
  | .up => fireDiversion (if s.spine.outUp.isNone then driveLane .up false s else s)
  | .portIn => s.setSpine { s.spine with drivePortIn := false }
  | .portOut => s

/-! ## TAKEN (R83, R119, R120) -/

/-- The BLOCKED place was left by a handoff of this bin to this peer that was lost or caught (R119, R144). -/
def PlaceState.lostTo (x : PlaceState) (bin taker : Nat) : Bool :=
  match x with
  | .blocked _ (some n) => n == (bin, taker)
  | _ => false

/-- A TAKEN at the sender's lane (R119). -/
def takenLane (l : Lane) (b : TakenBody) (s : State) : State :=
  match outExternal s l with
  | some h => if h.bin = b.bin ∧ h.peer = b.taker then driveLane l false (setOut l none (setLane l .empty s)) else s
  | none =>
    if (s.spine.lane l).lostTo b.bin b.taker && (laneSensors s.pins l).readsEmpty then setLane l .empty s else s

/-- The location a TAKEN shows (R120, log 19). -/
def takenLocation (b : TakenBody) : Option Location :=
  if isDeskStation b.taker then some (.desk (deskOf b.taker))
  else if 48 ≤ b.taker then none
  else match b.place with
    | .down => some (.lane b.taker .down)
    | .up => some (.lane b.taker .up)
    | .none => none

/-- A visit completed at its desk (R83). -/
def completeVisit (v : Visit) (s : State) : State :=
  let done := s.planner.withRefs (s.planner.queuedOf v)
  let s := if done.isEmpty then s else requestDone v.bin v.desk done s
  s.setPlanner ((s.planner.removeVisit v.number).freePool v.requests)

/-- The desk's TAKEN completes the ON_SPINE visit of the bin to that desk, of two such visits the first in the list (R83; log 39). -/
def deskTakes (b : TakenBody) (s : State) : State :=
  if isDeskStation b.taker then
    match s.planner.visits.find? fun v => v.bin == b.bin && v.desk == deskOf b.taker && v.state == .onSpine with
    | some v => completeVisit v s
    | none => s
  else s

/-- A TAKEN heard (R83, R119, R120). -/
def hearTaken (b : TakenBody) (s : State) : State :=
  let s := takenLane .up b (takenLane .down b s)
  let s := match takenLocation b with | some loc => locateBin b.bin loc s | none => s
  deskTakes b s

/-! ## Expiries (R112, R121, R122, R123) -/

/-- The bin is located UNKNOWN where this station is its home (R122). -/
def loseHome (r : TravelRecord) (s : State) : State :=
  if r.home = s.cfg.station then locateBin r.bin .unknown s else s

/-- An outgoing transfer to another station expires (R122). -/
def outExpires (l : Lane) (h : Handoff) (s : State) : State :=
  let hop := match (s.spine.lane l).record? with | some r => r.hop | none => 0
  let s := match (s.spine.lane l).record? with | some r => loseHome r s | none => s
  let s := driveLane l false (setOut l none (setLane l (.blocked none (some (h.bin, h.peer))) s))
  handoffLost h.bin h.peer l.place hop s

/-- The home diversion expires (R121). -/
def diversionExpires (h : Handoff) (s : State) : State :=
  let hop := match s.spine.up.record? with | some r => r.hop | none => 0
  let s := s.setSpine { s.spine with up := .blocked none none, outUp := none, driveUp := false, drivePortIn := false }
  handoffLost h.bin h.peer .up hop (locateBin h.bin .unknown s)

/-- An incoming transfer expires before the arrival (R123). -/
def inExpires (l : Lane) (s : State) : State := driveLane l false (setIncoming l none (setLane l .empty s))

/-- The port-out merge expires (R112). -/
def mergeExpires (h : Handoff) (s : State) : State :=
  let hop := match s.spine.portOut.record? with | some r => r.hop | none => 0
  let s := s.setSpine { s.spine with
    down := .empty, portOut := .blocked none none, inDown := none, portOutVisit := none
    driveDown := false, drivePortOut := false }
  handoffLost h.bin h.peer .portOut hop (locateBin h.bin .unknown s)

/-- The merge wait expires (R111); the grant follows at the end of the event. -/
def mergeWaitExpires (s : State) : State :=
  s.setSpine { s.spine with waiting := false, kept := false, mergeWait := none }

/-! ## FAULT heard (R120, R145) -/

/-- The lane a FAULT's code names. -/
def codeLane (code : Nat) : Option Lane := if code = 4 then some .down else if code = 5 then some .up else none

/-- A HANDOFF_LOST heard: the bin goes UNKNOWN while its location still names the sender's place (R120). -/
def hearHandoffLost (sender : Nat) (b : FaultBody) (s : State) : State :=
  match codeLane b.code, s.dir.bin b.bin with
  | some l, some e =>
    match e.status with
    | .out loc _ => if loc = .lane sender l then locateBin b.bin .unknown s else s
    | .stored => s
  | _, _ => s

/-- The lower neighbour's part of a BIN_CAUGHT from its up neighbour (R145). -/
def lowerCaught (sender bin : Nat) (s : State) : State :=
  let s := match inExternal s .down with
    | some h =>
      if h.bin = bin ∧ h.peer = sender then
        driveLane .down false (setIncoming .down none
          (setLane .down (if s.pins.down.readsEmpty then .empty else .blocked none none) s))
      else s
    | none => s
  match outExternal s .up with
  | some h =>
    if h.bin = bin ∧ h.peer = sender then driveLane .up false (setOut .up none (setLane .up (.blocked none none) s)) else s
  | none => s

/-- A BIN_CAUGHT heard (R145). -/
def hearBinCaught (sender : Nat) (b : FaultBody) (s : State) : State :=
  let s := locateBin b.bin (.caught b.place) s
  if sender = s.cfg.up then lowerCaught sender b.bin s else s

/-! ## Blocked places at RESUME (R125) -/

/-- The kept bin of a place made EMPTY is located UNKNOWN if it is of this station's table and OUT (R125). -/
def dropKept (kept : Option TravelRecord) (s : State) : State :=
  match kept with
  | some r => locateBin r.bin .unknown s
  | none => s

/-- A BLOCKED place whose sensor reads empty becomes EMPTY (R125). -/
def clearPlace (place : SpinePlace) (s : State) : State :=
  let x := match place with
    | .portOut => s.spine.portOut
    | .portIn => s.spine.portIn
    | .down => s.spine.down
    | .up => s.spine.up
  match x with
  | .blocked kept _ =>
    if (placeSensors s.pins place).readsEmpty then
      let s := dropKept kept s
      match place with
      | .portOut => portOutEmptied (setPortOut .empty s)
      | .portIn => clearStow (setPortIn .empty s)
      | .down => setLane .down .empty s
      | .up => setLane .up .empty s
    else s
  | _ => s

/-- The spine unit's part of a RESUME (R125). -/
def clearBlocked (s : State) : State := clearPlace .up (clearPlace .down (clearPlace .portIn (clearPlace .portOut s)))

/-! ## A forced shutter close (R144) -/

/-- FAULT BIN_CAUGHT, and the location CAUGHT(b) where the owner is the bin's home (R144, R182). -/
def binCaught (r : TravelRecord) (place : PlaceCode) (s : State) : State :=
  let s := if r.home = s.cfg.station then locateBin r.bin (.caught s.cfg.segment) s else s
  faultNotice { faultBody .binCaught with
    bin := r.bin, second := r.home, code := place.num, place := s.cfg.segment, hop := r.hop } s

/-- The outgoing handoff across the boundary ends (R144). -/
def catchDown (s : State) : State :=
  match outExternal s .down with
  | some h =>
    let r := s.spine.down.record?
    let s := driveLane .down false (setOut .down none (setLane .down (.blocked none (some (h.bin, h.peer))) s))
    match r with | some r => binCaught r .down s | none => s
  | none => s

/-- The incoming handoff across the boundary ends (R144). -/
def catchUp (s : State) : State :=
  match inExternal s .up with
  | some h =>
    let s := driveLane .up false (setIncoming .up none (setLane .up (.blocked none none) s))
    match h.record with | some r => binCaught r .up s | none => s
  | none => s

/-- No handoff across the owned shutter's boundary is in flight (R138, R141, log 18). -/
def boundaryQuiet (s : State) : Bool := (outExternal s .down).isNone && (inExternal s .up).isNone

end Sys2Proof.Machine
end

