-- ==== Sys2Proof/Machine/PlacementUnit.lean ====
section
/-! DEFINITION. The placement unit (chapter 5) and the prices of its bids (R34 to R38): the open call table, evaluations and
the search, bids, windows and claims. -/

namespace Sys2Proof.Machine
open Sys2Proof

/-! ## Calls taken (R88) -/

/-- The tests of a ROOM_CALL (R88). -/
def callTaken (sender : Nat) (b : RoomCallBody) (s : State) : Bool :=
  sender == deskStation b.call.desk
    && decide (1 ≤ b.volume) && decide (b.volume ≤ 64) && decide (1 ≤ b.mass) && decide (b.mass ≤ 250)
    && (!b.restricted || restrictedDesk s.cfg b.call.desk)
    && downOpen s
    && s.crane.state != .faulted
    && decide (s.placement.calls.length < 4)
    && (s.placement.entry b.call).isNone

/-- The entry of a taken call: receipt stamp, window held at 50..2000 (R88). -/
def newCall (b : RoomCallBody) (s : State) : CallEntry :=
  { call := b.call, volume := b.volume, mass := b.mass, restricted := b.restricted
    window := ⟨s.clock, hold 50 2000 b.window⟩, state := .waitingEval, own := none, best := none, writtenOff := false }

/-- A ROOM_CALL that reaches the placement unit (R88). -/
def hearRoomCall (sender : Nat) (b : RoomCallBody) (s : State) : State :=
  if callTaken sender b s then s.setPlacement { s.placement with calls := s.placement.calls ++ [newCall b s] } else s

/-- The entry being evaluated (R89). -/
def evaluating (pc : Placement) : Option CallEntry := pc.calls.find? fun e => e.state == .evaluating

/-- The next waiting call begins its evaluation when none runs (R89). -/
def beginEvaluation (s : State) : State :=
  if (evaluating s.placement).isSome then s
  else match s.placement.calls.find? fun e => e.state == .waitingEval with
    | some e => s.setPlacement (s.placement.modify e.call fun e => { e with state := .evaluating })
    | none => s

/-! ## The search (R90, R91) -/

/-- The six bits of a cursor value in reverse order (R90). -/
def rev6 (r : Nat) : Nat :=
  r % 2 * 32 + r / 2 % 2 * 16 + r / 4 % 2 * 8 + r / 8 % 2 * 4 + r / 16 % 2 * 2 + r / 32 % 2

/-- The steps of a search from cursor `r`, at most `fuel`, stopping when `left` columns have been counted: the columns
examined in sweep order, and the cursor reached (R90). -/
def sweepColumns (nc : Nat) : Nat → Nat → Nat → List Nat × Nat
  | 0, _, r => ([], r)
  | _ + 1, 0, r => ([], r)
  | fuel + 1, left + 1, r =>
    if rev6 r + 1 ≤ nc then
      let (cols, r') := sweepColumns nc fuel left ((r + 1) % 64)
      ((rev6 r + 1) :: cols, r')
    else sweepColumns nc fuel (left + 1) ((r + 1) % 64)

/-- The slots of one column in the order of the search: face L upward, then face R upward (R91). -/
def columnSlots (cfg : StationConfig) (col : Nat) : List Slot :=
  (List.range cfg.nl).map (fun l => ⟨.L, col, l + 1⟩) ++ (List.range cfg.nl).map (fun l => ⟨.R, col, l + 1⟩)

/-- The bin a slot is OCCUPIED by (R91). -/
def occupant (d : Directory) (sl : Slot) : Option (Nat × BinEntry) :=
  match d.slotState sl with
  | .occupied b => (d.bin b).map fun e => (b, e)
  | _ => none

/-- The directory's tests of a bin for a call (R91: state, doubt, lock, restricted, volume, mass, column). -/
def binFits (s : State) (c : CallEntry) (e : BinEntry) : Bool :=
  s.dir.holdFits s.cfg e c.volume c.mass
    && lockedSlot s.cfg e.slot == c.restricted && e.restricted == c.restricted
    && !s.dir.over s.cfg e.slot

/-- The planner's and the table's tests of a bin for a call (R91: crane, room part, same desk). -/
def binFree (s : State) (c : CallEntry) (b : Nat) : Bool :=
  !s.planner.visits.any (fun v => v.bin == b && v.state.fetched)
    && !s.planner.visits.any (fun v => v.bin == b && v.desk == c.call.desk && v.state.beforePort && v.room.isSome)
    && !s.planner.reservations.contains (b, c.call.desk)
    && !s.placement.calls.any (fun x => x.call != c.call && x.call.desk == c.call.desk
          && match x.own with | some (_, b') => b' == b | none => false)

/-- A bin is eligible for a call (R91). -/
def eligible (s : State) (c : CallEntry) (b : Nat) (e : BinEntry) : Bool := binFits s c e && binFree s c b

/-- The eligible bins of the columns examined, in the order of the search. -/
def eligibleBins (s : State) (c : CallEntry) (cols : List Nat) : List (Nat × BinEntry) :=
  (cols.flatMap (columnSlots s.cfg)).filterMap fun sl =>
    match occupant s.dir sl with
    | some (b, e) => if eligible s c b e then some (b, e) else none
    | none => none

/-! ## Prices (R34 to R38) -/

/-- The visits the backlog counts: READY, of rank URGENT or ROOM (R35). -/
def backlogVisits (s : State) : List Visit := s.planner.visits.filter fun v => v.state == .ready && v.rank != .normal

/-- The slots of a list of visits' bins. -/
def visitSlots (s : State) (vs : List Visit) : List Slot := vs.filterMap fun v => binSlot s v.bin

/-- The backlog W (R35). -/
def backlog (s : State) : Nat :=
  min 16777215 (remainingTime s + (match s.crane.staged with | some m => m.estimate | none => 0)
    + ((visitSlots s (backlogVisits s)).map (roundTrip s.cfg)).sum)

/-- The spine term S (R36). -/
def spineTerm (cfg : StationConfig) : Nat := cfg.segment * cfg.passTime

/-- The piggyback credit P (R37). -/
def piggyback (s : State) (desk : Desk) (b : Nat) (e : BinEntry) : Nat :=
  if s.planner.visits.any fun v => v.bin == b && v.desk == desk && v.state.waiting then roundTrip s.cfg e.slot else 0

/-- The bid cost (R38), from a backlog. -/
def bidCost (s : State) (w : Nat) (desk : Desk) (b : Nat) (e : BinEntry) : Nat :=
  min 16777215 (w + roundTrip s.cfg e.slot + spineTerm s.cfg - piggyback s desk b e)

/-- The first of the bins of least cost (R92). -/
def cheapest (cost : Nat × BinEntry → Nat) : List (Nat × BinEntry) → Option (Nat × BinEntry)
  | [] => none
  | x :: xs =>
    match cheapest cost xs with
    | none => some x
    | some y => if cost y < cost x then some y else some x

/-- An axis time was held by the prices of an evaluation: by the remaining time of its backlog, a round trip of the backlog, or the
round trip of an eligible bin (R29). -/
def pricesHeld (s : State) (bins : List (Nat × BinEntry)) : Bool :=
  remainingHeld s || (visitSlots s (backlogVisits s)).any (roundTripHeld s.cfg) || bins.any fun x => roundTripHeld s.cfg x.2.slot

/-! ## Evaluation done (R92) -/

/-- A candidate found: the hold is placed and the BID queued, or the entry becomes NO_BID (R92). -/
def bidFor (c : CallEntry) (cost b : Nat) (s : State) : State :=
  match s.dir.placeHold s.cfg b c.volume c.mass with
  | some d =>
    let s := s.setDir d
    let s := s.setPlacement (s.placement.modify c.call fun e => { e with state := .bidQueued, own := some (cost, b) })
    queueFrame (frameOf (.bid ⟨c.call, cost, s.cfg.station, b⟩) 63 (.bid c.call)) s
  | none => s.setPlacement (s.placement.modify c.call fun e => { e with state := .noBid })

/-- Evaluation done: the cursor moves, the cheapest eligible bin is held and bid for (R90 to R92). -/
def evaluationDone (s : State) : State :=
  match evaluating s.placement with
  | none => s
  | some c =>
    let (cols, r) := sweepColumns s.cfg.nc 64 s.cfg.searchSpan s.placement.sweep
    let bins := eligibleBins s c cols
    let w := backlog s
    let cost := fun x : Nat × BinEntry => bidCost s w c.call.desk x.1 x.2
    let t := noteHeld (pricesHeld s bins) (s.setPlacement { s.placement with sweep := r })
    match cheapest cost bins with
    | some x => bidFor c (cost x) x.1 t
    | none => t.setPlacement (t.placement.modify c.call fun e => { e with state := .noBid })

/-! ## Bids (R94, R95) -/

/-- A cost and station come before others: lower cost, or equal cost and lower station number (R94, R95). -/
def beats (a b : Nat × Nat) : Bool := decide (a.1 < b.1) || (a.1 == b.1 && decide (a.2 < b.2))

/-- The states in which a call's window runs (R87). -/
def CallState.windowRuns : CallState → Bool
  | .claimQueued | .claimSent => false
  | _ => true

/-- A BID heard (R94). -/
def hearBid (b : BidBody) (s : State) : State :=
  s.setPlacement (s.placement.modify b.call fun e =>
    if e.state.windowRuns then
      match e.best with
      | none => { e with best := some (b.cost, b.station) }
      | some x => if beats (b.cost, b.station) x then { e with best := some (b.cost, b.station) } else e
    else e)

/-- The own bid is beaten (R95). -/
def beaten (own : Nat) (e : CallEntry) : Bool :=
  match e.own, e.best with
  | some (cost, _), some x => beats x (cost, own)
  | _, _ => false

/-- A claim begins (R96). -/
def beginClaim (e : CallEntry) (s : State) : State :=
  match e.own with
  | some (_, bin) =>
    if roomPartFits s bin e.call.desk then
      let s := reserveEntry bin e.call.desk s
      let s := s.setPlacement (s.placement.modify e.call fun e => { e with state := .claimQueued })
      queueFrame (frameOf (.claim ⟨e.call, s.cfg.station, bin⟩) (deskStation e.call.desk) (.claim e.call)) s
    else closeCall e.call s
  | none => closeCall e.call s

/-- The window of an entry expires (R95). -/
def windowExpires (e : CallEntry) (s : State) : State :=
  match e.state with
  | .bidSent => if beaten s.cfg.station e then closeCall e.call s else beginClaim e s
  | .claimQueued | .claimSent => s
  | .waitingEval | .evaluating | .noBid | .bidQueued => closeCall e.call s

/-! ## Claims (R97, R98) -/

/-- Another station's CLAIM heard (R98). -/
def hearClaim (b : ClaimBody) (s : State) : State :=
  match s.placement.entry b.call with
  | some e => if e.state = .claimSent then s else closeCall b.call s
  | none => s

/-- The outcome of the own CLAIM (R97, R100): `heard` for HEARD. -/
def claimOutcome (c : Call) (heard : Bool) (s : State) : State :=
  match s.placement.entry c with
  | some e =>
    match e.own with
    | some (_, bin) =>
      if heard && !e.writtenOff then
        let s := takeRoomPart bin ⟨e.call, e.volume, e.mass⟩ s
        s.setPlacement (s.placement.remove c)
      else claimLost c s
    | none => claimLost c s
  | none => s

/-- A frame of a call has won contention (R93, R96). -/
def callSent (c : Call) (st : CallState) (s : State) : State :=
  s.setPlacement (s.placement.modify c fun e => { e with state := st })

end Sys2Proof.Machine
end

