-- ==== Sys2Proof/Machine/FireUnit.lean ====
section
/-! DEFINITION. The fire unit (chapter 7) and the station mode: alarm records, local causes, mode derivation and its effects
on the blocks, route retests, the shutter, the SAFE report, RESTORE. -/

namespace Sys2Proof.Machine
open Sys2Proof

/-! ## Routes (R74, R109, R137) -/

/-- The states of a call that a closing of the down route closes (R137). -/
def CallState.closesWithRoute : CallState → Bool
  | .claimQueued | .claimSent => false
  | _ => true

/-- The spine unit tests the down route again and reports a change (R74, R109); a closing closes open calls (R137). -/
def retestRoute (s : State) : State :=
  if downOpen s = s.spine.routeOpen then s
  else
    let now := downOpen s
    let s := reportRoute now (s.setSpine { s.spine with routeOpen := now })
    if now then s else closeCalls CallState.closesWithRoute s

/-! ## Mode (R132) -/

/-- Some compartment is alarmed. -/
def Fire.anyAlarm (f : Fire) : Bool := compartmentsDown.any f.alarmed

/-- The mode as R132 derives it from STOCKING on. -/
def newMode (s : State) : Mode :=
  if s.fire.alarmed (ownComp s.cfg) then (if s.safeMade then .fireSafe else .fire)
  else if !s.stockEnded then .stocking
  else if s.stopTaken then .halted
  else if s.fire.anyAlarm then .guard
  else .run

/-- Leaving RUN and GUARD closes the open calls but a CLAIM on the line (R99). -/
def leaveWorking (old : Mode) (s : State) : State :=
  if old.working && !s.mode.working then closeCalls (fun st => st != .claimSent) s else s

/-- Entering FIRE acts on the crane (R134). -/
def enterFire (old : Mode) (s : State) : State := if s.mode.fiery && !old.fiery then craneEntersFire s else s

/-- The mode is derived again and the blocks act on a change (R132). -/
def deriveMode (s : State) : State := enterFire s.mode (leaveWorking s.mode (s.setMode (newMode s)))

/-! ## Frames of the fire unit -/

/-- Queue a FIRE-class frame to ALL (R130, R146, R147, R148). -/
def fireFrame (item : Item) (o : Owner) (s : State) : State := queueFrame (frameOf item 63 o) s

/-! ## The shutter (7.3) -/

def setShutter (x : Shutter) (s : State) : State := s.setFire { s.fire with shutter := some x }

/-- A timer of this event lasting so many seconds. -/
def secondsTimer (s : State) (n : Nat) : Timer := ⟨s.clock, n * 1000⟩

/-- Entry into CLEARING, the close limit starting at the alarm-heard stamp, which is this event's; the drive limit timer of an
OPENING shutter stops with its drive (R140; log 37). -/
def startClearing (x : Shutter) (s : State) : State :=
  setShutter { x with
    state := .clearing, closeLimit := some (secondsTimer s s.cfg.closeLimit), driveLimit := none, foundShut := false } s

/-- An adjacent compartment has become alarmed (R140, R152). -/
def shutterProcedure (s : State) : State :=
  match s.fire.shutter with
  | none => s
  | some x =>
    match x.state with
    | .isOpen | .opening | .faultDrive .opening => startClearing x s
    | .clearing | .closingDrive | .shut | .faultDrive .closing => setShutter { x with foundShut := false } s

/-- The closing drive starts (R141, R142, R144). -/
def startClosing (x : Shutter) (s : State) : State :=
  setShutter { x with state := .closingDrive, driveLimit := some (secondsTimer s s.cfg.driveLimit), retry := none } s

/-- A CLOSING whose frame is on the line no longer concerns the shutter once it has left CLEARING (R142). -/
def disownClosing (s : State) : State :=
  s.setLine (s.line.setQueue (s.line.queue.map fun f => if f.owner.isClosing then { f with owner := .plain } else f))

/-- A CLOSING not on the line is withdrawn, and the outcome of one on the line will change nothing (R142, R144, R147). -/
def dropClosing (s : State) : State := disownClosing (withdraw Owner.isClosing s)

/-- A CLOSING is queued or on the line (R141). -/
def closingQueued (s : State) : Bool :=
  s.line.queue.any fun f => f.items.any fun i => match i with | .closing _ => true | _ => false

/-- The clear check in CLEARING (R141). -/
def clearCheck (s : State) : State :=
  match s.fire.shutter with
  | none => s
  | some x =>
    if x.state = .clearing ∧ boundaryQuiet s = true ∧ s.pins.boundary = false then
      if s.cfg.down = 63 then startClosing x s
      else if closingQueued s || x.retry.isSome then s
      else queueFrame (frameOf (.closing s.cfg.segment) s.cfg.down .closing) s
    else s

/-- The outcome of a CLOSING (R142): `heard` for HEARD, which starts the closing drive though an OFFER heard since the CLOSING was
queued may have a handoff in flight (log 36). -/
def closingOutcome (heard : Bool) (s : State) : State :=
  match s.fire.shutter with
  | some x =>
    if x.state = .clearing then (if heard then startClosing x s else startClosingRetry s) else s
  | none => s

/-- A CLOSING heard is objected to (R143). -/
def closingObjected (sender : Nat) (s : State) : Bool :=
  sender != s.cfg.up || s.pins.down.entry || s.pins.up.position
    || (match outExternal s .up with | some h => h.peer == sender | none => false)

/-- The close limit expires in CLEARING: the shutter is closed by force (R144). -/
def forceClose (x : Shutter) (s : State) : State :=
  catchUp (catchDown (startClosing { x with closeLimit := none } (dropClosing s)))

/-- The close limit expires (R144); outside CLEARING nothing else changes (R142). -/
def closeLimitExpires (s : State) : State :=
  match s.fire.shutter with
  | some x =>
    if x.state = .clearing then forceClose x s else setShutter { x with closeLimit := none } s
  | none => s

/-- The closed sensor reads closed (R146). -/
def shutterClosed (s : State) : State :=
  match s.fire.shutter with
  | some x =>
    match x.state with
    | .closingDrive | .faultDrive .closing =>
      retestRoute (fireFrame (.closed s.cfg.segment) .plain (setShutter { x with state := .shut, driveLimit := none } s))
    | _ => s
  | none => s

/-- The shutter has become OPEN: OPENED is queued (R147). -/
def becomeOpen (x : Shutter) (s : State) : State :=
  retestRoute (fireFrame (.opened s.cfg.segment) .plain (setShutter { x with state := .isOpen, driveLimit := none } s))

/-- The open sensor reads open (R147). -/
def shutterOpened (s : State) : State :=
  match s.fire.shutter with
  | some x =>
    match x.state with
    | .opening | .faultDrive .opening => becomeOpen x s
    | _ => s
  | none => s

/-- FAULT SHUTTER_FAULT (R146, R182). -/
def shutterFault (d : ShutterDir) (x : Shutter) (s : State) : State :=
  faultNotice { faultBody .shutterFault with code := d.num, place := s.cfg.segment }
    (setShutter { x with state := .faultDrive d, driveLimit := none } s)

/-- The shutter drive limit expires (R146, R147). -/
def driveLimitExpires (s : State) : State :=
  match s.fire.shutter with
  | some x =>
    match x.state with
    | .closingDrive => shutterFault .closing x s
    | .opening => shutterFault .opening x s
    | _ => setShutter { x with driveLimit := none } s
  | none => s

/-- Neither compartment beside the owned shutter is alarmed (R147). -/
def adjacentClear (s : State) : Bool :=
  compartmentsDown.all fun c => !(bordersShutter s.cfg c && s.fire.alarmed c)

/-- The shutter reopens when neither adjacent compartment is alarmed (R147). -/
def reopen (s : State) : State :=
  match s.fire.shutter with
  | some x =>
    if adjacentClear s then
      match x.state with
      | .clearing => becomeOpen { x with closeLimit := none, retry := none } (dropClosing s)
      | .closingDrive | .shut | .faultDrive .closing =>
        retestRoute (setShutter { x with
          state := .opening, foundShut := false, closeLimit := none, retry := none
          driveLimit := some (secondsTimer s s.cfg.driveLimit) } s)
      | .opening | .isOpen | .faultDrive .opening => s
    else s
  | none => s

/-- A RESTORE for an adjacent compartment ends a found-shut hold where neither adjacent compartment is alarmed (R152). -/
def endFoundShut (c : Compartment) (s : State) : State :=
  match s.fire.shutter with
  | some x => if x.foundShut && bordersShutter s.cfg c then reopen s else s
  | none => s

/-! ## The SAFE report (R148) -/

/-- The shutter's part of the SAFE test (R148). -/
def shutterSafe (f : Fire) : Bool :=
  match f.shutter with
  | none => true
  | some x => x.state == .shut || x.state == .faultDrive .closing

/-- The crane's part of the SAFE test (R148). -/
def CraneState.rests : CraneState → Bool
  | .parked | .halted | .faulted => true
  | _ => false

/-- In FIRE, with crane at rest, no handoff in flight and the owned shutter closed, the station reports itself safe
(R148). -/
def safeCheck (s : State) : State :=
  if s.mode = .fire ∧ s.crane.state.rests = true ∧ s.spine.quiet = true ∧ shutterSafe s.fire = true then
    let c := ownComp s.cfg
    fireFrame (.safe ⟨c, (s.fire.alarms.get c).epoch, s.cfg.station⟩) .plain ((s.setSafeMade true).setMode .fireSafe)
  else s

/-! ## Alarms (R128 to R131) -/

def setAlarm (c : Compartment) (r : AlarmRec) (s : State) : State :=
  s.setFire { s.fire with alarms := s.fire.alarms.set c.val r c.isLt }

/-- A compartment has become alarmed: shutter procedure, mode, routes (R128, R132, R140). -/
def alarmRaised (c : Compartment) (s : State) : State :=
  retestRoute (deriveMode (if bordersShutter s.cfg c then shutterProcedure s else s))

/-- The cause stands among the local causes (R128). -/
def AlarmRec.has (r : AlarmRec) : FireInput → Bool
  | .smoke => r.smoke
  | .heat => r.heat
  | .callPoint => r.callPoint

/-- The cause joins the local causes (R130). -/
def AlarmRec.add (r : AlarmRec) : FireInput → AlarmRec
  | .smoke => { r with smoke := true }
  | .heat => { r with heat := true }
  | .callPoint => { r with callPoint := true }

/-- Queue the ALARM of a local cause (R130). -/
def queueAlarm (c : Compartment) (epoch : Nat) (i : FireInput) (s : State) : State :=
  fireFrame (.alarm ⟨c, epoch, i.cause, s.cfg.station⟩) (.alarm c) s

/-- The epoch a local cause raises (R130). -/
def nextEpoch (last : Nat) : Nat := last % 255 + 1

/-- A local cause event (R130). -/
def localCause (i : FireInput) (s : State) : State :=
  let c := ownComp s.cfg
  let r := s.fire.alarms.get c
  if r.alarmed then
    if r.has i then s else queueAlarm c r.epoch i (setAlarm c (r.add i) s)
  else
    let e := nextEpoch r.last
    let r := { r with alarmed := true, epoch := e, last := e, stamp := some s.clock }
    alarmRaised c (queueAlarm c e i (setAlarm c (r.add i) s))

/-- An ALARM heard (R131). -/
def hearAlarm (b : AlarmBody) (s : State) : State :=
  if b.epoch = 0 then s
  else
    let r := s.fire.alarms.get b.comp
    let s := withdraw (Owner.isAlarm b.comp) s
    if r.alarmed then setAlarm b.comp { r with epoch := b.epoch, last := b.epoch } s
    else alarmRaised b.comp (setAlarm b.comp { r with alarmed := true, epoch := b.epoch, last := b.epoch, stamp := some s.clock } s)

/-! ## Restore (R149, R150) -/

/-- The fire inputs, in the order of R129. -/
def fireInputs : List FireInput := [.smoke, .heat, .callPoint]

def Fire.filter (f : Fire) : FireInput → InputFilter
  | .smoke => f.smoke
  | .heat => f.heat
  | .callPoint => f.callPoint

def setFilter (i : FireInput) (x : InputFilter) (s : State) : State :=
  match i with
  | .smoke => s.setFire { s.fire with smoke := x }
  | .heat => s.setFire { s.fire with heat := x }
  | .callPoint => s.setFire { s.fire with callPoint := x }

/-- A local cause event for each input that counts active (R150, step 5). -/
def reraise (s : State) : State := (fireInputs.filter fun i => (s.fire.filter i).active).foldl (fun s i => localCause i s) s

/-- The record of a compartment whose alarm has cleared (R149). -/
def AlarmRec.cleared (r : AlarmRec) : AlarmRec :=
  { r with alarmed := false, smoke := false, heat := false, callPoint := false, stamp := none }

/-- The spine unit's part of a restore, once the routes are tested: held bins are offered, PORT_OUT is considered for the merge, a
home bin standing in UP is diverted (R150, step 3). -/
def spineResumes (s : State) : State := diversionCheck (mergeArbiter (offerLane .up (offerLane .down s)))

/-- The effects of a restore that clears a compartment (R150, in its order). A merge or diversion begun at step 3 runs on where an
input still active alarms the own compartment again at step 5 (R136). -/
def restoreEffects (c : Compartment) (s : State) : State :=
  let own : Bool := c == ownComp s.cfg
  let s := deriveMode (if own then s.setSafeMade false else s)
  let s := spineResumes (retestRoute (if own then unpark s else s))
  let s := if bordersShutter s.cfg c then reopen s else s
  if own then reraise s else s

/-- A RESTORE from the fire panel (R149, R152): whether it is objected to as stale, and the state after. -/
def hearRestore (b : RestoreBody) (s : State) : Bool × State :=
  let r := s.fire.alarms.get b.comp
  if r.alarmed then
    if r.epoch = b.epoch then
      (false, restoreEffects b.comp (withdraw (Owner.isAlarm b.comp) (setAlarm b.comp r.cleared s)))
    else (true, endFoundShut b.comp s)
  else (false, endFoundShut b.comp s)

/-! ## Input filters (R129) -/

/-- An input reads active: its filter timer of 100 ms starts, where it does not run and the input does not yet count as
active (R129). -/
def inputReadsActive (i : FireInput) (s : State) : State :=
  let x := s.fire.filter i
  if x.active || x.timer.isSome then s else setFilter i { x with timer := some ⟨s.clock, 100⟩ } s

/-- An input reads inactive: the filter stops, and the input counts inactive (R129). -/
def inputReadsInactive (i : FireInput) (s : State) : State :=
  setFilter i { s.fire.filter i with timer := none, active := false } s

/-- A filter expires: the input counts as active; the local cause is applied, held in START, and raises nothing in
UNCONFIGURED (R129, R151, R189). -/
def filterExpires (i : FireInput) (s : State) : State :=
  let x := { s.fire.filter i with timer := none, active := true }
  match s.mode with
  | .start => setFilter i { x with held := true } s
  | .unconfigured => setFilter i x s
  | _ => localCause i (setFilter i x s)

/-- The local causes held during START (R151, R189 step 6), in the order smoke, heat, call point whatever order they expired in: the
rules give none, and the order is the model's choice (log 10). -/
def applyHeld (s : State) : State :=
  (fireInputs.filter fun i => (s.fire.filter i).held).foldl
    (fun s i => localCause i (setFilter i { s.fire.filter i with held := false } s)) s

end Sys2Proof.Machine
end

