-- ==== Sys2Proof/Machine/Settle.lean ====
section
/-! DEFINITION. What every event ends with: the checks that the manual asks for 'at each event after which they may hold',
in one fixed order (log 8). -/

namespace Sys2Proof.Machine
open Sys2Proof

/-- The end of an event: OFFERs withdrawn (R113), the crane's work chosen (R75, R78), a home bin diverted (R121), the
merge arbiter (R111), offers queued (R113), the clear check (R141), the SAFE report (R148), the next evaluation (R89). -/
def settle (s : State) : State :=
  let s := withdrawOffer .up (withdrawOffer .down s)
  let s := diversionCheck (selectWork s)
  let s := offerLane .up (offerLane .down (mergeArbiter s))
  beginEvaluation (safeCheck (clearCheck s))

/-- The effect of a command on a live station: the pins are read, the effect is applied, the event ends (log 3, log 8).
In reset, START and UNCONFIGURED a command changes nothing but the pins as last read (R185, R189). -/
def live (p : Pins) (f : State → State) (s : State) : State :=
  let s := s.setPins p
  if s.live then settle (f s) else s

/-- An expiry: it acts where the timer runs and has expired, and changes nothing otherwise (R156, log 9). -/
def expiry (t : State → Option Timer) (f : State → State) (s : State) : State :=
  if timerDue s.clock (t s) then f s else s

end Sys2Proof.Machine
end

