-- ==== Sys2Proof/Machine/Hear.lean ====
section
/-! DEFINITION. Hearing a frame with a good check (R164 to R173): the neighbour table, the class test, the receive filter,
the sender check, the concern test, the mode gate, the dispatch of the items in stream order, and the answer slots. -/

namespace Sys2Proof.Machine
open Sys2Proof

/-! ## The mode gate (R171) -/

/-- What the gate does with an item. -/
inductive Gate where
  | admitted | refused | dropped
  deriving DecidableEq, Repr

/-- The column STOCKING of R171. -/
def gateStocking : Item → Gate
  | .offer _ | .lend _ | .cancel _ | .writeOff _ => .refused
  | .roomCall _ | .bid _ | .claim _ => .dropped
  | _ => .admitted

/-- The column HALTED of R171. -/
def gateHalted : Item → Gate
  | .offer _ | .stockEnd | .stop => .refused
  | .roomCall _ | .bid _ | .claim _ => .dropped
  | _ => .admitted

/-- The column FIRE, FIRE_SAFE of R171. -/
def gateFire : Item → Gate
  | .offer _ | .lend _ | .cancel _ | .stockAt _ | .stock _ | .stockEnd => .refused
  | .roomCall _ | .bid _ | .claim _ => .dropped
  | _ => .admitted

/-- The gate by station mode (R171). Before STOCK_END a station in a fire mode admits what both columns admit. START and
UNCONFIGURED take no item. -/
def gate (s : State) (i : Item) : Gate :=
  match s.mode with
  | .start | .unconfigured => .dropped
  | .stocking => gateStocking i
  | .run | .guard => .admitted
  | .halted => gateHalted i
  | .fire | .fireSafe =>
    if s.stockEnded then gateFire i
    else if gateFire i = .admitted then gateStocking i else gateFire i

/-! ## Sender, address and concern (R69, R166, R168) -/

/-- The sender check (R168). -/
def senderGood (cfg : StationConfig) (sender : Nat) (i : Item) : Bool :=
  match i with
  | .restore _ => sender == cfg.firePanel
  | .roomCall _ => isDeskStation sender
  | i => !i.fromGateway || isGateway cfg sender

/-- The frame is addressed to the station's own number. -/
def toOwn (cfg : StationConfig) (h : Header) : Bool := !h.group && h.addr == cfg.station

/-- The frame is addressed to the station (R166). -/
def addressed (cfg : StationConfig) (h : Header) : Bool :=
  if h.group then h.addr == (ownComp cfg).val else h.addr == cfg.station || h.addr == 63

/-- The address the item needs, in a frame addressed to the station (R166). -/
def addressGood (cfg : StationConfig) (h : Header) (i : Item) : Bool :=
  match i with
  | .stockAt _ | .stock _ | .stockEnd | .writeOff _ | .query => toOwn cfg h
  | _ => true

/-- The concern test of LEND and CANCEL (R69, R180). -/
def concerns (h : Header) (s : State) (i : Item) : Bool :=
  match i with
  | .lend b => b.id != 0 && (s.dir.bin b.bin).isSome
  | .cancel id => id != 0 && ((tblGet s.planner.pool id).isSome || toOwn s.cfg h)
  | _ => true

/-! ## Answers -/

/-- What became of an item, for the answer slots (R173). -/
inductive Verdict where
  | taken | refused | silent | badSender
  deriving DecidableEq, Repr

/-- What became of the items of a frame so far. `stockNotice`: the one STOCK_REFUSED for the gate-refused bodies of the
frame has been offered (R172). -/
structure Answers where
  taken       : Bool
  refused     : Bool
  badSender   : Bool
  stockNotice : Bool
  deriving DecidableEq, Repr

def Answers.none : Answers := ⟨false, false, false, false⟩

/-- Count a verdict. -/
def Answers.note (a : Answers) : Verdict → Answers
  | .taken => { a with taken := true }
  | .refused => { a with refused := true }
  | .silent => a
  | .badSender => { a with badSender := true }

/-- The two slots of an addressed frame of a class (R173). A CLAIM in a frame addressed to the station draws the acknowledge of its
class like any AUCTION item (log 34). -/
def Answers.slots (a : Answers) (cls : Nat) : Bool × Bool :=
  if a.badSender then (false, false)
  else if cls = 3 then (a.taken, a.refused)
  else (true, a.refused)

/-! ## Items the gate refuses (R172) -/

/-- STOCK_REFUSED (R22, R172). -/
def stockRefused (r : StockReason) (slot : SlotName) (bin : Nat) (s : State) : State :=
  notice [.stockRefused ⟨r.num, slot, bin⟩] s

/-- The reason a gate refusal gives in REQUEST_FAILED (R172). -/
def gateReason (m : Mode) : FailReason := if m.fiery then .fire else .notReady

/-- Bin, desk and item reference that a refused CANCEL names (R182). -/
def cancelNames (s : State) (id : Nat) : Nat × Option Desk × Nat :=
  match tblGet s.planner.pool id with
  | some r => (match s.planner.visit r.visit with | some v => v.bin | none => 0, some r.desk, r.ref)
  | none => (0, none, 0)

/-- The notice for an item the gate refuses (R172). -/
def gateNotice (a : Answers) (i : Item) (s : State) : Answers × State :=
  let why := gateReason s.mode
  match i with
  | .lend b => (a, requestFailed why .lend b.bin (some b.desk) [(b.id, b.ref)] s)
  | .cancel id =>
    let (bin, desk, ref) := cancelNames s id
    (a, requestFailed why .cancel bin desk [(id, ref)] s)
  | .stop => (a, requestFailed why .stop 0 none [] s)
  | .writeOff bin => (a, requestFailed why .writeOff bin none [] s)
  | .stockAt _ | .stockEnd => (a, stockRefused .notReady SlotName.nowhere 0 s)
  | .stock b =>
    if a.stockNotice then (a, s)
    else ({ a with stockNotice := true }, stockRefused .notReady SlotName.nowhere b.bin s)
  | _ => (a, s)

/-! ## Lending (R70, R71, R81) -/

/-- The visits of this bin to this desk from WAITING_BIN to DELIVERING (R70). -/
def visitsBeforePort (s : State) (bin : Nat) (desk : Desk) : List Visit :=
  s.planner.visits.filter fun v => v.bin == bin && v.desk == desk && v.state.beforePort

/-- The bin's restricted flag as the bin table holds it (R70). -/
def binRestricted (s : State) (bin : Nat) : Bool :=
  match s.dir.bin bin with
  | some e => e.restricted
  | none => false

/-- The tests of R70, in order; `none` when the LEND passes. -/
def lendRefusal (b : LendBody) (s : State) : Option FailReason :=
  if (tblGet s.planner.pool b.id).isSome then some .duplicate
  else if binRestricted s b.bin && !restrictedDesk s.cfg b.desk then some .restricted
  else if 48 ≤ s.planner.pool.length then some .queueFull
  else if 8 ≤ ((visitsBeforePort s b.bin b.desk).map (·.requests.length)).sum then some .queueFull
  else if (s.planner.waitingVisit b.bin b.desk).isNone
      && decide (24 ≤ s.planner.visits.length + s.planner.reservations.length) then some .queueFull
  else none

/-- The pool entry of a taken LEND (R64, R71). -/
def newRequest (b : LendBody) (visit : Nat) : Request := ⟨b.ref, b.desk, b.rank, .queued, visit⟩

/-- A LEND joins a waiting visit (R71). -/
def lendJoins (b : LendBody) (w : Visit) (s : State) : State :=
  let pl := { s.planner with pool := tblPut b.id (newRequest b w.number) s.planner.pool }
  s.setPlanner (pl.modifyVisit w.number fun v =>
    { v with requests := v.requests ++ [b.id], rank := pl.rankOf (v.requests ++ [b.id]) v.room })

/-- The rank a rank asked gives a new visit (R71). -/
def RankAsked.visitRank : RankAsked → Rank
  | .normal => .normal
  | .urgent => .urgent

/-- A LEND makes a new visit (R71). -/
def lendMakes (b : LendBody) (s : State) : State :=
  let v := makeVisit s b.bin b.desk (RankAsked.visitRank b.rank) [b.id] none
  s.setPlanner ({ s.planner with pool := tblPut b.id (newRequest b v.number) s.planner.pool }.addVisit v)

/-- A LEND admitted by the gate (R70, R71). -/
def hearLend (b : LendBody) (s : State) : Verdict × State :=
  match lendRefusal b s with
  | some why => (.refused, requestFailed why .lend b.bin (some b.desk) [(b.id, b.ref)] s)
  | none =>
    match s.planner.waitingVisit b.bin b.desk with
    | some w => (.taken, lendJoins b w s)
    | none => (.taken, lendMakes b s)

/-- The staged move of a visit is withdrawn: the stage is empty, and the planner has passed over the work that stands ready
(R45, R75). -/
def withdrawStaged (n : Nat) (s : State) : State :=
  match s.crane.staged with
  | some m =>
    if m.visit = some n ∧ m.bound = false then
      (s.setCrane { s.crane with staged := none }).setPlanner { s.planner with passed := some (readyWork s) }
    else s
  | none => s

/-- The effect of a CANCEL on a visit before FETCHING: the request leaves the list and the pool (R81). -/
def cancelListed (id : Nat) (v : Visit) (s : State) : State :=
  let pl := s.planner.freePool [id]
  let left := v.requests.filter fun x => x != id
  if left.isEmpty && v.room.isNone then
    let s := s.setPlanner (pl.removeVisit v.number)
    if v.state = .staged then withdrawStaged v.number s else s
  else s.setPlanner (pl.modifyVisit v.number fun v =>
    { v with requests := left, rank := if v.state = .staged then v.rank else pl.rankOf left v.room })

/-- The request is marked CANCELLED (R81). -/
def cancelMarks (id : Nat) (s : State) : State :=
  s.setPlanner { s.planner with pool := tblModify id (fun r => { r with state := .cancelled }) s.planner.pool }

/-- A CANCEL admitted by the gate (R81). -/
def hearCancel (id : Nat) (s : State) : Verdict × State :=
  match tblGet s.planner.pool id with
  | none => (.refused, s)
  | some r =>
    if r.state = .cancelled then (.taken, s)
    else match s.planner.visit r.visit with
      | some v => (.taken, if v.state.fetched then cancelMarks id s else cancelListed id v s)
      | none => (.taken, cancelMarks id s)

/-! ## Stocking (R19 to R24) -/

/-- A STOCK_AT (R19). -/
def hearStockAt (n : SlotName) (s : State) : Verdict × State :=
  match n.slot? s.cfg with
  | some sl => (.taken, s.setDir { s.dir with cursor := some sl })
  | none => (.refused, stockRefused .cursorEnd SlotName.nowhere 0 (s.setDir { s.dir with cursor := none }))

/-- The bin recorded in a slot has a visit STAGED or later (R20). -/
def lateVisit (s : State) (sl : Slot) : Bool :=
  match s.dir.slotState sl with
  | .occupied a => s.planner.visits.any fun v => v.bin == a && !v.state.waiting
  | _ => false

/-- The bin a stock write or a write-off has removed: its visits fail, and the calls that hold it close (R21, R24, R80,
R100). -/
def binRemoved (bin : Nat) (why : FailReason) (s : State) : State := closeCallsOfBin bin (failVisits bin why s)

/-- A body applied at the cursor (R20, R21): the bin it names may have become fetchable (R73). -/
def stockApplied (sl : Slot) (b : StockBody) (s : State) : State :=
  let (d, removed) := s.dir.stockApply s.cfg sl b
  let s := s.setDir d
  let s := match removed with | some a => binRemoved a .unknownBin s | none => s
  releaseBin b.bin s

/-- A STOCK body (R19, R20). -/
def hearStock (b : StockBody) (s : State) : Verdict × State :=
  match s.dir.cursor with
  | none => (.refused, stockRefused .cursorEnd SlotName.nowhere b.bin s)
  | some sl =>
    let next (s : State) : State := s.setDir { s.dir with cursor := nextCursor s.cfg sl }
    match s.dir.stockRefusal sl b.bin (lateVisit s sl) with
    | some why => (.refused, next (stockRefused why sl.name b.bin s))
    | none => (.taken, next (stockApplied sl b s))

/-- STOCK_END (R23). -/
def hearStockEnd (s : State) : State := deriveMode (s.setStockEnded true)

/-- WRITE_OFF (R24). -/
def hearWriteOff (bin : Nat) (s : State) : Verdict × State :=
  if s.dir.lostBin bin then (.taken, binRemoved bin .writtenOff (s.setDir (s.dir.writeOff s.cfg bin))) else (.refused, s)

/-! ## STOP, RESUME, QUERY -/

/-- STOP (R60, R132). -/
def hearStop (s : State) : State := deriveMode (craneStop (s.setStopTaken true))

/-- The crane leaves HALTED or FAULTED (R61, step 4). -/
def leaveHalt (s : State) : State := if s.mode.fiery then craneTo .parked s else nextMove (craneTo .idle s)

/-- Steps 1 to 4 of R61. -/
def resumeSteps (s : State) : State :=
  let s := readEncoders s
  if s.crane.state = .halted ∨ s.crane.state = .faulted then
    let (free, s) := resolveLoad s
    let s := clearBlocked s
    if free then leaveHalt s else s
  else clearBlocked s

/-- RESUME (R61): kept while the crane is STOPPING after a STOP (log 12). -/
def hearResume (s : State) : State :=
  let s := deriveMode (s.setStopTaken false)
  if s.crane.state = .stopping ∧ s.crane.fireStop = false then s.setCrane { s.crane with resumeKept := true }
  else resumeSteps s

/-- QUERY (R183, R190): the report, and the sticky flags cleared where it is admitted (R30, R177). -/
def hearQuery (s : State) : State :=
  let r := [Item.stationReport (stationReport s)]
  if noticeEnters r s then
    let s := (notice r s).setLimited false
    s.setLine { s.line with discarded := false }
  else notice r s

/-! ## Dispatch (R167) -/

/-- FAULT heard: only HANDOFF_LOST and BIN_CAUGHT are applied (R182, R191). -/
def hearFault (sender : Nat) (b : FaultBody) (s : State) : State :=
  match b.kind with
  | .handoffLost => hearHandoffLost sender b s
  | .binCaught => hearBinCaught sender b s
  | _ => s

/-- An item that has passed every check, at its owning block (R167). -/
def applyItem (h : Header) (i : Item) (s : State) : Verdict × State :=
  match i with
  | .alarm b => (if b.epoch = 0 then .silent else .taken, hearAlarm b s)
  | .closing _ => (if closingObjected h.sender s then .refused else .taken, s)
  | .restore b =>
    let (stale, s) := hearRestore b s
    (if stale then .refused else .taken, s)
  | .offer r =>
    let (accepted, s) := hearOffer h.sender r s
    (if accepted then .taken else .refused, s)
  | .taken b => (.taken, hearTaken b s)
  | .roomCall b => (.silent, hearRoomCall h.sender b s)
  | .bid b => (.silent, hearBid b s)
  | .claim b => (.silent, hearClaim b s)
  | .lend b => hearLend b s
  | .cancel id => hearCancel id s
  | .stockAt n => hearStockAt n s
  | .stock b => hearStock b s
  | .stockEnd => (.taken, hearStockEnd s)
  | .stop => (.taken, hearStop s)
  | .resume => (.taken, hearResume s)
  | .writeOff bin => hearWriteOff bin s
  | .query => (.taken, hearQuery s)
  | .fault b => (.silent, hearFault h.sender b s)
  | .closed _ | .opened _ | .safe _ | .requestDone _ | .requestFailed _ | .binStored _ | .binOverdue _
  | .stationReport _ | .stockRefused _ => (.silent, s)

/-- One item of an addressed frame: sender, address, concern, gate, block (R69, R166, R168, R171). -/
def takeItem (h : Header) (i : Item) (a : Answers) (s : State) : Answers × State :=
  if !senderGood s.cfg h.sender i then (a.note .badSender, s)
  else if !addressGood s.cfg h i || !concerns h s i then (a.note .silent, s)
  else match gate s i with
    | .dropped => (a.note .silent, s)
    | .refused => gateNotice (a.note .refused) i s
    | .admitted =>
      let (v, s) := applyItem h i s
      (a.note v, s)

/-- What an item brings about at once, though the event goes on to the frame's next item: a queued OFFER is withdrawn whose
route has closed or whose mode is left (R113), and the work passed over is forgotten where no selection can be made (log 8). -/
def afterItem (s : State) : State :=
  let s := withdrawOffer .up (withdrawOffer .down s)
  if selectionCondition s then s else clearPassed s

/-- The items of an addressed frame in stream order, all in the one event of the frame, each seeing the state the earlier
ones left (R164, R167). -/
def takeItems (h : Header) : List Item → Answers → State → Answers × State
  | [], a, s => (a, s)
  | i :: rest, a, s =>
    let (a, s) := takeItem h i a s
    takeItems h rest a (afterItem s)

/-- A CANCEL in the frame that emptied the stage has passed over the work that stood ready when the frame's event began:
work that the same event made ready or raised in rank asks for a selection (R75, log 8). -/
def passedSince (before s : State) : State :=
  if before.planner.passed.isNone && s.planner.passed.isSome then
    s.setPlanner { s.planner with passed := some (readyWork before) }
  else s

/-- Of a frame not addressed to the station the CLAIM items alone are passed on, in the one event of the frame (R98, R166). -/
def takeClaims (items : List Item) (s : State) : State :=
  items.foldl (fun s i => match i with
    | .claim b => if gate s i = .admitted then hearClaim b s else s
    | _ => s) s

/-! ## The frame (R164 to R166, R170, R173) -/

/-- The sender's entry of the neighbour table; a changed word makes the routes be tested again (R109, R170). -/
def enterNeighbour (h : Header) (s : State) : State :=
  let old := (tblGet s.line.neighbours h.sender).map (·.1)
  let s := s.setLine { s.line with neighbours := tblPut h.sender (h.cond, s.clock) s.line.neighbours }
  if old = some h.cond then s else retestRoute s

/-- The class test (R165). -/
def classGood (h : Header) (items : List Item) : Bool := decide (h.cls ≤ 4) && items.all fun i => i.cls == h.cls

def setSlots (x : Bool × Bool) (s : State) : State := s.setLine { s.line with ack := x.1, obj := x.2 }

/-- A frame heard with a good check: one event, which ends after the last item (R164 to R173). -/
def frameHeard (h : Header) (items : List Item) (s : State) : State :=
  let before := s
  let s := setSlots (false, false) s
  if 63 ≤ h.sender ∨ h.sender = s.cfg.station then s
  else
    let s := enterNeighbour h s
    if !classGood h items then settle s
    else if !addressed s.cfg h then settle (takeClaims items s)
    else if items.isEmpty then setSlots (Answers.none.slots h.cls) (settle s)
    else
      let (a, s) := takeItems h items Answers.none s
      setSlots (a.slots h.cls) (settle (passedSince before s))

/-- A frame reaches the station: a station not live, or still without its footing on the line, takes none (R161, R185,
R189). -/
def hear (p : Pins) (h : Header) (items : List Item) (s : State) : State :=
  let s := s.setPins p
  if s.live && s.line.footing then frameHeard h items s else s

end Sys2Proof.Machine
end

