-- ==== Sys2Proof/Machine/Loader.lean ====
section
/-! DEFINITION. The frame check (R162) and the config loader (R184 to R189): the CRC, the fields of the image, clamping,
the forbidden combinations, and the entry to STOCKING. -/

namespace Sys2Proof.Machine
open Sys2Proof

/-! ## CRC-16 (R162, R184) -/

/-- One bit into the CRC: polynomial 1021h, most significant bit first (R162). -/
def crcBit (c : BitVec 16) (b : Bool) : BitVec 16 :=
  let c' := c <<< 1
  if c.msb != b then c' ^^^ 0x1021#16 else c'

/-- The CRC of a list of bits, initial value C3A5h, no inversion at the end (R162). -/
def crcBits (bits : List Bool) : BitVec 16 := bits.foldl crcBit 0xC3A5#16

/-- The bits of an octet, most significant first (R179). -/
def octetBits (x : Byte) : List Bool := (List.range 8).map fun i => x.getLsbD (7 - i)

/-- The CRC of a list of octets (R184). -/
def crcOctets (octets : List Byte) : BitVec 16 := crcBits (octets.flatMap octetBits)

/-! ## The image (R184) -/

/-- Octet of the image; a memory that does not answer gives FFh (R185). -/
def octet (image : List Byte) (n : Nat) : Nat := (image.getD n 0xFF).toNat

/-- Two octets, most significant first (2.4). -/
def octets2 (image : List Byte) (n : Nat) : Nat := octet image n * 256 + octet image (n + 1)

/-- The 126 octets under the CRC. -/
def imageBody (image : List Byte) : List Byte := (List.range 126).map fun n => image.getD n 0xFF

/-- The image passes its check (R186). -/
def imageGood (image : List Byte) : Bool := (crcOctets (imageBody image)).toNat == imageCrc image

/-- One grade of the image, not yet held. -/
def rawGrade (image : List Byte) (n : Nat) : Grade := ⟨octet image n, octets2 image (n + 1), octet image (n + 3)⟩

/-- A lock octet: bits 2..0 code, bit 3 complement; bits 7..4 are not read (R184). -/
def rawLock (image : List Byte) (n : Nat) : LockCode := ⟨octet image n % 8, octet image n / 8 % 2 == 1⟩

/-- A compartment map entry: FFh is unused (R184). -/
def rawMap (image : List Byte) (c : Nat) : Option Nat := if octet image (4 + c) = 255 then none else some (octet image (4 + c))

/-- The fields of the image as read (R184). -/
def rawConfig (image : List Byte) : StationConfig :=
  { station := octet image 0, segment := octet image 1, up := octet image 2, down := octet image 3
    compMap := Vector.ofFn fun c : Fin 8 => rawMap image c.val
    lineRate := octet image 12, nc := octet image 13, nl := octet image 14
    pc := octets2 image 15, pl := octets2 image 17, portLevel := octet image 19
    parkCol := octet image 20, parkLevel := octet image 21
    vx := octets2 image 22, ax := octets2 image 24, vy := octets2 image 26, ay := octets2 image 28
    settleTime := octets2 image 30, forkTime := octets2 image 32, slack := octets2 image 34, holdLimit := octet image 36
    grade1 := rawGrade image 37, grade2 := rawGrade image 41, grade3 := rawGrade image 45, grade4 := rawGrade image 49
    columnMassLimit := octets2 image 53, lockL := rawLock image 55, lockR := rawLock image 56
    restrictedDesks := ((List.range 8).map fun i => octet image (57 + i)).filter fun d => d != 255
    searchSpan := octet image 65, passTime := octets2 image 66, transferLimit := octet image 68
    offerRetry := octets2 image 69, ageLimit := octets2 image 71, outLimit := octets2 image 73
    fireGrace := octet image 75, closeLimit := octet image 76, driveLimit := octet image 77
    closingRetry := octets2 image 78, gateway1 := octet image 80, gateway2 := octet image 81, firePanel := octet image 82 }

/-! ## Clamping (R187) -/

/-- A neighbour value: 0..47 or 63; 48 and above is held at 63, the nearest value for 64 and above too (R187). -/
def clampNeighbour (x : Nat) : Nat := if x ≤ 47 then x else 63

def clampGrade (g : Grade) : Grade := ⟨hold 8 64 g.capacity, hold 50 500 g.massLimit, hold 10 200 g.tare⟩

/-- Every field held at the nearest limit of its range (R187). -/
def clampConfig (c : StationConfig) : StationConfig :=
  let nc := hold 4 64 c.nc
  let nl := hold 2 24 c.nl
  { c with
    station := hold 0 47 c.station, segment := hold 0 47 c.segment
    up := clampNeighbour c.up, down := clampNeighbour c.down
    compMap := c.compMap.map fun e => e.map (hold 0 47)
    lineRate := hold 0 2 c.lineRate, nc := nc, nl := nl, pc := hold 400 2000 c.pc, pl := hold 200 800 c.pl
    portLevel := hold 1 nl c.portLevel, parkCol := hold 0 nc c.parkCol, parkLevel := hold 1 nl c.parkLevel
    vx := hold 500 6000 c.vx, ax := hold 200 3000 c.ax, vy := hold 200 3000 c.vy, ay := hold 200 2000 c.ay
    settleTime := hold 0 2000 c.settleTime, forkTime := hold 500 10000 c.forkTime, slack := hold 200 5000 c.slack
    holdLimit := hold 5 120 c.holdLimit
    grade1 := clampGrade c.grade1, grade2 := clampGrade c.grade2, grade3 := clampGrade c.grade3, grade4 := clampGrade c.grade4
    columnMassLimit := hold 500 65535 c.columnMassLimit, searchSpan := hold 4 64 c.searchSpan
    passTime := hold 1000 20000 c.passTime, transferLimit := hold 2 30 c.transferLimit
    offerRetry := hold 200 5000 c.offerRetry, ageLimit := hold 60 1800 c.ageLimit, outLimit := hold 10 1440 c.outLimit
    fireGrace := hold 0 30 c.fireGrace, closeLimit := hold 10 120 c.closeLimit, driveLimit := hold 2 30 c.driveLimit
    closingRetry := hold 250 2000 c.closingRetry
    gateway1 := hold 0 62 c.gateway1, gateway2 := hold 0 62 c.gateway2, firePanel := hold 0 62 c.firePanel }

/-! ## Forbidden combinations (R186) -/

/-- The used entries of the map in order of compartment number. -/
def usedEntries (c : StationConfig) : List Nat := c.compMap.toList.filterMap id

/-- A list rises strictly. -/
def rises : List Nat → Bool
  | a :: b :: rest => decide (a < b) && rises (b :: rest)
  | _ => true

/-- One of the forbidden combinations of R186 stands. -/
def forbidden (c : StationConfig) : Bool :=
  c.up == c.station || c.down == c.station
    || !rises (usedEntries c)
    || !(usedEntries c).any (fun lo => decide (lo ≤ c.segment))
    || c.restrictedDesks.any (fun d => decide (7 < d))
    || c.firePanel == c.gateway1 || c.firePanel == c.gateway2

/-! ## Read complete (R186 to R189) -/

/-- The owned shutter as the configuration and the open sensor give it (R138, R152). -/
def startShutter (cfg : StationConfig) (p : Pins) : Option Shutter :=
  if ownsShutter cfg then
    some { state := if p.openSensor then .isOpen else .shut, foundShut := !p.openSensor
           closeLimit := none, retry := none, driveLimit := none }
  else none

/-- The crane at the entry to STOCKING (R63, R189 step 4). -/
def startCrane (s : State) : State :=
  let s := readEncoders s
  if s.pins.load then loadFault 0 s else s

/-- The entry to STOCKING, in the order of R189. The shutter's determination is not taken for a change of the shutter state
in R109's sense: the down route is not tested here, the model's choice (log 47). -/
def enterStocking (s : State) : State :=
  let s := s.setDir { s.dir with counts := ⟨2 * s.cfg.nc * s.cfg.nl, 0, 0, 0⟩ }
  let s := startCrane (s.setMode .stocking)
  let s := s.setFire { s.fire with shutter := startShutter s.cfg s.pins }
  deriveMode (applyHeld s)

/-- Read complete (R186 to R189). -/
def readComplete (image : List Byte) (s : State) : State :=
  let s := s.setLoader ⟨image, false⟩
  if imageGood image then
    let raw := rawConfig image
    let cfg := clampConfig raw
    let s := s.setLoader ⟨image, cfg != raw⟩
    if forbidden cfg then s.setMode .unconfigured else settle (enterStocking (s.setCfg cfg))
  else s.setMode .unconfigured

end Sys2Proof.Machine
end

