-- ==== Sys2Proof/WellFormed.lean ====
section
/-! DEFINITION. Well-formed commands: numbers that fit the octets their layout gives them (chapter 10), a stream that fits
its length field, items of the frame's class, and sensor reports that agree with the pins read. -/

namespace Sys2Proof
open Machine

/-! ## Items -/

def fits8 (x : Nat) : Bool := decide (x < 256)
def fits16 (x : Nat) : Bool := decide (x < 65536)
def fits24 (x : Nat) : Bool := decide (x < 16777216)
def fits32 (x : Nat) : Bool := decide (x < 4294967296)

def SlotName.fits (n : SlotName) : Bool := fits8 n.col && fits8 n.level

def Call.fits (c : Call) : Bool := fits16 c.num

/-- A travel record as an OFFER lays it out (R181). -/
def TravelRecord.fits (r : TravelRecord) : Bool :=
  fits16 r.bin && fits8 r.home && fits8 r.hop && fits8 r.grade && fits8 r.fill && fits16 r.mass && fits8 r.count
    && (match r.call with | some c => c.call.fits && fits8 c.volume && fits8 c.mass | none => true)
    && decide (r.requests.length ≤ 8) && r.requests.all fits24

/-- A head names no request, a request body a request other than 0 (R182). -/
def NoticeBody.fits : NoticeBody → Bool
  | .head bin _ reason => fits16 bin && fits8 reason
  | .request id ref => decide (id ≠ 0) && fits24 id && fits32 ref

def FaultBody.fits (b : FaultBody) : Bool :=
  b.placed && fits16 b.bin && fits16 b.second && b.slotA.fits && b.slotB.fits && fits8 b.code && fits8 b.place && fits8 b.hop

def ReportBody.fits (b : ReportBody) : Bool :=
  fits8 b.mode && fits8 b.crane && fits8 b.pool && fits8 b.visits && fits16 b.empties && fits16 b.occupied
    && fits16 b.reserved && fits16 b.bad && fits16 b.crc && fits16 b.upAge && fits16 b.downAge

/-- The numbers of an item fit the octets of its body (10.2). -/
def Item.fits : Item → Bool
  | .alarm b => fits8 b.epoch && fits8 b.source
  | .closing seg | .closed seg | .opened seg => fits8 seg
  | .safe b => fits8 b.epoch && fits8 b.station
  | .restore b => fits8 b.epoch
  | .offer r => r.fits
  | .taken b => fits16 b.bin && fits8 b.taker
  | .roomCall b => b.call.fits && fits8 b.volume && fits8 b.mass && fits16 b.window
  | .bid b => b.call.fits && fits24 b.cost && fits8 b.station && fits16 b.bin
  | .claim b => b.call.fits && fits8 b.station && fits16 b.bin
  | .lend b => fits24 b.id && fits16 b.bin && fits32 b.ref
  | .cancel id => fits24 id
  | .stockAt n => n.fits
  | .stock b => fits16 b.bin && fits8 b.grade && fits8 b.fill && fits16 b.mass && fits8 b.count
  | .stockEnd | .stop | .resume | .query => true
  | .writeOff bin => fits16 bin
  | .requestDone b | .requestFailed b => b.fits
  | .binStored b => fits16 b.bin && b.slot.fits
  | .binOverdue b => b.placed && fits16 b.bin && fits8 b.value && fits24 b.minutes
  | .fault b => b.fits
  | .stationReport b => b.fits
  | .stockRefused b => fits8 b.reason && b.slot.fits && fits16 b.bin

/-- The body octets an item code fixes (10.2). -/
def bodyLength : Nat → Option Nat
  | 0x01 => some 4
  | 0x02 => some 1
  | 0x03 => some 1
  | 0x04 => some 1
  | 0x05 => some 3
  | 0x06 => some 2
  | 0x10 => some 41
  | 0x11 => some 4
  | 0x18 => some 8
  | 0x19 => some 9
  | 0x1A => some 6
  | 0x20 => some 11
  | 0x21 => some 3
  | 0x22 => some 3
  | 0x23 => some 8
  | 0x24 => some 0
  | 0x25 => some 0
  | 0x26 => some 0
  | 0x27 => some 2
  | 0x28 => some 0
  | 0x30 => some 7
  | 0x31 => some 7
  | 0x32 => some 5
  | 0x33 => some 7
  | 0x34 => some 14
  | 0x35 => some 19
  | 0x36 => some 6
  | _ => none

/-- The body octets of an item. -/
def Item.size (i : Item) : Nat := (bodyLength i.code).getD 0

/-- The fewest octets a stream of these items takes: a last run under one control octet, the others one each (R167). -/
def streamSize : List Item → Nat
  | [] => 0
  | i :: rest =>
    if i.size ≠ 0 && rest.all (fun j => j.code == i.code) then 1 + (rest.length + 1) * i.size
    else 1 + i.size + streamSize rest

/-! ## Frames -/

/-- The header fits its fields, and the sender is one that is heard (R162, R164). -/
def Header.fits (h : Header) : Bool := decide (h.cls < 8) && decide (h.sender ≤ 62) && decide (h.addr < 64)

/-- A frame of a row that names its first item: items of the frame's class, in a stream of 1..64 octets (R165, R179). -/
def frameFits (h : Header) (items : List Item) : Bool :=
  h.fits && items.all Item.fits && items.all (fun i => i.cls == h.cls) && decide (streamSize items ≤ 64)

/-- A frame that R165 discards, or one whose stream holds no item that can be read (log 7). -/
def discardFits (h : Header) (items : List Item) : Bool :=
  h.fits && items.all Item.fits && decide (streamSize items ≤ 64)
    && (decide (5 ≤ h.cls) || items.any (fun i => i.cls != h.cls) || items.isEmpty)

/-! ## Commands -/

/-- A well-formed command. -/
def Instr.wf : Instr → Bool
  | .resetRelease _ | .resetAssert _ | .frameAbandoned _ | .outcome _ _ _ | .inPosition _ | .forkDone _ | .stopped _
  | .moveBudgetExpiry _ | .holdLimitExpiry _ | .transferLimitExpiryOut _ _ | .diversionExpiry _
  | .transferLimitExpiryIn _ _ | .mergeTransferExpiry _ | .offerRetryExpiry _ _ | .mergeWaitExpiry _
  | .evaluationDone _ | .inputFilterExpiry _ _ | .closingRetryExpiry _ | .closeLimitExpiry _
  | .shutterDriveLimitExpiry _ | .boundarySensorChange _ | .overdueSweepExpiry _ | .lineIdle _ => true
  | .readComplete _ image => image.length == 128
  | .contention _ rivals => rivals.all fun r => decide (r.1 < 8) && decide (r.2 ≤ 62)
  | .alarm _ h b rest => frameFits h (.alarm b :: rest)
  | .closing _ h seg rest => frameFits h (.closing seg :: rest)
  | .closed _ h seg rest => frameFits h (.closed seg :: rest)
  | .opened _ h seg rest => frameFits h (.opened seg :: rest)
  | .safe _ h b rest => frameFits h (.safe b :: rest)
  | .restore _ h b rest => frameFits h (.restore b :: rest)
  | .offer _ h r rest => frameFits h (.offer r :: rest)
  | .taken _ h b rest => frameFits h (.taken b :: rest)
  | .roomCall _ h b rest => frameFits h (.roomCall b :: rest)
  | .bid _ h b rest => frameFits h (.bid b :: rest)
  | .claim _ h b rest => frameFits h (.claim b :: rest)
  | .lend _ h b rest => frameFits h (.lend b :: rest)
  | .cancel _ h id rest => frameFits h (.cancel id :: rest)
  | .stockAt _ h slot rest => frameFits h (.stockAt slot :: rest)
  | .stock _ h b rest => frameFits h (.stock b :: rest)
  | .stockEnd _ h rest => frameFits h (.stockEnd :: rest)
  | .stop _ h rest => frameFits h (.stop :: rest)
  | .resume _ h rest => frameFits h (.resume :: rest)
  | .writeOff _ h bin rest => frameFits h (.writeOff bin :: rest)
  | .query _ h rest => frameFits h (.query :: rest)
  | .faultBinCaught _ h b rest => frameFits h (.fault b :: rest) && b.kind == .binCaught
  | .faultHandoffLost _ h b rest => frameFits h (.fault b :: rest) && b.kind == .handoffLost
  | .fault _ h b rest => frameFits h (.fault b :: rest) && b.kind != .binCaught && b.kind != .handoffLost
  | .requestDone _ h b rest => frameFits h (.requestDone b :: rest)
  | .requestFailed _ h b rest => frameFits h (.requestFailed b :: rest)
  | .binStored _ h b rest => frameFits h (.binStored b :: rest)
  | .binOverdue _ h b rest => frameFits h (.binOverdue b :: rest)
  | .stationReport _ h b rest => frameFits h (.stationReport b :: rest)
  | .stockRefused _ h b rest => frameFits h (.stockRefused b :: rest)
  | .forkTagRead _ r => match r with | .mismatch id => fits16 id | .hit | .noRead => true
  | .arrival p place => (placeSensors p place).entry
  | .binAtPosition p place => (placeSensors p place).position
  | .portInTagRead _ id => match id with | some b => decide (b ≠ 0) && fits16 b | none => true
  | .windowExpiry _ call => call.fits
  | .inputActive p i => inputLevel p i
  | .inputInactive p i => !inputLevel p i
  | .closedSensor p => p.closedSensor
  | .openSensor p => p.openSensor
  | .discardedFrame _ h items => discardFits h items

end Sys2Proof
end

