-- ==== Sys2Proof/Decode.lean ====
section
/-! DEFINITION. The octets and bits of chapter 10: item bodies read and written (R167, R180 to R183), the item stream
(R167), the frame on the line (R162, R164, R179), and the command a heard frame is. The table gives no row any bits, so
`decodeTableWord` answers none (log 1). -/

namespace Sys2Proof
open Machine

/-- The command a word of the opcode table spells: the table gives its rows no bits (log 1). -/
def decodeTableWord (_nbits _w : Nat) : Option Instr := none

/-! ## Numbers in octets, most significant first (2.4) -/

def oct (x : Nat) : Byte := BitVec.ofNat 8 x
def oct2 (x : Nat) : List Byte := [oct (x / 256), oct x]
def oct3 (x : Nat) : List Byte := [oct (x / 65536), oct (x / 256), oct x]
def oct4 (x : Nat) : List Byte := [oct (x / 16777216), oct (x / 65536), oct (x / 256), oct x]

def num2 (a b : Byte) : Nat := a.toNat * 256 + b.toNat
def num3 (a b c : Byte) : Nat := (a.toNat * 256 + b.toNat) * 256 + c.toNat
def num4 (a b c d : Byte) : Nat := ((a.toNat * 256 + b.toNat) * 256 + c.toNat) * 256 + d.toNat

/-! ## Choice fields: each octet coded, and none for a value outside the layout's list (R180) -/

def encComp (c : Compartment) : Byte := oct c.val
def decComp (x : Byte) : Option Compartment := if h : x.toNat < 8 then some ⟨x.toNat, h⟩ else none

def encDesk (d : Desk) : Byte := oct d.val
def decDesk (x : Byte) : Option Desk := if h : x.toNat < 8 then some ⟨x.toNat, h⟩ else none

/-- A desk octet that may name none, FFh (10.2). -/
def encDeskOr : Option Desk → Byte
  | some d => encDesk d
  | none => 0xFF
def decDeskOr (x : Byte) : Option (Option Desk) := if x = 0xFF then some none else (decDesk x).map some

def encCause : Cause → Byte
  | .panel => 0
  | .smoke => 1
  | .heat => 2
  | .callPoint => 3
def decCause (x : Byte) : Option Cause :=
  match x.toNat with
  | 0 => some .panel
  | 1 => some .smoke
  | 2 => some .heat
  | 3 => some .callPoint
  | _ => none

def encFace : FaceCode → Byte
  | .L => 0
  | .R => 1
  | .position => 2
  | .none => 0xFF
def decFace (x : Byte) : Option FaceCode :=
  match x.toNat with
  | 0 => some .L
  | 1 => some .R
  | 2 => some .position
  | 255 => some .none
  | _ => none

def encTakenPlace : TakenPlace → Byte
  | .none => 0
  | .down => 4
  | .up => 5
def decTakenPlace (x : Byte) : Option TakenPlace :=
  match x.toNat with
  | 0 => some .none
  | 4 => some .down
  | 5 => some .up
  | _ => none

def encRank : RankAsked → Byte
  | .normal => 0
  | .urgent => 1
def decRank (x : Byte) : Option RankAsked :=
  match x.toNat with
  | 0 => some .normal
  | 1 => some .urgent
  | _ => none

def encKind : LocationKind → Byte
  | .crane => 0
  | .portOut => 1
  | .portIn => 2
  | .laneDown => 3
  | .laneUp => 4
  | .desk => 5
  | .caught => 6
  | .unknown => 7
def decKind (x : Byte) : Option LocationKind :=
  match x.toNat with
  | 0 => some .crane
  | 1 => some .portOut
  | 2 => some .portIn
  | 3 => some .laneDown
  | 4 => some .laneUp
  | 5 => some .desk
  | 6 => some .caught
  | 7 => some .unknown
  | _ => none

def encFault : FaultKind → Byte
  | .craneStall => 1
  | .storeBlocked => 2
  | .slotConflict => 3
  | .tagMismatch => 4
  | .tagUnread => 5
  | .portTag => 6
  | .handoffLost => 7
  | .shutterFault => 8
  | .binCaught => 9
  | .craneLoadUnknown => 10
def decFault (x : Byte) : Option FaultKind :=
  match x.toNat with
  | 1 => some .craneStall
  | 2 => some .storeBlocked
  | 3 => some .slotConflict
  | 4 => some .tagMismatch
  | 5 => some .tagUnread
  | 6 => some .portTag
  | 7 => some .handoffLost
  | 8 => some .shutterFault
  | 9 => some .binCaught
  | 10 => some .craneLoadUnknown
  | _ => none

/-- 0..7 DESK(d), 80h HOME (R181). -/
def encDest : Dest → Byte
  | .desk d => encDesk d
  | .home => 0x80
def decDest (x : Byte) : Option Dest := if x = 0x80 then some .home else (decDesk x).map .desk

def Purpose.num : Purpose → Nat
  | .lend => 0
  | .room => 1
  | .lendRoom => 2
  | .ret => 3
/-- The purpose, bits 1..0 (R181). Bits 5..2 of the octet are not named: they are ignored, the model's choice (log 43). -/
def purposeOf (n : Nat) : Purpose :=
  match n % 4 with
  | 0 => .lend
  | 1 => .room
  | 2 => .lendRoom
  | _ => .ret

/-- Purpose and flags: bits 1..0 purpose, bit 6 call present, bit 7 restricted (R181). Bits 5..2, which R181 does not name, are
sent as 0, the model's choice (log 43). -/
def encPurpose (p : Purpose) (call restricted : Bool) : Byte :=
  oct (p.num + (if call then 64 else 0) + (if restricted then 128 else 0))

/-- A flags octet, bit 0 (10.2). Bits 7..1, which no rule names, are sent as 0 (log 43). -/
def encFlag (b : Bool) : Byte := if b then 1 else 0
/-- The flag of a ROOM_CALL or STOCK, bit 0 (R180). Bits 7..1, which the layout does not name, are ignored: the model's choice
(log 43). -/
def decFlag (x : Byte) : Bool := x.getLsbD 0

/-! ## Shared records (10.2) -/

def encSlot (n : SlotName) : List Byte := [encFace n.face, oct n.col, oct n.level]
def decSlot (f c l : Byte) : Option SlotName := (decFace f).map fun face => ⟨face, c.toNat, l.toNat⟩

def encCall (c : Call) : List Byte := encDesk c.desk :: oct2 c.num
/-- A call as read. A desk octet of FFh names no desk and so no call: the item reads as one of unknown code (R180; log 23). -/
def decCall (d a b : Byte) : Option Call := (decDesk d).map fun desk => ⟨desk, num2 a b⟩

/-- Request ids of an OFFER: eight, those beyond the count 0 (R181). -/
def encIds (ids : List Nat) : List Byte := (List.range 8).flatMap fun i => oct3 (ids.getD i 0)

/-- The request ids as read, by threes. -/
def decIds : List Byte → List Nat
  | a :: b :: c :: rest => num3 a b c :: decIds rest
  | _ => []

/-- Call, call volume and call mass of an OFFER; FFh, 0 and zeros when absent (R181). -/
def encCallPart : Option CallPart → List Byte
  | some p => encCall p.call ++ [oct p.volume, oct p.mass]
  | none => [0xFF, 0, 0, 0, 0]

/-- The travel record in an OFFER (R181). -/
def encOffer (r : TravelRecord) : List Byte :=
  oct2 r.bin ++ [oct r.home, encDest r.dest, encPurpose r.purpose r.call.isSome r.restricted, oct r.hop, oct r.grade, oct r.fill]
    ++ oct2 r.mass ++ [oct r.count] ++ encCallPart r.call ++ [oct r.requests.length] ++ encIds r.requests

/-- The call part as read: not read where bit 6 is clear (R181). -/
def decCallPart (present : Bool) (d a b v m : Byte) : Option (Option CallPart) :=
  if present then (decCall d a b).map fun c => some ⟨c, v.toNat, m.toNat⟩ else some none

def decOffer : List Byte → Option TravelRecord
  | b1 :: b0 :: home :: dest :: flags :: hop :: grade :: fill :: m1 :: m0 :: count :: cd :: c1 :: c0 :: cv :: cm :: n :: ids =>
    match decDest dest, decCallPart (flags.getLsbD 6) cd c1 c0 cv cm with
    | some dest, some call =>
      if n.toNat ≤ 8 then
        some { bin := num2 b1 b0, home := home.toNat, dest := dest, purpose := purposeOf flags.toNat, hop := hop.toNat
               grade := grade.toNat, fill := fill.toNat, mass := num2 m1 m0, count := count.toNat
               restricted := flags.getLsbD 7, call := call, requests := (decIds ids).take n.toNat }
      else none
    | _, _ => none
  | _ => none

/-- A body of REQUEST_DONE or REQUEST_FAILED (R182). -/
def encNotice : NoticeBody → List Byte
  | .head bin desk reason => oct3 0 ++ oct2 bin ++ [encDeskOr desk, oct reason]
  | .request id ref => oct3 id ++ oct4 ref

def decNotice : List Byte → Option NoticeBody
  | [i2, i1, i0, a, b, c, d] =>
    if num3 i2 i1 i0 = 0 then (decDeskOr c).map fun desk => .head (num2 a b) desk d.toNat
    else some (.request (num3 i2 i1 i0) (num4 a b c d))
  | _ => none

def encFaultBody (b : FaultBody) : List Byte :=
  [encFault b.kind] ++ oct2 b.bin ++ oct2 b.second ++ encSlot b.slotA ++ encSlot b.slotB ++ [oct b.code, oct b.place, oct b.hop]

/-- A FAULT as read: none where its kind, a face or the place in its code octet is not one listed (R180, R182). -/
def decFaultBody : List Byte → Option FaultBody
  | [k, b1, b0, s1, s0, af, ac, al, bf, bc, bl, code, place, hop] =>
    match decFault k, decSlot af ac al, decSlot bf bc bl with
    | some kind, some slotA, some slotB =>
      let b : FaultBody := ⟨kind, num2 b1 b0, num2 s1 s0, slotA, slotB, code.toNat, place.toNat, hop.toNat⟩
      if b.placed then some b else none
    | _, _, _ => none
  | _ => none

/-- A BIN_OVERDUE as read: none where its location kind, or the desk of a desk location, is not one listed (R180). -/
def decOverdue : List Byte → Option BinOverdueBody
  | [b1, b0, k, v, m2, m1, m0] =>
    match decKind k with
    | some kind =>
      let b : BinOverdueBody := ⟨num2 b1 b0, kind, v.toNat, num3 m2 m1 m0⟩
      if b.placed then some b else none
    | none => none
  | _ => none

/-- Flags of a STATION_REPORT: bit 0 LIMITED, bit 1 notices-discarded, bit 2 CONFIG_CLAMPED (R183). Bits 7..3,
which R183 does not name, are sent as 0, the model's choice (log 43). -/
def encReportFlags (l d c : Bool) : Byte := oct ((if l then 1 else 0) + (if d then 2 else 0) + (if c then 4 else 0))

def encReport (b : ReportBody) : List Byte :=
  [oct b.mode, oct b.crane, oct b.pool, oct b.visits] ++ oct2 b.empties ++ oct2 b.occupied ++ oct2 b.reserved ++ oct2 b.bad
    ++ [encReportFlags b.limited b.discarded b.clamped] ++ oct2 b.crc ++ oct2 b.upAge ++ oct2 b.downAge

def decReport : List Byte → Option ReportBody
  | [mode, crane, pool, visits, e1, e0, o1, o0, r1, r0, b1, b0, f, c1, c0, u1, u0, d1, d0] =>
    some { mode := mode.toNat, crane := crane.toNat, pool := pool.toNat, visits := visits.toNat
           empties := num2 e1 e0, occupied := num2 o1 o0, reserved := num2 r1 r0, bad := num2 b1 b0
           limited := f.getLsbD 0, discarded := f.getLsbD 1, clamped := f.getLsbD 2
           crc := num2 c1 c0, upAge := num2 u1 u0, downAge := num2 d1 d0 }
  | _ => none

/-! ## Bodies (10.2) -/

/-- The body octets of an item. -/
def encodeBody : Item → List Byte
  | .alarm b => [encComp b.comp, oct b.epoch, encCause b.cause, oct b.source]
  | .closing seg | .closed seg | .opened seg => [oct seg]
  | .safe b => [encComp b.comp, oct b.epoch, oct b.station]
  | .restore b => [encComp b.comp, oct b.epoch]
  | .offer r => encOffer r
  | .taken b => oct2 b.bin ++ [oct b.taker, encTakenPlace b.place]
  | .roomCall b => encCall b.call ++ [oct b.volume, oct b.mass, encFlag b.restricted] ++ oct2 b.window
  | .bid b => encCall b.call ++ oct3 b.cost ++ [oct b.station] ++ oct2 b.bin
  | .claim b => encCall b.call ++ [oct b.station] ++ oct2 b.bin
  | .lend b => oct3 b.id ++ oct2 b.bin ++ oct4 b.ref ++ [encDesk b.desk, encRank b.rank]
  | .cancel id => oct3 id
  | .stockAt n => encSlot n
  | .stock b => oct2 b.bin ++ [oct b.grade, oct b.fill] ++ oct2 b.mass ++ [oct b.count, encFlag b.restricted]
  | .stockEnd | .stop | .resume | .query => []
  | .writeOff bin => oct2 bin
  | .requestDone b | .requestFailed b => encNotice b
  | .binStored b => oct2 b.bin ++ encSlot b.slot
  | .binOverdue b => oct2 b.bin ++ [encKind b.kind, oct b.value] ++ oct3 b.minutes
  | .fault b => encFaultBody b
  | .stationReport b => encReport b
  | .stockRefused b => [oct b.reason] ++ encSlot b.slot ++ oct2 b.bin

/-- An item from its code and exactly its body; none for a choice field outside its list (R180). -/
def decodeBody (code : Nat) (body : List Byte) : Option Item :=
  match code, body with
  | 0x01, [c, e, k, src] =>
    match decComp c, decCause k with
    | some c, some k => some (.alarm ⟨c, e.toNat, k, src.toNat⟩)
    | _, _ => none
  | 0x02, [g] => some (.closing g.toNat)
  | 0x03, [g] => some (.closed g.toNat)
  | 0x04, [g] => some (.opened g.toNat)
  | 0x05, [c, e, st] => (decComp c).map fun c => .safe ⟨c, e.toNat, st.toNat⟩
  | 0x06, [c, e] => (decComp c).map fun c => .restore ⟨c, e.toNat⟩
  | 0x10, body => (decOffer body).map .offer
  | 0x11, [b1, b0, t, pl] => (decTakenPlace pl).map fun pl => .taken ⟨num2 b1 b0, t.toNat, pl⟩
  | 0x18, [d, n1, n0, v, m, f, w1, w0] =>
    (decCall d n1 n0).map fun c => .roomCall ⟨c, v.toNat, m.toNat, decFlag f, num2 w1 w0⟩
  | 0x19, [d, n1, n0, c2, c1, c0, st, b1, b0] =>
    (decCall d n1 n0).map fun c => .bid ⟨c, num3 c2 c1 c0, st.toNat, num2 b1 b0⟩
  | 0x1A, [d, n1, n0, st, b1, b0] => (decCall d n1 n0).map fun c => .claim ⟨c, st.toNat, num2 b1 b0⟩
  | 0x20, [i2, i1, i0, b1, b0, r3, r2, r1, r0, d, k] =>
    match decDesk d, decRank k with
    | some d, some k => some (.lend ⟨num3 i2 i1 i0, num2 b1 b0, num4 r3 r2 r1 r0, d, k⟩)
    | _, _ => none
  | 0x21, [i2, i1, i0] => some (.cancel (num3 i2 i1 i0))
  | 0x22, [f, c, l] => (decSlot f c l).map .stockAt
  | 0x23, [b1, b0, g, fl, m1, m0, n, r] =>
    some (.stock ⟨num2 b1 b0, g.toNat, fl.toNat, num2 m1 m0, n.toNat, decFlag r⟩)
  | 0x24, [] => some .stockEnd
  | 0x25, [] => some .stop
  | 0x26, [] => some .resume
  | 0x27, [b1, b0] => some (.writeOff (num2 b1 b0))
  | 0x28, [] => some .query
  | 0x30, body => (decNotice body).map .requestDone
  | 0x31, body => (decNotice body).map .requestFailed
  | 0x32, [b1, b0, f, c, l] => (decSlot f c l).map fun n => .binStored ⟨num2 b1 b0, n⟩
  | 0x33, body => (decOverdue body).map .binOverdue
  | 0x34, body => (decFaultBody body).map .fault
  | 0x35, body => (decReport body).map .stationReport
  | 0x36, [r, f, c, l, b1, b0] => (decSlot f c l).map fun n => .stockRefused ⟨r.toNat, n, num2 b1 b0⟩
  | _, _ => none

/-! ## The item stream (R167, R180) -/

/-- A control octet: MORE in bit 7, RUN in bit 6, the code in bits 5..0 (10.2). -/
def control (more run : Bool) (code : Nat) : Byte := oct ((if more then 128 else 0) + (if run then 64 else 0) + code % 64)

/-- One item at the head of the octets: it and the octets left, or none where processing ends (R167, R180). -/
def takeBody (code : Nat) (octets : List Byte) : Option (Item × List Byte) :=
  match bodyLength code with
  | some n => if octets.length < n then none else (decodeBody code (octets.take n)).map fun i => (i, octets.drop n)
  | none => none

/-- A run of bodies of one code to the end of the stream (R167); at most `fuel` of them. -/
def parseRun (code : Nat) : Nat → List Byte → List Item
  | 0, _ => []
  | fuel + 1, octets =>
    match takeBody code octets with
    | some (i, rest) => i :: parseRun code fuel rest
    | none => []

/-- The items of a stream up to the point where processing ends (R167); at most `fuel` of them. -/
def parseItems : Nat → List Byte → List Item
  | 0, _ => []
  | _ + 1, [] => []
  | fuel + 1, c :: octets =>
    let code := c.toNat % 64
    match takeBody code octets with
    | some (i, rest) =>
      if c.getLsbD 7 then i :: parseItems fuel rest
      else if c.getLsbD 6 && i.size != 0 then i :: parseRun code fuel rest
      else [i]
    | none => []

/-- The items of a stream. -/
def decodeStream (octets : List Byte) : List Item := parseItems octets.length octets

/-- Items one after the other, MORE set on all but the last (R167). -/
def encodeChain : List Item → List Byte
  | [] => []
  | [i] => control false false i.code :: encodeBody i
  | i :: rest => control true false i.code :: (encodeBody i ++ encodeChain rest)

/-- Items of one code as a run under one control octet (R167, R182). -/
def encodeRun : List Item → List Byte
  | [] => []
  | i :: rest => control false true i.code :: (i :: rest).flatMap encodeBody

/-- The stream of a frame the station sends: one item, or a run for REQUEST_DONE and REQUEST_FAILED (R180, R182). -/
def encodeSent (items : List Item) : List Byte :=
  match items with
  | .requestDone _ :: _ => encodeRun items
  | .requestFailed _ :: _ => encodeRun items
  | _ => encodeChain items

/-! ## The frame on the line (R162, R164, R179) -/

/-- The lowest `k` bits of a number, most significant first. -/
def numBits (k x : Nat) : List Bool := (List.range k).map fun i => x / 2 ^ (k - 1 - i) % 2 == 1

/-- The number of a list of bits, most significant first. -/
def bitsNum (bits : List Bool) : Nat := bits.foldl (fun n b => 2 * n + (if b then 1 else 0)) 0

/-- The bits under the frame check: contention field, address field, condition word, length, item stream (R162, R179). -/
def frameBody (h : Header) (stream : List Byte) : List Bool :=
  numBits 3 h.cls ++ numBits 6 h.sender ++ [h.group] ++ numBits 6 h.addr ++ octetBits h.cond ++ numBits 8 stream.length
    ++ stream.flatMap octetBits

/-- The bits of a frame from its start bit, which is driven, to the end of the frame check; `true` is released, and the start
bit is not under the check (R161, R162, R179). -/
def encodeFrame (h : Header) (stream : List Byte) : List Bool :=
  false :: (frameBody h stream ++ numBits 16 (crcBits (frameBody h stream)).toNat)

/-- The bits the station `own` sends of a frame of its queue once it has won contention: its own number, a station address, the
condition word latched at the start bit, and one item or one run (R163, R169, R179, R180). -/
def sentBits (own : Nat) (f : TxFrame) : Option (List Bool) :=
  f.onLine.map fun w => encodeFrame ⟨f.cls, own, false, f.addr, w⟩ (encodeSent f.items)

/-- The acknowledge bit and the objection bit as a station sends them: driven to answer (R173, R179). -/
def slotBits (ack obj : Bool) : List Bool := [!ack, !obj]

/-- The octets of a list of bits. -/
def bitsOctets : Nat → List Bool → List Byte
  | 0, _ => []
  | n + 1, bits => oct (bitsNum (bits.take 8)) :: bitsOctets n (bits.drop 8)

/-- The header fields of a frame's bits (R179). -/
def readHeader (bits : List Bool) : Header :=
  { cls := bitsNum (bits.take 3), sender := bitsNum ((bits.drop 3).take 6), group := bits.getD 9 false
    addr := bitsNum ((bits.drop 10).take 6), cond := oct (bitsNum ((bits.drop 16).take 8)) }

/-- The number of octets the length field gives (R179). -/
def readLength (bits : List Bool) : Nat := bitsNum ((bits.drop 24).take 8)

/-- The bits of a frame after its start bit, at station `own`: header and item stream; none where it is discarded (R164). -/
def readAfterStart (own : Nat) (bits : List Bool) : Option (Header × List Byte) :=
  let n := readLength bits
  let h := readHeader bits
  if 1 ≤ n ∧ n ≤ 64 ∧ bits.length = 32 + 8 * n + 16
      ∧ bitsNum (bits.drop (32 + 8 * n)) = (crcBits (bits.take (32 + 8 * n))).toNat
      ∧ h.sender ≠ 63 ∧ h.sender ≠ own then
    some (h, bitsOctets n (bits.drop 32))
  else none

/-- A frame heard with a good check at station `own`; none where the first bit is not driven, for no frame has begun
(R161, R179). -/
def readFrame (own : Nat) : List Bool → Option (Header × List Byte)
  | false :: bits => readAfterStart own bits
  | _ => none

/-- The row of a FAULT heard (R191). -/
def faultCommand (p : Pins) (h : Header) (b : FaultBody) (rest : List Item) : Instr :=
  match b.kind with
  | .binCaught => .faultBinCaught p h b rest
  | .handoffLost => .faultHandoffLost p h b rest
  | _ => .fault p h b rest

/-- The command a frame heard with a good check is: its first item's row, or DISCARDED_FRAME (R165, R167, log 7). -/
def frameCommand (p : Pins) (h : Header) (items : List Item) : Instr :=
  if !classGood h items then .discardedFrame p h items
  else match items with
    | [] => .discardedFrame p h []
    | .alarm b :: rest => .alarm p h b rest
    | .closing seg :: rest => .closing p h seg rest
    | .closed seg :: rest => .closed p h seg rest
    | .opened seg :: rest => .opened p h seg rest
    | .safe b :: rest => .safe p h b rest
    | .restore b :: rest => .restore p h b rest
    | .offer r :: rest => .offer p h r rest
    | .taken b :: rest => .taken p h b rest
    | .roomCall b :: rest => .roomCall p h b rest
    | .bid b :: rest => .bid p h b rest
    | .claim b :: rest => .claim p h b rest
    | .lend b :: rest => .lend p h b rest
    | .cancel id :: rest => .cancel p h id rest
    | .stockAt slot :: rest => .stockAt p h slot rest
    | .stock b :: rest => .stock p h b rest
    | .stockEnd :: rest => .stockEnd p h rest
    | .stop :: rest => .stop p h rest
    | .resume :: rest => .resume p h rest
    | .writeOff bin :: rest => .writeOff p h bin rest
    | .query :: rest => .query p h rest
    | .fault b :: rest => faultCommand p h b rest
    | .requestDone b :: rest => .requestDone p h b rest
    | .requestFailed b :: rest => .requestFailed p h b rest
    | .binStored b :: rest => .binStored p h b rest
    | .binOverdue b :: rest => .binOverdue p h b rest
    | .stationReport b :: rest => .stationReport p h b rest
    | .stockRefused b :: rest => .stockRefused p h b rest

/-- The pin readings a command carries (log 3). -/
def Instr.pins : Instr → Pins
  | .resetRelease p | .resetAssert p | .readComplete p _ | .contention p _ | .frameAbandoned p | .outcome p _ _
  | .alarm p _ _ _ | .closing p _ _ _ | .closed p _ _ _ | .opened p _ _ _ | .safe p _ _ _ | .restore p _ _ _
  | .offer p _ _ _ | .taken p _ _ _ | .roomCall p _ _ _ | .bid p _ _ _ | .claim p _ _ _ | .lend p _ _ _
  | .cancel p _ _ _ | .stockAt p _ _ _ | .stock p _ _ _ | .stockEnd p _ _ | .stop p _ _ | .resume p _ _
  | .writeOff p _ _ _ | .query p _ _ | .faultBinCaught p _ _ _ | .faultHandoffLost p _ _ _ | .fault p _ _ _
  | .requestDone p _ _ _ | .requestFailed p _ _ _ | .binStored p _ _ _ | .binOverdue p _ _ _ | .stationReport p _ _ _
  | .stockRefused p _ _ _ | .inPosition p | .forkTagRead p _ | .forkDone p | .stopped p | .moveBudgetExpiry p
  | .holdLimitExpiry p | .arrival p _ | .binAtPosition p _ | .portInTagRead p _ | .transferLimitExpiryOut p _
  | .diversionExpiry p | .transferLimitExpiryIn p _ | .mergeTransferExpiry p | .offerRetryExpiry p _
  | .mergeWaitExpiry p | .evaluationDone p | .windowExpiry p _ | .inputActive p _ | .inputInactive p _
  | .inputFilterExpiry p _ | .closingRetryExpiry p | .closeLimitExpiry p | .shutterDriveLimitExpiry p
  | .closedSensor p | .openSensor p | .boundarySensorChange p | .overdueSweepExpiry p | .lineIdle p
  | .discardedFrame p _ _ => p

/-- The header and the items of a command that is a frame heard (R167). -/
def Instr.frame : Instr → Option (Header × List Item)
  | .alarm _ h b rest => some (h, .alarm b :: rest)
  | .closing _ h seg rest => some (h, .closing seg :: rest)
  | .closed _ h seg rest => some (h, .closed seg :: rest)
  | .opened _ h seg rest => some (h, .opened seg :: rest)
  | .safe _ h b rest => some (h, .safe b :: rest)
  | .restore _ h b rest => some (h, .restore b :: rest)
  | .offer _ h r rest => some (h, .offer r :: rest)
  | .taken _ h b rest => some (h, .taken b :: rest)
  | .roomCall _ h b rest => some (h, .roomCall b :: rest)
  | .bid _ h b rest => some (h, .bid b :: rest)
  | .claim _ h b rest => some (h, .claim b :: rest)
  | .lend _ h b rest => some (h, .lend b :: rest)
  | .cancel _ h id rest => some (h, .cancel id :: rest)
  | .stockAt _ h slot rest => some (h, .stockAt slot :: rest)
  | .stock _ h b rest => some (h, .stock b :: rest)
  | .stockEnd _ h rest => some (h, .stockEnd :: rest)
  | .stop _ h rest => some (h, .stop :: rest)
  | .resume _ h rest => some (h, .resume :: rest)
  | .writeOff _ h bin rest => some (h, .writeOff bin :: rest)
  | .query _ h rest => some (h, .query :: rest)
  | .faultBinCaught _ h b rest => some (h, .fault b :: rest)
  | .faultHandoffLost _ h b rest => some (h, .fault b :: rest)
  | .fault _ h b rest => some (h, .fault b :: rest)
  | .requestDone _ h b rest => some (h, .requestDone b :: rest)
  | .requestFailed _ h b rest => some (h, .requestFailed b :: rest)
  | .binStored _ h b rest => some (h, .binStored b :: rest)
  | .binOverdue _ h b rest => some (h, .binOverdue b :: rest)
  | .stationReport _ h b rest => some (h, .stationReport b :: rest)
  | .stockRefused _ h b rest => some (h, .stockRefused b :: rest)
  | .discardedFrame _ h items => some (h, items)
  | .resetRelease _ | .resetAssert _ | .readComplete _ _ | .contention _ _ | .frameAbandoned _ | .outcome _ _ _
  | .inPosition _ | .forkTagRead _ _ | .forkDone _ | .stopped _ | .moveBudgetExpiry _ | .holdLimitExpiry _
  | .arrival _ _ | .binAtPosition _ _ | .portInTagRead _ _ | .transferLimitExpiryOut _ _ | .diversionExpiry _
  | .transferLimitExpiryIn _ _ | .mergeTransferExpiry _ | .offerRetryExpiry _ _ | .mergeWaitExpiry _
  | .evaluationDone _ | .windowExpiry _ _ | .inputActive _ _ | .inputInactive _ _ | .inputFilterExpiry _ _
  | .closingRetryExpiry _ | .closeLimitExpiry _ | .shutterDriveLimitExpiry _ | .closedSensor _ | .openSensor _
  | .boundarySensorChange _ | .overdueSweepExpiry _ | .lineIdle _ => none

/-- The command that the bits of a frame heard at station `own` are; none for a frame that fails its check (R164). -/
def heardCommand (own : Nat) (p : Pins) (bits : List Bool) : Option Instr :=
  (readFrame own bits).map fun x => frameCommand p x.1 (decodeStream x.2)

end Sys2Proof
end

