-- ==== Sys2Proof/Machine/LineCommands.lean ====
section
/-! DEFINITION. The commands of the station's own frames on the line (R161, R163, R174): LINE_IDLE, CONTENTION,
FRAME_ABANDONED, OUTCOME. -/

namespace Sys2Proof.Machine
open Sys2Proof

/-! ## Contention (R163) -/

/-- The value of a contention field: class, then sender number (R162). -/
def contentionField (cls sender : Nat) : Nat := cls * 64 + sender

/-- Bit `k` of a contention field is sent released. -/
def sentReleased (k x : Nat) : Bool := x / 2 ^ k % 2 == 1

/-- Contention over the lowest `k` bits, most significant first: a station that sends released and reads driven has lost,
and sends no further bit (R163). `rivals` are the fields of the stations still sending. -/
def wins (own : Nat) : Nat → List Nat → Bool
  | 0, _ => true
  | k + 1, rivals =>
    if sentReleased k own then
      if rivals.all (sentReleased k) then wins own k rivals else false
    else wins own k (rivals.filter fun r => !sentReleased k r)

/-- The frame on the line (R163). -/
def onLineFrame (s : State) : Option TxFrame := s.line.queue.find? fun f => !f.waits

/-- The block that queued a frame is told that it was sent (R93, R96, R163). -/
def reportSent (o : Owner) (s : State) : State :=
  match o with
  | .bid c => callSent c .bidSent s
  | .claim c => callSent c .claimSent s
  | _ => s

/-- The first frame has won contention: it is on the line with the condition word latched at its start (R163, R169). -/
def frameWins (f : TxFrame) (q : List TxFrame) (s : State) : State :=
  reportSent f.owner (s.setLine (s.line.setQueue ({ f with onLine := some (condWord s) } :: q)))

/-- The station contends with the first frame in queue order (R163, R176). -/
def contend (rivals : List (Nat × Nat)) (s : State) : State :=
  if s.line.footing && (onLineFrame s).isNone then
    match s.line.queue with
    | f :: q =>
      if wins (contentionField f.cls s.cfg.station) 9 (rivals.map fun r => contentionField r.1 r.2) then frameWins f q s else s
    | [] => s
  else s

/-! ## Outcomes (R174) -/

/-- The outcome of a frame (R174). -/
inductive TxOutcome where
  | heard | objected | unheard
  deriving DecidableEq, Repr

/-- The outcome the two slots give (R174). -/
def outcomeOf (ack obj : Bool) : TxOutcome := if obj then .objected else if ack then .heard else .unheard

/-- The outcome at the block that queued the frame (R93, R97, R114, R118, R142, R174). -/
def reportOutcome (f : TxFrame) (o : TxOutcome) (s : State) : State :=
  match f.owner with
  | .offer l => offerOutcome l f.addr (o == .heard) s
  | .taken bin place sending =>
    if o = .unheard ∧ sending < 3 then queueFrame (takenFrame s.cfg.station bin place (sending + 1)) s else s
  | .claim c => claimOutcome c (o == .heard) s
  | .closing => closingOutcome (o == .heard) s
  | .bid _ | .alarm _ | .plain => s

/-- The frame on the line leaves the queue and its outcome is reported (R174, R176). -/
def frameEnds (o : TxOutcome) (s : State) : State :=
  match onLineFrame s with
  | some f => reportOutcome f o (s.setLine (s.line.setQueue (s.line.queue.filter TxFrame.waits)))
  | none => s

/-! ## The commands -/

/-- CONTENTION (R163, R169). -/
def execContention (p : Pins) (rivals : List (Nat × Nat)) (s : State) : Host.Outcome State Fault Refusal :=
  .next (live p (contend rivals) s)

/-- FRAME_ABANDONED (R163): the outcome is UNHEARD. -/
def execFrameAbandoned (p : Pins) (s : State) : Host.Outcome State Fault Refusal :=
  .next (live p (frameEnds .unheard) s)

/-- OUTCOME (R174). -/
def execOutcome (p : Pins) (ack obj : Bool) (s : State) : Host.Outcome State Fault Refusal :=
  .next (live p (frameEnds (outcomeOf ack obj)) s)

/-- LINE_IDLE (R161): from here on the station takes frames and may begin its own. -/
def execLineIdle (p : Pins) (s : State) : Host.Outcome State Fault Refusal :=
  .next (live p (fun s => s.setLine { s.line with footing := true }) s)

end Sys2Proof.Machine
end

