-- ==== Sys2Proof/Machine/CraneCommands.lean ====
section
/-! DEFINITION. The commands of the crane unit (chapter 3): the reports of the crane drive link and of the fork tag reader,
and the move budget and hold limit expiries. -/

namespace Sys2Proof.Machine
open Sys2Proof

/-! ## In position (R47, R57, R59) -/

/-- A PARK has completed: PARKED, and, where the own compartment is no longer alarmed, the restore's effect (R59, R135). -/
def parkCompletes (s : State) : State :=
  let s := (craneTo .parked (clearCurrent s))
  let s := s.setCrane { s.crane with fireFinish := false }
  if s.fire.alarmed (ownComp s.cfg) then s else unpark s

/-- The new STORE after a re-slot is started, or under a fire order to finish left to the restore while a PARK carries the
bin (R57, R135). -/
def storeAgain (new : Slot) (s : State) : State :=
  if s.crane.fireFinish then park (s.setCrane { s.crane with fireFinish := false })
  else makeCurrent .store (.slot new) none true s

/-- FAULT SLOT_CONFLICT (R57, R182). -/
def slotConflictFault (bin : Nat) (old new : Slot) (s : State) : State :=
  faultNotice { faultBody .slotConflict with bin := bin, slotA := old.name, slotB := new.name } s

/-- A slot conflict: the STORE's slot reads occupied (R57). Where the bin is absent, not OUT, or without that slot RESERVED for
it, R15's precondition fails and no rule names the outcome: the model answers as where no slot is found, STORE_BLOCKED
naming the old slot, the model's choice (log 45). -/
def slotConflict (bin : Nat) (old : Slot) (s : State) : State :=
  let here := encoderPos s.cfg s.pins
  let held := s.dir.reslotHeld s.cfg bin old here
  match s.dir.reslot s.cfg bin old here with
  | some (new, d) => storeAgain new (slotConflictFault bin old new (clearCurrent ((noteHeld held s).setDir d)))
  | none => storeBlocked bin old.name (noteHeld held s)

/-- A STORE in position: the fork slot sensor is read (R57). -/
def storeInPosition (m : Move) (s : State) : State :=
  match m.target, s.crane.carried with
  | .slot old, some c =>
    if s.pins.slot then slotConflict c.bin old s else s.setCrane { s.crane with forkCycle := true }
  | _, _ => s.setCrane { s.crane with forkCycle := true }

/-- The drive link reports in position (R47). -/
def inPosition (s : State) : State :=
  match s.crane.state, s.crane.current with
  | .moving, some m =>
    if s.crane.forkCycle then s
    else
      let s := readEncoders s
      match m.kind with
      | .park => parkCompletes s
      | .store => storeInPosition m s
      | .fetch | .deliver | .takeIn => s.setCrane { s.crane with forkCycle := true }
  | _, _ => s

/-! ## The fork tag (R50, R51) -/

/-- NO_READ: the fork cycle goes on, with FAULT TAG_UNREAD (R50). -/
def tagUnread (m : Move) (s : State) : State :=
  faultNotice { faultBody .tagUnread with bin := fetchBin m s, slotA := m.target.name }
    (s.setCrane { s.crane with tag := .passed })

/-- The bound DELIVER behind a FETCH that read MISMATCH is discarded. The stage is then empty until fork done: the planner makes
no selection in this event, which is none of R75's (R51, R75, log 8). A free move staged behind the FETCH stays. -/
def discardBound (s : State) : State :=
  match s.crane.staged with
  | some d =>
    if d.bound then (s.setPlanner { s.planner with passed := some (readyWork s) }).setCrane { s.crane with staged := none }
    else s
  | none => s

/-- MISMATCH(x): doubt marks, the visit's failure, the fault, the bound DELIVER discarded (R51, R73). -/
def tagMismatch (m : Move) (x : Nat) (s : State) : State :=
  let b := fetchBin m s
  let s := s.setDir (s.dir.markDoubt b x)
  let s := if s.dir.isDoubted x then withholdBin x s else s
  let s := withholdBin b s
  let s := match m.visit with | some v => failVisit v .tagMismatch true s | none => s
  let s := faultNotice { faultBody .tagMismatch with bin := b, second := x, slotA := m.target.name } s
  discardBound (s.setCrane { s.crane with tag := .mismatched, current := some { m with visit := none } })

/-- The fork tag reader reports (R50, R51). A report to a crane that no longer moves, STOPPING in the fork cycle included, is ignored
(log 9). -/
def forkTagRead (r : TagRead) (s : State) : State :=
  match s.crane.state, s.crane.current with
  | .moving, some m =>
    if m.kind = .fetch ∧ s.crane.forkCycle = true ∧ s.crane.tag = .awaited then
      match r with
      | .hit => s.setCrane { s.crane with tag := .passed }
      | .noRead => tagUnread m s
      | .mismatch x => tagMismatch m x s
    else s
  | _, _ => s

/-! ## Fork done (R47, R50, R54, R56, R58) -/

/-- A refused take-out at fork done (R50, R80). CRANE_LOAD_UNKNOWN names bin 0 here (R182, log 13). A free move staged behind
the FETCH, which R50 does not foresee, is discarded as the bound DELIVER is, its visit handed back or its stow ready again: the
model's choice (log 46). -/
def takeOutRefused (m : Move) (s : State) : State :=
  let s := discardStaged (clearCurrent s)
  let s := s.setCrane { s.crane with state := .faulted, unknownLoad := true, fireFinish := false, drive := .stop }
  let s := faultNotice (faultBody .craneLoadUnknown) s
  match m.visit with
  | some v => failVisit v .unknownBin true s
  | none => s

/-- A FETCH completes (R50, R51). -/
def fetchDone (m : Move) (s : State) : State :=
  if s.crane.tag = .mismatched then afterCompletion (clearCurrent s)
  else
    let b := fetchBin m s
    match s.dir.takeOut s.clock b with
    | some d => afterCompletion (clearCurrent (carryFetched b m.visit false d s))
    | none => takeOutRefused m s

/-- A DELIVER completes (R54). -/
def deliverDone (s : State) : State :=
  match s.crane.carried with
  | some c =>
    afterCompletion (handOver c.bin c.visit (clearCurrent (s.setCrane { s.crane with carried := none })))
  | none => afterCompletion (clearCurrent s)

/-- A TAKE_IN completes (R56). -/
def takeInDone (s : State) : State :=
  match s.spine.portIn.record? with
  | some r =>
    let s := s.setCrane { s.crane with carried := some ⟨r.bin, some r, none, false⟩ }
    afterCompletion (clearCurrent (clearStow (setPortIn .empty (locateBin r.bin .crane s))))
  | none => afterCompletion (clearCurrent (clearStow s))

/-- A STORE completes (R58). -/
def storeDone (s : State) : State :=
  match s.crane.carried with
  | some c =>
    let s := clearCurrent (s.setCrane { s.crane with carried := none })
    afterCompletion (storeBin c.bin (c.record.map recordContents) (c.record.bind recordRoom) s)
  | none => afterCompletion (clearCurrent s)

/-- The drive link reports fork done (R47). -/
def forkDone (s : State) : State :=
  match s.crane.state, s.crane.current with
  | .moving, some m =>
    if s.crane.forkCycle then
      let s := readEncoders s
      match m.kind with
      | .fetch => fetchDone m s
      | .deliver => deliverDone s
      | .takeIn => takeInDone s
      | .store => storeDone s
      | .park => s
    else s
  | _, _ => s

/-! ## Stopped (R60, R61, R134) -/

/-- The stopped report of a fire order to stop: load resolution, then the PARK (R134), after a RESTORE in between too, the
model's choice (log 28). -/
def fireStopped (s : State) : State :=
  let s := craneTo .idle (abandonMove (s.setCrane { s.crane with fireStop := false }))
  let (free, s) := resolveLoad s
  if free then park s else s

/-- The stopped report after a STOP: HALTED, and the kept RESUME (R60, R61). -/
def stopStopped (s : State) : State :=
  let kept := s.crane.resumeKept
  let s := craneTo .halted (abandonMove s)
  if kept then resumeSteps (s.setCrane { s.crane with resumeKept := false }) else s

/-- The drive link reports stopped (R60). -/
def craneStopped (s : State) : State :=
  if s.crane.state = .stopping then
    if s.crane.fireStop then fireStopped (readEncoders s) else stopStopped (readEncoders s)
  else s

/-! ## Expiries (R48, R53) -/

/-- The move budget timer: it runs in MOVING and STOPPING (R46, R60). -/
def budgetTimer (s : State) : Option Timer :=
  match s.crane.state, s.crane.current with
  | .moving, some m => m.timer
  | .stopping, some m => m.timer
  | _, _ => none

def budgetExpires (s : State) : State :=
  match s.crane.current with
  | some m => stall m s
  | none => s

/-- The hold limit timer (R52). -/
def holdTimer (s : State) : Option Timer := if s.crane.state = .holding then s.crane.holdTimer else none

/-- The store-back (R53). -/
def storeBack (s : State) : State :=
  match s.crane.carried with
  | some c =>
    let s := s.setCrane { s.crane with current := none, holdTimer := none, carried := some { c with visit := none } }
    makeStore c.bin (handBackLink c.visit s)
  | none => s

/-! ## The commands -/

/-- IN_POSITION (R47, R57, R59). -/
def execInPosition (p : Pins) (s : State) : Host.Outcome State Fault Refusal := .next (live p inPosition s)

/-- FORK_TAG_READ (R50, R51). -/
def execForkTagRead (p : Pins) (r : TagRead) (s : State) : Host.Outcome State Fault Refusal := .next (live p (forkTagRead r) s)

/-- FORK_DONE (R47, R50, R54, R56, R58). -/
def execForkDone (p : Pins) (s : State) : Host.Outcome State Fault Refusal := .next (live p forkDone s)

/-- STOPPED (R60, R61, R134). -/
def execStopped (p : Pins) (s : State) : Host.Outcome State Fault Refusal := .next (live p craneStopped s)

/-- MOVE_BUDGET_EXPIRY (R48). -/
def execMoveBudgetExpiry (p : Pins) (s : State) : Host.Outcome State Fault Refusal :=
  .next (live p (expiry budgetTimer budgetExpires) s)

/-- HOLD_LIMIT_EXPIRY (R53). -/
def execHoldLimitExpiry (p : Pins) (s : State) : Host.Outcome State Fault Refusal :=
  .next (live p (expiry holdTimer storeBack) s)

end Sys2Proof.Machine
end

