-- ==== Sys2Proof/Machine/SpineCommands.lean ====
section
/-! DEFINITION. The commands of the spine unit (chapter 6) and of the port-in tag reader (R55): sensor reports and
expiries. -/

namespace Sys2Proof.Machine
open Sys2Proof

/-! ## The port-in tag (R55) -/

/-- The check fails: PORT_IN is BLOCKED keeping bin and record, with FAULT PORT_TAG (R55). -/
def portTagFails (r : TravelRecord) (id : Nat) (s : State) : State :=
  let s := clearStow (setPortIn (.blocked (some r) none) s)
  faultNotice { faultBody .portTag with bin := r.bin, second := id, code := PlaceCode.portIn.num } s

/-- The port-in tag reader reports (R55): a match makes the stow ready, where no stow stands yet (R76). -/
def portInTagRead (id : Option Nat) (s : State) : State :=
  match s.spine.portIn.record? with
  | some r =>
    if s.planner.stow = .absent then
      if id = some r.bin then setStow .ready s else portTagFails r (id.getD 0) s
    else s
  | none => s

/-! ## The timers (R156) -/

def outTimer (l : Lane) (s : State) : Option Timer := (outExternal s l).map (·.timer)
def inTimer (l : Lane) (s : State) : Option Timer := (inExternal s l).map (·.timer)
def diversionTimer (s : State) : Option Timer := (diversion s).map (·.timer)
def mergeTimer (s : State) : Option Timer := (merge s).map (·.timer)

/-- An outgoing transfer of a lane to another station expires (R122). -/
def transferOutExpires (l : Lane) (s : State) : State :=
  match outExternal s l with
  | some h => outExpires l h s
  | none => s

/-- The diversion's transfer expires (R121). -/
def diversionTransferExpires (s : State) : State :=
  match diversion s with
  | some h => diversionExpires h s
  | none => s

/-- The merge's transfer expires (R112). -/
def mergeTransferExpires (s : State) : State :=
  match merge s with
  | some h => mergeExpires h s
  | none => s

/-! ## The commands -/

/-- ARRIVAL (R112, R117, R121). -/
def execArrival (p : Pins) (place : SpinePlace) (s : State) : Host.Outcome State Fault Refusal :=
  .next (live p (entryReport place) s)

/-- BIN_AT_POSITION (R107, R121, R136). -/
def execBinAtPosition (p : Pins) (place : SpinePlace) (s : State) : Host.Outcome State Fault Refusal :=
  .next (live p (positionReport place) s)

/-- PORT_IN_TAG_READ (R55). -/
def execPortInTagRead (p : Pins) (id : Option Nat) (s : State) : Host.Outcome State Fault Refusal :=
  .next (live p (portInTagRead id) s)

/-- TRANSFER_LIMIT_EXPIRY_OUT (R122). -/
def execTransferLimitExpiryOut (p : Pins) (lane : Lane) (s : State) : Host.Outcome State Fault Refusal :=
  .next (live p (expiry (outTimer lane) (transferOutExpires lane)) s)

/-- DIVERSION_EXPIRY (R121). -/
def execDiversionExpiry (p : Pins) (s : State) : Host.Outcome State Fault Refusal :=
  .next (live p (expiry diversionTimer diversionTransferExpires) s)

/-- TRANSFER_LIMIT_EXPIRY_IN (R123). -/
def execTransferLimitExpiryIn (p : Pins) (lane : Lane) (s : State) : Host.Outcome State Fault Refusal :=
  .next (live p (expiry (inTimer lane) (inExpires lane)) s)

/-- MERGE_TRANSFER_EXPIRY (R112). -/
def execMergeTransferExpiry (p : Pins) (s : State) : Host.Outcome State Fault Refusal :=
  .next (live p (expiry mergeTimer mergeTransferExpires) s)

/-- OFFER_RETRY_EXPIRY (R113): the offer check follows at the end of the event. -/
def execOfferRetryExpiry (p : Pins) (lane : Lane) (s : State) : Host.Outcome State Fault Refusal :=
  .next (live p (expiry (fun s => s.spine.retry lane) (clearRetry lane)) s)

/-- MERGE_WAIT_EXPIRY (R111). -/
def execMergeWaitExpiry (p : Pins) (s : State) : Host.Outcome State Fault Refusal :=
  .next (live p (expiry (fun s => s.spine.mergeWait) mergeWaitExpires) s)

end Sys2Proof.Machine
end

