-- ==== Sys2Proof/Machine/PlacementCommands.lean ====
section
/-! DEFINITION. The commands of the placement unit (chapter 5) and the overdue sweep of the planner (R85, R160). -/

namespace Sys2Proof.Machine
open Sys2Proof

/-- The window of a call, while it runs (R87). -/
def windowTimer (c : Call) (s : State) : Option Timer :=
  match s.placement.entry c with
  | some e => if e.state.windowRuns then some e.window else none
  | none => none

/-- The window of a call expires (R95). -/
def callWindowExpires (c : Call) (s : State) : State :=
  match s.placement.entry c with
  | some e => windowExpires e s
  | none => s

/-! ## The overdue sweep (R85) -/

/-- The bin has been out longer than the out limit and is not yet reported (R85). -/
def overdueNow (s : State) (e : BinEntry) : Option (Location × Time) :=
  match e.status with
  | .out loc since => if !e.overdue && decide (s.cfg.outLimit * 60000 < age s.clock since) then some (loc, since) else none
  | .stored => none

/-- BIN_OVERDUE (R85, R182). -/
def overdueItem (s : State) (b : Nat) (loc : Location) (since : Time) : Item :=
  .binOverdue ⟨b, loc.kind, loc.value, age s.clock since / 60000⟩

/-- One bin under the sweep: reported, and the flag set if the notice enters the queue (R85). -/
def sweepBin (b : Nat) (s : State) : State :=
  match s.dir.bin b with
  | some e =>
    match overdueNow s e with
    | some (loc, since) =>
      let n := [overdueItem s b loc since]
      let entered := noticeEnters n s
      let s := notice n s
      if entered then s.setDir (s.dir.setBin b { e with overdue := true }) else s
    | none => s
  | none => s

/-- The sweep: restarted at this reading, then every bin in ascending order of id (R85, R160). -/
def overdueSweep (s : State) : State :=
  let s := s.setPlanner { s.planner with sweep := some ⟨s.clock, 60000⟩ }
  (s.dir.bins.map (·.1)).foldl (fun s b => sweepBin b s) s

/-! ## The commands -/

/-- EVALUATION_DONE (R90 to R92). When it falls is the sender's: R89 fixes no time but less than 50 ms, and the model asks for
neither bound, at whatever reading the command stands in the queue, and with an evaluation that is never done among its runs (the
model's choice, log 42). -/
def execEvaluationDone (p : Pins) (s : State) : Host.Outcome State Fault Refusal := .next (live p evaluationDone s)

/-- WINDOW_EXPIRY (R95). -/
def execWindowExpiry (p : Pins) (call : Call) (s : State) : Host.Outcome State Fault Refusal :=
  .next (live p (expiry (windowTimer call) (callWindowExpires call)) s)

/-- OVERDUE_SWEEP_EXPIRY (R85, R159, R160): the sweep runs in every mode. -/
def execOverdueSweepExpiry (p : Pins) (s : State) : Host.Outcome State Fault Refusal :=
  let s := s.setPins p
  let t := expiry (fun s => s.planner.sweep) overdueSweep s
  .next (if s.live then settle t else t)

end Sys2Proof.Machine
end

