-- ==== Sys2Proof/Machine/FireCommands.lean ====
section
/-! DEFINITION. The commands of the fire inputs and of the owned shutter (chapter 7). -/

namespace Sys2Proof.Machine
open Sys2Proof

/-- A change of a fire input, or its filter's expiry: the filters run in every mode, START and UNCONFIGURED included, from
the release of the reset input (R129, R151, R159, R189). -/
def filterEvent (p : Pins) (f : State → State) (s : State) : State :=
  let s := s.setPins p
  if s.inReset then s else if s.live then settle (f s) else f s

/-- A timer of the owned shutter (R139). -/
def shutterTimer (g : Shutter → Option Timer) (s : State) : Option Timer := s.fire.shutter.bind g

/-- The closing retry timer ends; the clear check follows at the end of the event (R141, R142). -/
def closingRetryExpires (s : State) : State :=
  s.setFire { s.fire with shutter := s.fire.shutter.map fun x => { x with retry := none } }

/-- INPUT_ACTIVE (R129). -/
def execInputActive (p : Pins) (i : FireInput) (s : State) : Host.Outcome State Fault Refusal :=
  .next (filterEvent p (inputReadsActive i) s)

/-- INPUT_INACTIVE (R129). -/
def execInputInactive (p : Pins) (i : FireInput) (s : State) : Host.Outcome State Fault Refusal :=
  .next (filterEvent p (inputReadsInactive i) s)

/-- INPUT_FILTER_EXPIRY (R129, R130, R151). -/
def execInputFilterExpiry (p : Pins) (i : FireInput) (s : State) : Host.Outcome State Fault Refusal :=
  .next (filterEvent p (expiry (fun s => (s.fire.filter i).timer) (filterExpires i)) s)

/-- CLOSING_RETRY_EXPIRY (R141, R142). -/
def execClosingRetryExpiry (p : Pins) (s : State) : Host.Outcome State Fault Refusal :=
  .next (live p (expiry (shutterTimer (·.retry)) closingRetryExpires) s)

/-- CLOSE_LIMIT_EXPIRY (R144). -/
def execCloseLimitExpiry (p : Pins) (s : State) : Host.Outcome State Fault Refusal :=
  .next (live p (expiry (shutterTimer (·.closeLimit)) closeLimitExpires) s)

/-- SHUTTER_DRIVE_LIMIT_EXPIRY (R146, R147). -/
def execShutterDriveLimitExpiry (p : Pins) (s : State) : Host.Outcome State Fault Refusal :=
  .next (live p (expiry (shutterTimer (·.driveLimit)) driveLimitExpires) s)

/-- CLOSED_SENSOR (R146). -/
def execClosedSensor (p : Pins) (s : State) : Host.Outcome State Fault Refusal := .next (live p shutterClosed s)

/-- OPEN_SENSOR (R147). -/
def execOpenSensor (p : Pins) (s : State) : Host.Outcome State Fault Refusal := .next (live p shutterOpened s)

/-- BOUNDARY_SENSOR_CHANGE (R141): the clear check at the end of the event reads the boundary sensors anew. -/
def execBoundarySensorChange (p : Pins) (s : State) : Host.Outcome State Fault Refusal := .next (live p (fun s => s) s)

end Sys2Proof.Machine
end

