-- ==== Sys2Proof/Machine/ResetCommands.lean ====
section
/-! DEFINITION. The reset input (R153, R159, R185) and the end of the image read (R186 to R189). -/

namespace Sys2Proof.Machine
open Sys2Proof

/-- A place at the release of reset: EMPTY where its sensor reads empty, else BLOCKED without a record (R127). -/
def placeAtReset (x : PlaceSensors) : PlaceState := if x.readsEmpty then .empty else .blocked none none

/-- An input filter at the release of reset: its timer runs where the input reads active (R151, R159). -/
def filterAtReset (active : Bool) : InputFilter := ⟨if active then some ⟨0, 100⟩ else none, false, false⟩

/-- The encoder reading at the release of reset, held as R40 holds it in the widest rack a configuration may give, since none is
read yet (R63, R187; log 17). -/
def releasePos (p : Pins) : Pos := ⟨hold 0 64 p.encCol, hold 1 24 p.encLevel⟩

/-- The station right after the release of the reset input, with the pins as they read then; the commands that wait stay
(R25, R63, R86, R104, R127, R151, R153, R159, R178, R185, R188). The spec has no release of an input that is not asserted: the model
takes one as a release, which starts the station anew from any state (its choice, log 9). -/
def resetReleased (p : Pins) (s : State) : State :=
  { State.reset with
    pins := p
    crane := { Crane.reset with pos := releasePos p }
    spine := { Spine.reset with
      portOut := placeAtReset p.portOut, portIn := placeAtReset p.portIn
      down := placeAtReset p.down, up := placeAtReset p.up }
    fire := { Fire.reset with
      smoke := filterAtReset p.smoke, heat := filterAtReset p.heat, callPoint := filterAtReset p.callPoint }
    pending := s.pending }

/-- The station while the reset input is asserted: clock 0, no timer, no stamp, nothing held (R153, R159; log 6). -/
def resetAsserted (p : Pins) (s : State) : State :=
  { State.reset with
    inReset := true, pins := p, planner := { Planner.reset with sweep := none }, pending := s.pending }

/-- RESET_RELEASE (R153, R185). -/
def execResetRelease (p : Pins) (s : State) : Host.Outcome State Fault Refusal := .next (resetReleased p s)

/-- RESET_ASSERT (R153). -/
def execResetAssert (p : Pins) (s : State) : Host.Outcome State Fault Refusal := .next (resetAsserted p s)

/-- READ_COMPLETE (R186 to R189): the end of START. -/
def execReadComplete (p : Pins) (image : List Byte) (s : State) : Host.Outcome State Fault Refusal :=
  let s := s.setPins p
  .next (if !s.inReset && s.mode == .start then readComplete image s else s)

end Sys2Proof.Machine
end

