-- ==== Sys2Proof/Machine/FrameCommands.lean ====
section
/-! DEFINITION. The commands of frames heard with a good check (chapter 9): one meaning for each row, by the frame's first
item; the items after it follow in stream order (R167). -/

namespace Sys2Proof.Machine
open Sys2Proof

/-- The FAULT body with the kind its row names. -/
def ofKind (k : FaultKind) (b : FaultBody) : FaultBody := { b with kind := k }

/-- ALARM (R128 to R131). -/
def execAlarm (p : Pins) (h : Header) (b : AlarmBody) (rest : List Item) (s : State) : Host.Outcome State Fault Refusal :=
  .next (hear p h (.alarm b :: rest) s)

/-- CLOSING (R143). -/
def execClosing (p : Pins) (h : Header) (seg : Nat) (rest : List Item) (s : State) : Host.Outcome State Fault Refusal :=
  .next (hear p h (.closing seg :: rest) s)

/-- CLOSED (R170). -/
def execClosed (p : Pins) (h : Header) (seg : Nat) (rest : List Item) (s : State) : Host.Outcome State Fault Refusal :=
  .next (hear p h (.closed seg :: rest) s)

/-- OPENED (R170). -/
def execOpened (p : Pins) (h : Header) (seg : Nat) (rest : List Item) (s : State) : Host.Outcome State Fault Refusal :=
  .next (hear p h (.opened seg :: rest) s)

/-- SAFE (R148, R170). -/
def execSafe (p : Pins) (h : Header) (b : SafeBody) (rest : List Item) (s : State) : Host.Outcome State Fault Refusal :=
  .next (hear p h (.safe b :: rest) s)

/-- RESTORE (R149, R150, R152). -/
def execRestore (p : Pins) (h : Header) (b : RestoreBody) (rest : List Item) (s : State) : Host.Outcome State Fault Refusal :=
  .next (hear p h (.restore b :: rest) s)

/-- OFFER (R115, R116). -/
def execOffer (p : Pins) (h : Header) (r : TravelRecord) (rest : List Item) (s : State) : Host.Outcome State Fault Refusal :=
  .next (hear p h (.offer r :: rest) s)

/-- TAKEN (R83, R119, R120). -/
def execTaken (p : Pins) (h : Header) (b : TakenBody) (rest : List Item) (s : State) : Host.Outcome State Fault Refusal :=
  .next (hear p h (.taken b :: rest) s)

/-- ROOM_CALL (R88, R89). -/
def execRoomCall (p : Pins) (h : Header) (b : RoomCallBody) (rest : List Item) (s : State) : Host.Outcome State Fault Refusal :=
  .next (hear p h (.roomCall b :: rest) s)

/-- BID (R94). -/
def execBid (p : Pins) (h : Header) (b : BidBody) (rest : List Item) (s : State) : Host.Outcome State Fault Refusal :=
  .next (hear p h (.bid b :: rest) s)

/-- CLAIM (R98). -/
def execClaim (p : Pins) (h : Header) (b : ClaimBody) (rest : List Item) (s : State) : Host.Outcome State Fault Refusal :=
  .next (hear p h (.claim b :: rest) s)

/-- LEND (R69 to R71). -/
def execLend (p : Pins) (h : Header) (b : LendBody) (rest : List Item) (s : State) : Host.Outcome State Fault Refusal :=
  .next (hear p h (.lend b :: rest) s)

/-- CANCEL (R69, R81). -/
def execCancel (p : Pins) (h : Header) (id : Nat) (rest : List Item) (s : State) : Host.Outcome State Fault Refusal :=
  .next (hear p h (.cancel id :: rest) s)

/-- STOCK_AT (R19). -/
def execStockAt (p : Pins) (h : Header) (slot : SlotName) (rest : List Item) (s : State) : Host.Outcome State Fault Refusal :=
  .next (hear p h (.stockAt slot :: rest) s)

/-- STOCK (R19 to R22). -/
def execStock (p : Pins) (h : Header) (b : StockBody) (rest : List Item) (s : State) : Host.Outcome State Fault Refusal :=
  .next (hear p h (.stock b :: rest) s)

/-- STOCK_END (R23). -/
def execStockEnd (p : Pins) (h : Header) (rest : List Item) (s : State) : Host.Outcome State Fault Refusal :=
  .next (hear p h (.stockEnd :: rest) s)

/-- STOP (R60). -/
def execStop (p : Pins) (h : Header) (rest : List Item) (s : State) : Host.Outcome State Fault Refusal :=
  .next (hear p h (.stop :: rest) s)

/-- RESUME (R61, R62, R125). -/
def execResume (p : Pins) (h : Header) (rest : List Item) (s : State) : Host.Outcome State Fault Refusal :=
  .next (hear p h (.resume :: rest) s)

/-- WRITE_OFF (R24). -/
def execWriteOff (p : Pins) (h : Header) (bin : Nat) (rest : List Item) (s : State) : Host.Outcome State Fault Refusal :=
  .next (hear p h (.writeOff bin :: rest) s)

/-- QUERY (R183, R190). -/
def execQuery (p : Pins) (h : Header) (rest : List Item) (s : State) : Host.Outcome State Fault Refusal :=
  .next (hear p h (.query :: rest) s)

/-- FAULT_BIN_CAUGHT (R145). -/
def execFaultBinCaught (p : Pins) (h : Header) (b : FaultBody) (rest : List Item) (s : State) : Host.Outcome State Fault Refusal :=
  .next (hear p h (.fault (ofKind .binCaught b) :: rest) s)

/-- FAULT_HANDOFF_LOST (R120). -/
def execFaultHandoffLost (p : Pins) (h : Header) (b : FaultBody) (rest : List Item) (s : State) : Host.Outcome State Fault Refusal :=
  .next (hear p h (.fault (ofKind .handoffLost b) :: rest) s)

/-- FAULT (R191). -/
def execFault (p : Pins) (h : Header) (b : FaultBody) (rest : List Item) (s : State) : Host.Outcome State Fault Refusal :=
  .next (hear p h (.fault b :: rest) s)

/-- REQUEST_DONE (R191). -/
def execRequestDone (p : Pins) (h : Header) (b : NoticeBody) (rest : List Item) (s : State) : Host.Outcome State Fault Refusal :=
  .next (hear p h (.requestDone b :: rest) s)

/-- REQUEST_FAILED (R191). -/
def execRequestFailed (p : Pins) (h : Header) (b : NoticeBody) (rest : List Item) (s : State) : Host.Outcome State Fault Refusal :=
  .next (hear p h (.requestFailed b :: rest) s)

/-- BIN_STORED (R191). -/
def execBinStored (p : Pins) (h : Header) (b : BinStoredBody) (rest : List Item) (s : State) : Host.Outcome State Fault Refusal :=
  .next (hear p h (.binStored b :: rest) s)

/-- BIN_OVERDUE (R191). -/
def execBinOverdue (p : Pins) (h : Header) (b : BinOverdueBody) (rest : List Item) (s : State) : Host.Outcome State Fault Refusal :=
  .next (hear p h (.binOverdue b :: rest) s)

/-- STATION_REPORT (R191). -/
def execStationReport (p : Pins) (h : Header) (b : ReportBody) (rest : List Item) (s : State) : Host.Outcome State Fault Refusal :=
  .next (hear p h (.stationReport b :: rest) s)

/-- STOCK_REFUSED (R191). -/
def execStockRefused (p : Pins) (h : Header) (b : StockRefusedBody) (rest : List Item) (s : State) : Host.Outcome State Fault Refusal :=
  .next (hear p h (.stockRefused b :: rest) s)

/-- DISCARDED_FRAME (R165): the neighbour table alone; the station drives neither slot (log 7). -/
def execDiscardedFrame (p : Pins) (h : Header) (items : List Item) (s : State) : Host.Outcome State Fault Refusal :=
  .next (hear p h items s)

end Sys2Proof.Machine
end

