-- ==== Sys2Proof/Machine/Dispatch.lean ====
section
/-! DEFINITION. One arm per command: its meaning. -/

namespace Sys2Proof.Machine
open Sys2Proof

def exec (i : Instr) (s : State) : Host.Outcome State Fault Refusal :=
  match i with
  | .resetRelease p => Sys2Proof.Machine.execResetRelease p s
  | .resetAssert p => Sys2Proof.Machine.execResetAssert p s
  | .readComplete p image => Sys2Proof.Machine.execReadComplete p image s
  | .contention p rivals => Sys2Proof.Machine.execContention p rivals s
  | .frameAbandoned p => Sys2Proof.Machine.execFrameAbandoned p s
  | .outcome p ack obj => Sys2Proof.Machine.execOutcome p ack obj s
  | .alarm p h b rest => Sys2Proof.Machine.execAlarm p h b rest s
  | .closing p h seg rest => Sys2Proof.Machine.execClosing p h seg rest s
  | .closed p h seg rest => Sys2Proof.Machine.execClosed p h seg rest s
  | .opened p h seg rest => Sys2Proof.Machine.execOpened p h seg rest s
  | .safe p h b rest => Sys2Proof.Machine.execSafe p h b rest s
  | .restore p h b rest => Sys2Proof.Machine.execRestore p h b rest s
  | .offer p h r rest => Sys2Proof.Machine.execOffer p h r rest s
  | .taken p h b rest => Sys2Proof.Machine.execTaken p h b rest s
  | .roomCall p h b rest => Sys2Proof.Machine.execRoomCall p h b rest s
  | .bid p h b rest => Sys2Proof.Machine.execBid p h b rest s
  | .claim p h b rest => Sys2Proof.Machine.execClaim p h b rest s
  | .lend p h b rest => Sys2Proof.Machine.execLend p h b rest s
  | .cancel p h id rest => Sys2Proof.Machine.execCancel p h id rest s
  | .stockAt p h slot rest => Sys2Proof.Machine.execStockAt p h slot rest s
  | .stock p h b rest => Sys2Proof.Machine.execStock p h b rest s
  | .stockEnd p h rest => Sys2Proof.Machine.execStockEnd p h rest s
  | .stop p h rest => Sys2Proof.Machine.execStop p h rest s
  | .resume p h rest => Sys2Proof.Machine.execResume p h rest s
  | .writeOff p h bin rest => Sys2Proof.Machine.execWriteOff p h bin rest s
  | .query p h rest => Sys2Proof.Machine.execQuery p h rest s
  | .faultBinCaught p h b rest => Sys2Proof.Machine.execFaultBinCaught p h b rest s
  | .faultHandoffLost p h b rest => Sys2Proof.Machine.execFaultHandoffLost p h b rest s
  | .fault p h b rest => Sys2Proof.Machine.execFault p h b rest s
  | .requestDone p h b rest => Sys2Proof.Machine.execRequestDone p h b rest s
  | .requestFailed p h b rest => Sys2Proof.Machine.execRequestFailed p h b rest s
  | .binStored p h b rest => Sys2Proof.Machine.execBinStored p h b rest s
  | .binOverdue p h b rest => Sys2Proof.Machine.execBinOverdue p h b rest s
  | .stationReport p h b rest => Sys2Proof.Machine.execStationReport p h b rest s
  | .stockRefused p h b rest => Sys2Proof.Machine.execStockRefused p h b rest s
  | .inPosition p => Sys2Proof.Machine.execInPosition p s
  | .forkTagRead p r => Sys2Proof.Machine.execForkTagRead p r s
  | .forkDone p => Sys2Proof.Machine.execForkDone p s
  | .stopped p => Sys2Proof.Machine.execStopped p s
  | .moveBudgetExpiry p => Sys2Proof.Machine.execMoveBudgetExpiry p s
  | .holdLimitExpiry p => Sys2Proof.Machine.execHoldLimitExpiry p s
  | .arrival p place => Sys2Proof.Machine.execArrival p place s
  | .binAtPosition p place => Sys2Proof.Machine.execBinAtPosition p place s
  | .portInTagRead p id => Sys2Proof.Machine.execPortInTagRead p id s
  | .transferLimitExpiryOut p lane => Sys2Proof.Machine.execTransferLimitExpiryOut p lane s
  | .diversionExpiry p => Sys2Proof.Machine.execDiversionExpiry p s
  | .transferLimitExpiryIn p lane => Sys2Proof.Machine.execTransferLimitExpiryIn p lane s
  | .mergeTransferExpiry p => Sys2Proof.Machine.execMergeTransferExpiry p s
  | .offerRetryExpiry p lane => Sys2Proof.Machine.execOfferRetryExpiry p lane s
  | .mergeWaitExpiry p => Sys2Proof.Machine.execMergeWaitExpiry p s
  | .evaluationDone p => Sys2Proof.Machine.execEvaluationDone p s
  | .windowExpiry p call => Sys2Proof.Machine.execWindowExpiry p call s
  | .inputActive p x => Sys2Proof.Machine.execInputActive p x s
  | .inputInactive p x => Sys2Proof.Machine.execInputInactive p x s
  | .inputFilterExpiry p x => Sys2Proof.Machine.execInputFilterExpiry p x s
  | .closingRetryExpiry p => Sys2Proof.Machine.execClosingRetryExpiry p s
  | .closeLimitExpiry p => Sys2Proof.Machine.execCloseLimitExpiry p s
  | .shutterDriveLimitExpiry p => Sys2Proof.Machine.execShutterDriveLimitExpiry p s
  | .closedSensor p => Sys2Proof.Machine.execClosedSensor p s
  | .openSensor p => Sys2Proof.Machine.execOpenSensor p s
  | .boundarySensorChange p => Sys2Proof.Machine.execBoundarySensorChange p s
  | .overdueSweepExpiry p => Sys2Proof.Machine.execOverdueSweepExpiry p s
  | .lineIdle p => Sys2Proof.Machine.execLineIdle p s
  | .discardedFrame p h items => Sys2Proof.Machine.execDiscardedFrame p h items s

end Sys2Proof.Machine
end

