-- ==== Sys2Proof/Machine/Tick.lean ====
section
/-! DEFINITION. One millisecond of the station clock, the expiries that fall due at the new reading, and the latest end of the image
read (R153, R156, R157, R185). -/

namespace Sys2Proof.Machine
open Sys2Proof

/-- The expiry of a timer that hits this reading (R156). -/
def hit (s : State) (t : Option Timer) (c : Instr) : List Instr := if timerHits s.clock t then [c] else []

/-- The windows that expire at this reading, in table order (R87). -/
def windowHits (s : State) : List Instr :=
  s.placement.calls.flatMap fun e => hit s (windowTimer e.call s) (.windowExpiry s.pins e.call)

/-- The clock reading by which the image read has ended (R185). -/
def readEndsBy : Nat := 200

/-- A serial memory that has not answered by then has given FFh in every octet (R185, log 38). -/
def silentMemory : List Byte := List.replicate 128 0xFF

/-- In START the read ends no later than clock 200 (R185): at that reading its end is among what falls due. -/
def readHits (s : State) : List Instr :=
  if s.mode = .start ∧ readEndsBy ≤ s.clock.toNat then [.readComplete s.pins silentMemory] else []

/-- The expiries of every running timer at this reading, and the end of the image read (R156, R185). Each carries the pins as an
earlier command read them last: the clock brings no reading of a sensor of its own, the model's choice (log 50). -/
def expiries (s : State) : List Instr :=
  hit s s.fire.smoke.timer (.inputFilterExpiry s.pins .smoke)
    ++ hit s s.fire.heat.timer (.inputFilterExpiry s.pins .heat)
    ++ hit s s.fire.callPoint.timer (.inputFilterExpiry s.pins .callPoint)
    ++ hit s (budgetTimer s) (.moveBudgetExpiry s.pins)
    ++ hit s (holdTimer s) (.holdLimitExpiry s.pins)
    ++ hit s (outTimer .down s) (.transferLimitExpiryOut s.pins .down)
    ++ hit s (outTimer .up s) (.transferLimitExpiryOut s.pins .up)
    ++ hit s (diversionTimer s) (.diversionExpiry s.pins)
    ++ hit s (inTimer .down s) (.transferLimitExpiryIn s.pins .down)
    ++ hit s (inTimer .up s) (.transferLimitExpiryIn s.pins .up)
    ++ hit s (mergeTimer s) (.mergeTransferExpiry s.pins)
    ++ hit s s.spine.retryDown (.offerRetryExpiry s.pins .down)
    ++ hit s s.spine.retryUp (.offerRetryExpiry s.pins .up)
    ++ hit s s.spine.mergeWait (.mergeWaitExpiry s.pins)
    ++ windowHits s
    ++ hit s (shutterTimer (·.retry) s) (.closingRetryExpiry s.pins)
    ++ hit s (shutterTimer (·.closeLimit) s) (.closeLimitExpiry s.pins)
    ++ hit s (shutterTimer (·.driveLimit) s) (.shutterDriveLimitExpiry s.pins)
    ++ hit s s.planner.sweep (.overdueSweepExpiry s.pins)
    ++ readHits s

/-- A command put among others, behind as many of them as the number says. -/
def putAt (c : Instr) : List Instr → Nat → List Instr
  | [], _ => [c]
  | d :: l, 0 => c :: d :: l
  | d :: l, n + 1 => d :: putAt c l n

/-- Commands in the order a choice of places gives (R157: between expiries of one reading no order exists; log 2). -/
def inOrder (place : Nat → Nat) : List Instr → List Instr
  | [] => []
  | c :: l => putAt c (inOrder place l) (place l.length)

/-- One millisecond passes: the clock advances, and the expiries at the new reading wait as commands (R153, R156). The clock
stands while the reset input is asserted. -/
def tick (s : State) : State :=
  if s.inReset then s
  else
    let s := s.setClock (s.clock + 1)
    s.setPending (inOrder (Config.freeOrder s.clock) (expiries s))

end Sys2Proof.Machine
end

