-- ==== Sys2Proof/Safety.lean ====
section
/-! DEFINITION. What counts as a sound state of the station: the invariants that claims are stated with, and the words in
which claims speak of a frame heard. -/

namespace Sys2Proof.Safety
open Sys2Proof Machine

/-! ## Invariants -/

/-- The frames stand in order of class, lowest first (R175). -/
def classOrdered : List TxFrame → Bool
  | f :: g :: q => decide (f.cls ≤ g.cls) && classOrdered (g :: q)
  | _ => true

/-- The transmit queue: at most 12 frames, at most 6 notices, in class order, at most one frame on the line (R163, R175). -/
structure QueueInv (s : State) : Prop where
  frames  : s.line.queue.length ≤ 12
  notices : noticeCount s.line.queue ≤ 6
  ordered : classOrdered s.line.queue = true
  onLine  : (s.line.queue.countP fun f => !f.waits) ≤ 1

/-- The placement unit: at most 4 open calls, no two of the same desk and number, the sweep cursor in 0..63 (R87, R88, R90). -/
structure CallsInv (s : State) : Prop where
  calls    : s.placement.calls.length ≤ 4
  distinct : (s.placement.calls.map (·.call)).Nodup
  cursor   : s.placement.sweep < 64

/-- The keyed tables are in canonical form, and no slot record and no load is listed that an unlisted key reads as. -/
structure TablesInv (s : State) : Prop where
  slots       : tblWf s.dir.slots = true
  slotsListed : (s.dir.slots.all fun x => x.2 != ⟨.empty, false⟩) = true
  bins        : tblWf s.dir.bins = true
  loads       : tblWf s.dir.loads = true
  loadsListed : (s.dir.loads.all fun x => x.2 != 0) = true
  neighbours  : tblWf s.line.neighbours = true

/-- The request pool is in canonical form and holds at most 48 requests (R64). -/
structure PoolInv (s : State) : Prop where
  form : tblWf s.planner.pool = true
  size : s.planner.pool.length ≤ 48

/-- The slot is OCCUPIED. -/
def isOccupied : SlotState → Bool
  | .occupied _ => true
  | _ => false

/-- The slot is RESERVED. -/
def isReserved : SlotState → Bool
  | .reserved _ => true
  | _ => false

/-- The counts of OCCUPIED, RESERVED and BAD slots are the numbers of slots in those states, and with the count of EMPTY slots
they sum to the slots of the rack from STOCKING on (R2, R25). The slot table is in canonical form, and before the configuration is
read it is empty (R25). -/
structure CountsInv (s : State) : Prop where
  form     : tblWf s.dir.slots = true
  occupied : s.dir.counts.occupied = s.dir.slots.countP fun x => isOccupied x.2.state
  reserved : s.dir.counts.reserved = s.dir.slots.countP fun x => isReserved x.2.state
  bad      : s.dir.counts.bad = s.dir.slots.countP fun x => x.2.state == .bad
  start    : s.mode = .start → s.dir.slots = []
  sum      : s.mode.idle = false →
    s.dir.counts.empties + s.dir.counts.occupied + s.dir.counts.reserved + s.dir.counts.bad = 2 * s.cfg.nc * s.cfg.nl

/-- In IDLE, PARKED, HALTED and FAULTED no move is current (R42); in START none is (R63). -/
structure RestInv (s : State) : Prop where
  rest  : s.crane.state = .idle ∨ s.crane.state.rests = true → s.crane.current = none
  start : s.mode = .start → s.crane.current = none

/-- START ends no later than clock 200: at that reading, out of reset, the end of the image read waits among the commands (R159,
R185). -/
structure StartInv (s : State) : Prop where
  clock : s.mode = .start → s.clock.toNat ≤ 200
  ends  : s.mode = .start → s.clock.toNat = 200 → s.inReset = false ∧ ∃ p image, Instr.readComplete p image ∈ s.pending

/-- The invariants together. -/
structure Inv (s : State) : Prop where
  queue  : QueueInv s
  calls  : CallsInv s
  tables : TablesInv s
  pool   : PoolInv s
  counts : CountsInv s
  rest   : RestInv s
  start  : StartInv s

/-- A safe run: every step from the state answers a next state that keeps the invariants, as far as `k` steps. -/
def SafeFor : Nat → State → Prop
  | 0, s => Inv s
  | k + 1, s => Inv s ∧ ∃ t, step s = .next t ∧ SafeFor k t

/-! ## Frames heard -/

/-- The station hears the frame and takes it in its neighbour table: it is past START with its footing on the line, and the
sender is another station (R161, R164, R185, R189). -/
structure Hears (h : Header) (s : State) : Prop where
  live    : s.live = true
  footing : s.line.footing = true
  sender  : h.sender < 63
  other   : h.sender ≠ s.cfg.station

/-- The items of the frame reach the station's blocks: the frame is heard, passes the class test and is addressed to the
station (R165, R166). -/
structure Reaches (h : Header) (items : List Item) (s : State) : Prop extends Hears h s where
  classed   : classGood h items = true
  addressed : addressed s.cfg h = true

/-- The state in which the first item of a heard frame is dispatched: pins read, slots released, sender entered (R170). -/
def entered (p : Pins) (h : Header) (s : State) : State := enterNeighbour h (setSlots (false, false) (s.setPins p))

/-- What follows the effect `s` of a frame's first item, `before` being the state before the frame: the items after it, then
the end of the frame's one event, and the two slots (R164, R167, R173). -/
def follow (before : State) (h : Header) (rest : List Item) (a : Answers) (s : State) : State :=
  let x := takeItems h rest a (afterItem s)
  setSlots (x.1.slots h.cls) (settle (passedSince before x.2))

/-- Nothing is left to do at the end of an event: no OFFER is queued or due, the crane is given no work, no lane or port holds
a bin that moves on, the owned shutter does not wait to close, and no SAFE report or evaluation is due (log 8). -/
structure Quiet (s : State) : Prop where
  offers   : (s.line.queue.all fun f => !(f.waits && (f.owner.isOffer .down || f.owner.isOffer .up))) = true
  staged   : s.crane.staged = none
  passed   : s.planner.passed = none
  work     : selectionCondition s = true → ∀ o : Nat, o ≤ 4 → readyAt s o = false
  portOut  : s.spine.portOut.record? = none
  down     : s.spine.down.record? = none
  up       : s.spine.up.record? = none
  shutter  : ∀ x, s.fire.shutter = some x → x.state ≠ .clearing
  notSafe  : s.mode ≠ .fire
  calls    : (s.placement.calls.all fun c => c.state != .waitingEval) = true

/-- The answers after one item that was taken, that was refused, that draws neither, or whose sender is wrong. -/
def took : Answers := Answers.none.note .taken
def refused : Answers := Answers.none.note .refused
def unanswered : Answers := Answers.none.note .silent
def wrongSender : Answers := Answers.none.note .badSender

end Sys2Proof.Safety
end

