-- ==== Sys2Proof/Certificates/Slice0/Obligations.lean ====
section
/-! DEFINITION. The statements for the provers. `entered p h s` is the state in which a heard frame's first item is
dispatched, `follow s h rest a u` what follows that item's effect `u` in a frame heard in the state `s`: the items after it and
the end of the frame's one event; `settle u` is the end of an event that left `u`; the records written out in a statement change nothing but the fields they name. -/

open Sys2Proof Sys2Proof.Machine Sys2Proof.Safety

/-! ## The queue of commands and the clock -/

/-- A step runs the command at the front of the queue on the state with the queue's rest (log 1). -/
def Obligations.StepRunsFrontCommand : Prop :=
  ∀ (s : State) (c : Instr) (rest : List Instr), s.pending = c :: rest → step s = exec c (s.setPending rest)

/-- On an empty queue one millisecond passes, and exactly the timers whose age equals their duration at the new reading have
their expiries in the queue; in reset the clock stands (R153, R156; the queue is the model's choice, log 2). START ends by clock 200:
at that reading the end of the image read stands in the queue, with FFh in every octet, which is the model's choice, log 38; and every
step keeps a station in START at a reading of 200 or below, the end of the read waiting at 200 (R159, R185). -/
def Obligations.EmptyQueueTicksClock : Prop :=
  (∀ s t : State, StartInv s → step s = .next t → StartInv t) ∧
  ∀ s : State, s.pending = [] →
    (s.inReset = true → step s = .next s) ∧
    (s.inReset = false → ∃ q : List Instr,
      let u := { s with clock := s.clock + 1, pending := q }
      step s = .next u ∧
      (Instr.overdueSweepExpiry s.pins ∈ q ↔ timerHits (s.clock + 1) s.planner.sweep = true) ∧
      (Instr.moveBudgetExpiry s.pins ∈ q ↔ timerHits (s.clock + 1) (budgetTimer s) = true) ∧
      (Instr.holdLimitExpiry s.pins ∈ q ↔ timerHits (s.clock + 1) (holdTimer s) = true) ∧
      (Instr.diversionExpiry s.pins ∈ q ↔ timerHits (s.clock + 1) (diversionTimer s) = true) ∧
      (Instr.mergeTransferExpiry s.pins ∈ q ↔ timerHits (s.clock + 1) (mergeTimer s) = true) ∧
      (Instr.mergeWaitExpiry s.pins ∈ q ↔ timerHits (s.clock + 1) s.spine.mergeWait = true) ∧
      (Instr.closingRetryExpiry s.pins ∈ q ↔ timerHits (s.clock + 1) (shutterTimer (·.retry) s) = true) ∧
      (Instr.closeLimitExpiry s.pins ∈ q ↔ timerHits (s.clock + 1) (shutterTimer (·.closeLimit) s) = true) ∧
      (Instr.shutterDriveLimitExpiry s.pins ∈ q ↔ timerHits (s.clock + 1) (shutterTimer (·.driveLimit) s) = true) ∧
      (∀ l : Lane, Instr.transferLimitExpiryOut s.pins l ∈ q ↔ timerHits (s.clock + 1) (outTimer l s) = true) ∧
      (∀ l : Lane, Instr.transferLimitExpiryIn s.pins l ∈ q ↔ timerHits (s.clock + 1) (inTimer l s) = true) ∧
      (∀ l : Lane, Instr.offerRetryExpiry s.pins l ∈ q ↔ timerHits (s.clock + 1) (s.spine.retry l) = true) ∧
      (∀ i : FireInput, Instr.inputFilterExpiry s.pins i ∈ q ↔ timerHits (s.clock + 1) (s.fire.filter i).timer = true) ∧
      (∀ c : Call, Instr.windowExpiry s.pins c ∈ q ↔ timerHits (s.clock + 1) (windowTimer c s) = true) ∧
      (∀ image, Instr.readComplete s.pins image ∈ q ↔
        s.mode = .start ∧ 200 ≤ (s.clock + 1).toNat ∧ image = List.replicate 128 0xFF))

/-- Every command but a reset and the image read answers a next state, reads the pins it carries, and leaves clock, reset
input, loader, configuration and queue as they are (R26, R153, R158). -/
def Obligations.CommandsKeepFixedParts : Prop :=
  ∀ (c : Instr) (s : State), (∀ p, c ≠ .resetRelease p) → (∀ p, c ≠ .resetAssert p) → (∀ p image, c ≠ .readComplete p image) →
    ∃ t, exec c s = .next t ∧ t.clock = s.clock ∧ t.inReset = s.inReset ∧ t.loader = s.loader ∧ t.cfg = s.cfg
      ∧ t.pending = s.pending ∧ t.pins = c.pins

/-- In START and UNCONFIGURED the station takes no item, sends no frame and commands no drive: a command other than a reset, the
image read, a fire input or the sweep changes nothing but the pins as last read (R185, R189). That the same holds while the reset
input is asserted is the model's choice, log 6. -/
def Obligations.SilentUnlessConfigured : Prop :=
  ∀ (c : Instr) (s : State), s.live = false →
    (∀ p, c ≠ .resetRelease p) → (∀ p, c ≠ .resetAssert p) → (∀ p image, c ≠ .readComplete p image) →
    (∀ p i, c ≠ .inputActive p i) → (∀ p i, c ≠ .inputInactive p i) → (∀ p i, c ≠ .inputFilterExpiry p i) →
    (∀ p, c ≠ .overdueSweepExpiry p) →
    exec c s = .next { s with pins := c.pins }

/-! ## Invariants that every step keeps -/

/-- Every step keeps the transmit queue within 12 frames and 6 notices, in class order, with at most one frame on the line
(R163, R175). -/
def Obligations.StepKeepsQueueLimits : Prop := ∀ s t : State, QueueInv s → step s = .next t → QueueInv t

/-- Every step keeps the slot, bin, column load and neighbour tables in the model's own canonical form: keys strictly rising, no
slot and no load listed that an unlisted key reads as (the tables of R1, R9, R12, R170). -/
def Obligations.StepKeepsTableForm : Prop := ∀ s t : State, TablesInv s → step s = .next t → TablesInv t

/-- Every step keeps the open call table within 4 entries, no two of one call, and the sweep cursor in 0..63 (R87, R88, R90);
and the request pool in canonical form and within 48 requests (R64). -/
def Obligations.StepKeepsCallAndPoolLimits : Prop :=
  (∀ s t : State, CallsInv s → step s = .next t → CallsInv t) ∧ ∀ s t : State, PoolInv s → step s = .next t → PoolInv t

/-- Every step keeps the counts of OCCUPIED, RESERVED and BAD slots equal to the numbers of slots in those states, and from
STOCKING on the four counts, EMPTY among them, summing to the 2 Nc Nl slots of the rack (R2, R25). -/
def Obligations.StepKeepsSlotCounts : Prop := ∀ s t : State, CountsInv s → step s = .next t → CountsInv t

/-- Every step keeps a resting crane without a current move (R42, R63). -/
def Obligations.StepKeepsCraneRest : Prop := ∀ s t : State, RestInv s → step s = .next t → RestInv t

/-- The invariants of queue, calls, tables, pool, counts and crane hold in the state after reset, and RESET_RELEASE leaves them
holding with any pins (R25, R63, R86, R104, R127, R151, R178). -/
def Obligations.InvariantsHoldAfterReset : Prop :=
  Inv State.reset ∧ ∀ (p : Pins) (s : State), ∃ t, exec (.resetRelease p) s = .next t ∧ Inv t

/-! ## The end of an event -/

/-- The end of an event. An event that leaves nothing to do ends without a further change. In any event its end touches no alarm
record, no input filter, no neighbour entry, no answer slot, no footing, no stock end and no stop; it leaves the mode but for the
SAFE report of a station in FIRE. Its checks, in the order of log 8: a queued OFFER is withdrawn with its route or its mode; the
crane is given the first of the ready work, which displaces only a staged move of lower rank, LIMITED being set by a held axis
time of a leg scored or staged, of no score where the age limit decides, log 29; what the bin table gives a home bin in UP is
done, its transfer begun where PORT_IN is EMPTY; PORT_OUT is granted DOWN, or DOWN is kept; an OFFER is queued where it is due;
the shutter is cleared; the SAFE report is made; the next call is evaluated (R29, R39, R43, R75 to R78, R89, R111, R113, R121,
R141, R148). The model's choices are that order of the checks, and the work a selection was not asked for after a CANCEL or a
MISMATCH, log 8; the visit made first, by a sequence difference below 2^31, log 11; the events at which a home bin is diverted,
every event of RUN, GUARD and HALTED and here none of a fire mode, and that with PORT_IN not EMPTY its transfer waits, log 16; and
the handoffs that keep the boundary busy, each one out of DOWN or into UP with another station, log 18. An adoption takes the slot
chosen from the port for the record's grade, mass and restricted flag, and enters the bin OUT with its values held, nothing
promised, its slot RESERVED and its share on the column; a record of bin id 0 finds none, log 32. A bin bound for a desk is
offered from DOWN to the down neighbour, or to its desk station where there is none; one bound for another home from UP to the up
neighbour, and to no one where there is none, log 20 (R17, R18, R108). -/
def Obligations.EventEndKeepsRecords : Prop :=
  let higher := fun a b : Rank => a = .urgent ∧ b ≠ .urgent ∨ a = .room ∧ b = .normal
  let chosen := fun (s : State) (here : Pos) (v : Visit) (e : BinEntry) =>
    let ageOf := fun u : Visit => (s.clock - u.stamp).toNat
    let score := fun (u : Visit) (x : BinEntry) => (legTime s.cfg here x.slot.pos true : Int) - (ageOf u / 2 : Nat)
    let first := fun a b : Visit => (b.seq - a.seq).toNat < 2 ^ 31 ∧ a.seq ≠ b.seq
    let limit := s.cfg.ageLimit * 1000
    v ∈ s.planner.visits ∧ v.state = .ready ∧ s.dir.bin v.bin = some e
    ∧ (s.planner.stow = .ready → s.planner.mark = false ∧ v.rank ≠ .normal)
    ∧ ∀ u x, u ∈ s.planner.visits → u ≠ v → u.state = .ready → s.dir.bin u.bin = some x →
      higher v.rank u.rank ∨ v.rank = u.rank ∧
        (limit ≤ ageOf v ∧ (ageOf u < ageOf v ∨ ageOf u = ageOf v ∧ first v u)
          ∨ ageOf v < limit ∧ ageOf u < limit ∧ (score v e < score u x ∨ score v e = score u x ∧ first v u))
  let weighed := fun (s : State) (here : Pos) (v : Visit) =>
    let peers := s.planner.visits.filter fun u => u.state == .ready && u.rank == v.rank && (s.dir.bin u.bin).isSome
    (peers.all fun u => decide ((s.clock - u.stamp).toNat < s.cfg.ageLimit * 1000)) && peers.any fun u => match s.dir.bin u.bin with
      | some x => legHeld s.cfg here x.slot.pos
      | none => false
  (∀ s : State, Quiet s → settle s = s) ∧
  (∀ s : State,
    (settle s).fire.alarms = s.fire.alarms ∧ (settle s).fire.smoke = s.fire.smoke ∧ (settle s).fire.heat = s.fire.heat
    ∧ (settle s).fire.callPoint = s.fire.callPoint ∧ (settle s).line.neighbours = s.line.neighbours
    ∧ (settle s).line.ack = s.line.ack ∧ (settle s).line.obj = s.line.obj ∧ (settle s).line.footing = s.line.footing
    ∧ (settle s).stockEnded = s.stockEnded ∧ (settle s).stopTaken = s.stopTaken
    ∧ ((settle s).mode = s.mode ∨ s.mode = .fire ∧ (settle s).mode = .fireSafe ∧ (settle s).safeMade = true)) ∧
  (∀ s : State, settle s = beginEvaluation (safeCheck (clearCheck (offerLane .up (offerLane .down (mergeArbiter
    (diversionCheck (selectWork (withdrawOffer .up (withdrawOffer .down s)))))))))) ∧
  -- the crane's work
  (∀ s : State, s.crane.staged = none →
    let taking := s.mode.working = true ∧ (s.crane.state = .idle ∧ s.crane.current = none
      ∨ ∃ m, s.crane.current = some m ∧ (s.crane.state = .holding ∨ s.crane.state = .moving ∧ m.kind ≠ .park))
    let cleared := { s.planner with passed := none }
    let atPort := Target.pos ⟨0, s.cfg.portLevel⟩
    (s.mode.working = false ∨ s.crane.state = .stopping ∨ s.crane.state = .parked ∨ s.crane.state = .halted ∨ s.crane.state = .faulted
        ∨ (∃ m, s.crane.state = .moving ∧ s.crane.current = some m ∧ m.kind = .park) →
      selectWork s = { s with planner := cleared }) ∧
    (∀ seen, taking → s.planner.passed = some seen →
      let work := (if s.planner.stow = .ready then [((none : Option Nat), if s.planner.mark = true then 0 else 3)] else [])
        ++ (s.planner.visits.filter fun v => v.state == .ready).map fun v =>
          (some v.number, match v.rank with | .urgent => 1 | .room => 2 | .normal => 4)
      let new := ∃ w, w ∈ work ∧ ∀ x, x ∈ seen → x.1 = w.1 → w.2 < x.2
      (s.crane.state = .idle ∨ new → selectWork s = selectWork { s with planner := cleared }) ∧
      (s.crane.state ≠ .idle → ¬ new → selectWork s = { s with planner := { s.planner with passed := some work } })) ∧
    (taking → s.planner.passed = none →
      (s.planner.stow ≠ .ready → (∀ v, v ∈ s.planner.visits → v.state ≠ .ready) → selectWork s = s) ∧
      (s.planner.stow = .ready → (s.planner.mark = true ∨ ∀ v, v ∈ s.planner.visits → v.state = .ready → v.rank = .normal) →
        (s.crane.state = .idle → selectWork s = makeCurrent .takeIn atPort none false s) ∧
        (∀ m, s.crane.current = some m → s.crane.state ≠ .idle →
          let held := s.limited || legHeld s.cfg m.target.at ⟨0, s.cfg.portLevel⟩
          let est := legTime s.cfg m.target.at ⟨0, s.cfg.portLevel⟩ true
          selectWork s = { s with
            limited := held, planner := { s.planner with stow := .staged }
            crane := { s.crane with staged := some ⟨.takeIn, atPort, none, false, est, none⟩ } })) ∧
      ∀ v e here, here = (match s.crane.current with
          | some m => m.target.at
          | none => ⟨hold 0 s.cfg.nc s.pins.encCol, hold 1 s.cfg.nl s.pins.encLevel⟩) →
        chosen s here v e →
        (s.crane.state = .idle → selectWork s =
          makeCurrent .fetch (.slot e.slot) (some v.number) false { s with limited := s.limited || weighed s here v }) ∧
        ∀ m, s.crane.current = some m → s.crane.state ≠ .idle → selectWork s = { s with
          limited := s.limited || weighed s here v || legHeld s.cfg m.target.at e.slot.pos
          crane := { s.crane with
            staged := some ⟨.fetch, .slot e.slot, some v.number, false, legTime s.cfg m.target.at e.slot.pos true, none⟩ }
          planner := { s.planner with visits := s.planner.visits.map fun w =>
            if w.number = v.number then { w with state := .staged } else w } })) ∧
  (∀ (m : Move) (s : State), s.crane.staged = some m →
    (s.mode.working = false ∨ m.bound = true → selectWork s = s) ∧
    (∀ n w, m.visit = some n → s.planner.visit n = some w →
      (∀ v, v ∈ s.planner.visits → v.state = .ready → ¬ higher v.rank w.rank) →
      (s.planner.stow = .ready → s.planner.mark = false ∧ w.rank ≠ .normal) → selectWork s = s) ∧
    (∀ n w cur, s.mode.working = true → m.bound = false → m.kind = .fetch → m.visit = some n → s.planner.visit n = some w →
      s.crane.current = some cur →
      (s.planner.stow = .ready → (s.planner.mark = true ∨ w.rank = .normal ∧ ∀ v, v ∈ s.planner.visits → v.state = .ready →
          v.rank = .normal) → selectWork s = handBack n { s with
        limited := s.limited || legHeld s.cfg cur.target.at ⟨0, s.cfg.portLevel⟩, planner := { s.planner with stow := .staged }
        crane := { s.crane with staged := some ⟨.takeIn, .pos ⟨0, s.cfg.portLevel⟩, none, false,
          legTime s.cfg cur.target.at ⟨0, s.cfg.portLevel⟩ true, none⟩ } }) ∧
      ∀ v e, chosen s m.target.at v e → higher v.rank w.rank → selectWork s = handBack n { s with
        limited := s.limited || weighed s m.target.at v || legHeld s.cfg cur.target.at e.slot.pos
        crane := { s.crane with
          staged := some ⟨.fetch, .slot e.slot, some v.number, false, legTime s.cfg cur.target.at e.slot.pos true, none⟩ }
        planner := { s.planner with visits := s.planner.visits.map fun w =>
          if w.number = v.number then { w with state := .staged } else w } }) ∧
    (∀ cur, s.mode.working = true → m.bound = false → m.kind = .takeIn → m.visit = none → s.planner.stow = .staged →
      s.crane.current = some cur →
      (s.planner.mark = true ∨ (∀ v, v ∈ s.planner.visits → v.state = .ready → v.rank = .normal) → selectWork s = s) ∧
      ∀ v e, s.planner.mark = false → v.rank ≠ .normal → chosen s m.target.at v e → selectWork s = { s with
        limited := s.limited || weighed s m.target.at v || legHeld s.cfg cur.target.at e.slot.pos
        crane := { s.crane with
          staged := some ⟨.fetch, .slot e.slot, some v.number, false, legTime s.cfg cur.target.at e.slot.pos true, none⟩ }
        planner := { s.planner with
          stow := .ready
          visits := s.planner.visits.map fun w => if w.number = v.number then { w with state := .staged } else w } })) ∧
  -- the spine
  (∀ (cfg : StationConfig) (now : Time) (d : Directory) (r : TravelRecord) (loc : Location),
    let g := gradeOf cfg (hold 1 4 r.grade)
    let slot := d.chooseSlot cfg r.restricted (g.tare + r.mass) ⟨0, cfg.portLevel⟩
    (r.bin = 0 ∨ slot = none → d.adopt cfg now r loc = none) ∧
    ∀ sl, r.bin ≠ 0 → slot = some sl → tblWf d.loads = true → ∃ t, d.adopt cfg now r loc = some t
      ∧ t.bin r.bin = some { grade := hold 1 4 r.grade, fill := min r.fill g.capacity, mass := min r.mass g.massLimit
                             count := min r.count 63, restricted := r.restricted, slot := sl, status := .out loc now
                             overdue := false, promVolume := 0, promMass := 0, doubt := false }
      ∧ t.slotRec sl = ⟨.reserved r.bin, false⟩ ∧ t.load sl = d.load sl + (g.tare + min r.mass g.massLimit)
      ∧ (∀ x, x ≠ r.bin → t.bin x = d.bin x) ∧ (∀ x, slotKey x ≠ slotKey sl → t.slotRec x = d.slotRec x)
      ∧ (∀ x, faceKey x ≠ faceKey sl → t.load x = d.load x) ∧ t.cursor = d.cursor) ∧
  (∀ (cfg : StationConfig) (r : TravelRecord),
    (∀ k : Desk, r.dest = .desk k →
      offerPeer cfg .down r = some (if cfg.down = 63 then 48 + k.val else cfg.down) ∧ offerPeer cfg .up r = none) ∧
    (r.dest = .home → offerPeer cfg .down r = none ∧
      offerPeer cfg .up r = if cfg.up = 63 ∨ r.home = cfg.station then none else some cfg.up)) ∧
  (∀ (l : Lane) (s : State),
    let place := match l with | .down => s.spine.down | .up => s.spine.up
    let out := match l with | .down => s.spine.outDown | .up => s.spine.outUp
    let retry := match l with | .down => s.spine.retryDown | .up => s.spine.retryUp
    let gone := { s with line := { s.line with queue := s.line.queue.filter fun f => !(f.onLine.isNone && f.owner == .offer l) } }
    (∀ r, place = .holding r → s.mode.working = true → routeOpenFor s r = true → withdrawOffer l s = s) ∧
    (s.mode.working = false ∨ (∀ r, place ≠ .holding r) → withdrawOffer l s = gone) ∧
    (∀ r, place = .holding r → routeOpenFor s r = false → withdrawOffer l s = gone ∧ offerLane l s = s) ∧
    (∀ r peer, place = .holding r → offerPeer s.cfg l r = some peer → s.mode.working = true → routeOpenFor s r = true →
      (out = none → retry = none → (∀ f, f ∈ s.line.queue → f.owner ≠ .offer l) →
        offerLane l s = queueFrame (frameOf (.offer r) peer (.offer l)) s) ∧
      (out ≠ none ∨ retry ≠ none ∨ (∃ f, f ∈ s.line.queue ∧ f.owner = .offer l) → offerLane l s = s))) ∧
  (∀ s : State,
    (∀ r, s.spine.portOut = .holding r → s.mode.working = true → downOpen s = true → s.spine.down = .empty → s.spine.kept = false →
      (s.spine.waiting = false ∨ s.spine.lastGrant = .upNeighbour → mergeArbiter s = { s with spine := { s.spine with
        down := .reserved, inDown := some ⟨r.bin, s.cfg.station, ⟨s.clock, s.cfg.transferLimit * 1000⟩, none⟩
        lastGrant := .portOut, drivePortOut := true, driveDown := true } }) ∧
      (s.spine.waiting = true → s.spine.lastGrant = .portOut → mergeArbiter s = { s with spine := { s.spine with
        kept := true, mergeWait := some ⟨s.clock, s.cfg.offerRetry⟩ } })) ∧
    (s.spine.down ≠ .empty ∨ s.spine.kept = true ∨ s.mode.working = false ∨ downOpen s = false
        ∨ (∀ r, s.spine.portOut ≠ .holding r) → mergeArbiter s = s) ∧
    (∀ r, s.mode.working = true ∨ s.mode = .halted → s.spine.up = .holding r → r.dest = .home → r.home = s.cfg.station →
      s.pins.up.position = true → s.spine.outUp = none →
      let started := fun u : State => if s.spine.portIn = .empty then { u with spine := { s.spine with
        outUp := some ⟨r.bin, s.cfg.station, ⟨s.clock, s.cfg.transferLimit * 1000⟩, none⟩, drivePortIn := true, driveUp := true } }
        else u
      let blocked := fun (slot : SlotName) (u : State) => faultNotice { faultBody .storeBlocked with bin := r.bin, slotA := slot }
        { u with spine := { s.spine with up := .blocked (some r) none, driveUp := false } }
      let asked := { s with limited := s.limited || s.dir.adoptHeld s.cfg r }
      (∀ x loc since, s.dir.bin r.bin = some x → x.status = .out loc since → diversionCheck s = started s) ∧
      (∀ x, s.dir.bin r.bin = some x → x.status = .stored → diversionCheck s = blocked x.slot.name s) ∧
      (∀ d, s.dir.bin r.bin = none → s.dir.adopt s.cfg s.clock r (.lane s.cfg.station .up) = some d →
        diversionCheck s = started { asked with dir := d }) ∧
      (s.dir.bin r.bin = none → s.dir.adopt s.cfg s.clock r (.lane s.cfg.station .up) = none →
        diversionCheck s = blocked ⟨.none, 0, 0⟩ asked)) ∧
    (s.mode.fiery = true ∨ s.mode = .stocking ∨ s.pins.up.position = false ∨ s.spine.outUp ≠ none
        ∨ (∀ r, s.spine.up = .holding r → r.dest ≠ .home ∨ r.home ≠ s.cfg.station) → diversionCheck s = s)) ∧
  -- shutter, SAFE report, evaluation
  (∀ (x : Shutter) (s : State), s.fire.shutter = some x →
    let quiet := (∀ y, s.spine.outDown = some y → y.peer = s.cfg.station) ∧ (∀ y, s.spine.inUp = some y → y.peer = s.cfg.station)
    (x.state = .clearing → quiet → s.pins.boundary = false →
      (s.cfg.down = 63 → clearCheck s = { s with fire := { s.fire with shutter := some { x with
        state := .closingDrive, driveLimit := some ⟨s.clock, s.cfg.driveLimit * 1000⟩, retry := none } } }) ∧
      (s.cfg.down ≠ 63 → x.retry = none → (∀ f seg, f ∈ s.line.queue → Item.closing seg ∉ f.items) →
        clearCheck s = queueFrame (frameOf (.closing s.cfg.segment) s.cfg.down .closing) s) ∧
      (s.cfg.down ≠ 63 → x.retry ≠ none ∨ (∃ f seg, f ∈ s.line.queue ∧ Item.closing seg ∈ f.items) → clearCheck s = s)) ∧
    (x.state ≠ .clearing ∨ ¬ quiet ∨ s.pins.boundary = true → clearCheck s = s)) ∧
  (∀ s : State,
    let safe := s.mode = .fire ∧ (s.crane.state = .parked ∨ s.crane.state = .halted ∨ s.crane.state = .faulted)
      ∧ s.spine.inDown = none ∧ s.spine.inUp = none ∧ s.spine.outDown = none ∧ s.spine.outUp = none
      ∧ ∀ x, s.fire.shutter = some x → x.state = .shut ∨ x.state = .faultDrive .closing
    let c := ownComp s.cfg
    (safe → safeCheck s = queueFrame (frameOf (.safe ⟨c, (s.fire.alarms.get c).epoch, s.cfg.station⟩) 63 .plain)
      { s with safeMade := true, mode := .fireSafe }) ∧
    (¬ safe → safeCheck s = s)) ∧
  ∀ s : State,
    ((∃ x, x ∈ s.placement.calls ∧ x.state = .evaluating) ∨ (∀ x, x ∈ s.placement.calls → x.state ≠ .waitingEval) →
      beginEvaluation s = s) ∧
    ∀ x, (∀ y, y ∈ s.placement.calls → y.state ≠ .evaluating) →
      s.placement.calls.find? (fun y => y.state == .waitingEval) = some x →
      beginEvaluation s = { s with placement := { s.placement with calls := s.placement.calls.map fun y =>
        if y.call = x.call then { y with state := .evaluating } else y } }

/-! ## Frames on the line -/

/-- Decoding gives back what was encoded: the bits of a frame that carries the items of a well-formed command, one control
octet each, are that command at every other station (R162, R164, R167, R179 to R183). -/
def Obligations.EncodedFrameDecodes : Prop :=
  ∀ (own : Nat) (c : Instr) (h : Header) (items : List Item),
    c.wf = true → c.frame = some (h, items) → items ≠ [] → h.sender ≠ own → (encodeChain items).length ≤ 64 →
    heardCommand own c.pins (encodeFrame h (encodeChain items)) = some c

/-- A run of bodies of one code under one control octet decodes to those items (R167). -/
def Obligations.EncodedRunDecodes : Prop :=
  ∀ (i : Item) (rest : List Item), i.size ≠ 0 → (∀ j ∈ i :: rest, j.code = i.code ∧ j.fits = true) →
    decodeStream (encodeRun (i :: rest)) = i :: rest

/-- A frame heard with a good check enters its sender's word and the stamp of the event in the neighbour table, whatever its
address and items, and touches no other entry (R170). -/
def Obligations.HeardFrameEntersNeighbour : Prop :=
  ∀ (c : Instr) (h : Header) (items : List Item) (s : State), c.frame = some (h, items) → Hears h s →
    ∃ t, exec c s = .next t ∧ tblGet t.line.neighbours h.sender = some (h.cond, s.clock)
      ∧ ∀ n, n ≠ h.sender → tblGet t.line.neighbours n = tblGet s.line.neighbours n

/-! ## Travel estimates, slots, holds, and the search -/

/-- The axis time of R28: 0 for no distance, the trapezoid's quotient rounded up, or the least integer whose square is at
least 4,000,000 d / a rounded up; a longer distance never gives a shorter time. A leg takes the greater of its two axis times, each
held at 65,535, with the settle time and, but for a PARK, the fork time; asking for it sets LIMITED where an axis time was held. -/
def Obligations.AxisTimeExact : Prop :=
  (∀ d v a : Nat, 0 < v → 0 < a →
    (d = 0 → axisExact d v a = 0) ∧
    (0 < d → v * v ≤ d * a →
      1000 * (d * a + v * v) ≤ axisExact d v a * (v * a)
        ∧ ∀ t, 1000 * (d * a + v * v) ≤ t * (v * a) → axisExact d v a ≤ t) ∧
    (0 < d → d * a < v * v →
      ∃ q, 4000000 * d ≤ q * a ∧ (∀ x, 4000000 * d ≤ x * a → q ≤ x)
        ∧ q ≤ axisExact d v a * axisExact d v a ∧ ∀ t, q ≤ t * t → axisExact d v a ≤ t) ∧
    ∀ d', d ≤ d' → axisExact d v a ≤ axisExact d' v a) ∧
  ∀ (p q : Pos) (fork : Bool) (s : State),
    let tx := axisExact ((max p.col q.col - min p.col q.col) * s.cfg.pc) s.cfg.vx s.cfg.ax
    let ty := axisExact ((max p.level q.level - min p.level q.level) * s.cfg.pl) s.cfg.vy s.cfg.ay
    let leg := max (min 65535 tx) (min 65535 ty) + s.cfg.settleTime + (if fork = true then s.cfg.forkTime else 0)
    legTime s.cfg p q fork = leg ∧ (legHeld s.cfg p q = true ↔ 65535 < tx ∨ 65535 < ty)
    ∧ (65535 < tx ∨ 65535 < ty → askLeg p q fork s = (leg, { s with limited := true }))
    ∧ (tx ≤ 65535 → ty ≤ 65535 → askLeg p q fork s = (leg, s))

/-- The slot chosen for a bin: a slot of the rack that is EMPTY without doubt, whose lock state matches the restricted flag and
whose column face bears the bin's share, of least leg from the start position, ties going to the lowest column, then level,
then face L; none is chosen only where no such slot stands (R17). A slot's column is locked where it lies in the set of its face's lock
code, or, with the complement bit, where it does not: none, the last or the first eighth, quarter or half of the columns, at least
one, or all (R7). -/
def Obligations.ChosenSlotIsNearest : Prop :=
  (∀ (cfg : StationConfig) (sl : Slot),
    let lock := match sl.face with | .L => cfg.lockL | .R => cfg.lockR
    let run := fun n : Nat => max 1 (cfg.nc / n)
    let inSet := (lock.code = 1 ∧ cfg.nc - run 8 + 1 ≤ sl.col) ∨ (lock.code = 2 ∧ cfg.nc - run 4 + 1 ≤ sl.col)
      ∨ (lock.code = 3 ∧ cfg.nc - run 2 + 1 ≤ sl.col) ∨ (lock.code = 4 ∧ sl.col ≤ run 8) ∨ (lock.code = 5 ∧ sl.col ≤ run 4)
      ∨ (lock.code = 6 ∧ sl.col ≤ run 2) ∨ lock.code = 7
    lock.code ≤ 7 → 1 ≤ sl.col → sl.col ≤ cfg.nc →
      (lock.complement = false → (lockedSlot cfg sl = true ↔ inSet)) ∧
      (lock.complement = true → (lockedSlot cfg sl = true ↔ ¬ inSet))) ∧
  ∀ (cfg : StationConfig) (d : Directory) (restricted : Bool) (share : Nat) (start : Pos),
    let fitting := fun sl : Slot => inRack cfg sl = true ∧ d.slotRec sl = ⟨.empty, false⟩ ∧ lockedSlot cfg sl = restricted
      ∧ d.load sl + share ≤ cfg.columnMassLimit
    let leg := fun sl : Slot => legTime cfg start sl.pos true
    (d.chooseSlot cfg restricted share start = none ↔ ∀ sl, ¬ fitting sl) ∧
    ∀ sl, d.chooseSlot cfg restricted share start = some sl → fitting sl ∧ ∀ x, fitting x →
      leg sl < leg x ∨ leg sl = leg x ∧ (sl.col < x.col ∨ sl.col = x.col ∧ (sl.level < x.level ∨
        sl.level = x.level ∧ (sl.face = .L ∨ x.face = .R)))

/-- A hold is placed exactly where its bin is STORED without doubt and the three sums stay within capacity, mass limit and
column mass limit; it adds to the promised fields and the column load alone; its release brings every entry, slot and load
back (R11). -/
def Obligations.HoldPlacedAndReleased : Prop :=
  ∀ (cfg : StationConfig) (d : Directory) (b v m : Nat) (e : BinEntry), d.bin b = some e →
    ((d.placeHold cfg b v m).isSome = true ↔ e.status = .stored ∧ e.doubt = false
      ∧ e.fill + e.promVolume + v ≤ (gradeOf cfg e.grade).capacity
      ∧ e.mass + e.promMass + m ≤ (gradeOf cfg e.grade).massLimit ∧ d.load e.slot + m ≤ cfg.columnMassLimit) ∧
    ∀ d', d.placeHold cfg b v m = some d' → tblWf d.loads = true →
      d'.bin b = some { e with promVolume := e.promVolume + v, promMass := e.promMass + m }
      ∧ (∀ x, x ≠ b → d'.bin x = d.bin x) ∧ d'.load e.slot = d.load e.slot + m
      ∧ (∀ sl, faceKey sl ≠ faceKey e.slot → d'.load sl = d.load sl)
      ∧ d'.slots = d.slots ∧ d'.counts = d.counts ∧ d'.cursor = d.cursor
      ∧ (∀ x, (d'.releaseHold b v m).bin x = d.bin x) ∧ (∀ sl, (d'.releaseHold b v m).load sl = d.load sl)
      ∧ (d'.releaseHold b v m).slots = d.slots

/-- Take-out and store: a STORED bin taken out leaves its slot RESERVED for it and goes OUT on the crane with the stamp of the
event, its column load unchanged; stored again without content values or room part it stands in its slot as before; every
other bin, slot and load stays; a take-out of an OUT bin and a store of a STORED bin are refused. A store takes a room part off the
promised fields first, then holds the content values it carries at what capacity and mass limit leave, the restricted flag as carried,
and the column load moves with the bin's share. A store that is made releases the bin's visits in WAITING_BIN by the readiness test and
queues BIN_STORED; a bin that stops being fetchable sends its READY and WAITING_ROUTE visits to WAITING_BIN. A locate gives an OUT bin
the location asked and leaves its out-since as it is; for a STORED or an absent bin it changes nothing (R13, R14, R16, R58, R68, R73,
R103). -/
def Obligations.TakeOutAndStore : Prop :=
  (∀ (cfg : StationConfig) (now : Time) (d : Directory) (b : Nat) (e : BinEntry),
    d.bin b = some e → tblWf d.slots = true → tblWf d.loads = true → binShare cfg e ≤ d.load e.slot →
    (e.isOut = true → d.takeOut now b = none) ∧
    (e.isOut = false → d.store cfg b none none = none ∧ ∃ d', d.takeOut now b = some d' ∧
      d'.bin b = some { e with status := .out .crane now, overdue := false }
      ∧ d'.slotRec e.slot = ⟨.reserved b, false⟩ ∧ d'.loads = d.loads ∧ d'.cursor = d.cursor
      ∧ (∀ x, x ≠ b → d'.bin x = d.bin x) ∧ (∀ sl, slotKey sl ≠ slotKey e.slot → d'.slotRec sl = d.slotRec sl)
      ∧ ∃ d'', d'.store cfg b none none = some d'' ∧ d''.bin b = some { e with overdue := false }
        ∧ d''.slotRec e.slot = ⟨.occupied b, false⟩ ∧ (∀ sl, d''.load sl = d.load sl)
        ∧ (∀ x, x ≠ b → d''.bin x = d.bin x) ∧ ∀ sl, slotKey sl ≠ slotKey e.slot → d''.slotRec sl = d.slotRec sl)) ∧
  (∀ (d : Directory) (b : Nat) (loc : Location),
    (d.bin b = none → d.locate b loc = d) ∧
    ∀ e, d.bin b = some e →
      (e.status = .stored → d.locate b loc = d) ∧
      ∀ old since, e.status = .out old since →
        let t := d.locate b loc
        t.bin b = some { e with status := .out loc since } ∧ (∀ x, x ≠ b → t.bin x = d.bin x)
        ∧ t.slots = d.slots ∧ t.counts = d.counts ∧ t.loads = d.loads ∧ t.cursor = d.cursor) ∧
  (∀ (cfg : StationConfig) (d : Directory) (b : Nat) (e : BinEntry) (content : Option Contents) (room : Option (Nat × Nat)),
    d.bin b = some e → tblWf d.slots = true → tblWf d.loads = true →
    let promVolume := match room with | some r => e.promVolume - r.1 | none => e.promVolume
    let promMass := match room with | some r => e.promMass - r.2 | none => e.promMass
    let kept := { e with promVolume := promVolume, promMass := promMass, status := .stored, overdue := false }
    let x := match content with
      | some c => { kept with
        fill := min c.fill ((gradeOf cfg e.grade).capacity - promVolume)
        mass := min c.mass ((gradeOf cfg e.grade).massLimit - promMass)
        count := min c.count 63, restricted := c.restricted }
      | none => kept
    (e.status = .stored → d.store cfg b content room = none) ∧
    ∀ loc since, e.status = .out loc since → ∃ d', d.store cfg b content room = some d' ∧ d'.bin b = some x
      ∧ d'.slotRec e.slot = ⟨.occupied b, false⟩
      ∧ d'.load e.slot = d.load e.slot - ((gradeOf cfg e.grade).tare + e.mass + e.promMass)
        + ((gradeOf cfg e.grade).tare + x.mass + x.promMass)
      ∧ (∀ sl, faceKey sl ≠ faceKey e.slot → d'.load sl = d.load sl) ∧ (∀ y, y ≠ b → d'.bin y = d.bin y)
      ∧ (∀ sl, slotKey sl ≠ slotKey e.slot → d'.slotRec sl = d.slotRec sl) ∧ d'.cursor = d.cursor) ∧
  ∀ (u : State) (b : Nat),
    let visits := fun f : Visit → Visit => u.planner.visits.map fun v => if v.bin = b then f v else v
    (∀ content room, u.dir.store u.cfg b content room = none → storeBin b content room u = u) ∧
    (∀ content room d x, u.dir.store u.cfg b content room = some d → d.bin b = some x →
      storeBin b content room u = notice [.binStored ⟨b, x.slot.name⟩] { u with
        dir := d
        planner := { u.planner with visits := visits fun v => if v.state = .waitingBin
          then { v with state := readiness { u with dir := d } b } else v } }) ∧
    (∀ x, u.dir.bin b = some x → readiness u b =
      if x.status = .stored ∧ x.doubt = false then (if downOpen u = true then .ready else .waitingRoute) else .waitingBin) ∧
    (u.dir.bin b = none → readiness u b = .waitingBin) ∧
    releaseBin b u = { u with planner := { u.planner with visits := visits fun v =>
      if v.state = .waitingBin then { v with state := readiness u b } else v } } ∧
    withholdBin b u = { u with planner := { u.planner with visits := visits fun v =>
      if v.state = .ready ∨ v.state = .waitingRoute then { v with state := .waitingBin } else v } }

/-- A search of R90: it makes `n` steps, at most 64, from the cursor; a step examines column rev6(r) + 1 where that is a column
of the rack; it stops once K columns have counted, or after 64 steps; no column is examined twice, and K at or above Nc
examines every one; the cursor keeps the value reached and, but for a reset, moves at an evaluation done with a search alone. -/
def Obligations.SearchExaminesColumns : Prop :=
  (∀ r k, r < 64 → k < 6 → (rev6 r).testBit k = r.testBit (5 - k)) ∧
  (∀ nc span r : Nat, 1 ≤ nc → nc ≤ 64 → 4 ≤ span → span ≤ 64 → r < 64 →
    let steps := fun n => ((List.range n).map fun i => rev6 ((r + i) % 64) + 1).filter fun col => decide (col ≤ nc)
    ∃ n, n ≤ 64 ∧ sweepColumns nc 64 span r = (steps n, (r + n) % 64)
      ∧ (steps n).length ≤ span ∧ ((steps n).length = span ∨ n = 64) ∧ (∀ k, k < n → (steps k).length < span)
      ∧ (steps n).Nodup ∧ (nc ≤ span → ∀ col, 1 ≤ col → col ≤ nc → col ∈ steps n)) ∧
  (∀ (p : Pins) (s : State), s.live = true → ∃ t, exec (.evaluationDone p) s = .next t ∧
    (∀ c, evaluating s.placement = some c →
      t.placement.sweep = (sweepColumns s.cfg.nc 64 s.cfg.searchSpan s.placement.sweep).2) ∧
    (evaluating s.placement = none → t.placement.sweep = s.placement.sweep)) ∧
  ∀ (c : Instr) (s t : State), (∀ p, c ≠ .evaluationDone p) → (∀ p, c ≠ .resetRelease p) → (∀ p, c ≠ .resetAssert p) →
    exec c s = .next t → t.placement.sweep = s.placement.sweep

/-- Clamping holds every field of the configuration at the nearest limit of its range, so that a value within the range is kept and
a constant stands for none; a neighbour above 47 is held at 63, a used compartment map entry above 47 at 47; the lock codes and the
restricted desks stand as read; the port level and the park level are held in the clamped number of levels (R26, R187). -/
def Obligations.ClampedWithinRanges : Prop :=
  (∀ lo hi x : Nat, lo ≤ hi → lo ≤ hold lo hi x ∧ hold lo hi x ≤ hi ∧ (lo ≤ x → x ≤ hi → hold lo hi x = x)
    ∧ (x < lo → hold lo hi x = lo) ∧ (hi < x → hold lo hi x = hi)) ∧
  ∀ raw : StationConfig, let c := clampConfig raw
    let neighbour := fun x : Nat => if x ≤ 47 then x else 63
    let grade := fun g : Grade => (⟨hold 8 64 g.capacity, hold 50 500 g.massLimit, hold 10 200 g.tare⟩ : Grade)
    (c.station = hold 0 47 raw.station ∧ c.segment = hold 0 47 raw.segment ∧ c.up = neighbour raw.up
      ∧ c.down = neighbour raw.down ∧ c.lineRate = hold 0 2 raw.lineRate
      ∧ ∀ i : Fin 8, (raw.compMap.get i = none → c.compMap.get i = none)
        ∧ ∀ x, raw.compMap.get i = some x → c.compMap.get i = some (hold 0 47 x)) ∧
    (c.nc = hold 4 64 raw.nc ∧ c.nl = hold 2 24 raw.nl ∧ c.pc = hold 400 2000 raw.pc ∧ c.pl = hold 200 800 raw.pl
      ∧ c.portLevel = hold 1 c.nl raw.portLevel ∧ c.parkCol = hold 0 c.nc raw.parkCol ∧ c.parkLevel = hold 1 c.nl raw.parkLevel
      ∧ c.vx = hold 500 6000 raw.vx ∧ c.ax = hold 200 3000 raw.ax ∧ c.vy = hold 200 3000 raw.vy ∧ c.ay = hold 200 2000 raw.ay
      ∧ c.settleTime = hold 0 2000 raw.settleTime ∧ c.forkTime = hold 500 10000 raw.forkTime
      ∧ c.slack = hold 200 5000 raw.slack ∧ c.holdLimit = hold 5 120 raw.holdLimit) ∧
    (c.grade1 = grade raw.grade1 ∧ c.grade2 = grade raw.grade2 ∧ c.grade3 = grade raw.grade3 ∧ c.grade4 = grade raw.grade4
      ∧ c.columnMassLimit = hold 500 65535 raw.columnMassLimit ∧ c.lockL = raw.lockL ∧ c.lockR = raw.lockR
      ∧ c.restrictedDesks = raw.restrictedDesks ∧ c.searchSpan = hold 4 64 raw.searchSpan) ∧
    (c.passTime = hold 1000 20000 raw.passTime ∧ c.transferLimit = hold 2 30 raw.transferLimit
      ∧ c.offerRetry = hold 200 5000 raw.offerRetry ∧ c.ageLimit = hold 60 1800 raw.ageLimit
      ∧ c.outLimit = hold 10 1440 raw.outLimit ∧ c.fireGrace = hold 0 30 raw.fireGrace ∧ c.closeLimit = hold 10 120 raw.closeLimit
      ∧ c.driveLimit = hold 2 30 raw.driveLimit ∧ c.closingRetry = hold 250 2000 raw.closingRetry
      ∧ c.gateway1 = hold 0 62 raw.gateway1 ∧ c.gateway2 = hold 0 62 raw.gateway2 ∧ c.firePanel = hold 0 62 raw.firePanel) ∧
    spineTerm c ≤ 940000 ∧ clampConfig c = c

/-- The mode derived: FIRE or FIRE_SAFE while the own compartment is alarmed, else STOCKING before the stock end, HALTED under a
STOP, GUARD under another alarm, RUN; an unchanged mode touches nothing, and a changed one touches no alarm record and no route. A
change out of RUN and GUARD closes the open calls but those with their CLAIM on the line; an entry to FIRE discards the staged
move, sends a resting or waiting crane to the park position, and lets a moving one finish within the fire grace or stops it; the
remaining time that this asks for sets LIMITED where the move's estimate held an axis time, log 29. That a crane STOPPING under an
earlier fire order stays as it is, is the model's choice, log 48 (R29, R33, R99, R132, R134). -/
def Obligations.ModeDerived : Prop :=
  (∀ s : State,
    (deriveMode s).mode = (if s.fire.alarmed (ownComp s.cfg) then (if s.safeMade then .fireSafe else .fire)
      else if s.stockEnded = false then .stocking else if s.stopTaken then .halted
      else if ∃ c : Compartment, s.fire.alarmed c = true then .guard else .run)
    ∧ (newMode s = s.mode → deriveMode s = s) ∧ (deriveMode s).fire = s.fire ∧ (deriveMode s).spine.routeOpen = s.spine.routeOpen
    ∧ deriveMode s = enterFire s.mode (leaveWorking s.mode (s.setMode (newMode s)))) ∧
  (∀ (old : Mode) (s : State),
    (old.working = false ∨ s.mode.working = true → leaveWorking old s = s) ∧
    (old.fiery = true ∨ s.mode.fiery = false → enterFire old s = s) ∧
    (old.fiery = false → s.mode.fiery = true → enterFire old s = craneEntersFire s) ∧
    (old.working = true → s.mode.working = false → CallsInv s →
      let closing := s.placement.calls.filter fun x => x.state != .claimSent
      let held := fun (d : Directory) (x : CallEntry) => match x.own with
        | some (_, b) => if x.writtenOff then d else d.releaseHold b x.volume x.mass
        | none => d
      let reserved := fun (l : List (Nat × Desk)) (x : CallEntry) => match x.own with
        | some (_, b) => if x.state = .claimQueued then l.erase (b, x.call.desk) else l
        | none => l
      leaveWorking old s = { s with
        line := { s.line with queue := s.line.queue.filter fun f => !(f.onLine.isNone && closing.any fun x =>
          (x.state == .bidQueued || x.state == .claimQueued) && (f.owner == .bid x.call || f.owner == .claim x.call)) }
        dir := closing.foldl held s.dir
        planner := { s.planner with reservations := closing.foldl reserved s.planner.reservations }
        placement := { s.placement with calls := s.placement.calls.filter fun x => x.state == .claimSent } })) ∧
  ∀ s : State,
    (∀ m, s.crane.staged = some m →
      let empty := { s with crane := { s.crane with staged := none } }
      craneEntersFire s = craneEntersFire (discardStaged s) ∧
      (m.bound = true → discardStaged s = empty) ∧
      (∀ n, m.bound = false → m.kind = .fetch → m.visit = some n → discardStaged s = handBack n empty) ∧
      (m.bound = false → m.kind = .takeIn → s.planner.stow = .staged →
        discardStaged s = { empty with planner := { s.planner with stow := .ready } })) ∧
    (s.crane.staged = none →
      (s.crane.state = .idle → craneEntersFire s = park s) ∧
      (∀ m, s.crane.state = .holding → s.crane.current = some m → craneEntersFire s =
        park { visitTo m.visit .onCrane s with crane := { s.crane with current := none, holdTimer := none } }) ∧
      (∀ m t, s.crane.state = .moving → s.crane.current = some m → m.kind ≠ .park → m.timer = some t →
        (m.estimate - (s.clock - t.start).toNat ≤ s.cfg.fireGrace * 1000 →
          craneEntersFire s = { s with
            limited := s.limited || s.crane.estimateHeld, crane := { s.crane with fireFinish := true } }) ∧
        (s.cfg.fireGrace * 1000 < m.estimate - (s.clock - t.start).toNat → craneEntersFire s = { s with
          limited := s.limited || s.crane.estimateHeld
          crane := { s.crane with state := .stopping, fireStop := true, drive := .controlledStop } })) ∧
      (s.crane.state = .stopping ∨ s.crane.state = .parked ∨ s.crane.state = .halted ∨ s.crane.state = .faulted
          ∨ (∃ m, s.crane.state = .moving ∧ s.crane.current = some m ∧ m.kind = .park) → craneEntersFire s = s))

/-- The down route is open exactly where no compartment from the desk end to the own segment is alarmed and every boundary on the way
shows OPEN, the own by its shutter, another by its owner's last condition word. The route test: where the down route stands as last
reported nothing changes; where it has opened the waiting visits take the readiness test; where it has closed the READY visits wait
for it, and the open calls but those with a CLAIM close, their BIDs withdrawn and their holds released. The up route
toward a home station is tested in the same way from the own segment on, and a bin at its own home has an open route; an OFFER of an
aisle station crosses no boundary, or only such as show OPEN with no alarm beside them (R74, R108, R109, R115, R137; a segment below
every used map entry, log 35). -/
def Obligations.RouteRetested : Prop :=
  (∀ (s : State) (r : TravelRecord),
    let quiet := fun j : Nat => ∀ c, compOf s.cfg j = some c → (s.fire.alarms.get c).alarmed = false
    let shown := fun b : Nat => if b = s.cfg.segment then ∃ x, s.fire.shutter = some x ∧ x.state = .isOpen
      else ∃ w t, tblGet s.line.neighbours b = some (w, t) ∧ w.toNat / 8 % 4 = 1
    (∀ d, r.dest = .desk d → routeOpenFor s r = downOpen s) ∧
    (r.dest = .home → (routeOpenFor s r = true ↔ r.home = s.cfg.station ∨ ∀ j, s.cfg.segment ≤ j → j ≤ max s.cfg.segment r.home →
      quiet j ∧ (s.cfg.segment < j → isBoundary s.cfg j = true → shown j))) ∧
    ∀ sender, offerBoundary s sender = true ↔ 48 ≤ sender ∧ sender ≤ 55
      ∨ ∀ b, min sender s.cfg.segment < b → b ≤ max sender s.cfg.segment → isBoundary s.cfg b = true →
        shown b ∧ quiet b ∧ quiet (b - 1)) ∧
  ∀ s : State,
    (downOpen s = true ↔ ∀ j, j ≤ s.cfg.segment →
      (∀ c, compOf s.cfg j = some c → (s.fire.alarms.get c).alarmed = false) ∧
      (0 < j → isBoundary s.cfg j = true →
        (j = s.cfg.segment → ∃ x, s.fire.shutter = some x ∧ x.state = .isOpen) ∧
        (j ≠ s.cfg.segment → ∃ w t, tblGet s.line.neighbours j = some (w, t) ∧ w.toNat / 8 % 4 = 1))) ∧
    (∀ j c, compOf s.cfg j = some c ↔ ∃ lo, s.cfg.compMap.get c = some lo ∧ lo ≤ j ∧
      ∀ c' lo', c < c' → s.cfg.compMap.get c' = some lo' → j < lo') ∧
    (∀ j, isBoundary s.cfg j = true ↔ ∃ c, s.cfg.compMap.get c = some j ∧ compOf s.cfg 0 ≠ some c) ∧
    (downOpen s = s.spine.routeOpen → retestRoute s = s) ∧
    (downOpen s = true → s.spine.routeOpen = false → retestRoute s =
      { s with
        spine := { s.spine with routeOpen := true }
        planner := { s.planner with visits := s.planner.visits.map fun v =>
          if v.state = .waitingRoute then { v with state := readiness s v.bin } else v } }) ∧
    (downOpen s = false → s.spine.routeOpen = true → CallsInv s →
      let stays := fun st : CallState => st == .claimQueued || st == .claimSent
      let closing := s.placement.calls.filter fun x => !stays x.state
      let held := fun (d : Directory) (x : CallEntry) => match x.own with
        | some (_, b) => if x.writtenOff then d else d.releaseHold b x.volume x.mass
        | none => d
      retestRoute s = { s with
        spine := { s.spine with routeOpen := false }
        planner := { s.planner with visits := s.planner.visits.map fun v =>
          if v.state = .ready then { v with state := .waitingRoute } else v }
        line := { s.line with queue := s.line.queue.filter fun f => !(f.onLine.isNone && closing.any fun x =>
          x.state == .bidQueued && (f.owner == .bid x.call || f.owner == .claim x.call)) }
        dir := closing.foldl held s.dir
        placement := { s.placement with calls := s.placement.calls.filter fun x => stays x.state } })

/-! ## Reset, image, line -/

/-- The station after reset, written out, and RESET_RELEASE, which leaves it with the pins as they read; RESET_ASSERT holds everything
cleared, the clock and the timers standing. The rules give the values of the blocks (R25, R30, R63, R86, R104, R127, R151, R153,
R159, R178, R185). The pins of State.reset (log 4), the configured values before the image is read (log 5), what the blocks hold
while the reset input is asserted (log 6), the limits in which the crane's position is held then (log 17) and the values of the
model's own fields are the model's choice; so is that a release of an input that is not asserted starts the station anew as well,
log 9. -/
def Obligations.ResetCommandsStartAnew : Prop :=
  let planner : Planner :=
    { pool := [], visits := [], nextVisit := 1, seqCount := 0, stow := .absent, mark := false, reservations := []
      sweep := some ⟨0, 60000⟩, startStamp := none, passed := none }
  let crane : Crane :=
    { pos := ⟨0, 1⟩, carried := none, state := .idle, current := none, staged := none, unknownLoad := false, holdTimer := none
      estimateHeld := false, forkCycle := false, tag := .awaited, fireStop := false, fireFinish := false, resumeKept := false, drive := .still }
  let spine : Spine :=
    { portOut := .empty, portIn := .empty, down := .empty, up := .empty, portOutVisit := none
      inDown := none, inUp := none, outDown := none, outUp := none, retryDown := none, retryUp := none
      lastGrant := .portOut, waiting := false, kept := false, mergeWait := none, routeOpen := false
      driveDown := false, driveUp := false, drivePortOut := false, drivePortIn := false }
  let fire : Fire :=
    { alarms := Vector.replicate 8 ⟨false, 0, 0, false, false, false, none⟩, smoke := ⟨none, false, false⟩
      heat := ⟨none, false, false⟩, callPoint := ⟨none, false, false⟩, shutter := none }
  let start : State :=
    { clock := 0, inReset := false, mode := .start, stockEnded := false, stopTaken := false, safeMade := false
      loader := ⟨[], false⟩, cfg := StationConfig.unread, pins := Pins.unread
      dir := { slots := [], counts := ⟨0, 0, 0, 0⟩, bins := [], loads := [], cursor := some ⟨.L, 1, 1⟩ }
      limited := false, planner := planner, crane := crane, spine := spine, placement := { sweep := 0, calls := [] }, fire := fire
      line := { queue := [], neighbours := [], discarded := false, footing := false, ack := false, obj := false }
      free := 0, pending := [] }
  State.reset = start ∧
  ∀ (p : Pins) (s : State),
    (let place := fun x : PlaceSensors => if x.entry = true ∨ x.position = true then PlaceState.blocked none none else .empty
     let filter := fun active : Bool => (⟨if active then some ⟨0, 100⟩ else none, false, false⟩ : InputFilter)
     exec (.resetRelease p) s = .next { start with
      pins := p, pending := s.pending, crane := { crane with pos := ⟨hold 0 64 p.encCol, hold 1 24 p.encLevel⟩ }
      spine := { spine with
        portOut := place p.portOut, portIn := place p.portIn, down := place p.down, up := place p.up }
      fire := { fire with smoke := filter p.smoke, heat := filter p.heat, callPoint := filter p.callPoint } }) ∧
    exec (.resetAssert p) s = .next { start with
      inReset := true, pins := p, pending := s.pending, planner := { planner with sweep := none } }

/-- READ_COMPLETE in START: an image that fails its check or holds a forbidden combination leaves the station UNCONFIGURED; any
other is clamped and taken, and the station enters STOCKING with its rack empty, its shutter found open or shut, and the local
causes held during START applied. The check is the CRC of octets 0..125 against octets 126 and 127; every field stands at its
offset of the image; an octet that the memory does not give reads FFh; five combinations of the clamped fields are forbidden. Each
held cause is a local cause, and no longer held; that smoke comes before heat and heat before call point is the model's choice,
log 10, and so is that the shutter found has no route tested here, log 47 (R151, R184 to R189). -/
def Obligations.ReadCompleteConfigures : Prop :=
  (∀ image : List Byte,
    let at1 := fun n : Nat => (image.getD n 0xFF).toNat
    let at2 := fun n : Nat => at1 n * 256 + at1 (n + 1)
    let bit := fun i : Nat => at1 (i / 8) / 2 ^ (7 - i % 8) % 2
    let crc := (List.range 1008).foldl (fun c i =>
      let c2 := c * 2 % 65536
      if c / 32768 = bit i then c2 else c2 ^^^ 0x1021) 0xC3A5
    let grade := fun n : Nat => (⟨at1 n, at2 (n + 1), at1 (n + 3)⟩ : Grade)
    let lock := fun n : Nat => (⟨at1 n % 8, at1 n / 8 % 2 == 1⟩ : LockCode)
    let c := rawConfig image
    (imageGood image = true ↔ crc = at2 126) ∧
    (c.station = at1 0 ∧ c.segment = at1 1 ∧ c.up = at1 2 ∧ c.down = at1 3
      ∧ (∀ i : Compartment, c.compMap.get i = if at1 (4 + i.val) = 255 then none else some (at1 (4 + i.val)))
      ∧ c.lineRate = at1 12 ∧ c.nc = at1 13 ∧ c.nl = at1 14 ∧ c.pc = at2 15 ∧ c.pl = at2 17 ∧ c.portLevel = at1 19
      ∧ c.parkCol = at1 20 ∧ c.parkLevel = at1 21 ∧ c.vx = at2 22 ∧ c.ax = at2 24 ∧ c.vy = at2 26 ∧ c.ay = at2 28) ∧
    (c.settleTime = at2 30 ∧ c.forkTime = at2 32 ∧ c.slack = at2 34 ∧ c.holdLimit = at1 36
      ∧ c.grade1 = grade 37 ∧ c.grade2 = grade 41 ∧ c.grade3 = grade 45 ∧ c.grade4 = grade 49
      ∧ c.columnMassLimit = at2 53 ∧ c.lockL = lock 55 ∧ c.lockR = lock 56
      ∧ c.restrictedDesks = ([57, 58, 59, 60, 61, 62, 63, 64].map at1).filter (fun d => decide (d ≠ 255))
      ∧ c.searchSpan = at1 65 ∧ c.passTime = at2 66 ∧ c.transferLimit = at1 68 ∧ c.offerRetry = at2 69 ∧ c.ageLimit = at2 71
      ∧ c.outLimit = at2 73 ∧ c.fireGrace = at1 75 ∧ c.closeLimit = at1 76 ∧ c.driveLimit = at1 77 ∧ c.closingRetry = at2 78
      ∧ c.gateway1 = at1 80 ∧ c.gateway2 = at1 81 ∧ c.firePanel = at1 82)) ∧
  (∀ c : StationConfig, forbidden c = true ↔ c.up = c.station ∨ c.down = c.station
    ∨ (∃ i j lo hi, i < j ∧ c.compMap.get i = some lo ∧ c.compMap.get j = some hi ∧ hi ≤ lo)
    ∨ (∀ i lo, c.compMap.get i = some lo → c.segment < lo) ∨ (∃ d, d ∈ c.restrictedDesks ∧ 7 < d)
    ∨ c.firePanel = c.gateway1 ∨ c.firePanel = c.gateway2) ∧
  (∀ u : State,
    let smoke := fun v : State => if u.fire.smoke.held = true then
      localCause .smoke { v with fire := { v.fire with smoke := { v.fire.smoke with held := false } } } else v
    let heat := fun v : State => if u.fire.heat.held = true then
      localCause .heat { v with fire := { v.fire with heat := { v.fire.heat with held := false } } } else v
    let callPoint := fun v : State => if u.fire.callPoint.held = true then
      localCause .callPoint { v with fire := { v.fire with callPoint := { v.fire.callPoint with held := false } } } else v
    applyHeld u = callPoint (heat (smoke u))) ∧
  ∀ (p : Pins) (image : List Byte) (s : State), s.inReset = false → s.mode = .start →
    let cfg := clampConfig (rawConfig image)
    (imageGood image = false →
      exec (.readComplete p image) s = .next { s with pins := p, loader := ⟨image, false⟩, mode := .unconfigured }) ∧
    (imageGood image = true → forbidden cfg = true →
      exec (.readComplete p image) s =
        .next { s with pins := p, loader := ⟨image, cfg != rawConfig image⟩, mode := .unconfigured }) ∧
    (imageGood image = true → forbidden cfg = false →
      let u := { s with
        pins := p, loader := ⟨image, cfg != rawConfig image⟩, cfg := cfg, mode := .stocking
        dir := { s.dir with counts := ⟨2 * cfg.nc * cfg.nl, 0, 0, 0⟩ }
        crane := { s.crane with
          pos := ⟨hold 0 cfg.nc p.encCol, hold 1 cfg.nl p.encLevel⟩
          state := if p.load then .faulted else s.crane.state }
        fire := { s.fire with shutter := (if isBoundary cfg cfg.segment
          then some ⟨if p.openSensor then .isOpen else .shut, !p.openSensor, none, none, none⟩ else none) } }
      exec (.readComplete p image) s = .next (settle (deriveMode (applyHeld
        (if p.load then faultNotice (faultBody .craneLoadUnknown) u else u)))))

/-- LINE_IDLE gives the station its footing on the line; before it a frame heard changes nothing but the pins as last read, and no
contention begins (R161). -/
def Obligations.LineTakenFromFirstIdle : Prop :=
  ∀ (p : Pins) (s : State), s.live = true →
    exec (.lineIdle p) s = .next (settle { s with pins := p, line := { s.line with footing := true } }) ∧
    (s.line.footing = false →
      (∀ rivals, exec (.contention p rivals) s = .next (settle { s with pins := p })) ∧
      ∀ (c : Instr) h items, c.frame = some (h, items) → exec c s = .next { s with pins := c.pins })

/-- CONTENTION goes to the lowest contention field, class before station number: the station that holds it has its first frame on
the line with the condition word latched, and the block of a BID or CLAIM is told; any other station's frame stays in its
place. The condition word holds the mode, the owned shutter, and the two lanes held: BLOCKED, or with a bin whose route is closed
and no transfer out in flight; a bin waiting in UP of its own home has an open route and leaves the flag clear in a fire mode too,
which is the model's choice, log 41 (R93, R96, R110, R139, R163, R169, R179; the rivals as operand, log 21). -/
def Obligations.ContentionGoesToLowestField : Prop :=
  (∀ u : State,
    let mode := match u.mode with
      | .run => 1 | .guard => 2 | .fire => 3 | .fireSafe => 4 | .halted => 5 | .start | .unconfigured | .stocking => 0
    let shutter := match u.fire.shutter with
      | none => 0
      | some x => match x.state with
        | .isOpen => 1 | .shut => 3 | .clearing | .closingDrive | .opening | .faultDrive _ => 2
    let held := fun (place : PlaceState) (out : Option Handoff) => match place with
      | .blocked _ _ => 1
      | .holding r => if out = none ∧ routeOpenFor u r = false then 1 else 0
      | .empty | .reserved => 0
    (condWord u).toNat
      = mode * 32 + shutter * 8 + held u.spine.down u.spine.outDown * 2 + held u.spine.up u.spine.outUp) ∧
  ∀ (p : Pins) (rivals : List (Nat × Nat)) (f : TxFrame) (q : List TxFrame) (s : State),
    s.live = true → s.line.footing = true → s.line.queue = f :: q → (∀ g, g ∈ f :: q → g.onLine = none) →
    f.cls ≤ 4 → s.cfg.station < 64 → (∀ r, r ∈ rivals → r.1 < 8 ∧ r.2 < 64) →
    let own := f.cls * 64 + s.cfg.station
    ((∀ r, r ∈ rivals → own ≤ r.1 * 64 + r.2) →
      exec (.contention p rivals) s = .next (settle { s with
        pins := p, line := { s.line with queue := { f with onLine := some (condWord s) } :: q }
        placement := match f.owner with
          | .bid c => s.placement.modify c fun x => { x with state := .bidSent }
          | .claim c => s.placement.modify c fun x => { x with state := .claimSent }
          | _ => s.placement })) ∧
    ((∃ r, r ∈ rivals ∧ r.1 * 64 + r.2 < own) → exec (.contention p rivals) s = .next (settle { s with pins := p }))

/-- The outcome of a frame that is no CLAIM and no CLOSING: the frame leaves the queue; an OFFER heard starts the transfer out and
the lane's drive, another its retry timer; a TAKEN unheard is sent again up to the third time; FRAME_ABANDONED counts as UNHEARD.
A frame is admitted to the queue in class order; a full queue discards its last notice for it, a notice beyond the share is itself
discarded, and a FIRE frame displaces the last TRANSFER or AUCTION frame; a frame displaced or refused is reported to its block, an
OFFER or a CLOSING to its retry timer, a TAKEN as one sending, a BID and a CLAIM with their holds released
(R92, R96, R107, R114, R118, R163, R174, R175, R177). -/
def Obligations.OutcomeOfOfferOrTaken : Prop :=
  (∀ (f : TxFrame) (u : State), classOrdered u.line.queue = true →
    let q := u.line.queue
    let into := fun l : List TxFrame => (l.filter fun g => decide (g.cls ≤ f.cls)) ++ f :: l.filter fun g => decide (f.cls < g.cls)
    let put := fun l : List TxFrame => { u with line := { u.line with queue := into l } }
    let noticed := fun g : TxFrame => g.cls = 4 ∧ g.onLine = none
    let low := fun g : TxFrame => (g.cls = 1 ∨ g.cls = 2) ∧ g.onLine = none
    (f.cls = 4 →
      (noticeCount q < 6 → q.length < 12 → queueFrame f u = put q) ∧
      (6 ≤ noticeCount q ∨ 12 ≤ q.length → queueFrame f u = { u with line := { u.line with discarded := true } })) ∧
    (f.cls ≠ 4 →
      (q.length < 12 → queueFrame f u = put q) ∧
      (∀ a g b, 12 ≤ q.length → q = a ++ g :: b → noticed g → (∀ x, x ∈ b → ¬ noticed x) →
        queueFrame f u = { u with line := { u.line with queue := into (a ++ b), discarded := true } }) ∧
      (12 ≤ q.length → (∀ x, x ∈ q → ¬ noticed x) →
        (∀ a g b, f.cls = 0 → q = a ++ g :: b → low g → (∀ x, x ∈ b → ¬ low x) →
          queueFrame f u = frameRefused g.owner (put (a ++ b))) ∧
        (f.cls ≠ 0 ∨ (∀ x, x ∈ q → ¬ low x) → queueFrame f u = frameRefused f.owner u)))) ∧
  (∀ u : State,
    let retry := some (⟨u.clock, u.cfg.offerRetry⟩ : Timer)
    frameRefused .plain u = u ∧ (∀ c, frameRefused (.alarm c) u = u)
    ∧ frameRefused (.offer .down) u = { u with spine := { u.spine with retryDown := retry } }
    ∧ frameRefused (.offer .up) u = { u with spine := { u.spine with retryUp := retry } }
    ∧ frameRefused .closing u = { u with fire := { u.fire with shutter := u.fire.shutter.map fun x : Shutter =>
        { x with retry := some ⟨u.clock, u.cfg.closingRetry⟩ } } }
    ∧ (∀ bin place k, (∀ n, (admission (takenFrame u.cfg.station bin place n) u.line.queue).entered = false) ∨ k = 3 →
        frameRefused (.taken bin place k) u = u)
    ∧ (∀ bin place k, k < 3 → u.line.queue.length < 12 → frameRefused (.taken bin place k) u =
        queueFrame (takenFrame u.cfg.station bin place (k + 1)) u)
    ∧ ∀ (c : Call) x cost bin, u.placement.calls.find? (fun y => y.call == c) = some x → x.own = some (cost, bin) →
        x.writtenOff = false →
        let released := u.dir.releaseHold bin x.volume x.mass
        frameRefused (.bid c) u = { u with dir := released, placement := { u.placement with
          calls := u.placement.calls.map fun y => if y.call = c then { y with state := .noBid, own := none } else y } }
        ∧ frameRefused (.claim c) u = { u with
          dir := released, placement := { u.placement with calls := u.placement.calls.filter fun y => y.call != c }
          planner := { u.planner with reservations := u.planner.reservations.erase (bin, x.call.desk) } }) ∧
  ∀ (c : Instr) (p : Pins) (ack obj : Bool) (f : TxFrame) (s : State),
    c = .outcome p ack obj ∨ c = .frameAbandoned p ∧ ack = false ∧ obj = false →
    s.live = true → s.line.queue.find? (fun g => g.onLine.isSome) = some f →
    let e := { s with pins := p, line := { s.line with queue := s.line.queue.filter fun g => g.onLine.isNone } }
    let handoff := fun bin : Nat => some (⟨bin, f.addr, ⟨s.clock, s.cfg.transferLimit * 1000⟩, none⟩ : Handoff)
    let retry := some (⟨s.clock, s.cfg.offerRetry⟩ : Timer)
    (f.owner = .plain ∨ (∃ x, f.owner = .bid x) ∨ (∃ x, f.owner = .alarm x) → exec c s = .next (settle e)) ∧
    (∀ r, f.owner = .offer .down → s.spine.down = .holding r → exec c s = .next (settle { e with
      spine := if ack = true ∧ obj = false then { s.spine with outDown := handoff r.bin, driveDown := true }
        else { s.spine with retryDown := retry } })) ∧
    (∀ r, f.owner = .offer .up → s.spine.up = .holding r → exec c s = .next (settle { e with
      spine := if ack = true ∧ obj = false then { s.spine with outUp := handoff r.bin, driveUp := true }
        else { s.spine with retryUp := retry } })) ∧
    (∀ bin place k, f.owner = .taken bin place k → exec c s = .next (settle
      (if ack = false ∧ obj = false ∧ k < 3 then queueFrame (takenFrame s.cfg.station bin place (k + 1)) e else e)))

/-- The outcome of a CLAIM and of a CLOSING: a CLAIM heard wins the room part for the bin and closes the call, another releases
the hold and the reservation with it; where the bin was written off the call closes and the reservation goes, whatever the outcome,
and no hold is released; the planner gives a won room part to the waiting visit of the bin to the desk, or makes a ROOM
visit of it; a CLOSING heard starts the closing drive, another the closing retry timer, and one whose shutter is no longer CLEARING
changes nothing (R65, R72, R97, R100, R142; a CLOSING heard while a handoff is in flight, log 36). -/
def Obligations.OutcomeOfClaimOrClosing : Prop :=
  (∀ (c : Instr) (p : Pins) (ack obj : Bool) (f : TxFrame) (s : State),
    c = .outcome p ack obj ∨ c = .frameAbandoned p ∧ ack = false ∧ obj = false →
    s.live = true → s.line.queue.find? (fun g => g.onLine.isSome) = some f →
    let e := { s with pins := p, line := { s.line with queue := s.line.queue.filter fun g => g.onLine.isNone } }
    let calls := fun x : Call => { s.placement with calls := s.placement.calls.filter fun y => y.call != x }
    (∀ x entry cost bin, f.owner = .claim x → s.placement.calls.find? (fun y => y.call == x) = some entry →
      entry.own = some (cost, bin) → entry.writtenOff = false →
      (ack = true ∧ obj = false →
        exec c s = .next (settle { takeRoomPart bin ⟨x, entry.volume, entry.mass⟩ e with placement := calls x })) ∧
      (ack = false ∨ obj = true → exec c s = .next (settle { e with
        dir := s.dir.releaseHold bin entry.volume entry.mass, placement := calls x
        planner := { s.planner with reservations := s.planner.reservations.erase (bin, x.desk) } }))) ∧
    (∀ x entry cost bin, f.owner = .claim x → s.placement.calls.find? (fun y => y.call == x) = some entry →
      entry.own = some (cost, bin) → entry.writtenOff = true → exec c s = .next (settle { e with
        placement := calls x
        planner := { s.planner with reservations := s.planner.reservations.erase (bin, x.desk) } })) ∧
    (f.owner = .closing → (∀ x, s.fire.shutter = some x → x.state ≠ .clearing) → exec c s = .next (settle e)) ∧
    (∀ x, f.owner = .closing → s.fire.shutter = some x → x.state = .clearing → exec c s = .next (settle { e with
      fire := { s.fire with shutter := some (if ack = true ∧ obj = false
        then { x with state := .closingDrive, driveLimit := some ⟨s.clock, s.cfg.driveLimit * 1000⟩, retry := none }
        else { x with retry := some ⟨s.clock, s.cfg.closingRetry⟩ }) } }))) ∧
  ∀ (bin : Nat) (part : RoomPart) (u : State),
    let left := u.planner.reservations.erase (bin, part.call.desk)
    let waiting := fun v : Visit => v.bin = bin ∧ v.desk = part.call.desk
      ∧ (v.state = .waitingBin ∨ v.state = .waitingRoute ∨ v.state = .ready)
    let urgent := fun v : Visit => v.requests.any fun id => match tblGet u.planner.pool id with
      | some r => r.state == .queued && r.rank == .urgent
      | none => false
    (∀ w, u.planner.visits.find? (fun v => decide (waiting v)) = some w →
      takeRoomPart bin part u = { u with planner := { u.planner with
        reservations := left
        visits := u.planner.visits.map fun v => if v.number = w.number then
          { v with room := some part, rank := if urgent v = true then .urgent else .room } else v } }) ∧
    ((∀ v, v ∈ u.planner.visits → ¬ waiting v) → u.planner.visits.length < 24 →
      ∃ n, (∀ v, v ∈ u.planner.visits → v.number ≠ n)
        ∧ (1 ≤ u.planner.nextVisit → u.planner.nextVisit ≤ 255 → 1 ≤ n ∧ n ≤ 255)
        ∧ takeRoomPart bin part u = { u with planner := { u.planner with
          reservations := left, nextVisit := n % 255 + 1, seqCount := u.planner.seqCount + 1
          visits := u.planner.visits ++ [
            { number := n, bin := bin, desk := part.call.desk, rank := .room, requests := [], room := some part
              stamp := u.clock, seq := u.planner.seqCount, state := readiness u bin }] } })

/-! ## Frames heard: fire and spine -/

/-- CLOSED, OPENED, SAFE, the notices, and a FAULT of any other kind give the station their sender's condition word and nothing
else; a frame whose class test fails the same, with neither slot driven (R165, R167, R170, R191; log 7). -/
def Obligations.RowsHeardWithoutEffect : Prop :=
  ∀ (p : Pins) (h : Header) (rest : List Item) (s : State),
    let heard := fun i : Item => Reaches h (i :: rest) s
    let passed : Host.Outcome State Fault Refusal := .next (follow s h rest unanswered (entered p h s))
    (∀ seg, heard (.closed seg) → exec (.closed p h seg rest) s = passed) ∧
    (∀ seg, heard (.opened seg) → exec (.opened p h seg rest) s = passed) ∧
    (∀ b, heard (.safe b) → exec (.safe p h b rest) s = passed) ∧
    (∀ b, heard (.requestDone b) → exec (.requestDone p h b rest) s = passed) ∧
    (∀ b, heard (.requestFailed b) → exec (.requestFailed p h b rest) s = passed) ∧
    (∀ b, heard (.binStored b) → exec (.binStored p h b rest) s = passed) ∧
    (∀ b, heard (.binOverdue b) → exec (.binOverdue p h b rest) s = passed) ∧
    (∀ b, heard (.stationReport b) → exec (.stationReport p h b rest) s = passed) ∧
    (∀ b, heard (.stockRefused b) → exec (.stockRefused p h b rest) s = passed) ∧
    (∀ b : FaultBody, heard (.fault b) → b.kind ≠ .binCaught → b.kind ≠ .handoffLost → exec (.fault p h b rest) s = passed) ∧
    ∀ items, Hears h s → classGood h items = false → exec (.discardedFrame p h items) s = .next (settle (entered p h s))

/-- An item from a sender its row does not admit is ignored, and its frame draws neither slot. The two slots of a frame addressed
to the station: the items act in stream order in one event, which ends after the last; at once after each a queued OFFER goes
whose route or mode is left, and the work a CANCEL passed over is that which stood ready before the frame; of class REQUEST the
acknowledge is driven where an item was taken, of every other class always, the objection where an item was refused, and neither
where a sender was not admitted. A frame not addressed to the station or discarded by the class test drives neither (R113, R164,
R167, R168, R173; the work passed over, log 8; a frame without an item, log 7; a CLAIM in an addressed frame, log 34). -/
def Obligations.WrongSenderIgnored : Prop :=
  (took = ⟨true, false, false, false⟩ ∧ refused = ⟨false, true, false, false⟩ ∧ unanswered = ⟨false, false, false, false⟩
    ∧ wrongSender = ⟨false, false, true, false⟩) ∧
  (∀ (h : Header) (rest : List Item) (a : Answers) (s u : State),
    let x := takeItems h rest a (afterItem u)
    let y := settle (passedSince s x.2)
    follow s h rest a u = { y with line := { y.line with
      ack := !x.1.badSender && (h.cls != 3 || x.1.taken), obj := !x.1.badSender && x.1.refused } }) ∧
  (∀ u : State,
    let w := withdrawOffer .up (withdrawOffer .down u)
    let taking := w.mode.working = true ∧ w.crane.staged = none ∧ (w.crane.state = .idle ∨ w.crane.state = .holding
      ∨ ∃ m, w.crane.state = .moving ∧ w.crane.current = some m ∧ m.kind ≠ .park)
    (taking → afterItem u = w) ∧ (¬ taking → afterItem u = { w with planner := { w.planner with passed := none } })) ∧
  (∀ s u : State,
    (s.planner.passed = none → u.planner.passed ≠ none →
      passedSince s u = { u with planner := { u.planner with passed := some (
        (if s.planner.stow = .ready then [((none : Option Nat), if s.planner.mark = true then 0 else 3)] else [])
          ++ (s.planner.visits.filter fun v => v.state == .ready).map fun v =>
            (some v.number, match v.rank with | .urgent => 1 | .room => 2 | .normal => 4)) } }) ∧
    (s.planner.passed ≠ none ∨ u.planner.passed = none → passedSince s u = u)) ∧
  (∀ (h : Header) (i : Item) (rest : List Item) (a : Answers) (u : State),
    let x := takeItem h i a u
    let y := takeItem h i unanswered u
    takeItems h [] a u = (a, u) ∧ takeItems h (i :: rest) a u = takeItems h rest x.1 (afterItem x.2)
    ∧ x.1.taken = (a.taken || y.1.taken) ∧ x.1.refused = (a.refused || y.1.refused)
    ∧ x.1.badSender = (a.badSender || y.1.badSender)) ∧
  (∀ (c : Instr) (h : Header) (items : List Item) (s : State), c.frame = some (h, items) → Hears h s →
    classGood h items = false ∨ addressed s.cfg h = false →
    ∃ t, exec c s = .next t ∧ t.line.ack = false ∧ t.line.obj = false) ∧
  (∀ (p : Pins) (h : Header) (s : State), Hears h s → h.cls ≤ 4 → addressed s.cfg h = true →
    let t := settle (entered p h s)
    exec (.discardedFrame p h []) s = .next { t with line := { t.line with ack := h.cls != 3, obj := false } }) ∧
  ∀ (p : Pins) (h : Header) (rest : List Item) (s : State),
    let heard := fun i : Item => Reaches h (i :: rest) s
    let ignored : Host.Outcome State Fault Refusal := .next (follow s h rest wrongSender (entered p h s))
    (∀ b, heard (.restore b) → h.sender ≠ s.cfg.firePanel → exec (.restore p h b rest) s = ignored) ∧
    (∀ b, heard (.roomCall b) → h.sender < 48 ∨ 55 < h.sender → exec (.roomCall p h b rest) s = ignored) ∧
    (h.sender ≠ s.cfg.gateway1 → h.sender ≠ s.cfg.gateway2 →
      (∀ b, heard (.lend b) → exec (.lend p h b rest) s = ignored) ∧
      (∀ id, heard (.cancel id) → exec (.cancel p h id rest) s = ignored) ∧
      (∀ n, heard (.stockAt n) → exec (.stockAt p h n rest) s = ignored) ∧
      (∀ b, heard (.stock b) → exec (.stock p h b rest) s = ignored) ∧
      (heard .stockEnd → exec (.stockEnd p h rest) s = ignored) ∧
      (heard .stop → exec (.stop p h rest) s = ignored) ∧
      (heard .resume → exec (.resume p h rest) s = ignored) ∧
      (∀ bin, heard (.writeOff bin) → exec (.writeOff p h bin rest) s = ignored) ∧
      (heard .query → exec (.query p h rest) s = ignored))

/-- The mode gate: outside RUN and GUARD an OFFER is refused and ROOM_CALL, BID and CLAIM are dropped, a CLAIM in a frame not
addressed to the station too; a LEND or a CANCEL is refused
with NOT_READY in STOCKING and with FIRE in FIRE and FIRE_SAFE, a WRITE_OFF with NOT_READY in STOCKING and with FIRE in a fire mode
before the stock end, a STOP with NOT_READY in HALTED; a STOCK_AT and a STOCK body in FIRE and FIRE_SAFE, and a STOCK_END there and in
HALTED, with STOCK_REFUSED, the first such body of a frame alone with a notice (R98, R171, R172). -/
def Obligations.ModeGateTurnsAway : Prop :=
  ∀ (p : Pins) (h : Header) (rest : List Item) (s : State),
    let heard := fun i : Item => Reaches h (i :: rest) s
    let e := entered p h s
    let asked : Nat → Nat → Option Desk → List (Nat × Nat) → State := fun kind bin desk requests =>
      notice (.requestFailed (.head bin desk ((if s.mode.fiery = true then 2 else 1) * 16 + kind))
        :: requests.map fun r => .requestFailed (.request r.1 r.2)) e
    (s.mode.working = false →
      (∀ r, heard (.offer r) → exec (.offer p h r rest) s = .next (follow s h rest refused e)) ∧
      (∀ b, heard (.roomCall b) → isDeskStation h.sender = true →
        exec (.roomCall p h b rest) s = .next (follow s h rest unanswered e)) ∧
      (∀ b, heard (.bid b) → exec (.bid p h b rest) s = .next (follow s h rest unanswered e)) ∧
      (∀ b, heard (.claim b) → exec (.claim p h b rest) s = .next (follow s h rest unanswered e)) ∧
      (∀ b, Hears h s → classGood h (.claim b :: rest) = true → addressed s.cfg h = false →
        exec (.claim p h b rest) s = .next (settle e))) ∧
    (isGateway s.cfg h.sender = true →
      (∀ b, heard (.lend b) → b.id ≠ 0 → (e.dir.bin b.bin).isSome = true → s.mode = .stocking ∨ s.mode.fiery = true →
        exec (.lend p h b rest) s = .next (follow s h rest refused (asked 1 b.bin (some b.desk) [(b.id, b.ref)]))) ∧
      (∀ id, heard (.cancel id) → id ≠ 0 → s.mode = .stocking ∨ s.mode.fiery = true →
        (tblGet e.planner.pool id = none → toOwn s.cfg h = true →
          exec (.cancel p h id rest) s = .next (follow s h rest refused (asked 2 0 none [(id, 0)]))) ∧
        (∀ r v, tblGet e.planner.pool id = some r → e.planner.visit r.visit = some v →
          exec (.cancel p h id rest) s = .next (follow s h rest refused (asked 2 v.bin (some r.desk) [(id, r.ref)])))) ∧
      (∀ bin, heard (.writeOff bin) → toOwn s.cfg h = true → s.mode = .stocking ∨ s.mode.fiery = true ∧ s.stockEnded = false →
        exec (.writeOff p h bin rest) s = .next (follow s h rest refused (asked 4 bin none []))) ∧
      (heard .stop → s.mode = .halted →
        exec (.stop p h rest) s = .next (follow s h rest refused (asked 3 0 none []))) ∧
      (∀ n, heard (.stockAt n) → toOwn s.cfg h = true → s.mode.fiery = true →
        exec (.stockAt p h n rest) s = .next (follow s h rest refused (notice [.stockRefused ⟨4, ⟨.none, 0, 0⟩, 0⟩] e))) ∧
      (∀ b, heard (.stock b) → toOwn s.cfg h = true → s.mode.fiery = true →
        exec (.stock p h b rest) s = .next (follow s h rest { refused with stockNotice := true }
          (notice [.stockRefused ⟨4, ⟨.none, 0, 0⟩, b.bin⟩] e))) ∧
      (∀ (a : Answers) (b : StockBody) (u : State), a.stockNotice = true → u.mode.fiery = true → isGateway u.cfg h.sender = true →
        toOwn u.cfg h = true → takeItem h (.stock b) a u = ({ a with refused := true }, u)) ∧
      (heard .stockEnd → toOwn s.cfg h = true → s.mode = .halted ∨ s.mode.fiery = true →
        exec (.stockEnd p h rest) s = .next (follow s h rest refused (notice [.stockRefused ⟨4, ⟨.none, 0, 0⟩, 0⟩] e))))

/-- ALARM: epoch 0 is ignored; else queued ALARMs of the compartment are withdrawn and the epoch is taken. A compartment already
alarmed keeps the rest of its record; one newly alarmed is stamped, a bordering shutter begins to clear or stays, and mode and
routes follow, in that order, which is the model's choice, log 10 (R131, R140, R152; the drive limit timer of an OPENING shutter,
log 37). -/
def Obligations.AlarmHeard : Prop :=
  ∀ (p : Pins) (h : Header) (b : AlarmBody) (rest : List Item) (s : State), Reaches h (.alarm b :: rest) s →
    let e := entered p h s
    let r := s.fire.alarms.get b.comp
    let withdrawn := { e with line := { e.line with
      queue := e.line.queue.filter fun f : TxFrame => !(f.onLine.isNone && f.owner == Owner.alarm b.comp) } }
    let alarms := fun x => s.fire.alarms.set b.comp.val x b.comp.isLt
    (b.epoch = 0 → exec (.alarm p h b rest) s = .next (follow s h rest unanswered e)) ∧
    (b.epoch ≠ 0 → r.alarmed = true → exec (.alarm p h b rest) s = .next (follow s h rest took { withdrawn with
      fire := { s.fire with alarms := alarms { r with epoch := b.epoch, last := b.epoch } } })) ∧
    (b.epoch ≠ 0 → r.alarmed = false → exec (.alarm p h b rest) s = .next (follow s h rest took (retestRoute (deriveMode
      { withdrawn with fire := { s.fire with
        alarms := alarms { r with alarmed := true, epoch := b.epoch, last := b.epoch, stamp := some s.clock }
        shutter := s.fire.shutter.map fun x : Shutter =>
          if bordersShutter s.cfg b.comp = false then x
          else if x.state = ShutterState.isOpen ∨ x.state = ShutterState.opening ∨ x.state = ShutterState.faultDrive .opening then
            { x with state := .clearing, closeLimit := some ⟨s.clock, s.cfg.closeLimit * 1000⟩, driveLimit := none
                     foundShut := false }
          else { x with foundShut := false } } }))))

/-- CLOSING: objected to when its sender is not the up neighbour, when the DOWN entry or the UP position sensor sees a bin, or
while a transfer out of UP to the sender is in flight; else answered with no objection (R143). -/
def Obligations.ClosingAnswered : Prop :=
  ∀ (p : Pins) (h : Header) (seg : Nat) (rest : List Item) (s : State), Reaches h (.closing seg :: rest) s →
    let objection := h.sender ≠ s.cfg.up ∨ p.down.entry = true ∨ p.up.position = true
      ∨ ∃ x, (entered p h s).spine.outUp = some x ∧ x.peer = h.sender
    (objection → exec (.closing p h seg rest) s = .next (follow s h rest refused (entered p h s))) ∧
    (¬ objection → exec (.closing p h seg rest) s = .next (follow s h rest took (entered p h s)))

/-- RESTORE from the fire panel: with the record's epoch it clears the compartment's record and acts, in order, on the mode, the
crane, the routes, the bins that wait on the spine, a bordering shutter and the inputs still active: held bins are offered, PORT_OUT
is considered for the merge and a home bin in UP is diverted before an input raises the own compartment again; an other epoch is objected to; for a compartment not alarmed
it ends a found-shut hold. A PARKED crane is HALTED under a STOP, else goes on with its carried bin; each input that counts active
raises a local cause anew, smoke, heat, call point in this order; a found-shut hold of a bordering shutter ends by the reopening.
The order of the three inputs and of the three acts on the spine is the model's choice, log 10 (R59, R129, R135, R149, R150, R152). -/
def Obligations.RestoreHeard : Prop :=
  (∀ u : State,
    (u.crane.state ≠ .parked → unpark u = u) ∧
    (u.crane.state = .parked → u.stopTaken = true → unpark u = { u with crane := { u.crane with state := .halted } }) ∧
    (u.crane.state = .parked → u.stopTaken = false → unpark u = nextMove { u with crane := { u.crane with state := .idle } }) ∧
    (let again := fun (active : Bool) (i : FireInput) (v : State) => if active = true then localCause i v else v
     reraise u = again u.fire.callPoint.active .callPoint (again u.fire.heat.active .heat (again u.fire.smoke.active .smoke u))) ∧
    ∀ c, (∀ x, u.fire.shutter = some x → x.foundShut = true → bordersShutter u.cfg c = true → endFoundShut c u = reopen u) ∧
      ((∀ x, u.fire.shutter = some x → x.foundShut = false ∨ bordersShutter u.cfg c = false) → endFoundShut c u = u)) ∧
  ∀ (p : Pins) (h : Header) (b : RestoreBody) (rest : List Item) (s : State),
    Reaches h (.restore b :: rest) s → h.sender = s.cfg.firePanel →
    let e := entered p h s
    let r := s.fire.alarms.get b.comp
    let cleared := { e with
      line := { e.line with queue := e.line.queue.filter fun f : TxFrame => !(f.onLine.isNone && f.owner == Owner.alarm b.comp) }
      fire := { s.fire with alarms := (s.fire.alarms.set b.comp.val
        { r with alarmed := false, smoke := false, heat := false, callPoint := false, stamp := none } b.comp.isLt) } }
    let resumed := fun u : State => diversionCheck (mergeArbiter (offerLane .up (offerLane .down (retestRoute u))))
    (r.alarmed = true → r.epoch = b.epoch → b.comp ≠ ownComp s.cfg → bordersShutter s.cfg b.comp = false →
      exec (.restore p h b rest) s = .next (follow s h rest took (resumed (deriveMode cleared)))) ∧
    (r.alarmed = true → r.epoch = b.epoch → b.comp ≠ ownComp s.cfg → bordersShutter s.cfg b.comp = true →
      exec (.restore p h b rest) s = .next (follow s h rest took (reopen (resumed (deriveMode cleared))))) ∧
    (r.alarmed = true → r.epoch = b.epoch → b.comp = ownComp s.cfg →
      exec (.restore p h b rest) s = .next (follow s h rest took
        (reraise (reopen (resumed (unpark (deriveMode { cleared with safeMade := false }))))))) ∧
    (r.alarmed = true → r.epoch ≠ b.epoch →
      exec (.restore p h b rest) s = .next (follow s h rest refused (endFoundShut b.comp e))) ∧
    (r.alarmed = false → exec (.restore p h b rest) s = .next (follow s h rest took (endFoundShut b.comp e)))

/-- An OFFER in RUN or GUARD that passes the six tests is accepted: the lane is RESERVED, the incoming handoff with its transfer
timer begins, the lane's drive runs; in DOWN the grant is the up neighbour's and waiting, kept and merge wait end (R115, R116). -/
def Obligations.OfferAccepted : Prop :=
  ∀ (p : Pins) (h : Header) (r : TravelRecord) (rest : List Item) (s : State),
    Reaches h (.offer r :: rest) s → s.mode.working = true →
    let e := entered p h s
    let handoff := some (⟨r.bin, h.sender, ⟨s.clock, s.cfg.transferLimit * 1000⟩, some r⟩ : Handoff)
    let intoUp := { e with spine := { e.spine with up := .reserved, inUp := handoff, driveUp := true } }
    let fromBelow := h.sender = s.cfg.down ∨ s.cfg.down = 63 ∧ 48 ≤ h.sender ∧ h.sender ≤ 55
    offerBoundary e h.sender = true →
    (∀ d, r.dest = .desk d → h.sender = s.cfg.up → e.spine.down = .empty →
      (portOutReady e = false ∨ e.spine.lastGrant = .portOut) →
      exec (.offer p h r rest) s = .next (follow s h rest took { e with spine := { e.spine with
        down := .reserved, inDown := handoff, driveDown := true
        lastGrant := .upNeighbour, waiting := false, kept := false, mergeWait := none } })) ∧
    (r.dest = .home → fromBelow → r.home ≠ s.cfg.station → s.cfg.up ≠ 63 → s.cfg.segment < r.home → e.spine.up = .empty →
      exec (.offer p h r rest) s = .next (follow s h rest took intoUp)) ∧
    (r.dest = .home → fromBelow → r.home = s.cfg.station → e.spine.up = .empty → e.spine.portIn = .empty →
      ((e.dir.bin r.bin).isSome = true → exec (.offer p h r rest) s = .next (follow s h rest took intoUp)) ∧
      (e.dir.bin r.bin = none → (e.dir.adoptSlot s.cfg r).isSome = true →
        exec (.offer p h r rest) s = .next (follow s h rest took
          { intoUp with limited := e.limited || e.dir.adoptHeld s.cfg r })))

/-- An OFFER in RUN or GUARD that fails a test is refused: for want of room the waiting mark is set for DOWN and the stow is
promoted for a bin bound here, and for a bin passing through nothing changes; DOWN kept for the up neighbour has room for no other
sender; where PORT_OUT is to have DOWN, it is granted it; where no slot is found nothing is reserved (R76, R111, R115; bin id 0,
log 32). -/
def Obligations.OfferRefused : Prop :=
  ∀ (p : Pins) (h : Header) (r : TravelRecord) (rest : List Item) (s : State),
    Reaches h (.offer r :: rest) s → s.mode.working = true →
    let e := entered p h s
    let answer : State → Host.Outcome State Fault Refusal := fun u => .next (follow s h rest refused u)
    let fromBelow := h.sender = s.cfg.down ∨ s.cfg.down = 63 ∧ 48 ≤ h.sender ∧ h.sender ≤ 55
    (∀ d, r.dest = .desk d → h.sender ≠ s.cfg.up → exec (.offer p h r rest) s = answer e) ∧
    (r.dest = .home → ¬ fromBelow → exec (.offer p h r rest) s = answer e) ∧
    (offerBoundary e h.sender = false → exec (.offer p h r rest) s = answer e) ∧
    (offerBoundary e h.sender = true →
      (∀ d, r.dest = .desk d → h.sender = s.cfg.up → e.spine.down ≠ .empty →
        exec (.offer p h r rest) s = answer { e with spine := { e.spine with waiting := true } }) ∧
      (∀ d x, r.dest = .desk d → h.sender = s.cfg.up → e.spine.down = .empty → e.spine.portOut = .holding x →
        downOpen e = true → e.spine.lastGrant = .upNeighbour →
        exec (.offer p h r rest) s = answer { e with spine := { e.spine with
          down := .reserved, inDown := some ⟨x.bin, s.cfg.station, ⟨s.clock, s.cfg.transferLimit * 1000⟩, none⟩
          lastGrant := .portOut, waiting := true, kept := false, drivePortOut := true, driveDown := true } }) ∧
      (r.dest = .home → fromBelow → r.home ≠ s.cfg.station → s.cfg.up = 63 ∨ r.home ≤ s.cfg.segment →
        exec (.offer p h r rest) s = answer e) ∧
      (r.dest = .home → fromBelow → r.home ≠ s.cfg.station → s.cfg.up ≠ 63 → s.cfg.segment < r.home → e.spine.up ≠ .empty →
        exec (.offer p h r rest) s = answer e) ∧
      (r.dest = .home → fromBelow → r.home = s.cfg.station → e.spine.up ≠ .empty ∨ e.spine.portIn ≠ .empty →
        exec (.offer p h r rest) s = answer { e with planner := { e.planner with
          mark := e.planner.mark || e.planner.stow == .ready || e.planner.stow == .staged } }) ∧
      (r.dest = .home → fromBelow → r.home = s.cfg.station → e.spine.up = .empty → e.spine.portIn = .empty →
        e.dir.bin r.bin = none → e.dir.adoptSlot s.cfg r = none →
        exec (.offer p h r rest) s = answer { e with limited := e.limited || e.dir.adoptHeld s.cfg r }) ∧
      (r.dest = .home → fromBelow → r.home = s.cfg.station → e.spine.up = .empty → e.spine.portIn = .empty → r.bin = 0 →
        exec (.offer p h r rest) s = answer e)) ∧
    ∀ (u : State) (sender : Nat) (d : Desk), r.dest = .desk d →
      (offerRoom u sender .down r = true ↔ u.spine.down = .empty ∧ (u.spine.kept = true → sender = u.cfg.up))

/-- TAKEN of the bin this station's transfer out of a lane offered to the taker: the lane is EMPTY, the transfer ends and the drive
stops. A late TAKEN of the bin and taker of a lost or caught handoff makes the BLOCKED lane EMPTY where its sensors read no bin. Any
other TAKEN changes no lane. The bin's location names the taker's desk or place; a desk's TAKEN completes the ON_SPINE visit to it:
REQUEST_DONE names its QUEUED requests, and visit and requests are gone (R83, R119, R120, R144; the location of taker and place octets
that no station sends, log 19). R83 speaks of one visit: that of two such visits of the bin to the desk the first in the list is
completed, and a repeated TAKEN completes the next, is the model's choice, log 39. -/
def Obligations.TakenHeard : Prop :=
  (∀ (p : Pins) (h : Header) (b : TakenBody) (rest : List Item) (s : State), Reaches h (.taken b :: rest) s →
    let e := entered p h s
    let external := fun out : Option Handoff => out.filter fun x => x.peer != s.cfg.station
    let down := fun sp : Spine => match external sp.outDown with
      | some x => if x.bin = b.bin ∧ x.peer = b.taker then { sp with down := .empty, outDown := none, driveDown := false } else sp
      | none => match sp.down with
        | .blocked _ (some lost) =>
          if lost = (b.bin, b.taker) ∧ p.down.entry = false ∧ p.down.position = false then { sp with down := .empty } else sp
        | _ => sp
    let up := fun sp : Spine => match external sp.outUp with
      | some x => if x.bin = b.bin ∧ x.peer = b.taker then { sp with up := .empty, outUp := none, driveUp := false } else sp
      | none => match sp.up with
        | .blocked _ (some lost) =>
          if lost = (b.bin, b.taker) ∧ p.up.entry = false ∧ p.up.position = false then { sp with up := .empty } else sp
        | _ => sp
    let u := { e with
      spine := up (down e.spine)
      dir := if 48 ≤ b.taker ∧ b.taker ≤ 55 then e.dir.locate b.bin (.desk (deskOf b.taker))
        else if 48 ≤ b.taker then e.dir
        else match b.place with
          | .down => e.dir.locate b.bin (.lane b.taker .down)
          | .up => e.dir.locate b.bin (.lane b.taker .up)
          | .none => e.dir }
    exec (.taken p h b rest) s = .next (follow s h rest took
      (match e.planner.visits.find? fun v => isDeskStation b.taker && v.bin == b.bin && v.desk == deskOf b.taker
          && v.state == .onSpine with
        | some v => completeVisit v u
        | none => u))) ∧
  ∀ (v : Visit) (u : State),
    let queued := v.requests.filterMap fun id => (tblGet u.planner.pool id).bind fun r =>
      if r.state = .queued then some (id, r.ref) else none
    let told := if queued = [] then u
      else notice (.requestDone (.head v.bin (some v.desk) 0) :: queued.map fun r => .requestDone (.request r.1 r.2)) u
    completeVisit v u = { told with planner := { u.planner with
      visits := u.planner.visits.filter fun w => w.number != v.number
      pool := v.requests.foldl (fun pool id => tblErase id pool) u.planner.pool } }

/-- FAULT HANDOFF_LOST: the bin goes UNKNOWN where its location still names the sender's lane the code gives. FAULT BIN_CAUGHT:
the bin is located CAUGHT at the named segment; at the lower neighbour an incoming handoff of the bin from the up neighbour ends,
DOWN standing EMPTY or BLOCKED as its sensors read, and a transfer out of UP to it ends with UP BLOCKED; each is looked at by itself,
and one of another bin or peer goes on (R120, R145). -/
def Obligations.FaultsHeard : Prop :=
  ∀ (p : Pins) (h : Header) (b : FaultBody) (rest : List Item) (s : State),
    let e := entered p h s
    (Reaches h (.fault b :: rest) s → b.kind = .handoffLost →
      (∀ x l since, e.dir.bin b.bin = some x → x.status = .out (.lane h.sender l) since → b.code = l.place.num →
        exec (.faultHandoffLost p h b rest) s = .next (follow s h rest unanswered { e with
          dir := e.dir.setBin b.bin { x with status := .out .unknown since } })) ∧
      ((∀ x l since, e.dir.bin b.bin = some x → x.status = .out (.lane h.sender l) since → b.code ≠ l.place.num) →
        exec (.faultHandoffLost p h b rest) s = .next (follow s h rest unanswered e))) ∧
    (Reaches h (.fault b :: rest) s → b.kind = .binCaught →
      let caught := { e with dir := e.dir.locate b.bin (.caught b.place) }
      (h.sender ≠ s.cfg.up → exec (.faultBinCaught p h b rest) s = .next (follow s h rest unanswered caught)) ∧
      (h.sender = s.cfg.up →
        let matched := fun x : Handoff => x.bin = b.bin ∧ x.peer = h.sender
        let emptied := if p.down.entry = true ∨ p.down.position = true then PlaceState.blocked none none else .empty
        let down := fun sp : Spine => { sp with down := emptied, inDown := none, driveDown := false }
        let up := fun sp : Spine => { sp with up := .blocked none none, outUp := none, driveUp := false }
        let ends := fun f : Spine → Spine =>
          exec (.faultBinCaught p h b rest) s = .next (follow s h rest unanswered { caught with spine := f e.spine })
        let inDown := ∃ x, e.spine.inDown = some x ∧ matched x
        let outUp := ∃ x, e.spine.outUp = some x ∧ matched x
        (¬ inDown → ¬ outUp → ends id) ∧ (inDown → ¬ outUp → ends down) ∧ (¬ inDown → outUp → ends up)
          ∧ (inDown → outUp → ends fun sp => up (down sp))))

/-! ## Frames heard: room calls, requests, stock, control -/

/-- A ROOM_CALL in RUN or GUARD is taken into the open call table exactly where its sender is the desk's station, volume and mass
are in range, a restricted call names a restricted desk, the down route is open, the crane is not FAULTED, the table has room and
the call is not open; no other ROOM_CALL has an effect, and none is answered (R88). -/
def Obligations.RoomCallHeard : Prop :=
  ∀ (p : Pins) (h : Header) (b : RoomCallBody) (rest : List Item) (s : State),
    Reaches h (.roomCall b :: rest) s → s.mode.working = true → 48 ≤ h.sender → h.sender ≤ 55 →
    let e := entered p h s
    let accepted := h.sender = 48 + b.call.desk.val ∧ 1 ≤ b.volume ∧ b.volume ≤ 64 ∧ 1 ≤ b.mass ∧ b.mass ≤ 250
      ∧ (b.restricted = true → b.call.desk.val ∈ s.cfg.restrictedDesks) ∧ downOpen e = true ∧ s.crane.state ≠ .faulted
      ∧ e.placement.calls.length < 4 ∧ ∀ x, x ∈ e.placement.calls → x.call ≠ b.call
    (accepted → exec (.roomCall p h b rest) s = .next (follow s h rest unanswered { e with
      placement := { e.placement with calls := e.placement.calls ++ [
        { call := b.call, volume := b.volume, mass := b.mass, restricted := b.restricted
          window := ⟨s.clock, hold 50 2000 b.window⟩, state := .waitingEval, own := none, best := none
          writtenOff := false }] } })) ∧
    (¬ accepted → exec (.roomCall p h b rest) s = .next (follow s h rest unanswered e))

/-- A BID heard in RUN or GUARD: while the call's window runs it becomes the best other where it costs less, or as much from a
lower station; a call not open, or with its claim begun, is left. A CLAIM heard in RUN or GUARD, whatever its address, closes the
call: its hold is released where the bin was not written off, its queued BID or CLAIM is withdrawn, the reservation of a queued
CLAIM is removed (R94, R98, R100, R166). R98 says that a call whose CLAIM has been sent hears no other; that its entry stays is
the model's choice, log 9, log 22. So is that a frame addressed to the station answers a CLAIM with its class's acknowledge, log
34. Of a frame not addressed to the station each further CLAIM is taken in the same way and in the same event, and every other
item is passed over. -/
def Obligations.BidAndClaimHeard : Prop :=
  (∀ (p : Pins) (h : Header) (b : BidBody) (rest : List Item) (s : State),
    Reaches h (.bid b :: rest) s → s.mode.working = true →
    let e := entered p h s
    exec (.bid p h b rest) s = .next (follow s h rest unanswered { e with
      placement := { e.placement with calls := e.placement.calls.map fun x : CallEntry =>
        if x.call = b.call ∧ x.state ≠ .claimQueued ∧ x.state ≠ .claimSent ∧ (match x.best with
          | none => true
          | some y => decide (b.cost < y.1 ∨ b.cost = y.1 ∧ b.station < y.2)) = true
        then { x with best := some (b.cost, b.station) } else x } })) ∧
  let claimed := fun (b : ClaimBody) (u : State) =>
    match u.placement.calls.find? (fun y => y.call == b.call) with
    | none => u
    | some x => if x.state = .claimSent then u else { u with
      line := if x.state = .bidQueued ∨ x.state = .claimQueued then { u.line with queue := u.line.queue.filter fun f : TxFrame =>
        !(f.onLine.isNone && (f.owner == Owner.bid b.call || f.owner == Owner.claim b.call)) } else u.line
      dir := match x.own with
        | some (_, bin) => if x.writtenOff = true then u.dir else u.dir.releaseHold bin x.volume x.mass
        | none => u.dir
      planner := match x.own with
        | some (_, bin) => if x.state = .claimQueued
          then { u.planner with reservations := u.planner.reservations.erase (bin, b.call.desk) } else u.planner
        | none => u.planner
      placement := { u.placement with calls := u.placement.calls.filter fun y : CallEntry => y.call != b.call } }
  (∀ u : State, takeClaims [] u = u ∧ ∀ i rest,
    (∀ b, i = .claim b → u.mode.working = true → takeClaims (i :: rest) u = takeClaims rest (claimed b u)) ∧
    (u.mode.working = false ∨ (∀ b, i ≠ .claim b) → takeClaims (i :: rest) u = takeClaims rest u)) ∧
  ∀ (p : Pins) (h : Header) (b : ClaimBody) (rest : List Item) (s : State),
    Hears h s → classGood h (.claim b :: rest) = true → s.mode.working = true →
    let u := claimed b (entered p h s)
    exec (.claim p h b rest) s =
      .next (if addressed s.cfg h = true then follow s h rest unanswered u else settle (takeClaims rest u))

/-- A LEND that passes the tests is taken: it joins the waiting visit of the bin to the desk, whose rank is computed anew, or makes
a visit with a number no visit uses, in the state the readiness test gives (R64 to R66, R68, R71). -/
def Obligations.LendTaken : Prop :=
  ∀ (p : Pins) (h : Header) (b : LendBody) (rest : List Item) (s : State) (x : BinEntry),
    Reaches h (.lend b :: rest) s → isGateway s.cfg h.sender = true → s.mode.working = true ∨ s.mode = .halted →
    b.id ≠ 0 →
    let e := entered p h s
    e.dir.bin b.bin = some x → tblGet e.planner.pool b.id = none →
    (x.restricted = true → b.desk.val ∈ s.cfg.restrictedDesks) → e.planner.pool.length < 48 →
    ((visitsBeforePort e b.bin b.desk).map fun v => v.requests.length).sum < 8 →
    let pool := fun n : Nat => tblPut b.id ⟨b.ref, b.desk, b.rank, .queued, n⟩ e.planner.pool
    (∀ w, e.planner.waitingVisit b.bin b.desk = some w →
      exec (.lend p h b rest) s = .next (follow s h rest took { e with planner := { e.planner with
        pool := pool w.number
        visits := e.planner.visits.map fun v : Visit =>
          if v.number = w.number then { v with
            requests := v.requests ++ [b.id]
            rank := { e.planner with pool := pool w.number }.rankOf (v.requests ++ [b.id]) v.room }
          else v } })) ∧
    (e.planner.waitingVisit b.bin b.desk = none → e.planner.visits.length + e.planner.reservations.length < 24 →
      ∃ n, (∀ v, v ∈ e.planner.visits → v.number ≠ n) ∧ (1 ≤ e.planner.nextVisit → e.planner.nextVisit ≤ 255 → 1 ≤ n ∧ n ≤ 255)
        ∧ exec (.lend p h b rest) s = .next (follow s h rest took { e with planner := { e.planner with
          pool := pool n, nextVisit := n % 255 + 1, seqCount := e.planner.seqCount + 1
          visits := e.planner.visits ++ [
            { number := n, bin := b.bin, desk := b.desk, rank := if b.rank = .urgent then .urgent else .normal
              requests := [b.id], room := none, stamp := s.clock, seq := e.planner.seqCount
              state := if x.status = .stored ∧ x.doubt = false then (if downOpen e then .ready else .waitingRoute)
                else .waitingBin }] } }))

/-- A LEND for a bin of the table that fails a test is refused with the first test's reason: DUPLICATE 5, RESTRICTED 3,
QUEUE_FULL 4; a LEND for a bin the table does not hold concerns the station not at all (R69, R70, R182). -/
def Obligations.LendRefused : Prop :=
  ∀ (p : Pins) (h : Header) (b : LendBody) (rest : List Item) (s : State),
    Reaches h (.lend b :: rest) s → isGateway s.cfg h.sender = true → s.mode.working = true ∨ s.mode = .halted →
    b.id ≠ 0 →
    let e := entered p h s
    let answer : Nat → Host.Outcome State Fault Refusal := fun reason => .next (follow s h rest refused
      (notice [.requestFailed (.head b.bin (some b.desk) (reason * 16 + 1)), .requestFailed (.request b.id b.ref)] e))
    (e.dir.bin b.bin = none → exec (.lend p h b rest) s = .next (follow s h rest unanswered e)) ∧
    ∀ x, e.dir.bin b.bin = some x →
      ((tblGet e.planner.pool b.id).isSome = true → exec (.lend p h b rest) s = answer 5) ∧
      (tblGet e.planner.pool b.id = none →
        (x.restricted = true → b.desk.val ∉ s.cfg.restrictedDesks → exec (.lend p h b rest) s = answer 3) ∧
        (x.restricted = false ∨ b.desk.val ∈ s.cfg.restrictedDesks →
          48 ≤ e.planner.pool.length ∨ 8 ≤ ((visitsBeforePort e b.bin b.desk).map fun v => v.requests.length).sum
            ∨ e.planner.waitingVisit b.bin b.desk = none ∧ 24 ≤ e.planner.visits.length + e.planner.reservations.length →
          exec (.lend p h b rest) s = answer 4))

/-- CANCEL: a request not in the pool is refused where the frame names the station, and concerns it not at all elsewhere; a
request already CANCELLED is taken again; from FETCHING on the request is marked; before it the request leaves its visit and the
pool, and a visit left with no request and no room part leaves the list, its staged move with it, the planner having passed over
the work that stands ready but what the frame's own event made ready (R69, R75, R81; log 8). -/
def Obligations.CancelHeard : Prop :=
  ∀ (p : Pins) (h : Header) (id : Nat) (rest : List Item) (s : State),
    Reaches h (.cancel id :: rest) s → isGateway s.cfg h.sender = true → s.mode.working = true ∨ s.mode = .halted →
    id ≠ 0 →
    let e := entered p h s
    (tblGet e.planner.pool id = none → toOwn s.cfg h = true →
      exec (.cancel p h id rest) s = .next (follow s h rest refused e)) ∧
    (tblGet e.planner.pool id = none → toOwn s.cfg h = false →
      exec (.cancel p h id rest) s = .next (follow s h rest unanswered e)) ∧
    ∀ r, tblGet e.planner.pool id = some r →
      (r.state = .cancelled → exec (.cancel p h id rest) s = .next (follow s h rest took e)) ∧
      ∀ v, r.state = .queued → e.planner.visit r.visit = some v →
        let freed := { e.planner with pool := tblErase id e.planner.pool }
        let left := v.requests.filter fun x => x != id
        let gone := { freed with visits := e.planner.visits.filter fun w : Visit => w.number != v.number }
        (v.state.fetched = true → exec (.cancel p h id rest) s = .next (follow s h rest took { e with
          planner := { e.planner with pool := tblPut id { r with state := .cancelled } e.planner.pool } })) ∧
        (v.state.fetched = false → left ≠ [] ∨ v.room ≠ none →
          exec (.cancel p h id rest) s = .next (follow s h rest took { e with planner := { freed with
            visits := e.planner.visits.map fun w : Visit => if w.number = v.number then { w with
              requests := left, rank := if w.state = .staged then w.rank else freed.rankOf left w.room } else w } })) ∧
        (v.state.waiting = true → left = [] → v.room = none →
          exec (.cancel p h id rest) s = .next (follow s h rest took { e with planner := gone })) ∧
        (∀ m, v.state = .staged → left = [] → v.room = none → s.crane.staged = some m → m.visit = some v.number →
          m.bound = false → exec (.cancel p h id rest) s = .next (follow s h rest took { e with
            planner := { gone with passed := some (readyWork { e with planner := gone }) }
            crane := { s.crane with staged := none } }))

/-- STOCK_AT and STOCK before any fire: the cursor takes the slot named, or end with STOCK_REFUSED 2; a body at end is refused with
2, at a RESERVED slot or with a bin at a BAD one with 3, for a bin recorded elsewhere with 1; at a slot whose bin has a visit
STAGED or later, or without doubt a promise, with 3; a body applied to a free slot enters its bin held at its grade's limits, or
records the slot EMPTY; at an OCCUPIED slot it rewrites the bin, whose promises stay, or removes it for the body's bin or for none;
the cursor moves on after every body at a slot (R19, R20, R21, R22). -/
def Obligations.StockHeard : Prop :=
  ∀ (p : Pins) (h : Header) (rest : List Item) (s : State),
    isGateway s.cfg h.sender = true → toOwn s.cfg h = true → s.mode.fiery = false →
    let e := entered p h s
    let nowhere : SlotName := ⟨.none, 0, 0⟩
    (∀ n : SlotName, Reaches h (.stockAt n :: rest) s →
      (∀ f : Face, n.face = (match f with | .L => .L | .R => .R) → inRack s.cfg ⟨f, n.col, n.level⟩ = true →
        exec (.stockAt p h n rest) s = .next (follow s h rest took { e with
          dir := { e.dir with cursor := some ⟨f, n.col, n.level⟩ } })) ∧
      (n.face = .none ∨ n.face = .position ∨ n.col < 1 ∨ s.cfg.nc < n.col ∨ n.level < 1 ∨ s.cfg.nl < n.level →
        exec (.stockAt p h n rest) s = .next (follow s h rest refused (notice [.stockRefused ⟨2, nowhere, 0⟩] { e with
          dir := { e.dir with cursor := none } })))) ∧
    (∀ b : StockBody, Reaches h (.stock b :: rest) s →
      (e.dir.cursor = none → exec (.stock p h b rest) s =
        .next (follow s h rest refused (notice [.stockRefused ⟨2, nowhere, b.bin⟩] e))) ∧
      ∀ sl, e.dir.cursor = some sl →
        let next : Option Slot :=
          if sl.level < s.cfg.nl then some ⟨sl.face, sl.col, sl.level + 1⟩
          else if sl.col < s.cfg.nc then some ⟨sl.face, sl.col + 1, 1⟩
          else if sl.face = .L then some ⟨.R, 1, 1⟩ else none
        let moved := fun u : State => { u with dir := { u.dir with cursor := next } }
        let refusal : Nat → Host.Outcome State Fault Refusal := fun reason =>
          .next (follow s h rest refused (moved (notice [.stockRefused ⟨reason, sl.name, b.bin⟩] e)))
        let applied := fun d : Directory => moved (releaseBin b.bin { e with dir := d })
        let late := fun a : Nat => ∃ v, v ∈ e.planner.visits ∧ v.bin = a ∧ v.state.waiting = false
        let promised := fun a : Nat => ∃ x, e.dir.bin a = some x ∧ (0 < x.promVolume ∨ 0 < x.promMass)
        let g := gradeOf s.cfg (hold 1 4 b.grade)
        let entry := fun pv pm : Nat => (
          { grade := hold 1 4 b.grade, fill := min b.fill (g.capacity - pv), mass := min b.mass (g.massLimit - pm)
            count := min b.count 63, restricted := b.restricted, slot := sl, status := .stored, overdue := false
            promVolume := pv, promMass := pm, doubt := false } : BinEntry)
        let elsewhere := ∃ x, e.dir.bin b.bin = some x ∧ x.slot ≠ sl
        (∀ a, e.dir.slotState sl = .reserved a → exec (.stock p h b rest) s = refusal 3) ∧
        (e.dir.slotState sl = .bad → b.bin ≠ 0 → exec (.stock p h b rest) s = refusal 3) ∧
        (e.dir.slotState sl = .empty → b.bin ≠ 0 → elsewhere → exec (.stock p h b rest) s = refusal 1) ∧
        (e.dir.slotState sl = .empty ∨ e.dir.slotState sl = .bad → b.bin = 0 →
          exec (.stock p h b rest) s = .next (follow s h rest took (applied (e.dir.setSlot sl ⟨.empty, false⟩)))) ∧
        (e.dir.slotState sl = .empty → b.bin ≠ 0 → ¬ elsewhere →
          exec (.stock p h b rest) s = .next (follow s h rest took (applied
            (((e.dir.setSlot sl ⟨.occupied b.bin, false⟩).setBin b.bin (entry 0 0)).addLoad sl (g.tare + (entry 0 0).mass))))) ∧
        ∀ a, e.dir.slotState sl = .occupied a → a ≠ 0 →
          (late a ∨ e.dir.slotDoubt sl = false ∧ promised a → exec (.stock p h b rest) s = refusal 3) ∧
          (¬ late a → e.dir.slotDoubt sl = true ∨ ¬ promised a →
            (b.bin ≠ 0 → elsewhere → exec (.stock p h b rest) s = refusal 1) ∧
            (∀ o, b.bin = a → e.dir.bin a = some o → o.slot = sl →
              let x := entry (min o.promVolume g.capacity) (min o.promMass g.massLimit)
              exec (.stock p h b rest) s = .next (follow s h rest took (applied
                (((((e.dir.dropBin a).subLoad sl ((gradeOf s.cfg o.grade).tare + o.mass + o.promMass)).setSlot sl
                  ⟨.occupied a, false⟩).setBin a x).addLoad sl (g.tare + x.mass + x.promMass))))) ∧
            (b.bin ≠ 0 → b.bin ≠ a → ¬ elsewhere →
              exec (.stock p h b rest) s = .next (follow s h rest took (moved (releaseBin b.bin (binRemoved a .unknownBin { e with
                dir := (((e.dir.removeBin s.cfg a).setSlot sl ⟨.occupied b.bin, false⟩).setBin b.bin (entry 0 0)).addLoad sl
                  (g.tare + (entry 0 0).mass) }))))) ∧
            (b.bin = 0 →
              exec (.stock p h b rest) s = .next (follow s h rest took (moved (releaseBin 0 (binRemoved a .unknownBin { e with
                dir := (e.dir.removeBin s.cfg a).setSlot sl ⟨.empty, false⟩ })))))))

/-- STOCK_END outside HALTED and fire ends the stocking and the mode is derived; STOP outside HALTED sets the stop, halts a crane
at rest, stops a moving one with its staged move discarded, and halts a holding one with its DELIVER removed and a free staged move
discarded, a FETCH's visit handed back, a TAKE_IN's stow ready again; then the mode is derived (R23, R45, R52, R60, R132; a STOP while the crane is STOPPING, log 12). -/
def Obligations.StockEndAndStopHeard : Prop :=
  ∀ (p : Pins) (h : Header) (rest : List Item) (s : State), isGateway s.cfg h.sender = true →
    let e := entered p h s
    (Reaches h (.stockEnd :: rest) s → toOwn s.cfg h = true → s.mode = .stocking ∨ s.mode.working = true →
      exec (.stockEnd p h rest) s = .next (follow s h rest took (deriveMode { e with stockEnded := true }))) ∧
    (Reaches h (.stop :: rest) s → s.mode ≠ .halted →
      let stopped : State → Host.Outcome State Fault Refusal := fun u => .next (follow s h rest took (deriveMode u))
      (s.crane.state = .idle ∨ s.crane.state = .parked → exec (.stop p h rest) s = stopped { e with
        stopTaken := true, crane := { s.crane with state := .halted } }) ∧
      (s.crane.state = .halted ∨ s.crane.state = .faulted → exec (.stop p h rest) s = stopped { e with stopTaken := true }) ∧
      (s.crane.state = .stopping → exec (.stop p h rest) s = stopped { e with
        stopTaken := true, crane := { s.crane with fireStop := false, resumeKept := false } }) ∧
      (s.crane.state = .moving →
        let u := discardStaged { e with stopTaken := true }
        exec (.stop p h rest) s = stopped { u with crane := { s.crane with
          staged := none, state := .stopping, fireStop := false, fireFinish := false, drive := .controlledStop } }) ∧
      (∀ m, s.crane.state = .holding → s.crane.current = some m → s.crane.staged = none →
        let u := visitTo m.visit .onCrane e
        exec (.stop p h rest) s = stopped { u with
          stopTaken := true, crane := { s.crane with state := .halted, current := none, holdTimer := none } }) ∧
      ∀ m st, s.crane.state = .holding → s.crane.current = some m → s.crane.staged = some st → st.bound = false →
        let u := visitTo m.visit .onCrane { e with stopTaken := true }
        let halted := { s.crane with state := .halted, current := none, staged := none, holdTimer := none }
        (∀ n, st.kind = .fetch → st.visit = some n →
          exec (.stop p h rest) s = stopped { handBack n u with crane := halted }) ∧
        (st.kind = .takeIn → s.planner.stow = .staged →
          exec (.stop p h rest) s = stopped { u with crane := halted, planner := { u.planner with stow := .ready } }))

/-- RESUME ends the stop and derives the mode. While the crane is STOPPING after a STOP it is kept. At a HALTED or FAULTED crane the
fork load sensor settles the load; a load that is unknown leaves the crane FAULTED with CRANE_LOAD_UNKNOWN, any other releases it;
the BLOCKED places whose sensors read empty are cleared in either case. The crane leaves its halt PARKED in FIRE and FIRE_SAFE, else
IDLE with the carried bin's next move made current: the DELIVER of its visit, else the STORE to its slot. The places are looked at in
the order port-out, port-in, down, up; of one cleared a kept home bin goes UNKNOWN, for port-out a waiting DELIVER starts, for port-in
the stow is gone (R41, R61, R62, R125; a carried bin of no entry, log 14; a RESUME while STOPPING, log 12). That an uncertain bin without a load leaves
the fork where the directory refuses its store too is the model's choice, log 40. -/
def Obligations.ResumeHeard : Prop :=
  (∀ u : State,
    let idle := { u with crane := { u.crane with state := .idle } }
    (u.mode.fiery = true → leaveHalt u = { u with crane := { u.crane with state := .parked } }) ∧
    (u.mode.fiery = false → leaveHalt u = nextMove idle) ∧
    (u.crane.carried = none → nextMove u = u) ∧
    (∀ c v, u.crane.carried = some c → c.visit = some v →
      nextMove u = makeCurrent .deliver (.pos ⟨0, u.cfg.portLevel⟩) (some v) true u) ∧
    (∀ c, u.crane.carried = some c → c.visit = none → nextMove u = makeStore c.bin u) ∧
    (∀ b e, u.dir.bin b = some e → makeStore b u = makeCurrent .store (.slot e.slot) none true u) ∧
    (∀ b, u.dir.bin b = none →
      let v := discardStaged { u with crane := { u.crane with current := none, forkCycle := false, tag := .awaited } }
      makeStore b u = faultNotice { faultBody .storeBlocked with bin := b, slotA := ⟨.none, 0, 0⟩ }
        { v with crane := { v.crane with state := .faulted, fireFinish := false, drive := .stop } })) ∧
  (∀ (place : SpinePlace) (u : State),
    let x := match place with
      | .portOut => u.spine.portOut
      | .portIn => u.spine.portIn
      | .down => u.spine.down
      | .up => u.spine.up
    let sensors := match place with
      | .portOut => u.pins.portOut
      | .portIn => u.pins.portIn
      | .down => u.pins.down
      | .up => u.pins.up
    clearBlocked u = clearPlace .up (clearPlace .down (clearPlace .portIn (clearPlace .portOut u))) ∧
    (∀ kept lost, x = .blocked kept lost → sensors.entry = false → sensors.position = false →
      let e := { u with dir := match kept with | some r => u.dir.locate r.bin .unknown | none => u.dir }
      clearPlace place u = match place with
        | .portOut => portOutEmptied { e with spine := { u.spine with portOut := .empty } }
        | .portIn => { e with
          spine := { u.spine with portIn := .empty }, planner := { u.planner with stow := .absent, mark := false } }
        | .down => { e with spine := { u.spine with down := .empty } }
        | .up => { e with spine := { u.spine with up := .empty } }) ∧
    ((∀ kept lost, x ≠ .blocked kept lost) ∨ sensors.entry = true ∨ sensors.position = true → clearPlace place u = u)) ∧
  ∀ (p : Pins) (h : Header) (rest : List Item) (s : State),
    Reaches h (.resume :: rest) s → isGateway s.cfg h.sender = true →
    let m := deriveMode { entered p h s with stopTaken := false }
    let crane := { m.crane with pos := ⟨hold 0 s.cfg.nc p.encCol, hold 1 s.cfg.nl p.encLevel⟩ }
    let resumed : State → Host.Outcome State Fault Refusal := fun u => .next (follow s h rest took u)
    let unknown : Nat → Host.Outcome State Fault Refusal := fun bin => resumed (clearBlocked
      (faultNotice { faultBody .craneLoadUnknown with bin := bin } { m with crane := { crane with state := .faulted } }))
    (m.crane.state = .stopping → m.crane.fireStop = false →
      exec (.resume p h rest) s = resumed { m with crane := { m.crane with resumeKept := true } }) ∧
    (m.crane.state = .idle ∨ m.crane.state = .moving ∨ m.crane.state = .holding ∨ m.crane.state = .parked
        ∨ m.crane.state = .stopping ∧ m.crane.fireStop = true →
      exec (.resume p h rest) s = resumed (clearBlocked { m with crane := crane })) ∧
    (m.crane.state = .halted ∨ m.crane.state = .faulted →
      (m.crane.carried = none → p.load = false → exec (.resume p h rest) s =
        resumed (leaveHalt (clearBlocked { m with crane := { crane with unknownLoad := false } }))) ∧
      (m.crane.carried = none → p.load = true → exec (.resume p h rest) s = unknown 0) ∧
      ∀ c, m.crane.carried = some c →
        (c.uncertain = false → p.load = true →
          exec (.resume p h rest) s = resumed (leaveHalt (clearBlocked { m with crane := crane }))) ∧
        (c.uncertain = false → p.load = false → exec (.resume p h rest) s = unknown c.bin) ∧
        (c.uncertain = true → p.load = true → exec (.resume p h rest) s = resumed (leaveHalt (clearBlocked
          { m with crane := { crane with carried := some { c with uncertain := false } } }))) ∧
        (c.uncertain = true → p.load = false → exec (.resume p h rest) s = resumed (leaveHalt (clearBlocked
          (handBackLink c.visit (storeBin c.bin none (c.record.bind recordRoom)
            { m with crane := { crane with carried := none } }))))))

/-- WRITE_OFF of a bin OUT at CAUGHT or UNKNOWN takes its entry, its share and its slot's reservation away, fails its visits and
closes its calls; any other bin is refused; it is taken in RUN, GUARD and HALTED, and in FIRE and FIRE_SAFE from the stock end on.
Of a bin removed every visit goes, its pool entries are freed, and a REQUEST_FAILED with the reason names its QUEUED requests, in
the order of the visit list, which is the model's choice, log 49; the calls that hold the bin close without a release, a queued
BID or CLAIM is withdrawn and a queued CLAIM's reservation removed, and a call with its CLAIM on the line is marked and stays.
QUERY queues the STATION_REPORT, each field of it as it stands, and, where it enters the queue, clears LIMITED and
notices-discarded (R21, R24, R30, R80, R100, R171, R177, R183, R190). -/
def Obligations.WriteOffAndQueryHeard : Prop :=
  (∀ (u : State) (bin : Nat) (why : FailReason), CallsInv u → (u.planner.visits.map fun v => v.number).Nodup →
    let holds := fun x : CallEntry => match x.own with
      | some (_, b) => b == bin
      | none => false
    let failing := u.planner.visits.filter fun v => v.bin == bin
    let closing := u.placement.calls.filter fun x => holds x && x.state != .claimSent
    let fails := fun (t : State) (v : Visit) =>
      let queued := v.requests.filterMap fun id => (tblGet t.planner.pool id).bind fun r =>
        if r.state = .queued then some (id, r.ref) else none
      let gone := { t with planner := { t.planner with
        visits := t.planner.visits.filter fun w => w.number != v.number
        pool := v.requests.foldl (fun pool id => tblErase id pool) t.planner.pool } }
      if queued = [] then gone
      else notice (.requestFailed (.head v.bin (some v.desk) (why.num * 16))
        :: queued.map fun r => .requestFailed (.request r.1 r.2)) gone
    let failed := failing.foldl fails u
    failed = { u with
      line := failed.line
      planner := { u.planner with
        visits := u.planner.visits.filter fun v => v.bin != bin
        pool := failing.foldl (fun pool v => v.requests.foldl (fun pool id => tblErase id pool) pool) u.planner.pool } } ∧
    binRemoved bin why u = { failed with
      line := { failed.line with queue := failed.line.queue.filter fun f => !(f.onLine.isNone && closing.any fun x =>
        (x.state == .bidQueued || x.state == .claimQueued) && (f.owner == .bid x.call || f.owner == .claim x.call)) }
      planner := { failed.planner with
        reservations := closing.foldl (fun l x => if x.state = .claimQueued then l.erase (bin, x.call.desk) else l)
          u.planner.reservations }
      placement := { u.placement with
        calls := (u.placement.calls.filter fun x => !(holds x && x.state != .claimSent)).map fun x =>
          if holds x = true then { x with writtenOff := true } else x } }) ∧
  (∀ u : State,
    let heardAge := fun n : Nat => if n = 63 then 65535 else match tblGet u.line.neighbours n with
      | some (_, t) => min 65534 ((u.clock - t).toNat / 1000)
      | none => 65535
    stationReport u =
      { mode := match u.mode with
          | .run => 1 | .guard => 2 | .fire => 3 | .fireSafe => 4 | .halted => 5 | .start | .unconfigured | .stocking => 0
        crane := match u.crane.state with
          | .idle => 0 | .moving => 1 | .holding => 2 | .stopping => 3 | .parked => 4 | .halted => 5 | .faulted => 6
        pool := u.planner.pool.length, visits := u.planner.visits.length, empties := u.dir.counts.empties.toNat
        occupied := u.dir.counts.occupied, reserved := u.dir.counts.reserved, bad := u.dir.counts.bad
        limited := u.limited, discarded := u.line.discarded, clamped := u.loader.clamped
        crc := (u.loader.image.getD 126 0xFF).toNat * 256 + (u.loader.image.getD 127 0xFF).toNat
        upAge := heardAge u.cfg.up, downAge := heardAge u.cfg.down }) ∧
  ∀ (p : Pins) (h : Header) (rest : List Item) (s : State), isGateway s.cfg h.sender = true → toOwn s.cfg h = true →
    let e := entered p h s
    (∀ bin, Reaches h (.writeOff bin :: rest) s →
      s.mode.working = true ∨ s.mode = .halted ∨ s.mode.fiery = true ∧ s.stockEnded = true →
      (∀ x since, e.dir.bin bin = some x → x.status = .out .unknown since ∨ (∃ seg, x.status = .out (.caught seg) since) →
        exec (.writeOff p h bin rest) s = .next (follow s h rest took (binRemoved bin .writtenOff { e with
          dir := ((e.dir.dropBin bin).subLoad x.slot (binShare s.cfg x)).setSlot x.slot ⟨.empty, false⟩ }))) ∧
      ((∀ x since, e.dir.bin bin = some x → x.status ≠ .out .unknown since ∧ ∀ seg, x.status ≠ .out (.caught seg) since) →
        exec (.writeOff p h bin rest) s = .next (follow s h rest refused e))) ∧
    (Reaches h (.query :: rest) s →
      (noticeCount e.line.queue < 6 ∧ e.line.queue.length < 12 →
        exec (.query p h rest) s = .next (follow s h rest took { e with
          limited := false
          line := { e.line with
            queue := insertFrame (noticeFrame [.stationReport (stationReport e)]) e.line.queue, discarded := false } })) ∧
      (6 ≤ noticeCount e.line.queue ∨ 12 ≤ e.line.queue.length →
        exec (.query p h rest) s = .next (follow s h rest took { e with line := { e.line with discarded := true } })))

/-! ## The crane -/

/-- IN_POSITION of a moving crane reads the encoders. A FETCH, DELIVER or TAKE_IN begins its fork cycle, and so does a STORE whose
slot reads free. A STORE whose slot reads occupied gets a new slot by re-slot and starts to it, with FAULT SLOT_CONFLICT, or under
a fire order to finish leaves the bin to a PARK, before which what is staged is discarded, the model's choice, log 46; where none
is found the crane is FAULTED with STORE_BLOCKED and the staged move is discarded, a FETCH's visit handed back. A re-slot leaves
the old slot BAD, the new one RESERVED, the bin's slot field naming it, and moves the bin's share to the new column; it is made
for an OUT bin whose slot is RESERVED for it alone, and that a conflict of any other bin is answered as where no slot is found is
the model's choice, log 45. A PARK completes PARKED. A move made current is estimated from the encoders, the fork time left out
for a PARK, and started: MOVING to its target, its start stamped, its budget timer lasting the estimate, a quarter of it and the
slack; in FIRE and FIRE_SAFE none but a PARK starts, and the crane is IDLE. At the start its visit is FETCHING or DELIVERING, or
the stow no longer waits; a DELIVER that finds PORT_OUT not EMPTY is not started but HOLDING under the hold limit timer. A FETCH
stages its DELIVER, a TAKE_IN its STORE, bound (R29, R32, R43, R46, R47, R52, R57, R59, R76, R79; a bin at port-in of no entry,
log 14; the estimate's held axis times, log 29; the stamp of a start, log 33; the work passed over, which a move made current
forgets, log 8; R15, R68, R135). -/
def Obligations.InPositionReported : Prop :=
  (∀ (cfg : StationConfig) (d : Directory) (b : Nat) (old : Slot) (start : Pos),
    (d.bin b = none → d.reslot cfg b old start = none) ∧
    ∀ x, d.bin b = some x →
      let share := (gradeOf cfg x.grade).tare + x.mass + x.promMass
      let asked := x.status ≠ .stored ∧ x.slot = old ∧ d.slotState old = .reserved b
      (¬ asked → d.reslot cfg b old start = none) ∧
      (d.chooseSlot cfg x.restricted share start = none → d.reslot cfg b old start = none) ∧
      ∀ new, asked → d.chooseSlot cfg x.restricted share start = some new → tblWf d.loads = true →
        ∃ t, d.reslot cfg b old start = some (new, t) ∧ t.bin b = some { x with slot := new }
          ∧ t.slotRec old = ⟨.bad, false⟩ ∧ t.slotRec new = ⟨.reserved b, false⟩
          ∧ (∀ sl, slotKey sl ≠ slotKey old → slotKey sl ≠ slotKey new → t.slotRec sl = d.slotRec sl)
          ∧ (∀ y, y ≠ b → t.bin y = d.bin y) ∧ t.cursor = d.cursor
          ∧ (faceKey new ≠ faceKey old → t.load old = d.load old - share ∧ t.load new = d.load new + share)
          ∧ (faceKey new = faceKey old → t.load old = d.load old - share + share)
          ∧ ∀ sl, faceKey sl ≠ faceKey old → faceKey sl ≠ faceKey new → t.load sl = d.load sl) ∧
  (∀ (m : Move) (u : State),
    let stamped := { u.planner with startStamp := some u.clock }
    let seen := fun st : VisitState => { stamped with
      visits := u.planner.visits.map fun w => if m.visit = some w.number then { w with state := st } else w }
    let moved := { u with crane := { u.crane with
      pos := ⟨hold 0 u.cfg.nc u.pins.encCol, hold 1 u.cfg.nl u.pins.encLevel⟩, state := .moving
      current := some { m with timer := some ⟨u.clock, m.estimate + m.estimate / 4 + u.cfg.slack⟩ }
      forkCycle := false, tag := .awaited, holdTimer := none, fireStop := false, fireFinish := false
      drive := .go m.kind m.target } }
    (u.mode.fiery = true → m.kind ≠ .park →
      startMove m u = { u with crane := { u.crane with state := .idle, current := none } }) ∧
    (m.kind = .park → startMove m u = moved) ∧
    (u.mode.fiery = false →
      (m.kind = .fetch → startMove m u = { moved with planner := seen .fetching }) ∧
      (m.kind = .deliver → startMove m u = { moved with planner := seen .delivering }) ∧
      (m.kind = .takeIn → startMove m u = { moved with planner := { stamped with stow := .current, mark := false } }) ∧
      (m.kind = .store → startMove m u = { moved with planner := stamped }))) ∧
  (∀ (kind : MoveKind) (target : Target) (visit : Option Nat) (bound : Bool) (u : State),
    let here : Pos := ⟨hold 0 u.cfg.nc u.pins.encCol, hold 1 u.cfg.nl u.pins.encLevel⟩
    let port : Pos := ⟨0, u.cfg.portLevel⟩
    let m : Move := ⟨kind, target, visit, bound, legTime u.cfg here target.at (kind != .park), none⟩
    let asked := { u with
      limited := u.limited || legHeld u.cfg here target.at, planner := { u.planner with passed := none }
      crane := { u.crane with estimateHeld := legHeld u.cfg here target.at } }
    let started := startMove m asked
    let made := makeCurrent kind target visit bound u
    let followed := fun (start : Pos) (next : Move) => { started with
      limited := started.limited || legHeld u.cfg start next.target.at, crane := { started.crane with staged := some next } }
    (kind = .store ∨ kind = .park ∨ kind = .deliver ∧ u.spine.portOut = .empty → made = started) ∧
    (kind = .deliver → u.spine.portOut ≠ .empty → made = { asked with
      crane := { asked.crane with
        state := .holding, current := some m, forkCycle := false, tag := .awaited
        holdTimer := some ⟨u.clock, u.cfg.holdLimit * 1000⟩ }
      planner := { asked.planner with
        visits := u.planner.visits.map fun w => if visit = some w.number then { w with state := .holding } else w } }) ∧
    (kind = .fetch → made = followed target.at ⟨.deliver, .pos port, visit, true, legTime u.cfg target.at port true, none⟩) ∧
    (kind = .takeIn →
      (∀ r e, u.spine.portIn = .holding r → u.dir.bin r.bin = some e →
        made = followed port ⟨.store, .slot e.slot, none, true, legTime u.cfg port e.slot.pos true, none⟩) ∧
      ((∀ r, u.spine.portIn = .holding r → u.dir.bin r.bin = none) →
        made = followed port ⟨.store, .pos port, none, true, legTime u.cfg port port true, none⟩))) ∧
  ∀ (p : Pins) (m : Move) (s : State),
    s.live = true → s.crane.state = .moving → s.crane.current = some m → s.crane.forkCycle = false →
    let e := { s with pins := p }
    let here : Pos := ⟨hold 0 s.cfg.nc p.encCol, hold 1 s.cfg.nl p.encLevel⟩
    let rest := { s.crane with pos := here, current := none, forkCycle := false, tag := .awaited }
    let forks := { e with crane := { s.crane with pos := here, forkCycle := true } }
    (m.kind = .fetch ∨ m.kind = .deliver ∨ m.kind = .takeIn → exec (.inPosition p) s = .next (settle forks)) ∧
    (∀ sl c, m.kind = .store → m.target = .slot sl → s.crane.carried = some c →
      let held := s.limited || s.dir.reslotHeld s.cfg c.bin sl here
      (p.slot = false → exec (.inPosition p) s = .next (settle forks)) ∧
      (∀ new d, p.slot = true → s.dir.reslot s.cfg c.bin sl here = some (new, d) → s.crane.fireFinish = false →
        exec (.inPosition p) s = .next (settle (makeCurrent .store (.slot new) none true (faultNotice
          { faultBody .slotConflict with bin := c.bin, slotA := sl.name, slotB := new.name }
          { e with limited := held, dir := d, crane := rest })))) ∧
      (∀ new d, p.slot = true → s.dir.reslot s.cfg c.bin sl here = some (new, d) → s.crane.fireFinish = true →
        let noticed := faultNotice { faultBody .slotConflict with bin := c.bin, slotA := sl.name, slotB := new.name }
          { e with limited := held, dir := d, crane := rest }
        exec (.inPosition p) s = .next (settle (park { noticed with crane := { rest with fireFinish := false } }))) ∧
      (p.slot = true → s.dir.reslot s.cfg c.bin sl here = none → s.crane.staged = none →
        exec (.inPosition p) s = .next (settle (faultNotice
          { faultBody .storeBlocked with bin := c.bin, slotA := sl.name }
          { e with limited := held, crane := { rest with state := .faulted, fireFinish := false, drive := .stop } }))) ∧
      (∀ st, p.slot = true → s.dir.reslot s.cfg c.bin sl here = none → s.crane.staged = some st → st.bound = false →
        let faulted := { rest with staged := none, state := .faulted, fireFinish := false, drive := .stop }
        let asked := { e with limited := held, crane := { rest with staged := none } }
        let fault := faultNotice { faultBody .storeBlocked with bin := c.bin, slotA := sl.name }
        (∀ n, st.kind = .fetch → st.visit = some n →
          exec (.inPosition p) s = .next (settle (fault { handBack n asked with crane := faulted }))) ∧
        (st.kind = .takeIn → s.planner.stow = .staged → exec (.inPosition p) s =
          .next (settle (fault { asked with crane := faulted, planner := { s.planner with stow := .ready } }))))) ∧
    (m.kind = .park →
      let parked := { e with crane := { rest with state := .parked, fireFinish := false } }
      (s.fire.alarmed (ownComp s.cfg) = true → exec (.inPosition p) s = .next (settle parked)) ∧
      (s.fire.alarmed (ownComp s.cfg) = false → exec (.inPosition p) s = .next (settle (unpark parked))))

/-- FORK_TAG_READ in the fork cycle of a FETCH: the bin's own tag lets the cycle go on, NO_READ too with FAULT TAG_UNREAD; another
tag doubts the slot and both bins, withholds their visits, fails the visit, discards the bound DELIVER and queues FAULT TAG_MISMATCH;
a free move staged behind the FETCH stays, and with the stage emptied the planner makes no selection in this event, log 8. A visit
that fails leaves the list with its requests, REQUEST_FAILED naming those that are QUEUED, and where it is asked the hold of its room
part is released. The marking sets the doubt mark of the FETCH's slot and the flag of its bin, and, where the bin read is STORED in
another slot, that slot's mark and that bin's flag; counts, loads, contents and every other slot and bin stay (R4, R50, R51, R73, R75, R80, R182). -/
def Obligations.ForkTagReported : Prop :=
  (∀ (d : Directory) (b x : Nat) (e : BinEntry), d.bin b = some e → e.status = .stored →
    let t := d.markDoubt b x
    t.bin b = some { e with doubt := true } ∧ t.slotRec e.slot = ⟨d.slotState e.slot, true⟩
    ∧ (∀ y, d.bin x = some y → y.status = .stored →
      t.bin x = some { y with doubt := true } ∧ t.slotRec y.slot = ⟨d.slotState y.slot, true⟩
      ∧ ∀ sl, slotKey sl ≠ slotKey e.slot → slotKey sl ≠ slotKey y.slot → t.slotRec sl = d.slotRec sl)
    ∧ ((∀ y, d.bin x = some y → y.status ≠ .stored) →
      t.bin x = d.bin x ∧ ∀ sl, slotKey sl ≠ slotKey e.slot → t.slotRec sl = d.slotRec sl)
    ∧ (∀ z, z ≠ b → z ≠ x → t.bin z = d.bin z) ∧ t.loads = d.loads ∧ t.cursor = d.cursor
    ∧ (d.slotState e.slot = .occupied b → (∀ y, d.bin x = some y → y.status = .stored → d.slotState y.slot = .occupied x) →
      0 < d.counts.occupied → t.counts = d.counts)) ∧
  (∀ (u : State) (n : Nat) (v : Visit) (why : FailReason) (release : Bool), u.planner.visit n = some v →
    let queued := v.requests.filterMap fun id => (tblGet u.planner.pool id).bind fun r =>
      if r.state = .queued then some (id, r.ref) else none
    let gone := { u with planner := { u.planner with
      visits := u.planner.visits.filter fun w => w.number != n
      pool := v.requests.foldl (fun pool id => tblErase id pool) u.planner.pool } }
    let told := if queued = [] then gone
      else notice (.requestFailed (.head v.bin (some v.desk) (why.num * 16))
        :: queued.map fun r => .requestFailed (.request r.1 r.2)) gone
    failVisit n why release u = (match v.room with
      | some part => { told with dir := if release = true then u.dir.releaseHold v.bin part.volume part.mass else u.dir }
      | none => told)) ∧
  (FailReason.unknownBin.num = 6 ∧ FailReason.tagMismatch.num = 7 ∧ FailReason.writtenOff.num = 8) ∧
  ∀ (p : Pins) (m : Move) (n : Nat) (v : Visit) (s : State),
    s.live = true → s.crane.state = .moving → s.crane.current = some m → m.kind = .fetch → s.crane.forkCycle = true →
    s.crane.tag = .awaited → m.visit = some n → s.planner.visit n = some v →
    let e := { s with pins := p }
    let passed := { e with crane := { s.crane with tag := .passed } }
    exec (.forkTagRead p .hit) s = .next (settle passed) ∧
    exec (.forkTagRead p .noRead) s =
      .next (settle (faultNotice { faultBody .tagUnread with bin := v.bin, slotA := m.target.name } passed)) ∧
    ∀ x, let marked := { e with dir := s.dir.markDoubt v.bin x }
      let held := withholdBin v.bin (if marked.dir.isDoubted x then withholdBin x marked else marked)
      let failed := faultNotice { faultBody .tagMismatch with bin := v.bin, second := x, slotA := m.target.name }
        (failVisit n .tagMismatch true held)
      let put := { s.crane with tag := .mismatched, current := some { m with visit := none } }
      let kept := { failed with crane := put }
      (s.crane.staged = none ∨ (∃ d, s.crane.staged = some d ∧ d.bound = false) →
        exec (.forkTagRead p (.mismatch x)) s = .next (settle kept)) ∧
      (∀ d, s.crane.staged = some d → d.bound = true →
        exec (.forkTagRead p (.mismatch x)) s = .next (settle { kept with
          crane := { put with staged := none }, planner := { kept.planner with passed := some (readyWork kept) } }) ∧
        (s.mode.working = true →
          (selectWork { kept with
            crane := { put with staged := none }
            planner := { kept.planner with passed := some (readyWork kept) } }).crane = { put with staged := none }))

/-- FORK_DONE in the fork cycle reads the encoders and completes the move: a FETCH takes its bin out and carries it, its other
visits waiting for the bin, or leaves the crane FAULTED with the load unknown where the take-out is refused; a DELIVER hands the
bin over, PORT_OUT holding the travel record that visit and entry give; a TAKE_IN carries the bin of PORT_IN, which is EMPTY; a
STORE stores the carried bin. Under a fire order to finish a PARK follows; else the staged move: a bound one is made current with
its estimate anew, a free one where its work still stands; where it does not, the visit is handed back or the stow ready again and
the crane IDLE, as it is with none staged (R44, R47, R50, R54, R56, R58, R106, R135; the refused take-out, log 13). That the PARK
of a fire order to finish follows in every mode, after a RESTORE in between too, is the model's choice, log 28, and so is that a
free move then staged is discarded before it, and at a refused take-out, log 46; so is that a FETCH whose fork tag was never
reported takes its bin out as after a MATCH, log 44. -/
def Obligations.ForkDoneCompletes : Prop :=
  (∀ (u : State) (bin n : Nat) (v : Visit) (x : BinEntry), u.planner.visit n = some v → u.dir.bin bin = some x →
    let queued := v.requests.filter fun id => match tblGet u.planner.pool id with
      | some r => r.state == .queued
      | none => false
    let record : TravelRecord :=
      { bin := bin, home := u.cfg.station, dest := .desk v.desk, hop := 0
        purpose := if v.room = none then .lend else if queued = [] then .room else .lendRoom
        grade := x.grade, fill := x.fill, mass := x.mass, count := x.count, restricted := x.restricted
        call := v.room.map fun part => ⟨part.call, part.volume, part.mass⟩, requests := queued }
    handOver bin (some n) u = { u with
      spine := { u.spine with portOut := .holding record, portOutVisit := some n }
      dir := u.dir.locate bin .portOut
      planner := { u.planner with visits := u.planner.visits.map fun w =>
        if w.number = n then { w with state := .atPort } else w } }) ∧
  ∀ (p : Pins) (m : Move) (s : State),
    s.live = true → s.crane.state = .moving → s.crane.current = some m → s.crane.forkCycle = true →
    let e := { s with pins := p }
    let crane := { s.crane with
      pos := ⟨hold 0 s.cfg.nc p.encCol, hold 1 s.cfg.nl p.encLevel⟩, current := none, forkCycle := false, tag := .awaited }
    let done := fun u : State => exec (.forkDone p) s = .next (settle (afterCompletion u))
    (∀ n v d, m.kind = .fetch → s.crane.tag ≠ .mismatched → m.visit = some n → s.planner.visit n = some v →
      s.dir.takeOut s.clock v.bin = some d →
      let u := visitTo (some n) .onCrane (withholdBin v.bin { e with dir := d })
      done { u with crane := { crane with carried := some ⟨v.bin, none, some n, false⟩ } }) ∧
    (∀ n v, m.kind = .fetch → s.crane.tag ≠ .mismatched → m.visit = some n → s.planner.visit n = some v →
      s.dir.takeOut s.clock v.bin = none → exec (.forkDone p) s = .next (settle (failVisit n .unknownBin true
        (let q := discardStaged { e with crane := crane }
        faultNotice (faultBody .craneLoadUnknown) { q with crane := { q.crane with
          state := .faulted, unknownLoad := true, fireFinish := false, drive := .stop } })))) ∧
    (m.kind = .fetch → s.crane.tag = .mismatched → done { e with crane := crane }) ∧
    (∀ c, m.kind = .deliver → s.crane.carried = some c →
      done (handOver c.bin c.visit { e with crane := { crane with carried := none } })) ∧
    (∀ r, m.kind = .takeIn → s.spine.portIn = .holding r → done { e with
      dir := s.dir.locate r.bin .crane, spine := { s.spine with portIn := .empty }
      planner := { s.planner with stow := .absent, mark := false }
      crane := { crane with carried := some ⟨r.bin, some r, none, false⟩ } }) ∧
    (∀ c, m.kind = .store → s.crane.carried = some c →
      done (storeBin c.bin (c.record.map recordContents) (c.record.bind recordRoom)
        { e with crane := { crane with carried := none } })) ∧
    ∀ u : State,
      let emptied := { u with crane := { u.crane with staged := none } }
      let idle := { u.crane with state := .idle, staged := none }
      (u.crane.fireFinish = true → afterCompletion u = park { u with crane := { u.crane with fireFinish := false } }) ∧
      (u.crane.fireFinish = false →
        (u.crane.staged = none → afterCompletion u = { u with crane := idle }) ∧
        ∀ m, u.crane.staged = some m →
          (m.bound = true →
            (∀ c, m.kind = .store → u.crane.carried = some c → afterCompletion u = makeStore c.bin emptied) ∧
            (m.kind ≠ .store → afterCompletion u = makeCurrent m.kind m.target m.visit true emptied)) ∧
          (∀ n v, m.bound = false → m.kind = .fetch → m.visit = some n → u.planner.visit n = some v →
            let stands := u.mode.fiery = false ∧ downOpen u = true
              ∧ ∃ x, u.dir.bin v.bin = some x ∧ x.status = .stored ∧ x.doubt = false
            (stands → afterCompletion u = makeCurrent .fetch m.target m.visit false emptied) ∧
            (¬ stands → afterCompletion u = { handBack n emptied with crane := idle })) ∧
          (m.bound = false → m.kind = .takeIn → u.planner.stow = .staged →
            (∀ r, u.spine.portIn = .holding r → afterCompletion u = makeCurrent .takeIn m.target m.visit false emptied) ∧
            ((∀ r, u.spine.portIn ≠ .holding r) →
              afterCompletion u = { u with crane := idle, planner := { u.planner with stow := .ready } })))

/-- STOPPED: the encoders are read and the move ends at its last certain point. After a STOP the crane is HALTED, and a RESUME
kept acts at once; under a fire order to stop the load is resolved, and a PARK follows unless the resolution leaves the crane
FAULTED. A FETCH stopped before its fork cycle hands its visit back, one stopped in it carries its bin uncertain, or after a
MISMATCH leaves the load unknown, and so it does where the take-out is refused, its visit failing with UNKNOWN_BIN, the model's
choice, log 13. A DELIVER keeps its bin, a STORE too, in the fork cycle uncertain, for a DELIVER with PORT_OUT BLOCKED. A TAKE_IN
makes the stow ready again, or in its fork cycle carries its bin uncertain with PORT_IN BLOCKED (R41, R46, R49, R60, R61, R62,
R134; a STOP or RESUME while STOPPING, log 12; the work passed over, which a PARK made current forgets, log 8). That an uncertain
bin without a load leaves the fork where the directory refuses its store too is the model's choice, log 40; so is that a RESTORE
does not take back the PARK of a fire order to stop, log 28, and that a PARK is made with whatever is staged discarded first, log
46. -/
def Obligations.StoppedReported : Prop :=
  (∀ (p : Pins) (m : Move) (s : State), s.live = true → s.crane.state = .stopping → s.crane.current = some m →
    let e := { s with
      pins := p, crane := { s.crane with pos := ⟨hold 0 s.cfg.nc p.encCol, hold 1 s.cfg.nl p.encLevel⟩ } }
    let ended := { e.crane with current := none, forkCycle := false, tag := .awaited }
    let u := abandonMove e
    (s.crane.fireStop = false →
      let halted := { u with crane := { u.crane with state := .halted } }
      (s.crane.resumeKept = false → exec (.stopped p) s = .next (settle halted)) ∧
      (s.crane.resumeKept = true → exec (.stopped p) s =
        .next (settle (resumeSteps { halted with crane := { halted.crane with resumeKept := false } })))) ∧
    (s.crane.fireStop = true →
      let crane := { u.crane with fireStop := false, state := .idle }
      let faulted := fun bin : Nat => .next (settle (faultNotice { faultBody .craneLoadUnknown with bin := bin }
        { u with crane := { crane with state := .faulted } }))
      (u.crane.carried = none →
        (p.load = false → exec (.stopped p) s = .next (settle (park { u with crane := { crane with unknownLoad := false } }))) ∧
        (p.load = true → exec (.stopped p) s = faulted 0)) ∧
      ∀ c, u.crane.carried = some c →
        (c.uncertain = false → p.load = true → exec (.stopped p) s = .next (settle (park { u with crane := crane }))) ∧
        (c.uncertain = false → p.load = false → exec (.stopped p) s = faulted c.bin) ∧
        (c.uncertain = true → p.load = true → exec (.stopped p) s =
          .next (settle (park { u with crane := { crane with carried := some { c with uncertain := false } } }))) ∧
        (c.uncertain = true → p.load = false → exec (.stopped p) s = .next (settle (park (handBackLink c.visit
          (storeBin c.bin none (c.record.bind recordRoom) { u with crane := { crane with carried := none } })))))) ∧
    (∀ n v, m.kind = .fetch → m.visit = some n → s.planner.visit n = some v →
      (s.crane.forkCycle = false → u = { handBack n e with crane := ended }) ∧
      (∀ d, s.crane.forkCycle = true → s.crane.tag ≠ .mismatched → s.dir.takeOut s.clock v.bin = some d →
        u = { visitTo (some n) .onCrane (withholdBin v.bin { e with dir := d }) with
          crane := { ended with carried := some ⟨v.bin, none, some n, true⟩ } })) ∧
    (∀ n v, m.kind = .fetch → m.visit = some n → s.planner.visit n = some v → s.crane.forkCycle = true →
      s.crane.tag ≠ .mismatched → s.dir.takeOut s.clock v.bin = none →
      u = { failVisit n .unknownBin true e with crane := { ended with unknownLoad := true } }) ∧
    (m.kind = .fetch → s.crane.forkCycle = true → s.crane.tag = .mismatched →
      u = { e with crane := { ended with unknownLoad := true } }) ∧
    (∀ c, m.kind = .store → s.crane.carried = some c →
      u = { e with crane := { ended with carried := some (if s.crane.forkCycle = true then { c with uncertain := true } else c) } }) ∧
    (∀ c, m.kind = .deliver → s.crane.carried = some c →
      (s.crane.forkCycle = false → u = { visitTo m.visit .onCrane e with crane := ended }) ∧
      (s.crane.forkCycle = true → u = { visitTo m.visit .onCrane e with
        crane := { ended with carried := some { c with uncertain := true } }
        spine := { s.spine with portOut := .blocked none none } })) ∧
    (m.kind = .takeIn → s.crane.forkCycle = false →
      u = { e with crane := ended, planner := { s.planner with stow := .ready } }) ∧
    (∀ r, m.kind = .takeIn → s.crane.forkCycle = true → s.spine.portIn = .holding r → u = { e with
      crane := { ended with carried := some ⟨r.bin, some r, none, true⟩ }
      dir := s.dir.locate r.bin .crane, spine := { s.spine with portIn := .blocked none none }
      planner := { s.planner with stow := .absent, mark := false } })) ∧
  (∀ u : State, park u = park (discardStaged u)) ∧
  ∀ u : State, u.crane.staged = none →
    let here : Pos := ⟨hold 0 u.cfg.nc u.pins.encCol, hold 1 u.cfg.nl u.pins.encLevel⟩
    let target : Pos := ⟨u.cfg.parkCol, u.cfg.parkLevel⟩
    let est := legTime u.cfg here target false
    park u = { u with
      limited := u.limited || legHeld u.cfg here target, planner := { u.planner with passed := none }
      crane := { u.crane with
        pos := here, state := .moving
        current := some ⟨.park, .pos target, none, false, est, some ⟨u.clock, est + est / 4 + u.cfg.slack⟩⟩
        forkCycle := false, tag := .awaited, holdTimer := none, fireStop := false, fireFinish := false
        estimateHeld := legHeld u.cfg here target, drive := .go .park (.pos target) } }

/-- MOVE_BUDGET_EXPIRY of a crane that moves or stops is a stall: FAULTED at the encoder position, the drive stopped, the move
abandoned, the staged move discarded, FAULT CRANE_STALL, which names the carried bin, else the bin of the FETCH or the bin at
port-in, else 0. HOLD_LIMIT_EXPIRY stores the carried bin back: its visit is handed back and a bound STORE to its own slot
follows. Before expiry either changes nothing. A visit handed back keeps its QUEUED requests; left with none and no room part it
is gone; else it takes rank and readiness anew, merged where another waiting visit of the bin to the desk stands, into the one
made first, by which the requests of the other are then listed (R48, R49, R53, R64, R66, R68, R156, R182; log 9, log 11; a RESUME
kept, log 12). -/
def Obligations.CraneTimersExpire : Prop :=
  (∀ (u : State) (n : Nat) (v : Visit), u.planner.visit n = some v →
    let queued := fun id : Nat => match tblGet u.planner.pool id with
      | some r => r.state == .queued
      | none => false
    let kept := v.requests.filter queued
    let pool := (v.requests.filter fun id => !queued id).foldl (fun pool id => tblErase id pool) u.planner.pool
    let freed := { u.planner with pool := pool }
    let waiting := fun w : Visit => w.number != n && w.bin == v.bin && w.desk == v.desk
      && (w.state == .waitingBin || w.state == .waitingRoute || w.state == .ready)
    let rank := fun (ids : List Nat) (room : Option RoomPart) =>
      if ids.any (fun id => match tblGet pool id with
        | some r => r.state == .queued && r.rank == .urgent
        | none => false) then Rank.urgent
      else if room.isSome then .room else .normal
    (kept = [] → v.room = none → handBack n u = { u with planner := { freed with
      visits := u.planner.visits.filter fun w => w.number != n } }) ∧
    (kept ≠ [] ∨ v.room ≠ none → u.planner.visits.find? waiting = none → handBack n u = { u with planner := { freed with
      visits := u.planner.visits.map fun w => if w.number = n
        then { v with requests := kept, rank := rank kept v.room, state := readiness u v.bin } else w } }) ∧
    (∀ w, kept ≠ [] ∨ v.room ≠ none → u.planner.visits.find? waiting = some w →
      let x := { v with requests := kept }
      let earlier := (w.seq - v.seq).toNat < 2 ^ 31 ∧ v.seq ≠ w.seq
      let a := if earlier then x else w
      let b := if earlier then w else x
      let t := handBack n u
      t = { u with planner := { freed with
        pool := t.planner.pool
        visits := (u.planner.visits.filter fun y => y.number != b.number).map fun y => if y.number = a.number
          then { a with
            requests := a.requests ++ b.requests, room := if a.room = none then b.room else a.room
            rank := rank (a.requests ++ b.requests) (if a.room = none then b.room else a.room), state := readiness u a.bin }
          else y } } ∧
      ∀ id, tblGet t.planner.pool id =
        if id ∈ b.requests then (tblGet pool id).map fun r => { r with visit := a.number } else tblGet pool id)) ∧
  (∀ (m : Move) (u : State),
    let named := m.visit.bind u.planner.visit
    (∀ c, u.crane.carried = some c → stallBin m u = c.bin) ∧
    (u.crane.carried = none →
      (∀ v, m.kind = .fetch → named = some v → stallBin m u = v.bin) ∧
      (∀ sl b, m.kind = .fetch → named = none → m.target = .slot sl →
        u.dir.slotState sl = .occupied b ∨ u.dir.slotState sl = .reserved b → stallBin m u = b) ∧
      (∀ sl, m.kind = .fetch → named = none → m.target = .slot sl →
        u.dir.slotState sl = .empty ∨ u.dir.slotState sl = .bad → stallBin m u = 0) ∧
      (∀ r, m.kind = .takeIn → u.spine.portIn = .holding r → stallBin m u = r.bin) ∧
      (m.kind = .takeIn → (∀ r, u.spine.portIn ≠ .holding r) → stallBin m u = 0) ∧
      (m.kind = .deliver ∨ m.kind = .store ∨ m.kind = .park → stallBin m u = 0))) ∧
  ∀ (p : Pins) (m : Move) (t : Timer) (s : State), s.live = true → s.crane.current = some m →
    let e := { s with pins := p }
    (s.crane.state = .moving ∨ s.crane.state = .stopping → m.timer = some t →
      (t.dur ≤ (s.clock - t.start).toNat → exec (.moveBudgetExpiry p) s = .next (settle (faultNotice
        { faultBody .craneStall with bin := stallBin m e, slotA := m.target.name, code := m.kind.num }
        (discardStaged (abandonMove { e with crane := { s.crane with
          pos := ⟨hold 0 s.cfg.nc p.encCol, hold 1 s.cfg.nl p.encLevel⟩, state := .faulted
          fireStop := false, fireFinish := false, resumeKept := false, drive := .stop } }))))) ∧
      ((s.clock - t.start).toNat < t.dur → exec (.moveBudgetExpiry p) s = .next (settle e))) ∧
    (∀ c, s.crane.state = .holding → s.crane.holdTimer = some t → s.crane.carried = some c →
      (t.dur ≤ (s.clock - t.start).toNat → exec (.holdLimitExpiry p) s = .next (settle (makeStore c.bin (handBackLink c.visit
        { e with crane := { s.crane with current := none, holdTimer := none, carried := some { c with visit := none } } })))) ∧
      ((s.clock - t.start).toNat < t.dur → exec (.holdLimitExpiry p) s = .next (settle e)))

/-! ## The spine -/

/-- ARRIVAL: a bin from another station makes its lane HOLDING with the hop count one higher, held at 255, and TAKEN is queued; the
merged bin leaves PORT_OUT for DOWN; the diverted bin leaves UP for PORT_IN; at an EMPTY place that expects none the place is
BLOCKED, for PORT_OUT a DELIVER in its fork cycle notwithstanding, which is the model's choice, log 27; at a place that is HOLDING or
BLOCKED nothing changes. With PORT_OUT made EMPTY a waiting DELIVER starts (R52, R106, R112, R117, R121). -/
def Obligations.ArrivalReported : Prop :=
  ∀ (p : Pins) (s : State), s.live = true →
    let e := { s with pins := p }
    let own := s.cfg.station
    (∀ x r, s.spine.down = .reserved → s.spine.inDown = some x → x.peer ≠ own → x.record = some r →
      exec (.arrival p .down) s = .next (settle (queueFrame (takenFrame own r.bin .down 1) { e with
        dir := if r.home = own then s.dir.locate r.bin (.lane own .down) else s.dir
        spine := { s.spine with down := .holding { r with hop := min 255 (r.hop + 1) }, inDown := none } }))) ∧
    (∀ x r, s.spine.up = .reserved → s.spine.inUp = some x → x.peer ≠ own → x.record = some r →
      exec (.arrival p .up) s = .next (settle (queueFrame (takenFrame own r.bin .up 1) { e with
        dir := if r.home = own then s.dir.locate r.bin (.lane own .up) else s.dir
        spine := { s.spine with up := .holding { r with hop := min 255 (r.hop + 1) }, inUp := none } }))) ∧
    (∀ x r, s.spine.down = .reserved → s.spine.inDown = some x → x.peer = own → s.spine.portOut = .holding r →
      exec (.arrival p .down) s = .next (settle (portOutEmptied (visitTo s.spine.portOutVisit .onSpine { e with
        dir := s.dir.locate r.bin (.lane own .down)
        spine := { s.spine with
          down := .holding r, portOut := .empty, inDown := none, portOutVisit := none, drivePortOut := false } })))) ∧
    (∀ x r, s.spine.portIn = .empty → s.spine.outUp = some x → x.peer = own → s.spine.up = .holding r →
      exec (.arrival p .portIn) s = .next (settle { e with
        dir := s.dir.locate r.bin .portIn
        spine := { s.spine with portIn := .holding r, up := .empty, outUp := none, driveUp := false } })) ∧
    (s.spine.down = .empty → exec (.arrival p .down) s =
      .next (settle { e with spine := { s.spine with down := .blocked none none } })) ∧
    (s.spine.up = .empty → exec (.arrival p .up) s =
      .next (settle { e with spine := { s.spine with up := .blocked none none } })) ∧
    (s.spine.portOut = .empty → exec (.arrival p .portOut) s =
      .next (settle { e with spine := { s.spine with portOut := .blocked none none } })) ∧
    (s.spine.portIn = .empty → s.spine.outUp = none → exec (.arrival p .portIn) s =
      .next (settle { e with spine := { s.spine with portIn := .blocked none none } })) ∧
    (∀ place : SpinePlace,
      let x := match place with
        | .portOut => s.spine.portOut
        | .portIn => s.spine.portIn
        | .down => s.spine.down
        | .up => s.spine.up
      (∃ r, x = .holding r) ∨ (∃ kept lost, x = .blocked kept lost) → exec (.arrival p place) s = .next (settle e)) ∧
    ∀ u : State,
      (∀ m, u.crane.state = .holding → u.crane.current = some m → portOutEmptied u = startMove m u) ∧
      (u.crane.state ≠ .holding ∨ u.crane.current = none → portOutEmptied u = u)

/-- BIN_AT_POSITION stops the drive of a receiving place, a lane's only while no transfer out of it runs; in FIRE and FIRE_SAFE a
home bin at position in UP is then diverted: a transfer to PORT_IN begins where the bin is OUT or adopted and PORT_IN is EMPTY,
the bin waiting where it is not, which is the model's choice, log 16, and UP is BLOCKED with FAULT STORE_BLOCKED where it is
STORED or no slot is found. PORT_IN_TAG_READ: the bin's own tag makes the stow ready; another id, or none read, leaves PORT_IN
BLOCKED with the record kept and FAULT PORT_TAG (R55, R76, R107, R121, R136; log 9, log 16, log 26). -/
def Obligations.PortAndPositionReported : Prop :=
  ∀ (p : Pins) (s : State), s.live = true →
    let e := { s with pins := p }
    (s.spine.outDown = none →
      exec (.binAtPosition p .down) s = .next (settle { e with spine := { s.spine with driveDown := false } })) ∧
    (s.mode.fiery = false → s.spine.outUp = none →
      exec (.binAtPosition p .up) s = .next (settle { e with spine := { s.spine with driveUp := false } })) ∧
    (∀ x, s.spine.outDown = some x → exec (.binAtPosition p .down) s = .next (settle e)) ∧
    (∀ x, s.spine.outUp = some x → exec (.binAtPosition p .up) s = .next (settle e)) ∧
    (∀ r, s.mode.fiery = true → s.spine.up = .holding r → r.dest = .home → r.home = s.cfg.station → p.up.position = true →
      s.spine.outUp = none →
      let still := { s.spine with driveUp := false }
      let diverted := fun u : State => exec (.binAtPosition p .up) s = .next (settle u)
      let started := fun u : State => { u with spine := if s.spine.portIn = .empty then { still with
        outUp := some ⟨r.bin, s.cfg.station, ⟨s.clock, s.cfg.transferLimit * 1000⟩, none⟩, drivePortIn := true, driveUp := true }
        else still }
      let blocked := fun (slot : SlotName) (u : State) => faultNotice { faultBody .storeBlocked with bin := r.bin, slotA := slot }
        { u with spine := { still with up := .blocked (some r) none } }
      let asked := { e with limited := s.limited || s.dir.adoptHeld s.cfg r }
      (∀ x loc since, s.dir.bin r.bin = some x → x.status = .out loc since → diverted (started e)) ∧
      (∀ x, s.dir.bin r.bin = some x → x.status = .stored → diverted (blocked x.slot.name e)) ∧
      (∀ d, s.dir.bin r.bin = none → s.dir.adopt s.cfg s.clock r (.lane s.cfg.station .up) = some d →
        diverted (started { asked with dir := d })) ∧
      (s.dir.bin r.bin = none → s.dir.adopt s.cfg s.clock r (.lane s.cfg.station .up) = none →
        diverted (blocked ⟨.none, 0, 0⟩ asked))) ∧
    (s.mode.fiery = true → s.spine.outUp = none → p.up.position = false
        ∨ (∀ r, s.spine.up = .holding r → r.dest ≠ .home ∨ r.home ≠ s.cfg.station) →
      exec (.binAtPosition p .up) s = .next (settle { e with spine := { s.spine with driveUp := false } })) ∧
    exec (.binAtPosition p .portIn) s = .next (settle { e with spine := { s.spine with drivePortIn := false } }) ∧
    exec (.binAtPosition p .portOut) s = .next (settle e) ∧
    (∀ r, s.spine.portIn = .holding r → s.planner.stow = .absent →
      exec (.portInTagRead p (some r.bin)) s = .next (settle { e with planner := { s.planner with stow := .ready } }) ∧
      ∀ id, id ≠ some r.bin → exec (.portInTagRead p id) s = .next (settle (faultNotice
        { faultBody .portTag with bin := r.bin, second := id.getD 0, code := 3 }
        { e with
          spine := { s.spine with portIn := .blocked (some r) none }
          planner := { s.planner with stow := .absent, mark := false } })))

/-- The spine unit's expiries. A transfer out to another station is lost: the lane is BLOCKED, its drive stops, FAULT HANDOFF_LOST,
the bin UNKNOWN at its home. A transfer in is given up: the lane is EMPTY. The diversion or the merge expiring leaves UP or PORT_OUT
BLOCKED and the bin UNKNOWN. The retry timers and the merge wait end, the wait with the kept and waiting marks (R111 to R113, R121
to R123; before expiry nothing changes, log 9). -/
def Obligations.SpineTimersExpire : Prop :=
  ∀ (p : Pins) (s : State), s.live = true →
    let e := { s with pins := p }
    let due := fun t : Timer => t.dur ≤ (s.clock - t.start).toNat
    let own := s.cfg.station
    let lost := fun (bin peer code hop : Nat) (u : State) =>
      faultNotice { faultBody .handoffLost with bin := bin, code := code, place := peer, hop := hop } u
    let unknown := fun r : TravelRecord => if r.home = own then s.dir.locate r.bin .unknown else s.dir
    (∀ x r, s.spine.outDown = some x → x.peer ≠ own → due x.timer → s.spine.down = .holding r →
      exec (.transferLimitExpiryOut p .down) s = .next (settle (lost x.bin x.peer 4 r.hop { e with
        dir := unknown r
        spine := { s.spine with down := .blocked none (some (x.bin, x.peer)), outDown := none, driveDown := false } }))) ∧
    (∀ x r, s.spine.outUp = some x → x.peer ≠ own → due x.timer → s.spine.up = .holding r →
      exec (.transferLimitExpiryOut p .up) s = .next (settle (lost x.bin x.peer 5 r.hop { e with
        dir := unknown r
        spine := { s.spine with up := .blocked none (some (x.bin, x.peer)), outUp := none, driveUp := false } }))) ∧
    (∀ x r, s.spine.outUp = some x → x.peer = own → due x.timer → s.spine.up = .holding r →
      exec (.diversionExpiry p) s = .next (settle (lost x.bin own 5 r.hop { e with
        dir := s.dir.locate x.bin .unknown
        spine := { s.spine with up := .blocked none none, outUp := none, driveUp := false, drivePortIn := false } }))) ∧
    (∀ x, s.spine.inDown = some x → x.peer ≠ own → due x.timer →
      exec (.transferLimitExpiryIn p .down) s = .next (settle { e with
        spine := { s.spine with down := .empty, inDown := none, driveDown := false } })) ∧
    (∀ x, s.spine.inUp = some x → x.peer ≠ own → due x.timer →
      exec (.transferLimitExpiryIn p .up) s = .next (settle { e with
        spine := { s.spine with up := .empty, inUp := none, driveUp := false } })) ∧
    (∀ x r, s.spine.inDown = some x → x.peer = own → due x.timer → s.spine.portOut = .holding r →
      exec (.mergeTransferExpiry p) s = .next (settle (lost x.bin own 2 r.hop { e with
        dir := s.dir.locate x.bin .unknown
        spine := { s.spine with
          down := .empty, portOut := .blocked none none, inDown := none, portOutVisit := none
          driveDown := false, drivePortOut := false } }))) ∧
    (∀ t, s.spine.retryDown = some t → due t →
      exec (.offerRetryExpiry p .down) s = .next (settle { e with spine := { s.spine with retryDown := none } })) ∧
    (∀ t, s.spine.retryUp = some t → due t →
      exec (.offerRetryExpiry p .up) s = .next (settle { e with spine := { s.spine with retryUp := none } })) ∧
    (∀ t, s.spine.mergeWait = some t → due t →
      exec (.mergeWaitExpiry p) s = .next (settle { e with
        spine := { s.spine with waiting := false, kept := false, mergeWait := none } })) ∧
    (∀ x, s.spine.outDown = some x → ¬ due x.timer → exec (.transferLimitExpiryOut p .down) s = .next (settle e))

/-! ## Evaluations, windows, the overdue sweep -/

/-- EVALUATION_DONE searches from the sweep cursor: where no bin is eligible the call becomes NO_BID; else the first bin of least
cost is held, the BID is queued and the entry becomes BID_QUEUED with it. The cost of a bin is the backlog, its round trip and the
spine term less its credit, held at 0 and 16,777,215. The backlog is the remaining time of the current move, the estimate of the staged one and the
round trips of the READY visits of rank URGENT and ROOM; the credit is the round trip of a bin with a waiting visit to the desk.
Each column examined is scanned up face L, then up face R, and a bin found is eligible where the ten tests of R91 hold. LIMITED is set
where the backlog's remaining time, a round trip of the backlog or that of an eligible bin rests on a held axis time (R29, R33 to R38,
R90 to R92; log 29). When the command comes after the beginning of the evaluation is the sender's, which is the model's choice,
log 42. -/
def Obligations.EvaluationBidsForCheapest : Prop :=
  (∀ (u : State) (desk : Desk) (bin : Nat) (x : BinEntry),
    let trip := fun y : BinEntry => 2 * legTime u.cfg ⟨0, u.cfg.portLevel⟩ y.slot.pos true
    let remaining := match u.crane.state, u.crane.current with
      | .moving, some m => (match m.timer with | some t => m.estimate - (u.clock - t.start).toNat | none => m.estimate)
      | .holding, some m => m.estimate
      | _, _ => 0
    let staged := match u.crane.staged with | some m => m.estimate | none => 0
    let ahead := (u.planner.visits.filter fun v => v.state == .ready && (v.rank == .urgent || v.rank == .room)).filterMap
      fun v => u.dir.bin v.bin
    backlog u = min 16777215 (remaining + staged + (ahead.map trip).sum)
    ∧ ((∃ v, v ∈ u.planner.visits ∧ v.bin = bin ∧ v.desk = desk
        ∧ (v.state = .waitingBin ∨ v.state = .waitingRoute ∨ v.state = .ready)) → piggyback u desk bin x = trip x)
    ∧ ((∀ v, v ∈ u.planner.visits → v.bin = bin → v.desk = desk →
        v.state ≠ .waitingBin ∧ v.state ≠ .waitingRoute ∧ v.state ≠ .ready) → piggyback u desk bin x = 0)) ∧
  (∀ (u : State) (bins : List (Nat × BinEntry)),
    let far := fun x : BinEntry => legHeld u.cfg ⟨0, u.cfg.portLevel⟩ x.slot.pos = true
    pricesHeld u bins = true ↔
      (∃ m, u.crane.current = some m ∧ (u.crane.state = .moving ∨ u.crane.state = .holding) ∧ u.crane.estimateHeld = true)
      ∨ (∃ v x, v ∈ u.planner.visits ∧ v.state = .ready ∧ v.rank ≠ .normal ∧ u.dir.bin v.bin = some x ∧ far x)
      ∨ ∃ b x, (b, x) ∈ bins ∧ far x) ∧
  (∀ (u : State) (c : CallEntry) (cols : List Nat),
    let up := fun (f : Face) (col : Nat) => (List.range u.cfg.nl).map fun l => (⟨f, col, l + 1⟩ : Slot)
    ∃ ok : Nat → BinEntry → Bool,
      (eligibleBins u c cols = (cols.flatMap fun col => up .L col ++ up .R col).filterMap fun sl =>
        match u.dir.slotState sl with
        | .occupied b => (u.dir.bin b).bind fun x => if ok b x = true then some (b, x) else none
        | _ => none) ∧
      ∀ b x, ok b x = true ↔
        x.status = .stored ∧ x.doubt = false ∧ lockedSlot u.cfg x.slot = c.restricted ∧ x.restricted = c.restricted
        ∧ x.fill + x.promVolume + c.volume ≤ (gradeOf u.cfg x.grade).capacity
        ∧ x.mass + x.promMass + c.mass ≤ (gradeOf u.cfg x.grade).massLimit
        ∧ u.dir.load x.slot ≤ u.cfg.columnMassLimit ∧ u.dir.load x.slot + c.mass ≤ u.cfg.columnMassLimit
        ∧ (∀ v, v ∈ u.planner.visits → v.bin = b → v.state ≠ .fetching ∧ v.state ≠ .onCrane ∧ v.state ≠ .delivering
          ∧ v.state ≠ .holding ∧ v.state ≠ .atPort ∧ v.state ≠ .onSpine)
        ∧ (∀ v, v ∈ u.planner.visits → v.bin = b → v.desk = c.call.desk → v.state ≠ .atPort → v.state ≠ .onSpine →
          v.room = none)
        ∧ (b, c.call.desk) ∉ u.planner.reservations
        ∧ ∀ y cost, y ∈ u.placement.calls → y.call ≠ c.call → y.call.desk = c.call.desk → y.own ≠ some (cost, b)) ∧
  ∀ (p : Pins) (c : CallEntry) (s : State), s.live = true →
    s.placement.calls.find? (fun x => x.state == .evaluating) = some c →
    let e := { s with pins := p }
    let search := sweepColumns s.cfg.nc 64 s.cfg.searchSpan s.placement.sweep
    let bins := eligibleBins e c search.1
    let cost := fun x : Nat × BinEntry => min 16777215
      (backlog e + 2 * legTime s.cfg (portPos s.cfg) x.2.slot.pos true + s.cfg.segment * s.cfg.passTime
        - piggyback e c.call.desk x.1 x.2)
    let limited := s.limited || pricesHeld e bins
    let calls := fun f : CallEntry → CallEntry => s.placement.calls.map fun x => if x.call = c.call then f x else x
    (bins = [] → exec (.evaluationDone p) s = .next (settle { e with
      limited := limited
      placement := { s.placement with sweep := search.2, calls := calls fun x => { x with state := .noBid } } })) ∧
    (∀ x before after d, bins = before ++ x :: after → (∀ y, y ∈ before → cost x < cost y) →
      (∀ y, y ∈ after → cost x ≤ cost y) → s.dir.placeHold s.cfg x.1 c.volume c.mass = some d →
      exec (.evaluationDone p) s = .next (settle (queueFrame
        (frameOf (.bid ⟨c.call, cost x, s.cfg.station, x.1⟩) 63 (.bid c.call)) { e with
          limited := limited, dir := d
          placement := { s.placement with
            sweep := search.2
            calls := calls fun y => { y with state := .bidQueued, own := some (cost x, x.1) } } })))

/-- WINDOW_EXPIRY: a call with its BID sent and beaten, by a lower cost or as low a cost from a lower station, closes with its hold
released; one not beaten whose room part fits reserves its visit entry and queues a CLAIM to the desk; one with its BID still queued
closes with BID and hold withdrawn; a call without a bid closes (R72, R95, R96). The window of a call with its CLAIM queued or sent
does not run, and its expiry changes nothing: log 9. A room part fits where no visit before the port and no reservation of the bin
to the desk has one and the visit list has an entry free. -/
def Obligations.WindowExpires : Prop :=
  (∀ (u : State) (bin : Nat) (desk : Desk), roomPartFits u bin desk = true ↔
    (∀ v, v ∈ u.planner.visits → v.bin = bin → v.desk = desk → v.state ≠ .atPort → v.state ≠ .onSpine → v.room = none)
      ∧ (bin, desk) ∉ u.planner.reservations ∧ u.planner.visits.length + u.planner.reservations.length < 24) ∧
  ∀ (p : Pins) (x : CallEntry) (s : State), s.live = true →
    s.placement.calls.find? (fun y => y.call == x.call) = some x → x.window.dur ≤ (s.clock - x.window.start).toNat →
    let e := { s with pins := p }
    let closed := { s.placement with calls := s.placement.calls.filter fun y : CallEntry => y.call != x.call }
    (x.state = .waitingEval ∨ x.state = .evaluating ∨ x.state = .noBid → x.own = none →
      exec (.windowExpiry p x.call) s = .next (settle { e with placement := closed })) ∧
    (x.state = .claimQueued ∨ x.state = .claimSent → exec (.windowExpiry p x.call) s = .next (settle e)) ∧
    (∀ cost bin, x.state = .bidQueued → x.own = some (cost, bin) → x.writtenOff = false →
      exec (.windowExpiry p x.call) s = .next (settle { e with
        line := { s.line with queue := s.line.queue.filter fun f =>
          !(f.onLine.isNone && (f.owner == .bid x.call || f.owner == .claim x.call)) }
        dir := s.dir.releaseHold bin x.volume x.mass, placement := closed })) ∧
    ∀ cost bin, x.state = .bidSent → x.own = some (cost, bin) → x.writtenOff = false →
      let beat := ∃ y, x.best = some y ∧ (y.1 < cost ∨ y.1 = cost ∧ y.2 < s.cfg.station)
      let lost := { e with dir := s.dir.releaseHold bin x.volume x.mass, placement := closed }
      (beat → exec (.windowExpiry p x.call) s = .next (settle lost)) ∧
      (¬ beat → roomPartFits s bin x.call.desk = false → exec (.windowExpiry p x.call) s = .next (settle lost)) ∧
      (¬ beat → roomPartFits s bin x.call.desk = true → exec (.windowExpiry p x.call) s = .next (settle (queueFrame
        (frameOf (.claim ⟨x.call, s.cfg.station, bin⟩) (48 + x.call.desk.val) (.claim x.call)) { e with
          planner := { s.planner with reservations := s.planner.reservations ++ [(bin, x.call.desk)] }
          placement := { s.placement with calls := s.placement.calls.map fun y : CallEntry =>
            if y.call = x.call then { y with state := .claimQueued } else y } })))

/-- OVERDUE_SWEEP_EXPIRY, in every mode: the sweep timer starts again at this reading and every bin is looked at in ascending
order; a bin OUT longer than the out limit and not yet reported has its BIN_OVERDUE queued and, where that enters the queue, the
mark set; no other bin changes anything (R85, R159, R160). -/
def Obligations.OverdueBinsReported : Prop :=
  (∀ (p : Pins) (t : Timer) (s : State), s.planner.sweep = some t → t.dur ≤ (s.clock - t.start).toNat →
    let u := (s.dir.bins.map fun x => x.1).foldl (fun v b => sweepBin b v)
      { s with pins := p, planner := { s.planner with sweep := some ⟨s.clock, 60000⟩ } }
    exec (.overdueSweepExpiry p) s = .next (if s.live = true then settle u else u)) ∧
  ∀ (s : State) (b : Nat) (e : BinEntry), s.dir.bin b = some e →
    (e.status = .stored ∨ e.overdue = true → sweepBin b s = s) ∧
    ∀ loc since, e.status = .out loc since →
      ((s.clock - since).toNat ≤ s.cfg.outLimit * 60000 → sweepBin b s = s) ∧
      (s.cfg.outLimit * 60000 < (s.clock - since).toNat → e.overdue = false →
        let item := Item.binOverdue ⟨b, loc.kind, loc.value, (s.clock - since).toNat / 60000⟩
        (noticeCount s.line.queue < 6 ∧ s.line.queue.length < 12 → sweepBin b s = { s with
          line := { s.line with queue := insertFrame (noticeFrame [item]) s.line.queue }
          dir := s.dir.setBin b { e with overdue := true } }) ∧
        (6 ≤ noticeCount s.line.queue ∨ 12 ≤ s.line.queue.length →
          sweepBin b s = { s with line := { s.line with discarded := true } }))

/-! ## Fire inputs and the owned shutter -/

/-- The fire inputs, in every mode out of reset: an input reading active starts its filter of 100 ms, one reading inactive ends it
and counts inactive; at the expiry the input counts active, the local cause is held in START, raises nothing in UNCONFIGURED, and
elsewhere raises the own compartment's alarm with the next epoch, 1..255 (R129, R130, R151, R189). That the ALARM is queued before
shutter, mode and routes act is the model's choice, log 10, and that a further active report changes nothing is log 9. A compartment
newly alarmed makes a shutter that borders it clear or stay, then the mode is derived and the routes are tested (R140). That the
shutter acts before the mode and the mode before the routes is the model's choice, log 10, and so is that the drive limit timer of an
OPENING shutter stops with its drive, log 37. -/
def Obligations.FireInputsFiltered : Prop :=
  (∀ (c : Compartment) (u : State), alarmRaised c u = retestRoute (deriveMode { u with fire := { u.fire with
    shutter := u.fire.shutter.map fun x : Shutter =>
      if bordersShutter u.cfg c = false then x
      else if x.state = ShutterState.isOpen ∨ x.state = ShutterState.opening ∨ x.state = ShutterState.faultDrive .opening then
        { x with state := .clearing, closeLimit := some ⟨u.clock, u.cfg.closeLimit * 1000⟩, driveLimit := none
                 foundShut := false }
      else { x with foundShut := false } } })) ∧
  (∀ (i : FireInput) (u : State),
    let c := ownComp u.cfg
    let r := u.fire.alarms.get c
    let epoch := if r.alarmed = true then r.epoch else r.last % 255 + 1
    let cause := match i with | .smoke => Cause.smoke | .heat => Cause.heat | .callPoint => Cause.callPoint
    let held := match i with | .smoke => r.smoke | .heat => r.heat | .callPoint => r.callPoint
    let raised := fun x : AlarmRec => queueFrame (frameOf (.alarm ⟨c, epoch, cause, u.cfg.station⟩) 63 (.alarm c)) { u with
      fire := { u.fire with alarms := u.fire.alarms.set c.val (match i with
        | .smoke => { x with smoke := true }
        | .heat => { x with heat := true }
        | .callPoint => { x with callPoint := true }) c.isLt } }
    (r.alarmed = true → held = true → localCause i u = u) ∧
    (r.alarmed = true → held = false → localCause i u = raised r) ∧
    (r.alarmed = false → localCause i u = alarmRaised c
      (raised { r with alarmed := true, epoch := epoch, last := epoch, stamp := some u.clock }))) ∧
  ∀ (p : Pins) (i : FireInput) (s : State), s.inReset = false →
    let e := { s with pins := p }
    let ended := fun u : State => (.next (if s.live = true then settle u else u) : Host.Outcome State Fault Refusal)
    let x := s.fire.filter i
    (x.active = false → x.timer = none →
      exec (.inputActive p i) s = ended (setFilter i { x with timer := some ⟨s.clock, 100⟩ } e)) ∧
    (x.active = true ∨ x.timer.isSome = true → exec (.inputActive p i) s = ended e) ∧
    exec (.inputInactive p i) s = ended (setFilter i { x with timer := none, active := false } e) ∧
    ∀ t, x.timer = some t → t.dur ≤ (s.clock - t.start).toNat →
      let counted := setFilter i { x with timer := none, active := true } e
      let c := ownComp s.cfg
      let r := s.fire.alarms.get c
      let alarm := fun epoch : Nat => queueFrame (frameOf (.alarm ⟨c, epoch, i.cause, s.cfg.station⟩) 63 (.alarm c))
      (s.mode = .start →
        exec (.inputFilterExpiry p i) s = .next (setFilter i { timer := none, active := true, held := true } e)) ∧
      (s.mode = .unconfigured → exec (.inputFilterExpiry p i) s = .next counted) ∧
      (s.live = true → r.alarmed = false →
        let epoch := r.last % 255 + 1
        exec (.inputFilterExpiry p i) s = .next (settle (alarmRaised c (alarm epoch (setAlarm c
          (AlarmRec.add { r with alarmed := true, epoch := epoch, last := epoch, stamp := some s.clock } i) counted))))) ∧
      (s.live = true → r.alarmed = true → r.has i = false →
        exec (.inputFilterExpiry p i) s = .next (settle (alarm r.epoch (setAlarm c (r.add i) counted)))) ∧
      (s.live = true → r.alarmed = true → r.has i = true → exec (.inputFilterExpiry p i) s = .next (settle counted))

/-- The owned shutter. The closing retry timer ends; the close limit in CLEARING starts the closing drive whatever the boundary
sensors read, queued CLOSINGs going with it, and every handoff across the boundary ends with its place BLOCKED, FAULT BIN_CAUGHT and
the bin CAUGHT at its home; the drive limit leaves it FAULT in its direction with FAULT SHUTTER_FAULT; the closed sensor makes a
closing shutter CLOSED and the open sensor an opening one OPEN, each announced to ALL and the routes tested, and a report that its
state does not await changes nothing, log 9; a boundary sensor's change is looked at by the clear check at the event's end. The
shutter reopens where neither adjacent compartment is alarmed: in CLEARING it is OPEN at once, closing or closed it is driven open,
opening or open it stays (R141, R142, R144, R146, R147; the handoffs across the boundary, log 18). -/
def Obligations.ShutterEvents : Prop :=
  (∀ (p : Pins) (x : Shutter) (s : State), s.live = true → s.fire.shutter = some x →
    let e := { s with pins := p }
    let shut := fun y : Shutter => { e with fire := { s.fire with shutter := some y } }
    let due := fun t : Timer => t.dur ≤ (s.clock - t.start).toNat
    let announce := fun (i : Item) (u : State) => retestRoute (queueFrame (frameOf i 63 .plain) u)
    exec (.boundarySensorChange p) s = .next (settle e) ∧
    (∀ t, x.retry = some t → due t → exec (.closingRetryExpiry p) s = .next (settle (shut { x with retry := none }))) ∧
    (∀ t, x.closeLimit = some t → due t → x.state = .clearing →
      let forced := { shut { x with
          state := .closingDrive, closeLimit := none, driveLimit := some ⟨s.clock, s.cfg.driveLimit * 1000⟩, retry := none } with
        line := { s.line with queue := (s.line.queue.filter fun f => !(f.onLine.isNone && f.owner == .closing)).map fun f =>
          if f.owner = .closing then { f with owner := .plain } else f } }
      let caught := fun (r : TravelRecord) (code : Nat) (u : State) =>
        faultNotice { faultBody .binCaught with bin := r.bin, second := r.home, code := code, place := s.cfg.segment, hop := r.hop }
          { u with dir := if r.home = s.cfg.station then u.dir.locate r.bin (.caught s.cfg.segment) else u.dir }
      (s.spine.outDown = none → s.spine.inUp = none → exec (.closeLimitExpiry p) s = .next (settle forced)) ∧
      (∀ y r, s.spine.outDown = some y → y.peer ≠ s.cfg.station → s.spine.down = .holding r → s.spine.inUp = none →
        exec (.closeLimitExpiry p) s = .next (settle (caught r 4 { forced with spine := { s.spine with
          down := .blocked none (some (y.bin, y.peer)), outDown := none, driveDown := false } }))) ∧
      (∀ z r, s.spine.outDown = none → s.spine.inUp = some z → z.peer ≠ s.cfg.station → z.record = some r →
        exec (.closeLimitExpiry p) s = .next (settle (caught r 5 { forced with spine := { s.spine with
          up := .blocked none none, inUp := none, driveUp := false } }))) ∧
      (∀ y r z q, s.spine.outDown = some y → y.peer ≠ s.cfg.station → s.spine.down = .holding r →
        s.spine.inUp = some z → z.peer ≠ s.cfg.station → z.record = some q →
        exec (.closeLimitExpiry p) s = .next (settle (caught q 5 (caught r 4 { forced with spine := { s.spine with
          down := .blocked none (some (y.bin, y.peer)), outDown := none, driveDown := false
          up := .blocked none none, inUp := none, driveUp := false } }))))) ∧
    (∀ t, x.closeLimit = some t → due t → x.state ≠ .clearing →
      exec (.closeLimitExpiry p) s = .next (settle (shut { x with closeLimit := none }))) ∧
    (∀ t d, x.driveLimit = some t → due t →
      x.state = (match d with | ShutterDir.closing => .closingDrive | ShutterDir.opening => .opening) →
      exec (.shutterDriveLimitExpiry p) s = .next (settle (faultNotice
        { faultBody .shutterFault with code := (match d with | .closing => 1 | .opening => 2), place := s.cfg.segment }
        (shut { x with state := .faultDrive d, driveLimit := none })))) ∧
    (x.state = .closingDrive ∨ x.state = .faultDrive .closing →
      exec (.closedSensor p) s = .next (settle (announce (.closed s.cfg.segment)
        (shut { x with state := .shut, driveLimit := none })))) ∧
    (x.state = .opening ∨ x.state = .faultDrive .opening →
      exec (.openSensor p) s = .next (settle (announce (.opened s.cfg.segment)
        (shut { x with state := .isOpen, driveLimit := none })))) ∧
    (x.state = .isOpen ∨ x.state = .clearing ∨ x.state = .shut ∨ x.state = .opening ∨ x.state = .faultDrive .opening →
      exec (.closedSensor p) s = .next (settle e)) ∧
    (x.state = .shut ∨ x.state = .clearing ∨ x.state = .isOpen ∨ x.state = .closingDrive ∨ x.state = .faultDrive .closing →
      exec (.openSensor p) s = .next (settle e))) ∧
  ∀ (x : Shutter) (u : State), u.fire.shutter = some x →
    let clear := ∀ c, bordersShutter u.cfg c = true → (u.fire.alarms.get c).alarmed = false
    (¬ clear → reopen u = u) ∧
    (clear → x.state = .clearing → reopen u = retestRoute (queueFrame (frameOf (.opened u.cfg.segment) 63 .plain) { u with
      fire := { u.fire with shutter := some { x with state := .isOpen, closeLimit := none, retry := none, driveLimit := none } }
      line := { u.line with queue := (u.line.queue.filter fun f => !(f.onLine.isNone && f.owner == .closing)).map fun f =>
        if f.owner = .closing then { f with owner := .plain } else f } })) ∧
    (clear → x.state = .closingDrive ∨ x.state = .shut ∨ x.state = .faultDrive .closing →
      reopen u = retestRoute { u with fire := { u.fire with shutter := some { x with
        state := .opening, foundShut := false, closeLimit := none, retry := none
        driveLimit := some ⟨u.clock, u.cfg.driveLimit * 1000⟩ } } }) ∧
    (x.state = .opening ∨ x.state = .isOpen ∨ x.state = .faultDrive .opening → reopen u = u)
end

