-- ==== Sys2Proof/Laws/Tables.lean ====
section
/-! SUPPORT. Keyed tables: what a read gives after a write, an erasure and a rewrite, and that each keeps the canonical
form. -/

namespace Sys2Proof.Machine
open Sys2Proof

variable {α : Type}

@[simp] theorem tblGet_put_same (k : Nat) (v : α) (t : Table α) : tblGet (tblPut k v t) k = some v := by
  induction t with
  | nil => simp [tblPut, tblGet]
  | cons x t ih =>
    obtain ⟨k', v'⟩ := x
    unfold tblPut
    split
    · simp [tblGet]
    · split
      · simp [tblGet]
      · next h => simp [tblGet, h, ih]

theorem tblGet_put_other {k n : Nat} (v : α) (t : Table α) (h : n ≠ k) : tblGet (tblPut k v t) n = tblGet t n := by
  induction t with
  | nil => simp [tblPut, tblGet, h]
  | cons x t ih =>
    obtain ⟨k', v'⟩ := x
    unfold tblPut
    split
    · simp [tblGet, h]
    · split
      · next hk => subst hk; simp [tblGet, h]
      · simp [tblGet, ih]

/-! ## The canonical form -/

theorem tblAbove_mono {j k : Nat} (h : j ≤ k) (t : Table α) (ht : tblAbove k t = true) : tblAbove j t = true := by
  induction t with
  | nil => rfl
  | cons x t ih =>
    simp only [tblAbove, Bool.and_eq_true, decide_eq_true_eq] at ht ⊢
    exact ⟨by omega, ih ht.2⟩

theorem tblGet_above {k n : Nat} (hn : n ≤ k) (t : Table α) (ht : tblAbove k t = true) : tblGet t n = none := by
  induction t with
  | nil => rfl
  | cons x t ih =>
    simp only [tblAbove, Bool.and_eq_true, decide_eq_true_eq] at ht
    simp only [tblGet]
    rw [if_neg (by omega), ih ht.2]

theorem tblAbove_put {j k : Nat} (v : α) (t : Table α) (h : j < k) (ht : tblAbove j t = true) :
    tblAbove j (tblPut k v t) = true := by
  induction t with
  | nil => simp [tblPut, tblAbove, h]
  | cons x t ih =>
    simp only [tblAbove, Bool.and_eq_true, decide_eq_true_eq] at ht
    unfold tblPut
    split
    · simp [tblAbove, h, ht]
    · split
      · simp [tblAbove, h, ht]
      · simp [tblAbove, ht, ih ht.2]

theorem tblAbove_erase {j : Nat} (k : Nat) (t : Table α) (ht : tblAbove j t = true) : tblAbove j (tblErase k t) = true := by
  induction t with
  | nil => rfl
  | cons x t ih =>
    simp only [tblAbove, Bool.and_eq_true, decide_eq_true_eq] at ht
    unfold tblErase
    split
    · exact ht.2
    · simp [tblAbove, ht, ih ht.2]

/-- A write keeps the canonical form. -/
theorem tblWf_put (k : Nat) (v : α) (t : Table α) (ht : tblWf t = true) : tblWf (tblPut k v t) = true := by
  induction t with
  | nil => simp [tblPut, tblWf, tblAbove]
  | cons x t ih =>
    obtain ⟨k', v'⟩ := x
    simp only [tblWf, Bool.and_eq_true] at ht
    unfold tblPut
    split
    · next h => simp [tblWf, tblAbove, h, ht, tblAbove_mono (Nat.le_of_lt h) t ht.1]
    · split
      · next h => subst h; simp [tblWf, ht]
      · next h₁ h₂ => simp [tblWf, tblAbove_put v t (show k' < k by omega) ht.1, ih ht.2]

/-- An erasure keeps the canonical form. -/
theorem tblWf_erase (k : Nat) (t : Table α) (ht : tblWf t = true) : tblWf (tblErase k t) = true := by
  induction t with
  | nil => rfl
  | cons x t ih =>
    simp only [tblWf, Bool.and_eq_true] at ht
    unfold tblErase
    split
    · exact ht.2
    · simp [tblWf, tblAbove_erase k t ht.1, ih ht.2]

/-- A rewrite keeps the canonical form. -/
theorem tblWf_modify (k : Nat) (f : α → α) (t : Table α) (ht : tblWf t = true) : tblWf (tblModify k f t) = true := by
  unfold tblModify
  split
  · exact tblWf_put _ _ t ht
  · exact ht

theorem tblGet_erase_same (k : Nat) (t : Table α) (ht : tblWf t = true) : tblGet (tblErase k t) k = none := by
  induction t with
  | nil => rfl
  | cons x t ih =>
    simp only [tblWf, Bool.and_eq_true] at ht
    unfold tblErase
    split
    · next h => subst h; exact tblGet_above (Nat.le_refl _) t ht.1
    · next h => simp [tblGet, h, ih ht.2]

theorem tblGet_erase_other {k n : Nat} (t : Table α) (h : n ≠ k) : tblGet (tblErase k t) n = tblGet t n := by
  induction t with
  | nil => rfl
  | cons x t ih =>
    obtain ⟨k', v'⟩ := x
    unfold tblErase
    split
    · next hk => subst hk; simp [tblGet, h]
    · simp [tblGet, ih]

/-- A rewrite of a record that is there leaves the number of records. -/
theorem tblModify_length (k : Nat) (f : α → α) (t : Table α) (ht : tblWf t = true) :
    (tblModify k f t).length = t.length := by
  have put : ∀ (t : Table α) (v w : α), tblWf t = true → tblGet t k = some v → (tblPut k w t).length = t.length := by
    intro t
    induction t with
    | nil => intro v w _ h; cases h
    | cons x t ih =>
      obtain ⟨k', v'⟩ := x
      intro v w ht h
      simp only [tblWf, Bool.and_eq_true] at ht
      unfold tblPut
      split
      · next hlt =>
        simp only [tblGet] at h
        rw [if_neg (by omega), tblGet_above (Nat.le_of_lt hlt) t ht.1] at h
        cases h
      · split
        · rfl
        · next hne =>
          simp only [tblGet, hne, if_false] at h
          simp [ih v w ht.2 h]
  unfold tblModify
  split
  · next v h => exact put t v _ ht h
  · rfl

/-- A write adds at most one record. -/
theorem tblPut_length_le (k : Nat) (v : α) (t : Table α) : (tblPut k v t).length ≤ t.length + 1 := by
  induction t with
  | nil => simp [tblPut]
  | cons x t ih =>
    unfold tblPut
    split
    · simp
    · split
      · simp
      · simp [ih]

theorem tblErase_length_le (k : Nat) (t : Table α) : (tblErase k t).length ≤ t.length := by
  induction t with
  | nil => simp [tblErase]
  | cons x t ih =>
    unfold tblErase
    split
    · simp
    · simp [ih]

end Sys2Proof.Machine
end

