-- ==== Sys2Proof/Laws/Directory.lean ====
section
/-! SUPPORT. The directory: what a read of a bin, a slot or a column load gives after each of the three writes, and what a write
leaves alone. -/

namespace Sys2Proof.Machine
open Sys2Proof

/-! ## Bins -/

theorem Directory.bin_setBin_same (d : Directory) {b : Nat} (h : b ≠ 0) (e : BinEntry) : (d.setBin b e).bin b = some e := by
  simp [Directory.bin, Directory.setBin, h]

theorem Directory.bin_setBin_other (d : Directory) {b x : Nat} (h : x ≠ b) (e : BinEntry) : (d.setBin b e).bin x = d.bin x := by
  simp [Directory.bin, Directory.setBin, tblGet_put_other _ _ h]

/-- A bin of the table has an id other than 0 (R9). -/
theorem Directory.bin_ne_zero {d : Directory} {b : Nat} {e : BinEntry} (h : d.bin b = some e) : b ≠ 0 := by
  intro hb; simp [Directory.bin, hb] at h

@[simp] theorem Directory.bin_setSlot (d : Directory) (sl : Slot) (r : SlotRec) (x : Nat) : (d.setSlot sl r).bin x = d.bin x := rfl
@[simp] theorem Directory.bin_setLoad (d : Directory) (sl : Slot) (n x : Nat) : (d.setLoad sl n).bin x = d.bin x := rfl

/-! ## Slots -/

theorem Directory.slotRec_setSlot_same (d : Directory) (h : tblWf d.slots = true) (sl : Slot) (r : SlotRec) :
    (d.setSlot sl r).slotRec sl = r := by
  simp only [Directory.slotRec, Directory.setSlot]
  by_cases hr : r = ⟨.empty, false⟩
  · simp [hr, tblGet_erase_same _ _ h]
  · simp [hr]

theorem Directory.slotRec_setSlot_other (d : Directory) {sl x : Slot} (h : slotKey x ≠ slotKey sl) (r : SlotRec) :
    (d.setSlot sl r).slotRec x = d.slotRec x := by
  simp only [Directory.slotRec, Directory.setSlot]
  by_cases hr : r = ⟨.empty, false⟩
  · simp [hr, tblGet_erase_other _ h]
  · simp [hr, tblGet_put_other _ _ h]

@[simp] theorem Directory.slotRec_setBin (d : Directory) (b : Nat) (e : BinEntry) (x : Slot) :
    (d.setBin b e).slotRec x = d.slotRec x := rfl
@[simp] theorem Directory.slotRec_setLoad (d : Directory) (sl : Slot) (n : Nat) (x : Slot) :
    (d.setLoad sl n).slotRec x = d.slotRec x := rfl

/-! ## Column loads -/

theorem Directory.load_setLoad_same (d : Directory) (h : tblWf d.loads = true) (sl : Slot) (n : Nat) :
    (d.setLoad sl n).load sl = n := by
  simp only [Directory.load, Directory.setLoad]
  by_cases hn : n = 0
  · simp [hn, tblGet_erase_same _ _ h]
  · simp [hn]

theorem Directory.load_setLoad_other (d : Directory) {sl x : Slot} (h : faceKey x ≠ faceKey sl) (n : Nat) :
    (d.setLoad sl n).load x = d.load x := by
  simp only [Directory.load, Directory.setLoad]
  by_cases hn : n = 0
  · simp [hn, tblGet_erase_other _ h]
  · simp [hn, tblGet_put_other _ _ h]

/-- A write of a load keeps the canonical form. -/
theorem Directory.loads_setLoad_wf (d : Directory) (h : tblWf d.loads = true) (sl : Slot) (n : Nat) :
    tblWf (d.setLoad sl n).loads = true := by
  simp only [Directory.setLoad]
  by_cases hn : n = 0
  · simp [hn, tblWf_erase _ _ h]
  · simp [hn, tblWf_put _ _ _ h]

@[simp] theorem Directory.load_setBin (d : Directory) (b : Nat) (e : BinEntry) (x : Slot) : (d.setBin b e).load x = d.load x := rfl
@[simp] theorem Directory.load_setSlot (d : Directory) (sl : Slot) (r : SlotRec) (x : Slot) : (d.setSlot sl r).load x = d.load x := rfl
@[simp] theorem Directory.cursor_setBin (d : Directory) (b : Nat) (e : BinEntry) : (d.setBin b e).cursor = d.cursor := rfl
@[simp] theorem Directory.cursor_setSlot (d : Directory) (sl : Slot) (r : SlotRec) : (d.setSlot sl r).cursor = d.cursor := rfl
@[simp] theorem Directory.cursor_setLoad (d : Directory) (sl : Slot) (n : Nat) : (d.setLoad sl n).cursor = d.cursor := rfl

/-- Two slots of one column face share their load. -/
theorem Directory.load_face (d : Directory) {x y : Slot} (h : faceKey x = faceKey y) : d.load x = d.load y := by
  simp only [Directory.load, h]

end Sys2Proof.Machine
end

