-- ==== Sys2Proof/Laws/State.lean ====
section
/-! SUPPORT. One lemma for each field under each update of the state, true by rfl. -/

namespace Sys2Proof.Machine
open Sys2Proof

@[simp] theorem State.setClock_clock (s : State) (v : Time) : (s.setClock v).clock = v := rfl
@[simp] theorem State.setClock_inReset (s : State) (v : Time) : (s.setClock v).inReset = s.inReset := rfl
@[simp] theorem State.setClock_mode (s : State) (v : Time) : (s.setClock v).mode = s.mode := rfl
@[simp] theorem State.setClock_stockEnded (s : State) (v : Time) : (s.setClock v).stockEnded = s.stockEnded := rfl
@[simp] theorem State.setClock_stopTaken (s : State) (v : Time) : (s.setClock v).stopTaken = s.stopTaken := rfl
@[simp] theorem State.setClock_safeMade (s : State) (v : Time) : (s.setClock v).safeMade = s.safeMade := rfl
@[simp] theorem State.setClock_loader (s : State) (v : Time) : (s.setClock v).loader = s.loader := rfl
@[simp] theorem State.setClock_cfg (s : State) (v : Time) : (s.setClock v).cfg = s.cfg := rfl
@[simp] theorem State.setClock_pins (s : State) (v : Time) : (s.setClock v).pins = s.pins := rfl
@[simp] theorem State.setClock_dir (s : State) (v : Time) : (s.setClock v).dir = s.dir := rfl
@[simp] theorem State.setClock_limited (s : State) (v : Time) : (s.setClock v).limited = s.limited := rfl
@[simp] theorem State.setClock_planner (s : State) (v : Time) : (s.setClock v).planner = s.planner := rfl
@[simp] theorem State.setClock_crane (s : State) (v : Time) : (s.setClock v).crane = s.crane := rfl
@[simp] theorem State.setClock_spine (s : State) (v : Time) : (s.setClock v).spine = s.spine := rfl
@[simp] theorem State.setClock_placement (s : State) (v : Time) : (s.setClock v).placement = s.placement := rfl
@[simp] theorem State.setClock_fire (s : State) (v : Time) : (s.setClock v).fire = s.fire := rfl
@[simp] theorem State.setClock_line (s : State) (v : Time) : (s.setClock v).line = s.line := rfl
@[simp] theorem State.setClock_free (s : State) (v : Time) : (s.setClock v).free = s.free := rfl
@[simp] theorem State.setClock_pending (s : State) (v : Time) : (s.setClock v).pending = s.pending := rfl
@[simp] theorem State.setMode_clock (s : State) (v : Mode) : (s.setMode v).clock = s.clock := rfl
@[simp] theorem State.setMode_inReset (s : State) (v : Mode) : (s.setMode v).inReset = s.inReset := rfl
@[simp] theorem State.setMode_mode (s : State) (v : Mode) : (s.setMode v).mode = v := rfl
@[simp] theorem State.setMode_stockEnded (s : State) (v : Mode) : (s.setMode v).stockEnded = s.stockEnded := rfl
@[simp] theorem State.setMode_stopTaken (s : State) (v : Mode) : (s.setMode v).stopTaken = s.stopTaken := rfl
@[simp] theorem State.setMode_safeMade (s : State) (v : Mode) : (s.setMode v).safeMade = s.safeMade := rfl
@[simp] theorem State.setMode_loader (s : State) (v : Mode) : (s.setMode v).loader = s.loader := rfl
@[simp] theorem State.setMode_cfg (s : State) (v : Mode) : (s.setMode v).cfg = s.cfg := rfl
@[simp] theorem State.setMode_pins (s : State) (v : Mode) : (s.setMode v).pins = s.pins := rfl
@[simp] theorem State.setMode_dir (s : State) (v : Mode) : (s.setMode v).dir = s.dir := rfl
@[simp] theorem State.setMode_limited (s : State) (v : Mode) : (s.setMode v).limited = s.limited := rfl
@[simp] theorem State.setMode_planner (s : State) (v : Mode) : (s.setMode v).planner = s.planner := rfl
@[simp] theorem State.setMode_crane (s : State) (v : Mode) : (s.setMode v).crane = s.crane := rfl
@[simp] theorem State.setMode_spine (s : State) (v : Mode) : (s.setMode v).spine = s.spine := rfl
@[simp] theorem State.setMode_placement (s : State) (v : Mode) : (s.setMode v).placement = s.placement := rfl
@[simp] theorem State.setMode_fire (s : State) (v : Mode) : (s.setMode v).fire = s.fire := rfl
@[simp] theorem State.setMode_line (s : State) (v : Mode) : (s.setMode v).line = s.line := rfl
@[simp] theorem State.setMode_free (s : State) (v : Mode) : (s.setMode v).free = s.free := rfl
@[simp] theorem State.setMode_pending (s : State) (v : Mode) : (s.setMode v).pending = s.pending := rfl
@[simp] theorem State.setStockEnded_clock (s : State) (v : Bool) : (s.setStockEnded v).clock = s.clock := rfl
@[simp] theorem State.setStockEnded_inReset (s : State) (v : Bool) : (s.setStockEnded v).inReset = s.inReset := rfl
@[simp] theorem State.setStockEnded_mode (s : State) (v : Bool) : (s.setStockEnded v).mode = s.mode := rfl
@[simp] theorem State.setStockEnded_stockEnded (s : State) (v : Bool) : (s.setStockEnded v).stockEnded = v := rfl
@[simp] theorem State.setStockEnded_stopTaken (s : State) (v : Bool) : (s.setStockEnded v).stopTaken = s.stopTaken := rfl
@[simp] theorem State.setStockEnded_safeMade (s : State) (v : Bool) : (s.setStockEnded v).safeMade = s.safeMade := rfl
@[simp] theorem State.setStockEnded_loader (s : State) (v : Bool) : (s.setStockEnded v).loader = s.loader := rfl
@[simp] theorem State.setStockEnded_cfg (s : State) (v : Bool) : (s.setStockEnded v).cfg = s.cfg := rfl
@[simp] theorem State.setStockEnded_pins (s : State) (v : Bool) : (s.setStockEnded v).pins = s.pins := rfl
@[simp] theorem State.setStockEnded_dir (s : State) (v : Bool) : (s.setStockEnded v).dir = s.dir := rfl
@[simp] theorem State.setStockEnded_limited (s : State) (v : Bool) : (s.setStockEnded v).limited = s.limited := rfl
@[simp] theorem State.setStockEnded_planner (s : State) (v : Bool) : (s.setStockEnded v).planner = s.planner := rfl
@[simp] theorem State.setStockEnded_crane (s : State) (v : Bool) : (s.setStockEnded v).crane = s.crane := rfl
@[simp] theorem State.setStockEnded_spine (s : State) (v : Bool) : (s.setStockEnded v).spine = s.spine := rfl
@[simp] theorem State.setStockEnded_placement (s : State) (v : Bool) : (s.setStockEnded v).placement = s.placement := rfl
@[simp] theorem State.setStockEnded_fire (s : State) (v : Bool) : (s.setStockEnded v).fire = s.fire := rfl
@[simp] theorem State.setStockEnded_line (s : State) (v : Bool) : (s.setStockEnded v).line = s.line := rfl
@[simp] theorem State.setStockEnded_free (s : State) (v : Bool) : (s.setStockEnded v).free = s.free := rfl
@[simp] theorem State.setStockEnded_pending (s : State) (v : Bool) : (s.setStockEnded v).pending = s.pending := rfl
@[simp] theorem State.setStopTaken_clock (s : State) (v : Bool) : (s.setStopTaken v).clock = s.clock := rfl
@[simp] theorem State.setStopTaken_inReset (s : State) (v : Bool) : (s.setStopTaken v).inReset = s.inReset := rfl
@[simp] theorem State.setStopTaken_mode (s : State) (v : Bool) : (s.setStopTaken v).mode = s.mode := rfl
@[simp] theorem State.setStopTaken_stockEnded (s : State) (v : Bool) : (s.setStopTaken v).stockEnded = s.stockEnded := rfl
@[simp] theorem State.setStopTaken_stopTaken (s : State) (v : Bool) : (s.setStopTaken v).stopTaken = v := rfl
@[simp] theorem State.setStopTaken_safeMade (s : State) (v : Bool) : (s.setStopTaken v).safeMade = s.safeMade := rfl
@[simp] theorem State.setStopTaken_loader (s : State) (v : Bool) : (s.setStopTaken v).loader = s.loader := rfl
@[simp] theorem State.setStopTaken_cfg (s : State) (v : Bool) : (s.setStopTaken v).cfg = s.cfg := rfl
@[simp] theorem State.setStopTaken_pins (s : State) (v : Bool) : (s.setStopTaken v).pins = s.pins := rfl
@[simp] theorem State.setStopTaken_dir (s : State) (v : Bool) : (s.setStopTaken v).dir = s.dir := rfl
@[simp] theorem State.setStopTaken_limited (s : State) (v : Bool) : (s.setStopTaken v).limited = s.limited := rfl
@[simp] theorem State.setStopTaken_planner (s : State) (v : Bool) : (s.setStopTaken v).planner = s.planner := rfl
@[simp] theorem State.setStopTaken_crane (s : State) (v : Bool) : (s.setStopTaken v).crane = s.crane := rfl
@[simp] theorem State.setStopTaken_spine (s : State) (v : Bool) : (s.setStopTaken v).spine = s.spine := rfl
@[simp] theorem State.setStopTaken_placement (s : State) (v : Bool) : (s.setStopTaken v).placement = s.placement := rfl
@[simp] theorem State.setStopTaken_fire (s : State) (v : Bool) : (s.setStopTaken v).fire = s.fire := rfl
@[simp] theorem State.setStopTaken_line (s : State) (v : Bool) : (s.setStopTaken v).line = s.line := rfl
@[simp] theorem State.setStopTaken_free (s : State) (v : Bool) : (s.setStopTaken v).free = s.free := rfl
@[simp] theorem State.setStopTaken_pending (s : State) (v : Bool) : (s.setStopTaken v).pending = s.pending := rfl
@[simp] theorem State.setSafeMade_clock (s : State) (v : Bool) : (s.setSafeMade v).clock = s.clock := rfl
@[simp] theorem State.setSafeMade_inReset (s : State) (v : Bool) : (s.setSafeMade v).inReset = s.inReset := rfl
@[simp] theorem State.setSafeMade_mode (s : State) (v : Bool) : (s.setSafeMade v).mode = s.mode := rfl
@[simp] theorem State.setSafeMade_stockEnded (s : State) (v : Bool) : (s.setSafeMade v).stockEnded = s.stockEnded := rfl
@[simp] theorem State.setSafeMade_stopTaken (s : State) (v : Bool) : (s.setSafeMade v).stopTaken = s.stopTaken := rfl
@[simp] theorem State.setSafeMade_safeMade (s : State) (v : Bool) : (s.setSafeMade v).safeMade = v := rfl
@[simp] theorem State.setSafeMade_loader (s : State) (v : Bool) : (s.setSafeMade v).loader = s.loader := rfl
@[simp] theorem State.setSafeMade_cfg (s : State) (v : Bool) : (s.setSafeMade v).cfg = s.cfg := rfl
@[simp] theorem State.setSafeMade_pins (s : State) (v : Bool) : (s.setSafeMade v).pins = s.pins := rfl
@[simp] theorem State.setSafeMade_dir (s : State) (v : Bool) : (s.setSafeMade v).dir = s.dir := rfl
@[simp] theorem State.setSafeMade_limited (s : State) (v : Bool) : (s.setSafeMade v).limited = s.limited := rfl
@[simp] theorem State.setSafeMade_planner (s : State) (v : Bool) : (s.setSafeMade v).planner = s.planner := rfl
@[simp] theorem State.setSafeMade_crane (s : State) (v : Bool) : (s.setSafeMade v).crane = s.crane := rfl
@[simp] theorem State.setSafeMade_spine (s : State) (v : Bool) : (s.setSafeMade v).spine = s.spine := rfl
@[simp] theorem State.setSafeMade_placement (s : State) (v : Bool) : (s.setSafeMade v).placement = s.placement := rfl
@[simp] theorem State.setSafeMade_fire (s : State) (v : Bool) : (s.setSafeMade v).fire = s.fire := rfl
@[simp] theorem State.setSafeMade_line (s : State) (v : Bool) : (s.setSafeMade v).line = s.line := rfl
@[simp] theorem State.setSafeMade_free (s : State) (v : Bool) : (s.setSafeMade v).free = s.free := rfl
@[simp] theorem State.setSafeMade_pending (s : State) (v : Bool) : (s.setSafeMade v).pending = s.pending := rfl
@[simp] theorem State.setLoader_clock (s : State) (v : Loader) : (s.setLoader v).clock = s.clock := rfl
@[simp] theorem State.setLoader_inReset (s : State) (v : Loader) : (s.setLoader v).inReset = s.inReset := rfl
@[simp] theorem State.setLoader_mode (s : State) (v : Loader) : (s.setLoader v).mode = s.mode := rfl
@[simp] theorem State.setLoader_stockEnded (s : State) (v : Loader) : (s.setLoader v).stockEnded = s.stockEnded := rfl
@[simp] theorem State.setLoader_stopTaken (s : State) (v : Loader) : (s.setLoader v).stopTaken = s.stopTaken := rfl
@[simp] theorem State.setLoader_safeMade (s : State) (v : Loader) : (s.setLoader v).safeMade = s.safeMade := rfl
@[simp] theorem State.setLoader_loader (s : State) (v : Loader) : (s.setLoader v).loader = v := rfl
@[simp] theorem State.setLoader_cfg (s : State) (v : Loader) : (s.setLoader v).cfg = s.cfg := rfl
@[simp] theorem State.setLoader_pins (s : State) (v : Loader) : (s.setLoader v).pins = s.pins := rfl
@[simp] theorem State.setLoader_dir (s : State) (v : Loader) : (s.setLoader v).dir = s.dir := rfl
@[simp] theorem State.setLoader_limited (s : State) (v : Loader) : (s.setLoader v).limited = s.limited := rfl
@[simp] theorem State.setLoader_planner (s : State) (v : Loader) : (s.setLoader v).planner = s.planner := rfl
@[simp] theorem State.setLoader_crane (s : State) (v : Loader) : (s.setLoader v).crane = s.crane := rfl
@[simp] theorem State.setLoader_spine (s : State) (v : Loader) : (s.setLoader v).spine = s.spine := rfl
@[simp] theorem State.setLoader_placement (s : State) (v : Loader) : (s.setLoader v).placement = s.placement := rfl
@[simp] theorem State.setLoader_fire (s : State) (v : Loader) : (s.setLoader v).fire = s.fire := rfl
@[simp] theorem State.setLoader_line (s : State) (v : Loader) : (s.setLoader v).line = s.line := rfl
@[simp] theorem State.setLoader_free (s : State) (v : Loader) : (s.setLoader v).free = s.free := rfl
@[simp] theorem State.setLoader_pending (s : State) (v : Loader) : (s.setLoader v).pending = s.pending := rfl
@[simp] theorem State.setCfg_clock (s : State) (v : StationConfig) : (s.setCfg v).clock = s.clock := rfl
@[simp] theorem State.setCfg_inReset (s : State) (v : StationConfig) : (s.setCfg v).inReset = s.inReset := rfl
@[simp] theorem State.setCfg_mode (s : State) (v : StationConfig) : (s.setCfg v).mode = s.mode := rfl
@[simp] theorem State.setCfg_stockEnded (s : State) (v : StationConfig) : (s.setCfg v).stockEnded = s.stockEnded := rfl
@[simp] theorem State.setCfg_stopTaken (s : State) (v : StationConfig) : (s.setCfg v).stopTaken = s.stopTaken := rfl
@[simp] theorem State.setCfg_safeMade (s : State) (v : StationConfig) : (s.setCfg v).safeMade = s.safeMade := rfl
@[simp] theorem State.setCfg_loader (s : State) (v : StationConfig) : (s.setCfg v).loader = s.loader := rfl
@[simp] theorem State.setCfg_cfg (s : State) (v : StationConfig) : (s.setCfg v).cfg = v := rfl
@[simp] theorem State.setCfg_pins (s : State) (v : StationConfig) : (s.setCfg v).pins = s.pins := rfl
@[simp] theorem State.setCfg_dir (s : State) (v : StationConfig) : (s.setCfg v).dir = s.dir := rfl
@[simp] theorem State.setCfg_limited (s : State) (v : StationConfig) : (s.setCfg v).limited = s.limited := rfl
@[simp] theorem State.setCfg_planner (s : State) (v : StationConfig) : (s.setCfg v).planner = s.planner := rfl
@[simp] theorem State.setCfg_crane (s : State) (v : StationConfig) : (s.setCfg v).crane = s.crane := rfl
@[simp] theorem State.setCfg_spine (s : State) (v : StationConfig) : (s.setCfg v).spine = s.spine := rfl
@[simp] theorem State.setCfg_placement (s : State) (v : StationConfig) : (s.setCfg v).placement = s.placement := rfl
@[simp] theorem State.setCfg_fire (s : State) (v : StationConfig) : (s.setCfg v).fire = s.fire := rfl
@[simp] theorem State.setCfg_line (s : State) (v : StationConfig) : (s.setCfg v).line = s.line := rfl
@[simp] theorem State.setCfg_free (s : State) (v : StationConfig) : (s.setCfg v).free = s.free := rfl
@[simp] theorem State.setCfg_pending (s : State) (v : StationConfig) : (s.setCfg v).pending = s.pending := rfl
@[simp] theorem State.setPins_clock (s : State) (v : Pins) : (s.setPins v).clock = s.clock := rfl
@[simp] theorem State.setPins_inReset (s : State) (v : Pins) : (s.setPins v).inReset = s.inReset := rfl
@[simp] theorem State.setPins_mode (s : State) (v : Pins) : (s.setPins v).mode = s.mode := rfl
@[simp] theorem State.setPins_stockEnded (s : State) (v : Pins) : (s.setPins v).stockEnded = s.stockEnded := rfl
@[simp] theorem State.setPins_stopTaken (s : State) (v : Pins) : (s.setPins v).stopTaken = s.stopTaken := rfl
@[simp] theorem State.setPins_safeMade (s : State) (v : Pins) : (s.setPins v).safeMade = s.safeMade := rfl
@[simp] theorem State.setPins_loader (s : State) (v : Pins) : (s.setPins v).loader = s.loader := rfl
@[simp] theorem State.setPins_cfg (s : State) (v : Pins) : (s.setPins v).cfg = s.cfg := rfl
@[simp] theorem State.setPins_pins (s : State) (v : Pins) : (s.setPins v).pins = v := rfl
@[simp] theorem State.setPins_dir (s : State) (v : Pins) : (s.setPins v).dir = s.dir := rfl
@[simp] theorem State.setPins_limited (s : State) (v : Pins) : (s.setPins v).limited = s.limited := rfl
@[simp] theorem State.setPins_planner (s : State) (v : Pins) : (s.setPins v).planner = s.planner := rfl
@[simp] theorem State.setPins_crane (s : State) (v : Pins) : (s.setPins v).crane = s.crane := rfl
@[simp] theorem State.setPins_spine (s : State) (v : Pins) : (s.setPins v).spine = s.spine := rfl
@[simp] theorem State.setPins_placement (s : State) (v : Pins) : (s.setPins v).placement = s.placement := rfl
@[simp] theorem State.setPins_fire (s : State) (v : Pins) : (s.setPins v).fire = s.fire := rfl
@[simp] theorem State.setPins_line (s : State) (v : Pins) : (s.setPins v).line = s.line := rfl
@[simp] theorem State.setPins_free (s : State) (v : Pins) : (s.setPins v).free = s.free := rfl
@[simp] theorem State.setPins_pending (s : State) (v : Pins) : (s.setPins v).pending = s.pending := rfl
@[simp] theorem State.setDir_clock (s : State) (v : Directory) : (s.setDir v).clock = s.clock := rfl
@[simp] theorem State.setDir_inReset (s : State) (v : Directory) : (s.setDir v).inReset = s.inReset := rfl
@[simp] theorem State.setDir_mode (s : State) (v : Directory) : (s.setDir v).mode = s.mode := rfl
@[simp] theorem State.setDir_stockEnded (s : State) (v : Directory) : (s.setDir v).stockEnded = s.stockEnded := rfl
@[simp] theorem State.setDir_stopTaken (s : State) (v : Directory) : (s.setDir v).stopTaken = s.stopTaken := rfl
@[simp] theorem State.setDir_safeMade (s : State) (v : Directory) : (s.setDir v).safeMade = s.safeMade := rfl
@[simp] theorem State.setDir_loader (s : State) (v : Directory) : (s.setDir v).loader = s.loader := rfl
@[simp] theorem State.setDir_cfg (s : State) (v : Directory) : (s.setDir v).cfg = s.cfg := rfl
@[simp] theorem State.setDir_pins (s : State) (v : Directory) : (s.setDir v).pins = s.pins := rfl
@[simp] theorem State.setDir_dir (s : State) (v : Directory) : (s.setDir v).dir = v := rfl
@[simp] theorem State.setDir_limited (s : State) (v : Directory) : (s.setDir v).limited = s.limited := rfl
@[simp] theorem State.setDir_planner (s : State) (v : Directory) : (s.setDir v).planner = s.planner := rfl
@[simp] theorem State.setDir_crane (s : State) (v : Directory) : (s.setDir v).crane = s.crane := rfl
@[simp] theorem State.setDir_spine (s : State) (v : Directory) : (s.setDir v).spine = s.spine := rfl
@[simp] theorem State.setDir_placement (s : State) (v : Directory) : (s.setDir v).placement = s.placement := rfl
@[simp] theorem State.setDir_fire (s : State) (v : Directory) : (s.setDir v).fire = s.fire := rfl
@[simp] theorem State.setDir_line (s : State) (v : Directory) : (s.setDir v).line = s.line := rfl
@[simp] theorem State.setDir_free (s : State) (v : Directory) : (s.setDir v).free = s.free := rfl
@[simp] theorem State.setDir_pending (s : State) (v : Directory) : (s.setDir v).pending = s.pending := rfl
@[simp] theorem State.setLimited_clock (s : State) (v : Bool) : (s.setLimited v).clock = s.clock := rfl
@[simp] theorem State.setLimited_inReset (s : State) (v : Bool) : (s.setLimited v).inReset = s.inReset := rfl
@[simp] theorem State.setLimited_mode (s : State) (v : Bool) : (s.setLimited v).mode = s.mode := rfl
@[simp] theorem State.setLimited_stockEnded (s : State) (v : Bool) : (s.setLimited v).stockEnded = s.stockEnded := rfl
@[simp] theorem State.setLimited_stopTaken (s : State) (v : Bool) : (s.setLimited v).stopTaken = s.stopTaken := rfl
@[simp] theorem State.setLimited_safeMade (s : State) (v : Bool) : (s.setLimited v).safeMade = s.safeMade := rfl
@[simp] theorem State.setLimited_loader (s : State) (v : Bool) : (s.setLimited v).loader = s.loader := rfl
@[simp] theorem State.setLimited_cfg (s : State) (v : Bool) : (s.setLimited v).cfg = s.cfg := rfl
@[simp] theorem State.setLimited_pins (s : State) (v : Bool) : (s.setLimited v).pins = s.pins := rfl
@[simp] theorem State.setLimited_dir (s : State) (v : Bool) : (s.setLimited v).dir = s.dir := rfl
@[simp] theorem State.setLimited_limited (s : State) (v : Bool) : (s.setLimited v).limited = v := rfl
@[simp] theorem State.setLimited_planner (s : State) (v : Bool) : (s.setLimited v).planner = s.planner := rfl
@[simp] theorem State.setLimited_crane (s : State) (v : Bool) : (s.setLimited v).crane = s.crane := rfl
@[simp] theorem State.setLimited_spine (s : State) (v : Bool) : (s.setLimited v).spine = s.spine := rfl
@[simp] theorem State.setLimited_placement (s : State) (v : Bool) : (s.setLimited v).placement = s.placement := rfl
@[simp] theorem State.setLimited_fire (s : State) (v : Bool) : (s.setLimited v).fire = s.fire := rfl
@[simp] theorem State.setLimited_line (s : State) (v : Bool) : (s.setLimited v).line = s.line := rfl
@[simp] theorem State.setLimited_free (s : State) (v : Bool) : (s.setLimited v).free = s.free := rfl
@[simp] theorem State.setLimited_pending (s : State) (v : Bool) : (s.setLimited v).pending = s.pending := rfl
@[simp] theorem State.setPlanner_clock (s : State) (v : Planner) : (s.setPlanner v).clock = s.clock := rfl
@[simp] theorem State.setPlanner_inReset (s : State) (v : Planner) : (s.setPlanner v).inReset = s.inReset := rfl
@[simp] theorem State.setPlanner_mode (s : State) (v : Planner) : (s.setPlanner v).mode = s.mode := rfl
@[simp] theorem State.setPlanner_stockEnded (s : State) (v : Planner) : (s.setPlanner v).stockEnded = s.stockEnded := rfl
@[simp] theorem State.setPlanner_stopTaken (s : State) (v : Planner) : (s.setPlanner v).stopTaken = s.stopTaken := rfl
@[simp] theorem State.setPlanner_safeMade (s : State) (v : Planner) : (s.setPlanner v).safeMade = s.safeMade := rfl
@[simp] theorem State.setPlanner_loader (s : State) (v : Planner) : (s.setPlanner v).loader = s.loader := rfl
@[simp] theorem State.setPlanner_cfg (s : State) (v : Planner) : (s.setPlanner v).cfg = s.cfg := rfl
@[simp] theorem State.setPlanner_pins (s : State) (v : Planner) : (s.setPlanner v).pins = s.pins := rfl
@[simp] theorem State.setPlanner_dir (s : State) (v : Planner) : (s.setPlanner v).dir = s.dir := rfl
@[simp] theorem State.setPlanner_limited (s : State) (v : Planner) : (s.setPlanner v).limited = s.limited := rfl
@[simp] theorem State.setPlanner_planner (s : State) (v : Planner) : (s.setPlanner v).planner = v := rfl
@[simp] theorem State.setPlanner_crane (s : State) (v : Planner) : (s.setPlanner v).crane = s.crane := rfl
@[simp] theorem State.setPlanner_spine (s : State) (v : Planner) : (s.setPlanner v).spine = s.spine := rfl
@[simp] theorem State.setPlanner_placement (s : State) (v : Planner) : (s.setPlanner v).placement = s.placement := rfl
@[simp] theorem State.setPlanner_fire (s : State) (v : Planner) : (s.setPlanner v).fire = s.fire := rfl
@[simp] theorem State.setPlanner_line (s : State) (v : Planner) : (s.setPlanner v).line = s.line := rfl
@[simp] theorem State.setPlanner_free (s : State) (v : Planner) : (s.setPlanner v).free = s.free := rfl
@[simp] theorem State.setPlanner_pending (s : State) (v : Planner) : (s.setPlanner v).pending = s.pending := rfl
@[simp] theorem State.setCrane_clock (s : State) (v : Crane) : (s.setCrane v).clock = s.clock := rfl
@[simp] theorem State.setCrane_inReset (s : State) (v : Crane) : (s.setCrane v).inReset = s.inReset := rfl
@[simp] theorem State.setCrane_mode (s : State) (v : Crane) : (s.setCrane v).mode = s.mode := rfl
@[simp] theorem State.setCrane_stockEnded (s : State) (v : Crane) : (s.setCrane v).stockEnded = s.stockEnded := rfl
@[simp] theorem State.setCrane_stopTaken (s : State) (v : Crane) : (s.setCrane v).stopTaken = s.stopTaken := rfl
@[simp] theorem State.setCrane_safeMade (s : State) (v : Crane) : (s.setCrane v).safeMade = s.safeMade := rfl
@[simp] theorem State.setCrane_loader (s : State) (v : Crane) : (s.setCrane v).loader = s.loader := rfl
@[simp] theorem State.setCrane_cfg (s : State) (v : Crane) : (s.setCrane v).cfg = s.cfg := rfl
@[simp] theorem State.setCrane_pins (s : State) (v : Crane) : (s.setCrane v).pins = s.pins := rfl
@[simp] theorem State.setCrane_dir (s : State) (v : Crane) : (s.setCrane v).dir = s.dir := rfl
@[simp] theorem State.setCrane_limited (s : State) (v : Crane) : (s.setCrane v).limited = s.limited := rfl
@[simp] theorem State.setCrane_planner (s : State) (v : Crane) : (s.setCrane v).planner = s.planner := rfl
@[simp] theorem State.setCrane_crane (s : State) (v : Crane) : (s.setCrane v).crane = v := rfl
@[simp] theorem State.setCrane_spine (s : State) (v : Crane) : (s.setCrane v).spine = s.spine := rfl
@[simp] theorem State.setCrane_placement (s : State) (v : Crane) : (s.setCrane v).placement = s.placement := rfl
@[simp] theorem State.setCrane_fire (s : State) (v : Crane) : (s.setCrane v).fire = s.fire := rfl
@[simp] theorem State.setCrane_line (s : State) (v : Crane) : (s.setCrane v).line = s.line := rfl
@[simp] theorem State.setCrane_free (s : State) (v : Crane) : (s.setCrane v).free = s.free := rfl
@[simp] theorem State.setCrane_pending (s : State) (v : Crane) : (s.setCrane v).pending = s.pending := rfl
@[simp] theorem State.setSpine_clock (s : State) (v : Spine) : (s.setSpine v).clock = s.clock := rfl
@[simp] theorem State.setSpine_inReset (s : State) (v : Spine) : (s.setSpine v).inReset = s.inReset := rfl
@[simp] theorem State.setSpine_mode (s : State) (v : Spine) : (s.setSpine v).mode = s.mode := rfl
@[simp] theorem State.setSpine_stockEnded (s : State) (v : Spine) : (s.setSpine v).stockEnded = s.stockEnded := rfl
@[simp] theorem State.setSpine_stopTaken (s : State) (v : Spine) : (s.setSpine v).stopTaken = s.stopTaken := rfl
@[simp] theorem State.setSpine_safeMade (s : State) (v : Spine) : (s.setSpine v).safeMade = s.safeMade := rfl
@[simp] theorem State.setSpine_loader (s : State) (v : Spine) : (s.setSpine v).loader = s.loader := rfl
@[simp] theorem State.setSpine_cfg (s : State) (v : Spine) : (s.setSpine v).cfg = s.cfg := rfl
@[simp] theorem State.setSpine_pins (s : State) (v : Spine) : (s.setSpine v).pins = s.pins := rfl
@[simp] theorem State.setSpine_dir (s : State) (v : Spine) : (s.setSpine v).dir = s.dir := rfl
@[simp] theorem State.setSpine_limited (s : State) (v : Spine) : (s.setSpine v).limited = s.limited := rfl
@[simp] theorem State.setSpine_planner (s : State) (v : Spine) : (s.setSpine v).planner = s.planner := rfl
@[simp] theorem State.setSpine_crane (s : State) (v : Spine) : (s.setSpine v).crane = s.crane := rfl
@[simp] theorem State.setSpine_spine (s : State) (v : Spine) : (s.setSpine v).spine = v := rfl
@[simp] theorem State.setSpine_placement (s : State) (v : Spine) : (s.setSpine v).placement = s.placement := rfl
@[simp] theorem State.setSpine_fire (s : State) (v : Spine) : (s.setSpine v).fire = s.fire := rfl
@[simp] theorem State.setSpine_line (s : State) (v : Spine) : (s.setSpine v).line = s.line := rfl
@[simp] theorem State.setSpine_free (s : State) (v : Spine) : (s.setSpine v).free = s.free := rfl
@[simp] theorem State.setSpine_pending (s : State) (v : Spine) : (s.setSpine v).pending = s.pending := rfl
@[simp] theorem State.setPlacement_clock (s : State) (v : Placement) : (s.setPlacement v).clock = s.clock := rfl
@[simp] theorem State.setPlacement_inReset (s : State) (v : Placement) : (s.setPlacement v).inReset = s.inReset := rfl
@[simp] theorem State.setPlacement_mode (s : State) (v : Placement) : (s.setPlacement v).mode = s.mode := rfl
@[simp] theorem State.setPlacement_stockEnded (s : State) (v : Placement) : (s.setPlacement v).stockEnded = s.stockEnded := rfl
@[simp] theorem State.setPlacement_stopTaken (s : State) (v : Placement) : (s.setPlacement v).stopTaken = s.stopTaken := rfl
@[simp] theorem State.setPlacement_safeMade (s : State) (v : Placement) : (s.setPlacement v).safeMade = s.safeMade := rfl
@[simp] theorem State.setPlacement_loader (s : State) (v : Placement) : (s.setPlacement v).loader = s.loader := rfl
@[simp] theorem State.setPlacement_cfg (s : State) (v : Placement) : (s.setPlacement v).cfg = s.cfg := rfl
@[simp] theorem State.setPlacement_pins (s : State) (v : Placement) : (s.setPlacement v).pins = s.pins := rfl
@[simp] theorem State.setPlacement_dir (s : State) (v : Placement) : (s.setPlacement v).dir = s.dir := rfl
@[simp] theorem State.setPlacement_limited (s : State) (v : Placement) : (s.setPlacement v).limited = s.limited := rfl
@[simp] theorem State.setPlacement_planner (s : State) (v : Placement) : (s.setPlacement v).planner = s.planner := rfl
@[simp] theorem State.setPlacement_crane (s : State) (v : Placement) : (s.setPlacement v).crane = s.crane := rfl
@[simp] theorem State.setPlacement_spine (s : State) (v : Placement) : (s.setPlacement v).spine = s.spine := rfl
@[simp] theorem State.setPlacement_placement (s : State) (v : Placement) : (s.setPlacement v).placement = v := rfl
@[simp] theorem State.setPlacement_fire (s : State) (v : Placement) : (s.setPlacement v).fire = s.fire := rfl
@[simp] theorem State.setPlacement_line (s : State) (v : Placement) : (s.setPlacement v).line = s.line := rfl
@[simp] theorem State.setPlacement_free (s : State) (v : Placement) : (s.setPlacement v).free = s.free := rfl
@[simp] theorem State.setPlacement_pending (s : State) (v : Placement) : (s.setPlacement v).pending = s.pending := rfl
@[simp] theorem State.setFire_clock (s : State) (v : Fire) : (s.setFire v).clock = s.clock := rfl
@[simp] theorem State.setFire_inReset (s : State) (v : Fire) : (s.setFire v).inReset = s.inReset := rfl
@[simp] theorem State.setFire_mode (s : State) (v : Fire) : (s.setFire v).mode = s.mode := rfl
@[simp] theorem State.setFire_stockEnded (s : State) (v : Fire) : (s.setFire v).stockEnded = s.stockEnded := rfl
@[simp] theorem State.setFire_stopTaken (s : State) (v : Fire) : (s.setFire v).stopTaken = s.stopTaken := rfl
@[simp] theorem State.setFire_safeMade (s : State) (v : Fire) : (s.setFire v).safeMade = s.safeMade := rfl
@[simp] theorem State.setFire_loader (s : State) (v : Fire) : (s.setFire v).loader = s.loader := rfl
@[simp] theorem State.setFire_cfg (s : State) (v : Fire) : (s.setFire v).cfg = s.cfg := rfl
@[simp] theorem State.setFire_pins (s : State) (v : Fire) : (s.setFire v).pins = s.pins := rfl
@[simp] theorem State.setFire_dir (s : State) (v : Fire) : (s.setFire v).dir = s.dir := rfl
@[simp] theorem State.setFire_limited (s : State) (v : Fire) : (s.setFire v).limited = s.limited := rfl
@[simp] theorem State.setFire_planner (s : State) (v : Fire) : (s.setFire v).planner = s.planner := rfl
@[simp] theorem State.setFire_crane (s : State) (v : Fire) : (s.setFire v).crane = s.crane := rfl
@[simp] theorem State.setFire_spine (s : State) (v : Fire) : (s.setFire v).spine = s.spine := rfl
@[simp] theorem State.setFire_placement (s : State) (v : Fire) : (s.setFire v).placement = s.placement := rfl
@[simp] theorem State.setFire_fire (s : State) (v : Fire) : (s.setFire v).fire = v := rfl
@[simp] theorem State.setFire_line (s : State) (v : Fire) : (s.setFire v).line = s.line := rfl
@[simp] theorem State.setFire_free (s : State) (v : Fire) : (s.setFire v).free = s.free := rfl
@[simp] theorem State.setFire_pending (s : State) (v : Fire) : (s.setFire v).pending = s.pending := rfl
@[simp] theorem State.setLine_clock (s : State) (v : LineUnit) : (s.setLine v).clock = s.clock := rfl
@[simp] theorem State.setLine_inReset (s : State) (v : LineUnit) : (s.setLine v).inReset = s.inReset := rfl
@[simp] theorem State.setLine_mode (s : State) (v : LineUnit) : (s.setLine v).mode = s.mode := rfl
@[simp] theorem State.setLine_stockEnded (s : State) (v : LineUnit) : (s.setLine v).stockEnded = s.stockEnded := rfl
@[simp] theorem State.setLine_stopTaken (s : State) (v : LineUnit) : (s.setLine v).stopTaken = s.stopTaken := rfl
@[simp] theorem State.setLine_safeMade (s : State) (v : LineUnit) : (s.setLine v).safeMade = s.safeMade := rfl
@[simp] theorem State.setLine_loader (s : State) (v : LineUnit) : (s.setLine v).loader = s.loader := rfl
@[simp] theorem State.setLine_cfg (s : State) (v : LineUnit) : (s.setLine v).cfg = s.cfg := rfl
@[simp] theorem State.setLine_pins (s : State) (v : LineUnit) : (s.setLine v).pins = s.pins := rfl
@[simp] theorem State.setLine_dir (s : State) (v : LineUnit) : (s.setLine v).dir = s.dir := rfl
@[simp] theorem State.setLine_limited (s : State) (v : LineUnit) : (s.setLine v).limited = s.limited := rfl
@[simp] theorem State.setLine_planner (s : State) (v : LineUnit) : (s.setLine v).planner = s.planner := rfl
@[simp] theorem State.setLine_crane (s : State) (v : LineUnit) : (s.setLine v).crane = s.crane := rfl
@[simp] theorem State.setLine_spine (s : State) (v : LineUnit) : (s.setLine v).spine = s.spine := rfl
@[simp] theorem State.setLine_placement (s : State) (v : LineUnit) : (s.setLine v).placement = s.placement := rfl
@[simp] theorem State.setLine_fire (s : State) (v : LineUnit) : (s.setLine v).fire = s.fire := rfl
@[simp] theorem State.setLine_line (s : State) (v : LineUnit) : (s.setLine v).line = v := rfl
@[simp] theorem State.setLine_free (s : State) (v : LineUnit) : (s.setLine v).free = s.free := rfl
@[simp] theorem State.setLine_pending (s : State) (v : LineUnit) : (s.setLine v).pending = s.pending := rfl
@[simp] theorem State.setFree_clock (s : State) (v : Nat) : (s.setFree v).clock = s.clock := rfl
@[simp] theorem State.setFree_inReset (s : State) (v : Nat) : (s.setFree v).inReset = s.inReset := rfl
@[simp] theorem State.setFree_mode (s : State) (v : Nat) : (s.setFree v).mode = s.mode := rfl
@[simp] theorem State.setFree_stockEnded (s : State) (v : Nat) : (s.setFree v).stockEnded = s.stockEnded := rfl
@[simp] theorem State.setFree_stopTaken (s : State) (v : Nat) : (s.setFree v).stopTaken = s.stopTaken := rfl
@[simp] theorem State.setFree_safeMade (s : State) (v : Nat) : (s.setFree v).safeMade = s.safeMade := rfl
@[simp] theorem State.setFree_loader (s : State) (v : Nat) : (s.setFree v).loader = s.loader := rfl
@[simp] theorem State.setFree_cfg (s : State) (v : Nat) : (s.setFree v).cfg = s.cfg := rfl
@[simp] theorem State.setFree_pins (s : State) (v : Nat) : (s.setFree v).pins = s.pins := rfl
@[simp] theorem State.setFree_dir (s : State) (v : Nat) : (s.setFree v).dir = s.dir := rfl
@[simp] theorem State.setFree_limited (s : State) (v : Nat) : (s.setFree v).limited = s.limited := rfl
@[simp] theorem State.setFree_planner (s : State) (v : Nat) : (s.setFree v).planner = s.planner := rfl
@[simp] theorem State.setFree_crane (s : State) (v : Nat) : (s.setFree v).crane = s.crane := rfl
@[simp] theorem State.setFree_spine (s : State) (v : Nat) : (s.setFree v).spine = s.spine := rfl
@[simp] theorem State.setFree_placement (s : State) (v : Nat) : (s.setFree v).placement = s.placement := rfl
@[simp] theorem State.setFree_fire (s : State) (v : Nat) : (s.setFree v).fire = s.fire := rfl
@[simp] theorem State.setFree_line (s : State) (v : Nat) : (s.setFree v).line = s.line := rfl
@[simp] theorem State.setFree_free (s : State) (v : Nat) : (s.setFree v).free = v := rfl
@[simp] theorem State.setFree_pending (s : State) (v : Nat) : (s.setFree v).pending = s.pending := rfl
@[simp] theorem State.setPending_clock (s : State) (v : List Instr) : (s.setPending v).clock = s.clock := rfl
@[simp] theorem State.setPending_inReset (s : State) (v : List Instr) : (s.setPending v).inReset = s.inReset := rfl
@[simp] theorem State.setPending_mode (s : State) (v : List Instr) : (s.setPending v).mode = s.mode := rfl
@[simp] theorem State.setPending_stockEnded (s : State) (v : List Instr) : (s.setPending v).stockEnded = s.stockEnded := rfl
@[simp] theorem State.setPending_stopTaken (s : State) (v : List Instr) : (s.setPending v).stopTaken = s.stopTaken := rfl
@[simp] theorem State.setPending_safeMade (s : State) (v : List Instr) : (s.setPending v).safeMade = s.safeMade := rfl
@[simp] theorem State.setPending_loader (s : State) (v : List Instr) : (s.setPending v).loader = s.loader := rfl
@[simp] theorem State.setPending_cfg (s : State) (v : List Instr) : (s.setPending v).cfg = s.cfg := rfl
@[simp] theorem State.setPending_pins (s : State) (v : List Instr) : (s.setPending v).pins = s.pins := rfl
@[simp] theorem State.setPending_dir (s : State) (v : List Instr) : (s.setPending v).dir = s.dir := rfl
@[simp] theorem State.setPending_limited (s : State) (v : List Instr) : (s.setPending v).limited = s.limited := rfl
@[simp] theorem State.setPending_planner (s : State) (v : List Instr) : (s.setPending v).planner = s.planner := rfl
@[simp] theorem State.setPending_crane (s : State) (v : List Instr) : (s.setPending v).crane = s.crane := rfl
@[simp] theorem State.setPending_spine (s : State) (v : List Instr) : (s.setPending v).spine = s.spine := rfl
@[simp] theorem State.setPending_placement (s : State) (v : List Instr) : (s.setPending v).placement = s.placement := rfl
@[simp] theorem State.setPending_fire (s : State) (v : List Instr) : (s.setPending v).fire = s.fire := rfl
@[simp] theorem State.setPending_line (s : State) (v : List Instr) : (s.setPending v).line = s.line := rfl
@[simp] theorem State.setPending_free (s : State) (v : List Instr) : (s.setPending v).free = s.free := rfl
@[simp] theorem State.setPending_pending (s : State) (v : List Instr) : (s.setPending v).pending = v := rfl

end Sys2Proof.Machine
end

