-- ==== Sys2Proof/Laws/Fixed.lean ====
section
/-! SUPPORT. What no event but a reset or the image read changes: clock, reset input, loader, configuration, pins as read,
and the queue of commands. One lemma for each operation, and none need unfold another. -/

namespace Sys2Proof.Machine
open Sys2Proof

/-- The part of the state that the operations of the blocks leave alone. -/
def State.fixed (s : State) : Time × Bool × Loader × StationConfig × Pins × List Instr :=
  (s.clock, s.inReset, s.loader, s.cfg, s.pins, s.pending)

@[simp] theorem State.setMode_fixed (s : State) (v : Mode) : (s.setMode v).fixed = s.fixed := rfl
@[simp] theorem State.setStockEnded_fixed (s : State) (v : Bool) : (s.setStockEnded v).fixed = s.fixed := rfl
@[simp] theorem State.setStopTaken_fixed (s : State) (v : Bool) : (s.setStopTaken v).fixed = s.fixed := rfl
@[simp] theorem State.setSafeMade_fixed (s : State) (v : Bool) : (s.setSafeMade v).fixed = s.fixed := rfl
@[simp] theorem State.setDir_fixed (s : State) (v : Directory) : (s.setDir v).fixed = s.fixed := rfl
@[simp] theorem State.setLimited_fixed (s : State) (v : Bool) : (s.setLimited v).fixed = s.fixed := rfl
@[simp] theorem State.setPlanner_fixed (s : State) (v : Planner) : (s.setPlanner v).fixed = s.fixed := rfl
@[simp] theorem State.setCrane_fixed (s : State) (v : Crane) : (s.setCrane v).fixed = s.fixed := rfl
@[simp] theorem State.setSpine_fixed (s : State) (v : Spine) : (s.setSpine v).fixed = s.fixed := rfl
@[simp] theorem State.setPlacement_fixed (s : State) (v : Placement) : (s.setPlacement v).fixed = s.fixed := rfl
@[simp] theorem State.setFire_fixed (s : State) (v : Fire) : (s.setFire v).fixed = s.fixed := rfl
@[simp] theorem State.setLine_fixed (s : State) (v : LineUnit) : (s.setLine v).fixed = s.fixed := rfl
@[simp] theorem State.setFree_fixed (s : State) (v : Nat) : (s.setFree v).fixed = s.fixed := rfl

@[simp] theorem foldl_fixed {α : Type} (f : State → α → State) (h : ∀ s a, (f s a).fixed = s.fixed) (l : List α) (s : State) :
    (l.foldl f s).fixed = s.fixed := by
  induction l generalizing s with
  | nil => rfl
  | cons a l ih => simp [ih, h]

@[simp] theorem noteHeld_fixed (h : Bool) (s : State) : (noteHeld h s).fixed = s.fixed := by
  unfold noteHeld
  (try dsimp only) <;> (repeat' split) <;> (try simp)

@[simp] theorem handBack_fixed (n : Nat) (s : State) : (handBack n s).fixed = s.fixed := by
  unfold handBack
  (try dsimp only) <;> (repeat' split) <;> (try simp)

@[simp] theorem handBackLink_fixed (link : Option Nat) (s : State) : (handBackLink link s).fixed = s.fixed := by
  unfold handBackLink
  (try dsimp only) <;> (repeat' split) <;> (try simp)

@[simp] theorem releaseBin_fixed (bin : Nat) (s : State) : (releaseBin bin s).fixed = s.fixed := by
  unfold releaseBin
  (try dsimp only) <;> (repeat' split) <;> (try simp)

@[simp] theorem withholdBin_fixed (bin : Nat) (s : State) : (withholdBin bin s).fixed = s.fixed := by
  unfold withholdBin
  (try dsimp only) <;> (repeat' split) <;> (try simp)

@[simp] theorem reportRoute_fixed (isOpen : Bool) (s : State) : (reportRoute isOpen s).fixed = s.fixed := by
  unfold reportRoute
  (try dsimp only) <;> (repeat' split) <;> (try simp)

@[simp] theorem visitTo_fixed (link : Option Nat) (st : VisitState) (s : State) : (visitTo link st s).fixed = s.fixed := by
  unfold visitTo
  (try dsimp only) <;> (repeat' split) <;> (try simp)

@[simp] theorem reserveEntry_fixed (bin : Nat) (desk : Desk) (s : State) : (reserveEntry bin desk s).fixed = s.fixed := by
  unfold reserveEntry
  (try dsimp only) <;> (repeat' split) <;> (try simp)

@[simp] theorem dropReservation_fixed (bin : Nat) (desk : Desk) (s : State) : (dropReservation bin desk s).fixed = s.fixed := by
  unfold dropReservation
  (try dsimp only) <;> (repeat' split) <;> (try simp)

@[simp] theorem takeRoomPart_fixed (bin : Nat) (part : RoomPart) (s : State) : (takeRoomPart bin part s).fixed = s.fixed := by
  unfold takeRoomPart
  (try dsimp only) <;> (repeat' split) <;> (try simp)

@[simp] theorem clearStow_fixed (s : State) : (clearStow s).fixed = s.fixed := by
  unfold clearStow
  (try dsimp only) <;> (repeat' split) <;> (try simp)

@[simp] theorem clearPassed_fixed (s : State) : (clearPassed s).fixed = s.fixed := by
  unfold clearPassed
  (try dsimp only) <;> (repeat' split) <;> (try simp)

@[simp] theorem setStow_fixed (st : StowState) (s : State) : (setStow st s).fixed = s.fixed := by
  unfold setStow
  (try dsimp only) <;> (repeat' split) <;> (try simp)

@[simp] theorem promoteStow_fixed (s : State) : (promoteStow s).fixed = s.fixed := by
  unfold promoteStow
  (try dsimp only) <;> (repeat' split) <;> (try simp)

@[simp] theorem releaseEntry_fixed (e : CallEntry) (s : State) : (releaseEntry e s).fixed = s.fixed := by
  unfold releaseEntry
  (try dsimp only) <;> (repeat' split) <;> (try simp)

@[simp] theorem unreserveEntry_fixed (e : CallEntry) (s : State) : (unreserveEntry e s).fixed = s.fixed := by
  unfold unreserveEntry
  (try dsimp only) <;> (repeat' split) <;> (try simp)

@[simp] theorem bidRefused_fixed (c : Call) (s : State) : (bidRefused c s).fixed = s.fixed := by
  unfold bidRefused
  (try dsimp only) <;> (repeat' split) <;> (try simp)

@[simp] theorem claimLost_fixed (c : Call) (s : State) : (claimLost c s).fixed = s.fixed := by
  unfold claimLost
  (try dsimp only) <;> (repeat' split) <;> (try simp)

@[simp] theorem startRetry_fixed (l : Lane) (s : State) : (startRetry l s).fixed = s.fixed := by
  unfold startRetry
  (try dsimp only) <;> (repeat' split) <;> (try simp)

@[simp] theorem startClosingRetry_fixed (s : State) : (startClosingRetry s).fixed = s.fixed := by
  unfold startClosingRetry
  (try dsimp only) <;> (repeat' split) <;> (try simp)

@[simp] theorem frameRefused_fixed (o : Owner) (s : State) : (frameRefused o s).fixed = s.fixed := by
  unfold frameRefused
  (try dsimp only) <;> (repeat' split) <;> (try simp)

@[simp] theorem queueFrame_fixed (f : TxFrame) (s : State) : (queueFrame f s).fixed = s.fixed := by
  unfold queueFrame
  (try dsimp only) <;> (repeat' split) <;> (try simp)

@[simp] theorem notice_fixed (items : List Item) (s : State) : (notice items s).fixed = s.fixed := by
  unfold notice
  (try dsimp only) <;> (repeat' split) <;> (try simp)

@[simp] theorem faultNotice_fixed (b : FaultBody) (s : State) : (faultNotice b s).fixed = s.fixed := by
  unfold faultNotice
  (try dsimp only) <;> (repeat' split) <;> (try simp)

@[simp] theorem withdraw_fixed (p : Owner → Bool) (s : State) : (withdraw p s).fixed = s.fixed := by
  unfold withdraw
  (try dsimp only) <;> (repeat' split) <;> (try simp)

@[simp] theorem requestFailed_fixed (reason : FailReason) (kind : AnsweredKind) (bin : Nat) (desk : Option Desk) (requests : List (Nat × Nat)) (s : State) : (requestFailed reason kind bin desk requests s).fixed = s.fixed := by
  unfold requestFailed
  (try dsimp only) <;> (repeat' split) <;> (try simp)

@[simp] theorem requestDone_fixed (bin : Nat) (desk : Desk) (requests : List (Nat × Nat)) (s : State) : (requestDone bin desk requests s).fixed = s.fixed := by
  unfold requestDone
  (try dsimp only) <;> (repeat' split) <;> (try simp)

@[simp] theorem failVisit_fixed (n : Nat) (reason : FailReason) (release : Bool) (s : State) : (failVisit n reason release s).fixed = s.fixed := by
  unfold failVisit
  (try dsimp only) <;> (repeat' split) <;> (try simp)

@[simp] theorem failVisits_fixed (bin : Nat) (reason : FailReason) (s : State) : (failVisits bin reason s).fixed = s.fixed := by
  unfold failVisits
  (try dsimp only) <;> (repeat' split) <;> (try simp)

@[simp] theorem closeCall_fixed (c : Call) (s : State) : (closeCall c s).fixed = s.fixed := by
  unfold closeCall
  (try dsimp only) <;> (repeat' split) <;> (try simp)

@[simp] theorem closeCalls_fixed (p : CallState → Bool) (s : State) : (closeCalls p s).fixed = s.fixed := by
  unfold closeCalls
  (try dsimp only) <;> (repeat' split) <;> (try simp)

@[simp] theorem closeCallsOfBin_fixed (bin : Nat) (s : State) : (closeCallsOfBin bin s).fixed = s.fixed := by
  unfold closeCallsOfBin
  (try dsimp only) <;> (repeat' split) <;> (try simp)

@[simp] theorem craneTo_fixed (st : CraneState) (s : State) : (craneTo st s).fixed = s.fixed := by
  unfold craneTo
  (try dsimp only) <;> (repeat' split) <;> (try simp)

@[simp] theorem readEncoders_fixed (s : State) : (readEncoders s).fixed = s.fixed := by
  unfold readEncoders
  (try dsimp only) <;> (repeat' split) <;> (try simp)

@[simp] theorem clearCurrent_fixed (s : State) : (clearCurrent s).fixed = s.fixed := by
  unfold clearCurrent
  (try dsimp only) <;> (repeat' split) <;> (try simp)

@[simp] theorem askLeg_fixed (a b : Pos) (fork : Bool) (s : State) : (askLeg a b fork s).2.fixed = s.fixed := by
  unfold askLeg
  (try dsimp only) <;> (repeat' split) <;> (try simp)

@[simp] theorem askEstimate_fixed (target : Target) (fork : Bool) (s : State) : (askEstimate target fork s).2.fixed = s.fixed := by
  unfold askEstimate
  (try dsimp only) <;> (repeat' split) <;> (try simp)

@[simp] theorem locateBin_fixed (b : Nat) (loc : Location) (s : State) : (locateBin b loc s).fixed = s.fixed := by
  unfold locateBin
  (try dsimp only) <;> (repeat' split) <;> (try simp)

@[simp] theorem setPortOut_fixed (x : PlaceState) (s : State) : (setPortOut x s).fixed = s.fixed := by
  unfold setPortOut
  (try dsimp only) <;> (repeat' split) <;> (try simp)

@[simp] theorem setPortIn_fixed (x : PlaceState) (s : State) : (setPortIn x s).fixed = s.fixed := by
  unfold setPortIn
  (try dsimp only) <;> (repeat' split) <;> (try simp)

@[simp] theorem stampStart_fixed (s : State) : (stampStart s).fixed = s.fixed := by
  unfold stampStart
  (try dsimp only) <;> (repeat' split) <;> (try simp)

@[simp] theorem reportStart_fixed (m : Move) (s : State) : (reportStart m s).fixed = s.fixed := by
  unfold reportStart
  (try dsimp only) <;> (repeat' split) <;> (try simp)

@[simp] theorem startMove_fixed (m : Move) (s : State) : (startMove m s).fixed = s.fixed := by
  unfold startMove
  (try dsimp only) <;> (repeat' split) <;> (try simp)

@[simp] theorem holdDeliver_fixed (m : Move) (s : State) : (holdDeliver m s).fixed = s.fixed := by
  unfold holdDeliver
  (try dsimp only) <;> (repeat' split) <;> (try simp)

@[simp] theorem stageContinuation_fixed (m : Move) (s : State) : (stageContinuation m s).fixed = s.fixed := by
  unfold stageContinuation
  (try dsimp only) <;> (repeat' split) <;> (try simp)

@[simp] theorem makeCurrent_fixed (kind : MoveKind) (target : Target) (visit : Option Nat) (bound : Bool) (s : State) : (makeCurrent kind target visit bound s).fixed = s.fixed := by
  unfold makeCurrent
  (try dsimp only) <;> (repeat' split) <;> (try simp)

@[simp] theorem discardStaged_fixed (s : State) : (discardStaged s).fixed = s.fixed := by
  unfold discardStaged
  (try dsimp only) <;> (repeat' split) <;> (try simp)

@[simp] theorem storeBlocked_fixed (bin : Nat) (slot : SlotName) (s : State) : (storeBlocked bin slot s).fixed = s.fixed := by
  unfold storeBlocked
  (try dsimp only) <;> (repeat' split) <;> (try simp)

@[simp] theorem makeStore_fixed (bin : Nat) (s : State) : (makeStore bin s).fixed = s.fixed := by
  unfold makeStore
  (try dsimp only) <;> (repeat' split) <;> (try simp)

@[simp] theorem nextMove_fixed (s : State) : (nextMove s).fixed = s.fixed := by
  unfold nextMove
  (try dsimp only) <;> (repeat' split) <;> (try simp)

@[simp] theorem park_fixed (s : State) : (park s).fixed = s.fixed := by
  unfold park
  (try dsimp only) <;> (repeat' split) <;> (try simp)

@[simp] theorem promote_fixed (s : State) : (promote s).fixed = s.fixed := by
  unfold promote
  (try dsimp only) <;> (repeat' split) <;> (try simp)

@[simp] theorem afterCompletion_fixed (s : State) : (afterCompletion s).fixed = s.fixed := by
  unfold afterCompletion
  (try dsimp only) <;> (repeat' split) <;> (try simp)

@[simp] theorem storeBin_fixed (bin : Nat) (content : Option Contents) (room : Option (Nat × Nat)) (s : State) : (storeBin bin content room s).fixed = s.fixed := by
  unfold storeBin
  (try dsimp only) <;> (repeat' split) <;> (try simp)

@[simp] theorem carryFetched_fixed (bin : Nat) (visit : Option Nat) (uncertain : Bool) (d : Directory) (s : State) : (carryFetched bin visit uncertain d s).fixed = s.fixed := by
  unfold carryFetched
  (try dsimp only) <;> (repeat' split) <;> (try simp)

@[simp] theorem abandonFetch_fixed (m : Move) (s : State) : (abandonFetch m s).fixed = s.fixed := by
  unfold abandonFetch
  (try dsimp only) <;> (repeat' split) <;> (try simp)

@[simp] theorem abandonDeliver_fixed (m : Move) (s : State) : (abandonDeliver m s).fixed = s.fixed := by
  unfold abandonDeliver
  (try dsimp only) <;> (repeat' split) <;> (try simp)

@[simp] theorem abandonTakeIn_fixed (s : State) : (abandonTakeIn s).fixed = s.fixed := by
  unfold abandonTakeIn
  (try dsimp only) <;> (repeat' split) <;> (try simp)

@[simp] theorem abandonStore_fixed (s : State) : (abandonStore s).fixed = s.fixed := by
  unfold abandonStore
  (try dsimp only) <;> (repeat' split) <;> (try simp)

@[simp] theorem abandonMove_fixed (s : State) : (abandonMove s).fixed = s.fixed := by
  unfold abandonMove
  (try dsimp only) <;> (repeat' split) <;> (try simp)

@[simp] theorem stall_fixed (m : Move) (s : State) : (stall m s).fixed = s.fixed := by
  unfold stall
  (try dsimp only) <;> (repeat' split) <;> (try simp)

@[simp] theorem loadFault_fixed (bin : Nat) (s : State) : (loadFault bin s).fixed = s.fixed := by
  unfold loadFault
  (try dsimp only) <;> (repeat' split) <;> (try simp)

@[simp] theorem resolveLoad_fixed (s : State) : (resolveLoad s).2.fixed = s.fixed := by
  unfold resolveLoad
  (try dsimp only) <;> (repeat' split) <;> (try simp)

@[simp] theorem portOutEmptied_fixed (s : State) : (portOutEmptied s).fixed = s.fixed := by
  unfold portOutEmptied
  (try dsimp only) <;> (repeat' split) <;> (try simp)

@[simp] theorem dropWaiting_fixed (s : State) : (dropWaiting s).fixed = s.fixed := by
  unfold dropWaiting
  (try dsimp only) <;> (repeat' split) <;> (try simp)

@[simp] theorem craneEntersFire_fixed (s : State) : (craneEntersFire s).fixed = s.fixed := by
  unfold craneEntersFire
  (try dsimp only) <;> (repeat' split) <;> (try simp)

@[simp] theorem unpark_fixed (s : State) : (unpark s).fixed = s.fixed := by
  unfold unpark
  (try dsimp only) <;> (repeat' split) <;> (try simp)

@[simp] theorem craneStop_fixed (s : State) : (craneStop s).fixed = s.fixed := by
  unfold craneStop
  (try dsimp only) <;> (repeat' split) <;> (try simp)

@[simp] theorem chooseAt_fixed (s : State) (order : Nat) : (chooseAt s order).2.fixed = s.fixed := by
  unfold chooseAt
  (try dsimp only) <;> (repeat' split) <;> (try simp)

@[simp] theorem stageFree_fixed (w : Work) (s : State) : (stageFree w s).fixed = s.fixed := by
  unfold stageFree
  (try dsimp only) <;> (repeat' split) <;> (try simp)

@[simp] theorem giveFree_fixed (w : Work) (s : State) : (giveFree w s).fixed = s.fixed := by
  unfold giveFree
  (try dsimp only) <;> (repeat' split) <;> (try simp)

@[simp] theorem selectAmong_fixed (orders : List Nat) (give : Work → State → State) (h : ∀ w s, (give w s).fixed = s.fixed)
    (s : State) : (selectAmong orders give s).fixed = s.fixed := by
  unfold selectAmong
  split
  · next o _ =>
    have hc := chooseAt_fixed s o
    split <;> simp_all
  · rfl

@[simp] theorem giveBack_fixed (m : Move) (s : State) : (giveBack m s).fixed = s.fixed := by
  unfold giveBack
  (try dsimp only) <;> (repeat' split) <;> (try simp)

@[simp] theorem displace_fixed (m : Move) (s : State) : (displace m s).fixed = s.fixed := by
  unfold displace
  (try dsimp only) <;> (repeat' split) <;> (try simp)

@[simp] theorem selectWork_fixed (s : State) : (selectWork s).fixed = s.fixed := by
  unfold selectWork
  (try dsimp only) <;> (repeat' split) <;> (try simp)

@[simp] theorem setLane_fixed (l : Lane) (v : PlaceState) (s : State) : (setLane l v s).fixed = s.fixed := by
  unfold setLane
  (try dsimp only) <;> (repeat' split) <;> (try simp)

@[simp] theorem setOut_fixed (l : Lane) (v : Option Handoff) (s : State) : (setOut l v s).fixed = s.fixed := by
  unfold setOut
  (try dsimp only) <;> (repeat' split) <;> (try simp)

@[simp] theorem setIncoming_fixed (l : Lane) (v : Option Handoff) (s : State) : (setIncoming l v s).fixed = s.fixed := by
  unfold setIncoming
  (try dsimp only) <;> (repeat' split) <;> (try simp)

@[simp] theorem clearRetry_fixed (l : Lane) (s : State) : (clearRetry l s).fixed = s.fixed := by
  unfold clearRetry
  (try dsimp only) <;> (repeat' split) <;> (try simp)

@[simp] theorem driveLane_fixed (l : Lane) (on : Bool) (s : State) : (driveLane l on s).fixed = s.fixed := by
  unfold driveLane
  (try dsimp only) <;> (repeat' split) <;> (try simp)

@[simp] theorem handoffLost_fixed (bin peer : Nat) (place : PlaceCode) (hop : Nat) (s : State) : (handoffLost bin peer place hop s).fixed = s.fixed := by
  unfold handoffLost
  (try dsimp only) <;> (repeat' split) <;> (try simp)

@[simp] theorem grantPortOut_fixed (s : State) : (grantPortOut s).fixed = s.fixed := by
  unfold grantPortOut
  (try dsimp only) <;> (repeat' split) <;> (try simp)

@[simp] theorem keepDown_fixed (s : State) : (keepDown s).fixed = s.fixed := by
  unfold keepDown
  (try dsimp only) <;> (repeat' split) <;> (try simp)

@[simp] theorem mergeArbiter_fixed (s : State) : (mergeArbiter s).fixed = s.fixed := by
  unfold mergeArbiter
  (try dsimp only) <;> (repeat' split) <;> (try simp)

@[simp] theorem noteFree_fixed (bin : Nat) (visit : Option Nat) (s : State) : (noteFree bin visit s).fixed = s.fixed := by
  unfold noteFree
  (try dsimp only) <;> (repeat' split) <;> (try simp)

@[simp] theorem handOver_fixed (bin : Nat) (visit : Option Nat) (s : State) : (handOver bin visit s).fixed = s.fixed := by
  unfold handOver
  (try dsimp only) <;> (repeat' split) <;> (try simp)

@[simp] theorem offerLane_fixed (l : Lane) (s : State) : (offerLane l s).fixed = s.fixed := by
  unfold offerLane
  (try dsimp only) <;> (repeat' split) <;> (try simp)

@[simp] theorem withdrawOffer_fixed (l : Lane) (s : State) : (withdrawOffer l s).fixed = s.fixed := by
  unfold withdrawOffer
  (try dsimp only) <;> (repeat' split) <;> (try simp)

@[simp] theorem offerOutcome_fixed (l : Lane) (peer : Nat) (heard : Bool) (s : State) : (offerOutcome l peer heard s).fixed = s.fixed := by
  unfold offerOutcome
  (try dsimp only) <;> (repeat' split) <;> (try simp)

@[simp] theorem acceptOffer_fixed (l : Lane) (sender : Nat) (r : TravelRecord) (s : State) : (acceptOffer l sender r s).fixed = s.fixed := by
  unfold acceptOffer
  (try dsimp only) <;> (repeat' split) <;> (try simp)

@[simp] theorem noRoom_fixed (l : Lane) (r : TravelRecord) (s : State) : (noRoom l r s).fixed = s.fixed := by
  unfold noRoom
  (try dsimp only) <;> (repeat' split) <;> (try simp)

@[simp] theorem mergeWins_fixed (s : State) : (mergeWins s).fixed = s.fixed := by
  unfold mergeWins
  (try dsimp only) <;> (repeat' split) <;> (try simp)

@[simp] theorem hearOffer_fixed (sender : Nat) (r : TravelRecord) (s : State) : (hearOffer sender r s).2.fixed = s.fixed := by
  unfold hearOffer
  (try dsimp only) <;> (repeat' split) <;> (try simp)

@[simp] theorem startDiversion_fixed (r : TravelRecord) (s : State) : (startDiversion r s).fixed = s.fixed := by
  unfold startDiversion
  (try dsimp only) <;> (repeat' split) <;> (try simp)

@[simp] theorem beginDiversion_fixed (r : TravelRecord) (s : State) : (beginDiversion r s).fixed = s.fixed := by
  unfold beginDiversion
  split <;> simp

@[simp] theorem blockUp_fixed (r : TravelRecord) (slot : SlotName) (s : State) : (blockUp r slot s).fixed = s.fixed := by
  unfold blockUp
  (try dsimp only) <;> (repeat' split) <;> (try simp)

@[simp] theorem divert_fixed (r : TravelRecord) (s : State) : (divert r s).fixed = s.fixed := by
  unfold divert
  (try dsimp only) <;> (repeat' split) <;> (try simp)

@[simp] theorem diversionCheck_fixed (s : State) : (diversionCheck s).fixed = s.fixed := by
  unfold diversionCheck
  (try dsimp only) <;> (repeat' split) <;> (try simp)

@[simp] theorem fireDiversion_fixed (s : State) : (fireDiversion s).fixed = s.fixed := by
  unfold fireDiversion
  (try dsimp only) <;> (repeat' split) <;> (try simp)

@[simp] theorem unannounced_fixed (place : SpinePlace) (s : State) : (unannounced place s).fixed = s.fixed := by
  unfold unannounced
  (try dsimp only) <;> (repeat' split) <;> (try simp)

@[simp] theorem mergeArrives_fixed (s : State) : (mergeArrives s).fixed = s.fixed := by
  unfold mergeArrives
  (try dsimp only) <;> (repeat' split) <;> (try simp)

@[simp] theorem laneArrives_fixed (l : Lane) (h : Handoff) (s : State) : (laneArrives l h s).fixed = s.fixed := by
  unfold laneArrives
  (try dsimp only) <;> (repeat' split) <;> (try simp)

@[simp] theorem diversionArrives_fixed (s : State) : (diversionArrives s).fixed = s.fixed := by
  unfold diversionArrives
  (try dsimp only) <;> (repeat' split) <;> (try simp)

@[simp] theorem laneEntry_fixed (l : Lane) (s : State) : (laneEntry l s).fixed = s.fixed := by
  unfold laneEntry
  (try dsimp only) <;> (repeat' split) <;> (try simp)

@[simp] theorem entryReport_fixed (place : SpinePlace) (s : State) : (entryReport place s).fixed = s.fixed := by
  unfold entryReport
  (try dsimp only) <;> (repeat' split) <;> (try simp)

@[simp] theorem positionReport_fixed (place : SpinePlace) (s : State) : (positionReport place s).fixed = s.fixed := by
  unfold positionReport
  (try dsimp only) <;> (repeat' split) <;> (try simp)

@[simp] theorem takenLane_fixed (l : Lane) (b : TakenBody) (s : State) : (takenLane l b s).fixed = s.fixed := by
  unfold takenLane
  (try dsimp only) <;> (repeat' split) <;> (try simp)

@[simp] theorem completeVisit_fixed (v : Visit) (s : State) : (completeVisit v s).fixed = s.fixed := by
  unfold completeVisit
  (try dsimp only) <;> (repeat' split) <;> (try simp)

@[simp] theorem deskTakes_fixed (b : TakenBody) (s : State) : (deskTakes b s).fixed = s.fixed := by
  unfold deskTakes
  (try dsimp only) <;> (repeat' split) <;> (try simp)

@[simp] theorem hearTaken_fixed (b : TakenBody) (s : State) : (hearTaken b s).fixed = s.fixed := by
  unfold hearTaken
  (try dsimp only) <;> (repeat' split) <;> (try simp)

@[simp] theorem loseHome_fixed (r : TravelRecord) (s : State) : (loseHome r s).fixed = s.fixed := by
  unfold loseHome
  (try dsimp only) <;> (repeat' split) <;> (try simp)

@[simp] theorem outExpires_fixed (l : Lane) (h : Handoff) (s : State) : (outExpires l h s).fixed = s.fixed := by
  unfold outExpires
  (try dsimp only) <;> (repeat' split) <;> (try simp)

@[simp] theorem diversionExpires_fixed (h : Handoff) (s : State) : (diversionExpires h s).fixed = s.fixed := by
  unfold diversionExpires
  (try dsimp only) <;> (repeat' split) <;> (try simp)

@[simp] theorem inExpires_fixed (l : Lane) (s : State) : (inExpires l s).fixed = s.fixed := by
  unfold inExpires
  (try dsimp only) <;> (repeat' split) <;> (try simp)

@[simp] theorem mergeExpires_fixed (h : Handoff) (s : State) : (mergeExpires h s).fixed = s.fixed := by
  unfold mergeExpires
  (try dsimp only) <;> (repeat' split) <;> (try simp)

@[simp] theorem mergeWaitExpires_fixed (s : State) : (mergeWaitExpires s).fixed = s.fixed := by
  unfold mergeWaitExpires
  (try dsimp only) <;> (repeat' split) <;> (try simp)

@[simp] theorem hearHandoffLost_fixed (sender : Nat) (b : FaultBody) (s : State) : (hearHandoffLost sender b s).fixed = s.fixed := by
  unfold hearHandoffLost
  (try dsimp only) <;> (repeat' split) <;> (try simp)

@[simp] theorem lowerCaught_fixed (sender bin : Nat) (s : State) : (lowerCaught sender bin s).fixed = s.fixed := by
  unfold lowerCaught
  (try dsimp only) <;> (repeat' split) <;> (try simp)

@[simp] theorem hearBinCaught_fixed (sender : Nat) (b : FaultBody) (s : State) : (hearBinCaught sender b s).fixed = s.fixed := by
  unfold hearBinCaught
  (try dsimp only) <;> (repeat' split) <;> (try simp)

@[simp] theorem dropKept_fixed (kept : Option TravelRecord) (s : State) : (dropKept kept s).fixed = s.fixed := by
  unfold dropKept
  (try dsimp only) <;> (repeat' split) <;> (try simp)

@[simp] theorem clearPlace_fixed (place : SpinePlace) (s : State) : (clearPlace place s).fixed = s.fixed := by
  unfold clearPlace
  (try dsimp only) <;> (repeat' split) <;> (try simp)

@[simp] theorem clearBlocked_fixed (s : State) : (clearBlocked s).fixed = s.fixed := by
  unfold clearBlocked
  (try dsimp only) <;> (repeat' split) <;> (try simp)

@[simp] theorem binCaught_fixed (r : TravelRecord) (place : PlaceCode) (s : State) : (binCaught r place s).fixed = s.fixed := by
  unfold binCaught
  (try dsimp only) <;> (repeat' split) <;> (try simp)

@[simp] theorem catchDown_fixed (s : State) : (catchDown s).fixed = s.fixed := by
  unfold catchDown
  (try dsimp only) <;> (repeat' split) <;> (try simp)

@[simp] theorem catchUp_fixed (s : State) : (catchUp s).fixed = s.fixed := by
  unfold catchUp
  (try dsimp only) <;> (repeat' split) <;> (try simp)

@[simp] theorem hearRoomCall_fixed (sender : Nat) (b : RoomCallBody) (s : State) : (hearRoomCall sender b s).fixed = s.fixed := by
  unfold hearRoomCall
  (try dsimp only) <;> (repeat' split) <;> (try simp)

@[simp] theorem beginEvaluation_fixed (s : State) : (beginEvaluation s).fixed = s.fixed := by
  unfold beginEvaluation
  (try dsimp only) <;> (repeat' split) <;> (try simp)

@[simp] theorem bidFor_fixed (c : CallEntry) (cost b : Nat) (s : State) : (bidFor c cost b s).fixed = s.fixed := by
  unfold bidFor
  (try dsimp only) <;> (repeat' split) <;> (try simp)

@[simp] theorem evaluationDone_fixed (s : State) : (evaluationDone s).fixed = s.fixed := by
  unfold evaluationDone
  (try dsimp only) <;> (repeat' split) <;> (try simp)

@[simp] theorem hearBid_fixed (b : BidBody) (s : State) : (hearBid b s).fixed = s.fixed := by
  unfold hearBid
  (try dsimp only) <;> (repeat' split) <;> (try simp)

@[simp] theorem beginClaim_fixed (e : CallEntry) (s : State) : (beginClaim e s).fixed = s.fixed := by
  unfold beginClaim
  (try dsimp only) <;> (repeat' split) <;> (try simp)

@[simp] theorem windowExpires_fixed (e : CallEntry) (s : State) : (windowExpires e s).fixed = s.fixed := by
  unfold windowExpires
  (try dsimp only) <;> (repeat' split) <;> (try simp)

@[simp] theorem hearClaim_fixed (b : ClaimBody) (s : State) : (hearClaim b s).fixed = s.fixed := by
  unfold hearClaim
  (try dsimp only) <;> (repeat' split) <;> (try simp)

@[simp] theorem claimOutcome_fixed (c : Call) (heard : Bool) (s : State) : (claimOutcome c heard s).fixed = s.fixed := by
  unfold claimOutcome
  (try dsimp only) <;> (repeat' split) <;> (try simp)

@[simp] theorem callSent_fixed (c : Call) (st : CallState) (s : State) : (callSent c st s).fixed = s.fixed := by
  unfold callSent
  (try dsimp only) <;> (repeat' split) <;> (try simp)

@[simp] theorem retestRoute_fixed (s : State) : (retestRoute s).fixed = s.fixed := by
  unfold retestRoute
  (try dsimp only) <;> (repeat' split) <;> (try simp)

@[simp] theorem leaveWorking_fixed (old : Mode) (s : State) : (leaveWorking old s).fixed = s.fixed := by
  unfold leaveWorking
  (try dsimp only) <;> (repeat' split) <;> (try simp)

@[simp] theorem enterFire_fixed (old : Mode) (s : State) : (enterFire old s).fixed = s.fixed := by
  unfold enterFire
  (try dsimp only) <;> (repeat' split) <;> (try simp)

@[simp] theorem deriveMode_fixed (s : State) : (deriveMode s).fixed = s.fixed := by
  unfold deriveMode
  (try dsimp only) <;> (repeat' split) <;> (try simp)

@[simp] theorem fireFrame_fixed (item : Item) (o : Owner) (s : State) : (fireFrame item o s).fixed = s.fixed := by
  unfold fireFrame
  (try dsimp only) <;> (repeat' split) <;> (try simp)

@[simp] theorem setShutter_fixed (x : Shutter) (s : State) : (setShutter x s).fixed = s.fixed := by
  unfold setShutter
  (try dsimp only) <;> (repeat' split) <;> (try simp)

@[simp] theorem startClearing_fixed (x : Shutter) (s : State) : (startClearing x s).fixed = s.fixed := by
  unfold startClearing
  (try dsimp only) <;> (repeat' split) <;> (try simp)

@[simp] theorem shutterProcedure_fixed (s : State) : (shutterProcedure s).fixed = s.fixed := by
  unfold shutterProcedure
  (try dsimp only) <;> (repeat' split) <;> (try simp)

@[simp] theorem startClosing_fixed (x : Shutter) (s : State) : (startClosing x s).fixed = s.fixed := by
  unfold startClosing
  (try dsimp only) <;> (repeat' split) <;> (try simp)

@[simp] theorem disownClosing_fixed (s : State) : (disownClosing s).fixed = s.fixed := by
  unfold disownClosing
  (try dsimp only) <;> (repeat' split) <;> (try simp)

@[simp] theorem dropClosing_fixed (s : State) : (dropClosing s).fixed = s.fixed := by
  unfold dropClosing
  (try dsimp only) <;> (repeat' split) <;> (try simp)

@[simp] theorem clearCheck_fixed (s : State) : (clearCheck s).fixed = s.fixed := by
  unfold clearCheck
  (try dsimp only) <;> (repeat' split) <;> (try simp)

@[simp] theorem closingOutcome_fixed (heard : Bool) (s : State) : (closingOutcome heard s).fixed = s.fixed := by
  unfold closingOutcome
  (try dsimp only) <;> (repeat' split) <;> (try simp)

@[simp] theorem forceClose_fixed (x : Shutter) (s : State) : (forceClose x s).fixed = s.fixed := by
  unfold forceClose
  (try dsimp only) <;> (repeat' split) <;> (try simp)

@[simp] theorem closeLimitExpires_fixed (s : State) : (closeLimitExpires s).fixed = s.fixed := by
  unfold closeLimitExpires
  (try dsimp only) <;> (repeat' split) <;> (try simp)

@[simp] theorem shutterClosed_fixed (s : State) : (shutterClosed s).fixed = s.fixed := by
  unfold shutterClosed
  (try dsimp only) <;> (repeat' split) <;> (try simp)

@[simp] theorem becomeOpen_fixed (x : Shutter) (s : State) : (becomeOpen x s).fixed = s.fixed := by
  unfold becomeOpen
  (try dsimp only) <;> (repeat' split) <;> (try simp)

@[simp] theorem shutterOpened_fixed (s : State) : (shutterOpened s).fixed = s.fixed := by
  unfold shutterOpened
  (try dsimp only) <;> (repeat' split) <;> (try simp)

@[simp] theorem shutterFault_fixed (d : ShutterDir) (x : Shutter) (s : State) : (shutterFault d x s).fixed = s.fixed := by
  unfold shutterFault
  (try dsimp only) <;> (repeat' split) <;> (try simp)

@[simp] theorem driveLimitExpires_fixed (s : State) : (driveLimitExpires s).fixed = s.fixed := by
  unfold driveLimitExpires
  (try dsimp only) <;> (repeat' split) <;> (try simp)

@[simp] theorem reopen_fixed (s : State) : (reopen s).fixed = s.fixed := by
  unfold reopen
  (try dsimp only) <;> (repeat' split) <;> (try simp)

@[simp] theorem endFoundShut_fixed (c : Compartment) (s : State) : (endFoundShut c s).fixed = s.fixed := by
  unfold endFoundShut
  (try dsimp only) <;> (repeat' split) <;> (try simp)

@[simp] theorem safeCheck_fixed (s : State) : (safeCheck s).fixed = s.fixed := by
  unfold safeCheck
  (try dsimp only) <;> (repeat' split) <;> (try simp)

@[simp] theorem setAlarm_fixed (c : Compartment) (r : AlarmRec) (s : State) : (setAlarm c r s).fixed = s.fixed := by
  unfold setAlarm
  (try dsimp only) <;> (repeat' split) <;> (try simp)

@[simp] theorem alarmRaised_fixed (c : Compartment) (s : State) : (alarmRaised c s).fixed = s.fixed := by
  unfold alarmRaised
  (try dsimp only) <;> (repeat' split) <;> (try simp)

@[simp] theorem queueAlarm_fixed (c : Compartment) (epoch : Nat) (i : FireInput) (s : State) : (queueAlarm c epoch i s).fixed = s.fixed := by
  unfold queueAlarm
  (try dsimp only) <;> (repeat' split) <;> (try simp)

@[simp] theorem localCause_fixed (i : FireInput) (s : State) : (localCause i s).fixed = s.fixed := by
  unfold localCause
  (try dsimp only) <;> (repeat' split) <;> (try simp)

@[simp] theorem hearAlarm_fixed (b : AlarmBody) (s : State) : (hearAlarm b s).fixed = s.fixed := by
  unfold hearAlarm
  (try dsimp only) <;> (repeat' split) <;> (try simp)

@[simp] theorem setFilter_fixed (i : FireInput) (x : InputFilter) (s : State) : (setFilter i x s).fixed = s.fixed := by
  unfold setFilter
  (try dsimp only) <;> (repeat' split) <;> (try simp)

@[simp] theorem reraise_fixed (s : State) : (reraise s).fixed = s.fixed := by
  unfold reraise
  (try dsimp only) <;> (repeat' split) <;> (try simp)

@[simp] theorem spineResumes_fixed (s : State) : (spineResumes s).fixed = s.fixed := by simp [spineResumes]

@[simp] theorem restoreEffects_fixed (c : Compartment) (s : State) : (restoreEffects c s).fixed = s.fixed := by
  unfold restoreEffects
  (try dsimp only) <;> (repeat' split) <;> (try simp)

@[simp] theorem hearRestore_fixed (b : RestoreBody) (s : State) : (hearRestore b s).2.fixed = s.fixed := by
  unfold hearRestore
  (try dsimp only) <;> (repeat' split) <;> (try simp)

@[simp] theorem inputReadsActive_fixed (i : FireInput) (s : State) : (inputReadsActive i s).fixed = s.fixed := by
  unfold inputReadsActive
  (try dsimp only) <;> (repeat' split) <;> (try simp)

@[simp] theorem inputReadsInactive_fixed (i : FireInput) (s : State) : (inputReadsInactive i s).fixed = s.fixed := by
  unfold inputReadsInactive
  (try dsimp only) <;> (repeat' split) <;> (try simp)

@[simp] theorem filterExpires_fixed (i : FireInput) (s : State) : (filterExpires i s).fixed = s.fixed := by
  unfold filterExpires
  (try dsimp only) <;> (repeat' split) <;> (try simp)

@[simp] theorem applyHeld_fixed (s : State) : (applyHeld s).fixed = s.fixed := by
  unfold applyHeld
  (try dsimp only) <;> (repeat' split) <;> (try simp)

@[simp] theorem settle_fixed (s : State) : (settle s).fixed = s.fixed := by
  unfold settle
  (try dsimp only) <;> (repeat' split) <;> (try simp)

/-- An event keeps the fixed part, the pins being read. -/
theorem live_fixed (p : Pins) (f : State → State) (h : ∀ s, (f s).fixed = s.fixed) (s : State) :
    (live p f s).fixed = (s.setPins p).fixed := by
  unfold live
  dsimp only
  split <;> simp [h]

@[simp] theorem expiry_fixed (t : State → Option Timer) (f : State → State) (h : ∀ s, (f s).fixed = s.fixed) (s : State) :
    (expiry t f s).fixed = s.fixed := by
  unfold expiry
  split <;> simp [h]

@[simp] theorem stockRefused_fixed (r : StockReason) (slot : SlotName) (bin : Nat) (s : State) : (stockRefused r slot bin s).fixed = s.fixed := by
  unfold stockRefused
  (try dsimp only) <;> (repeat' split) <;> (try simp)

@[simp] theorem gateNotice_fixed (a : Answers) (i : Item) (s : State) : (gateNotice a i s).2.fixed = s.fixed := by
  unfold gateNotice
  (try dsimp only) <;> (repeat' split) <;> (try simp)

@[simp] theorem lendJoins_fixed (b : LendBody) (w : Visit) (s : State) : (lendJoins b w s).fixed = s.fixed := by
  unfold lendJoins
  (try dsimp only) <;> (repeat' split) <;> (try simp)

@[simp] theorem lendMakes_fixed (b : LendBody) (s : State) : (lendMakes b s).fixed = s.fixed := by
  unfold lendMakes
  (try dsimp only) <;> (repeat' split) <;> (try simp)

@[simp] theorem hearLend_fixed (b : LendBody) (s : State) : (hearLend b s).2.fixed = s.fixed := by
  unfold hearLend
  (try dsimp only) <;> (repeat' split) <;> (try simp)

@[simp] theorem withdrawStaged_fixed (n : Nat) (s : State) : (withdrawStaged n s).fixed = s.fixed := by
  unfold withdrawStaged
  (try dsimp only) <;> (repeat' split) <;> (try simp)

@[simp] theorem cancelListed_fixed (id : Nat) (v : Visit) (s : State) : (cancelListed id v s).fixed = s.fixed := by
  unfold cancelListed
  (try dsimp only) <;> (repeat' split) <;> (try simp)

@[simp] theorem cancelMarks_fixed (id : Nat) (s : State) : (cancelMarks id s).fixed = s.fixed := by
  unfold cancelMarks
  (try dsimp only) <;> (repeat' split) <;> (try simp)

@[simp] theorem hearCancel_fixed (id : Nat) (s : State) : (hearCancel id s).2.fixed = s.fixed := by
  unfold hearCancel
  (try dsimp only) <;> (repeat' split) <;> (try simp)

@[simp] theorem hearStockAt_fixed (n : SlotName) (s : State) : (hearStockAt n s).2.fixed = s.fixed := by
  unfold hearStockAt
  (try dsimp only) <;> (repeat' split) <;> (try simp)

@[simp] theorem binRemoved_fixed (bin : Nat) (why : FailReason) (s : State) : (binRemoved bin why s).fixed = s.fixed := by
  unfold binRemoved
  (try dsimp only) <;> (repeat' split) <;> (try simp)

@[simp] theorem stockApplied_fixed (sl : Slot) (b : StockBody) (s : State) : (stockApplied sl b s).fixed = s.fixed := by
  unfold stockApplied
  (try dsimp only) <;> (repeat' split) <;> (try simp)

@[simp] theorem hearStock_fixed (b : StockBody) (s : State) : (hearStock b s).2.fixed = s.fixed := by
  unfold hearStock
  (try dsimp only) <;> (repeat' split) <;> (try simp)

@[simp] theorem hearStockEnd_fixed (s : State) : (hearStockEnd s).fixed = s.fixed := by
  unfold hearStockEnd
  (try dsimp only) <;> (repeat' split) <;> (try simp)

@[simp] theorem hearWriteOff_fixed (bin : Nat) (s : State) : (hearWriteOff bin s).2.fixed = s.fixed := by
  unfold hearWriteOff
  (try dsimp only) <;> (repeat' split) <;> (try simp)

@[simp] theorem hearStop_fixed (s : State) : (hearStop s).fixed = s.fixed := by
  unfold hearStop
  (try dsimp only) <;> (repeat' split) <;> (try simp)

@[simp] theorem leaveHalt_fixed (s : State) : (leaveHalt s).fixed = s.fixed := by
  unfold leaveHalt
  (try dsimp only) <;> (repeat' split) <;> (try simp)

@[simp] theorem resumeSteps_fixed (s : State) : (resumeSteps s).fixed = s.fixed := by
  unfold resumeSteps
  (try dsimp only) <;> (repeat' split) <;> (try simp)

@[simp] theorem hearResume_fixed (s : State) : (hearResume s).fixed = s.fixed := by
  unfold hearResume
  (try dsimp only) <;> (repeat' split) <;> (try simp)

@[simp] theorem hearQuery_fixed (s : State) : (hearQuery s).fixed = s.fixed := by
  unfold hearQuery
  (try dsimp only) <;> (repeat' split) <;> (try simp)

@[simp] theorem hearFault_fixed (sender : Nat) (b : FaultBody) (s : State) : (hearFault sender b s).fixed = s.fixed := by
  unfold hearFault
  (try dsimp only) <;> (repeat' split) <;> (try simp)

@[simp] theorem applyItem_fixed (h : Header) (i : Item) (s : State) : (applyItem h i s).2.fixed = s.fixed := by
  unfold applyItem
  (try dsimp only) <;> (repeat' split) <;> (try simp)

@[simp] theorem takeItem_fixed (h : Header) (i : Item) (a : Answers) (s : State) : (takeItem h i a s).2.fixed = s.fixed := by
  unfold takeItem
  (try dsimp only) <;> (repeat' split) <;> (try simp)

@[simp] theorem afterItem_fixed (s : State) : (afterItem s).fixed = s.fixed := by
  unfold afterItem
  (try dsimp only) <;> (repeat' split) <;> (try simp)

@[simp] theorem passedSince_fixed (b s : State) : (passedSince b s).fixed = s.fixed := by
  unfold passedSince
  split <;> rfl

@[simp] theorem takeItems_fixed (h : Header) (items : List Item) (a : Answers) (s : State) :
    (takeItems h items a s).2.fixed = s.fixed := by
  induction items generalizing a s with
  | nil => rfl
  | cons i rest ih => simp [takeItems, ih]

@[simp] theorem takeClaims_fixed (items : List Item) (s : State) : (takeClaims items s).fixed = s.fixed := by
  unfold takeClaims
  refine foldl_fixed _ (fun s i => ?_) items s
  split
  · split <;> simp
  · rfl

@[simp] theorem enterNeighbour_fixed (h : Header) (s : State) : (enterNeighbour h s).fixed = s.fixed := by
  unfold enterNeighbour
  (try dsimp only) <;> (repeat' split) <;> (try simp)

@[simp] theorem setSlots_fixed (x : Bool × Bool) (s : State) : (setSlots x s).fixed = s.fixed := by
  unfold setSlots
  (try dsimp only) <;> (repeat' split) <;> (try simp)

@[simp] theorem frameHeard_fixed (h : Header) (items : List Item) (s : State) : (frameHeard h items s).fixed = s.fixed := by
  unfold frameHeard
  (try dsimp only) <;> (repeat' split) <;> (try simp)

theorem hear_fixed (p : Pins) (h : Header) (items : List Item) (s : State) :
    (hear p h items s).fixed = (s.setPins p).fixed := by
  unfold hear
  dsimp only
  split <;> simp

@[simp] theorem startCrane_fixed (s : State) : (startCrane s).fixed = s.fixed := by
  unfold startCrane
  (try dsimp only) <;> (repeat' split) <;> (try simp)

@[simp] theorem enterStocking_fixed (s : State) : (enterStocking s).fixed = s.fixed := by
  unfold enterStocking
  (try dsimp only) <;> (repeat' split) <;> (try simp)

@[simp] theorem reportSent_fixed (o : Owner) (s : State) : (reportSent o s).fixed = s.fixed := by
  unfold reportSent
  (try dsimp only) <;> (repeat' split) <;> (try simp)

@[simp] theorem frameWins_fixed (f : TxFrame) (q : List TxFrame) (s : State) : (frameWins f q s).fixed = s.fixed := by
  unfold frameWins
  (try dsimp only) <;> (repeat' split) <;> (try simp)

@[simp] theorem contend_fixed (rivals : List (Nat × Nat)) (s : State) : (contend rivals s).fixed = s.fixed := by
  unfold contend
  (try dsimp only) <;> (repeat' split) <;> (try simp)

@[simp] theorem reportOutcome_fixed (f : TxFrame) (o : TxOutcome) (s : State) : (reportOutcome f o s).fixed = s.fixed := by
  unfold reportOutcome
  (try dsimp only) <;> (repeat' split) <;> (try simp)

@[simp] theorem frameEnds_fixed (o : TxOutcome) (s : State) : (frameEnds o s).fixed = s.fixed := by
  unfold frameEnds
  (try dsimp only) <;> (repeat' split) <;> (try simp)

@[simp] theorem parkCompletes_fixed (s : State) : (parkCompletes s).fixed = s.fixed := by
  unfold parkCompletes
  (try dsimp only) <;> (repeat' split) <;> (try simp)

@[simp] theorem storeAgain_fixed (new : Slot) (s : State) : (storeAgain new s).fixed = s.fixed := by
  unfold storeAgain
  (try dsimp only) <;> (repeat' split) <;> (try simp)

@[simp] theorem slotConflictFault_fixed (bin : Nat) (old new : Slot) (s : State) : (slotConflictFault bin old new s).fixed = s.fixed := by
  unfold slotConflictFault
  (try dsimp only) <;> (repeat' split) <;> (try simp)

@[simp] theorem slotConflict_fixed (bin : Nat) (old : Slot) (s : State) : (slotConflict bin old s).fixed = s.fixed := by
  unfold slotConflict
  (try dsimp only) <;> (repeat' split) <;> (try simp)

@[simp] theorem storeInPosition_fixed (m : Move) (s : State) : (storeInPosition m s).fixed = s.fixed := by
  unfold storeInPosition
  (try dsimp only) <;> (repeat' split) <;> (try simp)

@[simp] theorem inPosition_fixed (s : State) : (inPosition s).fixed = s.fixed := by
  unfold inPosition
  (try dsimp only) <;> (repeat' split) <;> (try simp)

@[simp] theorem tagUnread_fixed (m : Move) (s : State) : (tagUnread m s).fixed = s.fixed := by
  unfold tagUnread
  (try dsimp only) <;> (repeat' split) <;> (try simp)

@[simp] theorem discardBound_fixed (s : State) : (discardBound s).fixed = s.fixed := by
  unfold discardBound
  (try dsimp only) <;> (repeat' split) <;> (try simp)

@[simp] theorem tagMismatch_fixed (m : Move) (x : Nat) (s : State) : (tagMismatch m x s).fixed = s.fixed := by
  unfold tagMismatch
  (try dsimp only) <;> (repeat' split) <;> (try simp)

@[simp] theorem forkTagRead_fixed (r : TagRead) (s : State) : (forkTagRead r s).fixed = s.fixed := by
  unfold forkTagRead
  (try dsimp only) <;> (repeat' split) <;> (try simp)

@[simp] theorem takeOutRefused_fixed (m : Move) (s : State) : (takeOutRefused m s).fixed = s.fixed := by
  unfold takeOutRefused
  (try dsimp only) <;> (repeat' split) <;> (try simp)

@[simp] theorem fetchDone_fixed (m : Move) (s : State) : (fetchDone m s).fixed = s.fixed := by
  unfold fetchDone
  (try dsimp only) <;> (repeat' split) <;> (try simp)

@[simp] theorem deliverDone_fixed (s : State) : (deliverDone s).fixed = s.fixed := by
  unfold deliverDone
  (try dsimp only) <;> (repeat' split) <;> (try simp)

@[simp] theorem takeInDone_fixed (s : State) : (takeInDone s).fixed = s.fixed := by
  unfold takeInDone
  (try dsimp only) <;> (repeat' split) <;> (try simp)

@[simp] theorem storeDone_fixed (s : State) : (storeDone s).fixed = s.fixed := by
  unfold storeDone
  (try dsimp only) <;> (repeat' split) <;> (try simp)

@[simp] theorem forkDone_fixed (s : State) : (forkDone s).fixed = s.fixed := by
  unfold forkDone
  (try dsimp only) <;> (repeat' split) <;> (try simp)

@[simp] theorem fireStopped_fixed (s : State) : (fireStopped s).fixed = s.fixed := by
  unfold fireStopped
  (try dsimp only) <;> (repeat' split) <;> (try simp)

@[simp] theorem stopStopped_fixed (s : State) : (stopStopped s).fixed = s.fixed := by
  unfold stopStopped
  (try dsimp only) <;> (repeat' split) <;> (try simp)

@[simp] theorem craneStopped_fixed (s : State) : (craneStopped s).fixed = s.fixed := by
  unfold craneStopped
  (try dsimp only) <;> (repeat' split) <;> (try simp)

@[simp] theorem budgetExpires_fixed (s : State) : (budgetExpires s).fixed = s.fixed := by
  unfold budgetExpires
  (try dsimp only) <;> (repeat' split) <;> (try simp)

@[simp] theorem storeBack_fixed (s : State) : (storeBack s).fixed = s.fixed := by
  unfold storeBack
  (try dsimp only) <;> (repeat' split) <;> (try simp)

@[simp] theorem portTagFails_fixed (r : TravelRecord) (id : Nat) (s : State) : (portTagFails r id s).fixed = s.fixed := by
  unfold portTagFails
  (try dsimp only) <;> (repeat' split) <;> (try simp)

@[simp] theorem portInTagRead_fixed (id : Option Nat) (s : State) : (portInTagRead id s).fixed = s.fixed := by
  unfold portInTagRead
  (try dsimp only) <;> (repeat' split) <;> (try simp)

@[simp] theorem transferOutExpires_fixed (l : Lane) (s : State) : (transferOutExpires l s).fixed = s.fixed := by
  unfold transferOutExpires
  (try dsimp only) <;> (repeat' split) <;> (try simp)

@[simp] theorem diversionTransferExpires_fixed (s : State) : (diversionTransferExpires s).fixed = s.fixed := by
  unfold diversionTransferExpires
  (try dsimp only) <;> (repeat' split) <;> (try simp)

@[simp] theorem mergeTransferExpires_fixed (s : State) : (mergeTransferExpires s).fixed = s.fixed := by
  unfold mergeTransferExpires
  (try dsimp only) <;> (repeat' split) <;> (try simp)

@[simp] theorem callWindowExpires_fixed (c : Call) (s : State) : (callWindowExpires c s).fixed = s.fixed := by
  unfold callWindowExpires
  (try dsimp only) <;> (repeat' split) <;> (try simp)

@[simp] theorem sweepBin_fixed (b : Nat) (s : State) : (sweepBin b s).fixed = s.fixed := by
  unfold sweepBin
  (try dsimp only) <;> (repeat' split) <;> (try simp)

@[simp] theorem overdueSweep_fixed (s : State) : (overdueSweep s).fixed = s.fixed := by
  unfold overdueSweep
  (try dsimp only) <;> (repeat' split) <;> (try simp)

theorem filterEvent_fixed (p : Pins) (f : State → State) (h : ∀ s, (f s).fixed = s.fixed) (s : State) :
    (filterEvent p f s).fixed = (s.setPins p).fixed := by
  unfold filterEvent
  dsimp only
  (repeat' split) <;> simp [h]

@[simp] theorem closingRetryExpires_fixed (s : State) : (closingRetryExpires s).fixed = s.fixed := by
  unfold closingRetryExpires
  (try dsimp only) <;> (repeat' split) <;> (try simp)

end Sys2Proof.Machine
end

