-- ==== Sys2Proof/Laws/KeepsControl.lean ====
section
/-! SUPPORT. The operations that leave the stock end and the stop as they are, one lemma for each. -/

namespace Sys2Proof.Machine
open Sys2Proof

/-! ## The stock end (R23) -/

@[simp] theorem foldl_stockEnded {α : Type} (f : State → α → State) (h : ∀ s a, (f s a).stockEnded = s.stockEnded) (l : List α) (s : State) :
    (l.foldl f s).stockEnded = s.stockEnded := by
  induction l generalizing s with
  | nil => rfl
  | cons a l ih => simp [ih, h]

@[simp] theorem noteHeld_stockEnded (h : Bool) (s : State) : (noteHeld h s).stockEnded = s.stockEnded := by
  unfold noteHeld
  (try dsimp only) <;> (repeat' split) <;> (try simp)

@[simp] theorem handBack_stockEnded (n : Nat) (s : State) : (handBack n s).stockEnded = s.stockEnded := by
  unfold handBack
  (try dsimp only) <;> (repeat' split) <;> (try simp)

@[simp] theorem handBackLink_stockEnded (link : Option Nat) (s : State) : (handBackLink link s).stockEnded = s.stockEnded := by
  unfold handBackLink
  (try dsimp only) <;> (repeat' split) <;> (try simp)

@[simp] theorem releaseBin_stockEnded (bin : Nat) (s : State) : (releaseBin bin s).stockEnded = s.stockEnded := by
  unfold releaseBin
  (try dsimp only) <;> (repeat' split) <;> (try simp)

@[simp] theorem withholdBin_stockEnded (bin : Nat) (s : State) : (withholdBin bin s).stockEnded = s.stockEnded := by
  unfold withholdBin
  (try dsimp only) <;> (repeat' split) <;> (try simp)

@[simp] theorem reportRoute_stockEnded (isOpen : Bool) (s : State) : (reportRoute isOpen s).stockEnded = s.stockEnded := by
  unfold reportRoute
  (try dsimp only) <;> (repeat' split) <;> (try simp)

@[simp] theorem visitTo_stockEnded (link : Option Nat) (st : VisitState) (s : State) : (visitTo link st s).stockEnded = s.stockEnded := by
  unfold visitTo
  (try dsimp only) <;> (repeat' split) <;> (try simp)

@[simp] theorem reserveEntry_stockEnded (bin : Nat) (desk : Desk) (s : State) : (reserveEntry bin desk s).stockEnded = s.stockEnded := by
  unfold reserveEntry
  (try dsimp only) <;> (repeat' split) <;> (try simp)

@[simp] theorem dropReservation_stockEnded (bin : Nat) (desk : Desk) (s : State) : (dropReservation bin desk s).stockEnded = s.stockEnded := by
  unfold dropReservation
  (try dsimp only) <;> (repeat' split) <;> (try simp)

@[simp] theorem takeRoomPart_stockEnded (bin : Nat) (part : RoomPart) (s : State) : (takeRoomPart bin part s).stockEnded = s.stockEnded := by
  unfold takeRoomPart
  (try dsimp only) <;> (repeat' split) <;> (try simp)

@[simp] theorem clearStow_stockEnded (s : State) : (clearStow s).stockEnded = s.stockEnded := by
  unfold clearStow
  (try dsimp only) <;> (repeat' split) <;> (try simp)

@[simp] theorem clearPassed_stockEnded (s : State) : (clearPassed s).stockEnded = s.stockEnded := by
  unfold clearPassed
  (try dsimp only) <;> (repeat' split) <;> (try simp)

@[simp] theorem setStow_stockEnded (st : StowState) (s : State) : (setStow st s).stockEnded = s.stockEnded := by
  unfold setStow
  (try dsimp only) <;> (repeat' split) <;> (try simp)

@[simp] theorem promoteStow_stockEnded (s : State) : (promoteStow s).stockEnded = s.stockEnded := by
  unfold promoteStow
  (try dsimp only) <;> (repeat' split) <;> (try simp)

@[simp] theorem releaseEntry_stockEnded (e : CallEntry) (s : State) : (releaseEntry e s).stockEnded = s.stockEnded := by
  unfold releaseEntry
  (try dsimp only) <;> (repeat' split) <;> (try simp)

@[simp] theorem unreserveEntry_stockEnded (e : CallEntry) (s : State) : (unreserveEntry e s).stockEnded = s.stockEnded := by
  unfold unreserveEntry
  (try dsimp only) <;> (repeat' split) <;> (try simp)

@[simp] theorem bidRefused_stockEnded (c : Call) (s : State) : (bidRefused c s).stockEnded = s.stockEnded := by
  unfold bidRefused
  (try dsimp only) <;> (repeat' split) <;> (try simp)

@[simp] theorem claimLost_stockEnded (c : Call) (s : State) : (claimLost c s).stockEnded = s.stockEnded := by
  unfold claimLost
  (try dsimp only) <;> (repeat' split) <;> (try simp)

@[simp] theorem startRetry_stockEnded (l : Lane) (s : State) : (startRetry l s).stockEnded = s.stockEnded := by
  unfold startRetry
  (try dsimp only) <;> (repeat' split) <;> (try simp)

@[simp] theorem startClosingRetry_stockEnded (s : State) : (startClosingRetry s).stockEnded = s.stockEnded := by
  unfold startClosingRetry
  (try dsimp only) <;> (repeat' split) <;> (try simp)

@[simp] theorem frameRefused_stockEnded (o : Owner) (s : State) : (frameRefused o s).stockEnded = s.stockEnded := by
  unfold frameRefused
  (try dsimp only) <;> (repeat' split) <;> (try simp)

@[simp] theorem queueFrame_stockEnded (f : TxFrame) (s : State) : (queueFrame f s).stockEnded = s.stockEnded := by
  unfold queueFrame
  (try dsimp only) <;> (repeat' split) <;> (try simp)

@[simp] theorem notice_stockEnded (items : List Item) (s : State) : (notice items s).stockEnded = s.stockEnded := by
  unfold notice
  (try dsimp only) <;> (repeat' split) <;> (try simp)

@[simp] theorem faultNotice_stockEnded (b : FaultBody) (s : State) : (faultNotice b s).stockEnded = s.stockEnded := by
  unfold faultNotice
  (try dsimp only) <;> (repeat' split) <;> (try simp)

@[simp] theorem withdraw_stockEnded (p : Owner → Bool) (s : State) : (withdraw p s).stockEnded = s.stockEnded := by
  unfold withdraw
  (try dsimp only) <;> (repeat' split) <;> (try simp)

@[simp] theorem requestFailed_stockEnded (reason : FailReason) (kind : AnsweredKind) (bin : Nat) (desk : Option Desk) (requests : List (Nat × Nat)) (s : State) : (requestFailed reason kind bin desk requests s).stockEnded = s.stockEnded := by
  unfold requestFailed
  (try dsimp only) <;> (repeat' split) <;> (try simp)

@[simp] theorem requestDone_stockEnded (bin : Nat) (desk : Desk) (requests : List (Nat × Nat)) (s : State) : (requestDone bin desk requests s).stockEnded = s.stockEnded := by
  unfold requestDone
  (try dsimp only) <;> (repeat' split) <;> (try simp)

@[simp] theorem failVisit_stockEnded (n : Nat) (reason : FailReason) (release : Bool) (s : State) : (failVisit n reason release s).stockEnded = s.stockEnded := by
  unfold failVisit
  (try dsimp only) <;> (repeat' split) <;> (try simp)

@[simp] theorem failVisits_stockEnded (bin : Nat) (reason : FailReason) (s : State) : (failVisits bin reason s).stockEnded = s.stockEnded := by
  unfold failVisits
  (try dsimp only) <;> (repeat' split) <;> (try simp)

@[simp] theorem closeCall_stockEnded (c : Call) (s : State) : (closeCall c s).stockEnded = s.stockEnded := by
  unfold closeCall
  (try dsimp only) <;> (repeat' split) <;> (try simp)

@[simp] theorem closeCalls_stockEnded (p : CallState → Bool) (s : State) : (closeCalls p s).stockEnded = s.stockEnded := by
  unfold closeCalls
  (try dsimp only) <;> (repeat' split) <;> (try simp)

@[simp] theorem closeCallsOfBin_stockEnded (bin : Nat) (s : State) : (closeCallsOfBin bin s).stockEnded = s.stockEnded := by
  unfold closeCallsOfBin
  (try dsimp only) <;> (repeat' split) <;> (try simp)

@[simp] theorem craneTo_stockEnded (st : CraneState) (s : State) : (craneTo st s).stockEnded = s.stockEnded := by
  unfold craneTo
  (try dsimp only) <;> (repeat' split) <;> (try simp)

@[simp] theorem readEncoders_stockEnded (s : State) : (readEncoders s).stockEnded = s.stockEnded := by
  unfold readEncoders
  (try dsimp only) <;> (repeat' split) <;> (try simp)

@[simp] theorem clearCurrent_stockEnded (s : State) : (clearCurrent s).stockEnded = s.stockEnded := by
  unfold clearCurrent
  (try dsimp only) <;> (repeat' split) <;> (try simp)

@[simp] theorem askLeg_stockEnded (a b : Pos) (fork : Bool) (s : State) : (askLeg a b fork s).2.stockEnded = s.stockEnded := by
  unfold askLeg
  (try dsimp only) <;> (repeat' split) <;> (try simp)

@[simp] theorem askEstimate_stockEnded (target : Target) (fork : Bool) (s : State) : (askEstimate target fork s).2.stockEnded = s.stockEnded := by
  unfold askEstimate
  (try dsimp only) <;> (repeat' split) <;> (try simp)

@[simp] theorem locateBin_stockEnded (b : Nat) (loc : Location) (s : State) : (locateBin b loc s).stockEnded = s.stockEnded := by
  unfold locateBin
  (try dsimp only) <;> (repeat' split) <;> (try simp)

@[simp] theorem setPortOut_stockEnded (x : PlaceState) (s : State) : (setPortOut x s).stockEnded = s.stockEnded := by
  unfold setPortOut
  (try dsimp only) <;> (repeat' split) <;> (try simp)

@[simp] theorem setPortIn_stockEnded (x : PlaceState) (s : State) : (setPortIn x s).stockEnded = s.stockEnded := by
  unfold setPortIn
  (try dsimp only) <;> (repeat' split) <;> (try simp)

@[simp] theorem stampStart_stockEnded (s : State) : (stampStart s).stockEnded = s.stockEnded := by
  unfold stampStart
  (try dsimp only) <;> (repeat' split) <;> (try simp)

@[simp] theorem reportStart_stockEnded (m : Move) (s : State) : (reportStart m s).stockEnded = s.stockEnded := by
  unfold reportStart
  (try dsimp only) <;> (repeat' split) <;> (try simp)

@[simp] theorem startMove_stockEnded (m : Move) (s : State) : (startMove m s).stockEnded = s.stockEnded := by
  unfold startMove
  (try dsimp only) <;> (repeat' split) <;> (try simp)

@[simp] theorem holdDeliver_stockEnded (m : Move) (s : State) : (holdDeliver m s).stockEnded = s.stockEnded := by
  unfold holdDeliver
  (try dsimp only) <;> (repeat' split) <;> (try simp)

@[simp] theorem stageContinuation_stockEnded (m : Move) (s : State) : (stageContinuation m s).stockEnded = s.stockEnded := by
  unfold stageContinuation
  (try dsimp only) <;> (repeat' split) <;> (try simp)

@[simp] theorem makeCurrent_stockEnded (kind : MoveKind) (target : Target) (visit : Option Nat) (bound : Bool) (s : State) : (makeCurrent kind target visit bound s).stockEnded = s.stockEnded := by
  unfold makeCurrent
  (try dsimp only) <;> (repeat' split) <;> (try simp)

@[simp] theorem discardStaged_stockEnded (s : State) : (discardStaged s).stockEnded = s.stockEnded := by
  unfold discardStaged
  (try dsimp only) <;> (repeat' split) <;> (try simp)

@[simp] theorem storeBlocked_stockEnded (bin : Nat) (slot : SlotName) (s : State) : (storeBlocked bin slot s).stockEnded = s.stockEnded := by
  unfold storeBlocked
  (try dsimp only) <;> (repeat' split) <;> (try simp)

@[simp] theorem makeStore_stockEnded (bin : Nat) (s : State) : (makeStore bin s).stockEnded = s.stockEnded := by
  unfold makeStore
  (try dsimp only) <;> (repeat' split) <;> (try simp)

@[simp] theorem nextMove_stockEnded (s : State) : (nextMove s).stockEnded = s.stockEnded := by
  unfold nextMove
  (try dsimp only) <;> (repeat' split) <;> (try simp)

@[simp] theorem park_stockEnded (s : State) : (park s).stockEnded = s.stockEnded := by
  unfold park
  (try dsimp only) <;> (repeat' split) <;> (try simp)

@[simp] theorem promote_stockEnded (s : State) : (promote s).stockEnded = s.stockEnded := by
  unfold promote
  (try dsimp only) <;> (repeat' split) <;> (try simp)

@[simp] theorem afterCompletion_stockEnded (s : State) : (afterCompletion s).stockEnded = s.stockEnded := by
  unfold afterCompletion
  (try dsimp only) <;> (repeat' split) <;> (try simp)

@[simp] theorem storeBin_stockEnded (bin : Nat) (content : Option Contents) (room : Option (Nat × Nat)) (s : State) : (storeBin bin content room s).stockEnded = s.stockEnded := by
  unfold storeBin
  (try dsimp only) <;> (repeat' split) <;> (try simp)

@[simp] theorem carryFetched_stockEnded (bin : Nat) (visit : Option Nat) (uncertain : Bool) (d : Directory) (s : State) : (carryFetched bin visit uncertain d s).stockEnded = s.stockEnded := by
  unfold carryFetched
  (try dsimp only) <;> (repeat' split) <;> (try simp)

@[simp] theorem abandonFetch_stockEnded (m : Move) (s : State) : (abandonFetch m s).stockEnded = s.stockEnded := by
  unfold abandonFetch
  (try dsimp only) <;> (repeat' split) <;> (try simp)

@[simp] theorem abandonDeliver_stockEnded (m : Move) (s : State) : (abandonDeliver m s).stockEnded = s.stockEnded := by
  unfold abandonDeliver
  (try dsimp only) <;> (repeat' split) <;> (try simp)

@[simp] theorem abandonTakeIn_stockEnded (s : State) : (abandonTakeIn s).stockEnded = s.stockEnded := by
  unfold abandonTakeIn
  (try dsimp only) <;> (repeat' split) <;> (try simp)

@[simp] theorem abandonStore_stockEnded (s : State) : (abandonStore s).stockEnded = s.stockEnded := by
  unfold abandonStore
  (try dsimp only) <;> (repeat' split) <;> (try simp)

@[simp] theorem abandonMove_stockEnded (s : State) : (abandonMove s).stockEnded = s.stockEnded := by
  unfold abandonMove
  (try dsimp only) <;> (repeat' split) <;> (try simp)

@[simp] theorem stall_stockEnded (m : Move) (s : State) : (stall m s).stockEnded = s.stockEnded := by
  unfold stall
  (try dsimp only) <;> (repeat' split) <;> (try simp)

@[simp] theorem loadFault_stockEnded (bin : Nat) (s : State) : (loadFault bin s).stockEnded = s.stockEnded := by
  unfold loadFault
  (try dsimp only) <;> (repeat' split) <;> (try simp)

@[simp] theorem resolveLoad_stockEnded (s : State) : (resolveLoad s).2.stockEnded = s.stockEnded := by
  unfold resolveLoad
  (try dsimp only) <;> (repeat' split) <;> (try simp)

@[simp] theorem portOutEmptied_stockEnded (s : State) : (portOutEmptied s).stockEnded = s.stockEnded := by
  unfold portOutEmptied
  (try dsimp only) <;> (repeat' split) <;> (try simp)

@[simp] theorem dropWaiting_stockEnded (s : State) : (dropWaiting s).stockEnded = s.stockEnded := by
  unfold dropWaiting
  (try dsimp only) <;> (repeat' split) <;> (try simp)

@[simp] theorem craneEntersFire_stockEnded (s : State) : (craneEntersFire s).stockEnded = s.stockEnded := by
  unfold craneEntersFire
  (try dsimp only) <;> (repeat' split) <;> (try simp)

@[simp] theorem unpark_stockEnded (s : State) : (unpark s).stockEnded = s.stockEnded := by
  unfold unpark
  (try dsimp only) <;> (repeat' split) <;> (try simp)

@[simp] theorem craneStop_stockEnded (s : State) : (craneStop s).stockEnded = s.stockEnded := by
  unfold craneStop
  (try dsimp only) <;> (repeat' split) <;> (try simp)

@[simp] theorem chooseAt_stockEnded (s : State) (order : Nat) : (chooseAt s order).2.stockEnded = s.stockEnded := by
  unfold chooseAt
  (try dsimp only) <;> (repeat' split) <;> (try simp)

@[simp] theorem stageFree_stockEnded (w : Work) (s : State) : (stageFree w s).stockEnded = s.stockEnded := by
  unfold stageFree
  (try dsimp only) <;> (repeat' split) <;> (try simp)

@[simp] theorem giveFree_stockEnded (w : Work) (s : State) : (giveFree w s).stockEnded = s.stockEnded := by
  unfold giveFree
  (try dsimp only) <;> (repeat' split) <;> (try simp)

@[simp] theorem selectAmong_stockEnded (orders : List Nat) (give : Work → State → State) (h : ∀ w s, (give w s).stockEnded = s.stockEnded)
    (s : State) : (selectAmong orders give s).stockEnded = s.stockEnded := by
  unfold selectAmong
  split
  · next o _ =>
    have hc := chooseAt_stockEnded s o
    split <;> simp_all
  · rfl

@[simp] theorem giveBack_stockEnded (m : Move) (s : State) : (giveBack m s).stockEnded = s.stockEnded := by
  unfold giveBack
  (try dsimp only) <;> (repeat' split) <;> (try simp)

@[simp] theorem displace_stockEnded (m : Move) (s : State) : (displace m s).stockEnded = s.stockEnded := by
  unfold displace
  (try dsimp only) <;> (repeat' split) <;> (try simp)

@[simp] theorem selectWork_stockEnded (s : State) : (selectWork s).stockEnded = s.stockEnded := by
  unfold selectWork
  (try dsimp only) <;> (repeat' split) <;> (try simp)

@[simp] theorem setLane_stockEnded (l : Lane) (v : PlaceState) (s : State) : (setLane l v s).stockEnded = s.stockEnded := by
  unfold setLane
  (try dsimp only) <;> (repeat' split) <;> (try simp)

@[simp] theorem setOut_stockEnded (l : Lane) (v : Option Handoff) (s : State) : (setOut l v s).stockEnded = s.stockEnded := by
  unfold setOut
  (try dsimp only) <;> (repeat' split) <;> (try simp)

@[simp] theorem setIncoming_stockEnded (l : Lane) (v : Option Handoff) (s : State) : (setIncoming l v s).stockEnded = s.stockEnded := by
  unfold setIncoming
  (try dsimp only) <;> (repeat' split) <;> (try simp)

@[simp] theorem clearRetry_stockEnded (l : Lane) (s : State) : (clearRetry l s).stockEnded = s.stockEnded := by
  unfold clearRetry
  (try dsimp only) <;> (repeat' split) <;> (try simp)

@[simp] theorem driveLane_stockEnded (l : Lane) (on : Bool) (s : State) : (driveLane l on s).stockEnded = s.stockEnded := by
  unfold driveLane
  (try dsimp only) <;> (repeat' split) <;> (try simp)

@[simp] theorem handoffLost_stockEnded (bin peer : Nat) (place : PlaceCode) (hop : Nat) (s : State) : (handoffLost bin peer place hop s).stockEnded = s.stockEnded := by
  unfold handoffLost
  (try dsimp only) <;> (repeat' split) <;> (try simp)

@[simp] theorem grantPortOut_stockEnded (s : State) : (grantPortOut s).stockEnded = s.stockEnded := by
  unfold grantPortOut
  (try dsimp only) <;> (repeat' split) <;> (try simp)

@[simp] theorem keepDown_stockEnded (s : State) : (keepDown s).stockEnded = s.stockEnded := by
  unfold keepDown
  (try dsimp only) <;> (repeat' split) <;> (try simp)

@[simp] theorem mergeArbiter_stockEnded (s : State) : (mergeArbiter s).stockEnded = s.stockEnded := by
  unfold mergeArbiter
  (try dsimp only) <;> (repeat' split) <;> (try simp)

@[simp] theorem noteFree_stockEnded (bin : Nat) (visit : Option Nat) (s : State) : (noteFree bin visit s).stockEnded = s.stockEnded := by
  unfold noteFree
  (try dsimp only) <;> (repeat' split) <;> (try simp)

@[simp] theorem handOver_stockEnded (bin : Nat) (visit : Option Nat) (s : State) : (handOver bin visit s).stockEnded = s.stockEnded := by
  unfold handOver
  (try dsimp only) <;> (repeat' split) <;> (try simp)

@[simp] theorem offerLane_stockEnded (l : Lane) (s : State) : (offerLane l s).stockEnded = s.stockEnded := by
  unfold offerLane
  (try dsimp only) <;> (repeat' split) <;> (try simp)

@[simp] theorem withdrawOffer_stockEnded (l : Lane) (s : State) : (withdrawOffer l s).stockEnded = s.stockEnded := by
  unfold withdrawOffer
  (try dsimp only) <;> (repeat' split) <;> (try simp)

@[simp] theorem offerOutcome_stockEnded (l : Lane) (peer : Nat) (heard : Bool) (s : State) : (offerOutcome l peer heard s).stockEnded = s.stockEnded := by
  unfold offerOutcome
  (try dsimp only) <;> (repeat' split) <;> (try simp)

@[simp] theorem acceptOffer_stockEnded (l : Lane) (sender : Nat) (r : TravelRecord) (s : State) : (acceptOffer l sender r s).stockEnded = s.stockEnded := by
  unfold acceptOffer
  (try dsimp only) <;> (repeat' split) <;> (try simp)

@[simp] theorem noRoom_stockEnded (l : Lane) (r : TravelRecord) (s : State) : (noRoom l r s).stockEnded = s.stockEnded := by
  unfold noRoom
  (try dsimp only) <;> (repeat' split) <;> (try simp)

@[simp] theorem mergeWins_stockEnded (s : State) : (mergeWins s).stockEnded = s.stockEnded := by
  unfold mergeWins
  (try dsimp only) <;> (repeat' split) <;> (try simp)

@[simp] theorem hearOffer_stockEnded (sender : Nat) (r : TravelRecord) (s : State) : (hearOffer sender r s).2.stockEnded = s.stockEnded := by
  unfold hearOffer
  (try dsimp only) <;> (repeat' split) <;> (try simp)

@[simp] theorem startDiversion_stockEnded (r : TravelRecord) (s : State) : (startDiversion r s).stockEnded = s.stockEnded := by
  unfold startDiversion
  (try dsimp only) <;> (repeat' split) <;> (try simp)

@[simp] theorem beginDiversion_stockEnded (r : TravelRecord) (s : State) : (beginDiversion r s).stockEnded = s.stockEnded := by
  unfold beginDiversion
  split <;> simp

@[simp] theorem blockUp_stockEnded (r : TravelRecord) (slot : SlotName) (s : State) : (blockUp r slot s).stockEnded = s.stockEnded := by
  unfold blockUp
  (try dsimp only) <;> (repeat' split) <;> (try simp)

@[simp] theorem divert_stockEnded (r : TravelRecord) (s : State) : (divert r s).stockEnded = s.stockEnded := by
  unfold divert
  (try dsimp only) <;> (repeat' split) <;> (try simp)

@[simp] theorem diversionCheck_stockEnded (s : State) : (diversionCheck s).stockEnded = s.stockEnded := by
  unfold diversionCheck
  (try dsimp only) <;> (repeat' split) <;> (try simp)

@[simp] theorem fireDiversion_stockEnded (s : State) : (fireDiversion s).stockEnded = s.stockEnded := by
  unfold fireDiversion
  (try dsimp only) <;> (repeat' split) <;> (try simp)

@[simp] theorem unannounced_stockEnded (place : SpinePlace) (s : State) : (unannounced place s).stockEnded = s.stockEnded := by
  unfold unannounced
  (try dsimp only) <;> (repeat' split) <;> (try simp)

@[simp] theorem mergeArrives_stockEnded (s : State) : (mergeArrives s).stockEnded = s.stockEnded := by
  unfold mergeArrives
  (try dsimp only) <;> (repeat' split) <;> (try simp)

@[simp] theorem laneArrives_stockEnded (l : Lane) (h : Handoff) (s : State) : (laneArrives l h s).stockEnded = s.stockEnded := by
  unfold laneArrives
  (try dsimp only) <;> (repeat' split) <;> (try simp)

@[simp] theorem diversionArrives_stockEnded (s : State) : (diversionArrives s).stockEnded = s.stockEnded := by
  unfold diversionArrives
  (try dsimp only) <;> (repeat' split) <;> (try simp)

@[simp] theorem laneEntry_stockEnded (l : Lane) (s : State) : (laneEntry l s).stockEnded = s.stockEnded := by
  unfold laneEntry
  (try dsimp only) <;> (repeat' split) <;> (try simp)

@[simp] theorem entryReport_stockEnded (place : SpinePlace) (s : State) : (entryReport place s).stockEnded = s.stockEnded := by
  unfold entryReport
  (try dsimp only) <;> (repeat' split) <;> (try simp)

@[simp] theorem positionReport_stockEnded (place : SpinePlace) (s : State) : (positionReport place s).stockEnded = s.stockEnded := by
  unfold positionReport
  (try dsimp only) <;> (repeat' split) <;> (try simp)

@[simp] theorem takenLane_stockEnded (l : Lane) (b : TakenBody) (s : State) : (takenLane l b s).stockEnded = s.stockEnded := by
  unfold takenLane
  (try dsimp only) <;> (repeat' split) <;> (try simp)

@[simp] theorem completeVisit_stockEnded (v : Visit) (s : State) : (completeVisit v s).stockEnded = s.stockEnded := by
  unfold completeVisit
  (try dsimp only) <;> (repeat' split) <;> (try simp)

@[simp] theorem deskTakes_stockEnded (b : TakenBody) (s : State) : (deskTakes b s).stockEnded = s.stockEnded := by
  unfold deskTakes
  (try dsimp only) <;> (repeat' split) <;> (try simp)

@[simp] theorem hearTaken_stockEnded (b : TakenBody) (s : State) : (hearTaken b s).stockEnded = s.stockEnded := by
  unfold hearTaken
  (try dsimp only) <;> (repeat' split) <;> (try simp)

@[simp] theorem loseHome_stockEnded (r : TravelRecord) (s : State) : (loseHome r s).stockEnded = s.stockEnded := by
  unfold loseHome
  (try dsimp only) <;> (repeat' split) <;> (try simp)

@[simp] theorem outExpires_stockEnded (l : Lane) (h : Handoff) (s : State) : (outExpires l h s).stockEnded = s.stockEnded := by
  unfold outExpires
  (try dsimp only) <;> (repeat' split) <;> (try simp)

@[simp] theorem diversionExpires_stockEnded (h : Handoff) (s : State) : (diversionExpires h s).stockEnded = s.stockEnded := by
  unfold diversionExpires
  (try dsimp only) <;> (repeat' split) <;> (try simp)

@[simp] theorem inExpires_stockEnded (l : Lane) (s : State) : (inExpires l s).stockEnded = s.stockEnded := by
  unfold inExpires
  (try dsimp only) <;> (repeat' split) <;> (try simp)

@[simp] theorem mergeExpires_stockEnded (h : Handoff) (s : State) : (mergeExpires h s).stockEnded = s.stockEnded := by
  unfold mergeExpires
  (try dsimp only) <;> (repeat' split) <;> (try simp)

@[simp] theorem mergeWaitExpires_stockEnded (s : State) : (mergeWaitExpires s).stockEnded = s.stockEnded := by
  unfold mergeWaitExpires
  (try dsimp only) <;> (repeat' split) <;> (try simp)

@[simp] theorem hearHandoffLost_stockEnded (sender : Nat) (b : FaultBody) (s : State) : (hearHandoffLost sender b s).stockEnded = s.stockEnded := by
  unfold hearHandoffLost
  (try dsimp only) <;> (repeat' split) <;> (try simp)

@[simp] theorem lowerCaught_stockEnded (sender bin : Nat) (s : State) : (lowerCaught sender bin s).stockEnded = s.stockEnded := by
  unfold lowerCaught
  (try dsimp only) <;> (repeat' split) <;> (try simp)

@[simp] theorem hearBinCaught_stockEnded (sender : Nat) (b : FaultBody) (s : State) : (hearBinCaught sender b s).stockEnded = s.stockEnded := by
  unfold hearBinCaught
  (try dsimp only) <;> (repeat' split) <;> (try simp)

@[simp] theorem dropKept_stockEnded (kept : Option TravelRecord) (s : State) : (dropKept kept s).stockEnded = s.stockEnded := by
  unfold dropKept
  (try dsimp only) <;> (repeat' split) <;> (try simp)

@[simp] theorem clearPlace_stockEnded (place : SpinePlace) (s : State) : (clearPlace place s).stockEnded = s.stockEnded := by
  unfold clearPlace
  (try dsimp only) <;> (repeat' split) <;> (try simp)

@[simp] theorem clearBlocked_stockEnded (s : State) : (clearBlocked s).stockEnded = s.stockEnded := by
  unfold clearBlocked
  (try dsimp only) <;> (repeat' split) <;> (try simp)

@[simp] theorem binCaught_stockEnded (r : TravelRecord) (place : PlaceCode) (s : State) : (binCaught r place s).stockEnded = s.stockEnded := by
  unfold binCaught
  (try dsimp only) <;> (repeat' split) <;> (try simp)

@[simp] theorem catchDown_stockEnded (s : State) : (catchDown s).stockEnded = s.stockEnded := by
  unfold catchDown
  (try dsimp only) <;> (repeat' split) <;> (try simp)

@[simp] theorem catchUp_stockEnded (s : State) : (catchUp s).stockEnded = s.stockEnded := by
  unfold catchUp
  (try dsimp only) <;> (repeat' split) <;> (try simp)

@[simp] theorem hearRoomCall_stockEnded (sender : Nat) (b : RoomCallBody) (s : State) : (hearRoomCall sender b s).stockEnded = s.stockEnded := by
  unfold hearRoomCall
  (try dsimp only) <;> (repeat' split) <;> (try simp)

@[simp] theorem beginEvaluation_stockEnded (s : State) : (beginEvaluation s).stockEnded = s.stockEnded := by
  unfold beginEvaluation
  (try dsimp only) <;> (repeat' split) <;> (try simp)

@[simp] theorem bidFor_stockEnded (c : CallEntry) (cost b : Nat) (s : State) : (bidFor c cost b s).stockEnded = s.stockEnded := by
  unfold bidFor
  (try dsimp only) <;> (repeat' split) <;> (try simp)

@[simp] theorem evaluationDone_stockEnded (s : State) : (evaluationDone s).stockEnded = s.stockEnded := by
  unfold evaluationDone
  (try dsimp only) <;> (repeat' split) <;> (try simp)

@[simp] theorem hearBid_stockEnded (b : BidBody) (s : State) : (hearBid b s).stockEnded = s.stockEnded := by
  unfold hearBid
  (try dsimp only) <;> (repeat' split) <;> (try simp)

@[simp] theorem beginClaim_stockEnded (e : CallEntry) (s : State) : (beginClaim e s).stockEnded = s.stockEnded := by
  unfold beginClaim
  (try dsimp only) <;> (repeat' split) <;> (try simp)

@[simp] theorem windowExpires_stockEnded (e : CallEntry) (s : State) : (windowExpires e s).stockEnded = s.stockEnded := by
  unfold windowExpires
  (try dsimp only) <;> (repeat' split) <;> (try simp)

@[simp] theorem hearClaim_stockEnded (b : ClaimBody) (s : State) : (hearClaim b s).stockEnded = s.stockEnded := by
  unfold hearClaim
  (try dsimp only) <;> (repeat' split) <;> (try simp)

@[simp] theorem claimOutcome_stockEnded (c : Call) (heard : Bool) (s : State) : (claimOutcome c heard s).stockEnded = s.stockEnded := by
  unfold claimOutcome
  (try dsimp only) <;> (repeat' split) <;> (try simp)

@[simp] theorem callSent_stockEnded (c : Call) (st : CallState) (s : State) : (callSent c st s).stockEnded = s.stockEnded := by
  unfold callSent
  (try dsimp only) <;> (repeat' split) <;> (try simp)

@[simp] theorem retestRoute_stockEnded (s : State) : (retestRoute s).stockEnded = s.stockEnded := by
  unfold retestRoute
  (try dsimp only) <;> (repeat' split) <;> (try simp)

@[simp] theorem leaveWorking_stockEnded (old : Mode) (s : State) : (leaveWorking old s).stockEnded = s.stockEnded := by
  unfold leaveWorking
  (try dsimp only) <;> (repeat' split) <;> (try simp)

@[simp] theorem enterFire_stockEnded (old : Mode) (s : State) : (enterFire old s).stockEnded = s.stockEnded := by
  unfold enterFire
  (try dsimp only) <;> (repeat' split) <;> (try simp)

@[simp] theorem deriveMode_stockEnded (s : State) : (deriveMode s).stockEnded = s.stockEnded := by
  unfold deriveMode
  (try dsimp only) <;> (repeat' split) <;> (try simp)

@[simp] theorem fireFrame_stockEnded (item : Item) (o : Owner) (s : State) : (fireFrame item o s).stockEnded = s.stockEnded := by
  unfold fireFrame
  (try dsimp only) <;> (repeat' split) <;> (try simp)

@[simp] theorem setShutter_stockEnded (x : Shutter) (s : State) : (setShutter x s).stockEnded = s.stockEnded := by
  unfold setShutter
  (try dsimp only) <;> (repeat' split) <;> (try simp)

@[simp] theorem startClearing_stockEnded (x : Shutter) (s : State) : (startClearing x s).stockEnded = s.stockEnded := by
  unfold startClearing
  (try dsimp only) <;> (repeat' split) <;> (try simp)

@[simp] theorem shutterProcedure_stockEnded (s : State) : (shutterProcedure s).stockEnded = s.stockEnded := by
  unfold shutterProcedure
  (try dsimp only) <;> (repeat' split) <;> (try simp)

@[simp] theorem startClosing_stockEnded (x : Shutter) (s : State) : (startClosing x s).stockEnded = s.stockEnded := by
  unfold startClosing
  (try dsimp only) <;> (repeat' split) <;> (try simp)

@[simp] theorem disownClosing_stockEnded (s : State) : (disownClosing s).stockEnded = s.stockEnded := by
  unfold disownClosing
  (try dsimp only) <;> (repeat' split) <;> (try simp)

@[simp] theorem dropClosing_stockEnded (s : State) : (dropClosing s).stockEnded = s.stockEnded := by
  unfold dropClosing
  (try dsimp only) <;> (repeat' split) <;> (try simp)

@[simp] theorem clearCheck_stockEnded (s : State) : (clearCheck s).stockEnded = s.stockEnded := by
  unfold clearCheck
  (try dsimp only) <;> (repeat' split) <;> (try simp)

@[simp] theorem closingOutcome_stockEnded (heard : Bool) (s : State) : (closingOutcome heard s).stockEnded = s.stockEnded := by
  unfold closingOutcome
  (try dsimp only) <;> (repeat' split) <;> (try simp)

@[simp] theorem forceClose_stockEnded (x : Shutter) (s : State) : (forceClose x s).stockEnded = s.stockEnded := by
  unfold forceClose
  (try dsimp only) <;> (repeat' split) <;> (try simp)

@[simp] theorem closeLimitExpires_stockEnded (s : State) : (closeLimitExpires s).stockEnded = s.stockEnded := by
  unfold closeLimitExpires
  (try dsimp only) <;> (repeat' split) <;> (try simp)

@[simp] theorem shutterClosed_stockEnded (s : State) : (shutterClosed s).stockEnded = s.stockEnded := by
  unfold shutterClosed
  (try dsimp only) <;> (repeat' split) <;> (try simp)

@[simp] theorem becomeOpen_stockEnded (x : Shutter) (s : State) : (becomeOpen x s).stockEnded = s.stockEnded := by
  unfold becomeOpen
  (try dsimp only) <;> (repeat' split) <;> (try simp)

@[simp] theorem shutterOpened_stockEnded (s : State) : (shutterOpened s).stockEnded = s.stockEnded := by
  unfold shutterOpened
  (try dsimp only) <;> (repeat' split) <;> (try simp)

@[simp] theorem shutterFault_stockEnded (d : ShutterDir) (x : Shutter) (s : State) : (shutterFault d x s).stockEnded = s.stockEnded := by
  unfold shutterFault
  (try dsimp only) <;> (repeat' split) <;> (try simp)

@[simp] theorem driveLimitExpires_stockEnded (s : State) : (driveLimitExpires s).stockEnded = s.stockEnded := by
  unfold driveLimitExpires
  (try dsimp only) <;> (repeat' split) <;> (try simp)

@[simp] theorem reopen_stockEnded (s : State) : (reopen s).stockEnded = s.stockEnded := by
  unfold reopen
  (try dsimp only) <;> (repeat' split) <;> (try simp)

@[simp] theorem endFoundShut_stockEnded (c : Compartment) (s : State) : (endFoundShut c s).stockEnded = s.stockEnded := by
  unfold endFoundShut
  (try dsimp only) <;> (repeat' split) <;> (try simp)

@[simp] theorem safeCheck_stockEnded (s : State) : (safeCheck s).stockEnded = s.stockEnded := by
  unfold safeCheck
  (try dsimp only) <;> (repeat' split) <;> (try simp)

@[simp] theorem setAlarm_stockEnded (c : Compartment) (r : AlarmRec) (s : State) : (setAlarm c r s).stockEnded = s.stockEnded := by
  unfold setAlarm
  (try dsimp only) <;> (repeat' split) <;> (try simp)

@[simp] theorem alarmRaised_stockEnded (c : Compartment) (s : State) : (alarmRaised c s).stockEnded = s.stockEnded := by
  unfold alarmRaised
  (try dsimp only) <;> (repeat' split) <;> (try simp)

@[simp] theorem queueAlarm_stockEnded (c : Compartment) (epoch : Nat) (i : FireInput) (s : State) : (queueAlarm c epoch i s).stockEnded = s.stockEnded := by
  unfold queueAlarm
  (try dsimp only) <;> (repeat' split) <;> (try simp)

@[simp] theorem localCause_stockEnded (i : FireInput) (s : State) : (localCause i s).stockEnded = s.stockEnded := by
  unfold localCause
  (try dsimp only) <;> (repeat' split) <;> (try simp)

@[simp] theorem hearAlarm_stockEnded (b : AlarmBody) (s : State) : (hearAlarm b s).stockEnded = s.stockEnded := by
  unfold hearAlarm
  (try dsimp only) <;> (repeat' split) <;> (try simp)

@[simp] theorem setFilter_stockEnded (i : FireInput) (x : InputFilter) (s : State) : (setFilter i x s).stockEnded = s.stockEnded := by
  unfold setFilter
  (try dsimp only) <;> (repeat' split) <;> (try simp)

@[simp] theorem reraise_stockEnded (s : State) : (reraise s).stockEnded = s.stockEnded := by
  unfold reraise
  (try dsimp only) <;> (repeat' split) <;> (try simp)

@[simp] theorem spineResumes_stockEnded (s : State) : (spineResumes s).stockEnded = s.stockEnded := by simp [spineResumes]

@[simp] theorem restoreEffects_stockEnded (c : Compartment) (s : State) : (restoreEffects c s).stockEnded = s.stockEnded := by
  unfold restoreEffects
  (try dsimp only) <;> (repeat' split) <;> (try simp)

@[simp] theorem hearRestore_stockEnded (b : RestoreBody) (s : State) : (hearRestore b s).2.stockEnded = s.stockEnded := by
  unfold hearRestore
  (try dsimp only) <;> (repeat' split) <;> (try simp)

@[simp] theorem inputReadsActive_stockEnded (i : FireInput) (s : State) : (inputReadsActive i s).stockEnded = s.stockEnded := by
  unfold inputReadsActive
  (try dsimp only) <;> (repeat' split) <;> (try simp)

@[simp] theorem inputReadsInactive_stockEnded (i : FireInput) (s : State) : (inputReadsInactive i s).stockEnded = s.stockEnded := by
  unfold inputReadsInactive
  (try dsimp only) <;> (repeat' split) <;> (try simp)

@[simp] theorem filterExpires_stockEnded (i : FireInput) (s : State) : (filterExpires i s).stockEnded = s.stockEnded := by
  unfold filterExpires
  (try dsimp only) <;> (repeat' split) <;> (try simp)

@[simp] theorem settle_stockEnded (s : State) : (settle s).stockEnded = s.stockEnded := by
  unfold settle
  (try dsimp only) <;> (repeat' split) <;> (try simp)

@[simp] theorem stockRefused_stockEnded (r : StockReason) (slot : SlotName) (bin : Nat) (s : State) : (stockRefused r slot bin s).stockEnded = s.stockEnded := by
  unfold stockRefused
  (try dsimp only) <;> (repeat' split) <;> (try simp)

@[simp] theorem gateNotice_stockEnded (a : Answers) (i : Item) (s : State) : (gateNotice a i s).2.stockEnded = s.stockEnded := by
  unfold gateNotice
  (try dsimp only) <;> (repeat' split) <;> (try simp)

@[simp] theorem lendJoins_stockEnded (b : LendBody) (w : Visit) (s : State) : (lendJoins b w s).stockEnded = s.stockEnded := by
  unfold lendJoins
  (try dsimp only) <;> (repeat' split) <;> (try simp)

@[simp] theorem lendMakes_stockEnded (b : LendBody) (s : State) : (lendMakes b s).stockEnded = s.stockEnded := by
  unfold lendMakes
  (try dsimp only) <;> (repeat' split) <;> (try simp)

@[simp] theorem hearLend_stockEnded (b : LendBody) (s : State) : (hearLend b s).2.stockEnded = s.stockEnded := by
  unfold hearLend
  (try dsimp only) <;> (repeat' split) <;> (try simp)

@[simp] theorem withdrawStaged_stockEnded (n : Nat) (s : State) : (withdrawStaged n s).stockEnded = s.stockEnded := by
  unfold withdrawStaged
  (try dsimp only) <;> (repeat' split) <;> (try simp)

@[simp] theorem cancelListed_stockEnded (id : Nat) (v : Visit) (s : State) : (cancelListed id v s).stockEnded = s.stockEnded := by
  unfold cancelListed
  (try dsimp only) <;> (repeat' split) <;> (try simp)

@[simp] theorem cancelMarks_stockEnded (id : Nat) (s : State) : (cancelMarks id s).stockEnded = s.stockEnded := by
  unfold cancelMarks
  (try dsimp only) <;> (repeat' split) <;> (try simp)

@[simp] theorem hearCancel_stockEnded (id : Nat) (s : State) : (hearCancel id s).2.stockEnded = s.stockEnded := by
  unfold hearCancel
  (try dsimp only) <;> (repeat' split) <;> (try simp)

@[simp] theorem hearStockAt_stockEnded (n : SlotName) (s : State) : (hearStockAt n s).2.stockEnded = s.stockEnded := by
  unfold hearStockAt
  (try dsimp only) <;> (repeat' split) <;> (try simp)

@[simp] theorem binRemoved_stockEnded (bin : Nat) (why : FailReason) (s : State) : (binRemoved bin why s).stockEnded = s.stockEnded := by
  unfold binRemoved
  (try dsimp only) <;> (repeat' split) <;> (try simp)

@[simp] theorem stockApplied_stockEnded (sl : Slot) (b : StockBody) (s : State) : (stockApplied sl b s).stockEnded = s.stockEnded := by
  unfold stockApplied
  (try dsimp only) <;> (repeat' split) <;> (try simp)

@[simp] theorem hearStock_stockEnded (b : StockBody) (s : State) : (hearStock b s).2.stockEnded = s.stockEnded := by
  unfold hearStock
  (try dsimp only) <;> (repeat' split) <;> (try simp)

@[simp] theorem hearWriteOff_stockEnded (bin : Nat) (s : State) : (hearWriteOff bin s).2.stockEnded = s.stockEnded := by
  unfold hearWriteOff
  (try dsimp only) <;> (repeat' split) <;> (try simp)

@[simp] theorem hearStop_stockEnded (s : State) : (hearStop s).stockEnded = s.stockEnded := by
  unfold hearStop
  (try dsimp only) <;> (repeat' split) <;> (try simp)

@[simp] theorem leaveHalt_stockEnded (s : State) : (leaveHalt s).stockEnded = s.stockEnded := by
  unfold leaveHalt
  (try dsimp only) <;> (repeat' split) <;> (try simp)

@[simp] theorem resumeSteps_stockEnded (s : State) : (resumeSteps s).stockEnded = s.stockEnded := by
  unfold resumeSteps
  (try dsimp only) <;> (repeat' split) <;> (try simp)

@[simp] theorem hearResume_stockEnded (s : State) : (hearResume s).stockEnded = s.stockEnded := by
  unfold hearResume
  (try dsimp only) <;> (repeat' split) <;> (try simp)

@[simp] theorem hearQuery_stockEnded (s : State) : (hearQuery s).stockEnded = s.stockEnded := by
  unfold hearQuery
  (try dsimp only) <;> (repeat' split) <;> (try simp)

@[simp] theorem hearFault_stockEnded (sender : Nat) (b : FaultBody) (s : State) : (hearFault sender b s).stockEnded = s.stockEnded := by
  unfold hearFault
  (try dsimp only) <;> (repeat' split) <;> (try simp)

@[simp] theorem enterNeighbour_stockEnded (h : Header) (s : State) : (enterNeighbour h s).stockEnded = s.stockEnded := by
  unfold enterNeighbour
  (try dsimp only) <;> (repeat' split) <;> (try simp)

@[simp] theorem setSlots_stockEnded (x : Bool × Bool) (s : State) : (setSlots x s).stockEnded = s.stockEnded := by
  unfold setSlots
  (try dsimp only) <;> (repeat' split) <;> (try simp)

@[simp] theorem reportSent_stockEnded (o : Owner) (s : State) : (reportSent o s).stockEnded = s.stockEnded := by
  unfold reportSent
  (try dsimp only) <;> (repeat' split) <;> (try simp)

@[simp] theorem frameWins_stockEnded (f : TxFrame) (q : List TxFrame) (s : State) : (frameWins f q s).stockEnded = s.stockEnded := by
  unfold frameWins
  (try dsimp only) <;> (repeat' split) <;> (try simp)

@[simp] theorem contend_stockEnded (rivals : List (Nat × Nat)) (s : State) : (contend rivals s).stockEnded = s.stockEnded := by
  unfold contend
  (try dsimp only) <;> (repeat' split) <;> (try simp)

@[simp] theorem reportOutcome_stockEnded (f : TxFrame) (o : TxOutcome) (s : State) : (reportOutcome f o s).stockEnded = s.stockEnded := by
  unfold reportOutcome
  (try dsimp only) <;> (repeat' split) <;> (try simp)

@[simp] theorem frameEnds_stockEnded (o : TxOutcome) (s : State) : (frameEnds o s).stockEnded = s.stockEnded := by
  unfold frameEnds
  (try dsimp only) <;> (repeat' split) <;> (try simp)

@[simp] theorem parkCompletes_stockEnded (s : State) : (parkCompletes s).stockEnded = s.stockEnded := by
  unfold parkCompletes
  (try dsimp only) <;> (repeat' split) <;> (try simp)

@[simp] theorem storeAgain_stockEnded (new : Slot) (s : State) : (storeAgain new s).stockEnded = s.stockEnded := by
  unfold storeAgain
  (try dsimp only) <;> (repeat' split) <;> (try simp)

@[simp] theorem slotConflictFault_stockEnded (bin : Nat) (old new : Slot) (s : State) : (slotConflictFault bin old new s).stockEnded = s.stockEnded := by
  unfold slotConflictFault
  (try dsimp only) <;> (repeat' split) <;> (try simp)

@[simp] theorem slotConflict_stockEnded (bin : Nat) (old : Slot) (s : State) : (slotConflict bin old s).stockEnded = s.stockEnded := by
  unfold slotConflict
  (try dsimp only) <;> (repeat' split) <;> (try simp)

@[simp] theorem storeInPosition_stockEnded (m : Move) (s : State) : (storeInPosition m s).stockEnded = s.stockEnded := by
  unfold storeInPosition
  (try dsimp only) <;> (repeat' split) <;> (try simp)

@[simp] theorem inPosition_stockEnded (s : State) : (inPosition s).stockEnded = s.stockEnded := by
  unfold inPosition
  (try dsimp only) <;> (repeat' split) <;> (try simp)

@[simp] theorem tagUnread_stockEnded (m : Move) (s : State) : (tagUnread m s).stockEnded = s.stockEnded := by
  unfold tagUnread
  (try dsimp only) <;> (repeat' split) <;> (try simp)

@[simp] theorem discardBound_stockEnded (s : State) : (discardBound s).stockEnded = s.stockEnded := by
  unfold discardBound
  (try dsimp only) <;> (repeat' split) <;> (try simp)

@[simp] theorem tagMismatch_stockEnded (m : Move) (x : Nat) (s : State) : (tagMismatch m x s).stockEnded = s.stockEnded := by
  unfold tagMismatch
  (try dsimp only) <;> (repeat' split) <;> (try simp)

@[simp] theorem forkTagRead_stockEnded (r : TagRead) (s : State) : (forkTagRead r s).stockEnded = s.stockEnded := by
  unfold forkTagRead
  (try dsimp only) <;> (repeat' split) <;> (try simp)

@[simp] theorem takeOutRefused_stockEnded (m : Move) (s : State) : (takeOutRefused m s).stockEnded = s.stockEnded := by
  unfold takeOutRefused
  (try dsimp only) <;> (repeat' split) <;> (try simp)

@[simp] theorem fetchDone_stockEnded (m : Move) (s : State) : (fetchDone m s).stockEnded = s.stockEnded := by
  unfold fetchDone
  (try dsimp only) <;> (repeat' split) <;> (try simp)

@[simp] theorem deliverDone_stockEnded (s : State) : (deliverDone s).stockEnded = s.stockEnded := by
  unfold deliverDone
  (try dsimp only) <;> (repeat' split) <;> (try simp)

@[simp] theorem takeInDone_stockEnded (s : State) : (takeInDone s).stockEnded = s.stockEnded := by
  unfold takeInDone
  (try dsimp only) <;> (repeat' split) <;> (try simp)

@[simp] theorem storeDone_stockEnded (s : State) : (storeDone s).stockEnded = s.stockEnded := by
  unfold storeDone
  (try dsimp only) <;> (repeat' split) <;> (try simp)

@[simp] theorem forkDone_stockEnded (s : State) : (forkDone s).stockEnded = s.stockEnded := by
  unfold forkDone
  (try dsimp only) <;> (repeat' split) <;> (try simp)

@[simp] theorem fireStopped_stockEnded (s : State) : (fireStopped s).stockEnded = s.stockEnded := by
  unfold fireStopped
  (try dsimp only) <;> (repeat' split) <;> (try simp)

@[simp] theorem stopStopped_stockEnded (s : State) : (stopStopped s).stockEnded = s.stockEnded := by
  unfold stopStopped
  (try dsimp only) <;> (repeat' split) <;> (try simp)

@[simp] theorem craneStopped_stockEnded (s : State) : (craneStopped s).stockEnded = s.stockEnded := by
  unfold craneStopped
  (try dsimp only) <;> (repeat' split) <;> (try simp)

@[simp] theorem budgetExpires_stockEnded (s : State) : (budgetExpires s).stockEnded = s.stockEnded := by
  unfold budgetExpires
  (try dsimp only) <;> (repeat' split) <;> (try simp)

@[simp] theorem storeBack_stockEnded (s : State) : (storeBack s).stockEnded = s.stockEnded := by
  unfold storeBack
  (try dsimp only) <;> (repeat' split) <;> (try simp)

@[simp] theorem portTagFails_stockEnded (r : TravelRecord) (id : Nat) (s : State) : (portTagFails r id s).stockEnded = s.stockEnded := by
  unfold portTagFails
  (try dsimp only) <;> (repeat' split) <;> (try simp)

@[simp] theorem portInTagRead_stockEnded (id : Option Nat) (s : State) : (portInTagRead id s).stockEnded = s.stockEnded := by
  unfold portInTagRead
  (try dsimp only) <;> (repeat' split) <;> (try simp)

@[simp] theorem transferOutExpires_stockEnded (l : Lane) (s : State) : (transferOutExpires l s).stockEnded = s.stockEnded := by
  unfold transferOutExpires
  (try dsimp only) <;> (repeat' split) <;> (try simp)

@[simp] theorem diversionTransferExpires_stockEnded (s : State) : (diversionTransferExpires s).stockEnded = s.stockEnded := by
  unfold diversionTransferExpires
  (try dsimp only) <;> (repeat' split) <;> (try simp)

@[simp] theorem mergeTransferExpires_stockEnded (s : State) : (mergeTransferExpires s).stockEnded = s.stockEnded := by
  unfold mergeTransferExpires
  (try dsimp only) <;> (repeat' split) <;> (try simp)

@[simp] theorem callWindowExpires_stockEnded (c : Call) (s : State) : (callWindowExpires c s).stockEnded = s.stockEnded := by
  unfold callWindowExpires
  (try dsimp only) <;> (repeat' split) <;> (try simp)

@[simp] theorem sweepBin_stockEnded (b : Nat) (s : State) : (sweepBin b s).stockEnded = s.stockEnded := by
  unfold sweepBin
  (try dsimp only) <;> (repeat' split) <;> (try simp)

@[simp] theorem overdueSweep_stockEnded (s : State) : (overdueSweep s).stockEnded = s.stockEnded := by
  unfold overdueSweep
  (try dsimp only) <;> (repeat' split) <;> (try simp)

@[simp] theorem closingRetryExpires_stockEnded (s : State) : (closingRetryExpires s).stockEnded = s.stockEnded := by
  unfold closingRetryExpires
  (try dsimp only) <;> (repeat' split) <;> (try simp)

/-! ## The stop (R60, R61) -/

@[simp] theorem foldl_stopTaken {α : Type} (f : State → α → State) (h : ∀ s a, (f s a).stopTaken = s.stopTaken) (l : List α) (s : State) :
    (l.foldl f s).stopTaken = s.stopTaken := by
  induction l generalizing s with
  | nil => rfl
  | cons a l ih => simp [ih, h]

@[simp] theorem noteHeld_stopTaken (h : Bool) (s : State) : (noteHeld h s).stopTaken = s.stopTaken := by
  unfold noteHeld
  (try dsimp only) <;> (repeat' split) <;> (try simp)

@[simp] theorem handBack_stopTaken (n : Nat) (s : State) : (handBack n s).stopTaken = s.stopTaken := by
  unfold handBack
  (try dsimp only) <;> (repeat' split) <;> (try simp)

@[simp] theorem handBackLink_stopTaken (link : Option Nat) (s : State) : (handBackLink link s).stopTaken = s.stopTaken := by
  unfold handBackLink
  (try dsimp only) <;> (repeat' split) <;> (try simp)

@[simp] theorem releaseBin_stopTaken (bin : Nat) (s : State) : (releaseBin bin s).stopTaken = s.stopTaken := by
  unfold releaseBin
  (try dsimp only) <;> (repeat' split) <;> (try simp)

@[simp] theorem withholdBin_stopTaken (bin : Nat) (s : State) : (withholdBin bin s).stopTaken = s.stopTaken := by
  unfold withholdBin
  (try dsimp only) <;> (repeat' split) <;> (try simp)

@[simp] theorem reportRoute_stopTaken (isOpen : Bool) (s : State) : (reportRoute isOpen s).stopTaken = s.stopTaken := by
  unfold reportRoute
  (try dsimp only) <;> (repeat' split) <;> (try simp)

@[simp] theorem visitTo_stopTaken (link : Option Nat) (st : VisitState) (s : State) : (visitTo link st s).stopTaken = s.stopTaken := by
  unfold visitTo
  (try dsimp only) <;> (repeat' split) <;> (try simp)

@[simp] theorem reserveEntry_stopTaken (bin : Nat) (desk : Desk) (s : State) : (reserveEntry bin desk s).stopTaken = s.stopTaken := by
  unfold reserveEntry
  (try dsimp only) <;> (repeat' split) <;> (try simp)

@[simp] theorem dropReservation_stopTaken (bin : Nat) (desk : Desk) (s : State) : (dropReservation bin desk s).stopTaken = s.stopTaken := by
  unfold dropReservation
  (try dsimp only) <;> (repeat' split) <;> (try simp)

@[simp] theorem takeRoomPart_stopTaken (bin : Nat) (part : RoomPart) (s : State) : (takeRoomPart bin part s).stopTaken = s.stopTaken := by
  unfold takeRoomPart
  (try dsimp only) <;> (repeat' split) <;> (try simp)

@[simp] theorem clearStow_stopTaken (s : State) : (clearStow s).stopTaken = s.stopTaken := by
  unfold clearStow
  (try dsimp only) <;> (repeat' split) <;> (try simp)

@[simp] theorem clearPassed_stopTaken (s : State) : (clearPassed s).stopTaken = s.stopTaken := by
  unfold clearPassed
  (try dsimp only) <;> (repeat' split) <;> (try simp)

@[simp] theorem setStow_stopTaken (st : StowState) (s : State) : (setStow st s).stopTaken = s.stopTaken := by
  unfold setStow
  (try dsimp only) <;> (repeat' split) <;> (try simp)

@[simp] theorem promoteStow_stopTaken (s : State) : (promoteStow s).stopTaken = s.stopTaken := by
  unfold promoteStow
  (try dsimp only) <;> (repeat' split) <;> (try simp)

@[simp] theorem releaseEntry_stopTaken (e : CallEntry) (s : State) : (releaseEntry e s).stopTaken = s.stopTaken := by
  unfold releaseEntry
  (try dsimp only) <;> (repeat' split) <;> (try simp)

@[simp] theorem unreserveEntry_stopTaken (e : CallEntry) (s : State) : (unreserveEntry e s).stopTaken = s.stopTaken := by
  unfold unreserveEntry
  (try dsimp only) <;> (repeat' split) <;> (try simp)

@[simp] theorem bidRefused_stopTaken (c : Call) (s : State) : (bidRefused c s).stopTaken = s.stopTaken := by
  unfold bidRefused
  (try dsimp only) <;> (repeat' split) <;> (try simp)

@[simp] theorem claimLost_stopTaken (c : Call) (s : State) : (claimLost c s).stopTaken = s.stopTaken := by
  unfold claimLost
  (try dsimp only) <;> (repeat' split) <;> (try simp)

@[simp] theorem startRetry_stopTaken (l : Lane) (s : State) : (startRetry l s).stopTaken = s.stopTaken := by
  unfold startRetry
  (try dsimp only) <;> (repeat' split) <;> (try simp)

@[simp] theorem startClosingRetry_stopTaken (s : State) : (startClosingRetry s).stopTaken = s.stopTaken := by
  unfold startClosingRetry
  (try dsimp only) <;> (repeat' split) <;> (try simp)

@[simp] theorem frameRefused_stopTaken (o : Owner) (s : State) : (frameRefused o s).stopTaken = s.stopTaken := by
  unfold frameRefused
  (try dsimp only) <;> (repeat' split) <;> (try simp)

@[simp] theorem queueFrame_stopTaken (f : TxFrame) (s : State) : (queueFrame f s).stopTaken = s.stopTaken := by
  unfold queueFrame
  (try dsimp only) <;> (repeat' split) <;> (try simp)

@[simp] theorem notice_stopTaken (items : List Item) (s : State) : (notice items s).stopTaken = s.stopTaken := by
  unfold notice
  (try dsimp only) <;> (repeat' split) <;> (try simp)

@[simp] theorem faultNotice_stopTaken (b : FaultBody) (s : State) : (faultNotice b s).stopTaken = s.stopTaken := by
  unfold faultNotice
  (try dsimp only) <;> (repeat' split) <;> (try simp)

@[simp] theorem withdraw_stopTaken (p : Owner → Bool) (s : State) : (withdraw p s).stopTaken = s.stopTaken := by
  unfold withdraw
  (try dsimp only) <;> (repeat' split) <;> (try simp)

@[simp] theorem requestFailed_stopTaken (reason : FailReason) (kind : AnsweredKind) (bin : Nat) (desk : Option Desk) (requests : List (Nat × Nat)) (s : State) : (requestFailed reason kind bin desk requests s).stopTaken = s.stopTaken := by
  unfold requestFailed
  (try dsimp only) <;> (repeat' split) <;> (try simp)

@[simp] theorem requestDone_stopTaken (bin : Nat) (desk : Desk) (requests : List (Nat × Nat)) (s : State) : (requestDone bin desk requests s).stopTaken = s.stopTaken := by
  unfold requestDone
  (try dsimp only) <;> (repeat' split) <;> (try simp)

@[simp] theorem failVisit_stopTaken (n : Nat) (reason : FailReason) (release : Bool) (s : State) : (failVisit n reason release s).stopTaken = s.stopTaken := by
  unfold failVisit
  (try dsimp only) <;> (repeat' split) <;> (try simp)

@[simp] theorem failVisits_stopTaken (bin : Nat) (reason : FailReason) (s : State) : (failVisits bin reason s).stopTaken = s.stopTaken := by
  unfold failVisits
  (try dsimp only) <;> (repeat' split) <;> (try simp)

@[simp] theorem closeCall_stopTaken (c : Call) (s : State) : (closeCall c s).stopTaken = s.stopTaken := by
  unfold closeCall
  (try dsimp only) <;> (repeat' split) <;> (try simp)

@[simp] theorem closeCalls_stopTaken (p : CallState → Bool) (s : State) : (closeCalls p s).stopTaken = s.stopTaken := by
  unfold closeCalls
  (try dsimp only) <;> (repeat' split) <;> (try simp)

@[simp] theorem closeCallsOfBin_stopTaken (bin : Nat) (s : State) : (closeCallsOfBin bin s).stopTaken = s.stopTaken := by
  unfold closeCallsOfBin
  (try dsimp only) <;> (repeat' split) <;> (try simp)

@[simp] theorem craneTo_stopTaken (st : CraneState) (s : State) : (craneTo st s).stopTaken = s.stopTaken := by
  unfold craneTo
  (try dsimp only) <;> (repeat' split) <;> (try simp)

@[simp] theorem readEncoders_stopTaken (s : State) : (readEncoders s).stopTaken = s.stopTaken := by
  unfold readEncoders
  (try dsimp only) <;> (repeat' split) <;> (try simp)

@[simp] theorem clearCurrent_stopTaken (s : State) : (clearCurrent s).stopTaken = s.stopTaken := by
  unfold clearCurrent
  (try dsimp only) <;> (repeat' split) <;> (try simp)

@[simp] theorem askLeg_stopTaken (a b : Pos) (fork : Bool) (s : State) : (askLeg a b fork s).2.stopTaken = s.stopTaken := by
  unfold askLeg
  (try dsimp only) <;> (repeat' split) <;> (try simp)

@[simp] theorem askEstimate_stopTaken (target : Target) (fork : Bool) (s : State) : (askEstimate target fork s).2.stopTaken = s.stopTaken := by
  unfold askEstimate
  (try dsimp only) <;> (repeat' split) <;> (try simp)

@[simp] theorem locateBin_stopTaken (b : Nat) (loc : Location) (s : State) : (locateBin b loc s).stopTaken = s.stopTaken := by
  unfold locateBin
  (try dsimp only) <;> (repeat' split) <;> (try simp)

@[simp] theorem setPortOut_stopTaken (x : PlaceState) (s : State) : (setPortOut x s).stopTaken = s.stopTaken := by
  unfold setPortOut
  (try dsimp only) <;> (repeat' split) <;> (try simp)

@[simp] theorem setPortIn_stopTaken (x : PlaceState) (s : State) : (setPortIn x s).stopTaken = s.stopTaken := by
  unfold setPortIn
  (try dsimp only) <;> (repeat' split) <;> (try simp)

@[simp] theorem stampStart_stopTaken (s : State) : (stampStart s).stopTaken = s.stopTaken := by
  unfold stampStart
  (try dsimp only) <;> (repeat' split) <;> (try simp)

@[simp] theorem reportStart_stopTaken (m : Move) (s : State) : (reportStart m s).stopTaken = s.stopTaken := by
  unfold reportStart
  (try dsimp only) <;> (repeat' split) <;> (try simp)

@[simp] theorem startMove_stopTaken (m : Move) (s : State) : (startMove m s).stopTaken = s.stopTaken := by
  unfold startMove
  (try dsimp only) <;> (repeat' split) <;> (try simp)

@[simp] theorem holdDeliver_stopTaken (m : Move) (s : State) : (holdDeliver m s).stopTaken = s.stopTaken := by
  unfold holdDeliver
  (try dsimp only) <;> (repeat' split) <;> (try simp)

@[simp] theorem stageContinuation_stopTaken (m : Move) (s : State) : (stageContinuation m s).stopTaken = s.stopTaken := by
  unfold stageContinuation
  (try dsimp only) <;> (repeat' split) <;> (try simp)

@[simp] theorem makeCurrent_stopTaken (kind : MoveKind) (target : Target) (visit : Option Nat) (bound : Bool) (s : State) : (makeCurrent kind target visit bound s).stopTaken = s.stopTaken := by
  unfold makeCurrent
  (try dsimp only) <;> (repeat' split) <;> (try simp)

@[simp] theorem discardStaged_stopTaken (s : State) : (discardStaged s).stopTaken = s.stopTaken := by
  unfold discardStaged
  (try dsimp only) <;> (repeat' split) <;> (try simp)

@[simp] theorem storeBlocked_stopTaken (bin : Nat) (slot : SlotName) (s : State) : (storeBlocked bin slot s).stopTaken = s.stopTaken := by
  unfold storeBlocked
  (try dsimp only) <;> (repeat' split) <;> (try simp)

@[simp] theorem makeStore_stopTaken (bin : Nat) (s : State) : (makeStore bin s).stopTaken = s.stopTaken := by
  unfold makeStore
  (try dsimp only) <;> (repeat' split) <;> (try simp)

@[simp] theorem nextMove_stopTaken (s : State) : (nextMove s).stopTaken = s.stopTaken := by
  unfold nextMove
  (try dsimp only) <;> (repeat' split) <;> (try simp)

@[simp] theorem park_stopTaken (s : State) : (park s).stopTaken = s.stopTaken := by
  unfold park
  (try dsimp only) <;> (repeat' split) <;> (try simp)

@[simp] theorem promote_stopTaken (s : State) : (promote s).stopTaken = s.stopTaken := by
  unfold promote
  (try dsimp only) <;> (repeat' split) <;> (try simp)

@[simp] theorem afterCompletion_stopTaken (s : State) : (afterCompletion s).stopTaken = s.stopTaken := by
  unfold afterCompletion
  (try dsimp only) <;> (repeat' split) <;> (try simp)

@[simp] theorem storeBin_stopTaken (bin : Nat) (content : Option Contents) (room : Option (Nat × Nat)) (s : State) : (storeBin bin content room s).stopTaken = s.stopTaken := by
  unfold storeBin
  (try dsimp only) <;> (repeat' split) <;> (try simp)

@[simp] theorem carryFetched_stopTaken (bin : Nat) (visit : Option Nat) (uncertain : Bool) (d : Directory) (s : State) : (carryFetched bin visit uncertain d s).stopTaken = s.stopTaken := by
  unfold carryFetched
  (try dsimp only) <;> (repeat' split) <;> (try simp)

@[simp] theorem abandonFetch_stopTaken (m : Move) (s : State) : (abandonFetch m s).stopTaken = s.stopTaken := by
  unfold abandonFetch
  (try dsimp only) <;> (repeat' split) <;> (try simp)

@[simp] theorem abandonDeliver_stopTaken (m : Move) (s : State) : (abandonDeliver m s).stopTaken = s.stopTaken := by
  unfold abandonDeliver
  (try dsimp only) <;> (repeat' split) <;> (try simp)

@[simp] theorem abandonTakeIn_stopTaken (s : State) : (abandonTakeIn s).stopTaken = s.stopTaken := by
  unfold abandonTakeIn
  (try dsimp only) <;> (repeat' split) <;> (try simp)

@[simp] theorem abandonStore_stopTaken (s : State) : (abandonStore s).stopTaken = s.stopTaken := by
  unfold abandonStore
  (try dsimp only) <;> (repeat' split) <;> (try simp)

@[simp] theorem abandonMove_stopTaken (s : State) : (abandonMove s).stopTaken = s.stopTaken := by
  unfold abandonMove
  (try dsimp only) <;> (repeat' split) <;> (try simp)

@[simp] theorem stall_stopTaken (m : Move) (s : State) : (stall m s).stopTaken = s.stopTaken := by
  unfold stall
  (try dsimp only) <;> (repeat' split) <;> (try simp)

@[simp] theorem loadFault_stopTaken (bin : Nat) (s : State) : (loadFault bin s).stopTaken = s.stopTaken := by
  unfold loadFault
  (try dsimp only) <;> (repeat' split) <;> (try simp)

@[simp] theorem resolveLoad_stopTaken (s : State) : (resolveLoad s).2.stopTaken = s.stopTaken := by
  unfold resolveLoad
  (try dsimp only) <;> (repeat' split) <;> (try simp)

@[simp] theorem portOutEmptied_stopTaken (s : State) : (portOutEmptied s).stopTaken = s.stopTaken := by
  unfold portOutEmptied
  (try dsimp only) <;> (repeat' split) <;> (try simp)

@[simp] theorem dropWaiting_stopTaken (s : State) : (dropWaiting s).stopTaken = s.stopTaken := by
  unfold dropWaiting
  (try dsimp only) <;> (repeat' split) <;> (try simp)

@[simp] theorem craneEntersFire_stopTaken (s : State) : (craneEntersFire s).stopTaken = s.stopTaken := by
  unfold craneEntersFire
  (try dsimp only) <;> (repeat' split) <;> (try simp)

@[simp] theorem unpark_stopTaken (s : State) : (unpark s).stopTaken = s.stopTaken := by
  unfold unpark
  (try dsimp only) <;> (repeat' split) <;> (try simp)

@[simp] theorem craneStop_stopTaken (s : State) : (craneStop s).stopTaken = s.stopTaken := by
  unfold craneStop
  (try dsimp only) <;> (repeat' split) <;> (try simp)

@[simp] theorem chooseAt_stopTaken (s : State) (order : Nat) : (chooseAt s order).2.stopTaken = s.stopTaken := by
  unfold chooseAt
  (try dsimp only) <;> (repeat' split) <;> (try simp)

@[simp] theorem stageFree_stopTaken (w : Work) (s : State) : (stageFree w s).stopTaken = s.stopTaken := by
  unfold stageFree
  (try dsimp only) <;> (repeat' split) <;> (try simp)

@[simp] theorem giveFree_stopTaken (w : Work) (s : State) : (giveFree w s).stopTaken = s.stopTaken := by
  unfold giveFree
  (try dsimp only) <;> (repeat' split) <;> (try simp)

@[simp] theorem selectAmong_stopTaken (orders : List Nat) (give : Work → State → State) (h : ∀ w s, (give w s).stopTaken = s.stopTaken)
    (s : State) : (selectAmong orders give s).stopTaken = s.stopTaken := by
  unfold selectAmong
  split
  · next o _ =>
    have hc := chooseAt_stopTaken s o
    split <;> simp_all
  · rfl

@[simp] theorem giveBack_stopTaken (m : Move) (s : State) : (giveBack m s).stopTaken = s.stopTaken := by
  unfold giveBack
  (try dsimp only) <;> (repeat' split) <;> (try simp)

@[simp] theorem displace_stopTaken (m : Move) (s : State) : (displace m s).stopTaken = s.stopTaken := by
  unfold displace
  (try dsimp only) <;> (repeat' split) <;> (try simp)

@[simp] theorem selectWork_stopTaken (s : State) : (selectWork s).stopTaken = s.stopTaken := by
  unfold selectWork
  (try dsimp only) <;> (repeat' split) <;> (try simp)

@[simp] theorem setLane_stopTaken (l : Lane) (v : PlaceState) (s : State) : (setLane l v s).stopTaken = s.stopTaken := by
  unfold setLane
  (try dsimp only) <;> (repeat' split) <;> (try simp)

@[simp] theorem setOut_stopTaken (l : Lane) (v : Option Handoff) (s : State) : (setOut l v s).stopTaken = s.stopTaken := by
  unfold setOut
  (try dsimp only) <;> (repeat' split) <;> (try simp)

@[simp] theorem setIncoming_stopTaken (l : Lane) (v : Option Handoff) (s : State) : (setIncoming l v s).stopTaken = s.stopTaken := by
  unfold setIncoming
  (try dsimp only) <;> (repeat' split) <;> (try simp)

@[simp] theorem clearRetry_stopTaken (l : Lane) (s : State) : (clearRetry l s).stopTaken = s.stopTaken := by
  unfold clearRetry
  (try dsimp only) <;> (repeat' split) <;> (try simp)

@[simp] theorem driveLane_stopTaken (l : Lane) (on : Bool) (s : State) : (driveLane l on s).stopTaken = s.stopTaken := by
  unfold driveLane
  (try dsimp only) <;> (repeat' split) <;> (try simp)

@[simp] theorem handoffLost_stopTaken (bin peer : Nat) (place : PlaceCode) (hop : Nat) (s : State) : (handoffLost bin peer place hop s).stopTaken = s.stopTaken := by
  unfold handoffLost
  (try dsimp only) <;> (repeat' split) <;> (try simp)

@[simp] theorem grantPortOut_stopTaken (s : State) : (grantPortOut s).stopTaken = s.stopTaken := by
  unfold grantPortOut
  (try dsimp only) <;> (repeat' split) <;> (try simp)

@[simp] theorem keepDown_stopTaken (s : State) : (keepDown s).stopTaken = s.stopTaken := by
  unfold keepDown
  (try dsimp only) <;> (repeat' split) <;> (try simp)

@[simp] theorem mergeArbiter_stopTaken (s : State) : (mergeArbiter s).stopTaken = s.stopTaken := by
  unfold mergeArbiter
  (try dsimp only) <;> (repeat' split) <;> (try simp)

@[simp] theorem noteFree_stopTaken (bin : Nat) (visit : Option Nat) (s : State) : (noteFree bin visit s).stopTaken = s.stopTaken := by
  unfold noteFree
  (try dsimp only) <;> (repeat' split) <;> (try simp)

@[simp] theorem handOver_stopTaken (bin : Nat) (visit : Option Nat) (s : State) : (handOver bin visit s).stopTaken = s.stopTaken := by
  unfold handOver
  (try dsimp only) <;> (repeat' split) <;> (try simp)

@[simp] theorem offerLane_stopTaken (l : Lane) (s : State) : (offerLane l s).stopTaken = s.stopTaken := by
  unfold offerLane
  (try dsimp only) <;> (repeat' split) <;> (try simp)

@[simp] theorem withdrawOffer_stopTaken (l : Lane) (s : State) : (withdrawOffer l s).stopTaken = s.stopTaken := by
  unfold withdrawOffer
  (try dsimp only) <;> (repeat' split) <;> (try simp)

@[simp] theorem offerOutcome_stopTaken (l : Lane) (peer : Nat) (heard : Bool) (s : State) : (offerOutcome l peer heard s).stopTaken = s.stopTaken := by
  unfold offerOutcome
  (try dsimp only) <;> (repeat' split) <;> (try simp)

@[simp] theorem acceptOffer_stopTaken (l : Lane) (sender : Nat) (r : TravelRecord) (s : State) : (acceptOffer l sender r s).stopTaken = s.stopTaken := by
  unfold acceptOffer
  (try dsimp only) <;> (repeat' split) <;> (try simp)

@[simp] theorem noRoom_stopTaken (l : Lane) (r : TravelRecord) (s : State) : (noRoom l r s).stopTaken = s.stopTaken := by
  unfold noRoom
  (try dsimp only) <;> (repeat' split) <;> (try simp)

@[simp] theorem mergeWins_stopTaken (s : State) : (mergeWins s).stopTaken = s.stopTaken := by
  unfold mergeWins
  (try dsimp only) <;> (repeat' split) <;> (try simp)

@[simp] theorem hearOffer_stopTaken (sender : Nat) (r : TravelRecord) (s : State) : (hearOffer sender r s).2.stopTaken = s.stopTaken := by
  unfold hearOffer
  (try dsimp only) <;> (repeat' split) <;> (try simp)

@[simp] theorem startDiversion_stopTaken (r : TravelRecord) (s : State) : (startDiversion r s).stopTaken = s.stopTaken := by
  unfold startDiversion
  (try dsimp only) <;> (repeat' split) <;> (try simp)

@[simp] theorem beginDiversion_stopTaken (r : TravelRecord) (s : State) : (beginDiversion r s).stopTaken = s.stopTaken := by
  unfold beginDiversion
  split <;> simp

@[simp] theorem blockUp_stopTaken (r : TravelRecord) (slot : SlotName) (s : State) : (blockUp r slot s).stopTaken = s.stopTaken := by
  unfold blockUp
  (try dsimp only) <;> (repeat' split) <;> (try simp)

@[simp] theorem divert_stopTaken (r : TravelRecord) (s : State) : (divert r s).stopTaken = s.stopTaken := by
  unfold divert
  (try dsimp only) <;> (repeat' split) <;> (try simp)

@[simp] theorem diversionCheck_stopTaken (s : State) : (diversionCheck s).stopTaken = s.stopTaken := by
  unfold diversionCheck
  (try dsimp only) <;> (repeat' split) <;> (try simp)

@[simp] theorem fireDiversion_stopTaken (s : State) : (fireDiversion s).stopTaken = s.stopTaken := by
  unfold fireDiversion
  (try dsimp only) <;> (repeat' split) <;> (try simp)

@[simp] theorem unannounced_stopTaken (place : SpinePlace) (s : State) : (unannounced place s).stopTaken = s.stopTaken := by
  unfold unannounced
  (try dsimp only) <;> (repeat' split) <;> (try simp)

@[simp] theorem mergeArrives_stopTaken (s : State) : (mergeArrives s).stopTaken = s.stopTaken := by
  unfold mergeArrives
  (try dsimp only) <;> (repeat' split) <;> (try simp)

@[simp] theorem laneArrives_stopTaken (l : Lane) (h : Handoff) (s : State) : (laneArrives l h s).stopTaken = s.stopTaken := by
  unfold laneArrives
  (try dsimp only) <;> (repeat' split) <;> (try simp)

@[simp] theorem diversionArrives_stopTaken (s : State) : (diversionArrives s).stopTaken = s.stopTaken := by
  unfold diversionArrives
  (try dsimp only) <;> (repeat' split) <;> (try simp)

@[simp] theorem laneEntry_stopTaken (l : Lane) (s : State) : (laneEntry l s).stopTaken = s.stopTaken := by
  unfold laneEntry
  (try dsimp only) <;> (repeat' split) <;> (try simp)

@[simp] theorem entryReport_stopTaken (place : SpinePlace) (s : State) : (entryReport place s).stopTaken = s.stopTaken := by
  unfold entryReport
  (try dsimp only) <;> (repeat' split) <;> (try simp)

@[simp] theorem positionReport_stopTaken (place : SpinePlace) (s : State) : (positionReport place s).stopTaken = s.stopTaken := by
  unfold positionReport
  (try dsimp only) <;> (repeat' split) <;> (try simp)

@[simp] theorem takenLane_stopTaken (l : Lane) (b : TakenBody) (s : State) : (takenLane l b s).stopTaken = s.stopTaken := by
  unfold takenLane
  (try dsimp only) <;> (repeat' split) <;> (try simp)

@[simp] theorem completeVisit_stopTaken (v : Visit) (s : State) : (completeVisit v s).stopTaken = s.stopTaken := by
  unfold completeVisit
  (try dsimp only) <;> (repeat' split) <;> (try simp)

@[simp] theorem deskTakes_stopTaken (b : TakenBody) (s : State) : (deskTakes b s).stopTaken = s.stopTaken := by
  unfold deskTakes
  (try dsimp only) <;> (repeat' split) <;> (try simp)

@[simp] theorem hearTaken_stopTaken (b : TakenBody) (s : State) : (hearTaken b s).stopTaken = s.stopTaken := by
  unfold hearTaken
  (try dsimp only) <;> (repeat' split) <;> (try simp)

@[simp] theorem loseHome_stopTaken (r : TravelRecord) (s : State) : (loseHome r s).stopTaken = s.stopTaken := by
  unfold loseHome
  (try dsimp only) <;> (repeat' split) <;> (try simp)

@[simp] theorem outExpires_stopTaken (l : Lane) (h : Handoff) (s : State) : (outExpires l h s).stopTaken = s.stopTaken := by
  unfold outExpires
  (try dsimp only) <;> (repeat' split) <;> (try simp)

@[simp] theorem diversionExpires_stopTaken (h : Handoff) (s : State) : (diversionExpires h s).stopTaken = s.stopTaken := by
  unfold diversionExpires
  (try dsimp only) <;> (repeat' split) <;> (try simp)

@[simp] theorem inExpires_stopTaken (l : Lane) (s : State) : (inExpires l s).stopTaken = s.stopTaken := by
  unfold inExpires
  (try dsimp only) <;> (repeat' split) <;> (try simp)

@[simp] theorem mergeExpires_stopTaken (h : Handoff) (s : State) : (mergeExpires h s).stopTaken = s.stopTaken := by
  unfold mergeExpires
  (try dsimp only) <;> (repeat' split) <;> (try simp)

@[simp] theorem mergeWaitExpires_stopTaken (s : State) : (mergeWaitExpires s).stopTaken = s.stopTaken := by
  unfold mergeWaitExpires
  (try dsimp only) <;> (repeat' split) <;> (try simp)

@[simp] theorem hearHandoffLost_stopTaken (sender : Nat) (b : FaultBody) (s : State) : (hearHandoffLost sender b s).stopTaken = s.stopTaken := by
  unfold hearHandoffLost
  (try dsimp only) <;> (repeat' split) <;> (try simp)

@[simp] theorem lowerCaught_stopTaken (sender bin : Nat) (s : State) : (lowerCaught sender bin s).stopTaken = s.stopTaken := by
  unfold lowerCaught
  (try dsimp only) <;> (repeat' split) <;> (try simp)

@[simp] theorem hearBinCaught_stopTaken (sender : Nat) (b : FaultBody) (s : State) : (hearBinCaught sender b s).stopTaken = s.stopTaken := by
  unfold hearBinCaught
  (try dsimp only) <;> (repeat' split) <;> (try simp)

@[simp] theorem dropKept_stopTaken (kept : Option TravelRecord) (s : State) : (dropKept kept s).stopTaken = s.stopTaken := by
  unfold dropKept
  (try dsimp only) <;> (repeat' split) <;> (try simp)

@[simp] theorem clearPlace_stopTaken (place : SpinePlace) (s : State) : (clearPlace place s).stopTaken = s.stopTaken := by
  unfold clearPlace
  (try dsimp only) <;> (repeat' split) <;> (try simp)

@[simp] theorem clearBlocked_stopTaken (s : State) : (clearBlocked s).stopTaken = s.stopTaken := by
  unfold clearBlocked
  (try dsimp only) <;> (repeat' split) <;> (try simp)

@[simp] theorem binCaught_stopTaken (r : TravelRecord) (place : PlaceCode) (s : State) : (binCaught r place s).stopTaken = s.stopTaken := by
  unfold binCaught
  (try dsimp only) <;> (repeat' split) <;> (try simp)

@[simp] theorem catchDown_stopTaken (s : State) : (catchDown s).stopTaken = s.stopTaken := by
  unfold catchDown
  (try dsimp only) <;> (repeat' split) <;> (try simp)

@[simp] theorem catchUp_stopTaken (s : State) : (catchUp s).stopTaken = s.stopTaken := by
  unfold catchUp
  (try dsimp only) <;> (repeat' split) <;> (try simp)

@[simp] theorem hearRoomCall_stopTaken (sender : Nat) (b : RoomCallBody) (s : State) : (hearRoomCall sender b s).stopTaken = s.stopTaken := by
  unfold hearRoomCall
  (try dsimp only) <;> (repeat' split) <;> (try simp)

@[simp] theorem beginEvaluation_stopTaken (s : State) : (beginEvaluation s).stopTaken = s.stopTaken := by
  unfold beginEvaluation
  (try dsimp only) <;> (repeat' split) <;> (try simp)

@[simp] theorem bidFor_stopTaken (c : CallEntry) (cost b : Nat) (s : State) : (bidFor c cost b s).stopTaken = s.stopTaken := by
  unfold bidFor
  (try dsimp only) <;> (repeat' split) <;> (try simp)

@[simp] theorem evaluationDone_stopTaken (s : State) : (evaluationDone s).stopTaken = s.stopTaken := by
  unfold evaluationDone
  (try dsimp only) <;> (repeat' split) <;> (try simp)

@[simp] theorem hearBid_stopTaken (b : BidBody) (s : State) : (hearBid b s).stopTaken = s.stopTaken := by
  unfold hearBid
  (try dsimp only) <;> (repeat' split) <;> (try simp)

@[simp] theorem beginClaim_stopTaken (e : CallEntry) (s : State) : (beginClaim e s).stopTaken = s.stopTaken := by
  unfold beginClaim
  (try dsimp only) <;> (repeat' split) <;> (try simp)

@[simp] theorem windowExpires_stopTaken (e : CallEntry) (s : State) : (windowExpires e s).stopTaken = s.stopTaken := by
  unfold windowExpires
  (try dsimp only) <;> (repeat' split) <;> (try simp)

@[simp] theorem hearClaim_stopTaken (b : ClaimBody) (s : State) : (hearClaim b s).stopTaken = s.stopTaken := by
  unfold hearClaim
  (try dsimp only) <;> (repeat' split) <;> (try simp)

@[simp] theorem claimOutcome_stopTaken (c : Call) (heard : Bool) (s : State) : (claimOutcome c heard s).stopTaken = s.stopTaken := by
  unfold claimOutcome
  (try dsimp only) <;> (repeat' split) <;> (try simp)

@[simp] theorem callSent_stopTaken (c : Call) (st : CallState) (s : State) : (callSent c st s).stopTaken = s.stopTaken := by
  unfold callSent
  (try dsimp only) <;> (repeat' split) <;> (try simp)

@[simp] theorem retestRoute_stopTaken (s : State) : (retestRoute s).stopTaken = s.stopTaken := by
  unfold retestRoute
  (try dsimp only) <;> (repeat' split) <;> (try simp)

@[simp] theorem leaveWorking_stopTaken (old : Mode) (s : State) : (leaveWorking old s).stopTaken = s.stopTaken := by
  unfold leaveWorking
  (try dsimp only) <;> (repeat' split) <;> (try simp)

@[simp] theorem enterFire_stopTaken (old : Mode) (s : State) : (enterFire old s).stopTaken = s.stopTaken := by
  unfold enterFire
  (try dsimp only) <;> (repeat' split) <;> (try simp)

@[simp] theorem deriveMode_stopTaken (s : State) : (deriveMode s).stopTaken = s.stopTaken := by
  unfold deriveMode
  (try dsimp only) <;> (repeat' split) <;> (try simp)

@[simp] theorem fireFrame_stopTaken (item : Item) (o : Owner) (s : State) : (fireFrame item o s).stopTaken = s.stopTaken := by
  unfold fireFrame
  (try dsimp only) <;> (repeat' split) <;> (try simp)

@[simp] theorem setShutter_stopTaken (x : Shutter) (s : State) : (setShutter x s).stopTaken = s.stopTaken := by
  unfold setShutter
  (try dsimp only) <;> (repeat' split) <;> (try simp)

@[simp] theorem startClearing_stopTaken (x : Shutter) (s : State) : (startClearing x s).stopTaken = s.stopTaken := by
  unfold startClearing
  (try dsimp only) <;> (repeat' split) <;> (try simp)

@[simp] theorem shutterProcedure_stopTaken (s : State) : (shutterProcedure s).stopTaken = s.stopTaken := by
  unfold shutterProcedure
  (try dsimp only) <;> (repeat' split) <;> (try simp)

@[simp] theorem startClosing_stopTaken (x : Shutter) (s : State) : (startClosing x s).stopTaken = s.stopTaken := by
  unfold startClosing
  (try dsimp only) <;> (repeat' split) <;> (try simp)

@[simp] theorem disownClosing_stopTaken (s : State) : (disownClosing s).stopTaken = s.stopTaken := by
  unfold disownClosing
  (try dsimp only) <;> (repeat' split) <;> (try simp)

@[simp] theorem dropClosing_stopTaken (s : State) : (dropClosing s).stopTaken = s.stopTaken := by
  unfold dropClosing
  (try dsimp only) <;> (repeat' split) <;> (try simp)

@[simp] theorem clearCheck_stopTaken (s : State) : (clearCheck s).stopTaken = s.stopTaken := by
  unfold clearCheck
  (try dsimp only) <;> (repeat' split) <;> (try simp)

@[simp] theorem closingOutcome_stopTaken (heard : Bool) (s : State) : (closingOutcome heard s).stopTaken = s.stopTaken := by
  unfold closingOutcome
  (try dsimp only) <;> (repeat' split) <;> (try simp)

@[simp] theorem forceClose_stopTaken (x : Shutter) (s : State) : (forceClose x s).stopTaken = s.stopTaken := by
  unfold forceClose
  (try dsimp only) <;> (repeat' split) <;> (try simp)

@[simp] theorem closeLimitExpires_stopTaken (s : State) : (closeLimitExpires s).stopTaken = s.stopTaken := by
  unfold closeLimitExpires
  (try dsimp only) <;> (repeat' split) <;> (try simp)

@[simp] theorem shutterClosed_stopTaken (s : State) : (shutterClosed s).stopTaken = s.stopTaken := by
  unfold shutterClosed
  (try dsimp only) <;> (repeat' split) <;> (try simp)

@[simp] theorem becomeOpen_stopTaken (x : Shutter) (s : State) : (becomeOpen x s).stopTaken = s.stopTaken := by
  unfold becomeOpen
  (try dsimp only) <;> (repeat' split) <;> (try simp)

@[simp] theorem shutterOpened_stopTaken (s : State) : (shutterOpened s).stopTaken = s.stopTaken := by
  unfold shutterOpened
  (try dsimp only) <;> (repeat' split) <;> (try simp)

@[simp] theorem shutterFault_stopTaken (d : ShutterDir) (x : Shutter) (s : State) : (shutterFault d x s).stopTaken = s.stopTaken := by
  unfold shutterFault
  (try dsimp only) <;> (repeat' split) <;> (try simp)

@[simp] theorem driveLimitExpires_stopTaken (s : State) : (driveLimitExpires s).stopTaken = s.stopTaken := by
  unfold driveLimitExpires
  (try dsimp only) <;> (repeat' split) <;> (try simp)

@[simp] theorem reopen_stopTaken (s : State) : (reopen s).stopTaken = s.stopTaken := by
  unfold reopen
  (try dsimp only) <;> (repeat' split) <;> (try simp)

@[simp] theorem endFoundShut_stopTaken (c : Compartment) (s : State) : (endFoundShut c s).stopTaken = s.stopTaken := by
  unfold endFoundShut
  (try dsimp only) <;> (repeat' split) <;> (try simp)

@[simp] theorem safeCheck_stopTaken (s : State) : (safeCheck s).stopTaken = s.stopTaken := by
  unfold safeCheck
  (try dsimp only) <;> (repeat' split) <;> (try simp)

@[simp] theorem setAlarm_stopTaken (c : Compartment) (r : AlarmRec) (s : State) : (setAlarm c r s).stopTaken = s.stopTaken := by
  unfold setAlarm
  (try dsimp only) <;> (repeat' split) <;> (try simp)

@[simp] theorem alarmRaised_stopTaken (c : Compartment) (s : State) : (alarmRaised c s).stopTaken = s.stopTaken := by
  unfold alarmRaised
  (try dsimp only) <;> (repeat' split) <;> (try simp)

@[simp] theorem queueAlarm_stopTaken (c : Compartment) (epoch : Nat) (i : FireInput) (s : State) : (queueAlarm c epoch i s).stopTaken = s.stopTaken := by
  unfold queueAlarm
  (try dsimp only) <;> (repeat' split) <;> (try simp)

@[simp] theorem localCause_stopTaken (i : FireInput) (s : State) : (localCause i s).stopTaken = s.stopTaken := by
  unfold localCause
  (try dsimp only) <;> (repeat' split) <;> (try simp)

@[simp] theorem hearAlarm_stopTaken (b : AlarmBody) (s : State) : (hearAlarm b s).stopTaken = s.stopTaken := by
  unfold hearAlarm
  (try dsimp only) <;> (repeat' split) <;> (try simp)

@[simp] theorem setFilter_stopTaken (i : FireInput) (x : InputFilter) (s : State) : (setFilter i x s).stopTaken = s.stopTaken := by
  unfold setFilter
  (try dsimp only) <;> (repeat' split) <;> (try simp)

@[simp] theorem reraise_stopTaken (s : State) : (reraise s).stopTaken = s.stopTaken := by
  unfold reraise
  (try dsimp only) <;> (repeat' split) <;> (try simp)

@[simp] theorem spineResumes_stopTaken (s : State) : (spineResumes s).stopTaken = s.stopTaken := by simp [spineResumes]

@[simp] theorem restoreEffects_stopTaken (c : Compartment) (s : State) : (restoreEffects c s).stopTaken = s.stopTaken := by
  unfold restoreEffects
  (try dsimp only) <;> (repeat' split) <;> (try simp)

@[simp] theorem hearRestore_stopTaken (b : RestoreBody) (s : State) : (hearRestore b s).2.stopTaken = s.stopTaken := by
  unfold hearRestore
  (try dsimp only) <;> (repeat' split) <;> (try simp)

@[simp] theorem inputReadsActive_stopTaken (i : FireInput) (s : State) : (inputReadsActive i s).stopTaken = s.stopTaken := by
  unfold inputReadsActive
  (try dsimp only) <;> (repeat' split) <;> (try simp)

@[simp] theorem inputReadsInactive_stopTaken (i : FireInput) (s : State) : (inputReadsInactive i s).stopTaken = s.stopTaken := by
  unfold inputReadsInactive
  (try dsimp only) <;> (repeat' split) <;> (try simp)

@[simp] theorem filterExpires_stopTaken (i : FireInput) (s : State) : (filterExpires i s).stopTaken = s.stopTaken := by
  unfold filterExpires
  (try dsimp only) <;> (repeat' split) <;> (try simp)

@[simp] theorem settle_stopTaken (s : State) : (settle s).stopTaken = s.stopTaken := by
  unfold settle
  (try dsimp only) <;> (repeat' split) <;> (try simp)

@[simp] theorem stockRefused_stopTaken (r : StockReason) (slot : SlotName) (bin : Nat) (s : State) : (stockRefused r slot bin s).stopTaken = s.stopTaken := by
  unfold stockRefused
  (try dsimp only) <;> (repeat' split) <;> (try simp)

@[simp] theorem gateNotice_stopTaken (a : Answers) (i : Item) (s : State) : (gateNotice a i s).2.stopTaken = s.stopTaken := by
  unfold gateNotice
  (try dsimp only) <;> (repeat' split) <;> (try simp)

@[simp] theorem lendJoins_stopTaken (b : LendBody) (w : Visit) (s : State) : (lendJoins b w s).stopTaken = s.stopTaken := by
  unfold lendJoins
  (try dsimp only) <;> (repeat' split) <;> (try simp)

@[simp] theorem lendMakes_stopTaken (b : LendBody) (s : State) : (lendMakes b s).stopTaken = s.stopTaken := by
  unfold lendMakes
  (try dsimp only) <;> (repeat' split) <;> (try simp)

@[simp] theorem hearLend_stopTaken (b : LendBody) (s : State) : (hearLend b s).2.stopTaken = s.stopTaken := by
  unfold hearLend
  (try dsimp only) <;> (repeat' split) <;> (try simp)

@[simp] theorem withdrawStaged_stopTaken (n : Nat) (s : State) : (withdrawStaged n s).stopTaken = s.stopTaken := by
  unfold withdrawStaged
  (try dsimp only) <;> (repeat' split) <;> (try simp)

@[simp] theorem cancelListed_stopTaken (id : Nat) (v : Visit) (s : State) : (cancelListed id v s).stopTaken = s.stopTaken := by
  unfold cancelListed
  (try dsimp only) <;> (repeat' split) <;> (try simp)

@[simp] theorem cancelMarks_stopTaken (id : Nat) (s : State) : (cancelMarks id s).stopTaken = s.stopTaken := by
  unfold cancelMarks
  (try dsimp only) <;> (repeat' split) <;> (try simp)

@[simp] theorem hearCancel_stopTaken (id : Nat) (s : State) : (hearCancel id s).2.stopTaken = s.stopTaken := by
  unfold hearCancel
  (try dsimp only) <;> (repeat' split) <;> (try simp)

@[simp] theorem hearStockAt_stopTaken (n : SlotName) (s : State) : (hearStockAt n s).2.stopTaken = s.stopTaken := by
  unfold hearStockAt
  (try dsimp only) <;> (repeat' split) <;> (try simp)

@[simp] theorem binRemoved_stopTaken (bin : Nat) (why : FailReason) (s : State) : (binRemoved bin why s).stopTaken = s.stopTaken := by
  unfold binRemoved
  (try dsimp only) <;> (repeat' split) <;> (try simp)

@[simp] theorem stockApplied_stopTaken (sl : Slot) (b : StockBody) (s : State) : (stockApplied sl b s).stopTaken = s.stopTaken := by
  unfold stockApplied
  (try dsimp only) <;> (repeat' split) <;> (try simp)

@[simp] theorem hearStock_stopTaken (b : StockBody) (s : State) : (hearStock b s).2.stopTaken = s.stopTaken := by
  unfold hearStock
  (try dsimp only) <;> (repeat' split) <;> (try simp)

@[simp] theorem hearStockEnd_stopTaken (s : State) : (hearStockEnd s).stopTaken = s.stopTaken := by
  unfold hearStockEnd
  (try dsimp only) <;> (repeat' split) <;> (try simp)

@[simp] theorem hearWriteOff_stopTaken (bin : Nat) (s : State) : (hearWriteOff bin s).2.stopTaken = s.stopTaken := by
  unfold hearWriteOff
  (try dsimp only) <;> (repeat' split) <;> (try simp)

@[simp] theorem leaveHalt_stopTaken (s : State) : (leaveHalt s).stopTaken = s.stopTaken := by
  unfold leaveHalt
  (try dsimp only) <;> (repeat' split) <;> (try simp)

@[simp] theorem resumeSteps_stopTaken (s : State) : (resumeSteps s).stopTaken = s.stopTaken := by
  unfold resumeSteps
  (try dsimp only) <;> (repeat' split) <;> (try simp)

@[simp] theorem hearQuery_stopTaken (s : State) : (hearQuery s).stopTaken = s.stopTaken := by
  unfold hearQuery
  (try dsimp only) <;> (repeat' split) <;> (try simp)

@[simp] theorem hearFault_stopTaken (sender : Nat) (b : FaultBody) (s : State) : (hearFault sender b s).stopTaken = s.stopTaken := by
  unfold hearFault
  (try dsimp only) <;> (repeat' split) <;> (try simp)

@[simp] theorem enterNeighbour_stopTaken (h : Header) (s : State) : (enterNeighbour h s).stopTaken = s.stopTaken := by
  unfold enterNeighbour
  (try dsimp only) <;> (repeat' split) <;> (try simp)

@[simp] theorem setSlots_stopTaken (x : Bool × Bool) (s : State) : (setSlots x s).stopTaken = s.stopTaken := by
  unfold setSlots
  (try dsimp only) <;> (repeat' split) <;> (try simp)

@[simp] theorem reportSent_stopTaken (o : Owner) (s : State) : (reportSent o s).stopTaken = s.stopTaken := by
  unfold reportSent
  (try dsimp only) <;> (repeat' split) <;> (try simp)

@[simp] theorem frameWins_stopTaken (f : TxFrame) (q : List TxFrame) (s : State) : (frameWins f q s).stopTaken = s.stopTaken := by
  unfold frameWins
  (try dsimp only) <;> (repeat' split) <;> (try simp)

@[simp] theorem contend_stopTaken (rivals : List (Nat × Nat)) (s : State) : (contend rivals s).stopTaken = s.stopTaken := by
  unfold contend
  (try dsimp only) <;> (repeat' split) <;> (try simp)

@[simp] theorem reportOutcome_stopTaken (f : TxFrame) (o : TxOutcome) (s : State) : (reportOutcome f o s).stopTaken = s.stopTaken := by
  unfold reportOutcome
  (try dsimp only) <;> (repeat' split) <;> (try simp)

@[simp] theorem frameEnds_stopTaken (o : TxOutcome) (s : State) : (frameEnds o s).stopTaken = s.stopTaken := by
  unfold frameEnds
  (try dsimp only) <;> (repeat' split) <;> (try simp)

@[simp] theorem parkCompletes_stopTaken (s : State) : (parkCompletes s).stopTaken = s.stopTaken := by
  unfold parkCompletes
  (try dsimp only) <;> (repeat' split) <;> (try simp)

@[simp] theorem storeAgain_stopTaken (new : Slot) (s : State) : (storeAgain new s).stopTaken = s.stopTaken := by
  unfold storeAgain
  (try dsimp only) <;> (repeat' split) <;> (try simp)

@[simp] theorem slotConflictFault_stopTaken (bin : Nat) (old new : Slot) (s : State) : (slotConflictFault bin old new s).stopTaken = s.stopTaken := by
  unfold slotConflictFault
  (try dsimp only) <;> (repeat' split) <;> (try simp)

@[simp] theorem slotConflict_stopTaken (bin : Nat) (old : Slot) (s : State) : (slotConflict bin old s).stopTaken = s.stopTaken := by
  unfold slotConflict
  (try dsimp only) <;> (repeat' split) <;> (try simp)

@[simp] theorem storeInPosition_stopTaken (m : Move) (s : State) : (storeInPosition m s).stopTaken = s.stopTaken := by
  unfold storeInPosition
  (try dsimp only) <;> (repeat' split) <;> (try simp)

@[simp] theorem inPosition_stopTaken (s : State) : (inPosition s).stopTaken = s.stopTaken := by
  unfold inPosition
  (try dsimp only) <;> (repeat' split) <;> (try simp)

@[simp] theorem tagUnread_stopTaken (m : Move) (s : State) : (tagUnread m s).stopTaken = s.stopTaken := by
  unfold tagUnread
  (try dsimp only) <;> (repeat' split) <;> (try simp)

@[simp] theorem discardBound_stopTaken (s : State) : (discardBound s).stopTaken = s.stopTaken := by
  unfold discardBound
  (try dsimp only) <;> (repeat' split) <;> (try simp)

@[simp] theorem tagMismatch_stopTaken (m : Move) (x : Nat) (s : State) : (tagMismatch m x s).stopTaken = s.stopTaken := by
  unfold tagMismatch
  (try dsimp only) <;> (repeat' split) <;> (try simp)

@[simp] theorem forkTagRead_stopTaken (r : TagRead) (s : State) : (forkTagRead r s).stopTaken = s.stopTaken := by
  unfold forkTagRead
  (try dsimp only) <;> (repeat' split) <;> (try simp)

@[simp] theorem takeOutRefused_stopTaken (m : Move) (s : State) : (takeOutRefused m s).stopTaken = s.stopTaken := by
  unfold takeOutRefused
  (try dsimp only) <;> (repeat' split) <;> (try simp)

@[simp] theorem fetchDone_stopTaken (m : Move) (s : State) : (fetchDone m s).stopTaken = s.stopTaken := by
  unfold fetchDone
  (try dsimp only) <;> (repeat' split) <;> (try simp)

@[simp] theorem deliverDone_stopTaken (s : State) : (deliverDone s).stopTaken = s.stopTaken := by
  unfold deliverDone
  (try dsimp only) <;> (repeat' split) <;> (try simp)

@[simp] theorem takeInDone_stopTaken (s : State) : (takeInDone s).stopTaken = s.stopTaken := by
  unfold takeInDone
  (try dsimp only) <;> (repeat' split) <;> (try simp)

@[simp] theorem storeDone_stopTaken (s : State) : (storeDone s).stopTaken = s.stopTaken := by
  unfold storeDone
  (try dsimp only) <;> (repeat' split) <;> (try simp)

@[simp] theorem forkDone_stopTaken (s : State) : (forkDone s).stopTaken = s.stopTaken := by
  unfold forkDone
  (try dsimp only) <;> (repeat' split) <;> (try simp)

@[simp] theorem fireStopped_stopTaken (s : State) : (fireStopped s).stopTaken = s.stopTaken := by
  unfold fireStopped
  (try dsimp only) <;> (repeat' split) <;> (try simp)

@[simp] theorem stopStopped_stopTaken (s : State) : (stopStopped s).stopTaken = s.stopTaken := by
  unfold stopStopped
  (try dsimp only) <;> (repeat' split) <;> (try simp)

@[simp] theorem craneStopped_stopTaken (s : State) : (craneStopped s).stopTaken = s.stopTaken := by
  unfold craneStopped
  (try dsimp only) <;> (repeat' split) <;> (try simp)

@[simp] theorem budgetExpires_stopTaken (s : State) : (budgetExpires s).stopTaken = s.stopTaken := by
  unfold budgetExpires
  (try dsimp only) <;> (repeat' split) <;> (try simp)

@[simp] theorem storeBack_stopTaken (s : State) : (storeBack s).stopTaken = s.stopTaken := by
  unfold storeBack
  (try dsimp only) <;> (repeat' split) <;> (try simp)

@[simp] theorem portTagFails_stopTaken (r : TravelRecord) (id : Nat) (s : State) : (portTagFails r id s).stopTaken = s.stopTaken := by
  unfold portTagFails
  (try dsimp only) <;> (repeat' split) <;> (try simp)

@[simp] theorem portInTagRead_stopTaken (id : Option Nat) (s : State) : (portInTagRead id s).stopTaken = s.stopTaken := by
  unfold portInTagRead
  (try dsimp only) <;> (repeat' split) <;> (try simp)

@[simp] theorem transferOutExpires_stopTaken (l : Lane) (s : State) : (transferOutExpires l s).stopTaken = s.stopTaken := by
  unfold transferOutExpires
  (try dsimp only) <;> (repeat' split) <;> (try simp)

@[simp] theorem diversionTransferExpires_stopTaken (s : State) : (diversionTransferExpires s).stopTaken = s.stopTaken := by
  unfold diversionTransferExpires
  (try dsimp only) <;> (repeat' split) <;> (try simp)

@[simp] theorem mergeTransferExpires_stopTaken (s : State) : (mergeTransferExpires s).stopTaken = s.stopTaken := by
  unfold mergeTransferExpires
  (try dsimp only) <;> (repeat' split) <;> (try simp)

@[simp] theorem callWindowExpires_stopTaken (c : Call) (s : State) : (callWindowExpires c s).stopTaken = s.stopTaken := by
  unfold callWindowExpires
  (try dsimp only) <;> (repeat' split) <;> (try simp)

@[simp] theorem sweepBin_stopTaken (b : Nat) (s : State) : (sweepBin b s).stopTaken = s.stopTaken := by
  unfold sweepBin
  (try dsimp only) <;> (repeat' split) <;> (try simp)

@[simp] theorem overdueSweep_stopTaken (s : State) : (overdueSweep s).stopTaken = s.stopTaken := by
  unfold overdueSweep
  (try dsimp only) <;> (repeat' split) <;> (try simp)

@[simp] theorem closingRetryExpires_stopTaken (s : State) : (closingRetryExpires s).stopTaken = s.stopTaken := by
  unfold closingRetryExpires
  (try dsimp only) <;> (repeat' split) <;> (try simp)

end Sys2Proof.Machine
end

