-- ==== Sys2Proof/Laws/KeepsCrane.lean ====
section
/-! SUPPORT. The operations that leave the crane record as it is, one lemma for each. -/

namespace Sys2Proof.Machine
open Sys2Proof

@[simp] theorem foldl_crane {α : Type} (f : State → α → State) (h : ∀ s a, (f s a).crane = s.crane) (l : List α) (s : State) :
    (l.foldl f s).crane = s.crane := by
  induction l generalizing s with
  | nil => rfl
  | cons a l ih => simp [ih, h]

@[simp] theorem noteHeld_crane (h : Bool) (s : State) : (noteHeld h s).crane = s.crane := by
  unfold noteHeld
  (try dsimp only) <;> (repeat' split) <;> (try simp)

@[simp] theorem handBack_crane (n : Nat) (s : State) : (handBack n s).crane = s.crane := by
  unfold handBack
  (try dsimp only) <;> (repeat' split) <;> (try simp)

@[simp] theorem handBackLink_crane (link : Option Nat) (s : State) : (handBackLink link s).crane = s.crane := by
  unfold handBackLink
  (try dsimp only) <;> (repeat' split) <;> (try simp)

@[simp] theorem releaseBin_crane (bin : Nat) (s : State) : (releaseBin bin s).crane = s.crane := by
  unfold releaseBin
  (try dsimp only) <;> (repeat' split) <;> (try simp)

@[simp] theorem withholdBin_crane (bin : Nat) (s : State) : (withholdBin bin s).crane = s.crane := by
  unfold withholdBin
  (try dsimp only) <;> (repeat' split) <;> (try simp)

@[simp] theorem reportRoute_crane (isOpen : Bool) (s : State) : (reportRoute isOpen s).crane = s.crane := by
  unfold reportRoute
  (try dsimp only) <;> (repeat' split) <;> (try simp)

@[simp] theorem visitTo_crane (link : Option Nat) (st : VisitState) (s : State) : (visitTo link st s).crane = s.crane := by
  unfold visitTo
  (try dsimp only) <;> (repeat' split) <;> (try simp)

@[simp] theorem reserveEntry_crane (bin : Nat) (desk : Desk) (s : State) : (reserveEntry bin desk s).crane = s.crane := by
  unfold reserveEntry
  (try dsimp only) <;> (repeat' split) <;> (try simp)

@[simp] theorem dropReservation_crane (bin : Nat) (desk : Desk) (s : State) : (dropReservation bin desk s).crane = s.crane := by
  unfold dropReservation
  (try dsimp only) <;> (repeat' split) <;> (try simp)

@[simp] theorem takeRoomPart_crane (bin : Nat) (part : RoomPart) (s : State) : (takeRoomPart bin part s).crane = s.crane := by
  unfold takeRoomPart
  (try dsimp only) <;> (repeat' split) <;> (try simp)

@[simp] theorem clearStow_crane (s : State) : (clearStow s).crane = s.crane := by
  unfold clearStow
  (try dsimp only) <;> (repeat' split) <;> (try simp)

@[simp] theorem clearPassed_crane (s : State) : (clearPassed s).crane = s.crane := by
  unfold clearPassed
  (try dsimp only) <;> (repeat' split) <;> (try simp)

@[simp] theorem setStow_crane (st : StowState) (s : State) : (setStow st s).crane = s.crane := by
  unfold setStow
  (try dsimp only) <;> (repeat' split) <;> (try simp)

@[simp] theorem promoteStow_crane (s : State) : (promoteStow s).crane = s.crane := by
  unfold promoteStow
  (try dsimp only) <;> (repeat' split) <;> (try simp)

@[simp] theorem releaseEntry_crane (e : CallEntry) (s : State) : (releaseEntry e s).crane = s.crane := by
  unfold releaseEntry
  (try dsimp only) <;> (repeat' split) <;> (try simp)

@[simp] theorem unreserveEntry_crane (e : CallEntry) (s : State) : (unreserveEntry e s).crane = s.crane := by
  unfold unreserveEntry
  (try dsimp only) <;> (repeat' split) <;> (try simp)

@[simp] theorem bidRefused_crane (c : Call) (s : State) : (bidRefused c s).crane = s.crane := by
  unfold bidRefused
  (try dsimp only) <;> (repeat' split) <;> (try simp)

@[simp] theorem claimLost_crane (c : Call) (s : State) : (claimLost c s).crane = s.crane := by
  unfold claimLost
  (try dsimp only) <;> (repeat' split) <;> (try simp)

@[simp] theorem startRetry_crane (l : Lane) (s : State) : (startRetry l s).crane = s.crane := by
  unfold startRetry
  (try dsimp only) <;> (repeat' split) <;> (try simp)

@[simp] theorem startClosingRetry_crane (s : State) : (startClosingRetry s).crane = s.crane := by
  unfold startClosingRetry
  (try dsimp only) <;> (repeat' split) <;> (try simp)

@[simp] theorem frameRefused_crane (o : Owner) (s : State) : (frameRefused o s).crane = s.crane := by
  unfold frameRefused
  (try dsimp only) <;> (repeat' split) <;> (try simp)

@[simp] theorem queueFrame_crane (f : TxFrame) (s : State) : (queueFrame f s).crane = s.crane := by
  unfold queueFrame
  (try dsimp only) <;> (repeat' split) <;> (try simp)

@[simp] theorem notice_crane (items : List Item) (s : State) : (notice items s).crane = s.crane := by
  unfold notice
  (try dsimp only) <;> (repeat' split) <;> (try simp)

@[simp] theorem faultNotice_crane (b : FaultBody) (s : State) : (faultNotice b s).crane = s.crane := by
  unfold faultNotice
  (try dsimp only) <;> (repeat' split) <;> (try simp)

@[simp] theorem withdraw_crane (p : Owner → Bool) (s : State) : (withdraw p s).crane = s.crane := by
  unfold withdraw
  (try dsimp only) <;> (repeat' split) <;> (try simp)

@[simp] theorem requestFailed_crane (reason : FailReason) (kind : AnsweredKind) (bin : Nat) (desk : Option Desk) (requests : List (Nat × Nat)) (s : State) : (requestFailed reason kind bin desk requests s).crane = s.crane := by
  unfold requestFailed
  (try dsimp only) <;> (repeat' split) <;> (try simp)

@[simp] theorem requestDone_crane (bin : Nat) (desk : Desk) (requests : List (Nat × Nat)) (s : State) : (requestDone bin desk requests s).crane = s.crane := by
  unfold requestDone
  (try dsimp only) <;> (repeat' split) <;> (try simp)

@[simp] theorem failVisit_crane (n : Nat) (reason : FailReason) (release : Bool) (s : State) : (failVisit n reason release s).crane = s.crane := by
  unfold failVisit
  (try dsimp only) <;> (repeat' split) <;> (try simp)

@[simp] theorem failVisits_crane (bin : Nat) (reason : FailReason) (s : State) : (failVisits bin reason s).crane = s.crane := by
  unfold failVisits
  (try dsimp only) <;> (repeat' split) <;> (try simp)

@[simp] theorem closeCall_crane (c : Call) (s : State) : (closeCall c s).crane = s.crane := by
  unfold closeCall
  (try dsimp only) <;> (repeat' split) <;> (try simp)

@[simp] theorem closeCalls_crane (p : CallState → Bool) (s : State) : (closeCalls p s).crane = s.crane := by
  unfold closeCalls
  (try dsimp only) <;> (repeat' split) <;> (try simp)

@[simp] theorem closeCallsOfBin_crane (bin : Nat) (s : State) : (closeCallsOfBin bin s).crane = s.crane := by
  unfold closeCallsOfBin
  (try dsimp only) <;> (repeat' split) <;> (try simp)

@[simp] theorem askLeg_crane (a b : Pos) (fork : Bool) (s : State) : (askLeg a b fork s).2.crane = s.crane := by
  unfold askLeg
  (try dsimp only) <;> (repeat' split) <;> (try simp)

@[simp] theorem locateBin_crane (b : Nat) (loc : Location) (s : State) : (locateBin b loc s).crane = s.crane := by
  unfold locateBin
  (try dsimp only) <;> (repeat' split) <;> (try simp)

@[simp] theorem setPortOut_crane (x : PlaceState) (s : State) : (setPortOut x s).crane = s.crane := by
  unfold setPortOut
  (try dsimp only) <;> (repeat' split) <;> (try simp)

@[simp] theorem setPortIn_crane (x : PlaceState) (s : State) : (setPortIn x s).crane = s.crane := by
  unfold setPortIn
  (try dsimp only) <;> (repeat' split) <;> (try simp)

@[simp] theorem stampStart_crane (s : State) : (stampStart s).crane = s.crane := by
  unfold stampStart
  (try dsimp only) <;> (repeat' split) <;> (try simp)

@[simp] theorem reportStart_crane (m : Move) (s : State) : (reportStart m s).crane = s.crane := by
  unfold reportStart
  (try dsimp only) <;> (repeat' split) <;> (try simp)

@[simp] theorem storeBin_crane (bin : Nat) (content : Option Contents) (room : Option (Nat × Nat)) (s : State) : (storeBin bin content room s).crane = s.crane := by
  unfold storeBin
  (try dsimp only) <;> (repeat' split) <;> (try simp)

@[simp] theorem chooseAt_crane (s : State) (order : Nat) : (chooseAt s order).2.crane = s.crane := by
  unfold chooseAt
  (try dsimp only) <;> (repeat' split) <;> (try simp)

@[simp] theorem selectAmong_crane (orders : List Nat) (give : Work → State → State) (h : ∀ w s, (give w s).crane = s.crane)
    (s : State) : (selectAmong orders give s).crane = s.crane := by
  unfold selectAmong
  split
  · next o _ =>
    have hc := chooseAt_crane s o
    split <;> simp_all
  · rfl

@[simp] theorem giveBack_crane (m : Move) (s : State) : (giveBack m s).crane = s.crane := by
  unfold giveBack
  (try dsimp only) <;> (repeat' split) <;> (try simp)

@[simp] theorem setLane_crane (l : Lane) (v : PlaceState) (s : State) : (setLane l v s).crane = s.crane := by
  unfold setLane
  (try dsimp only) <;> (repeat' split) <;> (try simp)

@[simp] theorem setOut_crane (l : Lane) (v : Option Handoff) (s : State) : (setOut l v s).crane = s.crane := by
  unfold setOut
  (try dsimp only) <;> (repeat' split) <;> (try simp)

@[simp] theorem setIncoming_crane (l : Lane) (v : Option Handoff) (s : State) : (setIncoming l v s).crane = s.crane := by
  unfold setIncoming
  (try dsimp only) <;> (repeat' split) <;> (try simp)

@[simp] theorem clearRetry_crane (l : Lane) (s : State) : (clearRetry l s).crane = s.crane := by
  unfold clearRetry
  (try dsimp only) <;> (repeat' split) <;> (try simp)

@[simp] theorem driveLane_crane (l : Lane) (on : Bool) (s : State) : (driveLane l on s).crane = s.crane := by
  unfold driveLane
  (try dsimp only) <;> (repeat' split) <;> (try simp)

@[simp] theorem handoffLost_crane (bin peer : Nat) (place : PlaceCode) (hop : Nat) (s : State) : (handoffLost bin peer place hop s).crane = s.crane := by
  unfold handoffLost
  (try dsimp only) <;> (repeat' split) <;> (try simp)

@[simp] theorem grantPortOut_crane (s : State) : (grantPortOut s).crane = s.crane := by
  unfold grantPortOut
  (try dsimp only) <;> (repeat' split) <;> (try simp)

@[simp] theorem keepDown_crane (s : State) : (keepDown s).crane = s.crane := by
  unfold keepDown
  (try dsimp only) <;> (repeat' split) <;> (try simp)

@[simp] theorem mergeArbiter_crane (s : State) : (mergeArbiter s).crane = s.crane := by
  unfold mergeArbiter
  (try dsimp only) <;> (repeat' split) <;> (try simp)

@[simp] theorem noteFree_crane (bin : Nat) (visit : Option Nat) (s : State) : (noteFree bin visit s).crane = s.crane := by
  unfold noteFree
  (try dsimp only) <;> (repeat' split) <;> (try simp)

@[simp] theorem handOver_crane (bin : Nat) (visit : Option Nat) (s : State) : (handOver bin visit s).crane = s.crane := by
  unfold handOver
  (try dsimp only) <;> (repeat' split) <;> (try simp)

@[simp] theorem offerLane_crane (l : Lane) (s : State) : (offerLane l s).crane = s.crane := by
  unfold offerLane
  (try dsimp only) <;> (repeat' split) <;> (try simp)

@[simp] theorem withdrawOffer_crane (l : Lane) (s : State) : (withdrawOffer l s).crane = s.crane := by
  unfold withdrawOffer
  (try dsimp only) <;> (repeat' split) <;> (try simp)

@[simp] theorem offerOutcome_crane (l : Lane) (peer : Nat) (heard : Bool) (s : State) : (offerOutcome l peer heard s).crane = s.crane := by
  unfold offerOutcome
  (try dsimp only) <;> (repeat' split) <;> (try simp)

@[simp] theorem acceptOffer_crane (l : Lane) (sender : Nat) (r : TravelRecord) (s : State) : (acceptOffer l sender r s).crane = s.crane := by
  unfold acceptOffer
  (try dsimp only) <;> (repeat' split) <;> (try simp)

@[simp] theorem noRoom_crane (l : Lane) (r : TravelRecord) (s : State) : (noRoom l r s).crane = s.crane := by
  unfold noRoom
  (try dsimp only) <;> (repeat' split) <;> (try simp)

@[simp] theorem mergeWins_crane (s : State) : (mergeWins s).crane = s.crane := by
  unfold mergeWins
  (try dsimp only) <;> (repeat' split) <;> (try simp)

@[simp] theorem hearOffer_crane (sender : Nat) (r : TravelRecord) (s : State) : (hearOffer sender r s).2.crane = s.crane := by
  unfold hearOffer
  (try dsimp only) <;> (repeat' split) <;> (try simp)

@[simp] theorem startDiversion_crane (r : TravelRecord) (s : State) : (startDiversion r s).crane = s.crane := by
  unfold startDiversion
  (try dsimp only) <;> (repeat' split) <;> (try simp)

@[simp] theorem beginDiversion_crane (r : TravelRecord) (s : State) : (beginDiversion r s).crane = s.crane := by
  unfold beginDiversion
  split <;> simp

@[simp] theorem blockUp_crane (r : TravelRecord) (slot : SlotName) (s : State) : (blockUp r slot s).crane = s.crane := by
  unfold blockUp
  (try dsimp only) <;> (repeat' split) <;> (try simp)

@[simp] theorem divert_crane (r : TravelRecord) (s : State) : (divert r s).crane = s.crane := by
  unfold divert
  (try dsimp only) <;> (repeat' split) <;> (try simp)

@[simp] theorem diversionCheck_crane (s : State) : (diversionCheck s).crane = s.crane := by
  unfold diversionCheck
  (try dsimp only) <;> (repeat' split) <;> (try simp)

@[simp] theorem fireDiversion_crane (s : State) : (fireDiversion s).crane = s.crane := by
  unfold fireDiversion
  (try dsimp only) <;> (repeat' split) <;> (try simp)

@[simp] theorem unannounced_crane (place : SpinePlace) (s : State) : (unannounced place s).crane = s.crane := by
  unfold unannounced
  (try dsimp only) <;> (repeat' split) <;> (try simp)

@[simp] theorem laneArrives_crane (l : Lane) (h : Handoff) (s : State) : (laneArrives l h s).crane = s.crane := by
  unfold laneArrives
  (try dsimp only) <;> (repeat' split) <;> (try simp)

@[simp] theorem diversionArrives_crane (s : State) : (diversionArrives s).crane = s.crane := by
  unfold diversionArrives
  (try dsimp only) <;> (repeat' split) <;> (try simp)

@[simp] theorem positionReport_crane (place : SpinePlace) (s : State) : (positionReport place s).crane = s.crane := by
  unfold positionReport
  (try dsimp only) <;> (repeat' split) <;> (try simp)

@[simp] theorem takenLane_crane (l : Lane) (b : TakenBody) (s : State) : (takenLane l b s).crane = s.crane := by
  unfold takenLane
  (try dsimp only) <;> (repeat' split) <;> (try simp)

@[simp] theorem completeVisit_crane (v : Visit) (s : State) : (completeVisit v s).crane = s.crane := by
  unfold completeVisit
  (try dsimp only) <;> (repeat' split) <;> (try simp)

@[simp] theorem deskTakes_crane (b : TakenBody) (s : State) : (deskTakes b s).crane = s.crane := by
  unfold deskTakes
  (try dsimp only) <;> (repeat' split) <;> (try simp)

@[simp] theorem hearTaken_crane (b : TakenBody) (s : State) : (hearTaken b s).crane = s.crane := by
  unfold hearTaken
  (try dsimp only) <;> (repeat' split) <;> (try simp)

@[simp] theorem loseHome_crane (r : TravelRecord) (s : State) : (loseHome r s).crane = s.crane := by
  unfold loseHome
  (try dsimp only) <;> (repeat' split) <;> (try simp)

@[simp] theorem outExpires_crane (l : Lane) (h : Handoff) (s : State) : (outExpires l h s).crane = s.crane := by
  unfold outExpires
  (try dsimp only) <;> (repeat' split) <;> (try simp)

@[simp] theorem diversionExpires_crane (h : Handoff) (s : State) : (diversionExpires h s).crane = s.crane := by
  unfold diversionExpires
  (try dsimp only) <;> (repeat' split) <;> (try simp)

@[simp] theorem inExpires_crane (l : Lane) (s : State) : (inExpires l s).crane = s.crane := by
  unfold inExpires
  (try dsimp only) <;> (repeat' split) <;> (try simp)

@[simp] theorem mergeExpires_crane (h : Handoff) (s : State) : (mergeExpires h s).crane = s.crane := by
  unfold mergeExpires
  (try dsimp only) <;> (repeat' split) <;> (try simp)

@[simp] theorem mergeWaitExpires_crane (s : State) : (mergeWaitExpires s).crane = s.crane := by
  unfold mergeWaitExpires
  (try dsimp only) <;> (repeat' split) <;> (try simp)

@[simp] theorem hearHandoffLost_crane (sender : Nat) (b : FaultBody) (s : State) : (hearHandoffLost sender b s).crane = s.crane := by
  unfold hearHandoffLost
  (try dsimp only) <;> (repeat' split) <;> (try simp)

@[simp] theorem lowerCaught_crane (sender bin : Nat) (s : State) : (lowerCaught sender bin s).crane = s.crane := by
  unfold lowerCaught
  (try dsimp only) <;> (repeat' split) <;> (try simp)

@[simp] theorem hearBinCaught_crane (sender : Nat) (b : FaultBody) (s : State) : (hearBinCaught sender b s).crane = s.crane := by
  unfold hearBinCaught
  (try dsimp only) <;> (repeat' split) <;> (try simp)

@[simp] theorem dropKept_crane (kept : Option TravelRecord) (s : State) : (dropKept kept s).crane = s.crane := by
  unfold dropKept
  (try dsimp only) <;> (repeat' split) <;> (try simp)

@[simp] theorem binCaught_crane (r : TravelRecord) (place : PlaceCode) (s : State) : (binCaught r place s).crane = s.crane := by
  unfold binCaught
  (try dsimp only) <;> (repeat' split) <;> (try simp)

@[simp] theorem catchDown_crane (s : State) : (catchDown s).crane = s.crane := by
  unfold catchDown
  (try dsimp only) <;> (repeat' split) <;> (try simp)

@[simp] theorem catchUp_crane (s : State) : (catchUp s).crane = s.crane := by
  unfold catchUp
  (try dsimp only) <;> (repeat' split) <;> (try simp)

@[simp] theorem hearRoomCall_crane (sender : Nat) (b : RoomCallBody) (s : State) : (hearRoomCall sender b s).crane = s.crane := by
  unfold hearRoomCall
  (try dsimp only) <;> (repeat' split) <;> (try simp)

@[simp] theorem beginEvaluation_crane (s : State) : (beginEvaluation s).crane = s.crane := by
  unfold beginEvaluation
  (try dsimp only) <;> (repeat' split) <;> (try simp)

@[simp] theorem bidFor_crane (c : CallEntry) (cost b : Nat) (s : State) : (bidFor c cost b s).crane = s.crane := by
  unfold bidFor
  (try dsimp only) <;> (repeat' split) <;> (try simp)

@[simp] theorem evaluationDone_crane (s : State) : (evaluationDone s).crane = s.crane := by
  unfold evaluationDone
  (try dsimp only) <;> (repeat' split) <;> (try simp)

@[simp] theorem hearBid_crane (b : BidBody) (s : State) : (hearBid b s).crane = s.crane := by
  unfold hearBid
  (try dsimp only) <;> (repeat' split) <;> (try simp)

@[simp] theorem beginClaim_crane (e : CallEntry) (s : State) : (beginClaim e s).crane = s.crane := by
  unfold beginClaim
  (try dsimp only) <;> (repeat' split) <;> (try simp)

@[simp] theorem windowExpires_crane (e : CallEntry) (s : State) : (windowExpires e s).crane = s.crane := by
  unfold windowExpires
  (try dsimp only) <;> (repeat' split) <;> (try simp)

@[simp] theorem hearClaim_crane (b : ClaimBody) (s : State) : (hearClaim b s).crane = s.crane := by
  unfold hearClaim
  (try dsimp only) <;> (repeat' split) <;> (try simp)

@[simp] theorem claimOutcome_crane (c : Call) (heard : Bool) (s : State) : (claimOutcome c heard s).crane = s.crane := by
  unfold claimOutcome
  (try dsimp only) <;> (repeat' split) <;> (try simp)

@[simp] theorem callSent_crane (c : Call) (st : CallState) (s : State) : (callSent c st s).crane = s.crane := by
  unfold callSent
  (try dsimp only) <;> (repeat' split) <;> (try simp)

@[simp] theorem retestRoute_crane (s : State) : (retestRoute s).crane = s.crane := by
  unfold retestRoute
  (try dsimp only) <;> (repeat' split) <;> (try simp)

@[simp] theorem leaveWorking_crane (old : Mode) (s : State) : (leaveWorking old s).crane = s.crane := by
  unfold leaveWorking
  (try dsimp only) <;> (repeat' split) <;> (try simp)

@[simp] theorem fireFrame_crane (item : Item) (o : Owner) (s : State) : (fireFrame item o s).crane = s.crane := by
  unfold fireFrame
  (try dsimp only) <;> (repeat' split) <;> (try simp)

@[simp] theorem setShutter_crane (x : Shutter) (s : State) : (setShutter x s).crane = s.crane := by
  unfold setShutter
  (try dsimp only) <;> (repeat' split) <;> (try simp)

@[simp] theorem startClearing_crane (x : Shutter) (s : State) : (startClearing x s).crane = s.crane := by
  unfold startClearing
  (try dsimp only) <;> (repeat' split) <;> (try simp)

@[simp] theorem shutterProcedure_crane (s : State) : (shutterProcedure s).crane = s.crane := by
  unfold shutterProcedure
  (try dsimp only) <;> (repeat' split) <;> (try simp)

@[simp] theorem startClosing_crane (x : Shutter) (s : State) : (startClosing x s).crane = s.crane := by
  unfold startClosing
  (try dsimp only) <;> (repeat' split) <;> (try simp)

@[simp] theorem disownClosing_crane (s : State) : (disownClosing s).crane = s.crane := by
  unfold disownClosing
  (try dsimp only) <;> (repeat' split) <;> (try simp)

@[simp] theorem dropClosing_crane (s : State) : (dropClosing s).crane = s.crane := by
  unfold dropClosing
  (try dsimp only) <;> (repeat' split) <;> (try simp)

@[simp] theorem clearCheck_crane (s : State) : (clearCheck s).crane = s.crane := by
  unfold clearCheck
  (try dsimp only) <;> (repeat' split) <;> (try simp)

@[simp] theorem closingOutcome_crane (heard : Bool) (s : State) : (closingOutcome heard s).crane = s.crane := by
  unfold closingOutcome
  (try dsimp only) <;> (repeat' split) <;> (try simp)

@[simp] theorem forceClose_crane (x : Shutter) (s : State) : (forceClose x s).crane = s.crane := by
  unfold forceClose
  (try dsimp only) <;> (repeat' split) <;> (try simp)

@[simp] theorem closeLimitExpires_crane (s : State) : (closeLimitExpires s).crane = s.crane := by
  unfold closeLimitExpires
  (try dsimp only) <;> (repeat' split) <;> (try simp)

@[simp] theorem shutterClosed_crane (s : State) : (shutterClosed s).crane = s.crane := by
  unfold shutterClosed
  (try dsimp only) <;> (repeat' split) <;> (try simp)

@[simp] theorem becomeOpen_crane (x : Shutter) (s : State) : (becomeOpen x s).crane = s.crane := by
  unfold becomeOpen
  (try dsimp only) <;> (repeat' split) <;> (try simp)

@[simp] theorem shutterOpened_crane (s : State) : (shutterOpened s).crane = s.crane := by
  unfold shutterOpened
  (try dsimp only) <;> (repeat' split) <;> (try simp)

@[simp] theorem shutterFault_crane (d : ShutterDir) (x : Shutter) (s : State) : (shutterFault d x s).crane = s.crane := by
  unfold shutterFault
  (try dsimp only) <;> (repeat' split) <;> (try simp)

@[simp] theorem driveLimitExpires_crane (s : State) : (driveLimitExpires s).crane = s.crane := by
  unfold driveLimitExpires
  (try dsimp only) <;> (repeat' split) <;> (try simp)

@[simp] theorem reopen_crane (s : State) : (reopen s).crane = s.crane := by
  unfold reopen
  (try dsimp only) <;> (repeat' split) <;> (try simp)

@[simp] theorem endFoundShut_crane (c : Compartment) (s : State) : (endFoundShut c s).crane = s.crane := by
  unfold endFoundShut
  (try dsimp only) <;> (repeat' split) <;> (try simp)

@[simp] theorem safeCheck_crane (s : State) : (safeCheck s).crane = s.crane := by
  unfold safeCheck
  (try dsimp only) <;> (repeat' split) <;> (try simp)

@[simp] theorem setAlarm_crane (c : Compartment) (r : AlarmRec) (s : State) : (setAlarm c r s).crane = s.crane := by
  unfold setAlarm
  (try dsimp only) <;> (repeat' split) <;> (try simp)

@[simp] theorem queueAlarm_crane (c : Compartment) (epoch : Nat) (i : FireInput) (s : State) : (queueAlarm c epoch i s).crane = s.crane := by
  unfold queueAlarm
  (try dsimp only) <;> (repeat' split) <;> (try simp)

@[simp] theorem setFilter_crane (i : FireInput) (x : InputFilter) (s : State) : (setFilter i x s).crane = s.crane := by
  unfold setFilter
  (try dsimp only) <;> (repeat' split) <;> (try simp)

@[simp] theorem inputReadsActive_crane (i : FireInput) (s : State) : (inputReadsActive i s).crane = s.crane := by
  unfold inputReadsActive
  (try dsimp only) <;> (repeat' split) <;> (try simp)

@[simp] theorem inputReadsInactive_crane (i : FireInput) (s : State) : (inputReadsInactive i s).crane = s.crane := by
  unfold inputReadsInactive
  (try dsimp only) <;> (repeat' split) <;> (try simp)

@[simp] theorem stockRefused_crane (r : StockReason) (slot : SlotName) (bin : Nat) (s : State) : (stockRefused r slot bin s).crane = s.crane := by
  unfold stockRefused
  (try dsimp only) <;> (repeat' split) <;> (try simp)

@[simp] theorem gateNotice_crane (a : Answers) (i : Item) (s : State) : (gateNotice a i s).2.crane = s.crane := by
  unfold gateNotice
  (try dsimp only) <;> (repeat' split) <;> (try simp)

@[simp] theorem lendJoins_crane (b : LendBody) (w : Visit) (s : State) : (lendJoins b w s).crane = s.crane := by
  unfold lendJoins
  (try dsimp only) <;> (repeat' split) <;> (try simp)

@[simp] theorem lendMakes_crane (b : LendBody) (s : State) : (lendMakes b s).crane = s.crane := by
  unfold lendMakes
  (try dsimp only) <;> (repeat' split) <;> (try simp)

@[simp] theorem hearLend_crane (b : LendBody) (s : State) : (hearLend b s).2.crane = s.crane := by
  unfold hearLend
  (try dsimp only) <;> (repeat' split) <;> (try simp)

@[simp] theorem cancelMarks_crane (id : Nat) (s : State) : (cancelMarks id s).crane = s.crane := by
  unfold cancelMarks
  (try dsimp only) <;> (repeat' split) <;> (try simp)

@[simp] theorem hearStockAt_crane (n : SlotName) (s : State) : (hearStockAt n s).2.crane = s.crane := by
  unfold hearStockAt
  (try dsimp only) <;> (repeat' split) <;> (try simp)

@[simp] theorem binRemoved_crane (bin : Nat) (why : FailReason) (s : State) : (binRemoved bin why s).crane = s.crane := by
  unfold binRemoved
  (try dsimp only) <;> (repeat' split) <;> (try simp)

@[simp] theorem stockApplied_crane (sl : Slot) (b : StockBody) (s : State) : (stockApplied sl b s).crane = s.crane := by
  unfold stockApplied
  (try dsimp only) <;> (repeat' split) <;> (try simp)

@[simp] theorem hearStock_crane (b : StockBody) (s : State) : (hearStock b s).2.crane = s.crane := by
  unfold hearStock
  (try dsimp only) <;> (repeat' split) <;> (try simp)

@[simp] theorem hearWriteOff_crane (bin : Nat) (s : State) : (hearWriteOff bin s).2.crane = s.crane := by
  unfold hearWriteOff
  (try dsimp only) <;> (repeat' split) <;> (try simp)

@[simp] theorem hearQuery_crane (s : State) : (hearQuery s).crane = s.crane := by
  unfold hearQuery
  (try dsimp only) <;> (repeat' split) <;> (try simp)

@[simp] theorem hearFault_crane (sender : Nat) (b : FaultBody) (s : State) : (hearFault sender b s).crane = s.crane := by
  unfold hearFault
  (try dsimp only) <;> (repeat' split) <;> (try simp)

@[simp] theorem enterNeighbour_crane (h : Header) (s : State) : (enterNeighbour h s).crane = s.crane := by
  unfold enterNeighbour
  (try dsimp only) <;> (repeat' split) <;> (try simp)

@[simp] theorem setSlots_crane (x : Bool × Bool) (s : State) : (setSlots x s).crane = s.crane := by
  unfold setSlots
  (try dsimp only) <;> (repeat' split) <;> (try simp)

@[simp] theorem reportSent_crane (o : Owner) (s : State) : (reportSent o s).crane = s.crane := by
  unfold reportSent
  (try dsimp only) <;> (repeat' split) <;> (try simp)

@[simp] theorem frameWins_crane (f : TxFrame) (q : List TxFrame) (s : State) : (frameWins f q s).crane = s.crane := by
  unfold frameWins
  (try dsimp only) <;> (repeat' split) <;> (try simp)

@[simp] theorem contend_crane (rivals : List (Nat × Nat)) (s : State) : (contend rivals s).crane = s.crane := by
  unfold contend
  (try dsimp only) <;> (repeat' split) <;> (try simp)

@[simp] theorem reportOutcome_crane (f : TxFrame) (o : TxOutcome) (s : State) : (reportOutcome f o s).crane = s.crane := by
  unfold reportOutcome
  (try dsimp only) <;> (repeat' split) <;> (try simp)

@[simp] theorem frameEnds_crane (o : TxOutcome) (s : State) : (frameEnds o s).crane = s.crane := by
  unfold frameEnds
  (try dsimp only) <;> (repeat' split) <;> (try simp)

@[simp] theorem slotConflictFault_crane (bin : Nat) (old new : Slot) (s : State) : (slotConflictFault bin old new s).crane = s.crane := by
  unfold slotConflictFault
  (try dsimp only) <;> (repeat' split) <;> (try simp)

@[simp] theorem portTagFails_crane (r : TravelRecord) (id : Nat) (s : State) : (portTagFails r id s).crane = s.crane := by
  unfold portTagFails
  (try dsimp only) <;> (repeat' split) <;> (try simp)

@[simp] theorem portInTagRead_crane (id : Option Nat) (s : State) : (portInTagRead id s).crane = s.crane := by
  unfold portInTagRead
  (try dsimp only) <;> (repeat' split) <;> (try simp)

@[simp] theorem transferOutExpires_crane (l : Lane) (s : State) : (transferOutExpires l s).crane = s.crane := by
  unfold transferOutExpires
  (try dsimp only) <;> (repeat' split) <;> (try simp)

@[simp] theorem diversionTransferExpires_crane (s : State) : (diversionTransferExpires s).crane = s.crane := by
  unfold diversionTransferExpires
  (try dsimp only) <;> (repeat' split) <;> (try simp)

@[simp] theorem mergeTransferExpires_crane (s : State) : (mergeTransferExpires s).crane = s.crane := by
  unfold mergeTransferExpires
  (try dsimp only) <;> (repeat' split) <;> (try simp)

@[simp] theorem callWindowExpires_crane (c : Call) (s : State) : (callWindowExpires c s).crane = s.crane := by
  unfold callWindowExpires
  (try dsimp only) <;> (repeat' split) <;> (try simp)

@[simp] theorem sweepBin_crane (b : Nat) (s : State) : (sweepBin b s).crane = s.crane := by
  unfold sweepBin
  (try dsimp only) <;> (repeat' split) <;> (try simp)

@[simp] theorem overdueSweep_crane (s : State) : (overdueSweep s).crane = s.crane := by
  unfold overdueSweep
  (try dsimp only) <;> (repeat' split) <;> (try simp)

@[simp] theorem closingRetryExpires_crane (s : State) : (closingRetryExpires s).crane = s.crane := by
  unfold closingRetryExpires
  (try dsimp only) <;> (repeat' split) <;> (try simp)

end Sys2Proof.Machine
end

