-- ==== Sys2Proof/Laws/KeepsFire.lean ====
section
/-! SUPPORT. The operations that leave the fire unit as it is, one lemma for each. -/

namespace Sys2Proof.Machine
open Sys2Proof

@[simp] theorem foldl_fire {α : Type} (f : State → α → State) (h : ∀ s a, (f s a).fire = s.fire) (l : List α) (s : State) :
    (l.foldl f s).fire = s.fire := by
  induction l generalizing s with
  | nil => rfl
  | cons a l ih => simp [ih, h]

@[simp] theorem noteHeld_fire (h : Bool) (s : State) : (noteHeld h s).fire = s.fire := by
  unfold noteHeld
  (try dsimp only) <;> (repeat' split) <;> (try simp)

@[simp] theorem handBack_fire (n : Nat) (s : State) : (handBack n s).fire = s.fire := by
  unfold handBack
  (try dsimp only) <;> (repeat' split) <;> (try simp)

@[simp] theorem handBackLink_fire (link : Option Nat) (s : State) : (handBackLink link s).fire = s.fire := by
  unfold handBackLink
  (try dsimp only) <;> (repeat' split) <;> (try simp)

@[simp] theorem releaseBin_fire (bin : Nat) (s : State) : (releaseBin bin s).fire = s.fire := by
  unfold releaseBin
  (try dsimp only) <;> (repeat' split) <;> (try simp)

@[simp] theorem withholdBin_fire (bin : Nat) (s : State) : (withholdBin bin s).fire = s.fire := by
  unfold withholdBin
  (try dsimp only) <;> (repeat' split) <;> (try simp)

@[simp] theorem reportRoute_fire (isOpen : Bool) (s : State) : (reportRoute isOpen s).fire = s.fire := by
  unfold reportRoute
  (try dsimp only) <;> (repeat' split) <;> (try simp)

@[simp] theorem visitTo_fire (link : Option Nat) (st : VisitState) (s : State) : (visitTo link st s).fire = s.fire := by
  unfold visitTo
  (try dsimp only) <;> (repeat' split) <;> (try simp)

@[simp] theorem reserveEntry_fire (bin : Nat) (desk : Desk) (s : State) : (reserveEntry bin desk s).fire = s.fire := by
  unfold reserveEntry
  (try dsimp only) <;> (repeat' split) <;> (try simp)

@[simp] theorem dropReservation_fire (bin : Nat) (desk : Desk) (s : State) : (dropReservation bin desk s).fire = s.fire := by
  unfold dropReservation
  (try dsimp only) <;> (repeat' split) <;> (try simp)

@[simp] theorem takeRoomPart_fire (bin : Nat) (part : RoomPart) (s : State) : (takeRoomPart bin part s).fire = s.fire := by
  unfold takeRoomPart
  (try dsimp only) <;> (repeat' split) <;> (try simp)

@[simp] theorem clearStow_fire (s : State) : (clearStow s).fire = s.fire := by
  unfold clearStow
  (try dsimp only) <;> (repeat' split) <;> (try simp)

@[simp] theorem clearPassed_fire (s : State) : (clearPassed s).fire = s.fire := by
  unfold clearPassed
  (try dsimp only) <;> (repeat' split) <;> (try simp)

@[simp] theorem setStow_fire (st : StowState) (s : State) : (setStow st s).fire = s.fire := by
  unfold setStow
  (try dsimp only) <;> (repeat' split) <;> (try simp)

@[simp] theorem promoteStow_fire (s : State) : (promoteStow s).fire = s.fire := by
  unfold promoteStow
  (try dsimp only) <;> (repeat' split) <;> (try simp)

@[simp] theorem releaseEntry_fire (e : CallEntry) (s : State) : (releaseEntry e s).fire = s.fire := by
  unfold releaseEntry
  (try dsimp only) <;> (repeat' split) <;> (try simp)

@[simp] theorem unreserveEntry_fire (e : CallEntry) (s : State) : (unreserveEntry e s).fire = s.fire := by
  unfold unreserveEntry
  (try dsimp only) <;> (repeat' split) <;> (try simp)

@[simp] theorem bidRefused_fire (c : Call) (s : State) : (bidRefused c s).fire = s.fire := by
  unfold bidRefused
  (try dsimp only) <;> (repeat' split) <;> (try simp)

@[simp] theorem claimLost_fire (c : Call) (s : State) : (claimLost c s).fire = s.fire := by
  unfold claimLost
  (try dsimp only) <;> (repeat' split) <;> (try simp)

@[simp] theorem startRetry_fire (l : Lane) (s : State) : (startRetry l s).fire = s.fire := by
  unfold startRetry
  (try dsimp only) <;> (repeat' split) <;> (try simp)

@[simp] theorem notice_fire (items : List Item) (s : State) : (notice items s).fire = s.fire := by
  unfold notice
  (try dsimp only) <;> (repeat' split) <;> (try simp)

@[simp] theorem faultNotice_fire (b : FaultBody) (s : State) : (faultNotice b s).fire = s.fire := by
  unfold faultNotice
  (try dsimp only) <;> (repeat' split) <;> (try simp)

@[simp] theorem withdraw_fire (p : Owner → Bool) (s : State) : (withdraw p s).fire = s.fire := by
  unfold withdraw
  (try dsimp only) <;> (repeat' split) <;> (try simp)

@[simp] theorem requestFailed_fire (reason : FailReason) (kind : AnsweredKind) (bin : Nat) (desk : Option Desk) (requests : List (Nat × Nat)) (s : State) : (requestFailed reason kind bin desk requests s).fire = s.fire := by
  unfold requestFailed
  (try dsimp only) <;> (repeat' split) <;> (try simp)

@[simp] theorem requestDone_fire (bin : Nat) (desk : Desk) (requests : List (Nat × Nat)) (s : State) : (requestDone bin desk requests s).fire = s.fire := by
  unfold requestDone
  (try dsimp only) <;> (repeat' split) <;> (try simp)

@[simp] theorem failVisit_fire (n : Nat) (reason : FailReason) (release : Bool) (s : State) : (failVisit n reason release s).fire = s.fire := by
  unfold failVisit
  (try dsimp only) <;> (repeat' split) <;> (try simp)

@[simp] theorem failVisits_fire (bin : Nat) (reason : FailReason) (s : State) : (failVisits bin reason s).fire = s.fire := by
  unfold failVisits
  (try dsimp only) <;> (repeat' split) <;> (try simp)

@[simp] theorem closeCall_fire (c : Call) (s : State) : (closeCall c s).fire = s.fire := by
  unfold closeCall
  (try dsimp only) <;> (repeat' split) <;> (try simp)

@[simp] theorem closeCalls_fire (p : CallState → Bool) (s : State) : (closeCalls p s).fire = s.fire := by
  unfold closeCalls
  (try dsimp only) <;> (repeat' split) <;> (try simp)

@[simp] theorem closeCallsOfBin_fire (bin : Nat) (s : State) : (closeCallsOfBin bin s).fire = s.fire := by
  unfold closeCallsOfBin
  (try dsimp only) <;> (repeat' split) <;> (try simp)

@[simp] theorem craneTo_fire (st : CraneState) (s : State) : (craneTo st s).fire = s.fire := by
  unfold craneTo
  (try dsimp only) <;> (repeat' split) <;> (try simp)

@[simp] theorem readEncoders_fire (s : State) : (readEncoders s).fire = s.fire := by
  unfold readEncoders
  (try dsimp only) <;> (repeat' split) <;> (try simp)

@[simp] theorem clearCurrent_fire (s : State) : (clearCurrent s).fire = s.fire := by
  unfold clearCurrent
  (try dsimp only) <;> (repeat' split) <;> (try simp)

@[simp] theorem askLeg_fire (a b : Pos) (fork : Bool) (s : State) : (askLeg a b fork s).2.fire = s.fire := by
  unfold askLeg
  (try dsimp only) <;> (repeat' split) <;> (try simp)

@[simp] theorem askEstimate_fire (target : Target) (fork : Bool) (s : State) : (askEstimate target fork s).2.fire = s.fire := by
  unfold askEstimate
  (try dsimp only) <;> (repeat' split) <;> (try simp)

@[simp] theorem locateBin_fire (b : Nat) (loc : Location) (s : State) : (locateBin b loc s).fire = s.fire := by
  unfold locateBin
  (try dsimp only) <;> (repeat' split) <;> (try simp)

@[simp] theorem setPortOut_fire (x : PlaceState) (s : State) : (setPortOut x s).fire = s.fire := by
  unfold setPortOut
  (try dsimp only) <;> (repeat' split) <;> (try simp)

@[simp] theorem setPortIn_fire (x : PlaceState) (s : State) : (setPortIn x s).fire = s.fire := by
  unfold setPortIn
  (try dsimp only) <;> (repeat' split) <;> (try simp)

@[simp] theorem stampStart_fire (s : State) : (stampStart s).fire = s.fire := by
  unfold stampStart
  (try dsimp only) <;> (repeat' split) <;> (try simp)

@[simp] theorem reportStart_fire (m : Move) (s : State) : (reportStart m s).fire = s.fire := by
  unfold reportStart
  (try dsimp only) <;> (repeat' split) <;> (try simp)

@[simp] theorem startMove_fire (m : Move) (s : State) : (startMove m s).fire = s.fire := by
  unfold startMove
  (try dsimp only) <;> (repeat' split) <;> (try simp)

@[simp] theorem holdDeliver_fire (m : Move) (s : State) : (holdDeliver m s).fire = s.fire := by
  unfold holdDeliver
  (try dsimp only) <;> (repeat' split) <;> (try simp)

@[simp] theorem stageContinuation_fire (m : Move) (s : State) : (stageContinuation m s).fire = s.fire := by
  unfold stageContinuation
  (try dsimp only) <;> (repeat' split) <;> (try simp)

@[simp] theorem makeCurrent_fire (kind : MoveKind) (target : Target) (visit : Option Nat) (bound : Bool) (s : State) : (makeCurrent kind target visit bound s).fire = s.fire := by
  unfold makeCurrent
  (try dsimp only) <;> (repeat' split) <;> (try simp)

@[simp] theorem discardStaged_fire (s : State) : (discardStaged s).fire = s.fire := by
  unfold discardStaged
  (try dsimp only) <;> (repeat' split) <;> (try simp)

@[simp] theorem storeBlocked_fire (bin : Nat) (slot : SlotName) (s : State) : (storeBlocked bin slot s).fire = s.fire := by
  unfold storeBlocked
  (try dsimp only) <;> (repeat' split) <;> (try simp)

@[simp] theorem makeStore_fire (bin : Nat) (s : State) : (makeStore bin s).fire = s.fire := by
  unfold makeStore
  (try dsimp only) <;> (repeat' split) <;> (try simp)

@[simp] theorem nextMove_fire (s : State) : (nextMove s).fire = s.fire := by
  unfold nextMove
  (try dsimp only) <;> (repeat' split) <;> (try simp)

@[simp] theorem park_fire (s : State) : (park s).fire = s.fire := by
  unfold park
  (try dsimp only) <;> (repeat' split) <;> (try simp)

@[simp] theorem promote_fire (s : State) : (promote s).fire = s.fire := by
  unfold promote
  (try dsimp only) <;> (repeat' split) <;> (try simp)

@[simp] theorem afterCompletion_fire (s : State) : (afterCompletion s).fire = s.fire := by
  unfold afterCompletion
  (try dsimp only) <;> (repeat' split) <;> (try simp)

@[simp] theorem storeBin_fire (bin : Nat) (content : Option Contents) (room : Option (Nat × Nat)) (s : State) : (storeBin bin content room s).fire = s.fire := by
  unfold storeBin
  (try dsimp only) <;> (repeat' split) <;> (try simp)

@[simp] theorem carryFetched_fire (bin : Nat) (visit : Option Nat) (uncertain : Bool) (d : Directory) (s : State) : (carryFetched bin visit uncertain d s).fire = s.fire := by
  unfold carryFetched
  (try dsimp only) <;> (repeat' split) <;> (try simp)

@[simp] theorem abandonFetch_fire (m : Move) (s : State) : (abandonFetch m s).fire = s.fire := by
  unfold abandonFetch
  (try dsimp only) <;> (repeat' split) <;> (try simp)

@[simp] theorem abandonDeliver_fire (m : Move) (s : State) : (abandonDeliver m s).fire = s.fire := by
  unfold abandonDeliver
  (try dsimp only) <;> (repeat' split) <;> (try simp)

@[simp] theorem abandonTakeIn_fire (s : State) : (abandonTakeIn s).fire = s.fire := by
  unfold abandonTakeIn
  (try dsimp only) <;> (repeat' split) <;> (try simp)

@[simp] theorem abandonStore_fire (s : State) : (abandonStore s).fire = s.fire := by
  unfold abandonStore
  (try dsimp only) <;> (repeat' split) <;> (try simp)

@[simp] theorem abandonMove_fire (s : State) : (abandonMove s).fire = s.fire := by
  unfold abandonMove
  (try dsimp only) <;> (repeat' split) <;> (try simp)

@[simp] theorem stall_fire (m : Move) (s : State) : (stall m s).fire = s.fire := by
  unfold stall
  (try dsimp only) <;> (repeat' split) <;> (try simp)

@[simp] theorem loadFault_fire (bin : Nat) (s : State) : (loadFault bin s).fire = s.fire := by
  unfold loadFault
  (try dsimp only) <;> (repeat' split) <;> (try simp)

@[simp] theorem resolveLoad_fire (s : State) : (resolveLoad s).2.fire = s.fire := by
  unfold resolveLoad
  (try dsimp only) <;> (repeat' split) <;> (try simp)

@[simp] theorem portOutEmptied_fire (s : State) : (portOutEmptied s).fire = s.fire := by
  unfold portOutEmptied
  (try dsimp only) <;> (repeat' split) <;> (try simp)

@[simp] theorem dropWaiting_fire (s : State) : (dropWaiting s).fire = s.fire := by
  unfold dropWaiting
  (try dsimp only) <;> (repeat' split) <;> (try simp)

@[simp] theorem craneEntersFire_fire (s : State) : (craneEntersFire s).fire = s.fire := by
  unfold craneEntersFire
  (try dsimp only) <;> (repeat' split) <;> (try simp)

@[simp] theorem unpark_fire (s : State) : (unpark s).fire = s.fire := by
  unfold unpark
  (try dsimp only) <;> (repeat' split) <;> (try simp)

@[simp] theorem craneStop_fire (s : State) : (craneStop s).fire = s.fire := by
  unfold craneStop
  (try dsimp only) <;> (repeat' split) <;> (try simp)

@[simp] theorem chooseAt_fire (s : State) (order : Nat) : (chooseAt s order).2.fire = s.fire := by
  unfold chooseAt
  (try dsimp only) <;> (repeat' split) <;> (try simp)

@[simp] theorem stageFree_fire (w : Work) (s : State) : (stageFree w s).fire = s.fire := by
  unfold stageFree
  (try dsimp only) <;> (repeat' split) <;> (try simp)

@[simp] theorem giveFree_fire (w : Work) (s : State) : (giveFree w s).fire = s.fire := by
  unfold giveFree
  (try dsimp only) <;> (repeat' split) <;> (try simp)

@[simp] theorem selectAmong_fire (orders : List Nat) (give : Work → State → State) (h : ∀ w s, (give w s).fire = s.fire)
    (s : State) : (selectAmong orders give s).fire = s.fire := by
  unfold selectAmong
  split
  · next o _ =>
    have hc := chooseAt_fire s o
    split <;> simp_all
  · rfl

@[simp] theorem giveBack_fire (m : Move) (s : State) : (giveBack m s).fire = s.fire := by
  unfold giveBack
  (try dsimp only) <;> (repeat' split) <;> (try simp)

@[simp] theorem displace_fire (m : Move) (s : State) : (displace m s).fire = s.fire := by
  unfold displace
  (try dsimp only) <;> (repeat' split) <;> (try simp)

@[simp] theorem selectWork_fire (s : State) : (selectWork s).fire = s.fire := by
  unfold selectWork
  (try dsimp only) <;> (repeat' split) <;> (try simp)

@[simp] theorem setLane_fire (l : Lane) (v : PlaceState) (s : State) : (setLane l v s).fire = s.fire := by
  unfold setLane
  (try dsimp only) <;> (repeat' split) <;> (try simp)

@[simp] theorem setOut_fire (l : Lane) (v : Option Handoff) (s : State) : (setOut l v s).fire = s.fire := by
  unfold setOut
  (try dsimp only) <;> (repeat' split) <;> (try simp)

@[simp] theorem setIncoming_fire (l : Lane) (v : Option Handoff) (s : State) : (setIncoming l v s).fire = s.fire := by
  unfold setIncoming
  (try dsimp only) <;> (repeat' split) <;> (try simp)

@[simp] theorem clearRetry_fire (l : Lane) (s : State) : (clearRetry l s).fire = s.fire := by
  unfold clearRetry
  (try dsimp only) <;> (repeat' split) <;> (try simp)

@[simp] theorem driveLane_fire (l : Lane) (on : Bool) (s : State) : (driveLane l on s).fire = s.fire := by
  unfold driveLane
  (try dsimp only) <;> (repeat' split) <;> (try simp)

@[simp] theorem handoffLost_fire (bin peer : Nat) (place : PlaceCode) (hop : Nat) (s : State) : (handoffLost bin peer place hop s).fire = s.fire := by
  unfold handoffLost
  (try dsimp only) <;> (repeat' split) <;> (try simp)

@[simp] theorem grantPortOut_fire (s : State) : (grantPortOut s).fire = s.fire := by
  unfold grantPortOut
  (try dsimp only) <;> (repeat' split) <;> (try simp)

@[simp] theorem keepDown_fire (s : State) : (keepDown s).fire = s.fire := by
  unfold keepDown
  (try dsimp only) <;> (repeat' split) <;> (try simp)

@[simp] theorem mergeArbiter_fire (s : State) : (mergeArbiter s).fire = s.fire := by
  unfold mergeArbiter
  (try dsimp only) <;> (repeat' split) <;> (try simp)

@[simp] theorem noteFree_fire (bin : Nat) (visit : Option Nat) (s : State) : (noteFree bin visit s).fire = s.fire := by
  unfold noteFree
  (try dsimp only) <;> (repeat' split) <;> (try simp)

@[simp] theorem handOver_fire (bin : Nat) (visit : Option Nat) (s : State) : (handOver bin visit s).fire = s.fire := by
  unfold handOver
  (try dsimp only) <;> (repeat' split) <;> (try simp)

@[simp] theorem withdrawOffer_fire (l : Lane) (s : State) : (withdrawOffer l s).fire = s.fire := by
  unfold withdrawOffer
  (try dsimp only) <;> (repeat' split) <;> (try simp)

@[simp] theorem offerOutcome_fire (l : Lane) (peer : Nat) (heard : Bool) (s : State) : (offerOutcome l peer heard s).fire = s.fire := by
  unfold offerOutcome
  (try dsimp only) <;> (repeat' split) <;> (try simp)

@[simp] theorem acceptOffer_fire (l : Lane) (sender : Nat) (r : TravelRecord) (s : State) : (acceptOffer l sender r s).fire = s.fire := by
  unfold acceptOffer
  (try dsimp only) <;> (repeat' split) <;> (try simp)

@[simp] theorem noRoom_fire (l : Lane) (r : TravelRecord) (s : State) : (noRoom l r s).fire = s.fire := by
  unfold noRoom
  (try dsimp only) <;> (repeat' split) <;> (try simp)

@[simp] theorem mergeWins_fire (s : State) : (mergeWins s).fire = s.fire := by
  unfold mergeWins
  (try dsimp only) <;> (repeat' split) <;> (try simp)

@[simp] theorem hearOffer_fire (sender : Nat) (r : TravelRecord) (s : State) : (hearOffer sender r s).2.fire = s.fire := by
  unfold hearOffer
  (try dsimp only) <;> (repeat' split) <;> (try simp)

@[simp] theorem startDiversion_fire (r : TravelRecord) (s : State) : (startDiversion r s).fire = s.fire := by
  unfold startDiversion
  (try dsimp only) <;> (repeat' split) <;> (try simp)

@[simp] theorem beginDiversion_fire (r : TravelRecord) (s : State) : (beginDiversion r s).fire = s.fire := by
  unfold beginDiversion
  split <;> simp

@[simp] theorem blockUp_fire (r : TravelRecord) (slot : SlotName) (s : State) : (blockUp r slot s).fire = s.fire := by
  unfold blockUp
  (try dsimp only) <;> (repeat' split) <;> (try simp)

@[simp] theorem divert_fire (r : TravelRecord) (s : State) : (divert r s).fire = s.fire := by
  unfold divert
  (try dsimp only) <;> (repeat' split) <;> (try simp)

@[simp] theorem diversionCheck_fire (s : State) : (diversionCheck s).fire = s.fire := by
  unfold diversionCheck
  (try dsimp only) <;> (repeat' split) <;> (try simp)

@[simp] theorem fireDiversion_fire (s : State) : (fireDiversion s).fire = s.fire := by
  unfold fireDiversion
  (try dsimp only) <;> (repeat' split) <;> (try simp)

@[simp] theorem unannounced_fire (place : SpinePlace) (s : State) : (unannounced place s).fire = s.fire := by
  unfold unannounced
  (try dsimp only) <;> (repeat' split) <;> (try simp)

@[simp] theorem mergeArrives_fire (s : State) : (mergeArrives s).fire = s.fire := by
  unfold mergeArrives
  (try dsimp only) <;> (repeat' split) <;> (try simp)

@[simp] theorem diversionArrives_fire (s : State) : (diversionArrives s).fire = s.fire := by
  unfold diversionArrives
  (try dsimp only) <;> (repeat' split) <;> (try simp)

@[simp] theorem positionReport_fire (place : SpinePlace) (s : State) : (positionReport place s).fire = s.fire := by
  unfold positionReport
  (try dsimp only) <;> (repeat' split) <;> (try simp)

@[simp] theorem takenLane_fire (l : Lane) (b : TakenBody) (s : State) : (takenLane l b s).fire = s.fire := by
  unfold takenLane
  (try dsimp only) <;> (repeat' split) <;> (try simp)

@[simp] theorem completeVisit_fire (v : Visit) (s : State) : (completeVisit v s).fire = s.fire := by
  unfold completeVisit
  (try dsimp only) <;> (repeat' split) <;> (try simp)

@[simp] theorem deskTakes_fire (b : TakenBody) (s : State) : (deskTakes b s).fire = s.fire := by
  unfold deskTakes
  (try dsimp only) <;> (repeat' split) <;> (try simp)

@[simp] theorem hearTaken_fire (b : TakenBody) (s : State) : (hearTaken b s).fire = s.fire := by
  unfold hearTaken
  (try dsimp only) <;> (repeat' split) <;> (try simp)

@[simp] theorem loseHome_fire (r : TravelRecord) (s : State) : (loseHome r s).fire = s.fire := by
  unfold loseHome
  (try dsimp only) <;> (repeat' split) <;> (try simp)

@[simp] theorem outExpires_fire (l : Lane) (h : Handoff) (s : State) : (outExpires l h s).fire = s.fire := by
  unfold outExpires
  (try dsimp only) <;> (repeat' split) <;> (try simp)

@[simp] theorem diversionExpires_fire (h : Handoff) (s : State) : (diversionExpires h s).fire = s.fire := by
  unfold diversionExpires
  (try dsimp only) <;> (repeat' split) <;> (try simp)

@[simp] theorem inExpires_fire (l : Lane) (s : State) : (inExpires l s).fire = s.fire := by
  unfold inExpires
  (try dsimp only) <;> (repeat' split) <;> (try simp)

@[simp] theorem mergeExpires_fire (h : Handoff) (s : State) : (mergeExpires h s).fire = s.fire := by
  unfold mergeExpires
  (try dsimp only) <;> (repeat' split) <;> (try simp)

@[simp] theorem mergeWaitExpires_fire (s : State) : (mergeWaitExpires s).fire = s.fire := by
  unfold mergeWaitExpires
  (try dsimp only) <;> (repeat' split) <;> (try simp)

@[simp] theorem hearHandoffLost_fire (sender : Nat) (b : FaultBody) (s : State) : (hearHandoffLost sender b s).fire = s.fire := by
  unfold hearHandoffLost
  (try dsimp only) <;> (repeat' split) <;> (try simp)

@[simp] theorem lowerCaught_fire (sender bin : Nat) (s : State) : (lowerCaught sender bin s).fire = s.fire := by
  unfold lowerCaught
  (try dsimp only) <;> (repeat' split) <;> (try simp)

@[simp] theorem hearBinCaught_fire (sender : Nat) (b : FaultBody) (s : State) : (hearBinCaught sender b s).fire = s.fire := by
  unfold hearBinCaught
  (try dsimp only) <;> (repeat' split) <;> (try simp)

@[simp] theorem dropKept_fire (kept : Option TravelRecord) (s : State) : (dropKept kept s).fire = s.fire := by
  unfold dropKept
  (try dsimp only) <;> (repeat' split) <;> (try simp)

@[simp] theorem clearPlace_fire (place : SpinePlace) (s : State) : (clearPlace place s).fire = s.fire := by
  unfold clearPlace
  (try dsimp only) <;> (repeat' split) <;> (try simp)

@[simp] theorem clearBlocked_fire (s : State) : (clearBlocked s).fire = s.fire := by
  unfold clearBlocked
  (try dsimp only) <;> (repeat' split) <;> (try simp)

@[simp] theorem binCaught_fire (r : TravelRecord) (place : PlaceCode) (s : State) : (binCaught r place s).fire = s.fire := by
  unfold binCaught
  (try dsimp only) <;> (repeat' split) <;> (try simp)

@[simp] theorem catchDown_fire (s : State) : (catchDown s).fire = s.fire := by
  unfold catchDown
  (try dsimp only) <;> (repeat' split) <;> (try simp)

@[simp] theorem catchUp_fire (s : State) : (catchUp s).fire = s.fire := by
  unfold catchUp
  (try dsimp only) <;> (repeat' split) <;> (try simp)

@[simp] theorem hearRoomCall_fire (sender : Nat) (b : RoomCallBody) (s : State) : (hearRoomCall sender b s).fire = s.fire := by
  unfold hearRoomCall
  (try dsimp only) <;> (repeat' split) <;> (try simp)

@[simp] theorem beginEvaluation_fire (s : State) : (beginEvaluation s).fire = s.fire := by
  unfold beginEvaluation
  (try dsimp only) <;> (repeat' split) <;> (try simp)

@[simp] theorem hearBid_fire (b : BidBody) (s : State) : (hearBid b s).fire = s.fire := by
  unfold hearBid
  (try dsimp only) <;> (repeat' split) <;> (try simp)

@[simp] theorem hearClaim_fire (b : ClaimBody) (s : State) : (hearClaim b s).fire = s.fire := by
  unfold hearClaim
  (try dsimp only) <;> (repeat' split) <;> (try simp)

@[simp] theorem claimOutcome_fire (c : Call) (heard : Bool) (s : State) : (claimOutcome c heard s).fire = s.fire := by
  unfold claimOutcome
  (try dsimp only) <;> (repeat' split) <;> (try simp)

@[simp] theorem callSent_fire (c : Call) (st : CallState) (s : State) : (callSent c st s).fire = s.fire := by
  unfold callSent
  (try dsimp only) <;> (repeat' split) <;> (try simp)

@[simp] theorem retestRoute_fire (s : State) : (retestRoute s).fire = s.fire := by
  unfold retestRoute
  (try dsimp only) <;> (repeat' split) <;> (try simp)

@[simp] theorem leaveWorking_fire (old : Mode) (s : State) : (leaveWorking old s).fire = s.fire := by
  unfold leaveWorking
  (try dsimp only) <;> (repeat' split) <;> (try simp)

@[simp] theorem enterFire_fire (old : Mode) (s : State) : (enterFire old s).fire = s.fire := by
  unfold enterFire
  (try dsimp only) <;> (repeat' split) <;> (try simp)

@[simp] theorem deriveMode_fire (s : State) : (deriveMode s).fire = s.fire := by
  unfold deriveMode
  (try dsimp only) <;> (repeat' split) <;> (try simp)

@[simp] theorem disownClosing_fire (s : State) : (disownClosing s).fire = s.fire := by
  unfold disownClosing
  (try dsimp only) <;> (repeat' split) <;> (try simp)

@[simp] theorem dropClosing_fire (s : State) : (dropClosing s).fire = s.fire := by
  unfold dropClosing
  (try dsimp only) <;> (repeat' split) <;> (try simp)

@[simp] theorem stockRefused_fire (r : StockReason) (slot : SlotName) (bin : Nat) (s : State) : (stockRefused r slot bin s).fire = s.fire := by
  unfold stockRefused
  (try dsimp only) <;> (repeat' split) <;> (try simp)

@[simp] theorem gateNotice_fire (a : Answers) (i : Item) (s : State) : (gateNotice a i s).2.fire = s.fire := by
  unfold gateNotice
  (try dsimp only) <;> (repeat' split) <;> (try simp)

@[simp] theorem lendJoins_fire (b : LendBody) (w : Visit) (s : State) : (lendJoins b w s).fire = s.fire := by
  unfold lendJoins
  (try dsimp only) <;> (repeat' split) <;> (try simp)

@[simp] theorem lendMakes_fire (b : LendBody) (s : State) : (lendMakes b s).fire = s.fire := by
  unfold lendMakes
  (try dsimp only) <;> (repeat' split) <;> (try simp)

@[simp] theorem hearLend_fire (b : LendBody) (s : State) : (hearLend b s).2.fire = s.fire := by
  unfold hearLend
  (try dsimp only) <;> (repeat' split) <;> (try simp)

@[simp] theorem withdrawStaged_fire (n : Nat) (s : State) : (withdrawStaged n s).fire = s.fire := by
  unfold withdrawStaged
  (try dsimp only) <;> (repeat' split) <;> (try simp)

@[simp] theorem cancelListed_fire (id : Nat) (v : Visit) (s : State) : (cancelListed id v s).fire = s.fire := by
  unfold cancelListed
  (try dsimp only) <;> (repeat' split) <;> (try simp)

@[simp] theorem cancelMarks_fire (id : Nat) (s : State) : (cancelMarks id s).fire = s.fire := by
  unfold cancelMarks
  (try dsimp only) <;> (repeat' split) <;> (try simp)

@[simp] theorem hearCancel_fire (id : Nat) (s : State) : (hearCancel id s).2.fire = s.fire := by
  unfold hearCancel
  (try dsimp only) <;> (repeat' split) <;> (try simp)

@[simp] theorem hearStockAt_fire (n : SlotName) (s : State) : (hearStockAt n s).2.fire = s.fire := by
  unfold hearStockAt
  (try dsimp only) <;> (repeat' split) <;> (try simp)

@[simp] theorem binRemoved_fire (bin : Nat) (why : FailReason) (s : State) : (binRemoved bin why s).fire = s.fire := by
  unfold binRemoved
  (try dsimp only) <;> (repeat' split) <;> (try simp)

@[simp] theorem stockApplied_fire (sl : Slot) (b : StockBody) (s : State) : (stockApplied sl b s).fire = s.fire := by
  unfold stockApplied
  (try dsimp only) <;> (repeat' split) <;> (try simp)

@[simp] theorem hearStock_fire (b : StockBody) (s : State) : (hearStock b s).2.fire = s.fire := by
  unfold hearStock
  (try dsimp only) <;> (repeat' split) <;> (try simp)

@[simp] theorem hearStockEnd_fire (s : State) : (hearStockEnd s).fire = s.fire := by
  unfold hearStockEnd
  (try dsimp only) <;> (repeat' split) <;> (try simp)

@[simp] theorem hearWriteOff_fire (bin : Nat) (s : State) : (hearWriteOff bin s).2.fire = s.fire := by
  unfold hearWriteOff
  (try dsimp only) <;> (repeat' split) <;> (try simp)

@[simp] theorem hearStop_fire (s : State) : (hearStop s).fire = s.fire := by
  unfold hearStop
  (try dsimp only) <;> (repeat' split) <;> (try simp)

@[simp] theorem leaveHalt_fire (s : State) : (leaveHalt s).fire = s.fire := by
  unfold leaveHalt
  (try dsimp only) <;> (repeat' split) <;> (try simp)

@[simp] theorem resumeSteps_fire (s : State) : (resumeSteps s).fire = s.fire := by
  unfold resumeSteps
  (try dsimp only) <;> (repeat' split) <;> (try simp)

@[simp] theorem hearResume_fire (s : State) : (hearResume s).fire = s.fire := by
  unfold hearResume
  (try dsimp only) <;> (repeat' split) <;> (try simp)

@[simp] theorem hearQuery_fire (s : State) : (hearQuery s).fire = s.fire := by
  unfold hearQuery
  (try dsimp only) <;> (repeat' split) <;> (try simp)

@[simp] theorem hearFault_fire (sender : Nat) (b : FaultBody) (s : State) : (hearFault sender b s).fire = s.fire := by
  unfold hearFault
  (try dsimp only) <;> (repeat' split) <;> (try simp)

@[simp] theorem enterNeighbour_fire (h : Header) (s : State) : (enterNeighbour h s).fire = s.fire := by
  unfold enterNeighbour
  (try dsimp only) <;> (repeat' split) <;> (try simp)

@[simp] theorem setSlots_fire (x : Bool × Bool) (s : State) : (setSlots x s).fire = s.fire := by
  unfold setSlots
  (try dsimp only) <;> (repeat' split) <;> (try simp)

@[simp] theorem reportSent_fire (o : Owner) (s : State) : (reportSent o s).fire = s.fire := by
  unfold reportSent
  (try dsimp only) <;> (repeat' split) <;> (try simp)

@[simp] theorem frameWins_fire (f : TxFrame) (q : List TxFrame) (s : State) : (frameWins f q s).fire = s.fire := by
  unfold frameWins
  (try dsimp only) <;> (repeat' split) <;> (try simp)

@[simp] theorem contend_fire (rivals : List (Nat × Nat)) (s : State) : (contend rivals s).fire = s.fire := by
  unfold contend
  (try dsimp only) <;> (repeat' split) <;> (try simp)

@[simp] theorem parkCompletes_fire (s : State) : (parkCompletes s).fire = s.fire := by
  unfold parkCompletes
  (try dsimp only) <;> (repeat' split) <;> (try simp)

@[simp] theorem storeAgain_fire (new : Slot) (s : State) : (storeAgain new s).fire = s.fire := by
  unfold storeAgain
  (try dsimp only) <;> (repeat' split) <;> (try simp)

@[simp] theorem slotConflictFault_fire (bin : Nat) (old new : Slot) (s : State) : (slotConflictFault bin old new s).fire = s.fire := by
  unfold slotConflictFault
  (try dsimp only) <;> (repeat' split) <;> (try simp)

@[simp] theorem slotConflict_fire (bin : Nat) (old : Slot) (s : State) : (slotConflict bin old s).fire = s.fire := by
  unfold slotConflict
  (try dsimp only) <;> (repeat' split) <;> (try simp)

@[simp] theorem storeInPosition_fire (m : Move) (s : State) : (storeInPosition m s).fire = s.fire := by
  unfold storeInPosition
  (try dsimp only) <;> (repeat' split) <;> (try simp)

@[simp] theorem inPosition_fire (s : State) : (inPosition s).fire = s.fire := by
  unfold inPosition
  (try dsimp only) <;> (repeat' split) <;> (try simp)

@[simp] theorem tagUnread_fire (m : Move) (s : State) : (tagUnread m s).fire = s.fire := by
  unfold tagUnread
  (try dsimp only) <;> (repeat' split) <;> (try simp)

@[simp] theorem discardBound_fire (s : State) : (discardBound s).fire = s.fire := by
  unfold discardBound
  (try dsimp only) <;> (repeat' split) <;> (try simp)

@[simp] theorem tagMismatch_fire (m : Move) (x : Nat) (s : State) : (tagMismatch m x s).fire = s.fire := by
  unfold tagMismatch
  (try dsimp only) <;> (repeat' split) <;> (try simp)

@[simp] theorem forkTagRead_fire (r : TagRead) (s : State) : (forkTagRead r s).fire = s.fire := by
  unfold forkTagRead
  (try dsimp only) <;> (repeat' split) <;> (try simp)

@[simp] theorem takeOutRefused_fire (m : Move) (s : State) : (takeOutRefused m s).fire = s.fire := by
  unfold takeOutRefused
  (try dsimp only) <;> (repeat' split) <;> (try simp)

@[simp] theorem fetchDone_fire (m : Move) (s : State) : (fetchDone m s).fire = s.fire := by
  unfold fetchDone
  (try dsimp only) <;> (repeat' split) <;> (try simp)

@[simp] theorem deliverDone_fire (s : State) : (deliverDone s).fire = s.fire := by
  unfold deliverDone
  (try dsimp only) <;> (repeat' split) <;> (try simp)

@[simp] theorem takeInDone_fire (s : State) : (takeInDone s).fire = s.fire := by
  unfold takeInDone
  (try dsimp only) <;> (repeat' split) <;> (try simp)

@[simp] theorem storeDone_fire (s : State) : (storeDone s).fire = s.fire := by
  unfold storeDone
  (try dsimp only) <;> (repeat' split) <;> (try simp)

@[simp] theorem forkDone_fire (s : State) : (forkDone s).fire = s.fire := by
  unfold forkDone
  (try dsimp only) <;> (repeat' split) <;> (try simp)

@[simp] theorem fireStopped_fire (s : State) : (fireStopped s).fire = s.fire := by
  unfold fireStopped
  (try dsimp only) <;> (repeat' split) <;> (try simp)

@[simp] theorem stopStopped_fire (s : State) : (stopStopped s).fire = s.fire := by
  unfold stopStopped
  (try dsimp only) <;> (repeat' split) <;> (try simp)

@[simp] theorem craneStopped_fire (s : State) : (craneStopped s).fire = s.fire := by
  unfold craneStopped
  (try dsimp only) <;> (repeat' split) <;> (try simp)

@[simp] theorem budgetExpires_fire (s : State) : (budgetExpires s).fire = s.fire := by
  unfold budgetExpires
  (try dsimp only) <;> (repeat' split) <;> (try simp)

@[simp] theorem storeBack_fire (s : State) : (storeBack s).fire = s.fire := by
  unfold storeBack
  (try dsimp only) <;> (repeat' split) <;> (try simp)

@[simp] theorem portTagFails_fire (r : TravelRecord) (id : Nat) (s : State) : (portTagFails r id s).fire = s.fire := by
  unfold portTagFails
  (try dsimp only) <;> (repeat' split) <;> (try simp)

@[simp] theorem portInTagRead_fire (id : Option Nat) (s : State) : (portInTagRead id s).fire = s.fire := by
  unfold portInTagRead
  (try dsimp only) <;> (repeat' split) <;> (try simp)

@[simp] theorem transferOutExpires_fire (l : Lane) (s : State) : (transferOutExpires l s).fire = s.fire := by
  unfold transferOutExpires
  (try dsimp only) <;> (repeat' split) <;> (try simp)

@[simp] theorem diversionTransferExpires_fire (s : State) : (diversionTransferExpires s).fire = s.fire := by
  unfold diversionTransferExpires
  (try dsimp only) <;> (repeat' split) <;> (try simp)

@[simp] theorem mergeTransferExpires_fire (s : State) : (mergeTransferExpires s).fire = s.fire := by
  unfold mergeTransferExpires
  (try dsimp only) <;> (repeat' split) <;> (try simp)

@[simp] theorem sweepBin_fire (b : Nat) (s : State) : (sweepBin b s).fire = s.fire := by
  unfold sweepBin
  (try dsimp only) <;> (repeat' split) <;> (try simp)

@[simp] theorem overdueSweep_fire (s : State) : (overdueSweep s).fire = s.fire := by
  unfold overdueSweep
  (try dsimp only) <;> (repeat' split) <;> (try simp)

end Sys2Proof.Machine
end

