-- ==== Sys2Proof/Laws/KeepsMode.lean ====
section
/-! SUPPORT. The operations that leave the station mode as it is, one lemma for each. -/

namespace Sys2Proof.Machine
open Sys2Proof

@[simp] theorem foldl_mode {α : Type} (f : State → α → State) (h : ∀ s a, (f s a).mode = s.mode) (l : List α) (s : State) :
    (l.foldl f s).mode = s.mode := by
  induction l generalizing s with
  | nil => rfl
  | cons a l ih => simp [ih, h]

@[simp] theorem noteHeld_mode (h : Bool) (s : State) : (noteHeld h s).mode = s.mode := by
  unfold noteHeld
  (try dsimp only) <;> (repeat' split) <;> (try simp)

@[simp] theorem handBack_mode (n : Nat) (s : State) : (handBack n s).mode = s.mode := by
  unfold handBack
  (try dsimp only) <;> (repeat' split) <;> (try simp)

@[simp] theorem handBackLink_mode (link : Option Nat) (s : State) : (handBackLink link s).mode = s.mode := by
  unfold handBackLink
  (try dsimp only) <;> (repeat' split) <;> (try simp)

@[simp] theorem releaseBin_mode (bin : Nat) (s : State) : (releaseBin bin s).mode = s.mode := by
  unfold releaseBin
  (try dsimp only) <;> (repeat' split) <;> (try simp)

@[simp] theorem withholdBin_mode (bin : Nat) (s : State) : (withholdBin bin s).mode = s.mode := by
  unfold withholdBin
  (try dsimp only) <;> (repeat' split) <;> (try simp)

@[simp] theorem reportRoute_mode (isOpen : Bool) (s : State) : (reportRoute isOpen s).mode = s.mode := by
  unfold reportRoute
  (try dsimp only) <;> (repeat' split) <;> (try simp)

@[simp] theorem visitTo_mode (link : Option Nat) (st : VisitState) (s : State) : (visitTo link st s).mode = s.mode := by
  unfold visitTo
  (try dsimp only) <;> (repeat' split) <;> (try simp)

@[simp] theorem reserveEntry_mode (bin : Nat) (desk : Desk) (s : State) : (reserveEntry bin desk s).mode = s.mode := by
  unfold reserveEntry
  (try dsimp only) <;> (repeat' split) <;> (try simp)

@[simp] theorem dropReservation_mode (bin : Nat) (desk : Desk) (s : State) : (dropReservation bin desk s).mode = s.mode := by
  unfold dropReservation
  (try dsimp only) <;> (repeat' split) <;> (try simp)

@[simp] theorem takeRoomPart_mode (bin : Nat) (part : RoomPart) (s : State) : (takeRoomPart bin part s).mode = s.mode := by
  unfold takeRoomPart
  (try dsimp only) <;> (repeat' split) <;> (try simp)

@[simp] theorem clearStow_mode (s : State) : (clearStow s).mode = s.mode := by
  unfold clearStow
  (try dsimp only) <;> (repeat' split) <;> (try simp)

@[simp] theorem clearPassed_mode (s : State) : (clearPassed s).mode = s.mode := by
  unfold clearPassed
  (try dsimp only) <;> (repeat' split) <;> (try simp)

@[simp] theorem setStow_mode (st : StowState) (s : State) : (setStow st s).mode = s.mode := by
  unfold setStow
  (try dsimp only) <;> (repeat' split) <;> (try simp)

@[simp] theorem promoteStow_mode (s : State) : (promoteStow s).mode = s.mode := by
  unfold promoteStow
  (try dsimp only) <;> (repeat' split) <;> (try simp)

@[simp] theorem releaseEntry_mode (e : CallEntry) (s : State) : (releaseEntry e s).mode = s.mode := by
  unfold releaseEntry
  (try dsimp only) <;> (repeat' split) <;> (try simp)

@[simp] theorem unreserveEntry_mode (e : CallEntry) (s : State) : (unreserveEntry e s).mode = s.mode := by
  unfold unreserveEntry
  (try dsimp only) <;> (repeat' split) <;> (try simp)

@[simp] theorem bidRefused_mode (c : Call) (s : State) : (bidRefused c s).mode = s.mode := by
  unfold bidRefused
  (try dsimp only) <;> (repeat' split) <;> (try simp)

@[simp] theorem claimLost_mode (c : Call) (s : State) : (claimLost c s).mode = s.mode := by
  unfold claimLost
  (try dsimp only) <;> (repeat' split) <;> (try simp)

@[simp] theorem startRetry_mode (l : Lane) (s : State) : (startRetry l s).mode = s.mode := by
  unfold startRetry
  (try dsimp only) <;> (repeat' split) <;> (try simp)

@[simp] theorem startClosingRetry_mode (s : State) : (startClosingRetry s).mode = s.mode := by
  unfold startClosingRetry
  (try dsimp only) <;> (repeat' split) <;> (try simp)

@[simp] theorem frameRefused_mode (o : Owner) (s : State) : (frameRefused o s).mode = s.mode := by
  unfold frameRefused
  (try dsimp only) <;> (repeat' split) <;> (try simp)

@[simp] theorem queueFrame_mode (f : TxFrame) (s : State) : (queueFrame f s).mode = s.mode := by
  unfold queueFrame
  (try dsimp only) <;> (repeat' split) <;> (try simp)

@[simp] theorem notice_mode (items : List Item) (s : State) : (notice items s).mode = s.mode := by
  unfold notice
  (try dsimp only) <;> (repeat' split) <;> (try simp)

@[simp] theorem faultNotice_mode (b : FaultBody) (s : State) : (faultNotice b s).mode = s.mode := by
  unfold faultNotice
  (try dsimp only) <;> (repeat' split) <;> (try simp)

@[simp] theorem withdraw_mode (p : Owner → Bool) (s : State) : (withdraw p s).mode = s.mode := by
  unfold withdraw
  (try dsimp only) <;> (repeat' split) <;> (try simp)

@[simp] theorem requestFailed_mode (reason : FailReason) (kind : AnsweredKind) (bin : Nat) (desk : Option Desk) (requests : List (Nat × Nat)) (s : State) : (requestFailed reason kind bin desk requests s).mode = s.mode := by
  unfold requestFailed
  (try dsimp only) <;> (repeat' split) <;> (try simp)

@[simp] theorem requestDone_mode (bin : Nat) (desk : Desk) (requests : List (Nat × Nat)) (s : State) : (requestDone bin desk requests s).mode = s.mode := by
  unfold requestDone
  (try dsimp only) <;> (repeat' split) <;> (try simp)

@[simp] theorem failVisit_mode (n : Nat) (reason : FailReason) (release : Bool) (s : State) : (failVisit n reason release s).mode = s.mode := by
  unfold failVisit
  (try dsimp only) <;> (repeat' split) <;> (try simp)

@[simp] theorem failVisits_mode (bin : Nat) (reason : FailReason) (s : State) : (failVisits bin reason s).mode = s.mode := by
  unfold failVisits
  (try dsimp only) <;> (repeat' split) <;> (try simp)

@[simp] theorem closeCall_mode (c : Call) (s : State) : (closeCall c s).mode = s.mode := by
  unfold closeCall
  (try dsimp only) <;> (repeat' split) <;> (try simp)

@[simp] theorem closeCalls_mode (p : CallState → Bool) (s : State) : (closeCalls p s).mode = s.mode := by
  unfold closeCalls
  (try dsimp only) <;> (repeat' split) <;> (try simp)

@[simp] theorem closeCallsOfBin_mode (bin : Nat) (s : State) : (closeCallsOfBin bin s).mode = s.mode := by
  unfold closeCallsOfBin
  (try dsimp only) <;> (repeat' split) <;> (try simp)

@[simp] theorem craneTo_mode (st : CraneState) (s : State) : (craneTo st s).mode = s.mode := by
  unfold craneTo
  (try dsimp only) <;> (repeat' split) <;> (try simp)

@[simp] theorem readEncoders_mode (s : State) : (readEncoders s).mode = s.mode := by
  unfold readEncoders
  (try dsimp only) <;> (repeat' split) <;> (try simp)

@[simp] theorem clearCurrent_mode (s : State) : (clearCurrent s).mode = s.mode := by
  unfold clearCurrent
  (try dsimp only) <;> (repeat' split) <;> (try simp)

@[simp] theorem askLeg_mode (a b : Pos) (fork : Bool) (s : State) : (askLeg a b fork s).2.mode = s.mode := by
  unfold askLeg
  (try dsimp only) <;> (repeat' split) <;> (try simp)

@[simp] theorem askEstimate_mode (target : Target) (fork : Bool) (s : State) : (askEstimate target fork s).2.mode = s.mode := by
  unfold askEstimate
  (try dsimp only) <;> (repeat' split) <;> (try simp)

@[simp] theorem locateBin_mode (b : Nat) (loc : Location) (s : State) : (locateBin b loc s).mode = s.mode := by
  unfold locateBin
  (try dsimp only) <;> (repeat' split) <;> (try simp)

@[simp] theorem setPortOut_mode (x : PlaceState) (s : State) : (setPortOut x s).mode = s.mode := by
  unfold setPortOut
  (try dsimp only) <;> (repeat' split) <;> (try simp)

@[simp] theorem setPortIn_mode (x : PlaceState) (s : State) : (setPortIn x s).mode = s.mode := by
  unfold setPortIn
  (try dsimp only) <;> (repeat' split) <;> (try simp)

@[simp] theorem stampStart_mode (s : State) : (stampStart s).mode = s.mode := by
  unfold stampStart
  (try dsimp only) <;> (repeat' split) <;> (try simp)

@[simp] theorem reportStart_mode (m : Move) (s : State) : (reportStart m s).mode = s.mode := by
  unfold reportStart
  (try dsimp only) <;> (repeat' split) <;> (try simp)

@[simp] theorem startMove_mode (m : Move) (s : State) : (startMove m s).mode = s.mode := by
  unfold startMove
  (try dsimp only) <;> (repeat' split) <;> (try simp)

@[simp] theorem holdDeliver_mode (m : Move) (s : State) : (holdDeliver m s).mode = s.mode := by
  unfold holdDeliver
  (try dsimp only) <;> (repeat' split) <;> (try simp)

@[simp] theorem stageContinuation_mode (m : Move) (s : State) : (stageContinuation m s).mode = s.mode := by
  unfold stageContinuation
  (try dsimp only) <;> (repeat' split) <;> (try simp)

@[simp] theorem makeCurrent_mode (kind : MoveKind) (target : Target) (visit : Option Nat) (bound : Bool) (s : State) : (makeCurrent kind target visit bound s).mode = s.mode := by
  unfold makeCurrent
  (try dsimp only) <;> (repeat' split) <;> (try simp)

@[simp] theorem discardStaged_mode (s : State) : (discardStaged s).mode = s.mode := by
  unfold discardStaged
  (try dsimp only) <;> (repeat' split) <;> (try simp)

@[simp] theorem storeBlocked_mode (bin : Nat) (slot : SlotName) (s : State) : (storeBlocked bin slot s).mode = s.mode := by
  unfold storeBlocked
  (try dsimp only) <;> (repeat' split) <;> (try simp)

@[simp] theorem makeStore_mode (bin : Nat) (s : State) : (makeStore bin s).mode = s.mode := by
  unfold makeStore
  (try dsimp only) <;> (repeat' split) <;> (try simp)

@[simp] theorem nextMove_mode (s : State) : (nextMove s).mode = s.mode := by
  unfold nextMove
  (try dsimp only) <;> (repeat' split) <;> (try simp)

@[simp] theorem park_mode (s : State) : (park s).mode = s.mode := by
  unfold park
  (try dsimp only) <;> (repeat' split) <;> (try simp)

@[simp] theorem promote_mode (s : State) : (promote s).mode = s.mode := by
  unfold promote
  (try dsimp only) <;> (repeat' split) <;> (try simp)

@[simp] theorem afterCompletion_mode (s : State) : (afterCompletion s).mode = s.mode := by
  unfold afterCompletion
  (try dsimp only) <;> (repeat' split) <;> (try simp)

@[simp] theorem storeBin_mode (bin : Nat) (content : Option Contents) (room : Option (Nat × Nat)) (s : State) : (storeBin bin content room s).mode = s.mode := by
  unfold storeBin
  (try dsimp only) <;> (repeat' split) <;> (try simp)

@[simp] theorem carryFetched_mode (bin : Nat) (visit : Option Nat) (uncertain : Bool) (d : Directory) (s : State) : (carryFetched bin visit uncertain d s).mode = s.mode := by
  unfold carryFetched
  (try dsimp only) <;> (repeat' split) <;> (try simp)

@[simp] theorem abandonFetch_mode (m : Move) (s : State) : (abandonFetch m s).mode = s.mode := by
  unfold abandonFetch
  (try dsimp only) <;> (repeat' split) <;> (try simp)

@[simp] theorem abandonDeliver_mode (m : Move) (s : State) : (abandonDeliver m s).mode = s.mode := by
  unfold abandonDeliver
  (try dsimp only) <;> (repeat' split) <;> (try simp)

@[simp] theorem abandonTakeIn_mode (s : State) : (abandonTakeIn s).mode = s.mode := by
  unfold abandonTakeIn
  (try dsimp only) <;> (repeat' split) <;> (try simp)

@[simp] theorem abandonStore_mode (s : State) : (abandonStore s).mode = s.mode := by
  unfold abandonStore
  (try dsimp only) <;> (repeat' split) <;> (try simp)

@[simp] theorem abandonMove_mode (s : State) : (abandonMove s).mode = s.mode := by
  unfold abandonMove
  (try dsimp only) <;> (repeat' split) <;> (try simp)

@[simp] theorem stall_mode (m : Move) (s : State) : (stall m s).mode = s.mode := by
  unfold stall
  (try dsimp only) <;> (repeat' split) <;> (try simp)

@[simp] theorem loadFault_mode (bin : Nat) (s : State) : (loadFault bin s).mode = s.mode := by
  unfold loadFault
  (try dsimp only) <;> (repeat' split) <;> (try simp)

@[simp] theorem resolveLoad_mode (s : State) : (resolveLoad s).2.mode = s.mode := by
  unfold resolveLoad
  (try dsimp only) <;> (repeat' split) <;> (try simp)

@[simp] theorem portOutEmptied_mode (s : State) : (portOutEmptied s).mode = s.mode := by
  unfold portOutEmptied
  (try dsimp only) <;> (repeat' split) <;> (try simp)

@[simp] theorem dropWaiting_mode (s : State) : (dropWaiting s).mode = s.mode := by
  unfold dropWaiting
  (try dsimp only) <;> (repeat' split) <;> (try simp)

@[simp] theorem craneEntersFire_mode (s : State) : (craneEntersFire s).mode = s.mode := by
  unfold craneEntersFire
  (try dsimp only) <;> (repeat' split) <;> (try simp)

@[simp] theorem unpark_mode (s : State) : (unpark s).mode = s.mode := by
  unfold unpark
  (try dsimp only) <;> (repeat' split) <;> (try simp)

@[simp] theorem craneStop_mode (s : State) : (craneStop s).mode = s.mode := by
  unfold craneStop
  (try dsimp only) <;> (repeat' split) <;> (try simp)

@[simp] theorem chooseAt_mode (s : State) (order : Nat) : (chooseAt s order).2.mode = s.mode := by
  unfold chooseAt
  (try dsimp only) <;> (repeat' split) <;> (try simp)

@[simp] theorem stageFree_mode (w : Work) (s : State) : (stageFree w s).mode = s.mode := by
  unfold stageFree
  (try dsimp only) <;> (repeat' split) <;> (try simp)

@[simp] theorem giveFree_mode (w : Work) (s : State) : (giveFree w s).mode = s.mode := by
  unfold giveFree
  (try dsimp only) <;> (repeat' split) <;> (try simp)

@[simp] theorem selectAmong_mode (orders : List Nat) (give : Work → State → State) (h : ∀ w s, (give w s).mode = s.mode)
    (s : State) : (selectAmong orders give s).mode = s.mode := by
  unfold selectAmong
  split
  · next o _ =>
    have hc := chooseAt_mode s o
    split <;> simp_all
  · rfl

@[simp] theorem giveBack_mode (m : Move) (s : State) : (giveBack m s).mode = s.mode := by
  unfold giveBack
  (try dsimp only) <;> (repeat' split) <;> (try simp)

@[simp] theorem displace_mode (m : Move) (s : State) : (displace m s).mode = s.mode := by
  unfold displace
  (try dsimp only) <;> (repeat' split) <;> (try simp)

@[simp] theorem selectWork_mode (s : State) : (selectWork s).mode = s.mode := by
  unfold selectWork
  (try dsimp only) <;> (repeat' split) <;> (try simp)

@[simp] theorem setLane_mode (l : Lane) (v : PlaceState) (s : State) : (setLane l v s).mode = s.mode := by
  unfold setLane
  (try dsimp only) <;> (repeat' split) <;> (try simp)

@[simp] theorem setOut_mode (l : Lane) (v : Option Handoff) (s : State) : (setOut l v s).mode = s.mode := by
  unfold setOut
  (try dsimp only) <;> (repeat' split) <;> (try simp)

@[simp] theorem setIncoming_mode (l : Lane) (v : Option Handoff) (s : State) : (setIncoming l v s).mode = s.mode := by
  unfold setIncoming
  (try dsimp only) <;> (repeat' split) <;> (try simp)

@[simp] theorem clearRetry_mode (l : Lane) (s : State) : (clearRetry l s).mode = s.mode := by
  unfold clearRetry
  (try dsimp only) <;> (repeat' split) <;> (try simp)

@[simp] theorem driveLane_mode (l : Lane) (on : Bool) (s : State) : (driveLane l on s).mode = s.mode := by
  unfold driveLane
  (try dsimp only) <;> (repeat' split) <;> (try simp)

@[simp] theorem handoffLost_mode (bin peer : Nat) (place : PlaceCode) (hop : Nat) (s : State) : (handoffLost bin peer place hop s).mode = s.mode := by
  unfold handoffLost
  (try dsimp only) <;> (repeat' split) <;> (try simp)

@[simp] theorem grantPortOut_mode (s : State) : (grantPortOut s).mode = s.mode := by
  unfold grantPortOut
  (try dsimp only) <;> (repeat' split) <;> (try simp)

@[simp] theorem keepDown_mode (s : State) : (keepDown s).mode = s.mode := by
  unfold keepDown
  (try dsimp only) <;> (repeat' split) <;> (try simp)

@[simp] theorem mergeArbiter_mode (s : State) : (mergeArbiter s).mode = s.mode := by
  unfold mergeArbiter
  (try dsimp only) <;> (repeat' split) <;> (try simp)

@[simp] theorem noteFree_mode (bin : Nat) (visit : Option Nat) (s : State) : (noteFree bin visit s).mode = s.mode := by
  unfold noteFree
  (try dsimp only) <;> (repeat' split) <;> (try simp)

@[simp] theorem handOver_mode (bin : Nat) (visit : Option Nat) (s : State) : (handOver bin visit s).mode = s.mode := by
  unfold handOver
  (try dsimp only) <;> (repeat' split) <;> (try simp)

@[simp] theorem offerLane_mode (l : Lane) (s : State) : (offerLane l s).mode = s.mode := by
  unfold offerLane
  (try dsimp only) <;> (repeat' split) <;> (try simp)

@[simp] theorem withdrawOffer_mode (l : Lane) (s : State) : (withdrawOffer l s).mode = s.mode := by
  unfold withdrawOffer
  (try dsimp only) <;> (repeat' split) <;> (try simp)

@[simp] theorem offerOutcome_mode (l : Lane) (peer : Nat) (heard : Bool) (s : State) : (offerOutcome l peer heard s).mode = s.mode := by
  unfold offerOutcome
  (try dsimp only) <;> (repeat' split) <;> (try simp)

@[simp] theorem acceptOffer_mode (l : Lane) (sender : Nat) (r : TravelRecord) (s : State) : (acceptOffer l sender r s).mode = s.mode := by
  unfold acceptOffer
  (try dsimp only) <;> (repeat' split) <;> (try simp)

@[simp] theorem noRoom_mode (l : Lane) (r : TravelRecord) (s : State) : (noRoom l r s).mode = s.mode := by
  unfold noRoom
  (try dsimp only) <;> (repeat' split) <;> (try simp)

@[simp] theorem mergeWins_mode (s : State) : (mergeWins s).mode = s.mode := by
  unfold mergeWins
  (try dsimp only) <;> (repeat' split) <;> (try simp)

@[simp] theorem hearOffer_mode (sender : Nat) (r : TravelRecord) (s : State) : (hearOffer sender r s).2.mode = s.mode := by
  unfold hearOffer
  (try dsimp only) <;> (repeat' split) <;> (try simp)

@[simp] theorem startDiversion_mode (r : TravelRecord) (s : State) : (startDiversion r s).mode = s.mode := by
  unfold startDiversion
  (try dsimp only) <;> (repeat' split) <;> (try simp)

@[simp] theorem beginDiversion_mode (r : TravelRecord) (s : State) : (beginDiversion r s).mode = s.mode := by
  unfold beginDiversion
  split <;> simp

@[simp] theorem blockUp_mode (r : TravelRecord) (slot : SlotName) (s : State) : (blockUp r slot s).mode = s.mode := by
  unfold blockUp
  (try dsimp only) <;> (repeat' split) <;> (try simp)

@[simp] theorem divert_mode (r : TravelRecord) (s : State) : (divert r s).mode = s.mode := by
  unfold divert
  (try dsimp only) <;> (repeat' split) <;> (try simp)

@[simp] theorem diversionCheck_mode (s : State) : (diversionCheck s).mode = s.mode := by
  unfold diversionCheck
  (try dsimp only) <;> (repeat' split) <;> (try simp)

@[simp] theorem fireDiversion_mode (s : State) : (fireDiversion s).mode = s.mode := by
  unfold fireDiversion
  (try dsimp only) <;> (repeat' split) <;> (try simp)

@[simp] theorem unannounced_mode (place : SpinePlace) (s : State) : (unannounced place s).mode = s.mode := by
  unfold unannounced
  (try dsimp only) <;> (repeat' split) <;> (try simp)

@[simp] theorem mergeArrives_mode (s : State) : (mergeArrives s).mode = s.mode := by
  unfold mergeArrives
  (try dsimp only) <;> (repeat' split) <;> (try simp)

@[simp] theorem laneArrives_mode (l : Lane) (h : Handoff) (s : State) : (laneArrives l h s).mode = s.mode := by
  unfold laneArrives
  (try dsimp only) <;> (repeat' split) <;> (try simp)

@[simp] theorem diversionArrives_mode (s : State) : (diversionArrives s).mode = s.mode := by
  unfold diversionArrives
  (try dsimp only) <;> (repeat' split) <;> (try simp)

@[simp] theorem laneEntry_mode (l : Lane) (s : State) : (laneEntry l s).mode = s.mode := by
  unfold laneEntry
  (try dsimp only) <;> (repeat' split) <;> (try simp)

@[simp] theorem entryReport_mode (place : SpinePlace) (s : State) : (entryReport place s).mode = s.mode := by
  unfold entryReport
  (try dsimp only) <;> (repeat' split) <;> (try simp)

@[simp] theorem positionReport_mode (place : SpinePlace) (s : State) : (positionReport place s).mode = s.mode := by
  unfold positionReport
  (try dsimp only) <;> (repeat' split) <;> (try simp)

@[simp] theorem takenLane_mode (l : Lane) (b : TakenBody) (s : State) : (takenLane l b s).mode = s.mode := by
  unfold takenLane
  (try dsimp only) <;> (repeat' split) <;> (try simp)

@[simp] theorem completeVisit_mode (v : Visit) (s : State) : (completeVisit v s).mode = s.mode := by
  unfold completeVisit
  (try dsimp only) <;> (repeat' split) <;> (try simp)

@[simp] theorem deskTakes_mode (b : TakenBody) (s : State) : (deskTakes b s).mode = s.mode := by
  unfold deskTakes
  (try dsimp only) <;> (repeat' split) <;> (try simp)

@[simp] theorem hearTaken_mode (b : TakenBody) (s : State) : (hearTaken b s).mode = s.mode := by
  unfold hearTaken
  (try dsimp only) <;> (repeat' split) <;> (try simp)

@[simp] theorem loseHome_mode (r : TravelRecord) (s : State) : (loseHome r s).mode = s.mode := by
  unfold loseHome
  (try dsimp only) <;> (repeat' split) <;> (try simp)

@[simp] theorem outExpires_mode (l : Lane) (h : Handoff) (s : State) : (outExpires l h s).mode = s.mode := by
  unfold outExpires
  (try dsimp only) <;> (repeat' split) <;> (try simp)

@[simp] theorem diversionExpires_mode (h : Handoff) (s : State) : (diversionExpires h s).mode = s.mode := by
  unfold diversionExpires
  (try dsimp only) <;> (repeat' split) <;> (try simp)

@[simp] theorem inExpires_mode (l : Lane) (s : State) : (inExpires l s).mode = s.mode := by
  unfold inExpires
  (try dsimp only) <;> (repeat' split) <;> (try simp)

@[simp] theorem mergeExpires_mode (h : Handoff) (s : State) : (mergeExpires h s).mode = s.mode := by
  unfold mergeExpires
  (try dsimp only) <;> (repeat' split) <;> (try simp)

@[simp] theorem mergeWaitExpires_mode (s : State) : (mergeWaitExpires s).mode = s.mode := by
  unfold mergeWaitExpires
  (try dsimp only) <;> (repeat' split) <;> (try simp)

@[simp] theorem hearHandoffLost_mode (sender : Nat) (b : FaultBody) (s : State) : (hearHandoffLost sender b s).mode = s.mode := by
  unfold hearHandoffLost
  (try dsimp only) <;> (repeat' split) <;> (try simp)

@[simp] theorem lowerCaught_mode (sender bin : Nat) (s : State) : (lowerCaught sender bin s).mode = s.mode := by
  unfold lowerCaught
  (try dsimp only) <;> (repeat' split) <;> (try simp)

@[simp] theorem hearBinCaught_mode (sender : Nat) (b : FaultBody) (s : State) : (hearBinCaught sender b s).mode = s.mode := by
  unfold hearBinCaught
  (try dsimp only) <;> (repeat' split) <;> (try simp)

@[simp] theorem dropKept_mode (kept : Option TravelRecord) (s : State) : (dropKept kept s).mode = s.mode := by
  unfold dropKept
  (try dsimp only) <;> (repeat' split) <;> (try simp)

@[simp] theorem clearPlace_mode (place : SpinePlace) (s : State) : (clearPlace place s).mode = s.mode := by
  unfold clearPlace
  (try dsimp only) <;> (repeat' split) <;> (try simp)

@[simp] theorem clearBlocked_mode (s : State) : (clearBlocked s).mode = s.mode := by
  unfold clearBlocked
  (try dsimp only) <;> (repeat' split) <;> (try simp)

@[simp] theorem binCaught_mode (r : TravelRecord) (place : PlaceCode) (s : State) : (binCaught r place s).mode = s.mode := by
  unfold binCaught
  (try dsimp only) <;> (repeat' split) <;> (try simp)

@[simp] theorem catchDown_mode (s : State) : (catchDown s).mode = s.mode := by
  unfold catchDown
  (try dsimp only) <;> (repeat' split) <;> (try simp)

@[simp] theorem catchUp_mode (s : State) : (catchUp s).mode = s.mode := by
  unfold catchUp
  (try dsimp only) <;> (repeat' split) <;> (try simp)

@[simp] theorem hearRoomCall_mode (sender : Nat) (b : RoomCallBody) (s : State) : (hearRoomCall sender b s).mode = s.mode := by
  unfold hearRoomCall
  (try dsimp only) <;> (repeat' split) <;> (try simp)

@[simp] theorem beginEvaluation_mode (s : State) : (beginEvaluation s).mode = s.mode := by
  unfold beginEvaluation
  (try dsimp only) <;> (repeat' split) <;> (try simp)

@[simp] theorem bidFor_mode (c : CallEntry) (cost b : Nat) (s : State) : (bidFor c cost b s).mode = s.mode := by
  unfold bidFor
  (try dsimp only) <;> (repeat' split) <;> (try simp)

@[simp] theorem evaluationDone_mode (s : State) : (evaluationDone s).mode = s.mode := by
  unfold evaluationDone
  (try dsimp only) <;> (repeat' split) <;> (try simp)

@[simp] theorem hearBid_mode (b : BidBody) (s : State) : (hearBid b s).mode = s.mode := by
  unfold hearBid
  (try dsimp only) <;> (repeat' split) <;> (try simp)

@[simp] theorem beginClaim_mode (e : CallEntry) (s : State) : (beginClaim e s).mode = s.mode := by
  unfold beginClaim
  (try dsimp only) <;> (repeat' split) <;> (try simp)

@[simp] theorem windowExpires_mode (e : CallEntry) (s : State) : (windowExpires e s).mode = s.mode := by
  unfold windowExpires
  (try dsimp only) <;> (repeat' split) <;> (try simp)

@[simp] theorem hearClaim_mode (b : ClaimBody) (s : State) : (hearClaim b s).mode = s.mode := by
  unfold hearClaim
  (try dsimp only) <;> (repeat' split) <;> (try simp)

@[simp] theorem claimOutcome_mode (c : Call) (heard : Bool) (s : State) : (claimOutcome c heard s).mode = s.mode := by
  unfold claimOutcome
  (try dsimp only) <;> (repeat' split) <;> (try simp)

@[simp] theorem callSent_mode (c : Call) (st : CallState) (s : State) : (callSent c st s).mode = s.mode := by
  unfold callSent
  (try dsimp only) <;> (repeat' split) <;> (try simp)

@[simp] theorem retestRoute_mode (s : State) : (retestRoute s).mode = s.mode := by
  unfold retestRoute
  (try dsimp only) <;> (repeat' split) <;> (try simp)

@[simp] theorem leaveWorking_mode (old : Mode) (s : State) : (leaveWorking old s).mode = s.mode := by
  unfold leaveWorking
  (try dsimp only) <;> (repeat' split) <;> (try simp)

@[simp] theorem enterFire_mode (old : Mode) (s : State) : (enterFire old s).mode = s.mode := by
  unfold enterFire
  (try dsimp only) <;> (repeat' split) <;> (try simp)

@[simp] theorem fireFrame_mode (item : Item) (o : Owner) (s : State) : (fireFrame item o s).mode = s.mode := by
  unfold fireFrame
  (try dsimp only) <;> (repeat' split) <;> (try simp)

@[simp] theorem setShutter_mode (x : Shutter) (s : State) : (setShutter x s).mode = s.mode := by
  unfold setShutter
  (try dsimp only) <;> (repeat' split) <;> (try simp)

@[simp] theorem startClearing_mode (x : Shutter) (s : State) : (startClearing x s).mode = s.mode := by
  unfold startClearing
  (try dsimp only) <;> (repeat' split) <;> (try simp)

@[simp] theorem shutterProcedure_mode (s : State) : (shutterProcedure s).mode = s.mode := by
  unfold shutterProcedure
  (try dsimp only) <;> (repeat' split) <;> (try simp)

@[simp] theorem startClosing_mode (x : Shutter) (s : State) : (startClosing x s).mode = s.mode := by
  unfold startClosing
  (try dsimp only) <;> (repeat' split) <;> (try simp)

@[simp] theorem disownClosing_mode (s : State) : (disownClosing s).mode = s.mode := by
  unfold disownClosing
  (try dsimp only) <;> (repeat' split) <;> (try simp)

@[simp] theorem dropClosing_mode (s : State) : (dropClosing s).mode = s.mode := by
  unfold dropClosing
  (try dsimp only) <;> (repeat' split) <;> (try simp)

@[simp] theorem clearCheck_mode (s : State) : (clearCheck s).mode = s.mode := by
  unfold clearCheck
  (try dsimp only) <;> (repeat' split) <;> (try simp)

@[simp] theorem closingOutcome_mode (heard : Bool) (s : State) : (closingOutcome heard s).mode = s.mode := by
  unfold closingOutcome
  (try dsimp only) <;> (repeat' split) <;> (try simp)

@[simp] theorem forceClose_mode (x : Shutter) (s : State) : (forceClose x s).mode = s.mode := by
  unfold forceClose
  (try dsimp only) <;> (repeat' split) <;> (try simp)

@[simp] theorem closeLimitExpires_mode (s : State) : (closeLimitExpires s).mode = s.mode := by
  unfold closeLimitExpires
  (try dsimp only) <;> (repeat' split) <;> (try simp)

@[simp] theorem shutterClosed_mode (s : State) : (shutterClosed s).mode = s.mode := by
  unfold shutterClosed
  (try dsimp only) <;> (repeat' split) <;> (try simp)

@[simp] theorem becomeOpen_mode (x : Shutter) (s : State) : (becomeOpen x s).mode = s.mode := by
  unfold becomeOpen
  (try dsimp only) <;> (repeat' split) <;> (try simp)

@[simp] theorem shutterOpened_mode (s : State) : (shutterOpened s).mode = s.mode := by
  unfold shutterOpened
  (try dsimp only) <;> (repeat' split) <;> (try simp)

@[simp] theorem shutterFault_mode (d : ShutterDir) (x : Shutter) (s : State) : (shutterFault d x s).mode = s.mode := by
  unfold shutterFault
  (try dsimp only) <;> (repeat' split) <;> (try simp)

@[simp] theorem driveLimitExpires_mode (s : State) : (driveLimitExpires s).mode = s.mode := by
  unfold driveLimitExpires
  (try dsimp only) <;> (repeat' split) <;> (try simp)

@[simp] theorem reopen_mode (s : State) : (reopen s).mode = s.mode := by
  unfold reopen
  (try dsimp only) <;> (repeat' split) <;> (try simp)

@[simp] theorem endFoundShut_mode (c : Compartment) (s : State) : (endFoundShut c s).mode = s.mode := by
  unfold endFoundShut
  (try dsimp only) <;> (repeat' split) <;> (try simp)

@[simp] theorem setAlarm_mode (c : Compartment) (r : AlarmRec) (s : State) : (setAlarm c r s).mode = s.mode := by
  unfold setAlarm
  (try dsimp only) <;> (repeat' split) <;> (try simp)

@[simp] theorem queueAlarm_mode (c : Compartment) (epoch : Nat) (i : FireInput) (s : State) : (queueAlarm c epoch i s).mode = s.mode := by
  unfold queueAlarm
  (try dsimp only) <;> (repeat' split) <;> (try simp)

@[simp] theorem setFilter_mode (i : FireInput) (x : InputFilter) (s : State) : (setFilter i x s).mode = s.mode := by
  unfold setFilter
  (try dsimp only) <;> (repeat' split) <;> (try simp)

@[simp] theorem inputReadsActive_mode (i : FireInput) (s : State) : (inputReadsActive i s).mode = s.mode := by
  unfold inputReadsActive
  (try dsimp only) <;> (repeat' split) <;> (try simp)

@[simp] theorem inputReadsInactive_mode (i : FireInput) (s : State) : (inputReadsInactive i s).mode = s.mode := by
  unfold inputReadsInactive
  (try dsimp only) <;> (repeat' split) <;> (try simp)

@[simp] theorem stockRefused_mode (r : StockReason) (slot : SlotName) (bin : Nat) (s : State) : (stockRefused r slot bin s).mode = s.mode := by
  unfold stockRefused
  (try dsimp only) <;> (repeat' split) <;> (try simp)

@[simp] theorem gateNotice_mode (a : Answers) (i : Item) (s : State) : (gateNotice a i s).2.mode = s.mode := by
  unfold gateNotice
  (try dsimp only) <;> (repeat' split) <;> (try simp)

@[simp] theorem lendJoins_mode (b : LendBody) (w : Visit) (s : State) : (lendJoins b w s).mode = s.mode := by
  unfold lendJoins
  (try dsimp only) <;> (repeat' split) <;> (try simp)

@[simp] theorem lendMakes_mode (b : LendBody) (s : State) : (lendMakes b s).mode = s.mode := by
  unfold lendMakes
  (try dsimp only) <;> (repeat' split) <;> (try simp)

@[simp] theorem hearLend_mode (b : LendBody) (s : State) : (hearLend b s).2.mode = s.mode := by
  unfold hearLend
  (try dsimp only) <;> (repeat' split) <;> (try simp)

@[simp] theorem withdrawStaged_mode (n : Nat) (s : State) : (withdrawStaged n s).mode = s.mode := by
  unfold withdrawStaged
  (try dsimp only) <;> (repeat' split) <;> (try simp)

@[simp] theorem cancelListed_mode (id : Nat) (v : Visit) (s : State) : (cancelListed id v s).mode = s.mode := by
  unfold cancelListed
  (try dsimp only) <;> (repeat' split) <;> (try simp)

@[simp] theorem cancelMarks_mode (id : Nat) (s : State) : (cancelMarks id s).mode = s.mode := by
  unfold cancelMarks
  (try dsimp only) <;> (repeat' split) <;> (try simp)

@[simp] theorem hearCancel_mode (id : Nat) (s : State) : (hearCancel id s).2.mode = s.mode := by
  unfold hearCancel
  (try dsimp only) <;> (repeat' split) <;> (try simp)

@[simp] theorem hearStockAt_mode (n : SlotName) (s : State) : (hearStockAt n s).2.mode = s.mode := by
  unfold hearStockAt
  (try dsimp only) <;> (repeat' split) <;> (try simp)

@[simp] theorem binRemoved_mode (bin : Nat) (why : FailReason) (s : State) : (binRemoved bin why s).mode = s.mode := by
  unfold binRemoved
  (try dsimp only) <;> (repeat' split) <;> (try simp)

@[simp] theorem stockApplied_mode (sl : Slot) (b : StockBody) (s : State) : (stockApplied sl b s).mode = s.mode := by
  unfold stockApplied
  (try dsimp only) <;> (repeat' split) <;> (try simp)

@[simp] theorem hearStock_mode (b : StockBody) (s : State) : (hearStock b s).2.mode = s.mode := by
  unfold hearStock
  (try dsimp only) <;> (repeat' split) <;> (try simp)

@[simp] theorem hearWriteOff_mode (bin : Nat) (s : State) : (hearWriteOff bin s).2.mode = s.mode := by
  unfold hearWriteOff
  (try dsimp only) <;> (repeat' split) <;> (try simp)

@[simp] theorem leaveHalt_mode (s : State) : (leaveHalt s).mode = s.mode := by
  unfold leaveHalt
  (try dsimp only) <;> (repeat' split) <;> (try simp)

@[simp] theorem resumeSteps_mode (s : State) : (resumeSteps s).mode = s.mode := by
  unfold resumeSteps
  (try dsimp only) <;> (repeat' split) <;> (try simp)

@[simp] theorem hearQuery_mode (s : State) : (hearQuery s).mode = s.mode := by
  unfold hearQuery
  (try dsimp only) <;> (repeat' split) <;> (try simp)

@[simp] theorem hearFault_mode (sender : Nat) (b : FaultBody) (s : State) : (hearFault sender b s).mode = s.mode := by
  unfold hearFault
  (try dsimp only) <;> (repeat' split) <;> (try simp)

@[simp] theorem enterNeighbour_mode (h : Header) (s : State) : (enterNeighbour h s).mode = s.mode := by
  unfold enterNeighbour
  (try dsimp only) <;> (repeat' split) <;> (try simp)

@[simp] theorem setSlots_mode (x : Bool × Bool) (s : State) : (setSlots x s).mode = s.mode := by
  unfold setSlots
  (try dsimp only) <;> (repeat' split) <;> (try simp)

@[simp] theorem reportSent_mode (o : Owner) (s : State) : (reportSent o s).mode = s.mode := by
  unfold reportSent
  (try dsimp only) <;> (repeat' split) <;> (try simp)

@[simp] theorem frameWins_mode (f : TxFrame) (q : List TxFrame) (s : State) : (frameWins f q s).mode = s.mode := by
  unfold frameWins
  (try dsimp only) <;> (repeat' split) <;> (try simp)

@[simp] theorem contend_mode (rivals : List (Nat × Nat)) (s : State) : (contend rivals s).mode = s.mode := by
  unfold contend
  (try dsimp only) <;> (repeat' split) <;> (try simp)

@[simp] theorem reportOutcome_mode (f : TxFrame) (o : TxOutcome) (s : State) : (reportOutcome f o s).mode = s.mode := by
  unfold reportOutcome
  (try dsimp only) <;> (repeat' split) <;> (try simp)

@[simp] theorem frameEnds_mode (o : TxOutcome) (s : State) : (frameEnds o s).mode = s.mode := by
  unfold frameEnds
  (try dsimp only) <;> (repeat' split) <;> (try simp)

@[simp] theorem parkCompletes_mode (s : State) : (parkCompletes s).mode = s.mode := by
  unfold parkCompletes
  (try dsimp only) <;> (repeat' split) <;> (try simp)

@[simp] theorem storeAgain_mode (new : Slot) (s : State) : (storeAgain new s).mode = s.mode := by
  unfold storeAgain
  (try dsimp only) <;> (repeat' split) <;> (try simp)

@[simp] theorem slotConflictFault_mode (bin : Nat) (old new : Slot) (s : State) : (slotConflictFault bin old new s).mode = s.mode := by
  unfold slotConflictFault
  (try dsimp only) <;> (repeat' split) <;> (try simp)

@[simp] theorem slotConflict_mode (bin : Nat) (old : Slot) (s : State) : (slotConflict bin old s).mode = s.mode := by
  unfold slotConflict
  (try dsimp only) <;> (repeat' split) <;> (try simp)

@[simp] theorem storeInPosition_mode (m : Move) (s : State) : (storeInPosition m s).mode = s.mode := by
  unfold storeInPosition
  (try dsimp only) <;> (repeat' split) <;> (try simp)

@[simp] theorem inPosition_mode (s : State) : (inPosition s).mode = s.mode := by
  unfold inPosition
  (try dsimp only) <;> (repeat' split) <;> (try simp)

@[simp] theorem tagUnread_mode (m : Move) (s : State) : (tagUnread m s).mode = s.mode := by
  unfold tagUnread
  (try dsimp only) <;> (repeat' split) <;> (try simp)

@[simp] theorem discardBound_mode (s : State) : (discardBound s).mode = s.mode := by
  unfold discardBound
  (try dsimp only) <;> (repeat' split) <;> (try simp)

@[simp] theorem tagMismatch_mode (m : Move) (x : Nat) (s : State) : (tagMismatch m x s).mode = s.mode := by
  unfold tagMismatch
  (try dsimp only) <;> (repeat' split) <;> (try simp)

@[simp] theorem forkTagRead_mode (r : TagRead) (s : State) : (forkTagRead r s).mode = s.mode := by
  unfold forkTagRead
  (try dsimp only) <;> (repeat' split) <;> (try simp)

@[simp] theorem takeOutRefused_mode (m : Move) (s : State) : (takeOutRefused m s).mode = s.mode := by
  unfold takeOutRefused
  (try dsimp only) <;> (repeat' split) <;> (try simp)

@[simp] theorem fetchDone_mode (m : Move) (s : State) : (fetchDone m s).mode = s.mode := by
  unfold fetchDone
  (try dsimp only) <;> (repeat' split) <;> (try simp)

@[simp] theorem deliverDone_mode (s : State) : (deliverDone s).mode = s.mode := by
  unfold deliverDone
  (try dsimp only) <;> (repeat' split) <;> (try simp)

@[simp] theorem takeInDone_mode (s : State) : (takeInDone s).mode = s.mode := by
  unfold takeInDone
  (try dsimp only) <;> (repeat' split) <;> (try simp)

@[simp] theorem storeDone_mode (s : State) : (storeDone s).mode = s.mode := by
  unfold storeDone
  (try dsimp only) <;> (repeat' split) <;> (try simp)

@[simp] theorem forkDone_mode (s : State) : (forkDone s).mode = s.mode := by
  unfold forkDone
  (try dsimp only) <;> (repeat' split) <;> (try simp)

@[simp] theorem fireStopped_mode (s : State) : (fireStopped s).mode = s.mode := by
  unfold fireStopped
  (try dsimp only) <;> (repeat' split) <;> (try simp)

@[simp] theorem stopStopped_mode (s : State) : (stopStopped s).mode = s.mode := by
  unfold stopStopped
  (try dsimp only) <;> (repeat' split) <;> (try simp)

@[simp] theorem craneStopped_mode (s : State) : (craneStopped s).mode = s.mode := by
  unfold craneStopped
  (try dsimp only) <;> (repeat' split) <;> (try simp)

@[simp] theorem budgetExpires_mode (s : State) : (budgetExpires s).mode = s.mode := by
  unfold budgetExpires
  (try dsimp only) <;> (repeat' split) <;> (try simp)

@[simp] theorem storeBack_mode (s : State) : (storeBack s).mode = s.mode := by
  unfold storeBack
  (try dsimp only) <;> (repeat' split) <;> (try simp)

@[simp] theorem portTagFails_mode (r : TravelRecord) (id : Nat) (s : State) : (portTagFails r id s).mode = s.mode := by
  unfold portTagFails
  (try dsimp only) <;> (repeat' split) <;> (try simp)

@[simp] theorem portInTagRead_mode (id : Option Nat) (s : State) : (portInTagRead id s).mode = s.mode := by
  unfold portInTagRead
  (try dsimp only) <;> (repeat' split) <;> (try simp)

@[simp] theorem transferOutExpires_mode (l : Lane) (s : State) : (transferOutExpires l s).mode = s.mode := by
  unfold transferOutExpires
  (try dsimp only) <;> (repeat' split) <;> (try simp)

@[simp] theorem diversionTransferExpires_mode (s : State) : (diversionTransferExpires s).mode = s.mode := by
  unfold diversionTransferExpires
  (try dsimp only) <;> (repeat' split) <;> (try simp)

@[simp] theorem mergeTransferExpires_mode (s : State) : (mergeTransferExpires s).mode = s.mode := by
  unfold mergeTransferExpires
  (try dsimp only) <;> (repeat' split) <;> (try simp)

@[simp] theorem callWindowExpires_mode (c : Call) (s : State) : (callWindowExpires c s).mode = s.mode := by
  unfold callWindowExpires
  (try dsimp only) <;> (repeat' split) <;> (try simp)

@[simp] theorem sweepBin_mode (b : Nat) (s : State) : (sweepBin b s).mode = s.mode := by
  unfold sweepBin
  (try dsimp only) <;> (repeat' split) <;> (try simp)

@[simp] theorem overdueSweep_mode (s : State) : (overdueSweep s).mode = s.mode := by
  unfold overdueSweep
  (try dsimp only) <;> (repeat' split) <;> (try simp)

@[simp] theorem closingRetryExpires_mode (s : State) : (closingRetryExpires s).mode = s.mode := by
  unfold closingRetryExpires
  (try dsimp only) <;> (repeat' split) <;> (try simp)

end Sys2Proof.Machine
end

