-- ==== Sys2Proof/Laws/Hear.lean ====
section
/-! SUPPORT. A frame heard, said once: what its entry in the neighbour table leaves as it is, and how its first item and the
items after it follow (R167, R170). -/

namespace Sys2Proof.Machine
open Sys2Proof Safety

/-! ## The state at a frame's first item -/

@[simp] theorem entered_fixed (p : Pins) (h : Header) (s : State) : (entered p h s).fixed = (s.setPins p).fixed := by
  simp [entered]

@[simp] theorem entered_clock (p : Pins) (h : Header) (s : State) : (entered p h s).clock = s.clock :=
  congrArg (·.1) (entered_fixed p h s)

@[simp] theorem entered_inReset (p : Pins) (h : Header) (s : State) : (entered p h s).inReset = s.inReset :=
  congrArg (·.2.1) (entered_fixed p h s)

@[simp] theorem entered_loader (p : Pins) (h : Header) (s : State) : (entered p h s).loader = s.loader :=
  congrArg (·.2.2.1) (entered_fixed p h s)

@[simp] theorem entered_cfg (p : Pins) (h : Header) (s : State) : (entered p h s).cfg = s.cfg :=
  congrArg (·.2.2.2.1) (entered_fixed p h s)

@[simp] theorem entered_pins (p : Pins) (h : Header) (s : State) : (entered p h s).pins = p :=
  congrArg (·.2.2.2.2.1) (entered_fixed p h s)

@[simp] theorem entered_mode (p : Pins) (h : Header) (s : State) : (entered p h s).mode = s.mode := by
  simp [entered, setSlots]

@[simp] theorem entered_crane (p : Pins) (h : Header) (s : State) : (entered p h s).crane = s.crane := by
  simp [entered, setSlots]

@[simp] theorem entered_fire (p : Pins) (h : Header) (s : State) : (entered p h s).fire = s.fire := by
  simp [entered, setSlots]

@[simp] theorem entered_stockEnded (p : Pins) (h : Header) (s : State) : (entered p h s).stockEnded = s.stockEnded := by
  simp [entered, setSlots]

@[simp] theorem entered_stopTaken (p : Pins) (h : Header) (s : State) : (entered p h s).stopTaken = s.stopTaken := by
  simp [entered, setSlots]

/-- The gate is the same before and after the sender's entry. -/
@[simp] theorem entered_gate (p : Pins) (h : Header) (s : State) (i : Item) : gate (entered p h s) i = gate s i := by
  simp [gate]

/-! ## One item (R166, R168, R171) -/

/-- An item that passes sender check, address, concern and gate acts at its block. -/
theorem takeItem_admitted {h : Header} {i : Item} {a : Answers} {s : State} (hs : senderGood s.cfg h.sender i = true)
    (ha : addressGood s.cfg h i = true) (hc : concerns h s i = true) (hg : gate s i = .admitted) :
    takeItem h i a s = (a.note (applyItem h i s).1, (applyItem h i s).2) := by
  simp [takeItem, hs, ha, hc, hg]

/-- An item the gate refuses draws its notice alone. -/
theorem takeItem_refused {h : Header} {i : Item} {a : Answers} {s : State} (hs : senderGood s.cfg h.sender i = true)
    (ha : addressGood s.cfg h i = true) (hc : concerns h s i = true) (hg : gate s i = .refused) :
    takeItem h i a s = gateNotice (a.note .refused) i s := by
  simp [takeItem, hs, ha, hc, hg]

/-- An item the gate drops does nothing. -/
theorem takeItem_dropped {h : Header} {i : Item} {a : Answers} {s : State} (hs : senderGood s.cfg h.sender i = true)
    (ha : addressGood s.cfg h i = true) (hc : concerns h s i = true) (hg : gate s i = .dropped) :
    takeItem h i a s = (a.note .silent, s) := by
  simp [takeItem, hs, ha, hc, hg]

/-- An item from a wrong sender does nothing. -/
theorem takeItem_wrongSender {h : Header} {i : Item} {a : Answers} {s : State} (hs : senderGood s.cfg h.sender i = false) :
    takeItem h i a s = (a.note .badSender, s) := by
  simp [takeItem, hs]

/-! ## The frame -/

/-- A frame whose items reach the blocks: its first item is taken in the state the entry leaves, and the rest follows. -/
theorem hear_reaches {h : Header} {i : Item} {rest : List Item} {s : State} (p : Pins) (hr : Reaches h (i :: rest) s) :
    hear p h (i :: rest) s =
      follow s h rest (takeItem h i Answers.none (entered p h s)).1 (takeItem h i Answers.none (entered p h s)).2 := by
  obtain ⟨⟨hl, hf, hs, ho⟩, hc, ha⟩ := hr
  have hlive : (s.setPins p).live = true := hl
  have hfoot : (s.setPins p).line.footing = true := hf
  have hsnd : ¬(63 ≤ h.sender ∨ h.sender = (setSlots (false, false) (s.setPins p)).cfg.station) := by
    rintro (h1 | h1)
    · omega
    · exact ho h1
  have hcfg : (enterNeighbour h (setSlots (false, false) (s.setPins p))).cfg = s.cfg := entered_cfg p h s
  simp only [hear, hlive, hfoot, Bool.and_self, if_true, frameHeard, if_neg hsnd, hc, Bool.not_true, hcfg, ha,
    Bool.false_eq_true, if_false, List.isEmpty_cons, takeItems, follow, entered]
  rfl

end Sys2Proof.Machine
end

