-- ==== Sys2Proof/Laws/KeepsCursor.lean ====
section
/-! SUPPORT. The sweep cursor: no operation but the evaluation's end and a reset moves it (R90). -/

namespace Sys2Proof.Machine
open Sys2Proof

@[simp] theorem Placement.modify_sweep (pc : Placement) (c : Call) (f : CallEntry → CallEntry) : (pc.modify c f).sweep = pc.sweep := rfl
@[simp] theorem Placement.remove_sweep (pc : Placement) (c : Call) : (pc.remove c).sweep = pc.sweep := rfl

@[simp] theorem foldl_sweep {α : Type} (f : State → α → State) (h : ∀ s a, (f s a).placement.sweep = s.placement.sweep) (l : List α) (s : State) :
    (l.foldl f s).placement.sweep = s.placement.sweep := by
  induction l generalizing s with
  | nil => rfl
  | cons a l ih => simp [ih, h]

@[simp] theorem noteHeld_sweep (h : Bool) (s : State) : (noteHeld h s).placement.sweep = s.placement.sweep := by
  unfold noteHeld
  (try dsimp only) <;> (repeat' split) <;> (try simp)

@[simp] theorem handBack_sweep (n : Nat) (s : State) : (handBack n s).placement.sweep = s.placement.sweep := by
  unfold handBack
  (try dsimp only) <;> (repeat' split) <;> (try simp)

@[simp] theorem handBackLink_sweep (link : Option Nat) (s : State) : (handBackLink link s).placement.sweep = s.placement.sweep := by
  unfold handBackLink
  (try dsimp only) <;> (repeat' split) <;> (try simp)

@[simp] theorem releaseBin_sweep (bin : Nat) (s : State) : (releaseBin bin s).placement.sweep = s.placement.sweep := by
  unfold releaseBin
  (try dsimp only) <;> (repeat' split) <;> (try simp)

@[simp] theorem withholdBin_sweep (bin : Nat) (s : State) : (withholdBin bin s).placement.sweep = s.placement.sweep := by
  unfold withholdBin
  (try dsimp only) <;> (repeat' split) <;> (try simp)

@[simp] theorem reportRoute_sweep (isOpen : Bool) (s : State) : (reportRoute isOpen s).placement.sweep = s.placement.sweep := by
  unfold reportRoute
  (try dsimp only) <;> (repeat' split) <;> (try simp)

@[simp] theorem visitTo_sweep (link : Option Nat) (st : VisitState) (s : State) : (visitTo link st s).placement.sweep = s.placement.sweep := by
  unfold visitTo
  (try dsimp only) <;> (repeat' split) <;> (try simp)

@[simp] theorem reserveEntry_sweep (bin : Nat) (desk : Desk) (s : State) : (reserveEntry bin desk s).placement.sweep = s.placement.sweep := by
  unfold reserveEntry
  (try dsimp only) <;> (repeat' split) <;> (try simp)

@[simp] theorem dropReservation_sweep (bin : Nat) (desk : Desk) (s : State) : (dropReservation bin desk s).placement.sweep = s.placement.sweep := by
  unfold dropReservation
  (try dsimp only) <;> (repeat' split) <;> (try simp)

@[simp] theorem takeRoomPart_sweep (bin : Nat) (part : RoomPart) (s : State) : (takeRoomPart bin part s).placement.sweep = s.placement.sweep := by
  unfold takeRoomPart
  (try dsimp only) <;> (repeat' split) <;> (try simp)

@[simp] theorem clearStow_sweep (s : State) : (clearStow s).placement.sweep = s.placement.sweep := by
  unfold clearStow
  (try dsimp only) <;> (repeat' split) <;> (try simp)

@[simp] theorem clearPassed_sweep (s : State) : (clearPassed s).placement.sweep = s.placement.sweep := by
  unfold clearPassed
  (try dsimp only) <;> (repeat' split) <;> (try simp)

@[simp] theorem setStow_sweep (st : StowState) (s : State) : (setStow st s).placement.sweep = s.placement.sweep := by
  unfold setStow
  (try dsimp only) <;> (repeat' split) <;> (try simp)

@[simp] theorem promoteStow_sweep (s : State) : (promoteStow s).placement.sweep = s.placement.sweep := by
  unfold promoteStow
  (try dsimp only) <;> (repeat' split) <;> (try simp)

@[simp] theorem releaseEntry_sweep (e : CallEntry) (s : State) : (releaseEntry e s).placement.sweep = s.placement.sweep := by
  unfold releaseEntry
  (try dsimp only) <;> (repeat' split) <;> (try simp)

@[simp] theorem unreserveEntry_sweep (e : CallEntry) (s : State) : (unreserveEntry e s).placement.sweep = s.placement.sweep := by
  unfold unreserveEntry
  (try dsimp only) <;> (repeat' split) <;> (try simp)

@[simp] theorem bidRefused_sweep (c : Call) (s : State) : (bidRefused c s).placement.sweep = s.placement.sweep := by
  unfold bidRefused
  (try dsimp only) <;> (repeat' split) <;> (try simp)

@[simp] theorem claimLost_sweep (c : Call) (s : State) : (claimLost c s).placement.sweep = s.placement.sweep := by
  unfold claimLost
  (try dsimp only) <;> (repeat' split) <;> (try simp)

@[simp] theorem startRetry_sweep (l : Lane) (s : State) : (startRetry l s).placement.sweep = s.placement.sweep := by
  unfold startRetry
  (try dsimp only) <;> (repeat' split) <;> (try simp)

@[simp] theorem startClosingRetry_sweep (s : State) : (startClosingRetry s).placement.sweep = s.placement.sweep := by
  unfold startClosingRetry
  (try dsimp only) <;> (repeat' split) <;> (try simp)

@[simp] theorem frameRefused_sweep (o : Owner) (s : State) : (frameRefused o s).placement.sweep = s.placement.sweep := by
  unfold frameRefused
  (try dsimp only) <;> (repeat' split) <;> (try simp)

@[simp] theorem queueFrame_sweep (f : TxFrame) (s : State) : (queueFrame f s).placement.sweep = s.placement.sweep := by
  unfold queueFrame
  (try dsimp only) <;> (repeat' split) <;> (try simp)

@[simp] theorem notice_sweep (items : List Item) (s : State) : (notice items s).placement.sweep = s.placement.sweep := by
  unfold notice
  (try dsimp only) <;> (repeat' split) <;> (try simp)

@[simp] theorem faultNotice_sweep (b : FaultBody) (s : State) : (faultNotice b s).placement.sweep = s.placement.sweep := by
  unfold faultNotice
  (try dsimp only) <;> (repeat' split) <;> (try simp)

@[simp] theorem withdraw_sweep (p : Owner → Bool) (s : State) : (withdraw p s).placement.sweep = s.placement.sweep := by
  unfold withdraw
  (try dsimp only) <;> (repeat' split) <;> (try simp)

@[simp] theorem requestFailed_sweep (reason : FailReason) (kind : AnsweredKind) (bin : Nat) (desk : Option Desk) (requests : List (Nat × Nat)) (s : State) : (requestFailed reason kind bin desk requests s).placement.sweep = s.placement.sweep := by
  unfold requestFailed
  (try dsimp only) <;> (repeat' split) <;> (try simp)

@[simp] theorem requestDone_sweep (bin : Nat) (desk : Desk) (requests : List (Nat × Nat)) (s : State) : (requestDone bin desk requests s).placement.sweep = s.placement.sweep := by
  unfold requestDone
  (try dsimp only) <;> (repeat' split) <;> (try simp)

@[simp] theorem failVisit_sweep (n : Nat) (reason : FailReason) (release : Bool) (s : State) : (failVisit n reason release s).placement.sweep = s.placement.sweep := by
  unfold failVisit
  (try dsimp only) <;> (repeat' split) <;> (try simp)

@[simp] theorem failVisits_sweep (bin : Nat) (reason : FailReason) (s : State) : (failVisits bin reason s).placement.sweep = s.placement.sweep := by
  unfold failVisits
  (try dsimp only) <;> (repeat' split) <;> (try simp)

@[simp] theorem closeCall_sweep (c : Call) (s : State) : (closeCall c s).placement.sweep = s.placement.sweep := by
  unfold closeCall
  (try dsimp only) <;> (repeat' split) <;> (try simp)

@[simp] theorem closeCalls_sweep (p : CallState → Bool) (s : State) : (closeCalls p s).placement.sweep = s.placement.sweep := by
  unfold closeCalls
  (try dsimp only) <;> (repeat' split) <;> (try simp)

@[simp] theorem closeCallsOfBin_sweep (bin : Nat) (s : State) : (closeCallsOfBin bin s).placement.sweep = s.placement.sweep := by
  unfold closeCallsOfBin
  (try dsimp only) <;> (repeat' split) <;> (try simp)

@[simp] theorem craneTo_sweep (st : CraneState) (s : State) : (craneTo st s).placement.sweep = s.placement.sweep := by
  unfold craneTo
  (try dsimp only) <;> (repeat' split) <;> (try simp)

@[simp] theorem readEncoders_sweep (s : State) : (readEncoders s).placement.sweep = s.placement.sweep := by
  unfold readEncoders
  (try dsimp only) <;> (repeat' split) <;> (try simp)

@[simp] theorem clearCurrent_sweep (s : State) : (clearCurrent s).placement.sweep = s.placement.sweep := by
  unfold clearCurrent
  (try dsimp only) <;> (repeat' split) <;> (try simp)

@[simp] theorem askLeg_sweep (a b : Pos) (fork : Bool) (s : State) : (askLeg a b fork s).2.placement.sweep = s.placement.sweep := by
  unfold askLeg
  (try dsimp only) <;> (repeat' split) <;> (try simp)

@[simp] theorem askEstimate_sweep (target : Target) (fork : Bool) (s : State) : (askEstimate target fork s).2.placement.sweep = s.placement.sweep := by
  unfold askEstimate
  (try dsimp only) <;> (repeat' split) <;> (try simp)

@[simp] theorem locateBin_sweep (b : Nat) (loc : Location) (s : State) : (locateBin b loc s).placement.sweep = s.placement.sweep := by
  unfold locateBin
  (try dsimp only) <;> (repeat' split) <;> (try simp)

@[simp] theorem setPortOut_sweep (x : PlaceState) (s : State) : (setPortOut x s).placement.sweep = s.placement.sweep := by
  unfold setPortOut
  (try dsimp only) <;> (repeat' split) <;> (try simp)

@[simp] theorem setPortIn_sweep (x : PlaceState) (s : State) : (setPortIn x s).placement.sweep = s.placement.sweep := by
  unfold setPortIn
  (try dsimp only) <;> (repeat' split) <;> (try simp)

@[simp] theorem stampStart_sweep (s : State) : (stampStart s).placement.sweep = s.placement.sweep := by
  unfold stampStart
  (try dsimp only) <;> (repeat' split) <;> (try simp)

@[simp] theorem reportStart_sweep (m : Move) (s : State) : (reportStart m s).placement.sweep = s.placement.sweep := by
  unfold reportStart
  (try dsimp only) <;> (repeat' split) <;> (try simp)

@[simp] theorem startMove_sweep (m : Move) (s : State) : (startMove m s).placement.sweep = s.placement.sweep := by
  unfold startMove
  (try dsimp only) <;> (repeat' split) <;> (try simp)

@[simp] theorem holdDeliver_sweep (m : Move) (s : State) : (holdDeliver m s).placement.sweep = s.placement.sweep := by
  unfold holdDeliver
  (try dsimp only) <;> (repeat' split) <;> (try simp)

@[simp] theorem stageContinuation_sweep (m : Move) (s : State) : (stageContinuation m s).placement.sweep = s.placement.sweep := by
  unfold stageContinuation
  (try dsimp only) <;> (repeat' split) <;> (try simp)

@[simp] theorem makeCurrent_sweep (kind : MoveKind) (target : Target) (visit : Option Nat) (bound : Bool) (s : State) : (makeCurrent kind target visit bound s).placement.sweep = s.placement.sweep := by
  unfold makeCurrent
  (try dsimp only) <;> (repeat' split) <;> (try simp)

@[simp] theorem discardStaged_sweep (s : State) : (discardStaged s).placement.sweep = s.placement.sweep := by
  unfold discardStaged
  (try dsimp only) <;> (repeat' split) <;> (try simp)

@[simp] theorem storeBlocked_sweep (bin : Nat) (slot : SlotName) (s : State) : (storeBlocked bin slot s).placement.sweep = s.placement.sweep := by
  unfold storeBlocked
  (try dsimp only) <;> (repeat' split) <;> (try simp)

@[simp] theorem makeStore_sweep (bin : Nat) (s : State) : (makeStore bin s).placement.sweep = s.placement.sweep := by
  unfold makeStore
  (try dsimp only) <;> (repeat' split) <;> (try simp)

@[simp] theorem nextMove_sweep (s : State) : (nextMove s).placement.sweep = s.placement.sweep := by
  unfold nextMove
  (try dsimp only) <;> (repeat' split) <;> (try simp)

@[simp] theorem park_sweep (s : State) : (park s).placement.sweep = s.placement.sweep := by
  unfold park
  (try dsimp only) <;> (repeat' split) <;> (try simp)

@[simp] theorem promote_sweep (s : State) : (promote s).placement.sweep = s.placement.sweep := by
  unfold promote
  (try dsimp only) <;> (repeat' split) <;> (try simp)

@[simp] theorem afterCompletion_sweep (s : State) : (afterCompletion s).placement.sweep = s.placement.sweep := by
  unfold afterCompletion
  (try dsimp only) <;> (repeat' split) <;> (try simp)

@[simp] theorem storeBin_sweep (bin : Nat) (content : Option Contents) (room : Option (Nat × Nat)) (s : State) : (storeBin bin content room s).placement.sweep = s.placement.sweep := by
  unfold storeBin
  (try dsimp only) <;> (repeat' split) <;> (try simp)

@[simp] theorem carryFetched_sweep (bin : Nat) (visit : Option Nat) (uncertain : Bool) (d : Directory) (s : State) : (carryFetched bin visit uncertain d s).placement.sweep = s.placement.sweep := by
  unfold carryFetched
  (try dsimp only) <;> (repeat' split) <;> (try simp)

@[simp] theorem abandonFetch_sweep (m : Move) (s : State) : (abandonFetch m s).placement.sweep = s.placement.sweep := by
  unfold abandonFetch
  (try dsimp only) <;> (repeat' split) <;> (try simp)

@[simp] theorem abandonDeliver_sweep (m : Move) (s : State) : (abandonDeliver m s).placement.sweep = s.placement.sweep := by
  unfold abandonDeliver
  (try dsimp only) <;> (repeat' split) <;> (try simp)

@[simp] theorem abandonTakeIn_sweep (s : State) : (abandonTakeIn s).placement.sweep = s.placement.sweep := by
  unfold abandonTakeIn
  (try dsimp only) <;> (repeat' split) <;> (try simp)

@[simp] theorem abandonStore_sweep (s : State) : (abandonStore s).placement.sweep = s.placement.sweep := by
  unfold abandonStore
  (try dsimp only) <;> (repeat' split) <;> (try simp)

@[simp] theorem abandonMove_sweep (s : State) : (abandonMove s).placement.sweep = s.placement.sweep := by
  unfold abandonMove
  (try dsimp only) <;> (repeat' split) <;> (try simp)

@[simp] theorem stall_sweep (m : Move) (s : State) : (stall m s).placement.sweep = s.placement.sweep := by
  unfold stall
  (try dsimp only) <;> (repeat' split) <;> (try simp)

@[simp] theorem loadFault_sweep (bin : Nat) (s : State) : (loadFault bin s).placement.sweep = s.placement.sweep := by
  unfold loadFault
  (try dsimp only) <;> (repeat' split) <;> (try simp)

@[simp] theorem resolveLoad_sweep (s : State) : (resolveLoad s).2.placement.sweep = s.placement.sweep := by
  unfold resolveLoad
  (try dsimp only) <;> (repeat' split) <;> (try simp)

@[simp] theorem portOutEmptied_sweep (s : State) : (portOutEmptied s).placement.sweep = s.placement.sweep := by
  unfold portOutEmptied
  (try dsimp only) <;> (repeat' split) <;> (try simp)

@[simp] theorem dropWaiting_sweep (s : State) : (dropWaiting s).placement.sweep = s.placement.sweep := by
  unfold dropWaiting
  (try dsimp only) <;> (repeat' split) <;> (try simp)

@[simp] theorem craneEntersFire_sweep (s : State) : (craneEntersFire s).placement.sweep = s.placement.sweep := by
  unfold craneEntersFire
  (try dsimp only) <;> (repeat' split) <;> (try simp)

@[simp] theorem unpark_sweep (s : State) : (unpark s).placement.sweep = s.placement.sweep := by
  unfold unpark
  (try dsimp only) <;> (repeat' split) <;> (try simp)

@[simp] theorem craneStop_sweep (s : State) : (craneStop s).placement.sweep = s.placement.sweep := by
  unfold craneStop
  (try dsimp only) <;> (repeat' split) <;> (try simp)

@[simp] theorem chooseAt_sweep (s : State) (order : Nat) : (chooseAt s order).2.placement.sweep = s.placement.sweep := by
  unfold chooseAt
  (try dsimp only) <;> (repeat' split) <;> (try simp)

@[simp] theorem stageFree_sweep (w : Work) (s : State) : (stageFree w s).placement.sweep = s.placement.sweep := by
  unfold stageFree
  (try dsimp only) <;> (repeat' split) <;> (try simp)

@[simp] theorem giveFree_sweep (w : Work) (s : State) : (giveFree w s).placement.sweep = s.placement.sweep := by
  unfold giveFree
  (try dsimp only) <;> (repeat' split) <;> (try simp)

@[simp] theorem selectAmong_sweep (orders : List Nat) (give : Work → State → State) (h : ∀ w s, (give w s).placement.sweep = s.placement.sweep)
    (s : State) : (selectAmong orders give s).placement.sweep = s.placement.sweep := by
  unfold selectAmong
  split
  · next o _ =>
    have hc := chooseAt_sweep s o
    split <;> simp_all
  · rfl

@[simp] theorem giveBack_sweep (m : Move) (s : State) : (giveBack m s).placement.sweep = s.placement.sweep := by
  unfold giveBack
  (try dsimp only) <;> (repeat' split) <;> (try simp)

@[simp] theorem displace_sweep (m : Move) (s : State) : (displace m s).placement.sweep = s.placement.sweep := by
  unfold displace
  (try dsimp only) <;> (repeat' split) <;> (try simp)

@[simp] theorem selectWork_sweep (s : State) : (selectWork s).placement.sweep = s.placement.sweep := by
  unfold selectWork
  (try dsimp only) <;> (repeat' split) <;> (try simp)

@[simp] theorem setLane_sweep (l : Lane) (v : PlaceState) (s : State) : (setLane l v s).placement.sweep = s.placement.sweep := by
  unfold setLane
  (try dsimp only) <;> (repeat' split) <;> (try simp)

@[simp] theorem setOut_sweep (l : Lane) (v : Option Handoff) (s : State) : (setOut l v s).placement.sweep = s.placement.sweep := by
  unfold setOut
  (try dsimp only) <;> (repeat' split) <;> (try simp)

@[simp] theorem setIncoming_sweep (l : Lane) (v : Option Handoff) (s : State) : (setIncoming l v s).placement.sweep = s.placement.sweep := by
  unfold setIncoming
  (try dsimp only) <;> (repeat' split) <;> (try simp)

@[simp] theorem clearRetry_sweep (l : Lane) (s : State) : (clearRetry l s).placement.sweep = s.placement.sweep := by
  unfold clearRetry
  (try dsimp only) <;> (repeat' split) <;> (try simp)

@[simp] theorem driveLane_sweep (l : Lane) (on : Bool) (s : State) : (driveLane l on s).placement.sweep = s.placement.sweep := by
  unfold driveLane
  (try dsimp only) <;> (repeat' split) <;> (try simp)

@[simp] theorem handoffLost_sweep (bin peer : Nat) (place : PlaceCode) (hop : Nat) (s : State) : (handoffLost bin peer place hop s).placement.sweep = s.placement.sweep := by
  unfold handoffLost
  (try dsimp only) <;> (repeat' split) <;> (try simp)

@[simp] theorem grantPortOut_sweep (s : State) : (grantPortOut s).placement.sweep = s.placement.sweep := by
  unfold grantPortOut
  (try dsimp only) <;> (repeat' split) <;> (try simp)

@[simp] theorem keepDown_sweep (s : State) : (keepDown s).placement.sweep = s.placement.sweep := by
  unfold keepDown
  (try dsimp only) <;> (repeat' split) <;> (try simp)

@[simp] theorem mergeArbiter_sweep (s : State) : (mergeArbiter s).placement.sweep = s.placement.sweep := by
  unfold mergeArbiter
  (try dsimp only) <;> (repeat' split) <;> (try simp)

@[simp] theorem noteFree_sweep (bin : Nat) (visit : Option Nat) (s : State) : (noteFree bin visit s).placement.sweep = s.placement.sweep := by
  unfold noteFree
  (try dsimp only) <;> (repeat' split) <;> (try simp)

@[simp] theorem handOver_sweep (bin : Nat) (visit : Option Nat) (s : State) : (handOver bin visit s).placement.sweep = s.placement.sweep := by
  unfold handOver
  (try dsimp only) <;> (repeat' split) <;> (try simp)

@[simp] theorem offerLane_sweep (l : Lane) (s : State) : (offerLane l s).placement.sweep = s.placement.sweep := by
  unfold offerLane
  (try dsimp only) <;> (repeat' split) <;> (try simp)

@[simp] theorem withdrawOffer_sweep (l : Lane) (s : State) : (withdrawOffer l s).placement.sweep = s.placement.sweep := by
  unfold withdrawOffer
  (try dsimp only) <;> (repeat' split) <;> (try simp)

@[simp] theorem offerOutcome_sweep (l : Lane) (peer : Nat) (heard : Bool) (s : State) : (offerOutcome l peer heard s).placement.sweep = s.placement.sweep := by
  unfold offerOutcome
  (try dsimp only) <;> (repeat' split) <;> (try simp)

@[simp] theorem acceptOffer_sweep (l : Lane) (sender : Nat) (r : TravelRecord) (s : State) : (acceptOffer l sender r s).placement.sweep = s.placement.sweep := by
  unfold acceptOffer
  (try dsimp only) <;> (repeat' split) <;> (try simp)

@[simp] theorem noRoom_sweep (l : Lane) (r : TravelRecord) (s : State) : (noRoom l r s).placement.sweep = s.placement.sweep := by
  unfold noRoom
  (try dsimp only) <;> (repeat' split) <;> (try simp)

@[simp] theorem mergeWins_sweep (s : State) : (mergeWins s).placement.sweep = s.placement.sweep := by
  unfold mergeWins
  (try dsimp only) <;> (repeat' split) <;> (try simp)

@[simp] theorem hearOffer_sweep (sender : Nat) (r : TravelRecord) (s : State) : (hearOffer sender r s).2.placement.sweep = s.placement.sweep := by
  unfold hearOffer
  (try dsimp only) <;> (repeat' split) <;> (try simp)

@[simp] theorem startDiversion_sweep (r : TravelRecord) (s : State) : (startDiversion r s).placement.sweep = s.placement.sweep := by
  unfold startDiversion
  (try dsimp only) <;> (repeat' split) <;> (try simp)

@[simp] theorem beginDiversion_sweep (r : TravelRecord) (s : State) : (beginDiversion r s).placement.sweep = s.placement.sweep := by
  unfold beginDiversion
  split <;> simp

@[simp] theorem blockUp_sweep (r : TravelRecord) (slot : SlotName) (s : State) : (blockUp r slot s).placement.sweep = s.placement.sweep := by
  unfold blockUp
  (try dsimp only) <;> (repeat' split) <;> (try simp)

@[simp] theorem divert_sweep (r : TravelRecord) (s : State) : (divert r s).placement.sweep = s.placement.sweep := by
  unfold divert
  (try dsimp only) <;> (repeat' split) <;> (try simp)

@[simp] theorem diversionCheck_sweep (s : State) : (diversionCheck s).placement.sweep = s.placement.sweep := by
  unfold diversionCheck
  (try dsimp only) <;> (repeat' split) <;> (try simp)

@[simp] theorem fireDiversion_sweep (s : State) : (fireDiversion s).placement.sweep = s.placement.sweep := by
  unfold fireDiversion
  (try dsimp only) <;> (repeat' split) <;> (try simp)

@[simp] theorem unannounced_sweep (place : SpinePlace) (s : State) : (unannounced place s).placement.sweep = s.placement.sweep := by
  unfold unannounced
  (try dsimp only) <;> (repeat' split) <;> (try simp)

@[simp] theorem mergeArrives_sweep (s : State) : (mergeArrives s).placement.sweep = s.placement.sweep := by
  unfold mergeArrives
  (try dsimp only) <;> (repeat' split) <;> (try simp)

@[simp] theorem laneArrives_sweep (l : Lane) (h : Handoff) (s : State) : (laneArrives l h s).placement.sweep = s.placement.sweep := by
  unfold laneArrives
  (try dsimp only) <;> (repeat' split) <;> (try simp)

@[simp] theorem diversionArrives_sweep (s : State) : (diversionArrives s).placement.sweep = s.placement.sweep := by
  unfold diversionArrives
  (try dsimp only) <;> (repeat' split) <;> (try simp)

@[simp] theorem laneEntry_sweep (l : Lane) (s : State) : (laneEntry l s).placement.sweep = s.placement.sweep := by
  unfold laneEntry
  (try dsimp only) <;> (repeat' split) <;> (try simp)

@[simp] theorem entryReport_sweep (place : SpinePlace) (s : State) : (entryReport place s).placement.sweep = s.placement.sweep := by
  unfold entryReport
  (try dsimp only) <;> (repeat' split) <;> (try simp)

@[simp] theorem positionReport_sweep (place : SpinePlace) (s : State) : (positionReport place s).placement.sweep = s.placement.sweep := by
  unfold positionReport
  (try dsimp only) <;> (repeat' split) <;> (try simp)

@[simp] theorem takenLane_sweep (l : Lane) (b : TakenBody) (s : State) : (takenLane l b s).placement.sweep = s.placement.sweep := by
  unfold takenLane
  (try dsimp only) <;> (repeat' split) <;> (try simp)

@[simp] theorem completeVisit_sweep (v : Visit) (s : State) : (completeVisit v s).placement.sweep = s.placement.sweep := by
  unfold completeVisit
  (try dsimp only) <;> (repeat' split) <;> (try simp)

@[simp] theorem deskTakes_sweep (b : TakenBody) (s : State) : (deskTakes b s).placement.sweep = s.placement.sweep := by
  unfold deskTakes
  (try dsimp only) <;> (repeat' split) <;> (try simp)

@[simp] theorem hearTaken_sweep (b : TakenBody) (s : State) : (hearTaken b s).placement.sweep = s.placement.sweep := by
  unfold hearTaken
  (try dsimp only) <;> (repeat' split) <;> (try simp)

@[simp] theorem loseHome_sweep (r : TravelRecord) (s : State) : (loseHome r s).placement.sweep = s.placement.sweep := by
  unfold loseHome
  (try dsimp only) <;> (repeat' split) <;> (try simp)

@[simp] theorem outExpires_sweep (l : Lane) (h : Handoff) (s : State) : (outExpires l h s).placement.sweep = s.placement.sweep := by
  unfold outExpires
  (try dsimp only) <;> (repeat' split) <;> (try simp)

@[simp] theorem diversionExpires_sweep (h : Handoff) (s : State) : (diversionExpires h s).placement.sweep = s.placement.sweep := by
  unfold diversionExpires
  (try dsimp only) <;> (repeat' split) <;> (try simp)

@[simp] theorem inExpires_sweep (l : Lane) (s : State) : (inExpires l s).placement.sweep = s.placement.sweep := by
  unfold inExpires
  (try dsimp only) <;> (repeat' split) <;> (try simp)

@[simp] theorem mergeExpires_sweep (h : Handoff) (s : State) : (mergeExpires h s).placement.sweep = s.placement.sweep := by
  unfold mergeExpires
  (try dsimp only) <;> (repeat' split) <;> (try simp)

@[simp] theorem mergeWaitExpires_sweep (s : State) : (mergeWaitExpires s).placement.sweep = s.placement.sweep := by
  unfold mergeWaitExpires
  (try dsimp only) <;> (repeat' split) <;> (try simp)

@[simp] theorem hearHandoffLost_sweep (sender : Nat) (b : FaultBody) (s : State) : (hearHandoffLost sender b s).placement.sweep = s.placement.sweep := by
  unfold hearHandoffLost
  (try dsimp only) <;> (repeat' split) <;> (try simp)

@[simp] theorem lowerCaught_sweep (sender bin : Nat) (s : State) : (lowerCaught sender bin s).placement.sweep = s.placement.sweep := by
  unfold lowerCaught
  (try dsimp only) <;> (repeat' split) <;> (try simp)

@[simp] theorem hearBinCaught_sweep (sender : Nat) (b : FaultBody) (s : State) : (hearBinCaught sender b s).placement.sweep = s.placement.sweep := by
  unfold hearBinCaught
  (try dsimp only) <;> (repeat' split) <;> (try simp)

@[simp] theorem dropKept_sweep (kept : Option TravelRecord) (s : State) : (dropKept kept s).placement.sweep = s.placement.sweep := by
  unfold dropKept
  (try dsimp only) <;> (repeat' split) <;> (try simp)

@[simp] theorem clearPlace_sweep (place : SpinePlace) (s : State) : (clearPlace place s).placement.sweep = s.placement.sweep := by
  unfold clearPlace
  (try dsimp only) <;> (repeat' split) <;> (try simp)

@[simp] theorem clearBlocked_sweep (s : State) : (clearBlocked s).placement.sweep = s.placement.sweep := by
  unfold clearBlocked
  (try dsimp only) <;> (repeat' split) <;> (try simp)

@[simp] theorem binCaught_sweep (r : TravelRecord) (place : PlaceCode) (s : State) : (binCaught r place s).placement.sweep = s.placement.sweep := by
  unfold binCaught
  (try dsimp only) <;> (repeat' split) <;> (try simp)

@[simp] theorem catchDown_sweep (s : State) : (catchDown s).placement.sweep = s.placement.sweep := by
  unfold catchDown
  (try dsimp only) <;> (repeat' split) <;> (try simp)

@[simp] theorem catchUp_sweep (s : State) : (catchUp s).placement.sweep = s.placement.sweep := by
  unfold catchUp
  (try dsimp only) <;> (repeat' split) <;> (try simp)

@[simp] theorem hearRoomCall_sweep (sender : Nat) (b : RoomCallBody) (s : State) : (hearRoomCall sender b s).placement.sweep = s.placement.sweep := by
  unfold hearRoomCall
  (try dsimp only) <;> (repeat' split) <;> (try simp)

@[simp] theorem beginEvaluation_sweep (s : State) : (beginEvaluation s).placement.sweep = s.placement.sweep := by
  unfold beginEvaluation
  (try dsimp only) <;> (repeat' split) <;> (try simp)

@[simp] theorem bidFor_sweep (c : CallEntry) (cost b : Nat) (s : State) : (bidFor c cost b s).placement.sweep = s.placement.sweep := by
  unfold bidFor
  (try dsimp only) <;> (repeat' split) <;> (try simp)

/-- An evaluation with a search leaves the cursor where the search left it, any other leaves it alone (R89, R90). -/
theorem evaluationDone_sweep (s : State) : (evaluationDone s).placement.sweep =
    if (evaluating s.placement).isSome = true then (sweepColumns s.cfg.nc 64 s.cfg.searchSpan s.placement.sweep).2
    else s.placement.sweep := by
  unfold evaluationDone
  (try dsimp only) <;> (repeat' split) <;> simp_all

@[simp] theorem hearBid_sweep (b : BidBody) (s : State) : (hearBid b s).placement.sweep = s.placement.sweep := by
  unfold hearBid
  (try dsimp only) <;> (repeat' split) <;> (try simp)

@[simp] theorem beginClaim_sweep (e : CallEntry) (s : State) : (beginClaim e s).placement.sweep = s.placement.sweep := by
  unfold beginClaim
  (try dsimp only) <;> (repeat' split) <;> (try simp)

@[simp] theorem windowExpires_sweep (e : CallEntry) (s : State) : (windowExpires e s).placement.sweep = s.placement.sweep := by
  unfold windowExpires
  (try dsimp only) <;> (repeat' split) <;> (try simp)

@[simp] theorem hearClaim_sweep (b : ClaimBody) (s : State) : (hearClaim b s).placement.sweep = s.placement.sweep := by
  unfold hearClaim
  (try dsimp only) <;> (repeat' split) <;> (try simp)

@[simp] theorem claimOutcome_sweep (c : Call) (heard : Bool) (s : State) : (claimOutcome c heard s).placement.sweep = s.placement.sweep := by
  unfold claimOutcome
  (try dsimp only) <;> (repeat' split) <;> (try simp)

@[simp] theorem callSent_sweep (c : Call) (st : CallState) (s : State) : (callSent c st s).placement.sweep = s.placement.sweep := by
  unfold callSent
  (try dsimp only) <;> (repeat' split) <;> (try simp)

@[simp] theorem retestRoute_sweep (s : State) : (retestRoute s).placement.sweep = s.placement.sweep := by
  unfold retestRoute
  (try dsimp only) <;> (repeat' split) <;> (try simp)

@[simp] theorem leaveWorking_sweep (old : Mode) (s : State) : (leaveWorking old s).placement.sweep = s.placement.sweep := by
  unfold leaveWorking
  (try dsimp only) <;> (repeat' split) <;> (try simp)

@[simp] theorem enterFire_sweep (old : Mode) (s : State) : (enterFire old s).placement.sweep = s.placement.sweep := by
  unfold enterFire
  (try dsimp only) <;> (repeat' split) <;> (try simp)

@[simp] theorem deriveMode_sweep (s : State) : (deriveMode s).placement.sweep = s.placement.sweep := by
  unfold deriveMode
  (try dsimp only) <;> (repeat' split) <;> (try simp)

@[simp] theorem fireFrame_sweep (item : Item) (o : Owner) (s : State) : (fireFrame item o s).placement.sweep = s.placement.sweep := by
  unfold fireFrame
  (try dsimp only) <;> (repeat' split) <;> (try simp)

@[simp] theorem setShutter_sweep (x : Shutter) (s : State) : (setShutter x s).placement.sweep = s.placement.sweep := by
  unfold setShutter
  (try dsimp only) <;> (repeat' split) <;> (try simp)

@[simp] theorem startClearing_sweep (x : Shutter) (s : State) : (startClearing x s).placement.sweep = s.placement.sweep := by
  unfold startClearing
  (try dsimp only) <;> (repeat' split) <;> (try simp)

@[simp] theorem shutterProcedure_sweep (s : State) : (shutterProcedure s).placement.sweep = s.placement.sweep := by
  unfold shutterProcedure
  (try dsimp only) <;> (repeat' split) <;> (try simp)

@[simp] theorem startClosing_sweep (x : Shutter) (s : State) : (startClosing x s).placement.sweep = s.placement.sweep := by
  unfold startClosing
  (try dsimp only) <;> (repeat' split) <;> (try simp)

@[simp] theorem disownClosing_sweep (s : State) : (disownClosing s).placement.sweep = s.placement.sweep := by
  unfold disownClosing
  (try dsimp only) <;> (repeat' split) <;> (try simp)

@[simp] theorem dropClosing_sweep (s : State) : (dropClosing s).placement.sweep = s.placement.sweep := by
  unfold dropClosing
  (try dsimp only) <;> (repeat' split) <;> (try simp)

@[simp] theorem clearCheck_sweep (s : State) : (clearCheck s).placement.sweep = s.placement.sweep := by
  unfold clearCheck
  (try dsimp only) <;> (repeat' split) <;> (try simp)

@[simp] theorem closingOutcome_sweep (heard : Bool) (s : State) : (closingOutcome heard s).placement.sweep = s.placement.sweep := by
  unfold closingOutcome
  (try dsimp only) <;> (repeat' split) <;> (try simp)

@[simp] theorem forceClose_sweep (x : Shutter) (s : State) : (forceClose x s).placement.sweep = s.placement.sweep := by
  unfold forceClose
  (try dsimp only) <;> (repeat' split) <;> (try simp)

@[simp] theorem closeLimitExpires_sweep (s : State) : (closeLimitExpires s).placement.sweep = s.placement.sweep := by
  unfold closeLimitExpires
  (try dsimp only) <;> (repeat' split) <;> (try simp)

@[simp] theorem shutterClosed_sweep (s : State) : (shutterClosed s).placement.sweep = s.placement.sweep := by
  unfold shutterClosed
  (try dsimp only) <;> (repeat' split) <;> (try simp)

@[simp] theorem becomeOpen_sweep (x : Shutter) (s : State) : (becomeOpen x s).placement.sweep = s.placement.sweep := by
  unfold becomeOpen
  (try dsimp only) <;> (repeat' split) <;> (try simp)

@[simp] theorem shutterOpened_sweep (s : State) : (shutterOpened s).placement.sweep = s.placement.sweep := by
  unfold shutterOpened
  (try dsimp only) <;> (repeat' split) <;> (try simp)

@[simp] theorem shutterFault_sweep (d : ShutterDir) (x : Shutter) (s : State) : (shutterFault d x s).placement.sweep = s.placement.sweep := by
  unfold shutterFault
  (try dsimp only) <;> (repeat' split) <;> (try simp)

@[simp] theorem driveLimitExpires_sweep (s : State) : (driveLimitExpires s).placement.sweep = s.placement.sweep := by
  unfold driveLimitExpires
  (try dsimp only) <;> (repeat' split) <;> (try simp)

@[simp] theorem reopen_sweep (s : State) : (reopen s).placement.sweep = s.placement.sweep := by
  unfold reopen
  (try dsimp only) <;> (repeat' split) <;> (try simp)

@[simp] theorem endFoundShut_sweep (c : Compartment) (s : State) : (endFoundShut c s).placement.sweep = s.placement.sweep := by
  unfold endFoundShut
  (try dsimp only) <;> (repeat' split) <;> (try simp)

@[simp] theorem safeCheck_sweep (s : State) : (safeCheck s).placement.sweep = s.placement.sweep := by
  unfold safeCheck
  (try dsimp only) <;> (repeat' split) <;> (try simp)

@[simp] theorem setAlarm_sweep (c : Compartment) (r : AlarmRec) (s : State) : (setAlarm c r s).placement.sweep = s.placement.sweep := by
  unfold setAlarm
  (try dsimp only) <;> (repeat' split) <;> (try simp)

@[simp] theorem alarmRaised_sweep (c : Compartment) (s : State) : (alarmRaised c s).placement.sweep = s.placement.sweep := by
  unfold alarmRaised
  (try dsimp only) <;> (repeat' split) <;> (try simp)

@[simp] theorem queueAlarm_sweep (c : Compartment) (epoch : Nat) (i : FireInput) (s : State) : (queueAlarm c epoch i s).placement.sweep = s.placement.sweep := by
  unfold queueAlarm
  (try dsimp only) <;> (repeat' split) <;> (try simp)

@[simp] theorem localCause_sweep (i : FireInput) (s : State) : (localCause i s).placement.sweep = s.placement.sweep := by
  unfold localCause
  (try dsimp only) <;> (repeat' split) <;> (try simp)

@[simp] theorem hearAlarm_sweep (b : AlarmBody) (s : State) : (hearAlarm b s).placement.sweep = s.placement.sweep := by
  unfold hearAlarm
  (try dsimp only) <;> (repeat' split) <;> (try simp)

@[simp] theorem setFilter_sweep (i : FireInput) (x : InputFilter) (s : State) : (setFilter i x s).placement.sweep = s.placement.sweep := by
  unfold setFilter
  (try dsimp only) <;> (repeat' split) <;> (try simp)

@[simp] theorem reraise_sweep (s : State) : (reraise s).placement.sweep = s.placement.sweep := by
  unfold reraise
  (try dsimp only) <;> (repeat' split) <;> (try simp)

@[simp] theorem spineResumes_sweep (s : State) : (spineResumes s).placement.sweep = s.placement.sweep := by simp [spineResumes]

@[simp] theorem restoreEffects_sweep (c : Compartment) (s : State) : (restoreEffects c s).placement.sweep = s.placement.sweep := by
  unfold restoreEffects
  (try dsimp only) <;> (repeat' split) <;> (try simp)

@[simp] theorem hearRestore_sweep (b : RestoreBody) (s : State) : (hearRestore b s).2.placement.sweep = s.placement.sweep := by
  unfold hearRestore
  (try dsimp only) <;> (repeat' split) <;> (try simp)

@[simp] theorem inputReadsActive_sweep (i : FireInput) (s : State) : (inputReadsActive i s).placement.sweep = s.placement.sweep := by
  unfold inputReadsActive
  (try dsimp only) <;> (repeat' split) <;> (try simp)

@[simp] theorem inputReadsInactive_sweep (i : FireInput) (s : State) : (inputReadsInactive i s).placement.sweep = s.placement.sweep := by
  unfold inputReadsInactive
  (try dsimp only) <;> (repeat' split) <;> (try simp)

@[simp] theorem filterExpires_sweep (i : FireInput) (s : State) : (filterExpires i s).placement.sweep = s.placement.sweep := by
  unfold filterExpires
  (try dsimp only) <;> (repeat' split) <;> (try simp)

@[simp] theorem applyHeld_sweep (s : State) : (applyHeld s).placement.sweep = s.placement.sweep := by
  unfold applyHeld
  (try dsimp only) <;> (repeat' split) <;> (try simp)

@[simp] theorem settle_sweep (s : State) : (settle s).placement.sweep = s.placement.sweep := by
  unfold settle
  (try dsimp only) <;> (repeat' split) <;> (try simp)

/-- An event keeps the fixed part, the pins being read. -/

theorem live_sweep (p : Pins) (f : State → State) (h : ∀ s, (f s).placement.sweep = s.placement.sweep) (s : State) :
    (live p f s).placement.sweep = (s.setPins p).placement.sweep := by
  unfold live
  dsimp only
  split <;> simp [h]

@[simp] theorem expiry_sweep (t : State → Option Timer) (f : State → State) (h : ∀ s, (f s).placement.sweep = s.placement.sweep) (s : State) :
    (expiry t f s).placement.sweep = s.placement.sweep := by
  unfold expiry
  split <;> simp [h]

@[simp] theorem stockRefused_sweep (r : StockReason) (slot : SlotName) (bin : Nat) (s : State) : (stockRefused r slot bin s).placement.sweep = s.placement.sweep := by
  unfold stockRefused
  (try dsimp only) <;> (repeat' split) <;> (try simp)

@[simp] theorem gateNotice_sweep (a : Answers) (i : Item) (s : State) : (gateNotice a i s).2.placement.sweep = s.placement.sweep := by
  unfold gateNotice
  (try dsimp only) <;> (repeat' split) <;> (try simp)

@[simp] theorem lendJoins_sweep (b : LendBody) (w : Visit) (s : State) : (lendJoins b w s).placement.sweep = s.placement.sweep := by
  unfold lendJoins
  (try dsimp only) <;> (repeat' split) <;> (try simp)

@[simp] theorem lendMakes_sweep (b : LendBody) (s : State) : (lendMakes b s).placement.sweep = s.placement.sweep := by
  unfold lendMakes
  (try dsimp only) <;> (repeat' split) <;> (try simp)

@[simp] theorem hearLend_sweep (b : LendBody) (s : State) : (hearLend b s).2.placement.sweep = s.placement.sweep := by
  unfold hearLend
  (try dsimp only) <;> (repeat' split) <;> (try simp)

@[simp] theorem withdrawStaged_sweep (n : Nat) (s : State) : (withdrawStaged n s).placement.sweep = s.placement.sweep := by
  unfold withdrawStaged
  (try dsimp only) <;> (repeat' split) <;> (try simp)

@[simp] theorem cancelListed_sweep (id : Nat) (v : Visit) (s : State) : (cancelListed id v s).placement.sweep = s.placement.sweep := by
  unfold cancelListed
  (try dsimp only) <;> (repeat' split) <;> (try simp)

@[simp] theorem cancelMarks_sweep (id : Nat) (s : State) : (cancelMarks id s).placement.sweep = s.placement.sweep := by
  unfold cancelMarks
  (try dsimp only) <;> (repeat' split) <;> (try simp)

@[simp] theorem hearCancel_sweep (id : Nat) (s : State) : (hearCancel id s).2.placement.sweep = s.placement.sweep := by
  unfold hearCancel
  (try dsimp only) <;> (repeat' split) <;> (try simp)

@[simp] theorem hearStockAt_sweep (n : SlotName) (s : State) : (hearStockAt n s).2.placement.sweep = s.placement.sweep := by
  unfold hearStockAt
  (try dsimp only) <;> (repeat' split) <;> (try simp)

@[simp] theorem binRemoved_sweep (bin : Nat) (why : FailReason) (s : State) : (binRemoved bin why s).placement.sweep = s.placement.sweep := by
  unfold binRemoved
  (try dsimp only) <;> (repeat' split) <;> (try simp)

@[simp] theorem stockApplied_sweep (sl : Slot) (b : StockBody) (s : State) : (stockApplied sl b s).placement.sweep = s.placement.sweep := by
  unfold stockApplied
  (try dsimp only) <;> (repeat' split) <;> (try simp)

@[simp] theorem hearStock_sweep (b : StockBody) (s : State) : (hearStock b s).2.placement.sweep = s.placement.sweep := by
  unfold hearStock
  (try dsimp only) <;> (repeat' split) <;> (try simp)

@[simp] theorem hearStockEnd_sweep (s : State) : (hearStockEnd s).placement.sweep = s.placement.sweep := by
  unfold hearStockEnd
  (try dsimp only) <;> (repeat' split) <;> (try simp)

@[simp] theorem hearWriteOff_sweep (bin : Nat) (s : State) : (hearWriteOff bin s).2.placement.sweep = s.placement.sweep := by
  unfold hearWriteOff
  (try dsimp only) <;> (repeat' split) <;> (try simp)

@[simp] theorem hearStop_sweep (s : State) : (hearStop s).placement.sweep = s.placement.sweep := by
  unfold hearStop
  (try dsimp only) <;> (repeat' split) <;> (try simp)

@[simp] theorem leaveHalt_sweep (s : State) : (leaveHalt s).placement.sweep = s.placement.sweep := by
  unfold leaveHalt
  (try dsimp only) <;> (repeat' split) <;> (try simp)

@[simp] theorem resumeSteps_sweep (s : State) : (resumeSteps s).placement.sweep = s.placement.sweep := by
  unfold resumeSteps
  (try dsimp only) <;> (repeat' split) <;> (try simp)

@[simp] theorem hearResume_sweep (s : State) : (hearResume s).placement.sweep = s.placement.sweep := by
  unfold hearResume
  (try dsimp only) <;> (repeat' split) <;> (try simp)

@[simp] theorem hearQuery_sweep (s : State) : (hearQuery s).placement.sweep = s.placement.sweep := by
  unfold hearQuery
  (try dsimp only) <;> (repeat' split) <;> (try simp)

@[simp] theorem hearFault_sweep (sender : Nat) (b : FaultBody) (s : State) : (hearFault sender b s).placement.sweep = s.placement.sweep := by
  unfold hearFault
  (try dsimp only) <;> (repeat' split) <;> (try simp)

@[simp] theorem applyItem_sweep (h : Header) (i : Item) (s : State) : (applyItem h i s).2.placement.sweep = s.placement.sweep := by
  unfold applyItem
  (try dsimp only) <;> (repeat' split) <;> (try simp)

@[simp] theorem takeItem_sweep (h : Header) (i : Item) (a : Answers) (s : State) : (takeItem h i a s).2.placement.sweep = s.placement.sweep := by
  unfold takeItem
  (try dsimp only) <;> (repeat' split) <;> (try simp)

@[simp] theorem afterItem_sweep (s : State) : (afterItem s).placement.sweep = s.placement.sweep := by
  unfold afterItem
  (try dsimp only) <;> (repeat' split) <;> (try simp)

@[simp] theorem passedSince_sweep (b s : State) : (passedSince b s).placement.sweep = s.placement.sweep := by
  unfold passedSince
  split <;> rfl

@[simp] theorem takeItems_sweep (h : Header) (items : List Item) (a : Answers) (s : State) :
    (takeItems h items a s).2.placement.sweep = s.placement.sweep := by
  induction items generalizing a s with
  | nil => rfl
  | cons i rest ih => simp [takeItems, ih]

@[simp] theorem takeClaims_sweep (items : List Item) (s : State) : (takeClaims items s).placement.sweep = s.placement.sweep := by
  unfold takeClaims
  refine foldl_sweep _ (fun s i => ?_) items s
  split
  · split <;> simp
  · rfl

@[simp] theorem enterNeighbour_sweep (h : Header) (s : State) : (enterNeighbour h s).placement.sweep = s.placement.sweep := by
  unfold enterNeighbour
  (try dsimp only) <;> (repeat' split) <;> (try simp)

@[simp] theorem setSlots_sweep (x : Bool × Bool) (s : State) : (setSlots x s).placement.sweep = s.placement.sweep := by
  unfold setSlots
  (try dsimp only) <;> (repeat' split) <;> (try simp)

@[simp] theorem frameHeard_sweep (h : Header) (items : List Item) (s : State) : (frameHeard h items s).placement.sweep = s.placement.sweep := by
  unfold frameHeard
  (try dsimp only) <;> (repeat' split) <;> (try simp)

theorem hear_sweep (p : Pins) (h : Header) (items : List Item) (s : State) :
    (hear p h items s).placement.sweep = (s.setPins p).placement.sweep := by
  unfold hear
  dsimp only
  split <;> simp

@[simp] theorem startCrane_sweep (s : State) : (startCrane s).placement.sweep = s.placement.sweep := by
  unfold startCrane
  (try dsimp only) <;> (repeat' split) <;> (try simp)

@[simp] theorem enterStocking_sweep (s : State) : (enterStocking s).placement.sweep = s.placement.sweep := by
  unfold enterStocking
  (try dsimp only) <;> (repeat' split) <;> (try simp)

@[simp] theorem reportSent_sweep (o : Owner) (s : State) : (reportSent o s).placement.sweep = s.placement.sweep := by
  unfold reportSent
  (try dsimp only) <;> (repeat' split) <;> (try simp)

@[simp] theorem frameWins_sweep (f : TxFrame) (q : List TxFrame) (s : State) : (frameWins f q s).placement.sweep = s.placement.sweep := by
  unfold frameWins
  (try dsimp only) <;> (repeat' split) <;> (try simp)

@[simp] theorem contend_sweep (rivals : List (Nat × Nat)) (s : State) : (contend rivals s).placement.sweep = s.placement.sweep := by
  unfold contend
  (try dsimp only) <;> (repeat' split) <;> (try simp)

@[simp] theorem reportOutcome_sweep (f : TxFrame) (o : TxOutcome) (s : State) : (reportOutcome f o s).placement.sweep = s.placement.sweep := by
  unfold reportOutcome
  (try dsimp only) <;> (repeat' split) <;> (try simp)

@[simp] theorem frameEnds_sweep (o : TxOutcome) (s : State) : (frameEnds o s).placement.sweep = s.placement.sweep := by
  unfold frameEnds
  (try dsimp only) <;> (repeat' split) <;> (try simp)

@[simp] theorem parkCompletes_sweep (s : State) : (parkCompletes s).placement.sweep = s.placement.sweep := by
  unfold parkCompletes
  (try dsimp only) <;> (repeat' split) <;> (try simp)

@[simp] theorem storeAgain_sweep (new : Slot) (s : State) : (storeAgain new s).placement.sweep = s.placement.sweep := by
  unfold storeAgain
  (try dsimp only) <;> (repeat' split) <;> (try simp)

@[simp] theorem slotConflictFault_sweep (bin : Nat) (old new : Slot) (s : State) : (slotConflictFault bin old new s).placement.sweep = s.placement.sweep := by
  unfold slotConflictFault
  (try dsimp only) <;> (repeat' split) <;> (try simp)

@[simp] theorem slotConflict_sweep (bin : Nat) (old : Slot) (s : State) : (slotConflict bin old s).placement.sweep = s.placement.sweep := by
  unfold slotConflict
  (try dsimp only) <;> (repeat' split) <;> (try simp)

@[simp] theorem storeInPosition_sweep (m : Move) (s : State) : (storeInPosition m s).placement.sweep = s.placement.sweep := by
  unfold storeInPosition
  (try dsimp only) <;> (repeat' split) <;> (try simp)

@[simp] theorem inPosition_sweep (s : State) : (inPosition s).placement.sweep = s.placement.sweep := by
  unfold inPosition
  (try dsimp only) <;> (repeat' split) <;> (try simp)

@[simp] theorem tagUnread_sweep (m : Move) (s : State) : (tagUnread m s).placement.sweep = s.placement.sweep := by
  unfold tagUnread
  (try dsimp only) <;> (repeat' split) <;> (try simp)

@[simp] theorem discardBound_sweep (s : State) : (discardBound s).placement.sweep = s.placement.sweep := by
  unfold discardBound
  (try dsimp only) <;> (repeat' split) <;> (try simp)

@[simp] theorem tagMismatch_sweep (m : Move) (x : Nat) (s : State) : (tagMismatch m x s).placement.sweep = s.placement.sweep := by
  unfold tagMismatch
  (try dsimp only) <;> (repeat' split) <;> (try simp)

@[simp] theorem forkTagRead_sweep (r : TagRead) (s : State) : (forkTagRead r s).placement.sweep = s.placement.sweep := by
  unfold forkTagRead
  (try dsimp only) <;> (repeat' split) <;> (try simp)

@[simp] theorem takeOutRefused_sweep (m : Move) (s : State) : (takeOutRefused m s).placement.sweep = s.placement.sweep := by
  unfold takeOutRefused
  (try dsimp only) <;> (repeat' split) <;> (try simp)

@[simp] theorem fetchDone_sweep (m : Move) (s : State) : (fetchDone m s).placement.sweep = s.placement.sweep := by
  unfold fetchDone
  (try dsimp only) <;> (repeat' split) <;> (try simp)

@[simp] theorem deliverDone_sweep (s : State) : (deliverDone s).placement.sweep = s.placement.sweep := by
  unfold deliverDone
  (try dsimp only) <;> (repeat' split) <;> (try simp)

@[simp] theorem takeInDone_sweep (s : State) : (takeInDone s).placement.sweep = s.placement.sweep := by
  unfold takeInDone
  (try dsimp only) <;> (repeat' split) <;> (try simp)

@[simp] theorem storeDone_sweep (s : State) : (storeDone s).placement.sweep = s.placement.sweep := by
  unfold storeDone
  (try dsimp only) <;> (repeat' split) <;> (try simp)

@[simp] theorem forkDone_sweep (s : State) : (forkDone s).placement.sweep = s.placement.sweep := by
  unfold forkDone
  (try dsimp only) <;> (repeat' split) <;> (try simp)

@[simp] theorem fireStopped_sweep (s : State) : (fireStopped s).placement.sweep = s.placement.sweep := by
  unfold fireStopped
  (try dsimp only) <;> (repeat' split) <;> (try simp)

@[simp] theorem stopStopped_sweep (s : State) : (stopStopped s).placement.sweep = s.placement.sweep := by
  unfold stopStopped
  (try dsimp only) <;> (repeat' split) <;> (try simp)

@[simp] theorem craneStopped_sweep (s : State) : (craneStopped s).placement.sweep = s.placement.sweep := by
  unfold craneStopped
  (try dsimp only) <;> (repeat' split) <;> (try simp)

@[simp] theorem budgetExpires_sweep (s : State) : (budgetExpires s).placement.sweep = s.placement.sweep := by
  unfold budgetExpires
  (try dsimp only) <;> (repeat' split) <;> (try simp)

@[simp] theorem storeBack_sweep (s : State) : (storeBack s).placement.sweep = s.placement.sweep := by
  unfold storeBack
  (try dsimp only) <;> (repeat' split) <;> (try simp)

@[simp] theorem portTagFails_sweep (r : TravelRecord) (id : Nat) (s : State) : (portTagFails r id s).placement.sweep = s.placement.sweep := by
  unfold portTagFails
  (try dsimp only) <;> (repeat' split) <;> (try simp)

@[simp] theorem portInTagRead_sweep (id : Option Nat) (s : State) : (portInTagRead id s).placement.sweep = s.placement.sweep := by
  unfold portInTagRead
  (try dsimp only) <;> (repeat' split) <;> (try simp)

@[simp] theorem transferOutExpires_sweep (l : Lane) (s : State) : (transferOutExpires l s).placement.sweep = s.placement.sweep := by
  unfold transferOutExpires
  (try dsimp only) <;> (repeat' split) <;> (try simp)

@[simp] theorem diversionTransferExpires_sweep (s : State) : (diversionTransferExpires s).placement.sweep = s.placement.sweep := by
  unfold diversionTransferExpires
  (try dsimp only) <;> (repeat' split) <;> (try simp)

@[simp] theorem mergeTransferExpires_sweep (s : State) : (mergeTransferExpires s).placement.sweep = s.placement.sweep := by
  unfold mergeTransferExpires
  (try dsimp only) <;> (repeat' split) <;> (try simp)

@[simp] theorem callWindowExpires_sweep (c : Call) (s : State) : (callWindowExpires c s).placement.sweep = s.placement.sweep := by
  unfold callWindowExpires
  (try dsimp only) <;> (repeat' split) <;> (try simp)

@[simp] theorem sweepBin_sweep (b : Nat) (s : State) : (sweepBin b s).placement.sweep = s.placement.sweep := by
  unfold sweepBin
  (try dsimp only) <;> (repeat' split) <;> (try simp)

@[simp] theorem overdueSweep_sweep (s : State) : (overdueSweep s).placement.sweep = s.placement.sweep := by
  unfold overdueSweep
  (try dsimp only) <;> (repeat' split) <;> (try simp)

theorem filterEvent_sweep (p : Pins) (f : State → State) (h : ∀ s, (f s).placement.sweep = s.placement.sweep) (s : State) :
    (filterEvent p f s).placement.sweep = (s.setPins p).placement.sweep := by
  unfold filterEvent
  dsimp only
  (repeat' split) <;> simp [h]

@[simp] theorem closingRetryExpires_sweep (s : State) : (closingRetryExpires s).placement.sweep = s.placement.sweep := by
  unfold closingRetryExpires
  (try dsimp only) <;> (repeat' split) <;> (try simp)

@[simp] theorem readComplete_sweep (image : List Byte) (s : State) : (readComplete image s).placement.sweep = s.placement.sweep := by
  cases h : imageGood image with
  | false => simp [readComplete, h]
  | true => cases h2 : forbidden (clampConfig (rawConfig image)) <;> simp [readComplete, h, h2]

end Sys2Proof.Machine
end

