-- ==== Sys2Proof/Laws/KeepsNeighbours.lean ====
section
/-! SUPPORT. The neighbour table: no operation but the entry of a frame's sender writes it (R170). -/

namespace Sys2Proof.Machine
open Sys2Proof

@[simp] theorem afterAdmission_neighbours (u : LineUnit) (a : Admission) : (u.afterAdmission a).neighbours = u.neighbours := by
  cases a <;> rfl

@[simp] theorem setQueue_neighbours (u : LineUnit) (q : List TxFrame) : (u.setQueue q).neighbours = u.neighbours := rfl

@[simp] theorem tryTaken_neighbours (own bin : Nat) (place : TakenPlace) (left sending : Nat) (u : LineUnit) :
    (tryTaken own bin place left sending u).neighbours = u.neighbours := by
  induction left generalizing sending with
  | zero => rfl
  | succ n ih => unfold tryTaken; dsimp only; split <;> simp [ih]

@[simp] theorem foldl_neighbours {α : Type} (f : State → α → State) (h : ∀ s a, (f s a).line.neighbours = s.line.neighbours) (l : List α) (s : State) :
    (l.foldl f s).line.neighbours = s.line.neighbours := by
  induction l generalizing s with
  | nil => rfl
  | cons a l ih => simp [ih, h]

@[simp] theorem noteHeld_neighbours (h : Bool) (s : State) : (noteHeld h s).line.neighbours = s.line.neighbours := by
  unfold noteHeld
  (try dsimp only) <;> (repeat' split) <;> (try simp)

@[simp] theorem handBack_neighbours (n : Nat) (s : State) : (handBack n s).line.neighbours = s.line.neighbours := by
  unfold handBack
  (try dsimp only) <;> (repeat' split) <;> (try simp)

@[simp] theorem handBackLink_neighbours (link : Option Nat) (s : State) : (handBackLink link s).line.neighbours = s.line.neighbours := by
  unfold handBackLink
  (try dsimp only) <;> (repeat' split) <;> (try simp)

@[simp] theorem releaseBin_neighbours (bin : Nat) (s : State) : (releaseBin bin s).line.neighbours = s.line.neighbours := by
  unfold releaseBin
  (try dsimp only) <;> (repeat' split) <;> (try simp)

@[simp] theorem withholdBin_neighbours (bin : Nat) (s : State) : (withholdBin bin s).line.neighbours = s.line.neighbours := by
  unfold withholdBin
  (try dsimp only) <;> (repeat' split) <;> (try simp)

@[simp] theorem reportRoute_neighbours (isOpen : Bool) (s : State) : (reportRoute isOpen s).line.neighbours = s.line.neighbours := by
  unfold reportRoute
  (try dsimp only) <;> (repeat' split) <;> (try simp)

@[simp] theorem visitTo_neighbours (link : Option Nat) (st : VisitState) (s : State) : (visitTo link st s).line.neighbours = s.line.neighbours := by
  unfold visitTo
  (try dsimp only) <;> (repeat' split) <;> (try simp)

@[simp] theorem reserveEntry_neighbours (bin : Nat) (desk : Desk) (s : State) : (reserveEntry bin desk s).line.neighbours = s.line.neighbours := by
  unfold reserveEntry
  (try dsimp only) <;> (repeat' split) <;> (try simp)

@[simp] theorem dropReservation_neighbours (bin : Nat) (desk : Desk) (s : State) : (dropReservation bin desk s).line.neighbours = s.line.neighbours := by
  unfold dropReservation
  (try dsimp only) <;> (repeat' split) <;> (try simp)

@[simp] theorem takeRoomPart_neighbours (bin : Nat) (part : RoomPart) (s : State) : (takeRoomPart bin part s).line.neighbours = s.line.neighbours := by
  unfold takeRoomPart
  (try dsimp only) <;> (repeat' split) <;> (try simp)

@[simp] theorem clearStow_neighbours (s : State) : (clearStow s).line.neighbours = s.line.neighbours := by
  unfold clearStow
  (try dsimp only) <;> (repeat' split) <;> (try simp)

@[simp] theorem clearPassed_neighbours (s : State) : (clearPassed s).line.neighbours = s.line.neighbours := by
  unfold clearPassed
  (try dsimp only) <;> (repeat' split) <;> (try simp)

@[simp] theorem setStow_neighbours (st : StowState) (s : State) : (setStow st s).line.neighbours = s.line.neighbours := by
  unfold setStow
  (try dsimp only) <;> (repeat' split) <;> (try simp)

@[simp] theorem promoteStow_neighbours (s : State) : (promoteStow s).line.neighbours = s.line.neighbours := by
  unfold promoteStow
  (try dsimp only) <;> (repeat' split) <;> (try simp)

@[simp] theorem releaseEntry_neighbours (e : CallEntry) (s : State) : (releaseEntry e s).line.neighbours = s.line.neighbours := by
  unfold releaseEntry
  (try dsimp only) <;> (repeat' split) <;> (try simp)

@[simp] theorem unreserveEntry_neighbours (e : CallEntry) (s : State) : (unreserveEntry e s).line.neighbours = s.line.neighbours := by
  unfold unreserveEntry
  (try dsimp only) <;> (repeat' split) <;> (try simp)

@[simp] theorem bidRefused_neighbours (c : Call) (s : State) : (bidRefused c s).line.neighbours = s.line.neighbours := by
  unfold bidRefused
  (try dsimp only) <;> (repeat' split) <;> (try simp)

@[simp] theorem claimLost_neighbours (c : Call) (s : State) : (claimLost c s).line.neighbours = s.line.neighbours := by
  unfold claimLost
  (try dsimp only) <;> (repeat' split) <;> (try simp)

@[simp] theorem startRetry_neighbours (l : Lane) (s : State) : (startRetry l s).line.neighbours = s.line.neighbours := by
  unfold startRetry
  (try dsimp only) <;> (repeat' split) <;> (try simp)

@[simp] theorem startClosingRetry_neighbours (s : State) : (startClosingRetry s).line.neighbours = s.line.neighbours := by
  unfold startClosingRetry
  (try dsimp only) <;> (repeat' split) <;> (try simp)

@[simp] theorem frameRefused_neighbours (o : Owner) (s : State) : (frameRefused o s).line.neighbours = s.line.neighbours := by
  unfold frameRefused
  (try dsimp only) <;> (repeat' split) <;> (try simp)

@[simp] theorem queueFrame_neighbours (f : TxFrame) (s : State) : (queueFrame f s).line.neighbours = s.line.neighbours := by
  unfold queueFrame
  (try dsimp only) <;> (repeat' split) <;> (try simp)

@[simp] theorem notice_neighbours (items : List Item) (s : State) : (notice items s).line.neighbours = s.line.neighbours := by
  unfold notice
  (try dsimp only) <;> (repeat' split) <;> (try simp)

@[simp] theorem faultNotice_neighbours (b : FaultBody) (s : State) : (faultNotice b s).line.neighbours = s.line.neighbours := by
  unfold faultNotice
  (try dsimp only) <;> (repeat' split) <;> (try simp)

@[simp] theorem withdraw_neighbours (p : Owner → Bool) (s : State) : (withdraw p s).line.neighbours = s.line.neighbours := by
  unfold withdraw
  (try dsimp only) <;> (repeat' split) <;> (try simp)

@[simp] theorem requestFailed_neighbours (reason : FailReason) (kind : AnsweredKind) (bin : Nat) (desk : Option Desk) (requests : List (Nat × Nat)) (s : State) : (requestFailed reason kind bin desk requests s).line.neighbours = s.line.neighbours := by
  unfold requestFailed
  (try dsimp only) <;> (repeat' split) <;> (try simp)

@[simp] theorem requestDone_neighbours (bin : Nat) (desk : Desk) (requests : List (Nat × Nat)) (s : State) : (requestDone bin desk requests s).line.neighbours = s.line.neighbours := by
  unfold requestDone
  (try dsimp only) <;> (repeat' split) <;> (try simp)

@[simp] theorem failVisit_neighbours (n : Nat) (reason : FailReason) (release : Bool) (s : State) : (failVisit n reason release s).line.neighbours = s.line.neighbours := by
  unfold failVisit
  (try dsimp only) <;> (repeat' split) <;> (try simp)

@[simp] theorem failVisits_neighbours (bin : Nat) (reason : FailReason) (s : State) : (failVisits bin reason s).line.neighbours = s.line.neighbours := by
  unfold failVisits
  (try dsimp only) <;> (repeat' split) <;> (try simp)

@[simp] theorem closeCall_neighbours (c : Call) (s : State) : (closeCall c s).line.neighbours = s.line.neighbours := by
  unfold closeCall
  (try dsimp only) <;> (repeat' split) <;> (try simp)

@[simp] theorem closeCalls_neighbours (p : CallState → Bool) (s : State) : (closeCalls p s).line.neighbours = s.line.neighbours := by
  unfold closeCalls
  (try dsimp only) <;> (repeat' split) <;> (try simp)

@[simp] theorem closeCallsOfBin_neighbours (bin : Nat) (s : State) : (closeCallsOfBin bin s).line.neighbours = s.line.neighbours := by
  unfold closeCallsOfBin
  (try dsimp only) <;> (repeat' split) <;> (try simp)

@[simp] theorem craneTo_neighbours (st : CraneState) (s : State) : (craneTo st s).line.neighbours = s.line.neighbours := by
  unfold craneTo
  (try dsimp only) <;> (repeat' split) <;> (try simp)

@[simp] theorem readEncoders_neighbours (s : State) : (readEncoders s).line.neighbours = s.line.neighbours := by
  unfold readEncoders
  (try dsimp only) <;> (repeat' split) <;> (try simp)

@[simp] theorem clearCurrent_neighbours (s : State) : (clearCurrent s).line.neighbours = s.line.neighbours := by
  unfold clearCurrent
  (try dsimp only) <;> (repeat' split) <;> (try simp)

@[simp] theorem askLeg_neighbours (a b : Pos) (fork : Bool) (s : State) : (askLeg a b fork s).2.line.neighbours = s.line.neighbours := by
  unfold askLeg
  (try dsimp only) <;> (repeat' split) <;> (try simp)

@[simp] theorem askEstimate_neighbours (target : Target) (fork : Bool) (s : State) : (askEstimate target fork s).2.line.neighbours = s.line.neighbours := by
  unfold askEstimate
  (try dsimp only) <;> (repeat' split) <;> (try simp)

@[simp] theorem locateBin_neighbours (b : Nat) (loc : Location) (s : State) : (locateBin b loc s).line.neighbours = s.line.neighbours := by
  unfold locateBin
  (try dsimp only) <;> (repeat' split) <;> (try simp)

@[simp] theorem setPortOut_neighbours (x : PlaceState) (s : State) : (setPortOut x s).line.neighbours = s.line.neighbours := by
  unfold setPortOut
  (try dsimp only) <;> (repeat' split) <;> (try simp)

@[simp] theorem setPortIn_neighbours (x : PlaceState) (s : State) : (setPortIn x s).line.neighbours = s.line.neighbours := by
  unfold setPortIn
  (try dsimp only) <;> (repeat' split) <;> (try simp)

@[simp] theorem stampStart_neighbours (s : State) : (stampStart s).line.neighbours = s.line.neighbours := by
  unfold stampStart
  (try dsimp only) <;> (repeat' split) <;> (try simp)

@[simp] theorem reportStart_neighbours (m : Move) (s : State) : (reportStart m s).line.neighbours = s.line.neighbours := by
  unfold reportStart
  (try dsimp only) <;> (repeat' split) <;> (try simp)

@[simp] theorem startMove_neighbours (m : Move) (s : State) : (startMove m s).line.neighbours = s.line.neighbours := by
  unfold startMove
  (try dsimp only) <;> (repeat' split) <;> (try simp)

@[simp] theorem holdDeliver_neighbours (m : Move) (s : State) : (holdDeliver m s).line.neighbours = s.line.neighbours := by
  unfold holdDeliver
  (try dsimp only) <;> (repeat' split) <;> (try simp)

@[simp] theorem stageContinuation_neighbours (m : Move) (s : State) : (stageContinuation m s).line.neighbours = s.line.neighbours := by
  unfold stageContinuation
  (try dsimp only) <;> (repeat' split) <;> (try simp)

@[simp] theorem makeCurrent_neighbours (kind : MoveKind) (target : Target) (visit : Option Nat) (bound : Bool) (s : State) : (makeCurrent kind target visit bound s).line.neighbours = s.line.neighbours := by
  unfold makeCurrent
  (try dsimp only) <;> (repeat' split) <;> (try simp)

@[simp] theorem discardStaged_neighbours (s : State) : (discardStaged s).line.neighbours = s.line.neighbours := by
  unfold discardStaged
  (try dsimp only) <;> (repeat' split) <;> (try simp)

@[simp] theorem storeBlocked_neighbours (bin : Nat) (slot : SlotName) (s : State) : (storeBlocked bin slot s).line.neighbours = s.line.neighbours := by
  unfold storeBlocked
  (try dsimp only) <;> (repeat' split) <;> (try simp)

@[simp] theorem makeStore_neighbours (bin : Nat) (s : State) : (makeStore bin s).line.neighbours = s.line.neighbours := by
  unfold makeStore
  (try dsimp only) <;> (repeat' split) <;> (try simp)

@[simp] theorem nextMove_neighbours (s : State) : (nextMove s).line.neighbours = s.line.neighbours := by
  unfold nextMove
  (try dsimp only) <;> (repeat' split) <;> (try simp)

@[simp] theorem park_neighbours (s : State) : (park s).line.neighbours = s.line.neighbours := by
  unfold park
  (try dsimp only) <;> (repeat' split) <;> (try simp)

@[simp] theorem promote_neighbours (s : State) : (promote s).line.neighbours = s.line.neighbours := by
  unfold promote
  (try dsimp only) <;> (repeat' split) <;> (try simp)

@[simp] theorem afterCompletion_neighbours (s : State) : (afterCompletion s).line.neighbours = s.line.neighbours := by
  unfold afterCompletion
  (try dsimp only) <;> (repeat' split) <;> (try simp)

@[simp] theorem storeBin_neighbours (bin : Nat) (content : Option Contents) (room : Option (Nat × Nat)) (s : State) : (storeBin bin content room s).line.neighbours = s.line.neighbours := by
  unfold storeBin
  (try dsimp only) <;> (repeat' split) <;> (try simp)

@[simp] theorem carryFetched_neighbours (bin : Nat) (visit : Option Nat) (uncertain : Bool) (d : Directory) (s : State) : (carryFetched bin visit uncertain d s).line.neighbours = s.line.neighbours := by
  unfold carryFetched
  (try dsimp only) <;> (repeat' split) <;> (try simp)

@[simp] theorem abandonFetch_neighbours (m : Move) (s : State) : (abandonFetch m s).line.neighbours = s.line.neighbours := by
  unfold abandonFetch
  (try dsimp only) <;> (repeat' split) <;> (try simp)

@[simp] theorem abandonDeliver_neighbours (m : Move) (s : State) : (abandonDeliver m s).line.neighbours = s.line.neighbours := by
  unfold abandonDeliver
  (try dsimp only) <;> (repeat' split) <;> (try simp)

@[simp] theorem abandonTakeIn_neighbours (s : State) : (abandonTakeIn s).line.neighbours = s.line.neighbours := by
  unfold abandonTakeIn
  (try dsimp only) <;> (repeat' split) <;> (try simp)

@[simp] theorem abandonStore_neighbours (s : State) : (abandonStore s).line.neighbours = s.line.neighbours := by
  unfold abandonStore
  (try dsimp only) <;> (repeat' split) <;> (try simp)

@[simp] theorem abandonMove_neighbours (s : State) : (abandonMove s).line.neighbours = s.line.neighbours := by
  unfold abandonMove
  (try dsimp only) <;> (repeat' split) <;> (try simp)

@[simp] theorem stall_neighbours (m : Move) (s : State) : (stall m s).line.neighbours = s.line.neighbours := by
  unfold stall
  (try dsimp only) <;> (repeat' split) <;> (try simp)

@[simp] theorem loadFault_neighbours (bin : Nat) (s : State) : (loadFault bin s).line.neighbours = s.line.neighbours := by
  unfold loadFault
  (try dsimp only) <;> (repeat' split) <;> (try simp)

@[simp] theorem resolveLoad_neighbours (s : State) : (resolveLoad s).2.line.neighbours = s.line.neighbours := by
  unfold resolveLoad
  (try dsimp only) <;> (repeat' split) <;> (try simp)

@[simp] theorem portOutEmptied_neighbours (s : State) : (portOutEmptied s).line.neighbours = s.line.neighbours := by
  unfold portOutEmptied
  (try dsimp only) <;> (repeat' split) <;> (try simp)

@[simp] theorem dropWaiting_neighbours (s : State) : (dropWaiting s).line.neighbours = s.line.neighbours := by
  unfold dropWaiting
  (try dsimp only) <;> (repeat' split) <;> (try simp)

@[simp] theorem craneEntersFire_neighbours (s : State) : (craneEntersFire s).line.neighbours = s.line.neighbours := by
  unfold craneEntersFire
  (try dsimp only) <;> (repeat' split) <;> (try simp)

@[simp] theorem unpark_neighbours (s : State) : (unpark s).line.neighbours = s.line.neighbours := by
  unfold unpark
  (try dsimp only) <;> (repeat' split) <;> (try simp)

@[simp] theorem craneStop_neighbours (s : State) : (craneStop s).line.neighbours = s.line.neighbours := by
  unfold craneStop
  (try dsimp only) <;> (repeat' split) <;> (try simp)

@[simp] theorem chooseAt_neighbours (s : State) (order : Nat) : (chooseAt s order).2.line.neighbours = s.line.neighbours := by
  unfold chooseAt
  (try dsimp only) <;> (repeat' split) <;> (try simp)

@[simp] theorem stageFree_neighbours (w : Work) (s : State) : (stageFree w s).line.neighbours = s.line.neighbours := by
  unfold stageFree
  (try dsimp only) <;> (repeat' split) <;> (try simp)

@[simp] theorem giveFree_neighbours (w : Work) (s : State) : (giveFree w s).line.neighbours = s.line.neighbours := by
  unfold giveFree
  (try dsimp only) <;> (repeat' split) <;> (try simp)

@[simp] theorem selectAmong_neighbours (orders : List Nat) (give : Work → State → State)
    (h : ∀ w s, (give w s).line.neighbours = s.line.neighbours) (s : State) : (selectAmong orders give s).line.neighbours = s.line.neighbours := by
  unfold selectAmong
  split
  · next o _ =>
    have hc := chooseAt_neighbours s o
    split <;> simp_all
  · rfl

@[simp] theorem giveBack_neighbours (m : Move) (s : State) : (giveBack m s).line.neighbours = s.line.neighbours := by
  unfold giveBack
  (try dsimp only) <;> (repeat' split) <;> (try simp)

@[simp] theorem displace_neighbours (m : Move) (s : State) : (displace m s).line.neighbours = s.line.neighbours := by
  unfold displace
  (try dsimp only) <;> (repeat' split) <;> (try simp)

@[simp] theorem selectWork_neighbours (s : State) : (selectWork s).line.neighbours = s.line.neighbours := by
  unfold selectWork
  (try dsimp only) <;> (repeat' split) <;> (try simp)

@[simp] theorem setLane_neighbours (l : Lane) (v : PlaceState) (s : State) : (setLane l v s).line.neighbours = s.line.neighbours := by
  unfold setLane
  (try dsimp only) <;> (repeat' split) <;> (try simp)

@[simp] theorem setOut_neighbours (l : Lane) (v : Option Handoff) (s : State) : (setOut l v s).line.neighbours = s.line.neighbours := by
  unfold setOut
  (try dsimp only) <;> (repeat' split) <;> (try simp)

@[simp] theorem setIncoming_neighbours (l : Lane) (v : Option Handoff) (s : State) : (setIncoming l v s).line.neighbours = s.line.neighbours := by
  unfold setIncoming
  (try dsimp only) <;> (repeat' split) <;> (try simp)

@[simp] theorem clearRetry_neighbours (l : Lane) (s : State) : (clearRetry l s).line.neighbours = s.line.neighbours := by
  unfold clearRetry
  (try dsimp only) <;> (repeat' split) <;> (try simp)

@[simp] theorem driveLane_neighbours (l : Lane) (on : Bool) (s : State) : (driveLane l on s).line.neighbours = s.line.neighbours := by
  unfold driveLane
  (try dsimp only) <;> (repeat' split) <;> (try simp)

@[simp] theorem handoffLost_neighbours (bin peer : Nat) (place : PlaceCode) (hop : Nat) (s : State) : (handoffLost bin peer place hop s).line.neighbours = s.line.neighbours := by
  unfold handoffLost
  (try dsimp only) <;> (repeat' split) <;> (try simp)

@[simp] theorem grantPortOut_neighbours (s : State) : (grantPortOut s).line.neighbours = s.line.neighbours := by
  unfold grantPortOut
  (try dsimp only) <;> (repeat' split) <;> (try simp)

@[simp] theorem keepDown_neighbours (s : State) : (keepDown s).line.neighbours = s.line.neighbours := by
  unfold keepDown
  (try dsimp only) <;> (repeat' split) <;> (try simp)

@[simp] theorem mergeArbiter_neighbours (s : State) : (mergeArbiter s).line.neighbours = s.line.neighbours := by
  unfold mergeArbiter
  (try dsimp only) <;> (repeat' split) <;> (try simp)

@[simp] theorem noteFree_neighbours (bin : Nat) (visit : Option Nat) (s : State) : (noteFree bin visit s).line.neighbours = s.line.neighbours := by
  unfold noteFree
  (try dsimp only) <;> (repeat' split) <;> (try simp)

@[simp] theorem handOver_neighbours (bin : Nat) (visit : Option Nat) (s : State) : (handOver bin visit s).line.neighbours = s.line.neighbours := by
  unfold handOver
  (try dsimp only) <;> (repeat' split) <;> (try simp)

@[simp] theorem offerLane_neighbours (l : Lane) (s : State) : (offerLane l s).line.neighbours = s.line.neighbours := by
  unfold offerLane
  (try dsimp only) <;> (repeat' split) <;> (try simp)

@[simp] theorem withdrawOffer_neighbours (l : Lane) (s : State) : (withdrawOffer l s).line.neighbours = s.line.neighbours := by
  unfold withdrawOffer
  (try dsimp only) <;> (repeat' split) <;> (try simp)

@[simp] theorem offerOutcome_neighbours (l : Lane) (peer : Nat) (heard : Bool) (s : State) : (offerOutcome l peer heard s).line.neighbours = s.line.neighbours := by
  unfold offerOutcome
  (try dsimp only) <;> (repeat' split) <;> (try simp)

@[simp] theorem acceptOffer_neighbours (l : Lane) (sender : Nat) (r : TravelRecord) (s : State) : (acceptOffer l sender r s).line.neighbours = s.line.neighbours := by
  unfold acceptOffer
  (try dsimp only) <;> (repeat' split) <;> (try simp)

@[simp] theorem noRoom_neighbours (l : Lane) (r : TravelRecord) (s : State) : (noRoom l r s).line.neighbours = s.line.neighbours := by
  unfold noRoom
  (try dsimp only) <;> (repeat' split) <;> (try simp)

@[simp] theorem mergeWins_neighbours (s : State) : (mergeWins s).line.neighbours = s.line.neighbours := by
  unfold mergeWins
  (try dsimp only) <;> (repeat' split) <;> (try simp)

@[simp] theorem hearOffer_neighbours (sender : Nat) (r : TravelRecord) (s : State) : (hearOffer sender r s).2.line.neighbours = s.line.neighbours := by
  unfold hearOffer
  (try dsimp only) <;> (repeat' split) <;> (try simp)

@[simp] theorem startDiversion_neighbours (r : TravelRecord) (s : State) : (startDiversion r s).line.neighbours = s.line.neighbours := by
  unfold startDiversion
  (try dsimp only) <;> (repeat' split) <;> (try simp)

@[simp] theorem beginDiversion_neighbours (r : TravelRecord) (s : State) : (beginDiversion r s).line.neighbours = s.line.neighbours := by
  unfold beginDiversion
  split <;> simp

@[simp] theorem blockUp_neighbours (r : TravelRecord) (slot : SlotName) (s : State) : (blockUp r slot s).line.neighbours = s.line.neighbours := by
  unfold blockUp
  (try dsimp only) <;> (repeat' split) <;> (try simp)

@[simp] theorem divert_neighbours (r : TravelRecord) (s : State) : (divert r s).line.neighbours = s.line.neighbours := by
  unfold divert
  (try dsimp only) <;> (repeat' split) <;> (try simp)

@[simp] theorem diversionCheck_neighbours (s : State) : (diversionCheck s).line.neighbours = s.line.neighbours := by
  unfold diversionCheck
  (try dsimp only) <;> (repeat' split) <;> (try simp)

@[simp] theorem fireDiversion_neighbours (s : State) : (fireDiversion s).line.neighbours = s.line.neighbours := by
  unfold fireDiversion
  (try dsimp only) <;> (repeat' split) <;> (try simp)

@[simp] theorem unannounced_neighbours (place : SpinePlace) (s : State) : (unannounced place s).line.neighbours = s.line.neighbours := by
  unfold unannounced
  (try dsimp only) <;> (repeat' split) <;> (try simp)

@[simp] theorem mergeArrives_neighbours (s : State) : (mergeArrives s).line.neighbours = s.line.neighbours := by
  unfold mergeArrives
  (try dsimp only) <;> (repeat' split) <;> (try simp)

@[simp] theorem laneArrives_neighbours (l : Lane) (h : Handoff) (s : State) : (laneArrives l h s).line.neighbours = s.line.neighbours := by
  unfold laneArrives
  (try dsimp only) <;> (repeat' split) <;> (try simp)

@[simp] theorem diversionArrives_neighbours (s : State) : (diversionArrives s).line.neighbours = s.line.neighbours := by
  unfold diversionArrives
  (try dsimp only) <;> (repeat' split) <;> (try simp)

@[simp] theorem laneEntry_neighbours (l : Lane) (s : State) : (laneEntry l s).line.neighbours = s.line.neighbours := by
  unfold laneEntry
  (try dsimp only) <;> (repeat' split) <;> (try simp)

@[simp] theorem entryReport_neighbours (place : SpinePlace) (s : State) : (entryReport place s).line.neighbours = s.line.neighbours := by
  unfold entryReport
  (try dsimp only) <;> (repeat' split) <;> (try simp)

@[simp] theorem positionReport_neighbours (place : SpinePlace) (s : State) : (positionReport place s).line.neighbours = s.line.neighbours := by
  unfold positionReport
  (try dsimp only) <;> (repeat' split) <;> (try simp)

@[simp] theorem takenLane_neighbours (l : Lane) (b : TakenBody) (s : State) : (takenLane l b s).line.neighbours = s.line.neighbours := by
  unfold takenLane
  (try dsimp only) <;> (repeat' split) <;> (try simp)

@[simp] theorem completeVisit_neighbours (v : Visit) (s : State) : (completeVisit v s).line.neighbours = s.line.neighbours := by
  unfold completeVisit
  (try dsimp only) <;> (repeat' split) <;> (try simp)

@[simp] theorem deskTakes_neighbours (b : TakenBody) (s : State) : (deskTakes b s).line.neighbours = s.line.neighbours := by
  unfold deskTakes
  (try dsimp only) <;> (repeat' split) <;> (try simp)

@[simp] theorem hearTaken_neighbours (b : TakenBody) (s : State) : (hearTaken b s).line.neighbours = s.line.neighbours := by
  unfold hearTaken
  (try dsimp only) <;> (repeat' split) <;> (try simp)

@[simp] theorem loseHome_neighbours (r : TravelRecord) (s : State) : (loseHome r s).line.neighbours = s.line.neighbours := by
  unfold loseHome
  (try dsimp only) <;> (repeat' split) <;> (try simp)

@[simp] theorem outExpires_neighbours (l : Lane) (h : Handoff) (s : State) : (outExpires l h s).line.neighbours = s.line.neighbours := by
  unfold outExpires
  (try dsimp only) <;> (repeat' split) <;> (try simp)

@[simp] theorem diversionExpires_neighbours (h : Handoff) (s : State) : (diversionExpires h s).line.neighbours = s.line.neighbours := by
  unfold diversionExpires
  (try dsimp only) <;> (repeat' split) <;> (try simp)

@[simp] theorem inExpires_neighbours (l : Lane) (s : State) : (inExpires l s).line.neighbours = s.line.neighbours := by
  unfold inExpires
  (try dsimp only) <;> (repeat' split) <;> (try simp)

@[simp] theorem mergeExpires_neighbours (h : Handoff) (s : State) : (mergeExpires h s).line.neighbours = s.line.neighbours := by
  unfold mergeExpires
  (try dsimp only) <;> (repeat' split) <;> (try simp)

@[simp] theorem mergeWaitExpires_neighbours (s : State) : (mergeWaitExpires s).line.neighbours = s.line.neighbours := by
  unfold mergeWaitExpires
  (try dsimp only) <;> (repeat' split) <;> (try simp)

@[simp] theorem hearHandoffLost_neighbours (sender : Nat) (b : FaultBody) (s : State) : (hearHandoffLost sender b s).line.neighbours = s.line.neighbours := by
  unfold hearHandoffLost
  (try dsimp only) <;> (repeat' split) <;> (try simp)

@[simp] theorem lowerCaught_neighbours (sender bin : Nat) (s : State) : (lowerCaught sender bin s).line.neighbours = s.line.neighbours := by
  unfold lowerCaught
  (try dsimp only) <;> (repeat' split) <;> (try simp)

@[simp] theorem hearBinCaught_neighbours (sender : Nat) (b : FaultBody) (s : State) : (hearBinCaught sender b s).line.neighbours = s.line.neighbours := by
  unfold hearBinCaught
  (try dsimp only) <;> (repeat' split) <;> (try simp)

@[simp] theorem dropKept_neighbours (kept : Option TravelRecord) (s : State) : (dropKept kept s).line.neighbours = s.line.neighbours := by
  unfold dropKept
  (try dsimp only) <;> (repeat' split) <;> (try simp)

@[simp] theorem clearPlace_neighbours (place : SpinePlace) (s : State) : (clearPlace place s).line.neighbours = s.line.neighbours := by
  unfold clearPlace
  (try dsimp only) <;> (repeat' split) <;> (try simp)

@[simp] theorem clearBlocked_neighbours (s : State) : (clearBlocked s).line.neighbours = s.line.neighbours := by
  unfold clearBlocked
  (try dsimp only) <;> (repeat' split) <;> (try simp)

@[simp] theorem binCaught_neighbours (r : TravelRecord) (place : PlaceCode) (s : State) : (binCaught r place s).line.neighbours = s.line.neighbours := by
  unfold binCaught
  (try dsimp only) <;> (repeat' split) <;> (try simp)

@[simp] theorem catchDown_neighbours (s : State) : (catchDown s).line.neighbours = s.line.neighbours := by
  unfold catchDown
  (try dsimp only) <;> (repeat' split) <;> (try simp)

@[simp] theorem catchUp_neighbours (s : State) : (catchUp s).line.neighbours = s.line.neighbours := by
  unfold catchUp
  (try dsimp only) <;> (repeat' split) <;> (try simp)

@[simp] theorem hearRoomCall_neighbours (sender : Nat) (b : RoomCallBody) (s : State) : (hearRoomCall sender b s).line.neighbours = s.line.neighbours := by
  unfold hearRoomCall
  (try dsimp only) <;> (repeat' split) <;> (try simp)

@[simp] theorem beginEvaluation_neighbours (s : State) : (beginEvaluation s).line.neighbours = s.line.neighbours := by
  unfold beginEvaluation
  (try dsimp only) <;> (repeat' split) <;> (try simp)

@[simp] theorem bidFor_neighbours (c : CallEntry) (cost b : Nat) (s : State) : (bidFor c cost b s).line.neighbours = s.line.neighbours := by
  unfold bidFor
  (try dsimp only) <;> (repeat' split) <;> (try simp)

@[simp] theorem evaluationDone_neighbours (s : State) : (evaluationDone s).line.neighbours = s.line.neighbours := by
  unfold evaluationDone
  (try dsimp only) <;> (repeat' split) <;> (try simp)

@[simp] theorem hearBid_neighbours (b : BidBody) (s : State) : (hearBid b s).line.neighbours = s.line.neighbours := by
  unfold hearBid
  (try dsimp only) <;> (repeat' split) <;> (try simp)

@[simp] theorem beginClaim_neighbours (e : CallEntry) (s : State) : (beginClaim e s).line.neighbours = s.line.neighbours := by
  unfold beginClaim
  (try dsimp only) <;> (repeat' split) <;> (try simp)

@[simp] theorem windowExpires_neighbours (e : CallEntry) (s : State) : (windowExpires e s).line.neighbours = s.line.neighbours := by
  unfold windowExpires
  (try dsimp only) <;> (repeat' split) <;> (try simp)

@[simp] theorem hearClaim_neighbours (b : ClaimBody) (s : State) : (hearClaim b s).line.neighbours = s.line.neighbours := by
  unfold hearClaim
  (try dsimp only) <;> (repeat' split) <;> (try simp)

@[simp] theorem claimOutcome_neighbours (c : Call) (heard : Bool) (s : State) : (claimOutcome c heard s).line.neighbours = s.line.neighbours := by
  unfold claimOutcome
  (try dsimp only) <;> (repeat' split) <;> (try simp)

@[simp] theorem callSent_neighbours (c : Call) (st : CallState) (s : State) : (callSent c st s).line.neighbours = s.line.neighbours := by
  unfold callSent
  (try dsimp only) <;> (repeat' split) <;> (try simp)

@[simp] theorem retestRoute_neighbours (s : State) : (retestRoute s).line.neighbours = s.line.neighbours := by
  unfold retestRoute
  (try dsimp only) <;> (repeat' split) <;> (try simp)

@[simp] theorem leaveWorking_neighbours (old : Mode) (s : State) : (leaveWorking old s).line.neighbours = s.line.neighbours := by
  unfold leaveWorking
  (try dsimp only) <;> (repeat' split) <;> (try simp)

@[simp] theorem enterFire_neighbours (old : Mode) (s : State) : (enterFire old s).line.neighbours = s.line.neighbours := by
  unfold enterFire
  (try dsimp only) <;> (repeat' split) <;> (try simp)

@[simp] theorem deriveMode_neighbours (s : State) : (deriveMode s).line.neighbours = s.line.neighbours := by
  unfold deriveMode
  (try dsimp only) <;> (repeat' split) <;> (try simp)

@[simp] theorem fireFrame_neighbours (item : Item) (o : Owner) (s : State) : (fireFrame item o s).line.neighbours = s.line.neighbours := by
  unfold fireFrame
  (try dsimp only) <;> (repeat' split) <;> (try simp)

@[simp] theorem setShutter_neighbours (x : Shutter) (s : State) : (setShutter x s).line.neighbours = s.line.neighbours := by
  unfold setShutter
  (try dsimp only) <;> (repeat' split) <;> (try simp)

@[simp] theorem startClearing_neighbours (x : Shutter) (s : State) : (startClearing x s).line.neighbours = s.line.neighbours := by
  unfold startClearing
  (try dsimp only) <;> (repeat' split) <;> (try simp)

@[simp] theorem shutterProcedure_neighbours (s : State) : (shutterProcedure s).line.neighbours = s.line.neighbours := by
  unfold shutterProcedure
  (try dsimp only) <;> (repeat' split) <;> (try simp)

@[simp] theorem startClosing_neighbours (x : Shutter) (s : State) : (startClosing x s).line.neighbours = s.line.neighbours := by
  unfold startClosing
  (try dsimp only) <;> (repeat' split) <;> (try simp)

@[simp] theorem disownClosing_neighbours (s : State) : (disownClosing s).line.neighbours = s.line.neighbours := by
  unfold disownClosing
  (try dsimp only) <;> (repeat' split) <;> (try simp)

@[simp] theorem dropClosing_neighbours (s : State) : (dropClosing s).line.neighbours = s.line.neighbours := by
  unfold dropClosing
  (try dsimp only) <;> (repeat' split) <;> (try simp)

@[simp] theorem clearCheck_neighbours (s : State) : (clearCheck s).line.neighbours = s.line.neighbours := by
  unfold clearCheck
  (try dsimp only) <;> (repeat' split) <;> (try simp)

@[simp] theorem closingOutcome_neighbours (heard : Bool) (s : State) : (closingOutcome heard s).line.neighbours = s.line.neighbours := by
  unfold closingOutcome
  (try dsimp only) <;> (repeat' split) <;> (try simp)

@[simp] theorem forceClose_neighbours (x : Shutter) (s : State) : (forceClose x s).line.neighbours = s.line.neighbours := by
  unfold forceClose
  (try dsimp only) <;> (repeat' split) <;> (try simp)

@[simp] theorem closeLimitExpires_neighbours (s : State) : (closeLimitExpires s).line.neighbours = s.line.neighbours := by
  unfold closeLimitExpires
  (try dsimp only) <;> (repeat' split) <;> (try simp)

@[simp] theorem shutterClosed_neighbours (s : State) : (shutterClosed s).line.neighbours = s.line.neighbours := by
  unfold shutterClosed
  (try dsimp only) <;> (repeat' split) <;> (try simp)

@[simp] theorem becomeOpen_neighbours (x : Shutter) (s : State) : (becomeOpen x s).line.neighbours = s.line.neighbours := by
  unfold becomeOpen
  (try dsimp only) <;> (repeat' split) <;> (try simp)

@[simp] theorem shutterOpened_neighbours (s : State) : (shutterOpened s).line.neighbours = s.line.neighbours := by
  unfold shutterOpened
  (try dsimp only) <;> (repeat' split) <;> (try simp)

@[simp] theorem shutterFault_neighbours (d : ShutterDir) (x : Shutter) (s : State) : (shutterFault d x s).line.neighbours = s.line.neighbours := by
  unfold shutterFault
  (try dsimp only) <;> (repeat' split) <;> (try simp)

@[simp] theorem driveLimitExpires_neighbours (s : State) : (driveLimitExpires s).line.neighbours = s.line.neighbours := by
  unfold driveLimitExpires
  (try dsimp only) <;> (repeat' split) <;> (try simp)

@[simp] theorem reopen_neighbours (s : State) : (reopen s).line.neighbours = s.line.neighbours := by
  unfold reopen
  (try dsimp only) <;> (repeat' split) <;> (try simp)

@[simp] theorem endFoundShut_neighbours (c : Compartment) (s : State) : (endFoundShut c s).line.neighbours = s.line.neighbours := by
  unfold endFoundShut
  (try dsimp only) <;> (repeat' split) <;> (try simp)

@[simp] theorem safeCheck_neighbours (s : State) : (safeCheck s).line.neighbours = s.line.neighbours := by
  unfold safeCheck
  (try dsimp only) <;> (repeat' split) <;> (try simp)

@[simp] theorem setAlarm_neighbours (c : Compartment) (r : AlarmRec) (s : State) : (setAlarm c r s).line.neighbours = s.line.neighbours := by
  unfold setAlarm
  (try dsimp only) <;> (repeat' split) <;> (try simp)

@[simp] theorem alarmRaised_neighbours (c : Compartment) (s : State) : (alarmRaised c s).line.neighbours = s.line.neighbours := by
  unfold alarmRaised
  (try dsimp only) <;> (repeat' split) <;> (try simp)

@[simp] theorem queueAlarm_neighbours (c : Compartment) (epoch : Nat) (i : FireInput) (s : State) : (queueAlarm c epoch i s).line.neighbours = s.line.neighbours := by
  unfold queueAlarm
  (try dsimp only) <;> (repeat' split) <;> (try simp)

@[simp] theorem localCause_neighbours (i : FireInput) (s : State) : (localCause i s).line.neighbours = s.line.neighbours := by
  unfold localCause
  (try dsimp only) <;> (repeat' split) <;> (try simp)

@[simp] theorem hearAlarm_neighbours (b : AlarmBody) (s : State) : (hearAlarm b s).line.neighbours = s.line.neighbours := by
  unfold hearAlarm
  (try dsimp only) <;> (repeat' split) <;> (try simp)

@[simp] theorem setFilter_neighbours (i : FireInput) (x : InputFilter) (s : State) : (setFilter i x s).line.neighbours = s.line.neighbours := by
  unfold setFilter
  (try dsimp only) <;> (repeat' split) <;> (try simp)

@[simp] theorem reraise_neighbours (s : State) : (reraise s).line.neighbours = s.line.neighbours := by
  unfold reraise
  (try dsimp only) <;> (repeat' split) <;> (try simp)

@[simp] theorem spineResumes_neighbours (s : State) : (spineResumes s).line.neighbours = s.line.neighbours := by simp [spineResumes]

@[simp] theorem restoreEffects_neighbours (c : Compartment) (s : State) : (restoreEffects c s).line.neighbours = s.line.neighbours := by
  unfold restoreEffects
  (try dsimp only) <;> (repeat' split) <;> (try simp)

@[simp] theorem hearRestore_neighbours (b : RestoreBody) (s : State) : (hearRestore b s).2.line.neighbours = s.line.neighbours := by
  unfold hearRestore
  (try dsimp only) <;> (repeat' split) <;> (try simp)

@[simp] theorem inputReadsActive_neighbours (i : FireInput) (s : State) : (inputReadsActive i s).line.neighbours = s.line.neighbours := by
  unfold inputReadsActive
  (try dsimp only) <;> (repeat' split) <;> (try simp)

@[simp] theorem inputReadsInactive_neighbours (i : FireInput) (s : State) : (inputReadsInactive i s).line.neighbours = s.line.neighbours := by
  unfold inputReadsInactive
  (try dsimp only) <;> (repeat' split) <;> (try simp)

@[simp] theorem filterExpires_neighbours (i : FireInput) (s : State) : (filterExpires i s).line.neighbours = s.line.neighbours := by
  unfold filterExpires
  (try dsimp only) <;> (repeat' split) <;> (try simp)

@[simp] theorem applyHeld_neighbours (s : State) : (applyHeld s).line.neighbours = s.line.neighbours := by
  unfold applyHeld
  (try dsimp only) <;> (repeat' split) <;> (try simp)

@[simp] theorem settle_neighbours (s : State) : (settle s).line.neighbours = s.line.neighbours := by
  unfold settle
  (try dsimp only) <;> (repeat' split) <;> (try simp)

@[simp] theorem stockRefused_neighbours (r : StockReason) (slot : SlotName) (bin : Nat) (s : State) : (stockRefused r slot bin s).line.neighbours = s.line.neighbours := by
  unfold stockRefused
  (try dsimp only) <;> (repeat' split) <;> (try simp)

@[simp] theorem gateNotice_neighbours (a : Answers) (i : Item) (s : State) : (gateNotice a i s).2.line.neighbours = s.line.neighbours := by
  unfold gateNotice
  (try dsimp only) <;> (repeat' split) <;> (try simp)

@[simp] theorem lendJoins_neighbours (b : LendBody) (w : Visit) (s : State) : (lendJoins b w s).line.neighbours = s.line.neighbours := by
  unfold lendJoins
  (try dsimp only) <;> (repeat' split) <;> (try simp)

@[simp] theorem lendMakes_neighbours (b : LendBody) (s : State) : (lendMakes b s).line.neighbours = s.line.neighbours := by
  unfold lendMakes
  (try dsimp only) <;> (repeat' split) <;> (try simp)

@[simp] theorem hearLend_neighbours (b : LendBody) (s : State) : (hearLend b s).2.line.neighbours = s.line.neighbours := by
  unfold hearLend
  (try dsimp only) <;> (repeat' split) <;> (try simp)

@[simp] theorem withdrawStaged_neighbours (n : Nat) (s : State) : (withdrawStaged n s).line.neighbours = s.line.neighbours := by
  unfold withdrawStaged
  (try dsimp only) <;> (repeat' split) <;> (try simp)

@[simp] theorem cancelListed_neighbours (id : Nat) (v : Visit) (s : State) : (cancelListed id v s).line.neighbours = s.line.neighbours := by
  unfold cancelListed
  (try dsimp only) <;> (repeat' split) <;> (try simp)

@[simp] theorem cancelMarks_neighbours (id : Nat) (s : State) : (cancelMarks id s).line.neighbours = s.line.neighbours := by
  unfold cancelMarks
  (try dsimp only) <;> (repeat' split) <;> (try simp)

@[simp] theorem hearCancel_neighbours (id : Nat) (s : State) : (hearCancel id s).2.line.neighbours = s.line.neighbours := by
  unfold hearCancel
  (try dsimp only) <;> (repeat' split) <;> (try simp)

@[simp] theorem hearStockAt_neighbours (n : SlotName) (s : State) : (hearStockAt n s).2.line.neighbours = s.line.neighbours := by
  unfold hearStockAt
  (try dsimp only) <;> (repeat' split) <;> (try simp)

@[simp] theorem binRemoved_neighbours (bin : Nat) (why : FailReason) (s : State) : (binRemoved bin why s).line.neighbours = s.line.neighbours := by
  unfold binRemoved
  (try dsimp only) <;> (repeat' split) <;> (try simp)

@[simp] theorem stockApplied_neighbours (sl : Slot) (b : StockBody) (s : State) : (stockApplied sl b s).line.neighbours = s.line.neighbours := by
  unfold stockApplied
  (try dsimp only) <;> (repeat' split) <;> (try simp)

@[simp] theorem hearStock_neighbours (b : StockBody) (s : State) : (hearStock b s).2.line.neighbours = s.line.neighbours := by
  unfold hearStock
  (try dsimp only) <;> (repeat' split) <;> (try simp)

@[simp] theorem hearStockEnd_neighbours (s : State) : (hearStockEnd s).line.neighbours = s.line.neighbours := by
  unfold hearStockEnd
  (try dsimp only) <;> (repeat' split) <;> (try simp)

@[simp] theorem hearWriteOff_neighbours (bin : Nat) (s : State) : (hearWriteOff bin s).2.line.neighbours = s.line.neighbours := by
  unfold hearWriteOff
  (try dsimp only) <;> (repeat' split) <;> (try simp)

@[simp] theorem hearStop_neighbours (s : State) : (hearStop s).line.neighbours = s.line.neighbours := by
  unfold hearStop
  (try dsimp only) <;> (repeat' split) <;> (try simp)

@[simp] theorem leaveHalt_neighbours (s : State) : (leaveHalt s).line.neighbours = s.line.neighbours := by
  unfold leaveHalt
  (try dsimp only) <;> (repeat' split) <;> (try simp)

@[simp] theorem resumeSteps_neighbours (s : State) : (resumeSteps s).line.neighbours = s.line.neighbours := by
  unfold resumeSteps
  (try dsimp only) <;> (repeat' split) <;> (try simp)

@[simp] theorem hearResume_neighbours (s : State) : (hearResume s).line.neighbours = s.line.neighbours := by
  unfold hearResume
  (try dsimp only) <;> (repeat' split) <;> (try simp)

@[simp] theorem hearQuery_neighbours (s : State) : (hearQuery s).line.neighbours = s.line.neighbours := by
  unfold hearQuery
  (try dsimp only) <;> (repeat' split) <;> (try simp)

@[simp] theorem hearFault_neighbours (sender : Nat) (b : FaultBody) (s : State) : (hearFault sender b s).line.neighbours = s.line.neighbours := by
  unfold hearFault
  (try dsimp only) <;> (repeat' split) <;> (try simp)

@[simp] theorem applyItem_neighbours (h : Header) (i : Item) (s : State) : (applyItem h i s).2.line.neighbours = s.line.neighbours := by
  unfold applyItem
  (try dsimp only) <;> (repeat' split) <;> (try simp)

@[simp] theorem takeItem_neighbours (h : Header) (i : Item) (a : Answers) (s : State) : (takeItem h i a s).2.line.neighbours = s.line.neighbours := by
  unfold takeItem
  (try dsimp only) <;> (repeat' split) <;> (try simp)

@[simp] theorem takeClaims_neighbours (items : List Item) (s : State) : (takeClaims items s).line.neighbours = s.line.neighbours := by
  unfold takeClaims
  refine foldl_neighbours _ (fun s i => ?_) items s
  split
  · split <;> simp
  · rfl

@[simp] theorem setSlots_neighbours (x : Bool × Bool) (s : State) : (setSlots x s).line.neighbours = s.line.neighbours := by
  unfold setSlots
  (try dsimp only) <;> (repeat' split) <;> (try simp)

@[simp] theorem startCrane_neighbours (s : State) : (startCrane s).line.neighbours = s.line.neighbours := by
  unfold startCrane
  (try dsimp only) <;> (repeat' split) <;> (try simp)

@[simp] theorem enterStocking_neighbours (s : State) : (enterStocking s).line.neighbours = s.line.neighbours := by
  unfold enterStocking
  (try dsimp only) <;> (repeat' split) <;> (try simp)

@[simp] theorem reportSent_neighbours (o : Owner) (s : State) : (reportSent o s).line.neighbours = s.line.neighbours := by
  unfold reportSent
  (try dsimp only) <;> (repeat' split) <;> (try simp)

@[simp] theorem frameWins_neighbours (f : TxFrame) (q : List TxFrame) (s : State) : (frameWins f q s).line.neighbours = s.line.neighbours := by
  unfold frameWins
  (try dsimp only) <;> (repeat' split) <;> (try simp)

@[simp] theorem contend_neighbours (rivals : List (Nat × Nat)) (s : State) : (contend rivals s).line.neighbours = s.line.neighbours := by
  unfold contend
  (try dsimp only) <;> (repeat' split) <;> (try simp)

@[simp] theorem reportOutcome_neighbours (f : TxFrame) (o : TxOutcome) (s : State) : (reportOutcome f o s).line.neighbours = s.line.neighbours := by
  unfold reportOutcome
  (try dsimp only) <;> (repeat' split) <;> (try simp)

@[simp] theorem frameEnds_neighbours (o : TxOutcome) (s : State) : (frameEnds o s).line.neighbours = s.line.neighbours := by
  unfold frameEnds
  (try dsimp only) <;> (repeat' split) <;> (try simp)

@[simp] theorem parkCompletes_neighbours (s : State) : (parkCompletes s).line.neighbours = s.line.neighbours := by
  unfold parkCompletes
  (try dsimp only) <;> (repeat' split) <;> (try simp)

@[simp] theorem storeAgain_neighbours (new : Slot) (s : State) : (storeAgain new s).line.neighbours = s.line.neighbours := by
  unfold storeAgain
  (try dsimp only) <;> (repeat' split) <;> (try simp)

@[simp] theorem slotConflictFault_neighbours (bin : Nat) (old new : Slot) (s : State) : (slotConflictFault bin old new s).line.neighbours = s.line.neighbours := by
  unfold slotConflictFault
  (try dsimp only) <;> (repeat' split) <;> (try simp)

@[simp] theorem slotConflict_neighbours (bin : Nat) (old : Slot) (s : State) : (slotConflict bin old s).line.neighbours = s.line.neighbours := by
  unfold slotConflict
  (try dsimp only) <;> (repeat' split) <;> (try simp)

@[simp] theorem storeInPosition_neighbours (m : Move) (s : State) : (storeInPosition m s).line.neighbours = s.line.neighbours := by
  unfold storeInPosition
  (try dsimp only) <;> (repeat' split) <;> (try simp)

@[simp] theorem inPosition_neighbours (s : State) : (inPosition s).line.neighbours = s.line.neighbours := by
  unfold inPosition
  (try dsimp only) <;> (repeat' split) <;> (try simp)

@[simp] theorem tagUnread_neighbours (m : Move) (s : State) : (tagUnread m s).line.neighbours = s.line.neighbours := by
  unfold tagUnread
  (try dsimp only) <;> (repeat' split) <;> (try simp)

@[simp] theorem discardBound_neighbours (s : State) : (discardBound s).line.neighbours = s.line.neighbours := by
  unfold discardBound
  (try dsimp only) <;> (repeat' split) <;> (try simp)

@[simp] theorem tagMismatch_neighbours (m : Move) (x : Nat) (s : State) : (tagMismatch m x s).line.neighbours = s.line.neighbours := by
  unfold tagMismatch
  (try dsimp only) <;> (repeat' split) <;> (try simp)

@[simp] theorem forkTagRead_neighbours (r : TagRead) (s : State) : (forkTagRead r s).line.neighbours = s.line.neighbours := by
  unfold forkTagRead
  (try dsimp only) <;> (repeat' split) <;> (try simp)

@[simp] theorem takeOutRefused_neighbours (m : Move) (s : State) : (takeOutRefused m s).line.neighbours = s.line.neighbours := by
  unfold takeOutRefused
  (try dsimp only) <;> (repeat' split) <;> (try simp)

@[simp] theorem fetchDone_neighbours (m : Move) (s : State) : (fetchDone m s).line.neighbours = s.line.neighbours := by
  unfold fetchDone
  (try dsimp only) <;> (repeat' split) <;> (try simp)

@[simp] theorem deliverDone_neighbours (s : State) : (deliverDone s).line.neighbours = s.line.neighbours := by
  unfold deliverDone
  (try dsimp only) <;> (repeat' split) <;> (try simp)

@[simp] theorem takeInDone_neighbours (s : State) : (takeInDone s).line.neighbours = s.line.neighbours := by
  unfold takeInDone
  (try dsimp only) <;> (repeat' split) <;> (try simp)

@[simp] theorem storeDone_neighbours (s : State) : (storeDone s).line.neighbours = s.line.neighbours := by
  unfold storeDone
  (try dsimp only) <;> (repeat' split) <;> (try simp)

@[simp] theorem forkDone_neighbours (s : State) : (forkDone s).line.neighbours = s.line.neighbours := by
  unfold forkDone
  (try dsimp only) <;> (repeat' split) <;> (try simp)

@[simp] theorem fireStopped_neighbours (s : State) : (fireStopped s).line.neighbours = s.line.neighbours := by
  unfold fireStopped
  (try dsimp only) <;> (repeat' split) <;> (try simp)

@[simp] theorem stopStopped_neighbours (s : State) : (stopStopped s).line.neighbours = s.line.neighbours := by
  unfold stopStopped
  (try dsimp only) <;> (repeat' split) <;> (try simp)

@[simp] theorem craneStopped_neighbours (s : State) : (craneStopped s).line.neighbours = s.line.neighbours := by
  unfold craneStopped
  (try dsimp only) <;> (repeat' split) <;> (try simp)

@[simp] theorem budgetExpires_neighbours (s : State) : (budgetExpires s).line.neighbours = s.line.neighbours := by
  unfold budgetExpires
  (try dsimp only) <;> (repeat' split) <;> (try simp)

@[simp] theorem storeBack_neighbours (s : State) : (storeBack s).line.neighbours = s.line.neighbours := by
  unfold storeBack
  (try dsimp only) <;> (repeat' split) <;> (try simp)

@[simp] theorem portTagFails_neighbours (r : TravelRecord) (id : Nat) (s : State) : (portTagFails r id s).line.neighbours = s.line.neighbours := by
  unfold portTagFails
  (try dsimp only) <;> (repeat' split) <;> (try simp)

@[simp] theorem portInTagRead_neighbours (id : Option Nat) (s : State) : (portInTagRead id s).line.neighbours = s.line.neighbours := by
  unfold portInTagRead
  (try dsimp only) <;> (repeat' split) <;> (try simp)

@[simp] theorem transferOutExpires_neighbours (l : Lane) (s : State) : (transferOutExpires l s).line.neighbours = s.line.neighbours := by
  unfold transferOutExpires
  (try dsimp only) <;> (repeat' split) <;> (try simp)

@[simp] theorem diversionTransferExpires_neighbours (s : State) : (diversionTransferExpires s).line.neighbours = s.line.neighbours := by
  unfold diversionTransferExpires
  (try dsimp only) <;> (repeat' split) <;> (try simp)

@[simp] theorem mergeTransferExpires_neighbours (s : State) : (mergeTransferExpires s).line.neighbours = s.line.neighbours := by
  unfold mergeTransferExpires
  (try dsimp only) <;> (repeat' split) <;> (try simp)

@[simp] theorem callWindowExpires_neighbours (c : Call) (s : State) : (callWindowExpires c s).line.neighbours = s.line.neighbours := by
  unfold callWindowExpires
  (try dsimp only) <;> (repeat' split) <;> (try simp)

@[simp] theorem sweepBin_neighbours (b : Nat) (s : State) : (sweepBin b s).line.neighbours = s.line.neighbours := by
  unfold sweepBin
  (try dsimp only) <;> (repeat' split) <;> (try simp)

@[simp] theorem overdueSweep_neighbours (s : State) : (overdueSweep s).line.neighbours = s.line.neighbours := by
  unfold overdueSweep
  (try dsimp only) <;> (repeat' split) <;> (try simp)

@[simp] theorem closingRetryExpires_neighbours (s : State) : (closingRetryExpires s).line.neighbours = s.line.neighbours := by
  unfold closingRetryExpires
  (try dsimp only) <;> (repeat' split) <;> (try simp)

end Sys2Proof.Machine
end

