-- ==== Sys2Proof/Laws/KeepsPlacement.lean ====
section
/-! SUPPORT. The operations that leave the placement unit as it is, one lemma for each. -/

namespace Sys2Proof.Machine
open Sys2Proof

@[simp] theorem foldl_placement {α : Type} (f : State → α → State) (h : ∀ s a, (f s a).placement = s.placement) (l : List α) (s : State) :
    (l.foldl f s).placement = s.placement := by
  induction l generalizing s with
  | nil => rfl
  | cons a l ih => simp [ih, h]

@[simp] theorem noteHeld_placement (h : Bool) (s : State) : (noteHeld h s).placement = s.placement := by
  unfold noteHeld
  (try dsimp only) <;> (repeat' split) <;> (try simp)

@[simp] theorem handBack_placement (n : Nat) (s : State) : (handBack n s).placement = s.placement := by
  unfold handBack
  (try dsimp only) <;> (repeat' split) <;> (try simp)

@[simp] theorem handBackLink_placement (link : Option Nat) (s : State) : (handBackLink link s).placement = s.placement := by
  unfold handBackLink
  (try dsimp only) <;> (repeat' split) <;> (try simp)

@[simp] theorem releaseBin_placement (bin : Nat) (s : State) : (releaseBin bin s).placement = s.placement := by
  unfold releaseBin
  (try dsimp only) <;> (repeat' split) <;> (try simp)

@[simp] theorem withholdBin_placement (bin : Nat) (s : State) : (withholdBin bin s).placement = s.placement := by
  unfold withholdBin
  (try dsimp only) <;> (repeat' split) <;> (try simp)

@[simp] theorem reportRoute_placement (isOpen : Bool) (s : State) : (reportRoute isOpen s).placement = s.placement := by
  unfold reportRoute
  (try dsimp only) <;> (repeat' split) <;> (try simp)

@[simp] theorem visitTo_placement (link : Option Nat) (st : VisitState) (s : State) : (visitTo link st s).placement = s.placement := by
  unfold visitTo
  (try dsimp only) <;> (repeat' split) <;> (try simp)

@[simp] theorem reserveEntry_placement (bin : Nat) (desk : Desk) (s : State) : (reserveEntry bin desk s).placement = s.placement := by
  unfold reserveEntry
  (try dsimp only) <;> (repeat' split) <;> (try simp)

@[simp] theorem dropReservation_placement (bin : Nat) (desk : Desk) (s : State) : (dropReservation bin desk s).placement = s.placement := by
  unfold dropReservation
  (try dsimp only) <;> (repeat' split) <;> (try simp)

@[simp] theorem takeRoomPart_placement (bin : Nat) (part : RoomPart) (s : State) : (takeRoomPart bin part s).placement = s.placement := by
  unfold takeRoomPart
  (try dsimp only) <;> (repeat' split) <;> (try simp)

@[simp] theorem clearStow_placement (s : State) : (clearStow s).placement = s.placement := by
  unfold clearStow
  (try dsimp only) <;> (repeat' split) <;> (try simp)

@[simp] theorem clearPassed_placement (s : State) : (clearPassed s).placement = s.placement := by
  unfold clearPassed
  (try dsimp only) <;> (repeat' split) <;> (try simp)

@[simp] theorem setStow_placement (st : StowState) (s : State) : (setStow st s).placement = s.placement := by
  unfold setStow
  (try dsimp only) <;> (repeat' split) <;> (try simp)

@[simp] theorem promoteStow_placement (s : State) : (promoteStow s).placement = s.placement := by
  unfold promoteStow
  (try dsimp only) <;> (repeat' split) <;> (try simp)

@[simp] theorem releaseEntry_placement (e : CallEntry) (s : State) : (releaseEntry e s).placement = s.placement := by
  unfold releaseEntry
  (try dsimp only) <;> (repeat' split) <;> (try simp)

@[simp] theorem unreserveEntry_placement (e : CallEntry) (s : State) : (unreserveEntry e s).placement = s.placement := by
  unfold unreserveEntry
  (try dsimp only) <;> (repeat' split) <;> (try simp)

@[simp] theorem startRetry_placement (l : Lane) (s : State) : (startRetry l s).placement = s.placement := by
  unfold startRetry
  (try dsimp only) <;> (repeat' split) <;> (try simp)

@[simp] theorem startClosingRetry_placement (s : State) : (startClosingRetry s).placement = s.placement := by
  unfold startClosingRetry
  (try dsimp only) <;> (repeat' split) <;> (try simp)

@[simp] theorem notice_placement (items : List Item) (s : State) : (notice items s).placement = s.placement := by
  unfold notice
  (try dsimp only) <;> (repeat' split) <;> (try simp)

@[simp] theorem faultNotice_placement (b : FaultBody) (s : State) : (faultNotice b s).placement = s.placement := by
  unfold faultNotice
  (try dsimp only) <;> (repeat' split) <;> (try simp)

@[simp] theorem withdraw_placement (p : Owner → Bool) (s : State) : (withdraw p s).placement = s.placement := by
  unfold withdraw
  (try dsimp only) <;> (repeat' split) <;> (try simp)

@[simp] theorem requestFailed_placement (reason : FailReason) (kind : AnsweredKind) (bin : Nat) (desk : Option Desk) (requests : List (Nat × Nat)) (s : State) : (requestFailed reason kind bin desk requests s).placement = s.placement := by
  unfold requestFailed
  (try dsimp only) <;> (repeat' split) <;> (try simp)

@[simp] theorem requestDone_placement (bin : Nat) (desk : Desk) (requests : List (Nat × Nat)) (s : State) : (requestDone bin desk requests s).placement = s.placement := by
  unfold requestDone
  (try dsimp only) <;> (repeat' split) <;> (try simp)

@[simp] theorem failVisit_placement (n : Nat) (reason : FailReason) (release : Bool) (s : State) : (failVisit n reason release s).placement = s.placement := by
  unfold failVisit
  (try dsimp only) <;> (repeat' split) <;> (try simp)

@[simp] theorem failVisits_placement (bin : Nat) (reason : FailReason) (s : State) : (failVisits bin reason s).placement = s.placement := by
  unfold failVisits
  (try dsimp only) <;> (repeat' split) <;> (try simp)

@[simp] theorem craneTo_placement (st : CraneState) (s : State) : (craneTo st s).placement = s.placement := by
  unfold craneTo
  (try dsimp only) <;> (repeat' split) <;> (try simp)

@[simp] theorem readEncoders_placement (s : State) : (readEncoders s).placement = s.placement := by
  unfold readEncoders
  (try dsimp only) <;> (repeat' split) <;> (try simp)

@[simp] theorem clearCurrent_placement (s : State) : (clearCurrent s).placement = s.placement := by
  unfold clearCurrent
  (try dsimp only) <;> (repeat' split) <;> (try simp)

@[simp] theorem askLeg_placement (a b : Pos) (fork : Bool) (s : State) : (askLeg a b fork s).2.placement = s.placement := by
  unfold askLeg
  (try dsimp only) <;> (repeat' split) <;> (try simp)

@[simp] theorem askEstimate_placement (target : Target) (fork : Bool) (s : State) : (askEstimate target fork s).2.placement = s.placement := by
  unfold askEstimate
  (try dsimp only) <;> (repeat' split) <;> (try simp)

@[simp] theorem locateBin_placement (b : Nat) (loc : Location) (s : State) : (locateBin b loc s).placement = s.placement := by
  unfold locateBin
  (try dsimp only) <;> (repeat' split) <;> (try simp)

@[simp] theorem setPortOut_placement (x : PlaceState) (s : State) : (setPortOut x s).placement = s.placement := by
  unfold setPortOut
  (try dsimp only) <;> (repeat' split) <;> (try simp)

@[simp] theorem setPortIn_placement (x : PlaceState) (s : State) : (setPortIn x s).placement = s.placement := by
  unfold setPortIn
  (try dsimp only) <;> (repeat' split) <;> (try simp)

@[simp] theorem stampStart_placement (s : State) : (stampStart s).placement = s.placement := by
  unfold stampStart
  (try dsimp only) <;> (repeat' split) <;> (try simp)

@[simp] theorem reportStart_placement (m : Move) (s : State) : (reportStart m s).placement = s.placement := by
  unfold reportStart
  (try dsimp only) <;> (repeat' split) <;> (try simp)

@[simp] theorem startMove_placement (m : Move) (s : State) : (startMove m s).placement = s.placement := by
  unfold startMove
  (try dsimp only) <;> (repeat' split) <;> (try simp)

@[simp] theorem holdDeliver_placement (m : Move) (s : State) : (holdDeliver m s).placement = s.placement := by
  unfold holdDeliver
  (try dsimp only) <;> (repeat' split) <;> (try simp)

@[simp] theorem stageContinuation_placement (m : Move) (s : State) : (stageContinuation m s).placement = s.placement := by
  unfold stageContinuation
  (try dsimp only) <;> (repeat' split) <;> (try simp)

@[simp] theorem makeCurrent_placement (kind : MoveKind) (target : Target) (visit : Option Nat) (bound : Bool) (s : State) : (makeCurrent kind target visit bound s).placement = s.placement := by
  unfold makeCurrent
  (try dsimp only) <;> (repeat' split) <;> (try simp)

@[simp] theorem discardStaged_placement (s : State) : (discardStaged s).placement = s.placement := by
  unfold discardStaged
  (try dsimp only) <;> (repeat' split) <;> (try simp)

@[simp] theorem storeBlocked_placement (bin : Nat) (slot : SlotName) (s : State) : (storeBlocked bin slot s).placement = s.placement := by
  unfold storeBlocked
  (try dsimp only) <;> (repeat' split) <;> (try simp)

@[simp] theorem makeStore_placement (bin : Nat) (s : State) : (makeStore bin s).placement = s.placement := by
  unfold makeStore
  (try dsimp only) <;> (repeat' split) <;> (try simp)

@[simp] theorem nextMove_placement (s : State) : (nextMove s).placement = s.placement := by
  unfold nextMove
  (try dsimp only) <;> (repeat' split) <;> (try simp)

@[simp] theorem park_placement (s : State) : (park s).placement = s.placement := by
  unfold park
  (try dsimp only) <;> (repeat' split) <;> (try simp)

@[simp] theorem promote_placement (s : State) : (promote s).placement = s.placement := by
  unfold promote
  (try dsimp only) <;> (repeat' split) <;> (try simp)

@[simp] theorem afterCompletion_placement (s : State) : (afterCompletion s).placement = s.placement := by
  unfold afterCompletion
  (try dsimp only) <;> (repeat' split) <;> (try simp)

@[simp] theorem storeBin_placement (bin : Nat) (content : Option Contents) (room : Option (Nat × Nat)) (s : State) : (storeBin bin content room s).placement = s.placement := by
  unfold storeBin
  (try dsimp only) <;> (repeat' split) <;> (try simp)

@[simp] theorem carryFetched_placement (bin : Nat) (visit : Option Nat) (uncertain : Bool) (d : Directory) (s : State) : (carryFetched bin visit uncertain d s).placement = s.placement := by
  unfold carryFetched
  (try dsimp only) <;> (repeat' split) <;> (try simp)

@[simp] theorem abandonFetch_placement (m : Move) (s : State) : (abandonFetch m s).placement = s.placement := by
  unfold abandonFetch
  (try dsimp only) <;> (repeat' split) <;> (try simp)

@[simp] theorem abandonDeliver_placement (m : Move) (s : State) : (abandonDeliver m s).placement = s.placement := by
  unfold abandonDeliver
  (try dsimp only) <;> (repeat' split) <;> (try simp)

@[simp] theorem abandonTakeIn_placement (s : State) : (abandonTakeIn s).placement = s.placement := by
  unfold abandonTakeIn
  (try dsimp only) <;> (repeat' split) <;> (try simp)

@[simp] theorem abandonStore_placement (s : State) : (abandonStore s).placement = s.placement := by
  unfold abandonStore
  (try dsimp only) <;> (repeat' split) <;> (try simp)

@[simp] theorem abandonMove_placement (s : State) : (abandonMove s).placement = s.placement := by
  unfold abandonMove
  (try dsimp only) <;> (repeat' split) <;> (try simp)

@[simp] theorem stall_placement (m : Move) (s : State) : (stall m s).placement = s.placement := by
  unfold stall
  (try dsimp only) <;> (repeat' split) <;> (try simp)

@[simp] theorem loadFault_placement (bin : Nat) (s : State) : (loadFault bin s).placement = s.placement := by
  unfold loadFault
  (try dsimp only) <;> (repeat' split) <;> (try simp)

@[simp] theorem resolveLoad_placement (s : State) : (resolveLoad s).2.placement = s.placement := by
  unfold resolveLoad
  (try dsimp only) <;> (repeat' split) <;> (try simp)

@[simp] theorem portOutEmptied_placement (s : State) : (portOutEmptied s).placement = s.placement := by
  unfold portOutEmptied
  (try dsimp only) <;> (repeat' split) <;> (try simp)

@[simp] theorem dropWaiting_placement (s : State) : (dropWaiting s).placement = s.placement := by
  unfold dropWaiting
  (try dsimp only) <;> (repeat' split) <;> (try simp)

@[simp] theorem craneEntersFire_placement (s : State) : (craneEntersFire s).placement = s.placement := by
  unfold craneEntersFire
  (try dsimp only) <;> (repeat' split) <;> (try simp)

@[simp] theorem unpark_placement (s : State) : (unpark s).placement = s.placement := by
  unfold unpark
  (try dsimp only) <;> (repeat' split) <;> (try simp)

@[simp] theorem craneStop_placement (s : State) : (craneStop s).placement = s.placement := by
  unfold craneStop
  (try dsimp only) <;> (repeat' split) <;> (try simp)

@[simp] theorem chooseAt_placement (s : State) (order : Nat) : (chooseAt s order).2.placement = s.placement := by
  unfold chooseAt
  (try dsimp only) <;> (repeat' split) <;> (try simp)

@[simp] theorem stageFree_placement (w : Work) (s : State) : (stageFree w s).placement = s.placement := by
  unfold stageFree
  (try dsimp only) <;> (repeat' split) <;> (try simp)

@[simp] theorem giveFree_placement (w : Work) (s : State) : (giveFree w s).placement = s.placement := by
  unfold giveFree
  (try dsimp only) <;> (repeat' split) <;> (try simp)

@[simp] theorem selectAmong_placement (orders : List Nat) (give : Work → State → State) (h : ∀ w s, (give w s).placement = s.placement)
    (s : State) : (selectAmong orders give s).placement = s.placement := by
  unfold selectAmong
  split
  · next o _ =>
    have hc := chooseAt_placement s o
    split <;> simp_all
  · rfl

@[simp] theorem giveBack_placement (m : Move) (s : State) : (giveBack m s).placement = s.placement := by
  unfold giveBack
  (try dsimp only) <;> (repeat' split) <;> (try simp)

@[simp] theorem displace_placement (m : Move) (s : State) : (displace m s).placement = s.placement := by
  unfold displace
  (try dsimp only) <;> (repeat' split) <;> (try simp)

@[simp] theorem selectWork_placement (s : State) : (selectWork s).placement = s.placement := by
  unfold selectWork
  (try dsimp only) <;> (repeat' split) <;> (try simp)

@[simp] theorem setLane_placement (l : Lane) (v : PlaceState) (s : State) : (setLane l v s).placement = s.placement := by
  unfold setLane
  (try dsimp only) <;> (repeat' split) <;> (try simp)

@[simp] theorem setOut_placement (l : Lane) (v : Option Handoff) (s : State) : (setOut l v s).placement = s.placement := by
  unfold setOut
  (try dsimp only) <;> (repeat' split) <;> (try simp)

@[simp] theorem setIncoming_placement (l : Lane) (v : Option Handoff) (s : State) : (setIncoming l v s).placement = s.placement := by
  unfold setIncoming
  (try dsimp only) <;> (repeat' split) <;> (try simp)

@[simp] theorem clearRetry_placement (l : Lane) (s : State) : (clearRetry l s).placement = s.placement := by
  unfold clearRetry
  (try dsimp only) <;> (repeat' split) <;> (try simp)

@[simp] theorem driveLane_placement (l : Lane) (on : Bool) (s : State) : (driveLane l on s).placement = s.placement := by
  unfold driveLane
  (try dsimp only) <;> (repeat' split) <;> (try simp)

@[simp] theorem handoffLost_placement (bin peer : Nat) (place : PlaceCode) (hop : Nat) (s : State) : (handoffLost bin peer place hop s).placement = s.placement := by
  unfold handoffLost
  (try dsimp only) <;> (repeat' split) <;> (try simp)

@[simp] theorem grantPortOut_placement (s : State) : (grantPortOut s).placement = s.placement := by
  unfold grantPortOut
  (try dsimp only) <;> (repeat' split) <;> (try simp)

@[simp] theorem keepDown_placement (s : State) : (keepDown s).placement = s.placement := by
  unfold keepDown
  (try dsimp only) <;> (repeat' split) <;> (try simp)

@[simp] theorem mergeArbiter_placement (s : State) : (mergeArbiter s).placement = s.placement := by
  unfold mergeArbiter
  (try dsimp only) <;> (repeat' split) <;> (try simp)

@[simp] theorem noteFree_placement (bin : Nat) (visit : Option Nat) (s : State) : (noteFree bin visit s).placement = s.placement := by
  unfold noteFree
  (try dsimp only) <;> (repeat' split) <;> (try simp)

@[simp] theorem handOver_placement (bin : Nat) (visit : Option Nat) (s : State) : (handOver bin visit s).placement = s.placement := by
  unfold handOver
  (try dsimp only) <;> (repeat' split) <;> (try simp)

@[simp] theorem withdrawOffer_placement (l : Lane) (s : State) : (withdrawOffer l s).placement = s.placement := by
  unfold withdrawOffer
  (try dsimp only) <;> (repeat' split) <;> (try simp)

@[simp] theorem offerOutcome_placement (l : Lane) (peer : Nat) (heard : Bool) (s : State) : (offerOutcome l peer heard s).placement = s.placement := by
  unfold offerOutcome
  (try dsimp only) <;> (repeat' split) <;> (try simp)

@[simp] theorem acceptOffer_placement (l : Lane) (sender : Nat) (r : TravelRecord) (s : State) : (acceptOffer l sender r s).placement = s.placement := by
  unfold acceptOffer
  (try dsimp only) <;> (repeat' split) <;> (try simp)

@[simp] theorem noRoom_placement (l : Lane) (r : TravelRecord) (s : State) : (noRoom l r s).placement = s.placement := by
  unfold noRoom
  (try dsimp only) <;> (repeat' split) <;> (try simp)

@[simp] theorem mergeWins_placement (s : State) : (mergeWins s).placement = s.placement := by
  unfold mergeWins
  (try dsimp only) <;> (repeat' split) <;> (try simp)

@[simp] theorem hearOffer_placement (sender : Nat) (r : TravelRecord) (s : State) : (hearOffer sender r s).2.placement = s.placement := by
  unfold hearOffer
  (try dsimp only) <;> (repeat' split) <;> (try simp)

@[simp] theorem startDiversion_placement (r : TravelRecord) (s : State) : (startDiversion r s).placement = s.placement := by
  unfold startDiversion
  (try dsimp only) <;> (repeat' split) <;> (try simp)

@[simp] theorem beginDiversion_placement (r : TravelRecord) (s : State) : (beginDiversion r s).placement = s.placement := by
  unfold beginDiversion
  split <;> simp

@[simp] theorem blockUp_placement (r : TravelRecord) (slot : SlotName) (s : State) : (blockUp r slot s).placement = s.placement := by
  unfold blockUp
  (try dsimp only) <;> (repeat' split) <;> (try simp)

@[simp] theorem divert_placement (r : TravelRecord) (s : State) : (divert r s).placement = s.placement := by
  unfold divert
  (try dsimp only) <;> (repeat' split) <;> (try simp)

@[simp] theorem diversionCheck_placement (s : State) : (diversionCheck s).placement = s.placement := by
  unfold diversionCheck
  (try dsimp only) <;> (repeat' split) <;> (try simp)

@[simp] theorem fireDiversion_placement (s : State) : (fireDiversion s).placement = s.placement := by
  unfold fireDiversion
  (try dsimp only) <;> (repeat' split) <;> (try simp)

@[simp] theorem unannounced_placement (place : SpinePlace) (s : State) : (unannounced place s).placement = s.placement := by
  unfold unannounced
  (try dsimp only) <;> (repeat' split) <;> (try simp)

@[simp] theorem mergeArrives_placement (s : State) : (mergeArrives s).placement = s.placement := by
  unfold mergeArrives
  (try dsimp only) <;> (repeat' split) <;> (try simp)

@[simp] theorem diversionArrives_placement (s : State) : (diversionArrives s).placement = s.placement := by
  unfold diversionArrives
  (try dsimp only) <;> (repeat' split) <;> (try simp)

@[simp] theorem positionReport_placement (place : SpinePlace) (s : State) : (positionReport place s).placement = s.placement := by
  unfold positionReport
  (try dsimp only) <;> (repeat' split) <;> (try simp)

@[simp] theorem takenLane_placement (l : Lane) (b : TakenBody) (s : State) : (takenLane l b s).placement = s.placement := by
  unfold takenLane
  (try dsimp only) <;> (repeat' split) <;> (try simp)

@[simp] theorem completeVisit_placement (v : Visit) (s : State) : (completeVisit v s).placement = s.placement := by
  unfold completeVisit
  (try dsimp only) <;> (repeat' split) <;> (try simp)

@[simp] theorem deskTakes_placement (b : TakenBody) (s : State) : (deskTakes b s).placement = s.placement := by
  unfold deskTakes
  (try dsimp only) <;> (repeat' split) <;> (try simp)

@[simp] theorem hearTaken_placement (b : TakenBody) (s : State) : (hearTaken b s).placement = s.placement := by
  unfold hearTaken
  (try dsimp only) <;> (repeat' split) <;> (try simp)

@[simp] theorem loseHome_placement (r : TravelRecord) (s : State) : (loseHome r s).placement = s.placement := by
  unfold loseHome
  (try dsimp only) <;> (repeat' split) <;> (try simp)

@[simp] theorem outExpires_placement (l : Lane) (h : Handoff) (s : State) : (outExpires l h s).placement = s.placement := by
  unfold outExpires
  (try dsimp only) <;> (repeat' split) <;> (try simp)

@[simp] theorem diversionExpires_placement (h : Handoff) (s : State) : (diversionExpires h s).placement = s.placement := by
  unfold diversionExpires
  (try dsimp only) <;> (repeat' split) <;> (try simp)

@[simp] theorem inExpires_placement (l : Lane) (s : State) : (inExpires l s).placement = s.placement := by
  unfold inExpires
  (try dsimp only) <;> (repeat' split) <;> (try simp)

@[simp] theorem mergeExpires_placement (h : Handoff) (s : State) : (mergeExpires h s).placement = s.placement := by
  unfold mergeExpires
  (try dsimp only) <;> (repeat' split) <;> (try simp)

@[simp] theorem mergeWaitExpires_placement (s : State) : (mergeWaitExpires s).placement = s.placement := by
  unfold mergeWaitExpires
  (try dsimp only) <;> (repeat' split) <;> (try simp)

@[simp] theorem hearHandoffLost_placement (sender : Nat) (b : FaultBody) (s : State) : (hearHandoffLost sender b s).placement = s.placement := by
  unfold hearHandoffLost
  (try dsimp only) <;> (repeat' split) <;> (try simp)

@[simp] theorem lowerCaught_placement (sender bin : Nat) (s : State) : (lowerCaught sender bin s).placement = s.placement := by
  unfold lowerCaught
  (try dsimp only) <;> (repeat' split) <;> (try simp)

@[simp] theorem hearBinCaught_placement (sender : Nat) (b : FaultBody) (s : State) : (hearBinCaught sender b s).placement = s.placement := by
  unfold hearBinCaught
  (try dsimp only) <;> (repeat' split) <;> (try simp)

@[simp] theorem dropKept_placement (kept : Option TravelRecord) (s : State) : (dropKept kept s).placement = s.placement := by
  unfold dropKept
  (try dsimp only) <;> (repeat' split) <;> (try simp)

@[simp] theorem clearPlace_placement (place : SpinePlace) (s : State) : (clearPlace place s).placement = s.placement := by
  unfold clearPlace
  (try dsimp only) <;> (repeat' split) <;> (try simp)

@[simp] theorem clearBlocked_placement (s : State) : (clearBlocked s).placement = s.placement := by
  unfold clearBlocked
  (try dsimp only) <;> (repeat' split) <;> (try simp)

@[simp] theorem binCaught_placement (r : TravelRecord) (place : PlaceCode) (s : State) : (binCaught r place s).placement = s.placement := by
  unfold binCaught
  (try dsimp only) <;> (repeat' split) <;> (try simp)

@[simp] theorem catchDown_placement (s : State) : (catchDown s).placement = s.placement := by
  unfold catchDown
  (try dsimp only) <;> (repeat' split) <;> (try simp)

@[simp] theorem catchUp_placement (s : State) : (catchUp s).placement = s.placement := by
  unfold catchUp
  (try dsimp only) <;> (repeat' split) <;> (try simp)

@[simp] theorem enterFire_placement (old : Mode) (s : State) : (enterFire old s).placement = s.placement := by
  unfold enterFire
  (try dsimp only) <;> (repeat' split) <;> (try simp)

@[simp] theorem setShutter_placement (x : Shutter) (s : State) : (setShutter x s).placement = s.placement := by
  unfold setShutter
  (try dsimp only) <;> (repeat' split) <;> (try simp)

@[simp] theorem startClearing_placement (x : Shutter) (s : State) : (startClearing x s).placement = s.placement := by
  unfold startClearing
  (try dsimp only) <;> (repeat' split) <;> (try simp)

@[simp] theorem shutterProcedure_placement (s : State) : (shutterProcedure s).placement = s.placement := by
  unfold shutterProcedure
  (try dsimp only) <;> (repeat' split) <;> (try simp)

@[simp] theorem startClosing_placement (x : Shutter) (s : State) : (startClosing x s).placement = s.placement := by
  unfold startClosing
  (try dsimp only) <;> (repeat' split) <;> (try simp)

@[simp] theorem disownClosing_placement (s : State) : (disownClosing s).placement = s.placement := by
  unfold disownClosing
  (try dsimp only) <;> (repeat' split) <;> (try simp)

@[simp] theorem dropClosing_placement (s : State) : (dropClosing s).placement = s.placement := by
  unfold dropClosing
  (try dsimp only) <;> (repeat' split) <;> (try simp)

@[simp] theorem closingOutcome_placement (heard : Bool) (s : State) : (closingOutcome heard s).placement = s.placement := by
  unfold closingOutcome
  (try dsimp only) <;> (repeat' split) <;> (try simp)

@[simp] theorem forceClose_placement (x : Shutter) (s : State) : (forceClose x s).placement = s.placement := by
  unfold forceClose
  (try dsimp only) <;> (repeat' split) <;> (try simp)

@[simp] theorem closeLimitExpires_placement (s : State) : (closeLimitExpires s).placement = s.placement := by
  unfold closeLimitExpires
  (try dsimp only) <;> (repeat' split) <;> (try simp)

@[simp] theorem shutterFault_placement (d : ShutterDir) (x : Shutter) (s : State) : (shutterFault d x s).placement = s.placement := by
  unfold shutterFault
  (try dsimp only) <;> (repeat' split) <;> (try simp)

@[simp] theorem driveLimitExpires_placement (s : State) : (driveLimitExpires s).placement = s.placement := by
  unfold driveLimitExpires
  (try dsimp only) <;> (repeat' split) <;> (try simp)

@[simp] theorem setAlarm_placement (c : Compartment) (r : AlarmRec) (s : State) : (setAlarm c r s).placement = s.placement := by
  unfold setAlarm
  (try dsimp only) <;> (repeat' split) <;> (try simp)

@[simp] theorem setFilter_placement (i : FireInput) (x : InputFilter) (s : State) : (setFilter i x s).placement = s.placement := by
  unfold setFilter
  (try dsimp only) <;> (repeat' split) <;> (try simp)

@[simp] theorem inputReadsActive_placement (i : FireInput) (s : State) : (inputReadsActive i s).placement = s.placement := by
  unfold inputReadsActive
  (try dsimp only) <;> (repeat' split) <;> (try simp)

@[simp] theorem inputReadsInactive_placement (i : FireInput) (s : State) : (inputReadsInactive i s).placement = s.placement := by
  unfold inputReadsInactive
  (try dsimp only) <;> (repeat' split) <;> (try simp)

@[simp] theorem stockRefused_placement (r : StockReason) (slot : SlotName) (bin : Nat) (s : State) : (stockRefused r slot bin s).placement = s.placement := by
  unfold stockRefused
  (try dsimp only) <;> (repeat' split) <;> (try simp)

@[simp] theorem gateNotice_placement (a : Answers) (i : Item) (s : State) : (gateNotice a i s).2.placement = s.placement := by
  unfold gateNotice
  (try dsimp only) <;> (repeat' split) <;> (try simp)

@[simp] theorem lendJoins_placement (b : LendBody) (w : Visit) (s : State) : (lendJoins b w s).placement = s.placement := by
  unfold lendJoins
  (try dsimp only) <;> (repeat' split) <;> (try simp)

@[simp] theorem lendMakes_placement (b : LendBody) (s : State) : (lendMakes b s).placement = s.placement := by
  unfold lendMakes
  (try dsimp only) <;> (repeat' split) <;> (try simp)

@[simp] theorem hearLend_placement (b : LendBody) (s : State) : (hearLend b s).2.placement = s.placement := by
  unfold hearLend
  (try dsimp only) <;> (repeat' split) <;> (try simp)

@[simp] theorem withdrawStaged_placement (n : Nat) (s : State) : (withdrawStaged n s).placement = s.placement := by
  unfold withdrawStaged
  (try dsimp only) <;> (repeat' split) <;> (try simp)

@[simp] theorem cancelListed_placement (id : Nat) (v : Visit) (s : State) : (cancelListed id v s).placement = s.placement := by
  unfold cancelListed
  (try dsimp only) <;> (repeat' split) <;> (try simp)

@[simp] theorem cancelMarks_placement (id : Nat) (s : State) : (cancelMarks id s).placement = s.placement := by
  unfold cancelMarks
  (try dsimp only) <;> (repeat' split) <;> (try simp)

@[simp] theorem hearCancel_placement (id : Nat) (s : State) : (hearCancel id s).2.placement = s.placement := by
  unfold hearCancel
  (try dsimp only) <;> (repeat' split) <;> (try simp)

@[simp] theorem hearStockAt_placement (n : SlotName) (s : State) : (hearStockAt n s).2.placement = s.placement := by
  unfold hearStockAt
  (try dsimp only) <;> (repeat' split) <;> (try simp)

@[simp] theorem leaveHalt_placement (s : State) : (leaveHalt s).placement = s.placement := by
  unfold leaveHalt
  (try dsimp only) <;> (repeat' split) <;> (try simp)

@[simp] theorem resumeSteps_placement (s : State) : (resumeSteps s).placement = s.placement := by
  unfold resumeSteps
  (try dsimp only) <;> (repeat' split) <;> (try simp)

@[simp] theorem hearQuery_placement (s : State) : (hearQuery s).placement = s.placement := by
  unfold hearQuery
  (try dsimp only) <;> (repeat' split) <;> (try simp)

@[simp] theorem hearFault_placement (sender : Nat) (b : FaultBody) (s : State) : (hearFault sender b s).placement = s.placement := by
  unfold hearFault
  (try dsimp only) <;> (repeat' split) <;> (try simp)

@[simp] theorem setSlots_placement (x : Bool × Bool) (s : State) : (setSlots x s).placement = s.placement := by
  unfold setSlots
  (try dsimp only) <;> (repeat' split) <;> (try simp)

@[simp] theorem parkCompletes_placement (s : State) : (parkCompletes s).placement = s.placement := by
  unfold parkCompletes
  (try dsimp only) <;> (repeat' split) <;> (try simp)

@[simp] theorem storeAgain_placement (new : Slot) (s : State) : (storeAgain new s).placement = s.placement := by
  unfold storeAgain
  (try dsimp only) <;> (repeat' split) <;> (try simp)

@[simp] theorem slotConflictFault_placement (bin : Nat) (old new : Slot) (s : State) : (slotConflictFault bin old new s).placement = s.placement := by
  unfold slotConflictFault
  (try dsimp only) <;> (repeat' split) <;> (try simp)

@[simp] theorem slotConflict_placement (bin : Nat) (old : Slot) (s : State) : (slotConflict bin old s).placement = s.placement := by
  unfold slotConflict
  (try dsimp only) <;> (repeat' split) <;> (try simp)

@[simp] theorem storeInPosition_placement (m : Move) (s : State) : (storeInPosition m s).placement = s.placement := by
  unfold storeInPosition
  (try dsimp only) <;> (repeat' split) <;> (try simp)

@[simp] theorem inPosition_placement (s : State) : (inPosition s).placement = s.placement := by
  unfold inPosition
  (try dsimp only) <;> (repeat' split) <;> (try simp)

@[simp] theorem tagUnread_placement (m : Move) (s : State) : (tagUnread m s).placement = s.placement := by
  unfold tagUnread
  (try dsimp only) <;> (repeat' split) <;> (try simp)

@[simp] theorem discardBound_placement (s : State) : (discardBound s).placement = s.placement := by
  unfold discardBound
  (try dsimp only) <;> (repeat' split) <;> (try simp)

@[simp] theorem tagMismatch_placement (m : Move) (x : Nat) (s : State) : (tagMismatch m x s).placement = s.placement := by
  unfold tagMismatch
  (try dsimp only) <;> (repeat' split) <;> (try simp)

@[simp] theorem forkTagRead_placement (r : TagRead) (s : State) : (forkTagRead r s).placement = s.placement := by
  unfold forkTagRead
  (try dsimp only) <;> (repeat' split) <;> (try simp)

@[simp] theorem takeOutRefused_placement (m : Move) (s : State) : (takeOutRefused m s).placement = s.placement := by
  unfold takeOutRefused
  (try dsimp only) <;> (repeat' split) <;> (try simp)

@[simp] theorem fetchDone_placement (m : Move) (s : State) : (fetchDone m s).placement = s.placement := by
  unfold fetchDone
  (try dsimp only) <;> (repeat' split) <;> (try simp)

@[simp] theorem deliverDone_placement (s : State) : (deliverDone s).placement = s.placement := by
  unfold deliverDone
  (try dsimp only) <;> (repeat' split) <;> (try simp)

@[simp] theorem takeInDone_placement (s : State) : (takeInDone s).placement = s.placement := by
  unfold takeInDone
  (try dsimp only) <;> (repeat' split) <;> (try simp)

@[simp] theorem storeDone_placement (s : State) : (storeDone s).placement = s.placement := by
  unfold storeDone
  (try dsimp only) <;> (repeat' split) <;> (try simp)

@[simp] theorem forkDone_placement (s : State) : (forkDone s).placement = s.placement := by
  unfold forkDone
  (try dsimp only) <;> (repeat' split) <;> (try simp)

@[simp] theorem fireStopped_placement (s : State) : (fireStopped s).placement = s.placement := by
  unfold fireStopped
  (try dsimp only) <;> (repeat' split) <;> (try simp)

@[simp] theorem stopStopped_placement (s : State) : (stopStopped s).placement = s.placement := by
  unfold stopStopped
  (try dsimp only) <;> (repeat' split) <;> (try simp)

@[simp] theorem craneStopped_placement (s : State) : (craneStopped s).placement = s.placement := by
  unfold craneStopped
  (try dsimp only) <;> (repeat' split) <;> (try simp)

@[simp] theorem budgetExpires_placement (s : State) : (budgetExpires s).placement = s.placement := by
  unfold budgetExpires
  (try dsimp only) <;> (repeat' split) <;> (try simp)

@[simp] theorem storeBack_placement (s : State) : (storeBack s).placement = s.placement := by
  unfold storeBack
  (try dsimp only) <;> (repeat' split) <;> (try simp)

@[simp] theorem portTagFails_placement (r : TravelRecord) (id : Nat) (s : State) : (portTagFails r id s).placement = s.placement := by
  unfold portTagFails
  (try dsimp only) <;> (repeat' split) <;> (try simp)

@[simp] theorem portInTagRead_placement (id : Option Nat) (s : State) : (portInTagRead id s).placement = s.placement := by
  unfold portInTagRead
  (try dsimp only) <;> (repeat' split) <;> (try simp)

@[simp] theorem transferOutExpires_placement (l : Lane) (s : State) : (transferOutExpires l s).placement = s.placement := by
  unfold transferOutExpires
  (try dsimp only) <;> (repeat' split) <;> (try simp)

@[simp] theorem diversionTransferExpires_placement (s : State) : (diversionTransferExpires s).placement = s.placement := by
  unfold diversionTransferExpires
  (try dsimp only) <;> (repeat' split) <;> (try simp)

@[simp] theorem mergeTransferExpires_placement (s : State) : (mergeTransferExpires s).placement = s.placement := by
  unfold mergeTransferExpires
  (try dsimp only) <;> (repeat' split) <;> (try simp)

@[simp] theorem sweepBin_placement (b : Nat) (s : State) : (sweepBin b s).placement = s.placement := by
  unfold sweepBin
  (try dsimp only) <;> (repeat' split) <;> (try simp)

@[simp] theorem overdueSweep_placement (s : State) : (overdueSweep s).placement = s.placement := by
  unfold overdueSweep
  (try dsimp only) <;> (repeat' split) <;> (try simp)

@[simp] theorem closingRetryExpires_placement (s : State) : (closingRetryExpires s).placement = s.placement := by
  unfold closingRetryExpires
  (try dsimp only) <;> (repeat' split) <;> (try simp)

end Sys2Proof.Machine
end

