-- ==== Sys2Proof/Laws/PerInstr.lean ====
section
/-! SUPPORT. Facts of every command as syntax, one lemma per constructor. `FrameCommand`: a well-formed command that is a
frame heard is the command that its own header and items make, so that no two rows share a frame (R165, R167, R191). -/

namespace Sys2Proof.Laws.FrameCommand
open Sys2Proof Machine

/-- The header and the items of a well-formed command that is a frame heard make that command again. -/
def Statement (i : Instr) : Prop := ∀ h items, i.frame = some (h, items) → i.wf = true → frameCommand i.pins h items = i

/-- A frame of a row that names its first item passes the class test (R165). -/
theorem classGood_of_fits {h : Header} {i : Item} {rest : List Item} (hf : frameFits h (i :: rest) = true) :
    classGood h (i :: rest) = true := by
  simp only [frameFits, Bool.and_eq_true] at hf
  have hi : i.cls = h.cls := by simpa using (List.all_eq_true.mp hf.1.2) i List.mem_cons_self
  have hc : h.cls ≤ 4 := by rw [← hi]; cases i <;> simp [Item.cls]
  simp [classGood, hc, hf.1.2]

/-- A frame that R165 discards, or one without items, makes the row of discarded frames (R165, log 7). -/
theorem discarded_of_fits {p : Pins} {h : Header} {items : List Item} (hf : discardFits h items = true) :
    frameCommand p h items = .discardedFrame p h items := by
  unfold frameCommand
  split
  · rfl
  · next hc =>
    have hc : classGood h items = true := by simpa using hc
    cases items with
    | nil => rfl
    | cons i rest =>
      simp only [classGood, Bool.and_eq_true, decide_eq_true_eq] at hc
      simp only [discardFits, Bool.and_eq_true, Bool.or_eq_true, decide_eq_true_eq, List.any_eq_true, bne_iff_ne,
        List.isEmpty_cons, Bool.false_eq_true, or_false] at hf
      rcases hf.2 with h5 | ⟨x, hx, hne⟩
      · omega
      · exact absurd (by simpa using List.all_eq_true.mp hc.2 x hx) hne

theorem resetRelease (p : Pins) : Statement (.resetRelease p) := by
  rintro h items ⟨⟩

theorem resetAssert (p : Pins) : Statement (.resetAssert p) := by
  rintro h items ⟨⟩

theorem readComplete (p : Pins) (image : List Byte) : Statement (.readComplete p image) := by
  rintro h items ⟨⟩

theorem contention (p : Pins) (rivals : List (Nat × Nat)) : Statement (.contention p rivals) := by
  rintro h items ⟨⟩

theorem frameAbandoned (p : Pins) : Statement (.frameAbandoned p) := by
  rintro h items ⟨⟩

theorem outcome (p : Pins) (ack obj : Bool) : Statement (.outcome p ack obj) := by
  rintro h items ⟨⟩

theorem alarm (p : Pins) (h : Header) (b : AlarmBody) (rest : List Item) : Statement (.alarm p h b rest) := by
  rintro h items ⟨⟩ hw
  simp only [frameCommand, Instr.pins, classGood_of_fits hw]
  rfl

theorem closing (p : Pins) (h : Header) (seg : Nat) (rest : List Item) : Statement (.closing p h seg rest) := by
  rintro h items ⟨⟩ hw
  simp only [frameCommand, Instr.pins, classGood_of_fits hw]
  rfl

theorem closed (p : Pins) (h : Header) (seg : Nat) (rest : List Item) : Statement (.closed p h seg rest) := by
  rintro h items ⟨⟩ hw
  simp only [frameCommand, Instr.pins, classGood_of_fits hw]
  rfl

theorem opened (p : Pins) (h : Header) (seg : Nat) (rest : List Item) : Statement (.opened p h seg rest) := by
  rintro h items ⟨⟩ hw
  simp only [frameCommand, Instr.pins, classGood_of_fits hw]
  rfl

theorem safe (p : Pins) (h : Header) (b : SafeBody) (rest : List Item) : Statement (.safe p h b rest) := by
  rintro h items ⟨⟩ hw
  simp only [frameCommand, Instr.pins, classGood_of_fits hw]
  rfl

theorem restore (p : Pins) (h : Header) (b : RestoreBody) (rest : List Item) : Statement (.restore p h b rest) := by
  rintro h items ⟨⟩ hw
  simp only [frameCommand, Instr.pins, classGood_of_fits hw]
  rfl

theorem offer (p : Pins) (h : Header) (r : TravelRecord) (rest : List Item) : Statement (.offer p h r rest) := by
  rintro h items ⟨⟩ hw
  simp only [frameCommand, Instr.pins, classGood_of_fits hw]
  rfl

theorem taken (p : Pins) (h : Header) (b : TakenBody) (rest : List Item) : Statement (.taken p h b rest) := by
  rintro h items ⟨⟩ hw
  simp only [frameCommand, Instr.pins, classGood_of_fits hw]
  rfl

theorem roomCall (p : Pins) (h : Header) (b : RoomCallBody) (rest : List Item) : Statement (.roomCall p h b rest) := by
  rintro h items ⟨⟩ hw
  simp only [frameCommand, Instr.pins, classGood_of_fits hw]
  rfl

theorem bid (p : Pins) (h : Header) (b : BidBody) (rest : List Item) : Statement (.bid p h b rest) := by
  rintro h items ⟨⟩ hw
  simp only [frameCommand, Instr.pins, classGood_of_fits hw]
  rfl

theorem claim (p : Pins) (h : Header) (b : ClaimBody) (rest : List Item) : Statement (.claim p h b rest) := by
  rintro h items ⟨⟩ hw
  simp only [frameCommand, Instr.pins, classGood_of_fits hw]
  rfl

theorem lend (p : Pins) (h : Header) (b : LendBody) (rest : List Item) : Statement (.lend p h b rest) := by
  rintro h items ⟨⟩ hw
  simp only [frameCommand, Instr.pins, classGood_of_fits hw]
  rfl

theorem cancel (p : Pins) (h : Header) (id : Nat) (rest : List Item) : Statement (.cancel p h id rest) := by
  rintro h items ⟨⟩ hw
  simp only [frameCommand, Instr.pins, classGood_of_fits hw]
  rfl

theorem stockAt (p : Pins) (h : Header) (slot : SlotName) (rest : List Item) : Statement (.stockAt p h slot rest) := by
  rintro h items ⟨⟩ hw
  simp only [frameCommand, Instr.pins, classGood_of_fits hw]
  rfl

theorem stock : Statement (.stock p h b rest) := by
  rintro h items ⟨⟩ hw
  simp only [frameCommand, Instr.pins, classGood_of_fits hw]
  rfl

theorem stockEnd (p : Pins) (h : Header) (rest : List Item) : Statement (.stockEnd p h rest) := by
  rintro h items ⟨⟩ hw
  simp only [frameCommand, Instr.pins, classGood_of_fits hw]
  rfl

theorem stop (p : Pins) (h : Header) (rest : List Item) : Statement (.stop p h rest) := by
  rintro h items ⟨⟩ hw
  simp only [frameCommand, Instr.pins, classGood_of_fits hw]
  rfl

theorem resume (p : Pins) (h : Header) (rest : List Item) : Statement (.resume p h rest) := by
  rintro h items ⟨⟩ hw
  simp only [frameCommand, Instr.pins, classGood_of_fits hw]
  rfl

theorem writeOff (p : Pins) (h : Header) (bin : Nat) (rest : List Item) : Statement (.writeOff p h bin rest) := by
  rintro h items ⟨⟩ hw
  simp only [frameCommand, Instr.pins, classGood_of_fits hw]
  rfl

theorem query (p : Pins) (h : Header) (rest : List Item) : Statement (.query p h rest) := by
  rintro h items ⟨⟩ hw
  simp only [frameCommand, Instr.pins, classGood_of_fits hw]
  rfl

theorem faultBinCaught (p : Pins) (h : Header) (b : FaultBody) (rest : List Item) : Statement (.faultBinCaught p h b rest) := by
  rintro h items ⟨⟩ hw
  simp only [Instr.wf, Bool.and_eq_true] at hw
  have hc := classGood_of_fits (show frameFits h (.fault b :: rest) = true by simp_all)
  simp only [frameCommand, Instr.pins, hc, faultCommand]
  cases hk : b.kind <;> simp_all

theorem faultHandoffLost (p : Pins) (h : Header) (b : FaultBody) (rest : List Item) : Statement (.faultHandoffLost p h b rest) := by
  rintro h items ⟨⟩ hw
  simp only [Instr.wf, Bool.and_eq_true] at hw
  have hc := classGood_of_fits (show frameFits h (.fault b :: rest) = true by simp_all)
  simp only [frameCommand, Instr.pins, hc, faultCommand]
  cases hk : b.kind <;> simp_all

theorem fault : Statement (.fault p h b rest) := by
  rintro h items ⟨⟩ hw
  simp only [Instr.wf, Bool.and_eq_true] at hw
  have hc := classGood_of_fits (show frameFits h (.fault b :: rest) = true by simp_all)
  simp only [frameCommand, Instr.pins, hc, faultCommand]
  cases hk : b.kind <;> simp_all

theorem requestDone (p : Pins) (h : Header) (b : NoticeBody) (rest : List Item) : Statement (.requestDone p h b rest) := by
  rintro h items ⟨⟩ hw
  simp only [frameCommand, Instr.pins, classGood_of_fits hw]
  rfl

theorem requestFailed (p : Pins) (h : Header) (b : NoticeBody) (rest : List Item) : Statement (.requestFailed p h b rest) := by
  rintro h items ⟨⟩ hw
  simp only [frameCommand, Instr.pins, classGood_of_fits hw]
  rfl

theorem binStored (p : Pins) (h : Header) (b : BinStoredBody) (rest : List Item) : Statement (.binStored p h b rest) := by
  rintro h items ⟨⟩ hw
  simp only [frameCommand, Instr.pins, classGood_of_fits hw]
  rfl

theorem binOverdue (p : Pins) (h : Header) (b : BinOverdueBody) (rest : List Item) : Statement (.binOverdue p h b rest) := by
  rintro h items ⟨⟩ hw
  simp only [frameCommand, Instr.pins, classGood_of_fits hw]
  rfl

theorem stationReport (p : Pins) (h : Header) (b : ReportBody) (rest : List Item) : Statement (.stationReport p h b rest) := by
  rintro h items ⟨⟩ hw
  simp only [frameCommand, Instr.pins, classGood_of_fits hw]
  rfl

theorem stockRefused (p : Pins) (h : Header) (b : StockRefusedBody) (rest : List Item) : Statement (.stockRefused p h b rest) := by
  rintro h items ⟨⟩ hw
  simp only [frameCommand, Instr.pins, classGood_of_fits hw]
  rfl

theorem inPosition (p : Pins) : Statement (.inPosition p) := by
  rintro h items ⟨⟩

theorem forkTagRead (p : Pins) (r : TagRead) : Statement (.forkTagRead p r) := by
  rintro h items ⟨⟩

theorem forkDone (p : Pins) : Statement (.forkDone p) := by
  rintro h items ⟨⟩

theorem stopped (p : Pins) : Statement (.stopped p) := by
  rintro h items ⟨⟩

theorem moveBudgetExpiry (p : Pins) : Statement (.moveBudgetExpiry p) := by
  rintro h items ⟨⟩

theorem holdLimitExpiry (p : Pins) : Statement (.holdLimitExpiry p) := by
  rintro h items ⟨⟩

theorem arrival (p : Pins) (place : SpinePlace) : Statement (.arrival p place) := by
  rintro h items ⟨⟩

theorem binAtPosition (p : Pins) (place : SpinePlace) : Statement (.binAtPosition p place) := by
  rintro h items ⟨⟩

theorem portInTagRead (p : Pins) (id : Option Nat) : Statement (.portInTagRead p id) := by
  rintro h items ⟨⟩

theorem transferLimitExpiryOut (p : Pins) (lane : Lane) : Statement (.transferLimitExpiryOut p lane) := by
  rintro h items ⟨⟩

theorem diversionExpiry (p : Pins) : Statement (.diversionExpiry p) := by
  rintro h items ⟨⟩

theorem transferLimitExpiryIn (p : Pins) (lane : Lane) : Statement (.transferLimitExpiryIn p lane) := by
  rintro h items ⟨⟩

theorem mergeTransferExpiry (p : Pins) : Statement (.mergeTransferExpiry p) := by
  rintro h items ⟨⟩

theorem offerRetryExpiry (p : Pins) (lane : Lane) : Statement (.offerRetryExpiry p lane) := by
  rintro h items ⟨⟩

theorem mergeWaitExpiry (p : Pins) : Statement (.mergeWaitExpiry p) := by
  rintro h items ⟨⟩

theorem evaluationDone (p : Pins) : Statement (.evaluationDone p) := by
  rintro h items ⟨⟩

theorem windowExpiry (p : Pins) (call : Call) : Statement (.windowExpiry p call) := by
  rintro h items ⟨⟩

theorem inputActive (p : Pins) (i : FireInput) : Statement (.inputActive p i) := by
  rintro h items ⟨⟩

theorem inputInactive (p : Pins) (i : FireInput) : Statement (.inputInactive p i) := by
  rintro h items ⟨⟩

theorem inputFilterExpiry (p : Pins) (i : FireInput) : Statement (.inputFilterExpiry p i) := by
  rintro h items ⟨⟩

theorem closingRetryExpiry (p : Pins) : Statement (.closingRetryExpiry p) := by
  rintro h items ⟨⟩

theorem closeLimitExpiry (p : Pins) : Statement (.closeLimitExpiry p) := by
  rintro h items ⟨⟩

theorem shutterDriveLimitExpiry (p : Pins) : Statement (.shutterDriveLimitExpiry p) := by
  rintro h items ⟨⟩

theorem closedSensor (p : Pins) : Statement (.closedSensor p) := by
  rintro h items ⟨⟩

theorem openSensor (p : Pins) : Statement (.openSensor p) := by
  rintro h items ⟨⟩

theorem boundarySensorChange (p : Pins) : Statement (.boundarySensorChange p) := by
  rintro h items ⟨⟩

theorem overdueSweepExpiry (p : Pins) : Statement (.overdueSweepExpiry p) := by
  rintro h items ⟨⟩

theorem lineIdle (p : Pins) : Statement (.lineIdle p) := by
  rintro h items ⟨⟩

theorem discardedFrame (p : Pins) (h : Header) (items : List Item) : Statement (.discardedFrame p h items) := by
  rintro h items ⟨⟩ hw
  exact discarded_of_fits hw

end Sys2Proof.Laws.FrameCommand
end

