-- ==== Sys2Proof/Laws/Queue.lean ====
section
/-! SUPPORT. The transmit queue: what an admission can do to it (R175), and that class order and the counts stand after an
insertion and a removal. -/

namespace Sys2Proof.Machine
open Sys2Proof Safety

@[simp] theorem insertFrame_length (f : TxFrame) (q : List TxFrame) : (insertFrame f q).length = q.length + 1 := by
  induction q with
  | nil => rfl
  | cons g q ih => unfold insertFrame; split <;> simp [ih]

/-- An insertion adds the frame to every count. -/
theorem insertFrame_countP (p : TxFrame → Bool) (f : TxFrame) (q : List TxFrame) :
    (insertFrame f q).countP p = q.countP p + (if p f then 1 else 0) := by
  induction q with
  | nil => simp [insertFrame, List.countP_cons]
  | cons g q ih =>
    unfold insertFrame
    split
    · simp only [List.countP_cons, ih]; omega
    · simp only [List.countP_cons]

theorem mem_insertFrame (f g : TxFrame) (q : List TxFrame) : g ∈ insertFrame f q ↔ g = f ∨ g ∈ q := by
  induction q with
  | nil => simp [insertFrame]
  | cons x q ih =>
    unfold insertFrame
    split
    · simp only [List.mem_cons, ih]; exact ⟨fun h => h.elim (.inr ∘ .inl) (·.elim .inl (.inr ∘ .inr)),
        fun h => h.elim (.inr ∘ .inl) (·.elim .inl (.inr ∘ .inr))⟩
    · simp only [List.mem_cons]

/-- What `takeLast` takes out satisfies the test, and the rest is a sublist one frame shorter. -/
theorem takeLast_some {p : TxFrame → Bool} {q q' : List TxFrame} {g : TxFrame} (h : takeLast p q = some (g, q')) :
    p g = true ∧ g ∈ q ∧ q'.Sublist q ∧ q'.length + 1 = q.length := by
  induction q generalizing q' with
  | nil => cases h
  | cons x q ih =>
    unfold takeLast at h
    split at h
    · next f r hr =>
      cases h
      obtain ⟨a, b, c, d⟩ := ih hr
      exact ⟨a, List.mem_cons_of_mem _ b, c.cons_cons x, by simp [d]⟩
    · split at h
      · next hp =>
        cases h
        exact ⟨hp, List.mem_cons_self, List.sublist_cons_self _ _, by simp⟩
      · cases h

/-- The class order said of every pair. -/
theorem classOrdered_iff (q : List TxFrame) : classOrdered q = true ↔ q.Pairwise fun f g => f.cls ≤ g.cls := by
  match q with
  | [] => simp [classOrdered]
  | [f] => simp [classOrdered]
  | f :: g :: q =>
    have ih := classOrdered_iff (g :: q)
    simp only [classOrdered, Bool.and_eq_true, decide_eq_true_eq, ih, List.pairwise_cons]
    constructor
    · rintro ⟨h, hg, hq⟩
      refine ⟨fun x hx => ?_, hg, hq⟩
      rcases List.mem_cons.mp hx with rfl | hx
      · exact h
      · exact Nat.le_trans h (hg x hx)
    · rintro ⟨h, hg, hq⟩
      exact ⟨h g List.mem_cons_self, hg, hq⟩

/-- Frames taken out of a queue leave it in class order. -/
theorem classOrdered_sublist {q q' : List TxFrame} (h : q'.Sublist q) (hq : classOrdered q = true) : classOrdered q' = true :=
  (classOrdered_iff q').mpr (((classOrdered_iff q).mp hq).sublist h)

/-- An insertion keeps the class order. -/
theorem classOrdered_insert (f : TxFrame) (q : List TxFrame) (hq : classOrdered q = true) :
    classOrdered (insertFrame f q) = true := by
  rw [classOrdered_iff] at hq ⊢
  induction q with
  | nil => simp [insertFrame]
  | cons g q ih =>
    rw [List.pairwise_cons] at hq
    unfold insertFrame
    split
    · next hle =>
      rw [List.pairwise_cons]
      refine ⟨fun x hx => ?_, ih hq.2⟩
      rcases (mem_insertFrame f x q).mp hx with rfl | hx
      · exact hle
      · exact hq.1 x hx
    · next hlt =>
      rw [List.pairwise_cons]
      refine ⟨fun x hx => ?_, List.pairwise_cons.mpr hq⟩
      rcases List.mem_cons.mp hx with rfl | hx
      · omega
      · exact Nat.le_trans (by omega) (hq.1 x hx)

/-- An admission says once what it can do: the frame joins the queue where there is room for it, or in the place of a notice
or of another block's frame not on the line, or the queue stays as it is (R175). -/
theorem admission_cases (f : TxFrame) (q : List TxFrame) :
    (admission f q = .taken (insertFrame f q) ∧ q.length < 12 ∧ (f.isNotice = true → noticeCount q < 6)) ∨
    (admission f q = .lost ∧ f.isNotice = true) ∨
    (∃ g q', admission f q = .noticeOut (insertFrame f q') ∧ f.isNotice = false ∧ g.isNotice = true ∧ g.waits = true
      ∧ g ∈ q ∧ q'.Sublist q ∧ q'.length + 1 = q.length) ∨
    (∃ g q', admission f q = .displaced g (insertFrame f q') ∧ f.cls = 0 ∧ (g.cls = 1 ∨ g.cls = 2) ∧ g.waits = true
      ∧ g ∈ q ∧ q'.Sublist q ∧ q'.length + 1 = q.length) ∨
    (admission f q = .full ∧ f.isNotice = false ∧ 12 ≤ q.length) := by
  unfold admission
  split
  · next hn =>
    split
    · next h => exact .inl ⟨rfl, h.2, fun _ => h.1⟩
    · exact .inr (.inl ⟨rfl, hn⟩)
  · next hn =>
    have hn : f.isNotice = false := by simpa using hn
    split
    · next h => exact .inl ⟨rfl, h, by simp [hn]⟩
    · next hlen =>
      split
      · next g q' hg =>
        obtain ⟨hp, hm, hs, hl⟩ := takeLast_some hg
        simp only [Bool.and_eq_true] at hp
        exact .inr (.inr (.inl ⟨g, q', rfl, hn, hp.1, hp.2, hm, hs, hl⟩))
      · split
        · next h0 =>
          split
          · next g q' hg =>
            obtain ⟨hp, hm, hs, hl⟩ := takeLast_some hg
            simp only [Bool.and_eq_true, Bool.or_eq_true, beq_iff_eq] at hp
            exact .inr (.inr (.inr (.inl ⟨g, q', rfl, h0, hp.1, hp.2, hm, hs, hl⟩)))
          · exact .inr (.inr (.inr (.inr ⟨rfl, hn, by omega⟩)))
        · exact .inr (.inr (.inr (.inr ⟨rfl, hn, by omega⟩)))

/-! ## Expiries of one reading -/

theorem mem_putAt (c d : Instr) (l : List Instr) (n : Nat) : d ∈ putAt c l n ↔ d = c ∨ d ∈ l := by
  induction l generalizing n with
  | nil => simp [putAt]
  | cons e l ih =>
    cases n with
    | zero => simp [putAt]
    | succ n => simp [putAt, ih, or_left_comm]

/-- Whatever the order, the same commands wait. -/
theorem mem_inOrder (d : Instr) (place : Nat → Nat) (l : List Instr) : d ∈ inOrder place l ↔ d ∈ l := by
  induction l with
  | nil => simp [inOrder]
  | cons c l ih => simp [inOrder, mem_putAt, ih]

end Sys2Proof.Machine
end

