-- ==== Sys2Proof/Tests/Slice0.lean ====
section
/-! SUPPORT. Tests of the model: the worked examples of the manual, ill-formed commands that WellFormed refuses, and for each
statement with hypotheses a state and operands that meet them, clause by clause. -/

namespace Sys2Proof.Tests.Slice0
open Sys2Proof Machine Safety

-- One theorem after the other: their kernel evaluations would each hold a thread of their own.
set_option Elab.async false

/-! ## A station to test with: station 5 of the manual's examples -/

/-- The rack and figures of the examples of chapters 2, 3 and 5; one compartment, no boundary. -/
def rack : StationConfig :=
  { StationConfig.unread with
    station := 5, segment := 5, up := 6, down := 4, compMap := (Vector.replicate 8 none).set 0 (some 0)
    nc := 40, nl := 12, pc := 800, pl := 400, portLevel := 3, parkCol := 0, parkLevel := 3
    vx := 4000, ax := 1000, vy := 1500, ay := 800, settleTime := 300, forkTime := 2500, slack := 500, holdLimit := 20
    grade1 := ⟨24, 200, 50⟩, grade2 := ⟨40, 300, 60⟩, grade3 := ⟨48, 400, 80⟩, grade4 := ⟨64, 500, 90⟩
    columnMassLimit := 4000, restrictedDesks := [7], searchSpan := 6, passTime := 4000, transferLimit := 10
    offerRetry := 500, ageLimit := 300, outLimit := 60, fireGrace := 5, closeLimit := 20, driveLimit := 5
    closingRetry := 500, gateway1 := 60, gateway2 := 61, firePanel := 62 }

/-- The same station with a boundary at its own segment, so that it owns a shutter. -/
def rackB : StationConfig := { rack with compMap := rack.compMap.set 1 (some 5) }

/-- The pins of a quiet station, the crane at the port. -/
def still : Pins := { Pins.unread with encLevel := 3 }

/-- The station in RUN with an empty rack, its crane idle at the port. -/
def run : State :=
  { State.reset with
    cfg := rack, mode := .run, stockEnded := true, pins := still
    dir := { Directory.reset with counts := ⟨960, 0, 0, 0⟩ }
    crane := { Crane.reset with pos := ⟨0, 3⟩ }
    spine := { Spine.reset with routeOpen := true }
    line := { LineUnit.reset with footing := true } }

def at40 : Slot := ⟨.L, 40, 3⟩
def at7 : Slot := ⟨.L, 7, 3⟩

/-- The rack with bin 4711 in (L, 7, 3). -/
def stocked : Directory := run.dir.enterBin rack ⟨4711, 1, 22, 180, 4, false⟩ at7 0 0

def entry4711 : BinEntry := stockEntry rack ⟨4711, 1, 22, 180, 4, false⟩ at7 0 0

/-- Bin 4711 out of the rack since clock 0, at a location. -/
def outAt (loc : Location) : Directory :=
  (stocked.setSlot at7 ⟨.reserved 4711, false⟩).setBin 4711 { entry4711 with status := .out loc 0 }

def withDir (d : Directory) : State := { run with dir := d }

/-- A travel record of bin 4711 on its way home. -/
def homeward : TravelRecord :=
  { bin := 4711, home := 5, dest := .home, purpose := .ret, hop := 3, grade := 1, fill := 22, mass := 180, count := 4
    restricted := false, call := none, requests := [] }

/-- A travel record of bin 9105, of station 9, on its way to desk 3. -/
def deskward : TravelRecord := { homeward with bin := 9105, home := 9, dest := .desk 3, purpose := .lend }

/-- A frame to station 5 from a sender whose condition word shows RUN. -/
def to5 (cls sender : Nat) : Header := ⟨cls, sender, false, 5, 0x20⟩

/-- A frame to ALL. -/
def toAll (cls sender : Nat) : Header := ⟨cls, sender, false, 63, 0x20⟩

/-- The next state of a command, or the state itself where there is none. -/
def after (c : Instr) (s : State) : State := match exec c s with | .next t => t | _ => s

/-- The commands one after the other. -/
def afterAll (cs : List Instr) (s : State) : State := cs.foldl (fun u c => after c u) s

/-! ## Travel and prices (chapter 2) -/

/-- 2.2, Axis Times Across One Rack, and 2.6, The Boundary of the Two Formulas. -/
theorem test_axis_times :
    ([0, 800, 8000, 15200, 16000, 16800, 32000].map fun d => axisTime d 4000 1000) = [0, 1789, 5657, 7798, 8000, 8200, 12000]
    ∧ ([15999, 16000, 16001].map fun d => axisTime d 4000 1000) = [8000, 8000, 8001] := by decide +kernel

/-- 2.6, A Held Axis. -/
theorem test_axis_held :
    axisTime 30000 500 200 = 62500 ∧ axisHeld 30000 500 200 = false ∧ axisTime 32000 500 200 = 65535
    ∧ axisHeld 32000 500 200 = true ∧ axisTime 128000 500 200 = 65535 := by decide +kernel

/-- 2.4, Pricing One Slot. -/
theorem test_round_trips :
    roundTrip rack ⟨.R, 10, 9⟩ = 16914 ∧ roundTrip rack at40 = 29600 ∧ roundTrip rack ⟨.L, 1, 3⟩ = 9178
    ∧ roundTrip rack ⟨.R, 2, 4⟩ = 10660 := by decide +kernel

/-- 2.3, Remaining Time Across the Clock Wrap. -/
theorem test_remaining_time :
    let m : Move := ⟨.deliver, .pos ⟨0, 3⟩, none, true, 8457, some ⟨4294965000, 11071⟩⟩
    remainingOf 2704 m = 3457 ∧ remainingOf 4000 m = 2161 := by decide +kernel

/-- 8.2, Ages Across the Wrap. -/
theorem test_ages : age 100000 4294900000 = 167296 ∧ age 5000000 10000000 = 4289967296 := by decide +kernel

/-! ## The rack (chapter 1) -/

/-- 1.3, Lock Sets With 40 Columns, and the rack of four columns. -/
theorem test_lock_sets :
    ([1, 2, 3, 4, 5, 6].map fun n => (List.range 40).filterMap fun c => if lockSet 40 (c + 1) n then some (c + 1) else none)
      = [(List.range 5).map (· + 36), (List.range 10).map (· + 31), (List.range 20).map (· + 21), (List.range 5).map (· + 1),
        (List.range 10).map (· + 1), (List.range 20).map (· + 1)]
    ∧ lockSet 4 4 1 = true ∧ lockSet 4 3 1 = false := by decide +kernel

/-- 1.7, A Stocking Run: slots, cursor, the two slots of the answer and the one notice. -/
theorem test_stocking_run :
    let body := fun (bin grade : Nat) => Item.stock ⟨bin, grade, 0, 0, 0, false⟩
    let before : State := { run with
      mode := .stocking, stockEnded := false, dir := run.dir.enterBin rack ⟨302, 1, 0, 0, 0, false⟩ ⟨.L, 1, 2⟩ 0 0 }
    let s := after (.stockAt still (to5 3 60) ⟨.L, 1, 11⟩ [body 301 3, body 0 1, body 302 1, body 303 1]) before
    s.dir.slotState ⟨.L, 1, 11⟩ = .occupied 301 ∧ s.dir.slotState ⟨.L, 1, 12⟩ = .empty ∧ s.dir.slotState ⟨.L, 2, 1⟩ = .empty
    ∧ s.dir.slotState ⟨.L, 2, 2⟩ = .occupied 303 ∧ s.dir.cursor = some ⟨.L, 2, 3⟩ ∧ s.line.ack = true ∧ s.line.obj = true
    ∧ s.line.queue.map (·.items) = [[.stockRefused ⟨1, ⟨.L, 2, 1⟩, 302⟩]] := by decide +kernel

/-- 1.7, the later frame: the last slot of the rack, then end. -/
theorem test_stock_to_end :
    let s := after (.stockAt still (to5 3 60) ⟨.R, 40, 12⟩ [.stock ⟨304, 1, 0, 0, 0, false⟩, .stock ⟨305, 1, 0, 0, 0, false⟩]) run
    s.dir.slotState ⟨.R, 40, 12⟩ = .occupied 304 ∧ s.dir.cursor = none
    ∧ s.line.queue.map (·.items) = [[.stockRefused ⟨2, SlotName.nowhere, 305⟩]] := by decide +kernel

/-! ## The crane (chapter 3) -/

/-- 3.6, A Delivery That Backs Off: the FETCH, its budget, and the bound DELIVER. -/
theorem test_fetch_starts :
    let s := after (.lend still (to5 3 60) ⟨7, 4711, 1, 3, .normal⟩ []) (withDir stocked)
    s.crane.current = some ⟨.fetch, .slot at7, some 1, false, 7533, some ⟨0, 9916⟩⟩
    ∧ s.crane.staged = some ⟨.deliver, .pos ⟨0, 3⟩, some 1, true, 7533, none⟩ ∧ s.crane.state = .moving
    ∧ (s.planner.visits.map (·.state)) = [.fetching] ∧ s.planner.startStamp = some 0 := by decide +kernel

/-- 3.8, A Slot Conflict on a Stow: the second slot, estimate and budget. -/
theorem test_slot_conflict :
    let sl : Slot := ⟨.R, 12, 5⟩
    let taken := fun (d : Directory) (x : Slot) => d.setSlot x ⟨.occupied 1, false⟩
    let d := [⟨.L, 12, 4⟩, ⟨.R, 12, 4⟩, ⟨.L, 12, 5⟩].foldl taken
      ((run.dir.setSlot sl ⟨.reserved 4711, false⟩).setBin 4711 { entry4711 with slot := sl, status := .out .crane 0 })
    let s := after (.inPosition { still with encCol := 12, encLevel := 5, slot := true }) { run with
      dir := d
      crane := { run.crane with
        state := .moving, carried := some ⟨4711, none, none, false⟩
        current := some ⟨.store, .slot sl, none, true, 8997, some ⟨0, 11746⟩⟩ } }
    s.crane.current = some ⟨.store, .slot ⟨.L, 12, 6⟩, none, true, 4215, some ⟨0, 5768⟩⟩
    ∧ s.dir.slotState sl = .bad ∧ s.dir.slotState ⟨.L, 12, 6⟩ = .reserved 4711 := by decide +kernel

/-- 1.5, Mismatch and Repair: the doubt marks of two slots and two bins. -/
theorem test_mismatch_doubts :
    let d := (stocked.enterBin rack ⟨5120, 1, 0, 0, 0, false⟩ ⟨.R, 12, 5⟩ 0 0).markDoubt 4711 5120
    d.slotRec at7 = ⟨.occupied 4711, true⟩ ∧ d.slotRec ⟨.R, 12, 5⟩ = ⟨.occupied 5120, true⟩
    ∧ d.isDoubted 4711 = true ∧ d.isDoubted 5120 = true := by decide +kernel

/-- R18: an adoption's slot is chosen for the mass as carried, though the entry holds it at the grade's limit of 200. -/
theorem test_adoption_share :
    let slot := fun mass : Nat => Directory.reset.adoptSlot { rack with columnMassLimit := 300 } { homeward with mass := mass }
    (slot 250).isSome = true ∧ slot 251 = none := by decide +kernel

/-- R51: after a MISMATCH the bound DELIVER is gone and nothing is staged, though another visit is READY; at fork done the crane
takes that one up. A free FETCH staged behind stays. -/
theorem test_mismatch_stage :
    let v := fun (n bin : Nat) (st : VisitState) => (⟨n, bin, 3, .normal, [n], none, 0, n, st⟩ : Visit)
    let before := fun (free : Bool) => ({ withDir (stocked.enterBin rack ⟨5120, 1, 0, 0, 0, false⟩ ⟨.R, 12, 5⟩ 0 0) with
      planner := { run.planner with visits := [v 9 4711 .fetching, v 10 5120 (if free then .staged else .ready)] }
      crane := { run.crane with
        state := .moving, forkCycle := true, current := some ⟨.fetch, .slot at7, some 9, false, 5000, some ⟨0, 9000⟩⟩
        staged := some (if free then ⟨.fetch, .slot ⟨.R, 12, 5⟩, some 10, false, 5000, none⟩
          else ⟨.deliver, .pos ⟨0, 3⟩, some 9, true, 5000, none⟩) } } : State)
    let read := fun free => after (.forkTagRead still (.mismatch 77)) (before free)
    (read false).crane.staged = none ∧ ((read false).planner.visits.map fun x => (x.number, x.state)) = [(10, .ready)]
    ∧ ((after (.forkDone still) (read false)).crane.current.map fun m => (m.kind, m.visit)) = some (.fetch, some 10)
    ∧ ((read true).crane.staged.map fun m => (m.kind, m.visit)) = some (.fetch, some 10) := by decide +kernel

/-- R63: the position at the release is held within what any rack can have. -/
theorem test_release_position :
    (after (.resetRelease { still with encCol := 200, encLevel := 0 }) State.reset).crane.pos = ⟨64, 1⟩ := by decide +kernel

/-! ## Planner and placement (chapters 4 and 5) -/

/-- 4.2, A Burst of Lending Requests. -/
theorem test_lend_burst :
    let enter := fun (bin : Nat) (restricted : Bool) (sl : Slot) (d : Directory) => d.enterBin rack ⟨bin, 1, 0, 0, 0, restricted⟩ sl 0 0
    let d := enter 7002 true ⟨.L, 3, 3⟩ (enter 5040 false ⟨.L, 2, 3⟩ (enter 6001 false ⟨.L, 1, 3⟩ stocked))
    let d := ((d.takeOut 0 6001).getD d).locate 6001 (.desk 2)
    let lend := fun (id bin : Nat) (desk : Desk) (rank : RankAsked) => (⟨id, bin, 0, desk, rank⟩ : LendBody)
    let before : State := { run with mode := .halted, stopTaken := true, dir := d, crane := { run.crane with state := .halted } }
    let s := after (.lend still (to5 3 60) (lend 1001 4711 3 .normal) [.lend (lend 1002 4711 3 .urgent),
      .lend (lend 1003 6001 3 .normal), .lend (lend 1002 5040 1 .normal), .lend (lend 1004 7002 3 .normal),
      .lend (lend 1005 4711 1 .normal)]) before
    (s.planner.visits.map fun v => (v.number, v.bin, v.desk)) = [(1, 4711, 3), (2, 6001, 3), (3, 4711, 1)]
    ∧ (s.planner.visits.map fun v => (v.rank, v.requests, v.state))
      = [(.urgent, [1001, 1002], .ready), (.normal, [1003], .waitingBin), (.normal, [1005], .ready)]
    ∧ s.line.queue.map (·.items) = [
      [.requestFailed (.head 5040 (some 1) 0x51), .requestFailed (.request 1002 0)],
      [.requestFailed (.head 7002 (some 3) 0x31), .requestFailed (.request 1004 0)]] := by decide +kernel

/-- 5.2, Two Searches on a Rack of 40 Columns: the first search. -/
theorem test_search_order : sweepColumns 40 64 6 0 = ([1, 33, 17, 9, 25, 5], 9) := by decide +kernel

/-- 5.4, An Auction Won: the bid of station 5 for bin 4711. -/
theorem test_bid_cost :
    let c : CallEntry := ⟨⟨3, 17⟩, 2, 20, false, ⟨0, 400⟩, .evaluating, none, none, false⟩
    bidCost (withDir stocked) (backlog (withDir stocked)) 3 4711 entry4711 = 35066
    ∧ eligible (withDir stocked) c 4711 entry4711 = true := by decide +kernel

/-- 5.4, Equal Bids and Crossing Claims: the lower station comes first at an equal cost. -/
theorem test_equal_bids : beats (50000, 12) (50000, 14) = true ∧ beats (50000, 14) (50000, 12) = false := by decide +kernel

/-! ## The line and the image (chapters 9 to 11) -/

/-- 9.2, Four Stations at One Idle: a TAKEN of station 9 beats two BIDs and a notice. -/
theorem test_contention :
    let queued := fun cls : Nat => { run with line := { run.line with queue := [⟨cls, 63, [], .plain, none⟩] } }
    let rivals := [(4, 3), (2, 12), (1, 9)]
    (after (.contention still rivals) (queued 2)).line.queue.map (·.onLine) = [none]
    ∧ (after (.contention still [(4, 3), (2, 12)]) (queued 2)).line.queue.map (·.onLine) = [some 0x20] := by decide +kernel

/-- 10.2, One Stocking Frame: the control octets, the slot and the length. -/
theorem test_stocking_frame :
    let bodies := [301, 0, 302, 303].map fun bin => Item.stock ⟨bin, 1, 0, 0, 0, false⟩
    let stream := control true false 0x22 :: encodeBody (.stockAt ⟨.L, 1, 11⟩) ++ encodeRun bodies
    stream.take 5 = [0xA2, 0x00, 0x01, 0x0B, 0x63] ∧ stream.length = 37
    ∧ decodeStream stream = .stockAt ⟨.L, 1, 11⟩ :: bodies := by decide +kernel

/-- 10.2 and 10.4, bodies written out octet by octet: an ALARM, a BID, a LEND, a head of REQUEST_FAILED. -/
theorem test_bodies :
    decodeStream [0x01, 2, 7, 1, 5] = [.alarm ⟨2, 7, .smoke, 5⟩]
    ∧ decodeStream [0x19, 3, 0, 17, 0, 0x88, 0xFA, 5, 0x12, 0x67] = [.bid ⟨⟨3, 17⟩, 35066, 5, 4711⟩]
    ∧ decodeStream [0x20, 0, 0x1F, 0x41, 0x12, 0x67, 0, 0, 0, 9, 3, 1] = [.lend ⟨8001, 4711, 9, 3, .urgent⟩]
    ∧ decodeStream [0x31, 0, 0, 0, 0x12, 0x67, 0xFF, 0x12] = [.requestFailed (.head 4711 none 0x12)]
    ∧ decodeStream [0xA4, 0x25] = [.stockEnd, .stop] ∧ decodeStream [0x3F, 0] = [] := by decide +kernel

/-- 10.1: the start bit, contention field 0 for class FIRE and station 5, an address to ALL, the word of RUN, a stream of two
octets; a frame whose first bit is not driven is not read. -/
theorem test_frame_bits :
    let bits := encodeFrame ⟨0, 5, false, 63, 0x20⟩ [0x04, 5]
    bits.take 49 = [false] ++ [false, false, false] ++ [false, false, false, true, false, true] ++ [false]
      ++ [true, true, true, true, true, true] ++ [false, false, true, false, false, false, false, false]
      ++ [false, false, false, false, false, false, true, false] ++ [false, false, false, false, false, true, false, false]
      ++ [false, false, false, false, false, true, false, true]
    ∧ bits.length = 65 ∧ heardCommand 4 still bits = some (.opened still ⟨0, 5, false, 63, 0x20⟩ 5 [])
    ∧ heardCommand 5 still bits = none ∧ heardCommand 4 still (true :: bits.drop 1) = none := by decide +kernel

/-- R179: the frame on the line carries its class, the own number, no group, its address and the latched word, and another station
reads it; a frame that waits has no bits, and the slots are driven low. -/
theorem test_sent_bits :
    let f : TxFrame := ⟨1, 63, [.taken ⟨4711, 5, .down⟩], .taken 4711 .down 1, some 0x20⟩
    (sentBits 5 f).bind (heardCommand 6 still) = some (.taken still ⟨1, 5, false, 63, 0x20⟩ ⟨4711, 5, .down⟩ [])
    ∧ sentBits 5 { f with onLine := none } = none ∧ slotBits true false = [false, true] := by decide +kernel

/-- R180: a place code above 5 in a FAULT that names a place, and a desk above 7 in a BIN_OVERDUE, are no choices. -/
theorem test_undefined_choices :
    let fault := fun code : Nat => decodeStream (0x34 :: encodeBody (.fault { faultBody .binCaught with bin := 1, code := code }))
    let overdue := fun desk : Nat => decodeStream (0x33 :: encodeBody (.binOverdue ⟨1, .desk, desk, 5⟩))
    (fault 5).length = 1 ∧ fault 6 = [] ∧ (overdue 7).length = 1 ∧ overdue 8 = [] := by decide +kernel

/-- 9.6, The Notice Share at Station 5: the first five admissions. -/
theorem test_notice_share :
    let notice : TxFrame := ⟨4, 63, [], .plain, none⟩
    let q := [⟨1, 6, [], .offer .up, none⟩, ⟨1, 63, [], .plain, none⟩, ⟨2, 63, [], .bid ⟨0, 1⟩, none⟩, ⟨2, 63, [], .bid ⟨0, 2⟩, none⟩]
      ++ List.replicate 6 notice
    let s := { run with line := { run.line with queue := q } }
    let s1 := queueFrame notice s
    let s4 := queueFrame ⟨1, 63, [], .plain, none⟩ (queueFrame ⟨2, 51, [], .plain, none⟩ (queueFrame ⟨2, 63, [], .plain, none⟩ s1))
    let s5 := queueFrame notice s4
    s1.line.queue.length = 10 ∧ s1.line.discarded = true ∧ s4.line.queue.length = 12 ∧ noticeCount s4.line.queue = 5
    ∧ s5.line.queue = s4.line.queue := by decide +kernel

/-- 11.1, Three Images: A is held, B and C hold forbidden combinations. -/
theorem test_three_images :
    let entries := fun m : List (Option Nat) => Vector.ofFn fun c : Fin 8 => m.getD c.val none
    let a := clampConfig { rack with nl := 30, portLevel := 28, transferLimit := 45 }
    a.nl = 24 ∧ a.portLevel = 24 ∧ a.transferLimit = 30 ∧ forbidden a = false
    ∧ forbidden { rack with compMap := entries [some 0, some 20, some 10] } = true
    ∧ forbidden { rack with compMap := entries [none, some 8, some 20] } = true
    ∧ forbidden { rack with compMap := entries [none, some 8, some 20], segment := 8 } = false := by decide +kernel

/-- R179: mode in bits 7..5, shutter in bits 4..3, DOWN held in bit 1, UP held in bit 0. -/
theorem test_condition_word :
    condWord run = 0x20 ∧ condWord { run with mode := .halted, spine := { run.spine with down := .blocked none none } } = 0xA2
    ∧ condWord { run with
        mode := .guard, spine := { run.spine with up := .blocked none none }
        fire := { run.fire with shutter := some ⟨.shut, false, none, none, none⟩ } } = 0x59 := by decide +kernel

/-! ## More of the manual's examples, one or two events each -/

/-- 1.6, One Bin's Trip and Its Column Load. -/
theorem test_column_load :
    let cfg := { rack with grade2 := ⟨40, 350, 110⟩, columnMassLimit := 6000 }
    let d := (run.dir.setLoad at7 2900).enterBin cfg ⟨4711, 2, 22, 180, 14, false⟩ at7 0 0
    let held := (d.placeHold cfg 4711 6 40).getD d
    let out := (held.takeOut 5 4711).getD d
    let home := fun c : Contents => (out.store cfg 4711 (some c) (some (6, 40))).getD d
    d.load at7 = 3190 ∧ held.load at7 = 3230 ∧ out.load at7 = 3230 ∧ (home ⟨27, 215, 17, false⟩).load at7 = 3225
    ∧ ((home ⟨44, 215, 17, false⟩).bin 4711).map (·.fill) = some 40 := by decide +kernel

/-- 5.5, A Return That Overreports. -/
theorem test_overreport :
    let cfg := { rack with grade1 := ⟨24, 150, 60⟩ }
    let e := { entry4711 with fill := 9, mass := 62, count := 21, promVolume := 13, promMass := 75, status := .out .crane 0 }
    let d := ((run.dir.setBin 6230 e).setLoad at7 197).store cfg 6230 (some ⟨20, 130, 70, false⟩) (some (5, 30))
    d.bind (·.bin 6230) = some { e with
      fill := 16, mass := 105, count := 63, promVolume := 8, promMass := 45, status := .stored }
    ∧ d.map (·.load at7) = some 210 := by decide +kernel

/-- 4.9, Two Sweeps: at 7,260,000 bin 3001 is reported, and bin 3002, exactly at its limit, is not. -/
theorem test_overdue_sweep :
    let gone := fun t : Time => { entry4711 with status := .out (.desk 3) t }
    let s := after (.overdueSweepExpiry still) { withDir ((run.dir.setBin 3001 (gone 50000)).setBin 3002 (gone 60000)) with
      cfg := { rack with outLimit := 120 }, clock := 7260000, planner := { run.planner with sweep := some ⟨7200000, 60000⟩ } }
    s.line.queue.map (·.items) = [[.binOverdue ⟨3001, .desk, 3, 120⟩]]
    ∧ s.dir.bins.map (fun x => (x.1, x.2.overdue)) = [(3001, true), (3002, false)] := by decide +kernel

/-- R153, R159: the first sweep falls at 60,000, and the clock comes round to 0. -/
theorem test_tick :
    (match step { run with clock := 59999 } with
      | .next t => t.clock == 60000 && t.pending == [.overdueSweepExpiry still]
      | _ => false) = true
    ∧ (match step { run with clock := 4294967295 } with
      | .next t => t.clock == 0 && t.pending == []
      | _ => false) = true := by decide +kernel

/-- 4.7, Cancels Through the States: the staged FETCH is withdrawn, and the READY visit waits for the next selection. -/
theorem test_cancel_withdraws :
    let v9 : Visit := ⟨9, 4711, 4, .urgent, [2001, 2002], some ⟨⟨4, 37⟩, 1, 1⟩, 0, 1, .ready⟩
    let v10 : Visit := ⟨10, 5120, 3, .urgent, [2010], none, 0, 2, .staged⟩
    let before : State := { withDir stocked with
      planner := { run.planner with
        visits := [v9, v10], pool := [(2001, ⟨0, 4, .urgent, .queued, 9⟩), (2002, ⟨0, 4, .normal, .queued, 9⟩), (2010, ⟨0, 3, .urgent, .queued, 10⟩)] }
      crane := { run.crane with
        state := .moving, carried := some ⟨13, none, some 99, false⟩
        current := some ⟨.deliver, .pos ⟨0, 3⟩, some 99, true, 5000, some ⟨0, 9000⟩⟩
        staged := some ⟨.fetch, .slot at40, some 10, false, 14800, none⟩ } }
    let s := after (.cancel still (to5 3 60) 2010 []) before
    s.planner.visits = [v9] ∧ s.crane.staged = none ∧ s.planner.pool.map (·.1) = [2001, 2002] ∧ s.line.ack = true
    ∧ (after (.lineIdle still) s).crane.staged = none := by decide +kernel

/-- 4.5, Aging, Displacement and Promotion: an objected OFFER promotes the stow over the staged FETCH. -/
theorem test_promotion :
    let v5 : Visit := ⟨5, 4711, 3, .urgent, [2], none, 470000, 11, .staged⟩
    let before : State := { withDir stocked with
      clock := 510000
      planner := { run.planner with visits := [v5], pool := [(2, ⟨0, 3, .urgent, .queued, 5⟩)], stow := .ready }
      spine := { run.spine with portIn := .holding { homeward with bin := 5120 } }
      crane := { run.crane with
        state := .moving, carried := some ⟨13, none, some 99, false⟩
        current := some ⟨.deliver, .pos ⟨0, 3⟩, some 99, true, 5000, some ⟨508000, 9000⟩⟩
        staged := some ⟨.fetch, .slot at7, some 5, false, 7533, none⟩ } }
    let s := after (.offer still (to5 1 4) { homeward with bin := 5133 } []) before
    s.crane.staged = some ⟨.takeIn, .pos ⟨0, 3⟩, none, false, 2800, none⟩ ∧ s.planner.stow = .staged ∧ s.planner.mark = true
    ∧ s.planner.visits.map (·.state) = [.ready] ∧ s.line.obj = true := by decide +kernel

/-- 6.3, Alternating Grants at Station 5, at 302,000: DOWN becomes EMPTY and is kept for the up neighbour. -/
theorem test_grant_kept :
    let s := after (.taken still (toAll 1 4) ⟨5002, 4, .down⟩ []) { run with
      clock := 302000, cfg := { rack with offerRetry := 1000 }
      spine := { run.spine with
        down := .holding { deskward with bin := 5002 }, outDown := some ⟨5002, 4, ⟨299000, 10000⟩, none⟩
        portOut := .holding deskward, waiting := true } }
    s.spine.down = .empty ∧ s.spine.kept = true ∧ s.spine.waiting = true ∧ s.spine.mergeWait = some ⟨302000, 1000⟩
    ∧ s.spine.lastGrant = .portOut := by decide +kernel

/-- 6.7, A Late TAKEN: a lost bin frees its lane after all. -/
theorem test_late_taken :
    let lost : State := { withDir (outAt .unknown) with spine := { run.spine with down := .blocked none (some (4711, 4)) } }
    let s := after (.taken still (toAll 1 4) ⟨4711, 4, .down⟩ []) lost
    s.spine.down = .empty ∧ (s.dir.bin 4711).map (·.status) = some (.out (.lane 4 .down) 0) := by decide +kernel

/-- 7.3, the second case of Closing Against a Bin in the Boundary: the close limit forces the shutter, and the bin in UP is
caught. -/
theorem test_forced_close :
    let s := after (.closeLimitExpiry { still with boundary := true }) { run with
      clock := 1020000, cfg := { rackB with driveLimit := 8 }, mode := .fire
      crane := { run.crane with state := .parked }
      fire := { run.fire with
        alarms := run.fire.alarms.set 1 ⟨true, 8, 8, false, false, false, some 1000000⟩
        shutter := some ⟨.clearing, false, some ⟨1000000, 20000⟩, none, none⟩ }
      spine := { run.spine with
        routeOpen := false, up := .reserved, driveUp := true
        inUp := some ⟨4402, 4, ⟨999000, 30000⟩, some { homeward with bin := 4402, home := 27, hop := 2 }⟩ } }
    s.fire.shutter = some ⟨.closingDrive, false, none, none, some ⟨1020000, 8000⟩⟩ ∧ s.spine.up = .blocked none none
    ∧ s.spine.inUp = none ∧ s.line.queue.map (·.items) =
      [[.fault { faultBody .binCaught with bin := 4402, second := 27, code := 5, place := 5, hop := 2 }]] := by decide +kernel

/-- 7.5, Two Compartments Restored in Turn: the first RESTORE. -/
theorem test_first_restore :
    let s := after (.restore still (toAll 0 62) ⟨1, 8⟩ []) { withDir (outAt .crane) with
      cfg := rackB, mode := .fireSafe, safeMade := true
      fire := { run.fire with
        alarms := (run.fire.alarms.set 1 ⟨true, 8, 8, false, false, false, some 0⟩).set 0 ⟨true, 4, 4, false, false, false, some 0⟩
        shutter := some ⟨.shut, false, none, none, none⟩ }
      crane := { run.crane with state := .parked, carried := some ⟨4711, none, some 31, false⟩ }
      planner := { run.planner with visits := [⟨31, 4711, 5, .normal, [7], none, 0, 0, .onCrane⟩] }
      spine := { run.spine with routeOpen := false } }
    s.mode = .guard ∧ s.fire.shutter.map (·.state) = some .shut ∧ s.crane.current.map (·.kind) = some .deliver
    ∧ s.line.ack = true ∧ s.line.obj = false := by decide +kernel

/-- 7.1, Two Stations Raise One Fire: the epoch heard is taken and the own ALARM is withdrawn. -/
theorem test_two_alarms :
    let raised := after (.inputFilterExpiry { still with smoke := true } .smoke)
      { run with clock := 100, fire := { run.fire with smoke := ⟨some ⟨0, 100⟩, false, false⟩ } }
    let s := after (.alarm still (toAll 0 23) ⟨0, 8, .smoke, 23⟩ []) raised
    raised.line.queue.map (·.items) = [[.alarm ⟨0, 1, .smoke, 5⟩]] ∧ s.line.queue = [] ∧ (s.fire.alarms.get 0).epoch = 8 := by
  decide +kernel

/-- The image of the test station. Its CRC, 9717h, was computed outside the model by the figures of R162 and R184. -/
def image : List Byte :=
  [5, 5, 6, 4, 0, 255, 255, 255, 255, 255, 255, 255, 0, 40, 12, 3, 32, 1, 144, 3, 0, 3, 15, 160, 3, 232, 5, 220, 3, 32, 1, 44, 9,
    196, 1, 244, 20, 24, 0, 200, 50, 40, 1, 44, 60, 48, 1, 144, 80, 64, 1, 244, 90, 15, 160, 0, 0, 7, 255, 255, 255, 255, 255, 255,
    255, 6, 15, 160, 10, 1, 244, 1, 44, 0, 60, 5, 20, 5, 1, 244, 60, 61, 62] ++ List.replicate 43 0 ++ [0x97, 0x17]

/-- Twenty-one of the octets under the CRC. -/
def part (k : Nat) : List Byte := (image.drop (21 * k)).take 21

/-- The CRC going on from a value. -/
def crcOf (octets : List Byte) (c : BitVec 16) : BitVec 16 := (octets.flatMap octetBits).foldl crcBit c

/-- The CRC part by part, each value computed outside the model. -/
theorem test_crc_parts :
    crcOf (part 0) 0xC3A5#16 = 0xD9D8#16 ∧
    crcOf (part 1) 0xD9D8#16 = 0xDF2C#16 ∧
    crcOf (part 2) 0xDF2C#16 = 0x7BB9#16 ∧
    crcOf (part 3) 0x7BB9#16 = 0x27C1#16 ∧
    crcOf (part 4) 0x27C1#16 = 0xE61E#16 ∧
    crcOf (part 5) 0xE61E#16 = 0x9717#16 := by
  refine ⟨?_, ?_, ?_, ?_, ?_, ?_⟩ <;> decide +kernel

theorem crc_of_body {b : List Byte} {x : List Byte} (hb : b = x ++ part 1 ++ part 2 ++ part 3 ++ part 4 ++ part 5)
    (hx : crcOf x 0xC3A5#16 = 0xD9D8#16) : crcOctets b = 0x9717#16 := by
  obtain ⟨_, h1, h2, h3, h4, h5⟩ := test_crc_parts
  rw [hb]
  simp only [crcOctets, crcBits, List.flatMap_append, List.foldl_append]
  simp only [crcOf] at hx h1 h2 h3 h4 h5
  rw [hx, h1, h2, h3, h4, h5]

theorem image_good : imageGood image = true := by
  unfold imageGood
  rw [crc_of_body (x := part 0) (by decide +kernel) test_crc_parts.1]
  decide +kernel

/-- R184: the fields of the image are the figures of the station, all within their ranges. -/
theorem test_image : image.length = 128 ∧ rawConfig image = rack ∧ clampConfig rack = rack ∧ forbidden rack = false := by
  decide +kernel

/-- 11.6, A Start Into a Busy Line: the entry to STOCKING, then the smoke filter that has run since the release. -/
theorem test_busy_start :
    let p := { still with smoke := true, load := true }
    let read := settle (enterStocking { after (.resetRelease p) State.reset with clock := 2, cfg := rack })
    let s := after (.inputFilterExpiry p .smoke) { read with clock := 100 }
    let unknown := [Item.fault (faultBody .craneLoadUnknown)]
    read.mode = .stocking ∧ read.crane.state = .faulted ∧ read.line.queue.map (·.items) = [unknown]
    ∧ s.mode = .fireSafe ∧ s.line.queue.map (·.items) = [[.alarm ⟨0, 1, .smoke, 5⟩], [.safe ⟨0, 1, 5⟩], unknown] := by
  decide +kernel

/-! ## WellFormed refuses: one ill-formed command for each check -/

/-- A frame of station 60 with one item, the frame of the item's class. -/
def oneItem (i : Item) : Instr := frameCommand still (to5 i.cls 60) [i]

/-- Each number of an item one above what its octets hold (10.2 to 10.5). -/
theorem test_wf_items :
    ([.alarm ⟨0, 256, .panel, 0⟩, .alarm ⟨0, 1, .panel, 256⟩, .closing 256, .closed 256, .opened 256, .safe ⟨0, 256, 0⟩,
      .safe ⟨0, 0, 256⟩, .restore ⟨0, 256⟩, .offer { homeward with bin := 65536 }, .offer { homeward with home := 256 },
      .offer { homeward with hop := 256 }, .offer { homeward with grade := 256 }, .offer { homeward with fill := 256 },
      .offer { homeward with mass := 65536 }, .offer { homeward with count := 256 },
      .offer { homeward with call := some ⟨⟨0, 65536⟩, 0, 0⟩ }, .offer { homeward with call := some ⟨⟨0, 0⟩, 256, 0⟩ },
      .offer { homeward with call := some ⟨⟨0, 0⟩, 0, 256⟩ }, .offer { homeward with requests := List.replicate 9 1 },
      .offer { homeward with requests := [16777216] }, .taken ⟨65536, 0, .none⟩, .taken ⟨0, 256, .none⟩,
      .roomCall ⟨⟨0, 65536⟩, 0, 0, false, 0⟩, .roomCall ⟨⟨0, 0⟩, 256, 0, false, 0⟩, .roomCall ⟨⟨0, 0⟩, 0, 256, false, 0⟩,
      .roomCall ⟨⟨0, 0⟩, 0, 0, false, 65536⟩, .bid ⟨⟨0, 65536⟩, 0, 0, 0⟩, .bid ⟨⟨0, 0⟩, 16777216, 0, 0⟩,
      .bid ⟨⟨0, 0⟩, 0, 256, 0⟩, .bid ⟨⟨0, 0⟩, 0, 0, 65536⟩, .claim ⟨⟨0, 65536⟩, 0, 0⟩, .claim ⟨⟨0, 0⟩, 256, 0⟩,
      .claim ⟨⟨0, 0⟩, 0, 65536⟩, .lend ⟨16777216, 0, 0, 0, .normal⟩, .lend ⟨1, 65536, 0, 0, .normal⟩,
      .lend ⟨1, 0, 4294967296, 0, .normal⟩, .cancel 16777216, .stockAt ⟨.L, 256, 0⟩, .stockAt ⟨.L, 0, 256⟩,
      .stock ⟨65536, 0, 0, 0, 0, false⟩, .stock ⟨0, 256, 0, 0, 0, false⟩, .stock ⟨0, 0, 256, 0, 0, false⟩,
      .stock ⟨0, 0, 0, 65536, 0, false⟩, .stock ⟨0, 0, 0, 0, 256, false⟩, .writeOff 65536].all fun i => !(oneItem i).wf) = true := by
  decide +kernel

/-- The same of the notices (10.4). -/
theorem test_wf_notices :
    let report : ReportBody := ⟨0, 0, 0, 0, 0, 0, 0, 0, false, false, false, 0, 0, 0⟩
    let fault := faultBody .storeBlocked
    ([.requestDone (.head 65536 none 0), .requestDone (.head 0 none 256), .requestFailed (.request 0 0),
      .requestFailed (.request 16777216 0), .requestFailed (.request 1 4294967296), .binStored ⟨65536, SlotName.nowhere⟩,
      .binStored ⟨0, ⟨.L, 256, 0⟩⟩, .binOverdue ⟨65536, .crane, 0, 0⟩, .binOverdue ⟨0, .crane, 256, 0⟩,
      .binOverdue ⟨0, .crane, 0, 16777216⟩, .fault { fault with bin := 65536 }, .fault { fault with second := 65536 },
      .fault { fault with slotA := ⟨.L, 256, 0⟩ }, .fault { fault with slotB := ⟨.L, 256, 0⟩ }, .fault { fault with code := 256 },
      .fault { fault with place := 256 }, .fault { fault with hop := 256 }, .fault { faultBody .portTag with code := 6 },
      .fault { faultBody .handoffLost with code := 6 }, .binOverdue ⟨0, .desk, 8, 0⟩, .stationReport { report with mode := 256 },
      .stationReport { report with crane := 256 }, .stationReport { report with pool := 256 },
      .stationReport { report with visits := 256 }, .stationReport { report with empties := 65536 },
      .stationReport { report with occupied := 65536 }, .stationReport { report with reserved := 65536 },
      .stationReport { report with bad := 65536 }, .stationReport { report with crc := 65536 },
      .stationReport { report with upAge := 65536 }, .stationReport { report with downAge := 65536 },
      .stockRefused ⟨256, SlotName.nowhere, 0⟩, .stockRefused ⟨0, ⟨.L, 256, 0⟩, 0⟩, .stockRefused ⟨0, SlotName.nowhere, 65536⟩].all
      fun i => !(oneItem i).wf) = true := by decide +kernel

/-- Headers out of their fields, items of another class, a stream of 65 octets, a FAULT in the row of another kind, and a
discarded frame that nothing discards. -/
theorem test_wf_frames :
    (([.query still ⟨3, 63, false, 5, 0⟩ [], .query still ⟨3, 60, false, 64, 0⟩ [], .query still ⟨8, 60, false, 5, 0⟩ [],
      .query still (to5 2 60) [], .query still (to5 3 60) [.closing 5],
      .stop still (to5 3 60) (List.replicate 21 (.cancel 1)), .faultBinCaught still (to5 4 4) (faultBody .handoffLost) [],
      .faultHandoffLost still (to5 4 4) (faultBody .binCaught) [], .fault still (to5 4 4) (faultBody .binCaught) [],
      .fault still (to5 4 4) (faultBody .handoffLost) [], .discardedFrame still (to5 3 60) [.stop]] : List Instr).all fun i => !i.wf) = true
    ∧ (Instr.stop still (to5 3 60) [.stop]).wf = true ∧ (Instr.cancel still (to5 3 60) 1 (List.replicate 20 (.cancel 1))).wf = true
    ∧ (Instr.discardedFrame still (to5 3 60) [.stop, .closing 5]).wf = true := by decide +kernel

/-- The commands of the pins and the image: an image of 127 octets, a rival with an eighth class or no station number, reports
that the pins deny, a bin id of 0 or beyond two octets, a call number beyond two octets. -/
theorem test_wf_reports :
    (([.readComplete still (image.take 127), .contention still [(8, 1)], .contention still [(1, 63)], .forkTagRead still (.mismatch 65536),
      .arrival still .down, .binAtPosition still .up, .portInTagRead still (some 0), .portInTagRead still (some 65536),
      .windowExpiry still ⟨0, 65536⟩, .inputActive still .smoke, .inputInactive { still with heat := true } .heat,
      .closedSensor still, .openSensor still] : List Instr).all fun i => !i.wf) = true
    ∧ (([.readComplete still image, .contention still [(7, 62)], .forkTagRead still (.mismatch 65535),
      .arrival { still with down := ⟨true, false⟩ } .down, .binAtPosition { still with up := ⟨false, true⟩ } .up,
      .portInTagRead still (some 65535), .portInTagRead still none, .windowExpiry still ⟨7, 65535⟩,
      .inputActive { still with smoke := true } .smoke, .inputInactive still .heat,
      .closedSensor { still with closedSensor := true }, .openSensor { still with openSensor := true }] : List Instr).all Instr.wf) = true := by
  decide +kernel

/-! ## For each statement with hypotheses a state and operands that meet them, clause by clause -/

/-- The frame is heard, classed and addressed. -/
def hearsB (h : Header) (s : State) : Bool :=
  s.live && s.line.footing && decide (h.sender < 63) && h.sender != s.cfg.station

theorem hears {h : Header} {s : State} (hb : hearsB h s = true) : Hears h s := by
  simp only [hearsB, Bool.and_eq_true, decide_eq_true_eq, bne_iff_ne] at hb
  exact ⟨hb.1.1.1, hb.1.1.2, hb.1.2, hb.2⟩

theorem reaches {h : Header} {items : List Item} {s : State}
    (hb : (hearsB h s && classGood h items && addressed s.cfg h) = true) : Reaches h items s := by
  simp only [Bool.and_eq_true] at hb
  exact ⟨hears hb.1.1, hb.1.2, hb.2⟩

/-- Every one of the items, alone in a frame of its class from a sender, reaches the station. -/
def reachAll (sender : Nat) (items : List Item) (s : State) : Prop := ∀ i, i ∈ items → Reaches (to5 i.cls sender) [i] s

theorem reachAll_of {sender : Nat} {items : List Item} {s : State}
    (hb : (items.all fun i => hearsB (to5 i.cls sender) s && classGood (to5 i.cls sender) [i]
      && addressed s.cfg (to5 i.cls sender)) = true) : reachAll sender items s :=
  fun i hi => reaches (List.all_eq_true.mp hb i hi)

/-- The outcome is a next state. -/
def isNext : Host.Outcome State Fault Refusal → Bool
  | .next _ => true
  | _ => false

theorem next_of {o : Host.Outcome State Fault Refusal} (hb : isNext o = true) : ∃ t, o = .next t := by
  cases o with
  | next t => exact ⟨t, rfl⟩
  | _ => cases hb

theorem witness_StepRunsFrontCommand :
    { run with pending := [.lineIdle still, .stopped still] }.pending = Instr.lineIdle still :: [.stopped still] := rfl

/-- A clock at its last reading and a timer that is hit at 0. -/
theorem witness_EmptyQueueTicksClock :
    run.pending = [] ∧ run.inReset = false ∧ (after (.resetAssert still) run).pending = []
    ∧ (after (.resetAssert still) run).inReset = true
    ∧ timerHits (0xFFFFFFFF#32 + 1) (some ⟨0xFFFFFFFF#32 - 59999, 60000⟩) = true := by decide +kernel

theorem witness_CommandsKeepFixedParts :
    (∀ p, Instr.lineIdle still ≠ .resetRelease p) ∧ (∀ p, Instr.lineIdle still ≠ .resetAssert p)
    ∧ ∀ p image, Instr.lineIdle still ≠ .readComplete p image := by simp

theorem witness_SilentUnlessConfigured :
    (State.reset.live = false ∧ (after (.resetAssert still) run).live = false ∧ { run with mode := .unconfigured }.live = false)
    ∧ (∀ p, Instr.lineIdle still ≠ .resetRelease p) ∧ (∀ p, Instr.lineIdle still ≠ .resetAssert p)
    ∧ (∀ p image, Instr.lineIdle still ≠ .readComplete p image) ∧ (∀ p i, Instr.lineIdle still ≠ .inputActive p i)
    ∧ (∀ p i, Instr.lineIdle still ≠ .inputInactive p i) ∧ (∀ p i, Instr.lineIdle still ≠ .inputFilterExpiry p i)
    ∧ ∀ p, Instr.lineIdle still ≠ .overdueSweepExpiry p :=
  ⟨by decide +kernel, by simp⟩

def aCall (n : Nat) (st : CallState) (own : Option (Nat × Nat)) : CallEntry :=
  ⟨⟨3, n⟩, 2, 20, false, ⟨0, 400⟩, st, own, none, false⟩

def aNotice (wd : Option Byte) : TxFrame := ⟨4, 63, [.binStored ⟨1, SlotName.nowhere⟩], .plain, wd⟩

/-- Every table full: 12 frames with 6 notices and one frame on the line, 4 calls, 48 requests, and a command waiting. -/
def full : State := { withDir stocked with
  pending := [.contention still []]
  line := { run.line with queue := List.replicate 6 ⟨1, 6, [.closing 5], .plain, none⟩ ++ List.replicate 5 (aNotice none) ++ [aNotice (some 0x20)] }
  planner := { run.planner with pool := (List.range 48).map fun i => (i + 1, ⟨0, 3, .normal, .queued, 1⟩) }
  placement := ⟨63, [aCall 1 .noBid none, aCall 2 .noBid none, aCall 3 .noBid none, aCall 4 .evaluating none]⟩ }

theorem witness_StepKeepsQueueLimits : QueueInv full ∧ ∃ t, step full = .next t :=
  ⟨⟨by decide +kernel, by decide +kernel, by decide +kernel, by decide +kernel⟩, next_of (by decide +kernel)⟩

theorem witness_StepKeepsTableForm : TablesInv full ∧ ∃ t, step full = .next t :=
  ⟨⟨by decide +kernel, by decide +kernel, by decide +kernel, by decide +kernel, by decide +kernel, by decide +kernel⟩,
    next_of (by decide +kernel)⟩

theorem witness_StepKeepsCallAndPoolLimits : CallsInv full ∧ PoolInv full ∧ ∃ t, step full = .next t :=
  ⟨⟨by decide +kernel, by decide +kernel, by decide +kernel⟩, ⟨by decide +kernel, by decide +kernel⟩, next_of (by decide +kernel)⟩

theorem counts_of {s : State} (hb : (tblWf s.dir.slots && s.dir.counts.occupied == (s.dir.slots.countP fun x => isOccupied x.2.state)
    && s.dir.counts.reserved == (s.dir.slots.countP fun x => isReserved x.2.state)
    && s.dir.counts.bad == (s.dir.slots.countP fun x => x.2.state == .bad) && (s.mode != .start || s.dir.slots.isEmpty)
    && (s.mode.idle || s.dir.counts.empties + s.dir.counts.occupied + s.dir.counts.reserved + s.dir.counts.bad
      == 2 * s.cfg.nc * s.cfg.nl)) = true) :
    CountsInv s := by
  simp only [Bool.and_eq_true, beq_iff_eq, Bool.or_eq_true, bne_iff_ne, List.isEmpty_iff] at hb
  exact ⟨hb.1.1.1.1.1, hb.1.1.1.1.2, hb.1.1.1.2, hb.1.1.2, fun h => hb.1.2.resolve_left fun g => g h,
    fun h => hb.2.resolve_left fun g => by rw [h] at g; cases g⟩

theorem witness_StepKeepsSlotCounts : CountsInv full ∧ (∃ t, step full = .next t) ∧ CountsInv State.reset :=
  ⟨counts_of (by decide +kernel), next_of (by decide +kernel), counts_of (by decide +kernel)⟩

theorem witness_StepKeepsCraneRest : RestInv full ∧ ∃ t, step full = .next t :=
  ⟨⟨fun _ => rfl, fun _ => rfl⟩, next_of (by decide +kernel)⟩

theorem witness_EventEndKeepsRecords : Quiet run :=
  ⟨by decide +kernel, rfl, rfl, fun _ o h => by
    have : o = 0 ∨ o = 1 ∨ o = 2 ∨ o = 3 ∨ o = 4 := by omega
    rcases this with rfl | rfl | rfl | rfl | rfl <;> decide +kernel, rfl, rfl, rfl, nofun, nofun, rfl⟩

/-- A stream of 64 octets, the most a frame holds. -/
theorem witness_EncodedFrameDecodes :
    (Instr.cancel still (to5 3 60) 1 (List.replicate 15 (.cancel 0xFFFFFF))).wf = true
    ∧ (Instr.cancel still (to5 3 60) 1 (List.replicate 15 (.cancel 0xFFFFFF))).frame
      = some (to5 3 60, .cancel 1 :: List.replicate 15 (.cancel 0xFFFFFF))
    ∧ (to5 3 60).sender ≠ 5 ∧ (encodeChain (.cancel 1 :: List.replicate 15 (.cancel 0xFFFFFF))).length = 64 := by decide +kernel

theorem witness_EncodedRunDecodes :
    (Item.cancel 1).size ≠ 0 ∧ ∀ j ∈ [Item.cancel 1, .cancel 0, .cancel 0xFFFFFF], j.code = (Item.cancel 1).code ∧ j.fits = true := by
  decide +kernel

theorem witness_HeardFrameEntersNeighbour :
    (Instr.closed still (toAll 0 62) 5 []).frame = some (toAll 0 62, [.closed 5]) ∧ Hears (toAll 0 62) run ∧ Hears (to5 4 0) run
    ∧ (Instr.discardedFrame still (to5 4 0) []).frame = some (to5 4 0, []) :=
  ⟨rfl, hears (by decide +kernel), hears (by decide +kernel), rfl⟩

/-- R28 at the boundary of its two formulas: v = 4000, a = 1000, v squared over a = 16,000. -/
theorem witness_AxisTimeExact :
    (0 < 4000 ∧ 0 < 1000) ∧ (0 < 16000 ∧ 4000 * 4000 ≤ 16000 * 1000) ∧ (0 < 15999 ∧ 15999 * 1000 < 4000 * 4000) ∧ 15999 ≤ 16000 := by
  decide

/-- The least rack, of 4 columns and 2 levels: a slot found, and none. -/
theorem witness_ChosenSlotIsNearest :
    Directory.reset.chooseSlot { rack with nc := 4, nl := 2, lockL := ⟨1, false⟩ } true 50 ⟨0, 1⟩ = some ⟨.L, 4, 1⟩
    ∧ Directory.reset.chooseSlot { rack with nc := 4, nl := 2, columnMassLimit := 49 } false 50 ⟨0, 1⟩ = none := by decide +kernel

/-- A hold that fits exactly. -/
theorem witness_HoldPlacedAndReleased :
    stocked.bin 4711 = some entry4711 ∧ (stocked.placeHold rack 4711 2 20).isSome = true
    ∧ (stocked.placeHold rack 4711 3 20).isSome = false ∧ tblWf stocked.loads = true
    ∧ entry4711.fill + 2 = (gradeOf rack 1).capacity ∧ entry4711.mass + 20 = (gradeOf rack 1).massLimit := by decide +kernel

theorem witness_TakeOutAndStore :
    stocked.bin 4711 = some entry4711 ∧ tblWf stocked.slots = true ∧ tblWf stocked.loads = true
    ∧ binShare rack entry4711 = stocked.load entry4711.slot ∧ entry4711.isOut = false
    ∧ (outAt .crane).bin 4711 = some { entry4711 with status := .out .crane 0 }
    ∧ { entry4711 with status := .out .crane 0 }.isOut = true ∧ tblWf (outAt .crane).slots = true
    ∧ tblWf (outAt .crane).loads = true ∧ binShare rack entry4711 ≤ (outAt .crane).load at7 := by decide +kernel

theorem witness_SearchExaminesColumns :
    (63 < 64 ∧ 5 < 6) ∧ (1 ≤ 64 ∧ 64 ≤ 64 ∧ 4 ≤ 64 ∧ 64 ≤ 64) ∧ (1 ≤ 1 ∧ 1 ≤ 64 ∧ 4 ≤ 4) ∧ 4 ≤ 4
    ∧ (full.live = true ∧ evaluating full.placement = some (aCall 4 .evaluating none)) ∧ evaluating run.placement = none := by decide +kernel

theorem witness_ClampedWithinRanges : 4 ≤ 64 ∧ (4 ≤ 4 ∧ 4 ≤ 64) ∧ 3 < 4 ∧ 64 < 65 := by decide

/-- The own compartment alarmed, route last reported open. -/
def burning : State := { run with fire := { run.fire with alarms := run.fire.alarms.set 0 ⟨true, 4, 4, false, false, false, some 0⟩ } }

theorem witness_RouteRetested :
    downOpen run = run.spine.routeOpen ∧ (downOpen run = true ∧ { run with spine := Spine.reset }.spine.routeOpen = false)
    ∧ downOpen { run with cfg := rackB } = false ∧ CallsInv { full with cfg := rackB } := by
  refine ⟨?_, ?_, ?_, ⟨?_, ?_, ?_⟩⟩ <;> decide +kernel

/-- Segment 20 in compartment 1 and segment 10 in compartment 2: a forbidden combination, with two octets more that leave the
CRC after the first part as it is. -/
def image2 : List Byte := [5, 5, 6, 4, 0, 20, 10, 255, 255, 255, 255, 255, 0, 40, 12, 3, 32, 1, 144, 16, 164] ++ image.drop 21

theorem image2_good : imageGood image2 = true := by
  unfold imageGood
  rw [crc_of_body (x := image2.take 21) (by decide +kernel) (by decide +kernel)]
  decide +kernel

/-- The image with the last bit of its CRC turned. -/
def image3 : List Byte := image.take 127 ++ [0x16]

theorem image3_bad : imageGood image3 = false := by
  unfold imageGood
  rw [crc_of_body (x := part 0) (by decide +kernel) test_crc_parts.1]
  decide +kernel

theorem witness_ReadCompleteConfigures :
    State.reset.inReset = false ∧ State.reset.mode = .start ∧ imageGood image3 = false ∧ imageGood image2 = true
    ∧ forbidden (clampConfig (rawConfig image2)) = true ∧ imageGood image = true
    ∧ forbidden (clampConfig (rawConfig image)) = false :=
  ⟨by decide +kernel, by decide +kernel, image3_bad, image2_good, by decide +kernel, image_good, by decide +kernel⟩

theorem witness_LineTakenFromFirstIdle :
    run.live = true ∧ { run with line := LineUnit.reset }.live = true ∧ { run with line := LineUnit.reset }.line.footing = false
    ∧ (Instr.closed still (toAll 0 6) 5 []).frame = some (toAll 0 6, [.closed 5]) := by decide +kernel

/-- A frame of every class it can have; rivals one above, one below the own field. -/
theorem witness_ContentionGoesToLowestField :
    run.live = true ∧ run.line.footing = true ∧ (∀ g, g ∈ [aNotice none] → g.onLine = none) ∧ (aNotice none).cls ≤ 4
    ∧ run.cfg.station < 64 ∧ (∀ r, r ∈ [(4, 6), (7, 62)] → r.1 < 8 ∧ r.2 < 64)
    ∧ (∀ r, r ∈ [(4, 6), (7, 62)] → 4 * 64 + run.cfg.station ≤ r.1 * 64 + r.2) ∧ 4 * 64 + 4 < 4 * 64 + run.cfg.station := by
  decide +kernel

/-- A frame of an owner on the line. -/
def onLine (o : Owner) : TxFrame := ⟨1, 6, [.closing 5], o, some 0x20⟩

def sent (o : Owner) (s : State) : State := { s with line := { s.line with queue := [onLine o] } }

def holdingBoth : State := { run with spine := { run.spine with down := .holding deskward, up := .holding homeward } }

theorem witness_OutcomeOfOfferOrTaken :
    (∀ o : Owner, (sent o holdingBoth).live = true
      ∧ (sent o holdingBoth).line.queue.find? (fun g => g.onLine.isSome) = some (onLine o))
    ∧ holdingBoth.spine.down = .holding deskward ∧ holdingBoth.spine.up = .holding homeward
    ∧ (onLine (.taken 4711 .down 3)).owner = .taken 4711 .down 3
    ∧ (Instr.frameAbandoned still = .frameAbandoned still ∧ false = false) :=
  ⟨fun _ => ⟨rfl, rfl⟩, rfl, rfl, rfl, rfl, rfl⟩

def aShutter (st : ShutterState) : Shutter := ⟨st, false, some ⟨0, 0⟩, some ⟨0, 0⟩, some ⟨0, 0⟩⟩

def withShutter (st : ShutterState) : State := { run with cfg := rackB, fire := { run.fire with shutter := some (aShutter st) } }

def withCall (st : CallState) (own : Option (Nat × Nat)) : State :=
  { withDir stocked with placement := ⟨0, [aCall 17 st own]⟩ }

theorem witness_OutcomeOfClaimOrClosing :
    (sent (.claim ⟨3, 17⟩) (withCall .claimSent (some (0, 4711)))).line.queue.find? (fun g => g.onLine.isSome)
      = some (onLine (.claim ⟨3, 17⟩))
    ∧ (withCall .claimSent (some (0, 4711))).placement.calls.find? (fun y => y.call == ⟨3, 17⟩)
      = some (aCall 17 .claimSent (some (0, 4711)))
    ∧ (withCall .claimSent (some (0, 4711))).live = true
    ∧ (sent .closing (withShutter .clearing)).line.queue.find? (fun g => g.onLine.isSome) = some (onLine .closing)
    ∧ (withShutter .clearing).fire.shutter = some (aShutter .clearing) ∧ (withShutter .clearing).live = true := by decide +kernel

theorem witness_RowsHeardWithoutEffect :
    reachAll 0 [.closed 47, .opened 47, .safe ⟨0, 0, 0⟩, .requestDone (.head 1 none 1), .requestFailed (.head 1 none 0),
      .binStored ⟨1, at7.name⟩, .binOverdue ⟨1, .crane, 0, 0⟩, .stationReport (stationReport run), .stockRefused ⟨1, at7.name, 1⟩,
      .fault (faultBody .craneStall)] run
    ∧ Hears (to5 3 0) run ∧ classGood (to5 3 0) [.stop, .closing 5] = false :=
  ⟨reachAll_of (by decide +kernel), hears (by decide +kernel), by decide +kernel⟩

/-- The rows of the gateways. -/
def gatewayItems : List Item :=
  [.lend ⟨1, 4711, 0, 3, .normal⟩, .cancel 1, .stockAt at7.name, .stock ⟨1, 1, 0, 0, 0, false⟩, .stockEnd, .stop, .resume,
    .writeOff 4711, .query]

theorem witness_WrongSenderIgnored :
    reachAll 61 [.restore ⟨0, 4⟩] run ∧ 61 ≠ run.cfg.firePanel
    ∧ reachAll 47 [.roomCall ⟨⟨3, 1⟩, 1, 1, false, 50⟩] run ∧ reachAll 56 [.roomCall ⟨⟨3, 1⟩, 1, 1, false, 50⟩] run
    ∧ reachAll 62 gatewayItems run ∧ 62 ≠ run.cfg.gateway1 ∧ 62 ≠ run.cfg.gateway2 :=
  ⟨reachAll_of (by decide +kernel), by decide +kernel, reachAll_of (by decide +kernel), reachAll_of (by decide +kernel),
    reachAll_of (by decide +kernel), by decide +kernel, by decide +kernel⟩

def inMode (m : Mode) : State := { withDir stocked with mode := m }

theorem witness_ModeGateTurnsAway :
    (inMode .halted).mode.working = false
    ∧ reachAll 48 [.offer deskward, .roomCall ⟨⟨0, 1⟩, 1, 1, false, 50⟩, .bid ⟨⟨0, 1⟩, 0, 0, 0⟩, .claim ⟨⟨0, 1⟩, 0, 0⟩] (inMode .halted)
    ∧ reachAll 55 [.roomCall ⟨⟨7, 1⟩, 1, 1, false, 50⟩] (inMode .stocking) ∧ isDeskStation 48 = true ∧ isDeskStation 55 = true
    ∧ isGateway rack 60 = true ∧ reachAll 60 gatewayItems (inMode .stocking) ∧ reachAll 61 gatewayItems (inMode .fireSafe)
    ∧ reachAll 60 gatewayItems (inMode .halted) ∧ toOwn rack (to5 3 60) = true ∧ (inMode .fire).stockEnded = true
    ∧ ((entered still (to5 3 60) (inMode .stocking)).dir.bin 4711).isSome = true :=
  ⟨rfl, reachAll_of (by decide +kernel), reachAll_of (by decide +kernel), by decide, by decide, by decide +kernel,
    reachAll_of (by decide +kernel), reachAll_of (by decide +kernel), reachAll_of (by decide +kernel), by decide +kernel, rfl,
    by decide +kernel⟩

theorem witness_AlarmHeard :
    Reaches (toAll 0 23) [.alarm ⟨0, 0, .smoke, 23⟩] burning ∧ Reaches (toAll 0 23) [.alarm ⟨0, 255, .smoke, 23⟩] burning
    ∧ (burning.fire.alarms.get 0).alarmed = true ∧ Reaches (toAll 0 23) [.alarm ⟨7, 1, .panel, 62⟩] (withShutter .clearing)
    ∧ ((withShutter .clearing).fire.alarms.get 7).alarmed = false :=
  ⟨reaches (by decide +kernel), reaches (by decide +kernel), by decide +kernel, reaches (by decide +kernel), by decide +kernel⟩

theorem witness_ClosingAnswered :
    Reaches (to5 0 6) [.closing 5] run ∧ Reaches (to5 0 7) [.closing 5] run ∧ (to5 0 7).sender ≠ run.cfg.up
    ∧ (to5 0 6).sender = run.cfg.up ∧ still.down.entry = false ∧ still.up.position = false ∧ run.spine.outUp = none :=
  ⟨reaches (by decide +kernel), reaches (by decide +kernel), by decide +kernel, by decide +kernel, rfl, rfl, rfl⟩

/-- The station with a boundary, in compartment 1, beside compartment 0; compartments 0, 1 and 7 alarmed. -/
def burningB : State := { withShutter .shut with
  fire := { (withShutter .shut).fire with alarms := Vector.ofFn fun c => ⟨c.val < 2 || c.val == 7, 4, 4, true, false, false, some 0⟩ } }

theorem witness_RestoreHeard :
    reachAll 62 [.restore ⟨0, 4⟩, .restore ⟨1, 4⟩, .restore ⟨7, 4⟩, .restore ⟨7, 5⟩, .restore ⟨6, 4⟩] burningB
    ∧ 62 = rackB.firePanel ∧ ownComp rackB = 1 ∧ bordersShutter rackB 0 = true ∧ bordersShutter rackB 7 = false
    ∧ ((burningB.fire.alarms.get 7).alarmed = true ∧ (burningB.fire.alarms.get 7).epoch = 4)
    ∧ (burningB.fire.alarms.get 6).alarmed = false :=
  ⟨reachAll_of (by decide +kernel), by decide +kernel, by decide +kernel, by decide +kernel, by decide +kernel, by decide +kernel,
    by decide +kernel⟩

/-- Bins that pass through, come home, and come home to be adopted. -/
def through : TravelRecord := { homeward with home := 6 }
def adopted : TravelRecord := { homeward with bin := 9 }

theorem witness_OfferAccepted :
    reachAll 6 [.offer deskward] run ∧ reachAll 4 [.offer through, .offer homeward, .offer adopted] (withDir (outAt (.lane 4 .up)))
    ∧ (offerBoundary run 6 = true ∧ offerBoundary run 4 = true ∧ 6 = run.cfg.up ∧ 4 = run.cfg.down ∧ portOutReady run = false)
    ∧ (run.cfg.up ≠ 63 ∧ run.cfg.segment < through.home ∧ through.home ≠ run.cfg.station ∧ homeward.home = run.cfg.station)
    ∧ ((outAt (.lane 4 .up)).bin 4711).isSome = true ∧ (outAt (.lane 4 .up)).bin 9 = none
    ∧ ((outAt (.lane 4 .up)).adoptSlot rack adopted).isSome = true :=
  ⟨reachAll_of (by decide +kernel), reachAll_of (by decide +kernel), by decide +kernel, by decide +kernel, by decide +kernel,
    by decide +kernel, by decide +kernel⟩

/-- A rack whose column faces bear nothing: no slot can be adopted. -/
def noRoom : State := { run with cfg := { rack with columnMassLimit := 0 } }

theorem witness_OfferRefused :
    reachAll 4 [.offer deskward] run ∧ 4 ≠ run.cfg.up ∧ reachAll 6 [.offer homeward] run ∧ 6 ≠ run.cfg.down
    ∧ (Reaches (to5 1 6) [.offer deskward] { run with cfg := rackB } ∧ offerBoundary { run with cfg := rackB } 4 = false
      ∧ Reaches (to5 1 4) [.offer homeward] { run with cfg := rackB })
    ∧ (offerBoundary holdingBoth 6 = true ∧ holdingBoth.spine.down ≠ .empty ∧ holdingBoth.spine.up ≠ .empty)
    ∧ (let s := { run with spine := { run.spine with portOut := .holding deskward, lastGrant := .upNeighbour } }
       downOpen s = true ∧ s.spine.down = .empty)
    ∧ reachAll 4 [.offer { homeward with home := 4 }] run ∧ 4 ≤ run.cfg.segment
    ∧ (reachAll 4 [.offer { homeward with bin := 0 }] run ∧ reachAll 4 [.offer { homeward with home := 9 }] holdingBoth)
    ∧ (reachAll 4 [.offer homeward] noRoom ∧ noRoom.dir.bin 4711 = none ∧ noRoom.dir.adoptSlot noRoom.cfg homeward = none
      ∧ noRoom.spine.up = .empty ∧ noRoom.spine.portIn = .empty) :=
  ⟨reachAll_of (by decide +kernel), by decide +kernel, reachAll_of (by decide +kernel), by decide +kernel,
    ⟨reaches (by decide +kernel), by decide +kernel, reaches (by decide +kernel)⟩, by decide +kernel, by decide +kernel,
    reachAll_of (by decide +kernel), by decide +kernel, ⟨reachAll_of (by decide +kernel), reachAll_of (by decide +kernel)⟩,
    reachAll_of (by decide +kernel), by decide +kernel, by decide +kernel, rfl, rfl⟩

/-- Bins 4711 in (L, 7, 3) and 5120 in (R, 12, 5). -/
def twoBins : Directory := stocked.enterBin rack ⟨5120, 1, 0, 0, 0, false⟩ ⟨.R, 12, 5⟩ 0 0

def entry5120 : BinEntry := stockEntry rack ⟨5120, 1, 0, 0, 0, false⟩ ⟨.R, 12, 5⟩ 0 0

/-- A visit number and bin, rank, stamp and state. -/
def visitOf (n bin : Nat) (rank : Rank) (stamp : Time) (st : VisitState) : Visit :=
  ⟨n, bin, 3, rank, [n], none, stamp, BitVec.ofNat 32 n, st⟩

/-- At clock 400,000, with a crane in a state, a current and a staged move. -/
def planning (visits : List Visit) (stow : StowState) (mark : Bool) (st : CraneState) (current staged : Option Move) : State :=
  { withDir twoBins with
    clock := 400000, planner := { run.planner with visits := visits, stow := stow, mark := mark }
    crane := { run.crane with state := st, current := current, staged := staged } }

def higher (a b : Rank) : Bool := a == .urgent && b != .urgent || a == .room && b == .normal

/-- `chosen` of the statement, over the visits of the state one by one. -/
def chosenB (s : State) (here : Pos) (v : Visit) (e : BinEntry) : Bool :=
  let ageOf := fun u : Visit => (s.clock - u.stamp).toNat
  let score := fun (u : Visit) (x : BinEntry) => (legTime s.cfg here x.slot.pos true : Int) - (ageOf u / 2 : Nat)
  let first := fun a b : Visit => decide ((b.seq - a.seq).toNat < 2 ^ 31) && a.seq != b.seq
  let limit := s.cfg.ageLimit * 1000
  s.planner.visits.contains v && v.state == .ready && s.dir.bin v.bin == some e
    && (s.planner.stow != .ready || !s.planner.mark && v.rank != .normal)
    && s.planner.visits.all fun u => u == v || u.state != .ready || match s.dir.bin u.bin with
      | none => true
      | some x => higher v.rank u.rank || v.rank == u.rank
        && (decide (limit ≤ ageOf v) && (decide (ageOf u < ageOf v) || ageOf u == ageOf v && first v u)
          || decide (ageOf v < limit) && decide (ageOf u < limit)
            && (decide (score v e < score u x) || score v e == score u x && first v u))

def fetch7 (n : Nat) : Move := ⟨.fetch, .slot at7, some n, false, 7533, none⟩
def fetch12 (n : Nat) : Move := ⟨.fetch, .slot ⟨.R, 12, 5⟩, some n, false, 8000, none⟩
def deliver (n : Nat) : Move := ⟨.deliver, .pos ⟨0, 3⟩, some n, true, 7533, some ⟨0, 9916⟩⟩

/-- A selection with an empty stage: by rank, by age at the limit, by score, by sequence, with the stow ready behind; the stow taken
by its mark or before NORMAL work; nothing ready; and the states in which the planner selects nothing. -/
theorem witness_EventEndKeepsRecords_selection :
    let here : Pos := ⟨hold 0 rack.nc still.encCol, hold 1 rack.nl still.encLevel⟩
    let idle := fun visits stow => planning visits stow false .idle none none
    let a := fun stamp => visitOf 9 4711 .normal stamp .ready
    let b := fun rank stamp => visitOf 10 5120 rank stamp .ready
    (chosenB (idle [a 399000, b .urgent 399000] .ready) here (b .urgent 399000) entry5120 = true
      ∧ chosenB (idle [a 300000, b .normal 100000] .absent) here (b .normal 100000) entry5120 = true
      ∧ chosenB (idle [a 399000, b .normal 399000] .absent) here (a 399000) entry4711 = true
      ∧ chosenB (idle [a 399000, { a 399000 with number := 11, desk := 1, seq := 11 }] .absent) here (a 399000) entry4711 = true)
    ∧ ([(CraneState.holding, deliver 8), (.moving, deliver 8), (.moving, fetch7 8)].all fun x =>
        chosenB (planning [a 399000] .absent false x.1 (some x.2) none) x.2.target.at (a 399000) entry4711) = true
    ∧ (run.mode.working = true ∧ run.planner.passed = none ∧ run.crane.staged = none ∧ run.crane.state = .idle
      ∧ run.crane.current = none)
    ∧ ((idle [{ a 0 with state := .waitingBin }] .absent).planner.visits.all fun v => v.state != .ready) = true
    ∧ (idle [a 0] .ready).planner.stow = .ready ∧ (a 0).rank = .normal
    ∧ (planning [b .urgent 0] .ready true .holding (some (deliver 8)) none).planner.mark = true
    ∧ (inMode .halted).mode.working = false ∧ (inMode .halted).crane.staged = none
    ∧ { deliver 8 with kind := .park }.kind = .park := by decide +kernel

/-- A staged FETCH of a NORMAL visit stays before NORMAL work and an unmarked stow, and gives way to the marked stow and to an
URGENT visit; a bound DELIVER stays. -/
theorem witness_EventEndKeepsRecords_displacement :
    let w := visitOf 9 4711 .normal 0 .staged
    let v := fun rank => visitOf 10 5120 rank 0 .ready
    let s := fun rank stow mark => planning [w, v rank] stow mark .moving (some (deliver 8)) (some (fetch7 9))
    ((s .urgent .absent false).crane.staged = some (fetch7 9) ∧ (fetch7 9).visit = some 9 ∧ (fetch7 9).bound = false
      ∧ (s .urgent .absent false).planner.visit 9 = some w ∧ (deliver 9).bound = true)
    ∧ (higher .normal .normal = false ∧ higher .room .normal = true ∧ higher .urgent .room = true)
    ∧ (let u := visitOf 9 4711 .urgent 0 .staged
       let t := planning [u, v .urgent] .ready false .moving (some (deliver 8)) (some (fetch7 9))
       t.planner.visit 9 = some u ∧ t.planner.stow = .ready ∧ t.planner.mark = false ∧ higher .urgent .urgent = false)
    ∧ ((s .urgent .ready true).planner.stow = .ready ∧ (s .urgent .ready true).planner.mark = true)
    ∧ chosenB (s .urgent .absent false) (fetch7 9).target.at (v .urgent) entry5120 = true
    ∧ chosenB (s .room .ready false) (fetch7 9).target.at (v .room) entry5120 = true := by decide +kernel

/-- The lanes with a bin, their routes open and closed, an OFFER waiting and none; the merge granted, kept and neither; and the
diversion of a bin OUT, STORED, adopted, and without a slot. -/
theorem witness_EventEndKeepsRecords_spine :
    let passing := { holdingBoth with spine := { holdingBoth.spine with up := .holding { homeward with home := 9 } } }
    (holdingBoth.spine.down = .holding deskward ∧ routeOpenFor holdingBoth deskward = true
      ∧ (offerPeer holdingBoth.cfg .down deskward).isSome = true ∧ holdingBoth.spine.outDown = none
      ∧ holdingBoth.spine.retryDown = none ∧ holdingBoth.line.queue = [])
    ∧ (passing.spine.up = .holding { homeward with home := 9 } ∧ routeOpenFor passing { homeward with home := 9 } = true
      ∧ (offerPeer passing.cfg .up { homeward with home := 9 }).isSome = true ∧ passing.spine.outUp = none
      ∧ passing.spine.retryUp = none)
    ∧ (routeOpenFor { holdingBoth with cfg := rackB } deskward = false
      ∧ routeOpenFor { passing with cfg := rackB, spine := { passing.spine with routeOpen := false } } deskward = false)
    ∧ (let s := fun waiting last => { run with spine := { run.spine with portOut := .holding deskward, waiting := waiting, lastGrant := last } }
       (s false .portOut).spine.portOut = .holding deskward ∧ (s true .upNeighbour).mode.working = true
         ∧ downOpen (s true .portOut) = true ∧ (s true .portOut).spine.down = .empty ∧ (s true .portOut).spine.kept = false)
    ∧ (let s := fun d => { withDir d with
         pins := { still with up := ⟨false, true⟩ }, spine := { run.spine with up := .holding homeward } }
       (s stocked).spine.up = .holding homeward ∧ homeward.dest = .home ∧ homeward.home = (s stocked).cfg.station
         ∧ (s stocked).pins.up.position = true ∧ (s stocked).spine.outUp = none ∧ (s stocked).spine.portIn = .empty
         ∧ (outAt (.lane 4 .up)).bin homeward.bin = some { entry4711 with status := .out (.lane 4 .up) 0 }
         ∧ stocked.bin homeward.bin = some entry4711 ∧ entry4711.status = .stored
         ∧ run.dir.bin homeward.bin = none ∧ (run.dir.adopt rack 0 homeward (.lane 5 .up)).isSome = true
         ∧ run.dir.adopt noRoom.cfg 0 homeward (.lane 5 .up) = none) := by decide +kernel

/-- A quiet CLEARING shutter with and without a down neighbour and with its retry timer running; a station of FIRE that has come to
rest; a call waiting for evaluation, alone and behind another. -/
theorem witness_EventEndKeepsRecords_fire :
    let clearing := fun (down : Nat) (retry : Option Timer) => { run with
      cfg := { rackB with down := down }
      fire := { run.fire with shutter := some { aShutter .clearing with retry := retry } } }
    ((clearing 63 none).fire.shutter = some { aShutter .clearing with retry := none } ∧ (clearing 63 none).spine.outDown = none
      ∧ (clearing 63 none).spine.inUp = none ∧ (clearing 63 none).pins.boundary = false ∧ (clearing 63 none).cfg.down = 63
      ∧ (clearing 4 none).cfg.down ≠ 63 ∧ (clearing 4 none).line.queue = []
      ∧ (clearing 4 (some ⟨0, 0⟩)).fire.shutter = some (aShutter .clearing))
    ∧ (let s := { run with mode := .fire, crane := { run.crane with state := .parked } }
       s.mode = .fire ∧ s.crane.state = .parked ∧ s.spine.inDown = none ∧ s.spine.inUp = none ∧ s.spine.outDown = none
         ∧ s.spine.outUp = none ∧ s.fire.shutter = none)
    ∧ (withCall .waitingEval none).placement.calls.find? (fun y => y.state == .waitingEval) = some (aCall 17 .waitingEval none)
    ∧ ((withCall .waitingEval none).placement.calls.all fun y => y.state != .evaluating) = true
    ∧ (aCall 17 .evaluating none).state = .evaluating := by decide +kernel

/-- An entry to FIRE with a bound and with a free move staged, from IDLE, HOLDING, and moving with the rest of the move within the
fire grace of 5 s and over it; a mode that leaves RUN with four calls open. -/
theorem witness_ModeDerived :
    newMode run = run.mode
    ∧ (Mode.run.working = true ∧ (inMode .halted).mode.working = false ∧ CallsInv { full with mode := .halted })
    ∧ (Mode.run.fiery = false ∧ (inMode .fire).mode.fiery = true ∧ Mode.fireSafe.fiery = true)
    ∧ ((deliver 9).bound = true ∧ (fetch7 9).bound = false ∧ (fetch7 9).kind = .fetch ∧ (fetch7 9).visit = some 9
      ∧ (let t : Move := ⟨.takeIn, .pos ⟨0, 3⟩, none, false, 5000, none⟩
         (planning [] .staged false .holding (some (deliver 8)) (some t)).planner.stow = .staged ∧ t.bound = false))
    ∧ (run.crane.staged = none ∧ run.crane.state = .idle
      ∧ (planning [] .absent false .holding (some (deliver 8)) none).crane.state = .holding)
    ∧ (let s := fun estimate => planning [] .absent false .moving (some { fetch7 9 with estimate := estimate, timer := some ⟨399000, 0⟩ }) none
       (s 6000).crane.state = .moving ∧ (s 6000).crane.staged = none
         ∧ 6000 - ((s 6000).clock - 399000).toNat ≤ (s 6000).cfg.fireGrace * 1000
         ∧ (s 6001).cfg.fireGrace * 1000 < 6001 - ((s 6001).clock - 399000).toNat) :=
  ⟨by decide +kernel, ⟨rfl, rfl, by decide +kernel, by decide +kernel, by decide +kernel⟩, by decide +kernel, by decide +kernel,
    by decide +kernel, by decide +kernel⟩

def aHandoff (bin peer : Nat) : Handoff := ⟨bin, peer, ⟨0, 0⟩, some { homeward with bin := bin }⟩

/-- A station with a transfer out of both lanes, and one whose lanes lost handoffs have left BLOCKED. -/
def bothOut : State := { run with spine := { run.spine with
  down := .holding deskward, outDown := some (aHandoff 9105 48), up := .holding homeward, outUp := some (aHandoff 4711 6) } }

def bothLost : State := { run with spine := { run.spine with down := .blocked none (some (9105, 48)), up := .blocked none (some (4711, 6)) } }

/-- The taker of each lane's bin, another bin, and a late TAKEN of each lane. -/
theorem witness_TakenHeard :
    (reachAll 48 [.taken ⟨9105, 48, .none⟩, .taken ⟨9106, 48, .none⟩] bothOut ∧ reachAll 6 [.taken ⟨4711, 6, .up⟩] bothOut)
    ∧ (reachAll 48 [.taken ⟨9105, 48, .none⟩] bothLost ∧ reachAll 6 [.taken ⟨4711, 6, .up⟩] bothLost)
    ∧ (still.down.entry = false ∧ still.down.position = false ∧ still.up.entry = false ∧ still.up.position = false)
    ∧ ([bothOut, bothLost].map fun s =>
        let t := after (.taken still (toAll 1 48) ⟨9105, 48, .none⟩ []) s
        let u := after (.taken still (toAll 1 6) ⟨4711, 6, .up⟩ []) t
        (t.spine.down, u.spine.up)) = [(.empty, .empty), (.empty, .empty)]
    ∧ (after (.taken still (toAll 1 48) ⟨9106, 48, .none⟩ []) bothOut).spine.down = .holding deskward :=
  ⟨⟨reachAll_of (by decide +kernel), reachAll_of (by decide +kernel)⟩, ⟨reachAll_of (by decide +kernel), reachAll_of (by decide +kernel)⟩,
    by decide, by decide +kernel, by decide +kernel⟩

theorem witness_FaultsHeard :
    (let s := withDir (outAt (.lane 6 .up))
     let b := { faultBody .handoffLost with bin := 4711, code := 5 }
     Reaches (to5 4 6) [.fault b] s ∧ b.kind = .handoffLost
       ∧ s.dir.bin 4711 = some { entry4711 with status := .out (.lane 6 .up) 0 } ∧ b.code = Lane.up.place.num
       ∧ b.code ≠ Lane.down.place.num)
    ∧ (let b := { faultBody .binCaught with bin := 4711, place := 6 }
       (faultBody .binCaught).kind = .binCaught ∧ Reaches (to5 4 7) [.fault b] run ∧ 7 ≠ run.cfg.up
       ∧ Reaches (to5 4 6) [.fault b] run ∧ 6 = run.cfg.up
       ∧ Reaches (to5 4 6) [.fault b] { run with spine := { run.spine with inDown := some (aHandoff 4711 6) } }
       ∧ Reaches (to5 4 6) [.fault b] { run with spine := { run.spine with outUp := some (aHandoff 4711 6) } }) :=
  ⟨⟨reaches (by decide +kernel), rfl, by decide +kernel, by decide +kernel, by decide +kernel⟩, rfl, reaches (by decide +kernel),
    by decide +kernel, reaches (by decide +kernel), by decide +kernel, reaches (by decide +kernel), reaches (by decide +kernel)⟩

/-- The least and the largest room call; three calls open leave room for a fourth. -/
theorem witness_RoomCallHeard :
    let s := { run with placement := ⟨0, [aCall 1 .noBid none, aCall 2 .noBid none, aCall 3 .noBid none]⟩ }
    Reaches (toAll 2 51) [.roomCall ⟨⟨3, 4⟩, 1, 1, false, 0⟩] s ∧ Reaches (toAll 2 55) [.roomCall ⟨⟨7, 4⟩, 64, 250, true, 65535⟩] s
    ∧ 7 ∈ s.cfg.restrictedDesks ∧ downOpen s = true ∧ s.crane.state ≠ .faulted ∧ s.placement.calls.length < 4
    ∧ (∀ x, x ∈ s.placement.calls → x.call ≠ ⟨3, 4⟩ ∧ x.call ≠ ⟨7, 4⟩)
    ∧ Reaches (toAll 2 51) [.roomCall ⟨⟨3, 3⟩, 1, 1, false, 0⟩] s ∧ Reaches (toAll 2 51) [.roomCall ⟨⟨3, 4⟩, 65, 251, false, 0⟩] s :=
  ⟨reaches (by decide +kernel), reaches (by decide +kernel), by decide +kernel, by decide +kernel, by decide +kernel,
    by decide +kernel, by decide +kernel, reaches (by decide +kernel), reaches (by decide +kernel)⟩

/-- The states an open call can be in when another station's CLAIM is heard, addressed to desk 3 or to the station. -/
theorem witness_BidAndClaimHeard :
    Reaches (toAll 2 9) [.bid ⟨⟨3, 17⟩, 0, 9, 1⟩] (withCall .bidSent (some (0, 4711)))
    ∧ (Hears ⟨2, 9, false, 51, 0x20⟩ run ∧ classGood ⟨2, 9, false, 51, 0x20⟩ [.claim ⟨⟨3, 17⟩, 9, 1⟩] = true ∧ run.mode.working = true
      ∧ addressed run.cfg ⟨2, 9, false, 51, 0x20⟩ = false ∧ addressed run.cfg (toAll 2 9) = true)
    ∧ (∀ x, x ∈ run.placement.calls → x.call ≠ ⟨3, 17⟩)
    ∧ ∀ st own, (withCall st own).placement.calls.find? (fun y => y.call == ⟨3, 17⟩) = some (aCall 17 st own) :=
  ⟨reaches (by decide +kernel), ⟨hears (by decide +kernel), by decide +kernel, rfl, by decide +kernel, by decide +kernel⟩,
    by decide +kernel, fun _ _ => rfl⟩

def aVisit (st : VisitState) (requests : List Nat) (room : Option RoomPart) : Visit :=
  ⟨9, 4711, 3, .normal, requests, room, 0, 1, st⟩

def withVisit (st : VisitState) (requests : List Nat) (room : Option RoomPart) : State := { withDir stocked with
  planner := { run.planner with
    visits := [aVisit st requests room], pool := requests.map fun i => (i, ⟨0, 3, .normal, .queued, 9⟩) } }

/-- With no visit, and with a waiting one of seven requests. -/
theorem witness_LendTaken :
    Reaches (to5 3 60) [.lend ⟨0xFFFFFF, 4711, 0, 3, .urgent⟩] (withDir stocked) ∧ isGateway rack 60 = true
    ∧ stocked.bin 4711 = some entry4711 ∧ (withDir stocked).planner.waitingVisit 4711 3 = none
    ∧ Reaches (to5 3 61) [.lend ⟨8, 4711, 0, 3, .normal⟩] (withVisit .ready [1, 2, 3, 4, 5, 6, 7] none)
    ∧ ((visitsBeforePort (withVisit .ready [1, 2, 3, 4, 5, 6, 7] none) 4711 3).map fun v => v.requests.length).sum = 7
    ∧ tblGet (withVisit .ready [1, 2, 3, 4, 5, 6, 7] none).planner.pool 8 = none
    ∧ (withVisit .ready [1, 2, 3, 4, 5, 6, 7] none).planner.waitingVisit 4711 3
      = some (aVisit .ready [1, 2, 3, 4, 5, 6, 7] none) :=
  ⟨reaches (by decide +kernel), by decide +kernel, by decide +kernel, by decide +kernel, reaches (by decide +kernel),
    by decide +kernel, by decide +kernel, by decide +kernel⟩

/-- A won room part: for the visit that waits, and for a visit of its own. -/
theorem witness_OutcomeOfClaimOrClosing_room :
    (withVisit .ready [1] none).planner.visits.find? (fun v => decide (v.bin = 4711 ∧ v.desk = 3
      ∧ (v.state = .waitingBin ∨ v.state = .waitingRoute ∨ v.state = .ready))) = some (aVisit .ready [1] none)
    ∧ ((withVisit .fetching [1] none).planner.visits.all fun v => v.state != .waitingBin && v.state != .waitingRoute && v.state != .ready)
      = true
    ∧ (withVisit .fetching [1] none).planner.visits.length < 24
    ∧ 1 ≤ (withVisit .fetching [1] none).planner.nextVisit ∧ (withVisit .fetching [1] none).planner.nextVisit ≤ 255 := by decide +kernel

/-- The gate's further refusals: a CANCEL of no request and of one, a WRITE_OFF and a STOCK_END in FIRE before the stock end, and a
frame that has drawn its STOCK notice. -/
theorem witness_ModeGateTurnsAway_gateways :
    (reachAll 60 gatewayItems { inMode .fire with stockEnded := false } ∧ (inMode .fire).mode.fiery = true)
    ∧ (tblGet (entered still (to5 3 60) (inMode .stocking)).planner.pool 1 = none ∧ isGateway rack 60 = true ∧ toOwn rack (to5 3 60) = true)
    ∧ (let s := { withVisit .ready [1] none with mode := .fireSafe }
       Reaches (to5 3 60) [.cancel 1] s ∧ tblGet (entered still (to5 3 60) s).planner.pool 1 = some ⟨0, 3, .normal, .queued, 9⟩
         ∧ (entered still (to5 3 60) s).planner.visit 9 = some (aVisit .ready [1] none))
    ∧ { refused with stockNotice := true }.stockNotice = true :=
  ⟨⟨reachAll_of (by decide +kernel), rfl⟩, by decide +kernel,
    ⟨reaches (by decide +kernel), by decide +kernel, by decide +kernel⟩, rfl⟩

theorem witness_LendRefused :
    Reaches (to5 3 60) [.lend ⟨1, 1, 0, 3, .normal⟩] (withVisit .ready [1] none) ∧ (withVisit .ready [1] none).dir.bin 1 = none
    ∧ Reaches (to5 3 60) [.lend ⟨1, 4711, 0, 3, .normal⟩] (withVisit .ready [1] none)
    ∧ (tblGet (withVisit .ready [1] none).planner.pool 1).isSome = true
    ∧ (let s := withDir (stocked.setBin 4711 { entry4711 with restricted := true })
       Reaches (to5 3 60) [.lend ⟨1, 4711, 0, 6, .normal⟩] s ∧ tblGet s.planner.pool 1 = none
         ∧ (s.dir.bin 4711).map (·.restricted) = some true ∧ 6 ∉ s.cfg.restrictedDesks)
    ∧ (Reaches (to5 3 60) [.lend ⟨49, 4711, 0, 3, .normal⟩] full ∧ full.planner.pool.length = 48 ∧ tblGet full.planner.pool 49 = none
      ∧ full.dir.bin 4711 = some entry4711) :=
  ⟨reaches (by decide +kernel), by decide +kernel, reaches (by decide +kernel), by decide +kernel,
    ⟨reaches (by decide +kernel), by decide +kernel, by decide +kernel, by decide +kernel⟩,
    reaches (by decide +kernel), by decide +kernel, by decide +kernel, by decide +kernel⟩

theorem witness_CancelHeard :
    reachAll 60 [.cancel 1, .cancel 2] (withVisit .ready [1] none) ∧ toOwn rack (to5 3 60) = true
    ∧ (Reaches (toAll 3 60) [.cancel 2] (withVisit .ready [1] none) ∧ toOwn rack (toAll 3 60) = false
      ∧ tblGet (withVisit .ready [1] none).planner.pool 2 = none)
    ∧ tblGet (withVisit .ready [1] none).planner.pool 1 = some ⟨0, 3, .normal, .queued, 9⟩
    ∧ (∀ st requests room, (withVisit st requests room).planner.visit 9 = some (aVisit st requests room))
    ∧ (VisitState.fetching.fetched = true ∧ VisitState.staged.fetched = false ∧ VisitState.waitingBin.waiting = true)
    ∧ (let s := { withVisit .staged [1] none with
         crane := { run.crane with state := .parked, staged := some ⟨.fetch, .slot at7, some 9, false, 7533, none⟩ } }
       Reaches (to5 3 60) [.cancel 1] s ∧ s.crane.staged = some ⟨.fetch, .slot at7, some 9, false, 7533, none⟩)
    ∧ (let s := { withVisit .fetching [1] none with
         planner := { run.planner with pool := [(1, ⟨0, 3, .normal, .cancelled, 9⟩)], visits := [aVisit .fetching [1] none] } }
       Reaches (to5 3 60) [.cancel 1] s ∧ tblGet s.planner.pool 1 = some ⟨0, 3, .normal, .cancelled, 9⟩) :=
  ⟨reachAll_of (by decide +kernel), by decide +kernel,
    ⟨reaches (by decide +kernel), by decide +kernel, by decide +kernel⟩, by decide +kernel, fun _ _ _ => rfl, ⟨rfl, rfl, rfl⟩,
    ⟨reaches (by decide +kernel), rfl⟩, reaches (by decide +kernel), by decide +kernel⟩

/-- The cursor at a slot whose record is EMPTY, OCCUPIED, RESERVED or BAD, and at end; the corners of the rack. -/
theorem witness_StockHeard :
    let s := fun (d : Directory) (c : Option Slot) => withDir { d with cursor := c }
    let body := fun bin : Nat => Item.stock ⟨bin, 1, 22, 180, 4, false⟩
    reachAll 60 [.stockAt ⟨.L, 1, 1⟩, .stockAt ⟨.R, 40, 12⟩, .stockAt ⟨.L, 41, 12⟩, .stockAt ⟨.L, 0, 1⟩, .stockAt ⟨.L, 1, 13⟩,
      .stockAt SlotName.nowhere, body 4711, body 0, body 12] (s stocked none)
    ∧ (inRack rack ⟨.R, 40, 12⟩ = true ∧ (s stocked none).mode.fiery = false)
    ∧ ((s (outAt .crane) (some at7)).dir.slotState at7 = .reserved 4711 ∧ reachAll 60 [body 12] (s (outAt .crane) (some at7)))
    ∧ ((run.dir.setSlot at7 ⟨.bad, false⟩).slotState at7 = .bad
      ∧ reachAll 60 [body 0, body 12] (s (run.dir.setSlot at7 ⟨.bad, false⟩) (some at7)))
    ∧ ((s stocked (some at40)).dir.slotState at40 = .empty ∧ reachAll 60 [body 4711, body 0, body 12] (s stocked (some at40))
      ∧ stocked.bin 4711 = some entry4711 ∧ entry4711.slot ≠ at40 ∧ stocked.bin 12 = none)
    ∧ ((s stocked (some at7)).dir.slotState at7 = .occupied 4711 ∧ lateVisit (s stocked (some at7)) at7 = false
      ∧ entry4711.promVolume = 0 ∧ entry4711.promMass = 0 ∧ reachAll 60 [body 0] (s stocked (some at7))) :=
  ⟨reachAll_of (by decide +kernel), by decide +kernel, ⟨by decide +kernel, reachAll_of (by decide +kernel)⟩,
    ⟨by decide +kernel, reachAll_of (by decide +kernel)⟩,
    ⟨by decide +kernel, reachAll_of (by decide +kernel), by decide +kernel, by decide +kernel, by decide +kernel⟩,
    by decide +kernel, by decide +kernel, by decide +kernel, by decide +kernel, reachAll_of (by decide +kernel)⟩

/-- An OCCUPIED slot: a late visit, a promise, the same on a doubted slot, the slot's own bin, another, one recorded elsewhere, none. -/
theorem witness_StockHeard_occupied :
    let body := fun bin : Nat => Item.stock ⟨bin, 1, 22, 180, 4, false⟩
    let at7In := fun s : State => { s with dir := { s.dir with cursor := some at7 } }
    let held := stocked.setBin 4711 { entry4711 with promVolume := 2 }
    (reachAll 60 [body 4711] (at7In (withVisit .fetching [1] none))
      ∧ ((at7In (withVisit .fetching [1] none)).planner.visits.any fun v => v.bin == 4711 && !v.state.waiting) = true)
    ∧ (reachAll 60 [body 4711] (at7In (withDir held)) ∧ held.bin 4711 = some { entry4711 with promVolume := 2 }
      ∧ held.slotDoubt at7 = false)
    ∧ (let d := held.setSlot at7 ⟨.occupied 4711, true⟩
       reachAll 60 [body 4711] (at7In (withDir d)) ∧ d.slotDoubt at7 = true ∧ d.slotState at7 = .occupied 4711)
    ∧ (reachAll 60 [body 4711, body 12, body 0] (at7In (withDir stocked)) ∧ entry4711.slot = at7 ∧ stocked.bin 12 = none)
    ∧ (reachAll 60 [body 5120] (at7In (withDir twoBins)) ∧ twoBins.slotState at7 = .occupied 4711
      ∧ twoBins.bin 5120 = some entry5120 ∧ entry5120.slot ≠ at7) :=
  ⟨⟨reachAll_of (by decide +kernel), by decide +kernel⟩, ⟨reachAll_of (by decide +kernel), by decide +kernel⟩,
    ⟨reachAll_of (by decide +kernel), by decide +kernel⟩, ⟨reachAll_of (by decide +kernel), by decide +kernel⟩,
    reachAll_of (by decide +kernel), by decide +kernel⟩

def aMove (k : MoveKind) (t : Target) (v : Option Nat) : Move := ⟨k, t, v, true, 5000, some ⟨0, 0⟩⟩

def withCrane (st : CraneState) (m : Option Move) (c : Option Carried) : State :=
  { withDir (outAt .crane) with crane := { run.crane with state := st, current := m, carried := c, holdTimer := some ⟨0, 0⟩ } }

theorem rack_addressed {sender : Nat} : addressed rack (to5 3 sender) = true := rfl

def onFork : Carried := ⟨4711, some homeward, none, false⟩

/-- Every state of the crane record. -/
theorem witness_StockEndAndStopHeard :
    reachAll 60 [.stockEnd] (inMode .stocking) ∧ reachAll 60 [.stockEnd] (inMode .guard) ∧ isGateway rack 60 = true
    ∧ toOwn rack (to5 3 60) = true
    ∧ (∀ st m c, Reaches (to5 3 60) [.stop] (withCrane st m c) ∧ (withCrane st m c).mode ≠ .halted
      ∧ (withCrane st m c).crane.state = st ∧ (withCrane st m c).crane.current = m ∧ (withCrane st m c).crane.staged = none) :=
  ⟨reachAll_of (by decide +kernel), reachAll_of (by decide +kernel), by decide +kernel, by decide +kernel,
    fun _ _ _ => ⟨⟨⟨rfl, rfl, by decide, show (60 : Nat) ≠ 5 by decide⟩, by decide +kernel, rack_addressed⟩, nofun, rfl, rfl, rfl⟩⟩

/-- The crane of the state a RESUME is taken in, STOPPING, HALTED or FAULTED, with and without a bin carried. -/
theorem witness_ResumeHeard :
    (∀ st m c, Reaches (to5 3 61) [.resume] { withCrane st m c with mode := .halted, stopTaken := true })
    ∧ isGateway rack 61 = true
    ∧ ([(CraneState.stopping, false), (.stopping, true), (.halted, false), (.faulted, false), (.idle, false)].all fun x =>
        [none, some onFork, some { onFork with uncertain := true }].all fun c =>
          let s := withCrane x.1 none c
          let m := (deriveMode { entered still (to5 3 61)
            { s with mode := .halted, stopTaken := true, crane := { s.crane with fireStop := x.2 } } with stopTaken := false }).crane
          m.state == x.1 && m.carried == c && m.fireStop == x.2) = true :=
  ⟨fun _ _ _ => ⟨⟨rfl, rfl, by decide, show (61 : Nat) ≠ 5 by decide⟩, by decide +kernel, rack_addressed⟩, by decide +kernel, by decide +kernel⟩

theorem witness_WriteOffAndQueryHeard :
    (reachAll 60 [.writeOff 4711] (withDir (outAt .unknown))
      ∧ (outAt .unknown).bin 4711 = some { entry4711 with status := .out .unknown 0 })
    ∧ (reachAll 60 [.writeOff 4711] (withDir (outAt (.caught 47)))
      ∧ (outAt (.caught 47)).bin 4711 = some { entry4711 with status := .out (.caught 47) 0 })
    ∧ reachAll 60 [.writeOff 4711] (withDir stocked) ∧ stocked.bin 4711 = some entry4711
    ∧ reachAll 60 [.query] (withDir stocked) ∧ (noticeCount run.line.queue < 6 ∧ run.line.queue.length < 12)
    ∧ reachAll 60 [.query] full ∧ noticeCount full.line.queue = 6 ∧ isGateway rack 60 = true ∧ toOwn rack (to5 3 60) = true
    ∧ CallsInv full ∧ (full.planner.visits.map fun v => v.number).Nodup :=
  ⟨⟨reachAll_of (by decide +kernel), by decide +kernel⟩, ⟨reachAll_of (by decide +kernel), by decide +kernel⟩,
    reachAll_of (by decide +kernel), by decide +kernel, reachAll_of (by decide +kernel), by decide +kernel,
    reachAll_of (by decide +kernel), by decide +kernel, by decide +kernel, by decide +kernel,
    ⟨by decide +kernel, by decide +kernel, by decide +kernel⟩, by decide +kernel⟩

/-- A crane on each kind of move, in position or in its fork cycle, in RUN; for a PARK in FIRE too. -/
theorem witness_InPositionReported :
    (∀ m c, (withCrane .moving m c).live = true ∧ (withCrane .moving m c).crane.state = .moving
      ∧ (withCrane .moving m c).crane.current = m ∧ (withCrane .moving m c).crane.forkCycle = false
      ∧ (withCrane .moving m c).crane.carried = c ∧ (withCrane .moving m c).crane.fireFinish = false)
    ∧ ((outAt .crane).reslot rack 4711 at7 ⟨7, 3⟩).isSome = true
    ∧ (outAt .crane).reslot { rack with columnMassLimit := 0 } 4711 at7 ⟨7, 3⟩ = none
    ∧ burning.fire.alarmed (ownComp burning.cfg) = true ∧ run.fire.alarmed (ownComp run.cfg) = false :=
  ⟨fun _ _ => ⟨rfl, rfl, rfl, rfl, rfl, rfl⟩, by decide +kernel, by decide +kernel, by decide +kernel, by decide +kernel⟩

/-- The crane in its fork cycle with a visit. -/
def forking (k : MoveKind) (st : VisitState) (c : Option Carried) : State := { withVisit st [1] none with
  spine := { run.spine with portIn := .holding homeward }
  crane := { run.crane with state := .moving, forkCycle := true, current := some (aMove k (.slot at7) (some 9)), carried := c } }

theorem witness_ForkTagReported :
    (forking .fetch .fetching none).live = true ∧ (forking .fetch .fetching none).crane.state = .moving
    ∧ (forking .fetch .fetching none).crane.current = some (aMove .fetch (.slot at7) (some 9))
    ∧ (forking .fetch .fetching none).crane.forkCycle = true ∧ (forking .fetch .fetching none).crane.tag = .awaited
    ∧ (forking .fetch .fetching none).planner.visit 9 = some (aVisit .fetching [1] none)
    ∧ (forking .fetch .fetching none).crane.staged = none ∧ (deliver 9).bound = true ∧ (fetch7 10).bound = false
    ∧ (forking .fetch .fetching none).mode.working = true := by decide +kernel

theorem witness_ForkDoneCompletes :
    (∀ k st c, (forking k st c).live = true ∧ (forking k st c).crane.state = .moving ∧ (forking k st c).crane.forkCycle = true
      ∧ (forking k st c).crane.current = some (aMove k (.slot at7) (some 9)) ∧ (forking k st c).crane.carried = c
      ∧ (forking k st c).spine.portIn = .holding homeward ∧ (forking k st c).planner.visit 9 = some (aVisit st [1] none)
      ∧ (forking k st c).crane.tag ≠ .mismatched)
    ∧ (stocked.takeOut 0 4711).isSome = true ∧ (outAt (.desk 3)).takeOut 0 4711 = none
    ∧ run.crane.fireFinish = false ∧ run.crane.staged = none ∧ stocked.bin 4711 = some entry4711 :=
  ⟨fun _ _ _ => ⟨rfl, rfl, rfl, rfl, rfl, rfl, rfl, nofun⟩, by decide +kernel, by decide +kernel, rfl, rfl, by decide +kernel⟩

/-- The crane STOPPING after a STOP, with and without a RESUME kept, and under a fire order. -/
def stopping (k : MoveKind) (fire kept cycle : Bool) (c : Option Carried) : State := { withDir (outAt .crane) with
  spine := { run.spine with portIn := .holding homeward }
  crane := { run.crane with
    state := .stopping, fireStop := fire, resumeKept := kept, forkCycle := cycle, carried := c
    current := some (aMove k (.slot at7) none) } }

theorem witness_StoppedReported :
    ∀ k fire kept cycle c, (stopping k fire kept cycle c).live = true ∧ (stopping k fire kept cycle c).crane.state = .stopping
      ∧ (stopping k fire kept cycle c).crane.current = some (aMove k (.slot at7) none) ∧ (aMove k (.slot at7) none).visit = none
      ∧ (stopping k fire kept cycle c).crane.fireStop = fire ∧ (stopping k fire kept cycle c).crane.resumeKept = kept
      ∧ (stopping k fire kept cycle c).crane.forkCycle = cycle ∧ (stopping k fire kept cycle c).crane.carried = c
      ∧ (stopping k fire kept cycle c).spine.portIn = .holding homeward ∧ still.load = false :=
  fun _ _ _ _ _ => ⟨rfl, rfl, rfl, rfl, rfl, rfl, rfl, rfl, rfl, rfl⟩

/-- A FETCH with its visit, STOPPING before its fork cycle, in it, and after a MISMATCH; and what the move leaves on the fork. -/
theorem witness_StoppedReported_fetch :
    (let s := fun cycle tag fire => { forking .fetch .fetching none with crane := { (forking .fetch .fetching none).crane with
       state := .stopping, forkCycle := cycle, tag := tag, fireStop := fire } }
     ∀ cycle tag fire, (s cycle tag fire).live = true ∧ (s cycle tag fire).crane.state = .stopping
       ∧ (s cycle tag fire).crane.current = some (aMove .fetch (.slot at7) (some 9))
       ∧ (s cycle tag fire).planner.visit 9 = some (aVisit .fetching [1] none) ∧ (s cycle tag fire).crane.fireStop = fire
       ∧ (s cycle tag fire).crane.forkCycle = cycle ∧ (s cycle tag fire).crane.tag = tag)
    ∧ (stocked.takeOut 0 4711).isSome = true
    ∧ ((abandonMove (stopping .takeIn true false false none)).crane.carried = none
      ∧ (abandonMove (stopping .store true false false (some onFork))).crane.carried = some onFork
      ∧ (abandonMove (stopping .store true false true (some onFork))).crane.carried = some { onFork with uncertain := true })
    ∧ { still with load := true }.load = true ∧ run.crane.staged = none :=
  ⟨fun _ _ _ => ⟨rfl, rfl, rfl, rfl, rfl, rfl, rfl⟩, by decide +kernel, by decide +kernel, rfl, rfl⟩

/-- Timers of 0 ms at their expiry, and of 1 ms before it. -/
theorem witness_CraneTimersExpire :
    (∀ st c m, (withCrane st (some m) c).live = true ∧ (withCrane st (some m) c).crane.current = some m
      ∧ (withCrane st (some m) c).crane.state = st ∧ (withCrane st (some m) c).crane.carried = c
      ∧ (withCrane st (some m) c).crane.holdTimer = some ⟨0, 0⟩ ∧ (withCrane st (some m) c).clock = 0)
    ∧ (aMove .fetch (.slot at7) none).timer = some ⟨0, 0⟩ ∧ 0 ≤ ((0 : Time) - 0).toNat ∧ ((0 : Time) - 0).toNat < 1 :=
  ⟨fun _ _ _ => ⟨rfl, rfl, rfl, rfl, rfl, rfl⟩, rfl, by decide, by decide⟩

/-- A visit handed back: with its one request CANCELLED, with it QUEUED, and with another waiting visit to merge with. -/
theorem witness_CraneTimersExpire_handBack :
    let pool := fun st : ReqState => [(1, (⟨0, 3, .normal, st, 9⟩ : Request))]
    let s := fun (st : ReqState) (rest : List Visit) => { withVisit .staged [1] none with
      planner := { run.planner with visits := aVisit .staged [1] none :: rest, pool := pool st } }
    let queued := fun (u : State) (id : Nat) => match tblGet u.planner.pool id with
      | some r => r.state == .queued
      | none => false
    let waiting := fun w : Visit => w.number != 9 && w.bin == 4711 && w.desk == 3
      && (w.state == .waitingBin || w.state == .waitingRoute || w.state == .ready)
    let other := { aVisit .ready [2] none with number := 11, seq := 2 }
    (s .cancelled []).planner.visit 9 = some (aVisit .staged [1] none) ∧ [1].filter (queued (s .cancelled [])) = []
    ∧ [1].filter (queued (s .queued [])) ≠ [] ∧ (s .queued []).planner.visits.find? waiting = none
    ∧ (s .queued [other]).planner.visits.find? waiting = some other := by decide +kernel

/-- A spine under which the station is in RUN. -/
def withSpine (sp : Spine) : State := { run with spine := sp }

theorem witness_ArrivalReported :
    (∀ sp, (withSpine sp).live = true ∧ (withSpine sp).spine = sp)
    ∧ (aHandoff 4711 6).peer ≠ run.cfg.station ∧ (aHandoff 4711 6).record = some homeward ∧ (aHandoff 4711 5).peer = run.cfg.station
    ∧ (run.spine.down = .empty ∧ run.spine.up = .empty ∧ run.spine.portOut = .empty ∧ run.spine.portIn = .empty
      ∧ run.spine.outUp = none) ∧ holdingBoth.spine.down = .holding deskward ∧ (PlaceState.blocked none none).isBlocked = true :=
  ⟨fun _ => ⟨rfl, rfl⟩, by decide +kernel, rfl, by decide +kernel, ⟨rfl, rfl, rfl, rfl, rfl⟩, rfl, rfl⟩

theorem witness_PortAndPositionReported :
    run.live = true ∧ run.spine.outDown = none ∧ run.mode.fiery = false ∧ run.spine.outUp = none
    ∧ (let s := { holdingBoth with mode := .fire }
       s.live = true ∧ s.mode.fiery = true ∧ s.spine.up = .holding homeward ∧ homeward.dest = .home ∧ homeward.home = s.cfg.station
         ∧ { still with up := ⟨false, true⟩ }.up.position = true ∧ s.spine.outUp = none ∧ s.spine.portIn = .empty)
    ∧ (let s := withSpine { run.spine with portIn := .holding homeward, outUp := some (aHandoff 9 6) }
       s.spine.portIn = .holding homeward ∧ s.planner.stow = .absent ∧ s.spine.outUp = some (aHandoff 9 6)
         ∧ (none : Option Nat) ≠ some homeward.bin ∧ some 9 ≠ some homeward.bin) := by decide +kernel

/-- Transfers that are due at once, and one not yet due. -/
theorem witness_SpineTimersExpire :
    (∀ sp, (withSpine sp).live = true ∧ (withSpine sp).spine = sp ∧ (withSpine sp).clock = 0)
    ∧ (aHandoff 4711 6).peer ≠ run.cfg.station ∧ (aHandoff 4711 5).peer = run.cfg.station
    ∧ (aHandoff 4711 6).timer.dur ≤ ((0 : Time) - (aHandoff 4711 6).timer.start).toNat
    ∧ ¬ (1 ≤ ((0 : Time) - 0).toNat) :=
  ⟨fun _ => ⟨rfl, rfl, rfl⟩, by decide +kernel, by decide +kernel, by decide, by decide⟩

/-- No bin eligible on an empty rack, and one, with its price. -/
theorem witness_EvaluationBidsForCheapest :
    (let s := { run with placement := ⟨0, [aCall 17 .evaluating none]⟩ }
     s.live = true ∧ s.placement.calls.find? (fun x => x.state == .evaluating) = some (aCall 17 .evaluating none)
       ∧ eligibleBins (s.setPins still) (aCall 17 .evaluating none) (sweepColumns s.cfg.nc 64 s.cfg.searchSpan s.placement.sweep).1 = [])
    ∧ (let s := { withCall .evaluating none with cfg := { rack with searchSpan := 64 } }
       eligibleBins (s.setPins still) (aCall 17 .evaluating none) (sweepColumns s.cfg.nc 64 s.cfg.searchSpan s.placement.sweep).1
         = [] ++ (4711, entry4711) :: []
       ∧ (s.dir.placeHold s.cfg 4711 (aCall 17 .evaluating none).volume (aCall 17 .evaluating none).mass).isSome = true) := by
  decide +kernel

theorem witness_WindowExpires :
    (∀ st own best, let s := { withDir stocked with placement := ⟨0, [{ aCall 17 st own with window := ⟨0, 0⟩, best := best }]⟩ }
      s.live = true ∧ s.placement.calls.find? (fun y => y.call == ⟨3, 17⟩) = some { aCall 17 st own with window := ⟨0, 0⟩, best := best }
      ∧ (0 : Nat) ≤ (s.clock - 0).toNat ∧ roomPartFits s 4711 3 = true)
    ∧ (50000 = 50000 ∧ 4 < run.cfg.station) ∧ 49999 < 50000
    ∧ roomPartFits (withVisit .ready [] (some ⟨⟨3, 16⟩, 1, 1⟩)) 4711 3 = false :=
  ⟨fun _ _ _ => ⟨rfl, rfl, Nat.zero_le _, rfl⟩, by decide +kernel, by decide, by decide +kernel⟩

/-- A bin OUT exactly as long as the limit, and one millisecond longer. -/
theorem witness_OverdueBinsReported :
    ({ run with planner := { run.planner with sweep := some ⟨0, 60000⟩ }, clock := 60000 }.planner.sweep = some ⟨0, 60000⟩
      ∧ 60000 ≤ ((60000 : Time) - 0).toNat)
    ∧ stocked.bin 4711 = some entry4711 ∧ entry4711.status = .stored
    ∧ (outAt (.desk 3)).bin 4711 = some { entry4711 with status := .out (.desk 3) 0 }
    ∧ ((3600000 : Time) - 0).toNat ≤ rack.outLimit * 60000 ∧ rack.outLimit * 60000 < ((3600001 : Time) - 0).toNat
    ∧ entry4711.overdue = false ∧ (noticeCount run.line.queue < 6 ∧ run.line.queue.length < 12) ∧ 6 ≤ noticeCount full.line.queue := by
  decide +kernel

theorem witness_FireInputsFiltered :
    (State.reset.inReset = false ∧ State.reset.mode = .start ∧ State.reset.fire.smoke = ⟨none, false, false⟩)
    ∧ ({ run with mode := .unconfigured }.inReset = false)
    ∧ (run.live = true ∧ (run.fire.alarms.get (ownComp run.cfg)).alarmed = false)
    ∧ (burning.live = true ∧ (burning.fire.alarms.get (ownComp burning.cfg)).alarmed = true
      ∧ (burning.fire.alarms.get (ownComp burning.cfg)).has .smoke = false)
    ∧ (burningB.live = true ∧ (burningB.fire.alarms.get (ownComp burningB.cfg)).has .smoke = true)
    ∧ (setFilter .smoke ⟨some ⟨0, 100⟩, false, false⟩ { run with clock := 100 }).fire.filter .smoke = ⟨some ⟨0, 100⟩, false, false⟩
    ∧ 100 ≤ ((100 : Time) - 0).toNat := by decide +kernel

theorem witness_ShutterEvents :
    ∀ st, (withShutter st).live = true ∧ (withShutter st).fire.shutter = some (aShutter st) ∧ (aShutter st).state = st
      ∧ (aShutter st).retry = some ⟨0, 0⟩ ∧ (aShutter st).closeLimit = some ⟨0, 0⟩ ∧ (aShutter st).driveLimit = some ⟨0, 0⟩
      ∧ (0 : Nat) ≤ ((withShutter st).clock - 0).toNat ∧ (withShutter st).spine.outDown = none ∧ (withShutter st).spine.inUp = none :=
  fun _ => ⟨rfl, rfl, rfl, rfl, rfl, rfl, Nat.zero_le _, rfl, rfl⟩

/-- Handoffs across the boundary in flight at the close limit; the compartments beside the shutter alarmed, and none. -/
theorem witness_ShutterEvents_boundary :
    (∀ outDown inUp, let s := { withShutter .clearing with
       spine := { run.spine with outDown := outDown, inUp := inUp, down := .holding deskward } }
     s.live = true ∧ s.fire.shutter = some (aShutter .clearing) ∧ s.spine.outDown = outDown ∧ s.spine.inUp = inUp
       ∧ s.spine.down = .holding deskward)
    ∧ (aHandoff 9105 4).peer ≠ rackB.station ∧ (aHandoff 4711 4).record = some homeward
    ∧ (∀ c : Compartment, bordersShutter (withShutter .shut).cfg c = true → ((withShutter .shut).fire.alarms.get c).alarmed = false)
    ∧ ∃ c : Compartment, bordersShutter burningB.cfg c = true ∧ (burningB.fire.alarms.get c).alarmed = true :=
  ⟨fun _ _ => ⟨rfl, rfl, rfl, rfl, rfl⟩, by decide +kernel, rfl, by decide +kernel, 0, by decide +kernel⟩

/-! ## The clauses added for the review: START's end, estimates that held, stores, admissions, answers, moves -/

/-- The clock and the queue after one step. -/
def stepped (s : State) : Time × List Instr := match step s with | .next t => (t.clock, t.pending) | _ => (0, [])

/-- R185, R159: at clock 200 in START the end of the image read waits as a command, with FFh in every octet, and not before. -/
theorem test_read_ends_by_200 :
    stepped { State.reset with clock := 199 } = (200, [.readComplete Pins.unread (List.replicate 128 0xFF)])
    ∧ stepped { State.reset with clock := 198 } = (199, []) ∧ stepped { run with clock := 199 } = (200, []) := by decide +kernel

/-- R186: read complete ends START, here with an image that fails its check. -/
theorem test_read_complete_leaves_start :
    (readComplete image3 { State.reset with clock := 200 }).mode = .unconfigured := by
  simp only [readComplete, image3_bad]
  rfl

/-- A rack of 40 columns of 2 m, crossed at 0.5 m/s: 160 s and more on the x axis (2.6, A Held Axis). -/
def slow : State := { run with cfg := { rack with pc := 2000, vx := 500, ax := 200 } }

/-- R29: the remaining time of a move whose estimate held sets LIMITED at an entry to FIRE, that of another does not. -/
theorem test_remaining_time_limited :
    let moving := fun s : State => { after (.stopped still) (makeCurrent .store (.slot at40) none true s) with limited := false }
    (makeCurrent .store (.slot at40) none true slow).crane.estimateHeld = true
    ∧ (craneEntersFire (moving slow)).limited = true ∧ (craneEntersFire (moving run)).limited = false := by decide +kernel

/-- In START at clock 200 with the end of the read waiting, and before it. -/
theorem witness_EmptyQueueTicksClock_start :
    StartInv State.reset ∧ StartInv { State.reset with clock := 200, pending := [.readComplete still []] }
    ∧ (∃ t, step { State.reset with clock := 199 } = .next t) ∧ { State.reset with clock := 199 }.pending = [] :=
  ⟨⟨fun _ => by decide, fun _ h => absurd h (by decide)⟩,
    ⟨fun _ => by decide, fun _ _ => ⟨rfl, still, [], List.mem_singleton.mpr rfl⟩⟩, next_of (by decide +kernel), rfl⟩

theorem witness_AxisTimeExact_leg :
    legHeld slow.cfg ⟨0, 3⟩ ⟨40, 3⟩ = true ∧ legHeld run.cfg ⟨0, 3⟩ ⟨40, 3⟩ = false := by decide +kernel

/-- A store that takes a room part off and holds the contents it carries, with and without each; a visit that waits for the bin. -/
theorem witness_TakeOutAndStore_contents :
    ([none, some (⟨99, 999, 99, true⟩ : Contents)].all fun content => [none, some (2, 20)].all fun room =>
      ((outAt .crane).store rack 4711 content room).isSome) = true
    ∧ stocked.store rack 4711 none none = none ∧ (outAt .crane).bin 9 = none
    ∧ ((outAt .crane).store rack 4711 (some ⟨99, 999, 99, true⟩) none).bind (fun d => d.bin 4711)
      = some { entry4711 with fill := 24, mass := 200, count := 63, restricted := true } := by decide +kernel

/-- A free TAKE_IN staged behind NORMAL work, before URGENT work, and with its mark. -/
theorem witness_EventEndKeepsRecords_takeIn :
    let v := fun rank => visitOf 10 5120 rank 0 .ready
    let t : Move := ⟨.takeIn, .pos ⟨0, 3⟩, none, false, 5000, none⟩
    let s := fun rank mark => planning [v rank] .staged mark .moving (some (deliver 8)) (some t)
    ((s .urgent false).crane.staged = some t ∧ t.bound = false ∧ t.kind = .takeIn ∧ t.visit = none
      ∧ (s .urgent false).planner.stow = .staged ∧ (s .urgent false).crane.current = some (deliver 8)
      ∧ (s .urgent false).mode.working = true ∧ (s .urgent true).planner.mark = true ∧ (s .normal false).planner.mark = false)
    ∧ chosenB (s .urgent false) t.target.at (v .urgent) entry5120 = true
    ∧ chosenB (s .room false) t.target.at (v .room) entry5120 = true := by decide +kernel

/-- Ready work passed over: the same, a rank higher, another visit, and an idle crane. -/
theorem witness_EventEndKeepsRecords_passed :
    let v := fun rank => visitOf 10 5120 rank 0 .ready
    let s := fun rank st current => { planning [v rank] .absent false st current none with
      planner := { (planning [v rank] .absent false st current none).planner with passed := some [(some 10, 4)] } }
    ((s .normal .holding (some (deliver 8))).planner.passed = some [(some 10, 4)] ∧ (s .normal .holding (some (deliver 8))).crane.state = .holding
      ∧ (s .normal .holding (some (deliver 8))).crane.staged = none ∧ (s .normal .idle none).crane.state = .idle)
    ∧ ¬ (4 < 4) ∧ 1 < 4 ∧ (some 11 : Option Nat) ≠ some 10
    ∧ selectWork (s .normal .holding (some (deliver 8))) = s .normal .holding (some (deliver 8))
    ∧ (selectWork (s .urgent .holding (some (deliver 8)))).crane.staged.isSome = true
    ∧ (selectWork (s .normal .idle none)).crane.state = .moving := by decide +kernel

/-- A queue with notices that wait, one of waiting TRANSFER frames alone, one of FIRE frames; a TAKEN below its third sending and at
it; a call with a hold. -/
theorem witness_OutcomeOfOfferOrTaken_admission :
    let fireFrames := { run with line := { run.line with queue := List.replicate 12 (⟨0, 63, [.closed 5], .plain, none⟩ : TxFrame) } }
    let transfer : TxFrame := ⟨1, 6, [.closing 5], .plain, none⟩
    (classOrdered full.line.queue = true ∧ classOrdered run.line.queue = true ∧ classOrdered fireFrames.line.queue = true
      ∧ 6 ≤ noticeCount full.line.queue ∧ 12 ≤ full.line.queue.length)
    ∧ (full.line.queue = (List.replicate 6 transfer ++ List.replicate 4 (aNotice none)) ++ aNotice none :: [aNotice (some 0x20)]
      ∧ (aNotice none).cls = 4 ∧ (aNotice none).onLine = none ∧ (aNotice (some 0x20)).onLine ≠ none)
    ∧ (List.replicate 12 transfer = List.replicate 11 transfer ++ transfer :: [] ∧ transfer.cls = 1 ∧ transfer.onLine = none
      ∧ classOrdered (List.replicate 12 transfer) = true)
    ∧ (∀ n, (admission (takenFrame 5 4711 .down n) fireFrames.line.queue).entered = false)
    ∧ (2 < 3 ∧ run.line.queue.length < 12)
    ∧ (withCall .bidQueued (some (0, 4711))).placement.calls.find? (fun y => y.call == ⟨3, 17⟩)
      = some (aCall 17 .bidQueued (some (0, 4711))) := by
  refine ⟨?_, ?_, ?_, fun _ => rfl, ?_, ?_⟩ <;> decide +kernel

/-- A CLAIM whose bin was written off, and a CLOSING whose shutter has closed, or is none. -/
theorem witness_OutcomeOfClaimOrClosing_late :
    (let x := { aCall 17 .claimSent (some (0, 4711)) with writtenOff := true }
     let s := sent (.claim ⟨3, 17⟩) { run with placement := ⟨0, [x]⟩ }
     s.live = true ∧ s.line.queue.find? (fun g => g.onLine.isSome) = some (onLine (.claim ⟨3, 17⟩))
       ∧ s.placement.calls.find? (fun y => y.call == ⟨3, 17⟩) = some x ∧ x.own = some (0, 4711) ∧ x.writtenOff = true)
    ∧ (sent .closing (withShutter .shut)).fire.shutter = some (aShutter .shut) ∧ run.fire.shutter = none := by decide +kernel

/-- Frames that drive no slot, and a frame without an item; a CLAIM to a desk, heard in HALTED and in FIRE. -/
theorem witness_WrongSenderIgnored_slots :
    (Hears (to5 3 0) run ∧ classGood (to5 3 0) [.stop, .closing 5] = false ∧ addressed run.cfg ⟨2, 9, false, 51, 0x20⟩ = false
      ∧ (Instr.claim still ⟨2, 9, false, 51, 0x20⟩ ⟨⟨3, 17⟩, 9, 1⟩ []).frame
        = some (⟨2, 9, false, 51, 0x20⟩, [.claim ⟨⟨3, 17⟩, 9, 1⟩]))
    ∧ (addressed run.cfg (to5 3 0) = true ∧ (to5 3 0).cls ≤ 4 ∧ (to5 4 0).cls ≤ 4)
    ∧ (Hears ⟨2, 9, false, 51, 0x20⟩ (inMode .halted) ∧ Hears ⟨2, 9, false, 51, 0x20⟩ (inMode .fire)
      ∧ classGood ⟨2, 9, false, 51, 0x20⟩ [.claim ⟨⟨3, 17⟩, 9, 1⟩] = true ∧ (inMode .fire).mode.working = false) :=
  ⟨⟨hears (by decide +kernel), by decide +kernel, by decide +kernel, rfl⟩, by decide +kernel,
    hears (by decide +kernel), hears (by decide +kernel), by decide +kernel, rfl⟩

/-- A PARKED crane with and without a STOP, and a shutter found shut between two compartments. -/
theorem witness_RestoreHeard_effects :
    (∀ stop, let s := { withCrane .parked none (some onFork) with stopTaken := stop }
      s.crane.state = .parked ∧ s.stopTaken = stop ∧ s.crane.carried = some onFork)
    ∧ (let x := { aShutter .shut with foundShut := true }
       { withShutter .shut with fire := { run.fire with shutter := some x } }.fire.shutter = some x ∧ x.foundShut = true)
    ∧ bordersShutter rackB 1 = true ∧ bordersShutter rackB 7 = false ∧ (aShutter .shut).foundShut = false :=
  ⟨fun _ => ⟨rfl, rfl, rfl⟩, ⟨rfl, rfl⟩, by decide +kernel, by decide +kernel, rfl⟩

/-- A carried bin with a visit, with a slot, and with no entry; each place BLOCKED with its sensors reading empty, and seeing a bin. -/
theorem witness_ResumeHeard_places :
    (onFork.visit = none ∧ (outAt .crane).bin onFork.bin = some { entry4711 with status := .out .crane 0 } ∧ run.dir.bin onFork.bin = none
      ∧ { onFork with visit := some 9 }.visit = some 9)
    ∧ (let sp : Spine := { run.spine with
         portOut := .blocked none none, portIn := .blocked (some homeward) none, down := .blocked none (some (1, 4)), up := .blocked none none }
       (withSpine sp).spine.portIn = .blocked (some homeward) none ∧ (withSpine sp).spine.portOut = .blocked none none
         ∧ (withSpine sp).spine.down = .blocked none (some (1, 4)) ∧ (withSpine sp).spine.up = .blocked none none)
    ∧ (still.portOut.entry = false ∧ still.portIn.position = false ∧ { still with up := ⟨false, true⟩ }.up.position = true) := by decide +kernel

theorem witness_WriteOffAndQueryHeard_fire :
    let s := { withDir (outAt .unknown) with mode := .fire }
    reachAll 60 [.writeOff 4711] s ∧ s.mode.fiery = true ∧ s.stockEnded = true
    ∧ s.dir.bin 4711 = some { entry4711 with status := .out .unknown 0 } :=
  ⟨reachAll_of (by decide +kernel), rfl, rfl, by decide +kernel⟩

/-- PORT_OUT EMPTY and not, PORT_IN with a bin of the table, with one of no entry, and with none; and the modes in which a move starts. -/
theorem witness_InPositionReported_started :
    ((withSpine { run.spine with portOut := .holding deskward }).spine.portOut ≠ .empty ∧ run.spine.portOut = .empty)
    ∧ (holdingBoth.spine.portIn ≠ .holding homeward ∧ (forking .takeIn .ready none).spine.portIn = .holding homeward
      ∧ stocked.bin homeward.bin = some entry4711 ∧ run.dir.bin homeward.bin = none)
    ∧ (run.mode.fiery = false ∧ (inMode .fire).mode.fiery = true ∧ (aMove .fetch (.slot at7) none).kind ≠ .park) := by decide +kernel

/-- A staged FETCH whose bin stands ready, and one whose bin is OUT; a staged TAKE_IN with its bin at port-in and without; a bound
DELIVER and a bound STORE; a fire order to finish. -/
theorem witness_ForkDoneCompletes_staged :
    let s := fun (d : Directory) (m : Move) => { withDir d with
      crane := { run.crane with staged := some m, carried := some onFork }
      planner := { run.planner with visits := [visitOf 9 4711 .normal 0 .staged], stow := .staged } }
    ((s stocked (fetch7 9)).planner.visit 9 = some (visitOf 9 4711 .normal 0 .staged) ∧ (fetch7 9).bound = false
      ∧ (s stocked (fetch7 9)).crane.staged = some (fetch7 9) ∧ (fetch7 9).kind = .fetch ∧ (fetch7 9).visit = some 9
      ∧ (s stocked (fetch7 9)).mode.fiery = false ∧ downOpen (s stocked (fetch7 9)) = true
      ∧ stocked.bin 4711 = some entry4711 ∧ entry4711.status = .stored ∧ entry4711.doubt = false)
    ∧ ((outAt .crane).bin 4711 = some { entry4711 with status := .out .crane 0 })
    ∧ (let t : Move := ⟨.takeIn, .pos ⟨0, 3⟩, none, false, 5000, none⟩
       (s stocked t).planner.stow = .staged ∧ t.bound = false ∧ t.kind = .takeIn ∧ (s stocked t).spine.portIn = .empty
         ∧ (forking .takeIn .ready none).spine.portIn = .holding homeward)
    ∧ ((deliver 9).bound = true ∧ (deliver 9).kind ≠ .store ∧ (aMove .store (.slot at7) none).bound = true
      ∧ (s stocked (deliver 9)).crane.carried = some onFork ∧ (s stocked (deliver 9)).crane.fireFinish = false)
    ∧ { run.crane with fireFinish := true }.fireFinish = true := by decide +kernel

/-- A HOLDING crane with its DELIVER, and one at rest; every place HOLDING and BLOCKED. -/
theorem witness_ArrivalReported_standing :
    (∀ r kept lost, (withSpine { run.spine with portOut := .holding r, portIn := .blocked kept lost, down := .holding r, up := .blocked kept lost }).spine.portIn
      = .blocked kept lost)
    ∧ (∀ m, (withCrane .holding (some m) none).crane.state = .holding ∧ (withCrane .holding (some m) none).crane.current = some m)
    ∧ run.crane.state ≠ .holding :=
  ⟨fun _ _ _ => rfl, fun _ => ⟨rfl, rfl⟩, by decide⟩

/-- R91 on the ten tests: the bin is eligible as it stands, and not once its promise, a visit, a reservation or a call excludes it. -/
theorem test_eligible_excluded :
    let c := aCall 17 .evaluating none
    eligible (withDir stocked) c 4711 entry4711 = true
    ∧ eligible (withDir stocked) c 4711 { entry4711 with promVolume := 1 } = false
    ∧ eligible (withVisit .fetching [] none) c 4711 entry4711 = false
    ∧ eligible { withDir stocked with planner := { run.planner with reservations := [(4711, 3)] } } c 4711 entry4711 = false
    ∧ eligible { withDir stocked with placement := ⟨0, [aCall 16 .bidSent (some (0, 4711))]⟩ } c 4711 entry4711 = false := by decide +kernel

/-! ## The clauses added for the second review: a restore's order, doubt, re-slot, adoption, locks, stops, notices -/

/-- R150, step 3 before step 5: with a heat input still active a restore of the own compartment grants PORT_OUT the free lane and
diverts the home bin that stands in UP before the compartment is alarmed again, and both transfers run on in FIRE (R136). -/
theorem test_restore_moves_bins_first :
    let s := { burning with
      mode := .fire, dir := outAt (.lane 5 .up), crane := { run.crane with state := .parked }
      spine := { run.spine with portOut := .holding deskward, up := .holding homeward, routeOpen := false }
      pins := { still with up := ⟨false, true⟩ }
      fire := { burning.fire with heat := ⟨none, true, false⟩, alarms := burning.fire.alarms.set 0 ⟨false, 4, 4, false, false, false, none⟩ } }
    let t := restoreEffects 0 s
    t.mode = .fire ∧ (t.fire.alarms.get 0).epoch = 5 ∧ t.spine.down = .reserved ∧ t.spine.inDown.isSome = true
    ∧ (t.spine.outUp.map (·.bin)) = some 4711 := by decide +kernel

/-- R62 with R14: an uncertain bin that the table holds STORED, with no load on the fork (log 40). -/
theorem test_refused_store_resolves :
    let s := { withCrane .faulted none (some { onFork with uncertain := true }) with dir := stocked }
    (resolveLoad s).1 = true ∧ (resolveLoad s).2.crane.carried = none ∧ (resolveLoad s).2.line.queue = [] := by decide +kernel

/-- A STORED bin read as another STORED bin, as an OUT one, as one of no entry, and as itself. -/
theorem witness_ForkTagReported_doubt :
    twoBins.bin 4711 = some entry4711 ∧ entry4711.status = .stored ∧ twoBins.bin 5120 = some entry5120
    ∧ entry5120.status = .stored ∧ slotKey entry5120.slot ≠ slotKey entry4711.slot ∧ twoBins.bin 77 = none
    ∧ ((twoBins.takeOut 0 5120).bind fun d => d.bin 5120) = some { entry5120 with status := .out .crane 0 }
    ∧ twoBins.slotState entry4711.slot = .occupied 4711 ∧ twoBins.slotState entry5120.slot = .occupied 5120
    ∧ 0 < twoBins.counts.occupied := by decide +kernel

/-- A rack of eight columns and three levels. -/
def small : StationConfig := { rack with nc := 8, nl := 3 }

/-- A re-slot that is made, one refused for a STORED bin, and one that finds no slot; its new column and its old one. -/
theorem witness_InPositionReported_reslot :
    (outAt .crane).bin 4711 = some { entry4711 with status := .out .crane 0 } ∧ (outAt .crane).slotState at7 = .reserved 4711
    ∧ stocked.bin 4711 = some entry4711 ∧ entry4711.status = .stored ∧ run.dir.bin 4711 = none
    ∧ (let share := (gradeOf small entry4711.grade).tare + entry4711.mass + entry4711.promMass
       ((outAt .crane).chooseSlot small entry4711.restricted share ⟨7, 3⟩).map (·.col) = some 7
       ∧ ((outAt .crane).chooseSlot small entry4711.restricted share ⟨9, 3⟩).map faceKey ≠ some (faceKey at7)
       ∧ (outAt .crane).chooseSlot { small with columnMassLimit := 0 } entry4711.restricted share ⟨7, 3⟩ = none)
    ∧ tblWf (outAt .crane).loads = true := by decide +kernel

/-- A slot conflict under a fire order to finish, and with a free FETCH and a free TAKE_IN staged. -/
theorem witness_InPositionReported_conflict :
    (∀ m c st finish, let s := { withCrane .moving (some m) (some c) with
       crane := { (withCrane .moving (some m) (some c)).crane with staged := some st, fireFinish := finish } }
     s.live = true ∧ s.crane.state = .moving ∧ s.crane.current = some m ∧ s.crane.forkCycle = false ∧ s.crane.carried = some c
       ∧ s.crane.staged = some st ∧ s.crane.fireFinish = finish)
    ∧ { still with slot := true }.slot = true ∧ (fetch7 9).bound = false ∧ (fetch7 9).kind = .fetch ∧ (fetch7 9).visit = some 9
    ∧ (planning [] .staged false .moving none none).planner.stow = .staged :=
  ⟨fun _ _ _ _ => ⟨rfl, rfl, rfl, rfl, rfl, rfl, rfl⟩, by decide +kernel⟩

/-- An adoption that finds a slot, one that finds none, and one of bin id 0; the peers of a bin on each lane. -/
theorem witness_EventEndKeepsRecords_adoption :
    (let share := (gradeOf small (hold 1 4 adopted.grade)).tare + adopted.mass
     (run.dir.chooseSlot small adopted.restricted share ⟨0, 3⟩).isSome = true ∧ adopted.bin ≠ 0 ∧ tblWf run.dir.loads = true
     ∧ run.dir.chooseSlot { small with columnMassLimit := 0 } adopted.restricted share ⟨0, 3⟩ = none)
    ∧ deskward.dest = .desk 3 ∧ homeward.dest = .home
    ∧ offerPeer rack .down deskward = some 4 ∧ offerPeer { rack with down := 63 } .down deskward = some 51
    ∧ offerPeer rack .up through = some 6 ∧ offerPeer rack .up homeward = none
    ∧ offerPeer { rack with up := 63 } .up through = none := by decide +kernel

/-- An unmarked stow before a staged FETCH of a NORMAL visit, other work being NORMAL. -/
theorem witness_EventEndKeepsRecords_stow :
    let w := visitOf 9 4711 .normal 0 .staged
    let s := planning [w, visitOf 10 5120 .normal 0 .ready] .ready false .moving (some (deliver 8)) (some (fetch7 9))
    s.planner.stow = .ready ∧ s.planner.mark = false ∧ s.planner.visit 9 = some w ∧ w.rank = .normal ∧ s.mode.working = true
    ∧ (s.planner.visits.all fun v => v.state != .ready || v.rank == .normal) = true
    ∧ ((selectWork s).crane.staged.map fun m => m.kind) = some .takeIn := by decide +kernel

/-- A bin OUT, a STORED one and an absent one; a slot of the rack on each side of a lock set. -/
theorem witness_TakeOutAndStore_locate :
    (outAt .unknown).bin 4711 = some { entry4711 with status := .out .unknown 0 } ∧ stocked.bin 4711 = some entry4711
    ∧ entry4711.status = .stored ∧ run.dir.bin 4711 = none
    ∧ (let cfg := { rack with lockL := ⟨1, false⟩, lockR := ⟨0, true⟩ }
       lockedSlot cfg ⟨.L, 36, 1⟩ = true ∧ lockedSlot cfg ⟨.L, 35, 1⟩ = false ∧ lockedSlot cfg ⟨.R, 1, 1⟩ = true) := by decide +kernel

/-- Both transfers with the up neighbour matching at once, and one of another bin. -/
theorem witness_FaultsHeard_both :
    let b := { faultBody .binCaught with bin := 4711, place := 6 }
    let both := fun down up : Nat => { run with spine := { run.spine with
      inDown := some (aHandoff down 6), outUp := some (aHandoff up 6) } }
    (∀ down up, Reaches (to5 4 6) [.fault b] (both down up)) ∧ b.kind = .binCaught ∧ 6 = run.cfg.up
    ∧ (aHandoff 4711 6).bin = b.bin ∧ (aHandoff 4711 6).peer = 6 ∧ (aHandoff 9 6).bin ≠ b.bin :=
  ⟨fun _ _ => ⟨⟨rfl, rfl, by decide, show (6 : Nat) ≠ 5 by decide⟩, by decide +kernel, show addressed rack (to5 4 6) = true from rfl⟩, rfl, rfl, rfl, rfl, by decide⟩

/-- A HOLDING crane with a free FETCH or TAKE_IN staged behind its DELIVER. -/
theorem witness_StockEndAndStopHeard_staged :
    ∀ st stow, let s := { withCrane .holding (some (deliver 8)) (some onFork) with
      crane := { (withCrane .holding (some (deliver 8)) (some onFork)).crane with staged := some st }
      planner := { run.planner with stow := stow } }
    Reaches (to5 3 60) [.stop] s ∧ s.mode ≠ .halted ∧ s.crane.state = .holding ∧ s.crane.current = some (deliver 8)
      ∧ s.crane.staged = some st ∧ s.planner.stow = stow :=
  fun _ _ => ⟨⟨⟨rfl, rfl, by decide, show (60 : Nat) ≠ 5 by decide⟩, by decide +kernel, rack_addressed⟩, nofun, rfl, rfl, rfl, rfl⟩

/-- In FIRE a home bin OUT, STORED, adopted and with no slot; a transfer out of DOWN and of UP; nothing to divert. -/
theorem witness_PortAndPositionReported_fire :
    (∀ out, (withSpine { run.spine with outDown := out, outUp := out }).spine.outDown = out
      ∧ (withSpine { run.spine with outDown := out, outUp := out }).spine.outUp = out)
    ∧ ((outAt .unknown).bin homeward.bin = some { entry4711 with status := .out .unknown 0 }
      ∧ stocked.bin homeward.bin = some entry4711 ∧ entry4711.status = .stored ∧ run.dir.bin homeward.bin = none)
    ∧ (run.dir.adopt small 0 homeward (.lane 5 .up)).isSome = true
    ∧ run.dir.adopt { small with columnMassLimit := 0 } 0 homeward (.lane 5 .up) = none
    ∧ (inMode .fire).mode.fiery = true ∧ (inMode .fire).spine.up = .empty :=
  ⟨fun _ => ⟨rfl, rfl⟩, by decide +kernel⟩

/-- Two held causes, one held, and none; two CLAIMs in one frame to a desk, and one behind a BID. -/
theorem witness_ReadCompleteConfigures_held :
    let held := fun smoke heat => { run with fire := { run.fire with smoke := ⟨none, true, smoke⟩, heat := ⟨none, true, heat⟩ } }
    (applyHeld (held true true)).line.queue.map (·.items) = [[.alarm ⟨0, 1, .smoke, 5⟩], [.alarm ⟨0, 1, .heat, 5⟩]]
    ∧ (applyHeld (held false true)).line.queue.map (·.items) = [[.alarm ⟨0, 1, .heat, 5⟩]]
    ∧ applyHeld (held false false) = held false false
    ∧ (takeClaims [.claim ⟨⟨3, 17⟩, 9, 1⟩] (withCall .bidSent (some (0, 4711)))).placement.calls = []
    ∧ ((takeClaims [.bid ⟨⟨3, 17⟩, 0, 9, 1⟩] (withCall .bidSent none)).placement.calls.map (·.best)) = [none] := by decide +kernel

/-! ## One frame, one event (R164, R167) -/

/-- Two LENDs of one frame at an idle crane: the selection is made once both are taken, and the URGENT visit is fetched first,
whichever bin the frame names first (R75, R76, R167). -/
theorem test_lends_of_one_frame_share_its_event :
    let s := after (.lend still (to5 3 60) ⟨1, 4711, 0, 3, .normal⟩ [.lend ⟨2, 5120, 0, 3, .urgent⟩]) (withDir twoBins)
    s.crane.current.map (fun m => (m.kind, m.target)) = some (.fetch, .slot ⟨.R, 12, 5⟩)
    ∧ s.planner.visits.map (fun v => (v.bin, v.state)) = [(4711, .ready), (5120, .fetching)]
    ∧ (s.line.ack, s.line.obj) = (true, false) := by decide +kernel

/-- A LEND and its CANCEL in one frame leave the crane idle: no selection is made between them (R75, R81, R167). -/
theorem test_lend_cancelled_in_its_frame :
    let s := after (.lend still (to5 3 60) ⟨1, 4711, 0, 3, .normal⟩ [.cancel 1]) (withDir twoBins)
    s.crane.state = .idle ∧ s.planner.visits = [] ∧ s.planner.pool = [] := by decide +kernel

/-- A crane that delivers, with the FETCH of request 1 staged. -/
def stagedBehind : State := { withDir twoBins with
  crane := { run.crane with state := .moving, current := some (deliver 8), staged := some (fetch7 9) }
  planner := { run.planner with visits := [aVisit .staged [1] none], pool := [(1, ⟨0, 3, .normal, .queued, 9⟩)], nextVisit := 10 } }

/-- A CANCEL that withdraws the staged FETCH asks for no selection, but a LEND of the same frame does, before or behind it (R75,
R81, R167). -/
theorem test_cancel_and_lend_of_one_frame :
    (after (.cancel still (to5 3 60) 1 []) stagedBehind).crane.staged = none
    ∧ ((after (.cancel still (to5 3 60) 1 [.lend ⟨2, 5120, 0, 3, .normal⟩]) stagedBehind).crane.staged.map (·.target))
      = some (.slot ⟨.R, 12, 5⟩)
    ∧ ((after (.lend still (to5 3 60) ⟨2, 5120, 0, 3, .normal⟩ [.cancel 1]) stagedBehind).crane.staged.map (·.target))
      = some (.slot ⟨.R, 12, 5⟩) := by decide +kernel

/-- STOP and RESUME in one frame withdraw the queued OFFER, which the end of the event queues again behind the frames of its
class (R113). -/
theorem test_stop_and_resume_of_one_frame :
    let s := after (.lineIdle still) holdingBoth
    let t := after (.stop still (to5 3 60) [.resume]) s
    s.line.queue.map (·.owner) = [.offer .down] ∧ t.line.queue.map (·.owner) = [.offer .down] ∧ t.mode = .run
    ∧ (after (.stop still (to5 3 60) []) s).line.queue = [] := by decide +kernel

/-- A FETCH whose take-out is refused, with another FETCH staged: its visit is handed back (log 46). -/
theorem test_refused_takeOut_hands_the_staged_visit_back :
    let s := { forking .fetch .fetching none with
      dir := (outAt (.desk 3)).enterBin rack ⟨5120, 1, 0, 0, 0, false⟩ ⟨.R, 12, 5⟩ 0 0
      crane := { (forking .fetch .fetching none).crane with staged := some (fetch12 10) } }
    let s := { s with planner := { s.planner with
      visits := s.planner.visits ++ [{ aVisit .staged [2] none with number := 10, bin := 5120 }]
      pool := [(1, ⟨0, 3, .normal, .queued, 9⟩), (2, ⟨0, 3, .normal, .queued, 10⟩)] } }
    let t := after (.forkDone still) s
    t.crane.state = .faulted ∧ t.crane.staged = none ∧ t.planner.visits.map (fun v => (v.number, v.state)) = [(10, .ready)] := by
  decide +kernel

theorem witness_WrongSenderIgnored_event :
    (run.planner.passed = none ∧ { run.planner with passed := some [] }.passed ≠ none)
    ∧ (run.mode.working = true ∧ run.crane.staged = none ∧ run.crane.state = .idle) ∧ (inMode .halted).mode.working = false := by
  decide +kernel

/-! ## A home bin whose port is not empty; a bin removed; a take-out refused (R49, R80, R105, R121, R182) -/

/-- A home bin at position in UP while PORT_IN is BLOCKED. -/
def homeAtUp (d : Directory) : State := { withDir d with
  pins := { still with up := ⟨false, true⟩ }
  spine := { run.spine with up := .holding homeward, portIn := .blocked none none } }

/-- A STORED home bin blocks UP at once, whatever PORT_IN holds; a bin OUT waits for it, an absent one is adopted and waits
(R105, R121; log 16). -/
theorem test_home_bin_with_portIn_blocked :
    let at' := { still with up := ⟨false, true⟩ }
    let t := after (.lineIdle at') (homeAtUp stocked)
    let u := after (.lineIdle at') (homeAtUp (outAt (.lane 4 .up)))
    let a := after (.lineIdle at') (homeAtUp run.dir)
    t.spine.up = .blocked (some homeward) none
    ∧ t.line.queue.map (·.items) = [[.fault { faultBody .storeBlocked with bin := 4711, slotA := at7.name }]]
    ∧ u.spine = (homeAtUp stocked).spine
    ∧ (a.dir.bin homeward.bin).isSome = true ∧ a.spine = (homeAtUp stocked).spine := by decide +kernel

theorem witness_EventEndKeepsRecords_portIn :
    (homeAtUp stocked).spine.up = .holding homeward ∧ homeward.dest = .home ∧ homeward.home = (homeAtUp stocked).cfg.station
    ∧ (homeAtUp stocked).pins.up.position = true ∧ (homeAtUp stocked).spine.outUp = none
    ∧ (homeAtUp stocked).spine.portIn ≠ .empty ∧ (homeAtUp stocked).mode.working = true := by decide +kernel

/-- Bin 4711 with a visit of one request, and held for a call with its CLAIM queued. -/
def removedUnder : State := { withCall .claimQueued none with
  planner := { run.planner with
    visits := [aVisit .ready [1] none], pool := [(1, ⟨0, 3, .normal, .queued, 9⟩)], nextVisit := 10
    reservations := [(4711, 3)] }
  placement := { run.placement with calls := [{ aCall 17 .claimQueued none with own := some (0, 4711) }] } }

/-- The bin removed: its visit fails with a REQUEST_FAILED, its call closes. -/
theorem test_binRemoved_fails_and_closes :
    let t := binRemoved 4711 .writtenOff removedUnder
    t.planner.visits = [] ∧ t.planner.pool = [] ∧ t.placement.calls = [] ∧ t.planner.reservations = []
    ∧ t.line.queue.map (fun f => f.items.length) = [2] := by decide +kernel

theorem witness_WriteOffAndQueryHeard_removed :
    CallsInv removedUnder ∧ (removedUnder.planner.visits.map fun v => v.number).Nodup :=
  ⟨⟨by decide +kernel, by decide +kernel, by decide +kernel⟩, by decide +kernel⟩

/-- A FETCH of a bin that is OUT, STOPPING in its fork cycle. -/
theorem witness_StoppedReported_refused :
    let s := { forking .fetch .fetching none with
      dir := outAt (.desk 3)
      crane := { (forking .fetch .fetching none).crane with state := .stopping, forkCycle := true } }
    s.live = true ∧ s.crane.state = .stopping ∧ s.crane.current = some (aMove .fetch (.slot at7) (some 9))
    ∧ s.planner.visit 9 = some (aVisit .fetching [1] none) ∧ s.crane.forkCycle = true ∧ s.crane.tag ≠ .mismatched
    ∧ s.dir.takeOut s.clock 4711 = none := by decide +kernel

/-- The bin a stall names: carried, of the visit, of the slot, at port-in, none. -/
theorem witness_CraneTimersExpire_stallBin :
    (withCrane .moving none (some onFork)).crane.carried = some onFork
    ∧ ((forking .fetch .fetching none).crane.carried = none
      ∧ (some 9).bind (forking .fetch .fetching none).planner.visit = some (aVisit .fetching [1] none))
    ∧ ((withDir stocked).crane.carried = none ∧ (withDir stocked).dir.slotState at7 = .occupied 4711
      ∧ run.dir.slotState at7 = .empty)
    ∧ ((homeAtUp stocked).spine.portIn ≠ .holding homeward ∧ holdingBoth.crane.carried = none
      ∧ (forking .takeIn .ready none).spine.portIn = .holding homeward) := by decide +kernel

end Sys2Proof.Tests.Slice0
end

