-- ==== Sys2Proof/Proofs/TravelEstimation.lean ====
section
/-! PROOFS. The travel estimator (chapter 2): the rounded quotient and root as least integers, the axis time as the least
integer past a bound in each of its two formulas, its growth with the distance, and the leg with its LIMITED note. -/

namespace Sys2Proof.Machine
open Sys2Proof

/-! ## The two roundings of R28 -/

theorem ceilDiv_le_iff {n d t : Nat} (hd : 0 < d) : ceilDiv n d ≤ t ↔ n ≤ t * d := by
  rw [ceilDiv, ← Nat.lt_succ_iff, Nat.div_lt_iff_lt_mul hd, Nat.succ_mul]
  omega

/-- The search keeps its bracket: a start below the root and within 2^k of it ends on the last integer below the root. -/
theorem sqrtBelow_brackets {q : Nat} (k t : Nat) (hlow : t * t < q) (hhigh : q ≤ (t + 2 ^ k) * (t + 2 ^ k)) :
    sqrtBelow q k t * sqrtBelow q k t < q ∧ q ≤ (sqrtBelow q k t + 1) * (sqrtBelow q k t + 1) := by
  induction k generalizing t with
  | zero => exact ⟨hlow, hhigh⟩
  | succ k ih =>
    simp only [sqrtBelow]
    split
    next hbit =>
      have hdouble : t + 2 ^ k + 2 ^ k = t + 2 ^ (k + 1) := by rw [Nat.pow_succ]; omega
      exact ih (t + 2 ^ k) hbit (by rwa [hdouble])
    next hbit => exact ih t hlow (Nat.le_of_not_lt hbit)

/-- The search of `ceilSqrt` starts wide enough: half the bits of q hold its root. -/
theorem le_sq_two_pow_half_log2 (q : Nat) : q ≤ 2 ^ (q.log2 / 2 + 1) * 2 ^ (q.log2 / 2 + 1) := by
  calc q ≤ 2 ^ (q.log2 + 1) := Nat.le_of_lt Nat.lt_log2_self
    _ ≤ 2 ^ (q.log2 / 2 + 1 + (q.log2 / 2 + 1)) := Nat.pow_le_pow_right (by decide) (by omega)
    _ = 2 ^ (q.log2 / 2 + 1) * 2 ^ (q.log2 / 2 + 1) := Nat.pow_add ..

/-- `ceilSqrt q` is the least integer whose square is at least q (R28). -/
theorem ceilSqrt_le_iff {q t : Nat} : ceilSqrt q ≤ t ↔ q ≤ t * t := by
  unfold ceilSqrt
  split
  next hq => simp [hq]
  next hq =>
    obtain ⟨hbelow, hreach⟩ := sqrtBelow_brackets (q := q) (q.log2 / 2 + 1) 0 (by omega)
      (by simpa using le_sq_two_pow_half_log2 q)
    constructor
    · intro h
      exact Nat.le_trans hreach (Nat.mul_self_le_mul_self h)
    · intro h
      exact Nat.mul_self_lt_mul_self_iff.mp (Nat.lt_of_lt_of_le hbelow h)

/-! ## The axis time of R28 -/

@[simp] theorem axisExact_zero (v a : Nat) : axisExact 0 v a = 0 := rfl

/-- Where the speed is reached, the axis time is the trapezoid's quotient rounded up (R28). -/
theorem axisExact_le_iff_of_trapezoid {d v a t : Nat} (hd : 0 < d) (hv : 0 < v) (ha : 0 < a) (h : v * v ≤ d * a) :
    axisExact d v a ≤ t ↔ 1000 * (d * a + v * v) ≤ t * (v * a) := by
  rw [axisExact, if_neg (Nat.ne_of_gt hd), if_pos h, ceilDiv_le_iff (Nat.mul_pos hv ha)]

/-- Where it is not, the axis time is the root of the quotient, each rounded up (R28). -/
theorem axisExact_of_triangle {d v a : Nat} (hd : 0 < d) (h : d * a < v * v) :
    axisExact d v a = ceilSqrt (ceilDiv (4000000 * d) a) := by
  rw [axisExact, if_neg (Nat.ne_of_gt hd), if_neg (Nat.not_le_of_lt h)]

theorem axisExact_le_iff_of_triangle {d v a t : Nat} (hd : 0 < d) (ha : 0 < a) (h : d * a < v * v) :
    axisExact d v a ≤ t ↔ 4000000 * d ≤ t * t * a := by
  rw [axisExact_of_triangle hd h, ceilSqrt_le_iff, ceilDiv_le_iff ha]

theorem four_mul_le_square_add (x y : Nat) : 4 * x * y ≤ (x + y) * (x + y) := by
  obtain h | h := Nat.le_total x y
  all_goals
    obtain ⟨k, rfl⟩ := Nat.exists_eq_add_of_le h
    grind

/-- A time the trapezoid allows, the triangle allows too: 4 x y ≤ (x + y)² with x = d a and y = v². -/
theorem triangle_le_of_trapezoid_le {d v a t : Nat} (hv : 0 < v) (ha : 0 < a)
    (h : 1000 * (d * a + v * v) ≤ t * (v * a)) : 4000000 * d ≤ t * t * a := by
  refine Nat.le_of_mul_le_mul_right ?_ (Nat.mul_pos ha (Nat.mul_pos hv hv))
  calc 4000000 * d * (a * (v * v))
    _ = 1000000 * (4 * (d * a) * (v * v)) := by grind
    _ ≤ 1000000 * ((d * a + v * v) * (d * a + v * v)) := Nat.mul_le_mul_left _ (four_mul_le_square_add _ _)
    _ = 1000 * (d * a + v * v) * (1000 * (d * a + v * v)) := by grind
    _ ≤ t * (v * a) * (t * (v * a)) := Nat.mul_self_le_mul_self h
    _ = t * t * a * (a * (v * v)) := by grind

/-- A longer distance never gives a shorter axis time (R28): each formula grows, and where the longer distance alone reaches the
speed its trapezoid time lies above the triangle's. -/
theorem axisExact_mono {d d' v a : Nat} (hv : 0 < v) (ha : 0 < a) (hdd : d ≤ d') : axisExact d v a ≤ axisExact d' v a := by
  obtain rfl | hd := Nat.eq_zero_or_pos d
  · simp
  have hd' : 0 < d' := Nat.lt_of_lt_of_le hd hdd
  have hda : d * a ≤ d' * a := Nat.mul_le_mul_right a hdd
  by_cases htop : v * v ≤ d' * a
  · have hlonger := (axisExact_le_iff_of_trapezoid hd' hv ha htop).mp (Nat.le_refl _)
    have hshorter : 1000 * (d * a + v * v) ≤ axisExact d' v a * (v * a) := by omega
    by_cases hcruise : v * v ≤ d * a
    · exact (axisExact_le_iff_of_trapezoid hd hv ha hcruise).mpr hshorter
    · exact (axisExact_le_iff_of_triangle hd ha (Nat.lt_of_not_le hcruise)).mpr (triangle_le_of_trapezoid_le hv ha hshorter)
  · have hnot : d' * a < v * v := Nat.lt_of_not_le htop
    have hlonger := (axisExact_le_iff_of_triangle hd' ha hnot).mp (Nat.le_refl _)
    exact (axisExact_le_iff_of_triangle hd ha (Nat.lt_of_le_of_lt hda hnot)).mpr (by omega)

/-! ## The leg and its LIMITED note (R29, R31) -/

theorem legHeld_iff (cfg : StationConfig) (p q : Pos) :
    legHeld cfg p q = true ↔ 65535 < axisExact (legX cfg p q) cfg.vx cfg.ax ∨ 65535 < axisExact (legY cfg p q) cfg.vy cfg.ay := by
  simp [legHeld, axisHeld]

@[simp] theorem noteHeld_true (s : State) : noteHeld true s = { s with limited := true } := by
  simp [noteHeld, State.setLimited]

@[simp] theorem noteHeld_false (s : State) : noteHeld false s = s := by
  simp [noteHeld, State.setLimited]

theorem askLeg_of_held {p q : Pos} {s : State} (fork : Bool) (h : legHeld s.cfg p q = true) :
    askLeg p q fork s = (legTime s.cfg p q fork, { s with limited := true }) := by
  simp [askLeg, h]

theorem askLeg_of_not_held {p q : Pos} {s : State} (fork : Bool) (h : legHeld s.cfg p q = false) :
    askLeg p q fork s = (legTime s.cfg p q fork, s) := by
  simp [askLeg, h]

end Sys2Proof.Machine

namespace Sys2Proof.Proofs
open Sys2Proof Sys2Proof.Machine

/-- Settles O15: the clauses of the axis time are its two least-integer characterisations and its growth with the distance; the
clauses of a leg follow from when it is held. -/
theorem axisTimeExact : Obligations.AxisTimeExact := by
  refine ⟨fun d v a hv ha => ⟨?zero, ?trapezoid, ?triangle, fun d' => axisExact_mono hv ha⟩, fun p q fork s => ?leg⟩
  case zero =>
    rintro rfl
    exact axisExact_zero v a
  case trapezoid =>
    intro hd h
    have hleast {t : Nat} := axisExact_le_iff_of_trapezoid (t := t) hd hv ha h
    exact ⟨hleast.mp (Nat.le_refl _), fun t => hleast.mpr⟩
  case triangle =>
    intro hd h
    refine ⟨ceilDiv (4000000 * d) a, (ceilDiv_le_iff ha).mp (Nat.le_refl _), fun x => (ceilDiv_le_iff ha).mpr, ?_⟩
    rw [axisExact_of_triangle hd h]
    exact ⟨ceilSqrt_le_iff.mp (Nat.le_refl _), fun t => ceilSqrt_le_iff.mpr⟩
  case leg =>
    have hheld := legHeld_iff s.cfg p q
    refine ⟨rfl, hheld, fun h => askLeg_of_held fork (hheld.mpr h), fun hx hy => askLeg_of_not_held fork ?_⟩
    exact Bool.eq_false_iff.mpr fun h => (hheld.mp h).elim (Nat.not_lt.mpr hx) (Nat.not_lt.mpr hy)

end Sys2Proof.Proofs
end

