-- ==== Sys2Proof/Proofs/SearchColumns.lean ====
section
/-! PROOFS. The search (R90): the reversed bits of the cursor, the columns that a number of steps examines, the steps a search
makes, and the sweep cursor under every command. -/

namespace Sys2Proof.Machine
open Sys2Proof

/-! ## The six bits of the cursor in reverse order -/

theorem rev6_testBit : ∀ r, r < 64 → ∀ k, k < 6 → (rev6 r).testBit k = r.testBit (5 - k) := by decide

theorem rev6_lt (r : Nat) : rev6 r < 64 := by
  unfold rev6
  omega

/-- Reversing the bits twice gives the cursor back. -/
theorem rev6_rev6 : ∀ r, r < 64 → rev6 (rev6 r) = r := by decide

theorem rev6_inj {r q : Nat} (hr : r < 64) (hq : q < 64) (h : rev6 r = rev6 q) : r = q := by
  rw [← rev6_rev6 r hr, h, rev6_rev6 q hq]

/-! ## The columns of a number of steps -/

/-- The columns that `n` steps from cursor `r` examine in a rack of `nc` columns, in sweep order (R90). -/
def stepColumns (nc r n : Nat) : List Nat :=
  ((List.range n).map fun i => rev6 ((r + i) % 64) + 1).filter fun col => decide (col ≤ nc)

@[simp] theorem stepColumns_zero (nc r : Nat) : stepColumns nc r 0 = [] := rfl

/-- The first step examines its column, and the others are those of the next cursor value. -/
theorem stepColumns_succ (nc : Nat) {r : Nat} (n : Nat) (hr : r < 64) : stepColumns nc r (n + 1) =
    if rev6 r + 1 ≤ nc then (rev6 r + 1) :: stepColumns nc ((r + 1) % 64) n else stepColumns nc ((r + 1) % 64) n := by
  have hshift (i : Nat) : ((r + 1) % 64 + i) % 64 = (r + (i + 1)) % 64 := by omega
  simp [stepColumns, List.range_succ_eq_map, Function.comp_def, hshift, Nat.mod_eq_of_lt hr, List.filter_cons]

theorem mem_stepColumns {nc r n col : Nat} :
    col ∈ stepColumns nc r n ↔ (∃ i < n, rev6 ((r + i) % 64) + 1 = col) ∧ col ≤ nc := by
  simp [stepColumns, List.mem_filter]

/-- Within 64 steps no cursor value comes twice, so no column does (R90). -/
theorem nodup_stepColumns (nc r : Nat) {n : Nat} (hn : n ≤ 64) : (stepColumns nc r n).Nodup := by
  have hmap : ((List.range n).map fun i => rev6 ((r + i) % 64) + 1).Nodup := by
    refine List.pairwise_map.mpr (List.Pairwise.imp_of_mem ?_ (List.nodup_range (n := n)))
    intro i j hi hj hne hij
    rw [List.mem_range] at hi hj
    have hcursor := rev6_inj (Nat.mod_lt _ (by decide)) (Nat.mod_lt _ (by decide)) (Nat.succ.inj hij)
    exact hne (by omega)
  exact List.Pairwise.filter _ hmap

/-- 64 steps run through every cursor value, so every column of the rack is examined. -/
theorem mem_stepColumns_all {nc col : Nat} (r : Nat) (hnc : nc ≤ 64) (hlow : 1 ≤ col) (hhigh : col ≤ nc) :
    col ∈ stepColumns nc r 64 := by
  have hrev := rev6_lt (col - 1)
  have hstep : (r + (rev6 (col - 1) + 64 - r % 64) % 64) % 64 = rev6 (col - 1) := by omega
  refine mem_stepColumns.mpr ⟨⟨(rev6 (col - 1) + 64 - r % 64) % 64, Nat.mod_lt _ (by decide), ?_⟩, hhigh⟩
  rw [hstep, rev6_rev6 _ (by omega)]
  omega

/-- Where as many columns are examined as the rack has, none is left out. -/
theorem mem_stepColumns_of_length {nc r n col : Nat} (hn : n ≤ 64) (hlen : nc ≤ (stepColumns nc r n).length)
    (hlow : 1 ≤ col) (hhigh : col ≤ nc) : col ∈ stepColumns nc r n := by
  refine Decidable.byContradiction fun hnot => ?_
  have hnodup : (col :: stepColumns nc r n).Nodup := List.nodup_cons.mpr ⟨hnot, nodup_stepColumns nc r hn⟩
  have hsub : col :: stepColumns nc r n ⊆ List.range' 1 nc := by
    intro x hx
    rw [List.mem_range'_1]
    obtain rfl | hx := List.mem_cons.mp hx
    · omega
    · obtain ⟨⟨i, -, rfl⟩, hle⟩ := mem_stepColumns.mp hx
      omega
  have hfew := hnodup.length_le_of_subset hsub
  rw [List.length_cons, List.length_range'] at hfew
  omega

/-! ## The steps of a search -/

/-- A search of `n` steps from `r`, with `fuel` steps and `left` columns to make: it examines the columns of its steps, and stops
at the first at which `left` columns have counted, or after `fuel` (R90). -/
structure SearchRun (nc fuel left r n : Nat) : Prop where
  le_fuel : n ≤ fuel
  result : sweepColumns nc fuel left r = (stepColumns nc r n, (r + n) % 64)
  length_le : (stepColumns nc r n).length ≤ left
  stops : (stepColumns nc r n).length = left ∨ n = fuel
  goesOn : ∀ k, k < n → (stepColumns nc r k).length < left

/-- A search that may make no step ends where it stands. -/
theorem SearchRun.stopped {nc fuel left r : Nat} (hr : r < 64) (hend : left = 0 ∨ fuel = 0) : SearchRun nc fuel left r 0 where
  le_fuel := Nat.zero_le _
  result := by
    obtain rfl | rfl := hend
    · cases fuel <;> simp [sweepColumns, Nat.mod_eq_of_lt hr]
    · simp [sweepColumns, Nat.mod_eq_of_lt hr]
  length_le := Nat.zero_le _
  stops := hend.imp Eq.symm Eq.symm
  goesOn k hk := absurd hk (Nat.not_lt_zero k)

/-- A step at a column of the rack counts it. -/
theorem SearchRun.counted {nc fuel left r n : Nat} (hr : r < 64) (hcol : rev6 r + 1 ≤ nc)
    (h : SearchRun nc fuel left ((r + 1) % 64) n) : SearchRun nc (fuel + 1) (left + 1) r (n + 1) where
  le_fuel := Nat.succ_le_succ h.le_fuel
  result := by
    have hreach : ((r + 1) % 64 + n) % 64 = (r + (n + 1)) % 64 := by omega
    simp [sweepColumns, stepColumns_succ nc n hr, hcol, h.result, hreach]
  length_le := by simpa [stepColumns_succ nc n hr, hcol] using h.length_le
  stops := by simpa [stepColumns_succ nc n hr, hcol] using h.stops
  goesOn
    | 0, _ => Nat.succ_pos left
    | k + 1, hk => by simpa [stepColumns_succ nc k hr, hcol] using h.goesOn k (Nat.lt_of_succ_lt_succ hk)

/-- A step beside the rack counts nothing. -/
theorem SearchRun.skipped {nc fuel left r n : Nat} (hr : r < 64) (hcol : ¬ rev6 r + 1 ≤ nc)
    (h : SearchRun nc fuel (left + 1) ((r + 1) % 64) n) : SearchRun nc (fuel + 1) (left + 1) r (n + 1) where
  le_fuel := Nat.succ_le_succ h.le_fuel
  result := by
    have hreach : ((r + 1) % 64 + n) % 64 = (r + (n + 1)) % 64 := by omega
    simp only [sweepColumns, stepColumns_succ nc n hr, if_neg hcol, h.result, hreach]
  length_le := by simpa only [stepColumns_succ nc n hr, if_neg hcol] using h.length_le
  stops := by simpa only [stepColumns_succ nc n hr, if_neg hcol, Nat.add_right_cancel_iff] using h.stops
  goesOn
    | 0, _ => Nat.succ_pos left
    | k + 1, hk => by
      simpa only [stepColumns_succ nc k hr, if_neg hcol] using h.goesOn k (Nat.lt_of_succ_lt_succ hk)

/-- Every search is a run of some number of steps. -/
theorem exists_searchRun (nc fuel left : Nat) {r : Nat} (hr : r < 64) : ∃ n, SearchRun nc fuel left r n := by
  induction fuel generalizing left r with
  | zero => exact ⟨0, .stopped hr (.inr rfl)⟩
  | succ fuel ih =>
    cases left with
    | zero => exact ⟨0, .stopped hr (.inl rfl)⟩
    | succ left =>
      have hnext : (r + 1) % 64 < 64 := Nat.mod_lt _ (by decide)
      by_cases hcol : rev6 r + 1 ≤ nc
      · obtain ⟨n, hrun⟩ := ih left hnext
        exact ⟨n + 1, hrun.counted hr hcol⟩
      · obtain ⟨n, hrun⟩ := ih (left + 1) hnext
        exact ⟨n + 1, hrun.skipped hr hcol⟩

/-- A search of 64 steps that may count as many columns as the rack has examines every column (R90). -/
theorem SearchRun.mem_all {nc span r n col : Nat} (h : SearchRun nc 64 span r n) (hnc : nc ≤ 64) (hspan : nc ≤ span)
    (hlow : 1 ≤ col) (hhigh : col ≤ nc) : col ∈ stepColumns nc r n := by
  obtain hlen | rfl := h.stops
  · exact mem_stepColumns_of_length h.le_fuel (hlen ▸ hspan) hlow hhigh
  · exact mem_stepColumns_all r hnc hlow hhigh

/-! ## The cursor under every command -/

/-- EVALUATION_DONE on a live station: the effect and the end of the event. -/
theorem exec_evaluationDone_of_live (p : Pins) {s : State} (hl : s.live = true) :
    exec (.evaluationDone p) s = .next (settle (evaluationDone (s.setPins p))) := by
  have hlive : (s.setPins p).live = true := hl
  simp [exec, execEvaluationDone, live, hlive]

/-- A command that is a frame heard is that frame's hearing; the FAULT rows put their kind into the first item. -/
theorem exec_of_frame {c : Instr} {h : Header} {items : List Item} (hf : c.frame = some (h, items)) (s : State) :
    ∃ heard, exec c s = .next (hear c.pins h heard s) := by
  cases c with
  | alarm | closing | closed | opened | safe | restore | offer | taken | roomCall | bid | claim | lend | cancel | stockAt
  | stock | stockEnd | stop | resume | writeOff | query | faultBinCaught | faultHandoffLost | fault | requestDone
  | requestFailed | binStored | binOverdue | stationReport | stockRefused | discardedFrame =>
    obtain ⟨⟩ := hf
    exact ⟨_, rfl⟩
  | _ => cases hf

theorem setFooting_sweep (s : State) :
    (s.setLine { s.line with footing := true }).placement.sweep = s.placement.sweep := rfl

/-- A command that is an effect on a live station leaves the cursor alone where its effect does. -/
theorem sweep_of_live {c : Instr} {p : Pins} {f : State → State} {s t : State}
    (hc : exec c s = .next (live p f s)) (hf : ∀ s, (f s).placement.sweep = s.placement.sweep) (h : exec c s = .next t) :
    t.placement.sweep = s.placement.sweep := by
  obtain rfl : live p f s = t := by simpa [hc] using h
  exact live_sweep p f hf s

/-- The same of an effect on the fire inputs, which act in START and UNCONFIGURED too. -/
theorem sweep_of_filterEvent {c : Instr} {p : Pins} {f : State → State} {s t : State}
    (hc : exec c s = .next (filterEvent p f s)) (hf : ∀ s, (f s).placement.sweep = s.placement.sweep)
    (h : exec c s = .next t) : t.placement.sweep = s.placement.sweep := by
  obtain rfl : filterEvent p f s = t := by simpa [hc] using h
  exact filterEvent_sweep p f hf s

theorem sweep_of_readComplete {p : Pins} {image : List Byte} {s t : State}
    (h : exec (.readComplete p image) s = .next t) : t.placement.sweep = s.placement.sweep := by
  simp only [exec, execReadComplete, Host.Outcome.next.injEq] at h
  subst h
  split <;> simp

theorem sweep_of_overdueSweepExpiry {p : Pins} {s t : State} (h : exec (.overdueSweepExpiry p) s = .next t) :
    t.placement.sweep = s.placement.sweep := by
  simp only [exec, execOverdueSweepExpiry, Host.Outcome.next.injEq] at h
  subst h
  split <;> simp

/-- Of the commands that are no frames, an evaluation's end and the two of the reset input alone move the cursor. -/
theorem exec_sweep_of_not_frame {c : Instr} {s t : State} (hev : ∀ p, c ≠ .evaluationDone p)
    (hrel : ∀ p, c ≠ .resetRelease p) (hass : ∀ p, c ≠ .resetAssert p) (hframe : c.frame = none)
    (h : exec c s = .next t) : t.placement.sweep = s.placement.sweep := by
  cases c with
  | evaluationDone p => exact absurd rfl (hev p)
  | resetRelease p => exact absurd rfl (hrel p)
  | resetAssert p => exact absurd rfl (hass p)
  | readComplete => exact sweep_of_readComplete h
  | overdueSweepExpiry => exact sweep_of_overdueSweepExpiry h
  | inputActive _ i => exact sweep_of_filterEvent rfl (inputReadsActive_sweep i) h
  | inputInactive _ i => exact sweep_of_filterEvent rfl (inputReadsInactive_sweep i) h
  | inputFilterExpiry _ i => exact sweep_of_filterEvent rfl (expiry_sweep _ _ (filterExpires_sweep i)) h
  | contention _ rivals => exact sweep_of_live rfl (contend_sweep rivals) h
  | frameAbandoned => exact sweep_of_live rfl (frameEnds_sweep .unheard) h
  | outcome _ ack obj => exact sweep_of_live rfl (frameEnds_sweep (outcomeOf ack obj)) h
  | lineIdle => exact sweep_of_live rfl setFooting_sweep h
  | inPosition => exact sweep_of_live rfl inPosition_sweep h
  | forkTagRead _ r => exact sweep_of_live rfl (forkTagRead_sweep r) h
  | forkDone => exact sweep_of_live rfl forkDone_sweep h
  | stopped => exact sweep_of_live rfl craneStopped_sweep h
  | moveBudgetExpiry => exact sweep_of_live rfl (expiry_sweep _ _ budgetExpires_sweep) h
  | holdLimitExpiry => exact sweep_of_live rfl (expiry_sweep _ _ storeBack_sweep) h
  | arrival _ place => exact sweep_of_live rfl (entryReport_sweep place) h
  | binAtPosition _ place => exact sweep_of_live rfl (positionReport_sweep place) h
  | portInTagRead _ id => exact sweep_of_live rfl (portInTagRead_sweep id) h
  | transferLimitExpiryOut _ l => exact sweep_of_live rfl (expiry_sweep _ _ (transferOutExpires_sweep l)) h
  | diversionExpiry => exact sweep_of_live rfl (expiry_sweep _ _ diversionTransferExpires_sweep) h
  | transferLimitExpiryIn _ l => exact sweep_of_live rfl (expiry_sweep _ _ (inExpires_sweep l)) h
  | mergeTransferExpiry => exact sweep_of_live rfl (expiry_sweep _ _ mergeTransferExpires_sweep) h
  | offerRetryExpiry _ l => exact sweep_of_live rfl (expiry_sweep _ _ (clearRetry_sweep l)) h
  | mergeWaitExpiry => exact sweep_of_live rfl (expiry_sweep _ _ mergeWaitExpires_sweep) h
  | windowExpiry _ call => exact sweep_of_live rfl (expiry_sweep _ _ (callWindowExpires_sweep call)) h
  | closingRetryExpiry => exact sweep_of_live rfl (expiry_sweep _ _ closingRetryExpires_sweep) h
  | closeLimitExpiry => exact sweep_of_live rfl (expiry_sweep _ _ closeLimitExpires_sweep) h
  | shutterDriveLimitExpiry => exact sweep_of_live rfl (expiry_sweep _ _ driveLimitExpires_sweep) h
  | closedSensor => exact sweep_of_live rfl shutterClosed_sweep h
  | openSensor => exact sweep_of_live rfl shutterOpened_sweep h
  | boundarySensorChange => exact sweep_of_live rfl (fun _ => rfl) h
  | _ => cases hframe

/-- An evaluation's end and the two commands of the reset input alone move the cursor (R90). -/
theorem exec_sweep {c : Instr} {s t : State} (hev : ∀ p, c ≠ .evaluationDone p) (hrel : ∀ p, c ≠ .resetRelease p)
    (hass : ∀ p, c ≠ .resetAssert p) (h : exec c s = .next t) : t.placement.sweep = s.placement.sweep := by
  cases hframe : c.frame with
  | none => exact exec_sweep_of_not_frame hev hrel hass hframe h
  | some x =>
    obtain ⟨heard, hexec⟩ := exec_of_frame hframe s
    obtain rfl : hear c.pins x.1 heard s = t := by simpa [hexec] using h
    exact hear_sweep c.pins x.1 heard s

end Sys2Proof.Machine

namespace Sys2Proof.Proofs
open Sys2Proof Sys2Proof.Machine

/-- Settles O19: a search is a run of steps; steps examine no column twice, and enough of them every column; an evaluation's end
leaves the cursor where its search did, and every other command but a reset leaves it alone. -/
theorem searchExaminesColumns : Obligations.SearchExaminesColumns := by
  refine ⟨fun r k hr hk => rev6_testBit r hr k hk, ?search, ?evaluation, fun c s t => exec_sweep⟩
  case search =>
    intro nc span r _ hnc _ _ hr
    obtain ⟨n, hrun⟩ := exists_searchRun nc 64 span hr
    exact ⟨n, hrun.le_fuel, hrun.result, hrun.length_le, hrun.stops, hrun.goesOn, nodup_stepColumns nc r hrun.le_fuel,
      fun hspan col => hrun.mem_all hnc hspan⟩
  case evaluation =>
    intro p s hl
    refine ⟨_, exec_evaluationDone_of_live p hl, fun c hc => ?_, fun hc => ?_⟩
    all_goals simp [evaluationDone_sweep, hc]

end Sys2Proof.Proofs
end

