-- ==== Sys2Proof/Proofs/ClosingAnswer.lean ====
section
/-! PROOFS. A CLOSING heard (R143): the gate admits it in every mode a live station is in, the objection of the model is the one
of the rule, and the first item leaves the state as the sender's entry left it. -/

namespace Sys2Proof.Machine
open Sys2Proof Safety

/-- No column of the gate turns a CLOSING away (R143: in any mode from STOCKING on). -/
theorem gate_closing {s : State} (hl : s.live = true) (seg : Nat) : gate s (.closing seg) = .admitted := by
  have hidle : s.mode.idle = false := by
    simp only [State.live, Bool.and_eq_true, Bool.not_eq_true'] at hl
    exact hl.2
  cases hm : s.mode with
  | start | unconfigured => simp [hm, Mode.idle] at hidle
  | stocking | run | guard | halted | fire | fireSafe => simp [gate, hm, gateStocking, gateHalted, gateFire]

/-- A transfer with another station is the transfer of the place: one with the own station is internal (R107). -/
theorem outExternal_peer_iff {peer : Nat} {s : State} {l : Lane} (ho : peer ≠ s.cfg.station) :
    (∃ x, outExternal s l = some x ∧ x.peer = peer) ↔ ∃ x, s.spine.out l = some x ∧ x.peer = peer := by
  simp only [outExternal, Option.filter_eq_some_iff, Handoff.external, bne_iff_ne]
  constructor
  · rintro ⟨x, ⟨hx, -⟩, hp⟩
    exact ⟨x, hx, hp⟩
  · rintro ⟨x, hx, rfl⟩
    exact ⟨x, ⟨hx, ho⟩, rfl⟩

/-- The three grounds of objection of R143, for a CLOSING of another station. -/
theorem closingObjected_iff {sender : Nat} {s : State} (ho : sender ≠ s.cfg.station) :
    closingObjected sender s = true ↔ sender ≠ s.cfg.up ∨ s.pins.down.entry = true ∨ s.pins.up.position = true
      ∨ ∃ x, s.spine.outUp = some x ∧ x.peer = sender := by
  have hout := outExternal_peer_iff (l := .up) ho
  simp only [Spine.out] at hout
  rw [← hout, closingObjected]
  cases outExternal s .up with
  | none => simp [or_assoc]
  | some x => simp [or_assoc]

/-- A CLOSING dispatched to a live station gives the verdict of R143 and leaves the state as it is. -/
theorem takeItem_closing {s : State} (hl : s.live = true) (h : Header) (seg : Nat) (a : Answers) :
    takeItem h (.closing seg) a s = (a.note (if closingObjected h.sender s then .refused else .taken), s) :=
  takeItem_admitted rfl rfl rfl (gate_closing hl seg)

/-- A CLOSING heard is answered, and what follows it starts from the state the sender's entry left (R143). -/
theorem exec_closing_of_reaches {h : Header} {seg : Nat} {rest : List Item} {s : State} (p : Pins)
    (hr : Reaches h (.closing seg :: rest) s) :
    exec (.closing p h seg rest) s = .next (follow s h rest
      (Answers.none.note (if closingObjected h.sender (entered p h s) then .refused else .taken)) (entered p h s)) := by
  have hlive : (entered p h s).live = true := by simpa [State.live] using hr.live
  have hexec : exec (.closing p h seg rest) s = .next (hear p h (.closing seg :: rest) s) := rfl
  rw [hexec, hear_reaches p hr, takeItem_closing hlive]

end Sys2Proof.Machine

namespace Sys2Proof.Proofs
open Sys2Proof Sys2Proof.Machine Sys2Proof.Safety

/-- Settles O33: the verdict is the objection of the rule in the state the sender's entry leaves, whose configuration and pins are
those of the frame. -/
theorem closingAnswered : Obligations.ClosingAnswered := by
  intro p h seg rest s hr objection
  have hobj : closingObjected h.sender (entered p h s) = true ↔ objection := by
    simpa using closingObjected_iff (s := entered p h s) (by simpa using hr.other)
  rw [exec_closing_of_reaches p hr]
  refine ⟨fun hyes => ?_, fun hno => ?_⟩
  · rw [if_pos (hobj.mpr hyes)]
    rfl
  · rw [if_neg (mt hobj.mp hno)]
    rfl

end Sys2Proof.Proofs
end

