-- ==== Sys2Proof/Proofs/ListFacts.lean ====
section
/-! PROOFS. Facts of lists and conditions that the proofs share and that core Lean does not state. -/

namespace Sys2Proof.Machine

theorem ite_of_iff {α : Type} {p q : Prop} [Decidable p] [Decidable q] (h : p ↔ q) (a b : α) :
    (if p then a else b) = if q then a else b := ite_congr (propext h) (fun _ => rfl) fun _ => rfl

section
variable {α β : Type}

theorem filter_of_true (l : List α) : (l.filter fun _ => true) = l := List.filter_eq_self.mpr fun _ _ => rfl

/-- Members of a list that has a key of its own for each are told apart by their keys. -/
theorem eq_of_key_eq {key : α → β} : ∀ {l : List α}, (l.map key).Nodup → ∀ {a b : α}, a ∈ l → b ∈ l → key a = key b → a = b
  | x :: l, hd, a, b, ha, hb, h => by
    obtain ⟨hx, hd⟩ := List.nodup_cons.mp hd
    have apart {c : α} (hc : c ∈ l) : key c ≠ key x := fun e => hx (List.mem_map.mpr ⟨c, hc, e⟩)
    rcases List.mem_cons.mp ha with hax | ha
    · rcases List.mem_cons.mp hb with hbx | hb
      · exact hax.trans hbx.symm
      · exact absurd (h.symm.trans (congrArg key hax)) (apart hb)
    · rcases List.mem_cons.mp hb with hbx | hb
      · exact absurd (h.trans (congrArg key hbx)) (apart ha)
      · exact eq_of_key_eq hd ha hb h

/-- Two folds agree where their functions do on the members of the list. -/
theorem foldl_congr_mem {f g : α → β → α} : ∀ {l : List β}, (∀ a, ∀ x ∈ l, f a x = g a x) → ∀ a : α, l.foldl f a = l.foldl g a
  | [], _, _ => rfl
  | x :: l, h, a => by
    rw [List.foldl_cons, List.foldl_cons, h a x List.mem_cons_self,
      foldl_congr_mem fun a y hy => h a y (List.mem_cons_of_mem x hy)]

theorem foldl_same {f : α → β → α} {l : List β} (h : ∀ a, ∀ x ∈ l, f a x = a) (a : α) : l.foldl f a = a := by
  induction l with
  | nil => rfl
  | cons x l ih => rw [List.foldl_cons, h a x List.mem_cons_self, ih fun a y hy => h a y (List.mem_cons_of_mem _ hy)]

/-- A list without repetitions is no longer than one that has all its members. -/
theorem length_le_of_subset [BEq α] [LawfulBEq α] : ∀ {l m : List α}, l.Nodup → l ⊆ m → l.length ≤ m.length
  | [], _, _, _ => Nat.zero_le _
  | x :: l, m, hd, hs => by
    obtain ⟨hx, hd⟩ := List.nodup_cons.mp hd
    have hm : x ∈ m := hs List.mem_cons_self
    have rest : l ⊆ m.erase x := fun y hy =>
      (List.mem_erase_of_ne fun e : y = x => hx (e ▸ hy)).mpr (hs (List.mem_cons_of_mem x hy))
    have := length_le_of_subset hd rest
    rw [List.length_erase_of_mem hm] at this
    have := List.length_pos_of_mem hm
    rw [List.length_cons]
    omega

end

end Sys2Proof.Machine
end

