-- ==== Sys2Proof/Proofs/Changes.lean ====
section
/-! PROOFS. What the operations of the blocks can do to the state, said once: each is a chain of changes of single blocks, and what a
change may do to a block is listed here by constructors. An invariant that every constructor keeps is kept by every operation. -/

namespace Sys2Proof.Machine
open Sys2Proof

/-! ## Changes of one block -/

/-- The directory changes by writes of slot records, bins, loads and the cursor (R3). -/
inductive DirChange (c : Directory) : Directory → Prop
  | refl : DirChange c c
  | slot {d : Directory} (h : DirChange c d) (sl : Slot) (r : SlotRec) : DirChange c (d.setSlot sl r)
  | bin {d : Directory} (h : DirChange c d) (b : Nat) (e : BinEntry) : DirChange c (d.setBin b e)
  | drop {d : Directory} (h : DirChange c d) (b : Nat) : DirChange c (d.dropBin b)
  | load {d : Directory} (h : DirChange c d) (sl : Slot) (n : Nat) : DirChange c (d.setLoad sl n)
  | cursor {d : Directory} (h : DirChange c d) (x : Option Slot) : DirChange c { d with cursor := x }

/-- The request pool changes by erasures, rewrites, and entries made while it has room (R64, R70). -/
inductive PoolChange (p : Table Request) : Table Request → Prop
  | refl : PoolChange p p
  | erase {q : Table Request} (h : PoolChange p q) (k : Nat) : PoolChange p (tblErase k q)
  | modify {q : Table Request} (h : PoolChange p q) (k : Nat) (f : Request → Request) : PoolChange p (tblModify k f q)
  | put {q : Table Request} (h : PoolChange p q) (k : Nat) (v : Request) (room : q.length < 48) : PoolChange p (tblPut k v q)

/-- The placement unit changes by rewrites that keep the call of each entry, removals, an entry for a new call while the table has
room, and a cursor that stays in range (R87, R88, R90). -/
inductive CallsChange (p : Placement) : Placement → Prop
  | refl : CallsChange p p
  | rewrite {q : Placement} (h : CallsChange p q) (f : CallEntry → CallEntry) (call : ∀ e, (f e).call = e.call) :
      CallsChange p { q with calls := q.calls.map f }
  | keep {q : Placement} (h : CallsChange p q) (f : CallEntry → Bool) : CallsChange p { q with calls := q.calls.filter f }
  | add {q : Placement} (h : CallsChange p q) (e : CallEntry) (room : q.calls.length < 4) (new : q.entry e.call = none) :
      CallsChange p { q with calls := q.calls ++ [e] }
  | sweep {q : Placement} (h : CallsChange p q) (r : Nat) (range : q.sweep < 64 → r < 64) : CallsChange p { q with sweep := r }

/-- How far a change reaches: what the station was told or has heard is written by an event alone, and stands through the other
operations of the blocks: stock end and stop, alarm records and input filters, neighbour table, answer slots and footing. -/
inductive Scope where
  | blocks | event

/-- The line unit changes by admissions, removals, new owners, a frame that wins contention while none is on the line, the flags and
the sender's entry (R163, R170, R175, R176). -/
inductive LineChange (k : Scope) (u : LineUnit) : LineUnit → Prop
  | refl : LineChange k u u
  | joins {v : LineUnit} (h : LineChange k u v) (f : TxFrame) (waits : f.waits = true) :
      LineChange k u (v.afterAdmission (admission f v.queue))
  | keep {v : LineUnit} (h : LineChange k u v) (p : TxFrame → Bool) : LineChange k u (v.setQueue (v.queue.filter p))
  | disown {v : LineUnit} (h : LineChange k u v) (own : TxFrame → Owner) :
      LineChange k u (v.setQueue (v.queue.map fun f => { f with owner := own f }))
  | win {v : LineUnit} (h : LineChange k u v) (f : TxFrame) (q : List TxFrame) (w : Byte) (front : v.queue = f :: q)
      (free : ∀ g ∈ v.queue, g.waits = true) : LineChange k u (v.setQueue ({ f with onLine := some w } :: q))
  | discard {v : LineUnit} (h : LineChange k u v) (discarded : Bool) : LineChange k u { v with discarded := discarded }
  | flags {v : LineUnit} (h : LineChange k u v) (hk : k = .event) (footing ack obj : Bool) :
      LineChange k u { v with footing := footing, ack := ack, obj := obj }
  | enter {v : LineUnit} (h : LineChange k u v) (hk : k = .event) (n : Nat) (x : Byte × Time) :
      LineChange k u { v with neighbours := tblPut n x v.neighbours }

/-- An event changes the state block by block; clock, reset input, loader, configuration, pins and pending commands stay,
and no event leads back to START or UNCONFIGURED. -/
inductive Change (k : Scope) (s : State) : State → Prop
  | refl : Change k s s
  | mode {t : State} (h : Change k s t) (v : Mode) (hv : v.idle = false) : Change k s (t.setMode v)
  | stockEnded {t : State} (h : Change k s t) (hk : k = .event) (v : Bool) : Change k s (t.setStockEnded v)
  | stopTaken {t : State} (h : Change k s t) (hk : k = .event) (v : Bool) : Change k s (t.setStopTaken v)
  | safeMade {t : State} (h : Change k s t) (v : Bool) : Change k s (t.setSafeMade v)
  | limited {t : State} (h : Change k s t) (v : Bool) : Change k s (t.setLimited v)
  | crane {t : State} (h : Change k s t) (v : Crane) : Change k s (t.setCrane v)
  | spine {t : State} (h : Change k s t) (v : Spine) : Change k s (t.setSpine v)
  | shutter {t : State} (h : Change k s t) (x : Option Shutter) : Change k s (t.setFire { t.fire with shutter := x })
  | fire {t : State} (h : Change k s t) (hk : k = .event) (v : Fire) : Change k s (t.setFire v)
  | free {t : State} (h : Change k s t) (v : Nat) : Change k s (t.setFree v)
  | dir {t : State} (h : Change k s t) {d : Directory} (c : DirChange t.dir d) : Change k s (t.setDir d)
  | planner {t : State} (h : Change k s t) {p : Planner} (c : PoolChange t.planner.pool p.pool) : Change k s (t.setPlanner p)
  | placement {t : State} (h : Change k s t) {p : Placement} (c : CallsChange t.placement p) : Change k s (t.setPlacement p)
  | line {t : State} (h : Change k s t) {u : LineUnit} (c : LineChange k t.line u) : Change k s (t.setLine u)

/-! ## Changes of the directory (chapter 1) -/

section
variable {cfg : StationConfig} {c d d' : Directory}

theorem DirChange.addLoad (h : DirChange c d) (sl : Slot) (n : Nat) : DirChange c (d.addLoad sl n) := h.load sl _

theorem DirChange.subLoad (h : DirChange c d) (sl : Slot) (n : Nat) : DirChange c (d.subLoad sl n) := h.load sl _

theorem DirChange.rewriteBin (h : DirChange c d) (b : Nat) (old new : BinEntry) :
    DirChange c (d.rewriteBin cfg b old new) := ((h.bin b new).subLoad _ _).addLoad _ _

theorem DirChange.takeOut {now : Time} {b : Nat} (h : DirChange c d) (hd : d.takeOut now b = some d') : DirChange c d' := by
  unfold Directory.takeOut at hd
  split at hd
  · split at hd
    · cases hd
    · cases hd; exact (h.slot _ _).bin _ _
  · cases hd

theorem DirChange.store {b : Nat} {content : Option Contents} {room : Option (Nat × Nat)} (h : DirChange c d)
    (hd : d.store cfg b content room = some d') : DirChange c d' := by
  unfold Directory.store at hd
  split at hd
  · split at hd
    · cases hd; exact (h.slot _ _).rewriteBin _ _ _
    · cases hd
  · cases hd

theorem DirChange.reslot {b : Nat} {old new : Slot} {start : Pos} (h : DirChange c d)
    (hd : d.reslot cfg b old start = some (new, d')) : DirChange c d' := by
  unfold Directory.reslot at hd
  split at hd
  · split at hd
    · split at hd
      · cases hd; exact ((h.slot _ _).slot _ _).rewriteBin _ _ _
      · cases hd
    · cases hd
  · cases hd

theorem DirChange.locate (h : DirChange c d) (b : Nat) (loc : Location) : DirChange c (d.locate b loc) := by
  unfold Directory.locate
  split
  · split
    · exact h.bin _ _
    · exact h
  · exact h

theorem DirChange.adopt {now : Time} {r : TravelRecord} {loc : Location} (h : DirChange c d)
    (hd : d.adopt cfg now r loc = some d') : DirChange c d' := by
  unfold Directory.adopt at hd
  split at hd
  · cases hd; exact ((h.slot _ _).bin _ _).addLoad _ _
  · cases hd

theorem DirChange.placeHold {b v m : Nat} (h : DirChange c d) (hd : d.placeHold cfg b v m = some d') : DirChange c d' := by
  unfold Directory.placeHold at hd
  split at hd
  · split at hd
    · cases hd; exact (h.bin _ _).addLoad _ _
    · cases hd
  · cases hd

theorem DirChange.releaseHold (h : DirChange c d) (b v m : Nat) : DirChange c (d.releaseHold b v m) := by
  unfold Directory.releaseHold
  split
  · exact (h.bin _ _).subLoad _ _
  · exact h

theorem DirChange.doubtBin (h : DirChange c d) (b : Nat) : DirChange c (d.doubtBin b) := by
  unfold Directory.doubtBin
  split
  · split
    · exact h
    · exact (h.slot _ _).bin _ _
  · exact h

theorem DirChange.markDoubt (h : DirChange c d) (b x : Nat) : DirChange c (d.markDoubt b x) := by
  unfold Directory.markDoubt
  split
  · exact h.doubtBin b
  · exact (h.doubtBin b).doubtBin x

theorem DirChange.removeBin (h : DirChange c d) (b : Nat) : DirChange c (d.removeBin cfg b) := by
  unfold Directory.removeBin
  split
  · exact (h.drop _).subLoad _ _
  · exact h

theorem DirChange.enterBin (h : DirChange c d) (body : StockBody) (sl : Slot) (pv pm : Nat) :
    DirChange c (d.enterBin cfg body sl pv pm) := ((h.slot _ _).bin _ _).addLoad _ _

theorem DirChange.stockApply (h : DirChange c d) (sl : Slot) (body : StockBody) : DirChange c (d.stockApply cfg sl body).1 := by
  unfold Directory.stockApply
  split
  · split
    · exact (h.removeBin _).enterBin _ _ _ _
    · split
      · exact (h.removeBin _).slot _ _
      · exact (h.removeBin _).enterBin _ _ _ _
  · split
    · exact h.slot _ _
    · exact h.enterBin _ _ _ _

theorem DirChange.writeOff (h : DirChange c d) (b : Nat) : DirChange c (d.writeOff cfg b) := by
  unfold Directory.writeOff
  split
  · exact (h.removeBin _).slot _ _
  · exact h

end

/-! ## Changes of the request pool (R64) -/

theorem PoolChange.freeRequests {p q : Table Request} (h : PoolChange p q) (ids : List Nat) :
    PoolChange p (freeRequests ids q) := by
  unfold Machine.freeRequests
  induction ids generalizing q with
  | nil => exact h
  | cons i ids ih => exact ih (h.erase i)

theorem PoolChange.relist {p q : Table Request} (h : PoolChange p q) (ids : List Nat) (n : Nat) :
    PoolChange p (relist ids n q) := by
  unfold Machine.relist
  induction ids generalizing q with
  | nil => exact h
  | cons i ids ih => exact ih (h.modify i _)

/-! ## Changes of the placement unit and of the line unit -/

theorem CallsChange.modify {p q : Placement} (h : CallsChange p q) (c : Call) (f : CallEntry → CallEntry)
    (call : ∀ e, (f e).call = e.call) : CallsChange p (q.modify c f) :=
  h.rewrite _ fun e => by split <;> simp [call]

theorem CallsChange.remove {p q : Placement} (h : CallsChange p q) (c : Call) : CallsChange p (q.remove c) := h.keep _

theorem LineChange.tryTaken {u v : LineUnit} (h : LineChange k u v) (own bin : Nat) (place : TakenPlace) (left sending : Nat) :
    LineChange k u (tryTaken own bin place left sending v) := by
  induction left generalizing sending with
  | zero => exact h
  | succ left ih =>
    unfold Machine.tryTaken
    dsimp only
    split
    · exact h.joins _ rfl
    · exact ih _

/-! ## Combining changes -/

section
variable {k : Scope} {s t u : State}

theorem Change.ite {p : Prop} [Decidable p] (ht : Change k s t) (hu : Change k s u) : Change k s (if p then t else u) := by
  split
  · exact ht
  · exact hu

theorem Change.foldl {α : Type} {f : State → α → State} (step : ∀ {t : State} (a : α), Change k s t → Change k s (f t a))
    (l : List α) (h : Change k s t) : Change k s (l.foldl f t) := by
  induction l generalizing t with
  | nil => exact h
  | cons a l ih => exact ih (step a h)

/-- The planner's other records change at will. -/
theorem Change.plan (h : Change k s t) (p : Planner) (hp : p.pool = t.planner.pool) : Change k s (t.setPlanner p) :=
  h.planner (hp ▸ .refl)

theorem Change.noteHeld (h : Change k s t) (b : Bool) : Change k s (noteHeld b t) := h.limited _

end

end Sys2Proof.Machine
end

