-- ==== Sys2Proof/Proofs/ChangesOfBlocks.lean ====
section
/-! PROOFS. The operations of planner, transmit queue, crane unit, spine unit, placement unit and fire unit as chains of changes, in
the order of their definitions. -/

namespace Sys2Proof.Machine
open Sys2Proof

variable {k : Scope} {s t : State}

/-! ## Planner (chapter 4) -/

theorem Change.handBack (h : Change k s t) (n : Nat) : Change k s (handBack n t) := by
  have free (ids : List Nat) : PoolChange t.planner.pool (t.planner.freePool ids).pool := PoolChange.refl.freeRequests ids
  unfold Machine.handBack
  split
  · exact h
  · dsimp only
    split
    · exact h.planner (free _)
    · split
      · exact h.planner (free _)
      · exact h.planner ((free _).relist _ _)

theorem Change.handBackLink (h : Change k s t) (link : Option Nat) : Change k s (handBackLink link t) := by
  cases link with
  | none => exact h
  | some n => exact h.handBack n

theorem Change.releaseBin (h : Change k s t) (b : Nat) : Change k s (releaseBin b t) := h.plan _ rfl
theorem Change.withholdBin (h : Change k s t) (b : Nat) : Change k s (withholdBin b t) := h.plan _ rfl
theorem Change.reportRoute (h : Change k s t) (o : Bool) : Change k s (reportRoute o t) := h.plan _ rfl

theorem Change.visitTo (h : Change k s t) (link : Option Nat) (st : VisitState) : Change k s (visitTo link st t) := by
  cases link with
  | none => exact h
  | some n => exact h.plan _ rfl

theorem Change.reserveEntry (h : Change k s t) (b : Nat) (desk : Desk) : Change k s (reserveEntry b desk t) := h.plan _ rfl
theorem Change.dropReservation (h : Change k s t) (b : Nat) (desk : Desk) : Change k s (dropReservation b desk t) := h.plan _ rfl

theorem Change.takeRoomPart (h : Change k s t) (b : Nat) (part : RoomPart) : Change k s (takeRoomPart b part t) := by
  have h := h.dropReservation b part.call.desk
  unfold Machine.takeRoomPart
  dsimp only
  split
  · exact h.plan _ rfl
  · exact h.plan _ rfl

theorem Change.clearStow (h : Change k s t) : Change k s (clearStow t) := h.plan _ rfl
theorem Change.setStow (h : Change k s t) (st : StowState) : Change k s (setStow st t) := h.plan _ rfl
theorem Change.promoteStow (h : Change k s t) : Change k s (promoteStow t) :=
  (h.plan { t.planner with mark := true } rfl).ite h
theorem Change.clearPassed (h : Change k s t) : Change k s (clearPassed t) := h.plan _ rfl
theorem Change.stampStart (h : Change k s t) : Change k s (stampStart t) := h.plan _ rfl

/-! ## Transmit queue and calls (chapters 5 and 9) -/

theorem Change.releaseEntry (h : Change k s t) (e : CallEntry) : Change k s (releaseEntry e t) := by
  unfold Machine.releaseEntry
  split
  · exact h.ite (h.dir (DirChange.refl.releaseHold _ _ _))
  · exact h

theorem Change.unreserveEntry (h : Change k s t) (e : CallEntry) : Change k s (unreserveEntry e t) := by
  unfold Machine.unreserveEntry
  split
  · exact h.dropReservation _ _
  · exact h

theorem Change.bidRefused (h : Change k s t) (c : Call) : Change k s (bidRefused c t) := by
  unfold Machine.bidRefused
  split
  · exact (h.releaseEntry _).placement (CallsChange.refl.modify _ _ fun _ => rfl)
  · exact h

theorem Change.claimLost (h : Change k s t) (c : Call) : Change k s (claimLost c t) := by
  unfold Machine.claimLost
  split
  · exact ((h.releaseEntry _).unreserveEntry _).placement (CallsChange.refl.remove _)
  · exact h

theorem Change.startRetry (h : Change k s t) (l : Lane) : Change k s (startRetry l t) := by
  cases l <;> exact h.spine _

theorem Change.startClosingRetry (h : Change k s t) : Change k s (startClosingRetry t) := h.shutter _

theorem Change.frameRefused (h : Change k s t) (o : Owner) : Change k s (frameRefused o t) := by
  cases o with
  | plain | alarm => exact h
  | closing => exact h.startClosingRetry
  | offer l => exact h.startRetry l
  | taken bin place sending => exact h.line (LineChange.refl.tryTaken _ _ _ _ _)
  | bid c => exact h.bidRefused c
  | claim c => exact h.claimLost c

theorem Change.queueFrame (h : Change k s t) (f : TxFrame) (waits : f.waits = true) : Change k s (queueFrame f t) := by
  have h := h.line (LineChange.refl.joins f waits)
  unfold Machine.queueFrame
  dsimp only
  split
  · exact h.frameRefused _
  · exact h.frameRefused _
  · exact h

theorem Change.notice (h : Change k s t) (items : List Item) : Change k s (notice items t) := h.line (LineChange.refl.joins _ rfl)
theorem Change.faultNotice (h : Change k s t) (b : FaultBody) : Change k s (faultNotice b t) := h.notice _
theorem Change.withdraw (h : Change k s t) (p : Owner → Bool) : Change k s (withdraw p t) := h.line (LineChange.refl.keep _)

theorem Change.requestFailed (h : Change k s t) (why : FailReason) (kind : AnsweredKind) (b : Nat) (desk : Option Desk)
    (requests : List (Nat × Nat)) : Change k s (requestFailed why kind b desk requests t) := h.notice _

theorem Change.requestDone (h : Change k s t) (b : Nat) (desk : Desk) (requests : List (Nat × Nat)) :
    Change k s (requestDone b desk requests t) := h.notice _

theorem Change.failVisit (h : Change k s t) (n : Nat) (why : FailReason) (release : Bool) :
    Change k s (failVisit n why release t) := by
  unfold Machine.failVisit
  split
  · exact h
  · dsimp only
    next v _ =>
    have hp : Change k s (t.setPlanner ((t.planner.removeVisit n).freePool v.requests)) :=
      h.planner (PoolChange.refl.freeRequests _)
    split
    · exact ((hp.ite (hp.requestFailed _ _ _ _ _)).dir (DirChange.refl.releaseHold _ _ _)).ite
        (hp.ite (hp.requestFailed _ _ _ _ _))
    · exact hp.ite (hp.requestFailed _ _ _ _ _)

theorem Change.failVisits (h : Change k s t) (b : Nat) (why : FailReason) : Change k s (failVisits b why t) :=
  Change.foldl (fun n h => h.failVisit n why false) _ h

theorem Change.closeCall (h : Change k s t) (c : Call) : Change k s (closeCall c t) := by
  unfold Machine.closeCall
  split
  · exact h
  · dsimp only
    next e _ =>
    have hr := ((h.withdraw (Owner.isCall c)).ite (p := e.state = .bidQueued ∨ e.state = .claimQueued) h).releaseEntry e
    exact ((hr.unreserveEntry e).ite hr).placement (CallsChange.refl.remove _)

theorem Change.closeCalls (h : Change k s t) (p : CallState → Bool) : Change k s (closeCalls p t) :=
  Change.foldl (fun c h => h.closeCall c) _ h

theorem Change.closeCallsOfBin (h : Change k s t) (b : Nat) : Change k s (closeCallsOfBin b t) :=
  Change.foldl (fun c h => h.closeCall c) _ (h.placement (CallsChange.refl.rewrite _ fun e => by split <;> rfl))

/-! ## Crane unit (chapter 3) -/

theorem Change.craneTo (h : Change k s t) (st : CraneState) : Change k s (craneTo st t) := h.crane _
theorem Change.readEncoders (h : Change k s t) : Change k s (readEncoders t) := h.crane _
theorem Change.clearCurrent (h : Change k s t) : Change k s (clearCurrent t) := h.crane _
theorem Change.askLeg (h : Change k s t) (a b : Pos) (fork : Bool) : Change k s (askLeg a b fork t).2 := h.noteHeld _
theorem Change.locateBin (h : Change k s t) (b : Nat) (loc : Location) : Change k s (locateBin b loc t) :=
  h.dir (DirChange.refl.locate _ _)
theorem Change.setPortOut (h : Change k s t) (x : PlaceState) : Change k s (setPortOut x t) := h.spine _
theorem Change.setPortIn (h : Change k s t) (x : PlaceState) : Change k s (setPortIn x t) := h.spine _

theorem Change.reportStart (h : Change k s t) (m : Move) : Change k s (reportStart m t) := by
  unfold Machine.reportStart
  split
  · exact h.stampStart.visitTo _ _
  · exact h.stampStart.visitTo _ _
  · exact h.stampStart.plan _ rfl
  · exact h.stampStart
  · exact h

theorem Change.startMove (h : Change k s t) (m : Move) : Change k s (startMove m t) := (h.crane _).ite ((h.crane _).reportStart _)
theorem Change.holdDeliver (h : Change k s t) (m : Move) : Change k s (holdDeliver m t) := (h.crane _).visitTo _ _

theorem Change.stageContinuation (h : Change k s t) (m : Move) : Change k s (stageContinuation m t) := by
  unfold Machine.stageContinuation
  split
  · exact (h.noteHeld _).crane _
  · exact (h.noteHeld _).crane _
  · exact h

theorem Change.askEstimate (h : Change k s t) (target : Target) (fork : Bool) : Change k s (askEstimate target fork t).2 :=
  (h.noteHeld _).crane _

theorem Change.makeCurrent (h : Change k s t) (kind : MoveKind) (target : Target) (visit : Option Nat) (bound : Bool) :
    Change k s (makeCurrent kind target visit bound t) := by
  have h := h.clearPassed.askEstimate target kind.forks
  unfold Machine.makeCurrent
  cases kind with
  | deliver => exact (h.startMove _).ite (h.holdDeliver _)
  | fetch | takeIn => exact (h.startMove _).stageContinuation _
  | store | park => exact h.startMove _

theorem Change.discardStaged (h : Change k s t) : Change k s (discardStaged t) := by
  unfold Machine.discardStaged
  split
  · exact h
  · next m _ =>
    have h := h.crane { t.crane with staged := none }
    refine h.ite ?_
    cases m.kind with
    | fetch => exact h.handBackLink _
    | takeIn => exact (h.setStow _).ite h
    | deliver | store | park => exact h

theorem Change.storeBlocked (h : Change k s t) (b : Nat) (slot : SlotName) : Change k s (storeBlocked b slot t) :=
  (h.clearCurrent.discardStaged.crane _).faultNotice _

theorem Change.makeStore (h : Change k s t) (b : Nat) : Change k s (makeStore b t) := by
  unfold Machine.makeStore
  split
  · exact h.makeCurrent _ _ _ _
  · exact h.storeBlocked _ _

theorem Change.nextMove (h : Change k s t) : Change k s (nextMove t) := by
  unfold Machine.nextMove
  split
  · split
    · exact h.makeCurrent _ _ _ _
    · exact h.makeStore _
  · exact h

theorem Change.park (h : Change k s t) : Change k s (park t) := h.discardStaged.makeCurrent _ _ _ _

theorem Change.promote (h : Change k s t) : Change k s (promote t) := by
  unfold Machine.promote
  split
  · exact h.craneTo _
  · have hs := h.crane { t.crane with staged := none }
    split
    · dsimp only
      split
      · exact hs.makeStore _
      · exact hs.makeCurrent _ _ _ _
    · exact (hs.makeCurrent _ _ _ _).ite (h.discardStaged.craneTo _)

theorem Change.afterCompletion (h : Change k s t) : Change k s (afterCompletion t) := (h.crane _).park.ite h.promote

theorem Change.storeBin (h : Change k s t) (b : Nat) (content : Option Contents) (room : Option (Nat × Nat)) :
    Change k s (storeBin b content room t) := by
  unfold Machine.storeBin
  split
  · next hd => exact ((h.dir (DirChange.refl.store hd)).releaseBin _).notice _
  · exact h

theorem Change.carryFetched (h : Change k s t) (b : Nat) (visit : Option Nat) (uncertain : Bool) {d : Directory}
    (hd : DirChange t.dir d) : Change k s (carryFetched b visit uncertain d t) :=
  (((h.dir hd).withholdBin _).crane _).visitTo _ _

theorem Change.abandonFetch (h : Change k s t) (m : Move) : Change k s (abandonFetch m t) := by
  unfold Machine.abandonFetch
  refine (h.handBackLink _).ite ((h.crane _).ite ?_)
  dsimp only
  split
  · next hd => exact h.carryFetched _ _ _ (DirChange.refl.takeOut hd)
  · split
    · exact (h.crane _).failVisit _ _ _
    · exact h.crane _

theorem Change.abandonDeliver (h : Change k s t) (m : Move) : Change k s (abandonDeliver m t) :=
  (((h.visitTo _ _).crane _).setPortOut _).ite (h.visitTo _ _)

theorem Change.abandonTakeIn (h : Change k s t) : Change k s (abandonTakeIn t) := by
  unfold Machine.abandonTakeIn
  refine (h.setStow _).ite ?_
  split
  · exact (((h.crane _).locateBin _ _).setPortIn _).clearStow
  · exact (h.crane _).clearStow

theorem Change.abandonStore (h : Change k s t) : Change k s (abandonStore t) := (h.crane _).ite h

theorem Change.abandonMove (h : Change k s t) : Change k s (abandonMove t) := by
  unfold Machine.abandonMove
  split
  · exact h
  · next m _ =>
    refine Change.clearCurrent ?_
    cases m.kind with
    | fetch => exact h.abandonFetch m
    | deliver => exact h.abandonDeliver m
    | takeIn => exact h.abandonTakeIn
    | store => exact h.abandonStore
    | park => exact h

theorem Change.stall (h : Change k s t) (m : Move) : Change k s (stall m t) :=
  (h.readEncoders.crane _).abandonMove.discardStaged.faultNotice _

theorem Change.loadFault (h : Change k s t) (b : Nat) : Change k s (loadFault b t) := (h.craneTo _).faultNotice _

theorem Change.resolveLoad (h : Change k s t) : Change k s (resolveLoad t).2 := by
  unfold Machine.resolveLoad
  split
  · split
    · split
      · exact h.crane _
      · exact ((h.crane _).storeBin _ _ _).handBackLink _
    · split
      · exact h
      · exact h.loadFault _
  · split
    · exact h.loadFault _
    · exact h.crane _

theorem Change.portOutEmptied (h : Change k s t) : Change k s (portOutEmptied t) := by
  unfold Machine.portOutEmptied
  split
  · exact h.startMove _
  · exact h

theorem Change.dropWaiting (h : Change k s t) : Change k s (dropWaiting t) := (h.crane _).visitTo _ _

theorem Change.craneEntersFire (h : Change k s t) : Change k s (craneEntersFire t) := by
  have h := h.discardStaged
  unfold Machine.craneEntersFire
  dsimp only
  split
  · exact h.park
  · exact h.dropWaiting.park
  · exact h.ite (((h.noteHeld _).crane _).ite ((h.noteHeld _).crane _))
  · exact h

theorem Change.unpark (h : Change k s t) : Change k s (unpark t) := ((h.craneTo _).ite (h.craneTo _).nextMove).ite h

theorem Change.craneStop (h : Change k s t) : Change k s (craneStop t) := by
  unfold Machine.craneStop
  split
  · exact h.craneTo _
  · exact h.craneTo _
  · exact h.dropWaiting.discardStaged.craneTo _
  · exact h.discardStaged.crane _
  · exact h.crane _
  · exact h
  · exact h

/-! ## Choosing the crane's work (4.5) -/

theorem Change.chooseAt (h : Change k s t) (o : Nat) : Change k s (chooseAt t o).2 := by
  unfold Machine.chooseAt
  split
  · exact h
  · exact (h.noteHeld _).ite h

theorem Change.stageFree (h : Change k s t) (w : Work) : Change k s (stageFree w t) := by
  unfold Machine.stageFree
  split
  · cases w with
    | visit v => exact ((h.noteHeld _).crane _).visitTo _ _
    | stow => exact ((h.noteHeld _).crane _).setStow _
  · exact h

theorem Change.giveFree (h : Change k s t) (w : Work) : Change k s (giveFree w t) := (h.makeCurrent _ _ _ _).ite (h.stageFree w)

theorem Change.selectAmong (h : Change k s t) (orders : List Nat) {give : Work → State → State}
    (hg : ∀ w {u : State}, Change k s u → Change k s (give w u)) : Change k s (selectAmong orders give t) := by
  unfold Machine.selectAmong
  split
  · next o _ =>
    have hc := h.chooseAt o
    split
    · next heq => rw [heq] at hc; exact hg _ hc
    · next heq => rw [heq] at hc; exact hc
  · exact h

theorem Change.giveBack (h : Change k s t) (m : Move) : Change k s (giveBack m t) := by
  unfold Machine.giveBack
  split
  · exact h.setStow _
  · exact h.handBackLink _

theorem Change.selectWork (h : Change k s t) : Change k s (selectWork t) := by
  unfold Machine.selectWork
  split
  · exact (h.selectAmong _ fun w _ h => (h.stageFree w).giveBack _).ite h
  · exact h.clearPassed.ite ((h.clearPassed.selectAmong _ fun w _ h => h.giveFree w).ite (h.plan _ rfl))

/-! ## Spine unit (chapter 6) -/

theorem Change.setLane (h : Change k s t) (l : Lane) (v : PlaceState) : Change k s (setLane l v t) := by cases l <;> exact h.spine _
theorem Change.setOut (h : Change k s t) (l : Lane) (v : Option Handoff) : Change k s (setOut l v t) := by cases l <;> exact h.spine _
theorem Change.setIncoming (h : Change k s t) (l : Lane) (v : Option Handoff) : Change k s (setIncoming l v t) := by
  cases l <;> exact h.spine _
theorem Change.clearRetry (h : Change k s t) (l : Lane) : Change k s (clearRetry l t) := by cases l <;> exact h.spine _
theorem Change.driveLane (h : Change k s t) (l : Lane) (on : Bool) : Change k s (driveLane l on t) := by cases l <;> exact h.spine _

theorem Change.handoffLost (h : Change k s t) (b peer : Nat) (place : PlaceCode) (hop : Nat) :
    Change k s (handoffLost b peer place hop t) := h.faultNotice _

theorem Change.grantPortOut (h : Change k s t) : Change k s (grantPortOut t) := by
  unfold Machine.grantPortOut
  split
  · exact h.spine _
  · exact h

theorem Change.mergeArbiter (h : Change k s t) : Change k s (mergeArbiter t) := (h.grantPortOut.ite (h.spine _)).ite h

theorem Change.handOver (h : Change k s t) (b : Nat) (visit : Option Nat) : Change k s (handOver b visit t) :=
  (((((h.free _).ite h).spine _).locateBin _ _).visitTo _ _)

theorem Change.offerLane (h : Change k s t) (l : Lane) : Change k s (offerLane l t) := by
  unfold Machine.offerLane
  split
  · split
    · exact (h.queueFrame _ rfl).ite h
    · exact h
  · exact h

theorem Change.withdrawOffer (h : Change k s t) (l : Lane) : Change k s (withdrawOffer l t) := h.ite (h.withdraw _)

theorem Change.offerOutcome (h : Change k s t) (l : Lane) (peer : Nat) (heard : Bool) : Change k s (offerOutcome l peer heard t) := by
  unfold Machine.offerOutcome
  split
  · exact ((h.setOut _ _).driveLane _ _).ite (h.startRetry _)
  · exact h.startRetry _

theorem Change.acceptOffer (h : Change k s t) (l : Lane) (sender : Nat) (r : TravelRecord) : Change k s (acceptOffer l sender r t) := by
  have h := ((h.setLane l .reserved).setIncoming l (some (newHandoff t r.bin sender (some r)))).driveLane l true
  unfold Machine.acceptOffer
  cases l with
  | down => exact h.spine _
  | up => exact h

theorem Change.noRoom (h : Change k s t) (l : Lane) (r : TravelRecord) : Change k s (noRoom l r t) := by
  refine h.promoteStow.ite ?_
  cases l with
  | down => exact h.spine _
  | up => exact h

theorem Change.hearOffer (h : Change k s t) (sender : Nat) (r : TravelRecord) : Change k s (hearOffer sender r t).2 := by
  unfold Machine.hearOffer
  split
  · exact h
  · split
    · exact h
    · split
      · exact h
      · split
        · exact h.noRoom _ _
        · split
          · exact (h.spine _).grantPortOut
          · split
            · dsimp only
              split
              · exact (h.noteHeld _).acceptOffer _ _ _
              · exact h.noteHeld _
            · exact h.acceptOffer _ _ _

theorem Change.beginDiversion (h : Change k s t) (r : TravelRecord) : Change k s (beginDiversion r t) := (h.spine _).ite h

theorem Change.blockUp (h : Change k s t) (r : TravelRecord) (slot : SlotName) : Change k s (blockUp r slot t) :=
  (h.spine _).faultNotice _

theorem Change.divert (h : Change k s t) (r : TravelRecord) : Change k s (divert r t) := by
  unfold Machine.divert
  split
  · exact (h.beginDiversion r).ite (h.blockUp _ _)
  · dsimp only
    split
    · next hd => exact ((h.noteHeld _).dir (DirChange.refl.adopt hd)).beginDiversion _
    · exact (h.noteHeld _).blockUp _ _

theorem Change.diversionCheck (h : Change k s t) : Change k s (diversionCheck t) := by
  refine Change.ite ?_ h
  split
  · exact h.divert _
  · exact h

theorem Change.fireDiversion (h : Change k s t) : Change k s (fireDiversion t) := by
  refine Change.ite ?_ h
  split
  · exact h.divert _
  · exact h

theorem Change.unannounced (h : Change k s t) (place : SpinePlace) : Change k s (unannounced place t) := by
  cases place <;> exact h.spine _

theorem Change.mergeArrives (h : Change k s t) : Change k s (mergeArrives t) := by
  unfold Machine.mergeArrives
  split
  · exact (((h.spine _).locateBin _ _).visitTo _ _).portOutEmptied
  · exact h.spine _

theorem Change.laneArrives (h : Change k s t) (l : Lane) (x : Handoff) : Change k s (laneArrives l x t) := by
  unfold Machine.laneArrives
  split
  · next r _ =>
    have h := (h.setLane l (.holding (hopped r))).setIncoming l none
    exact ((h.locateBin _ _).ite h).queueFrame _ rfl
  · exact (h.setLane _ _).setIncoming _ _

theorem Change.diversionArrives (h : Change k s t) : Change k s (diversionArrives t) := by
  unfold Machine.diversionArrives
  split
  · exact (h.spine _).locateBin _ _
  · exact h.spine _

theorem Change.laneEntry (h : Change k s t) (l : Lane) : Change k s (laneEntry l t) := by
  unfold Machine.laneEntry
  split
  · split
    · exact (h.laneArrives _ _).ite h.mergeArrives
    · exact h
  · exact h.unannounced _
  · exact h
  · exact h

theorem Change.entryReport (h : Change k s t) (place : SpinePlace) : Change k s (entryReport place t) := by
  cases place with
  | down => exact h.laneEntry _
  | up => exact h.laneEntry _
  | portOut => exact (h.unannounced _).ite h
  | portIn => exact (h.diversionArrives.ite (h.unannounced _)).ite h

theorem Change.positionReport (h : Change k s t) (place : SpinePlace) : Change k s (positionReport place t) := by
  cases place with
  | down => exact (h.driveLane _ _).ite h
  | up => exact ((h.driveLane _ _).ite h).fireDiversion
  | portIn => exact h.spine _
  | portOut => exact h

theorem Change.takenLane (h : Change k s t) (l : Lane) (b : TakenBody) : Change k s (takenLane l b t) := by
  unfold Machine.takenLane
  split
  · exact (((h.setLane _ _).setOut _ _).driveLane _ _).ite h
  · exact (h.setLane _ _).ite h

theorem Change.completeVisit (h : Change k s t) (v : Visit) : Change k s (completeVisit v t) :=
  (h.ite (h.requestDone _ _ _)).planner (PoolChange.refl.freeRequests _)

theorem Change.deskTakes (h : Change k s t) (b : TakenBody) : Change k s (deskTakes b t) := by
  refine Change.ite ?_ h
  split
  · exact h.completeVisit _
  · exact h

theorem Change.hearTaken (h : Change k s t) (b : TakenBody) : Change k s (hearTaken b t) := by
  have h := (h.takenLane .down b).takenLane .up b
  refine Change.deskTakes ?_ b
  split
  · exact h.locateBin _ _
  · exact h

theorem Change.loseHome (h : Change k s t) (r : TravelRecord) : Change k s (loseHome r t) := (h.locateBin _ _).ite h

theorem Change.outExpires (h : Change k s t) (l : Lane) (x : Handoff) : Change k s (outExpires l x t) := by
  refine Change.handoffLost (Change.driveLane (Change.setOut (Change.setLane ?_ _ _) _ _) _ _) _ _ _ _
  split
  · exact h.loseHome _
  · exact h

theorem Change.diversionExpires (h : Change k s t) (x : Handoff) : Change k s (diversionExpires x t) :=
  ((h.spine _).locateBin _ _).handoffLost _ _ _ _

theorem Change.inExpires (h : Change k s t) (l : Lane) : Change k s (inExpires l t) :=
  ((h.setLane _ _).setIncoming _ _).driveLane _ _

theorem Change.mergeExpires (h : Change k s t) (x : Handoff) : Change k s (mergeExpires x t) :=
  ((h.spine _).locateBin _ _).handoffLost _ _ _ _

theorem Change.hearHandoffLost (h : Change k s t) (sender : Nat) (b : FaultBody) : Change k s (hearHandoffLost sender b t) := by
  unfold Machine.hearHandoffLost
  split
  · split
    · exact (h.locateBin _ _).ite h
    · exact h
  · exact h

theorem Change.lowerCaught (h : Change k s t) (sender b : Nat) : Change k s (lowerCaught sender b t) := by
  have hd : Change k s (match inExternal t .down with
      | some x => if x.bin = b ∧ x.peer = sender then
          Machine.driveLane .down false (Machine.setIncoming .down none
            (Machine.setLane .down (if t.pins.down.readsEmpty then .empty else .blocked none none) t))
        else t
      | none => t) := by
    split
    · exact (((h.setLane _ _).setIncoming _ _).driveLane _ _).ite h
    · exact h
  unfold Machine.lowerCaught
  dsimp only
  split
  · exact (((hd.setLane _ _).setOut _ _).driveLane _ _).ite hd
  · exact hd

theorem Change.hearBinCaught (h : Change k s t) (sender : Nat) (b : FaultBody) : Change k s (hearBinCaught sender b t) :=
  ((h.locateBin _ _).lowerCaught _ _).ite (h.locateBin _ _)

theorem Change.dropKept (h : Change k s t) (kept : Option TravelRecord) : Change k s (dropKept kept t) := by
  cases kept with
  | none => exact h
  | some r => exact h.locateBin _ _

theorem Change.clearPlace (h : Change k s t) (place : SpinePlace) : Change k s (clearPlace place t) := by
  unfold Machine.clearPlace
  dsimp only
  split
  · refine Change.ite ?_ h
    cases place with
    | portOut => exact ((h.dropKept _).setPortOut _).portOutEmptied
    | portIn => exact ((h.dropKept _).setPortIn _).clearStow
    | down => exact (h.dropKept _).setLane _ _
    | up => exact (h.dropKept _).setLane _ _
  · exact h

theorem Change.clearBlocked (h : Change k s t) : Change k s (clearBlocked t) :=
  (((h.clearPlace _).clearPlace _).clearPlace _).clearPlace _

theorem Change.binCaught (h : Change k s t) (r : TravelRecord) (place : PlaceCode) : Change k s (binCaught r place t) :=
  ((h.locateBin _ _).ite h).faultNotice _

theorem Change.catchDown (h : Change k s t) : Change k s (catchDown t) := by
  unfold Machine.catchDown
  split
  · have h (x : PlaceState) := ((h.setLane .down x).setOut .down none).driveLane .down false
    dsimp only
    split
    · exact (h _).binCaught _ _
    · exact h _
  · exact h

theorem Change.catchUp (h : Change k s t) : Change k s (catchUp t) := by
  unfold Machine.catchUp
  split
  · have h := ((h.setLane .up (.blocked none none)).setIncoming .up none).driveLane .up false
    dsimp only
    split
    · exact h.binCaught _ _
    · exact h
  · exact h

/-! ## Placement unit (chapter 5) -/

theorem Change.hearRoomCall (h : Change k s t) (sender : Nat) (b : RoomCallBody) : Change k s (hearRoomCall sender b t) := by
  unfold Machine.hearRoomCall
  split
  · next hc =>
    simp only [callTaken, Bool.and_eq_true, decide_eq_true_eq, Option.isNone_iff_eq_none] at hc
    exact h.placement (CallsChange.refl.add (newCall b t) hc.1.2 hc.2)
  · exact h

theorem Change.beginEvaluation (h : Change k s t) : Change k s (beginEvaluation t) := by
  refine h.ite ?_
  split
  · exact h.placement (CallsChange.refl.modify _ _ fun _ => rfl)
  · exact h

theorem Change.bidFor (h : Change k s t) (c : CallEntry) (cost b : Nat) : Change k s (bidFor c cost b t) := by
  unfold Machine.bidFor
  split
  · next d hd =>
    have hp := (h.dir (DirChange.refl.placeHold hd)).placement (p := (t.setDir d).placement.modify c.call
      fun e => { e with state := .bidQueued, own := some (cost, b) }) (CallsChange.refl.modify _ _ fun _ => rfl)
    exact hp.queueFrame _ rfl
  · exact h.placement (CallsChange.refl.modify _ _ fun _ => rfl)

/-- A search leaves the cursor in 0..63 (R90). -/
theorem sweepColumns_cursor_lt (nc fuel span r : Nat) (hr : r < 64) : (sweepColumns nc fuel span r).2 < 64 := by
  fun_induction sweepColumns nc fuel span r with
  | case1 | case2 => exact hr
  | case3 fuel left r hle cols r' heq ih =>
    have hlt := ih (Nat.mod_lt _ (by decide))
    rwa [heq] at hlt
  | case4 fuel left r hgt ih => exact ih (Nat.mod_lt _ (by decide))

theorem Change.evaluationDone (h : Change k s t) : Change k s (evaluationDone t) := by
  unfold Machine.evaluationDone
  split
  · exact h
  · have h (b : Bool) := (h.placement (CallsChange.refl.sweep
      (sweepColumns t.cfg.nc 64 t.cfg.searchSpan t.placement.sweep).2 (sweepColumns_cursor_lt _ _ _ _))).noteHeld b
    dsimp only
    split
    · exact (h _).bidFor _ _ _
    · exact (h _).placement (CallsChange.refl.modify _ _ fun _ => rfl)

theorem Change.hearBid (h : Change k s t) (b : BidBody) : Change k s (hearBid b t) :=
  h.placement (CallsChange.refl.modify _ _ fun e => by
    split
    · split
      · rfl
      · split <;> rfl
    · rfl)

theorem Change.beginClaim (h : Change k s t) (e : CallEntry) : Change k s (beginClaim e t) := by
  unfold Machine.beginClaim
  split
  · next bin _ =>
    have hp := (h.reserveEntry bin e.call.desk).placement
      (p := (Machine.reserveEntry bin e.call.desk t).placement.modify e.call fun e => { e with state := .claimQueued })
      (CallsChange.refl.modify _ _ fun _ => rfl)
    exact (hp.queueFrame _ rfl).ite (h.closeCall _)
  · exact h.closeCall _

theorem Change.windowExpires (h : Change k s t) (e : CallEntry) : Change k s (windowExpires e t) := by
  unfold Machine.windowExpires
  cases e.state with
  | bidSent => exact (h.closeCall _).ite (h.beginClaim _)
  | claimQueued | claimSent => exact h
  | waitingEval | evaluating | noBid | bidQueued => exact h.closeCall _

theorem Change.hearClaim (h : Change k s t) (b : ClaimBody) : Change k s (hearClaim b t) := by
  unfold Machine.hearClaim
  split
  · exact h.ite (h.closeCall _)
  · exact h

theorem Change.claimOutcome (h : Change k s t) (c : Call) (heard : Bool) : Change k s (claimOutcome c heard t) := by
  unfold Machine.claimOutcome
  split
  · split
    · exact ((h.takeRoomPart _ _).placement (CallsChange.refl.remove _)).ite (h.claimLost _)
    · exact h.claimLost _
  · exact h

theorem Change.callSent (h : Change k s t) (c : Call) (st : CallState) : Change k s (callSent c st t) :=
  h.placement (CallsChange.refl.modify _ _ fun _ => rfl)

/-! ## Fire unit (chapter 7) -/

theorem Change.retestRoute (h : Change k s t) : Change k s (retestRoute t) := by
  refine h.ite ?_
  have h := (h.spine { t.spine with routeOpen := downOpen t }).reportRoute (downOpen t)
  exact h.ite (h.closeCalls _)

theorem Change.leaveWorking (h : Change k s t) (old : Mode) : Change k s (leaveWorking old t) := (h.closeCalls _).ite h
theorem Change.enterFire (h : Change k s t) (old : Mode) : Change k s (enterFire old t) := h.craneEntersFire.ite h
/-- A mode derived is one of a configured station (R132). -/
theorem newMode_idle (s : State) : (newMode s).idle = false := by
  unfold newMode
  (repeat' split) <;> rfl

theorem Change.deriveMode (h : Change k s t) : Change k s (deriveMode t) :=
  ((h.mode _ (newMode_idle t)).leaveWorking _).enterFire _
theorem Change.fireFrame (h : Change k s t) (item : Item) (o : Owner) : Change k s (fireFrame item o t) := h.queueFrame _ rfl
theorem Change.setShutter (h : Change k s t) (x : Shutter) : Change k s (setShutter x t) := h.shutter _
theorem Change.startClearing (h : Change k s t) (x : Shutter) : Change k s (startClearing x t) := h.setShutter _

theorem Change.shutterProcedure (h : Change k s t) : Change k s (shutterProcedure t) := by
  unfold Machine.shutterProcedure
  split
  · exact h
  · split
    · exact h.startClearing _
    · exact h.startClearing _
    · exact h.startClearing _
    · exact h.setShutter _
    · exact h.setShutter _
    · exact h.setShutter _
    · exact h.setShutter _

theorem Change.startClosing (h : Change k s t) (x : Shutter) : Change k s (startClosing x t) := h.setShutter _

theorem Change.disownClosing (h : Change k s t) : Change k s (disownClosing t) := by
  have hmap : t.line.queue.map (fun f => if f.owner.isClosing then { f with owner := .plain } else f)
      = t.line.queue.map fun f => { f with owner := if f.owner.isClosing then .plain else f.owner } :=
    List.map_congr_left fun f _ => by split <;> rfl
  unfold Machine.disownClosing
  rw [hmap]
  exact h.line (LineChange.refl.disown _)

theorem Change.dropClosing (h : Change k s t) : Change k s (dropClosing t) := (h.withdraw _).disownClosing

theorem Change.clearCheck (h : Change k s t) : Change k s (clearCheck t) := by
  unfold Machine.clearCheck
  split
  · exact h
  · exact ((h.startClosing _).ite (h.ite (h.queueFrame _ rfl))).ite h

theorem Change.closingOutcome (h : Change k s t) (heard : Bool) : Change k s (closingOutcome heard t) := by
  unfold Machine.closingOutcome
  split
  · exact ((h.startClosing _).ite h.startClosingRetry).ite h
  · exact h

theorem Change.forceClose (h : Change k s t) (x : Shutter) : Change k s (forceClose x t) :=
  (h.dropClosing.startClosing _).catchDown.catchUp

theorem Change.closeLimitExpires (h : Change k s t) : Change k s (closeLimitExpires t) := by
  unfold Machine.closeLimitExpires
  split
  · exact (h.forceClose _).ite (h.setShutter _)
  · exact h

theorem Change.shutterClosed (h : Change k s t) : Change k s (shutterClosed t) := by
  unfold Machine.shutterClosed
  split
  · split
    · exact ((h.setShutter _).fireFrame _ _).retestRoute
    · exact ((h.setShutter _).fireFrame _ _).retestRoute
    · exact h
  · exact h

theorem Change.becomeOpen (h : Change k s t) (x : Shutter) : Change k s (becomeOpen x t) :=
  ((h.setShutter _).fireFrame _ _).retestRoute

theorem Change.shutterOpened (h : Change k s t) : Change k s (shutterOpened t) := by
  unfold Machine.shutterOpened
  split
  · split
    · exact h.becomeOpen _
    · exact h.becomeOpen _
    · exact h
  · exact h

theorem Change.shutterFault (h : Change k s t) (d : ShutterDir) (x : Shutter) : Change k s (shutterFault d x t) :=
  (h.setShutter _).faultNotice _

theorem Change.driveLimitExpires (h : Change k s t) : Change k s (driveLimitExpires t) := by
  unfold Machine.driveLimitExpires
  split
  · split
    · exact h.shutterFault _ _
    · exact h.shutterFault _ _
    · exact h.setShutter _
  · exact h

theorem Change.reopen (h : Change k s t) : Change k s (reopen t) := by
  unfold Machine.reopen
  split
  · refine Change.ite ?_ h
    split
    · exact h.dropClosing.becomeOpen _
    · exact (h.setShutter _).retestRoute
    · exact (h.setShutter _).retestRoute
    · exact (h.setShutter _).retestRoute
    · exact h
    · exact h
    · exact h
  · exact h

theorem Change.endFoundShut (h : Change k s t) (c : Compartment) : Change k s (endFoundShut c t) := by
  unfold Machine.endFoundShut
  split
  · exact h.reopen.ite h
  · exact h

theorem Change.safeCheck (h : Change k s t) : Change k s (safeCheck t) := (((h.safeMade _).mode _ rfl).fireFrame _ _).ite h
theorem Change.setAlarm (h : Change .event s t) (c : Compartment) (r : AlarmRec) : Change .event s (setAlarm c r t) := h.fire rfl _

theorem Change.alarmRaised (h : Change k s t) (c : Compartment) : Change k s (alarmRaised c t) :=
  (h.shutterProcedure.ite h).deriveMode.retestRoute

theorem Change.queueAlarm (h : Change k s t) (c : Compartment) (epoch : Nat) (i : FireInput) :
    Change k s (queueAlarm c epoch i t) := h.fireFrame _ _

theorem Change.localCause (h : Change .event s t) (i : FireInput) : Change .event s (localCause i t) :=
  (h.ite ((h.setAlarm _ _).queueAlarm _ _ _)).ite (((h.setAlarm _ _).queueAlarm _ _ _).alarmRaised _)

theorem Change.hearAlarm (h : Change .event s t) (b : AlarmBody) : Change .event s (hearAlarm b t) :=
  h.ite (((h.withdraw _).setAlarm _ _).ite (((h.withdraw _).setAlarm _ _).alarmRaised _))

theorem Change.setFilter (h : Change .event s t) (i : FireInput) (x : InputFilter) : Change .event s (setFilter i x t) := by
  cases i <;> exact h.fire rfl _

theorem Change.reraise (h : Change .event s t) : Change .event s (reraise t) := Change.foldl (fun i h => h.localCause i) _ h

theorem Change.spineResumes (h : Change k s t) : Change k s (spineResumes t) :=
  ((h.offerLane .down).offerLane .up).mergeArbiter.diversionCheck

theorem Change.restoreEffects (h : Change .event s t) (c : Compartment) : Change .event s (restoreEffects c t) := by
  have hd := ((h.safeMade false).ite (p := (c == ownComp t.cfg) = true) h).deriveMode
  have hr := (hd.unpark.ite (p := (c == ownComp t.cfg) = true) hd).retestRoute.spineResumes
  exact (hr.reopen.ite hr).reraise.ite (hr.reopen.ite hr)

theorem Change.hearRestore (h : Change .event s t) (b : RestoreBody) : Change .event s (hearRestore b t).2 := by
  unfold Machine.hearRestore
  dsimp only
  split
  · split
    · exact ((h.setAlarm _ _).withdraw _).restoreEffects _
    · exact h.endFoundShut _
  · exact h.endFoundShut _

theorem Change.inputReadsActive (h : Change .event s t) (i : FireInput) : Change .event s (inputReadsActive i t) := h.ite (h.setFilter _ _)
theorem Change.inputReadsInactive (h : Change .event s t) (i : FireInput) : Change .event s (inputReadsInactive i t) := h.setFilter _ _

theorem Change.filterExpires (h : Change .event s t) (i : FireInput) : Change .event s (filterExpires i t) := by
  unfold Machine.filterExpires
  dsimp only
  split
  · exact h.setFilter _ _
  · exact h.setFilter _ _
  · exact (h.setFilter _ _).localCause _

theorem Change.applyHeld (h : Change .event s t) : Change .event s (applyHeld t) :=
  Change.foldl (fun i h => (h.setFilter _ _).localCause i) _ h

/-! ## The end of an event -/

theorem Change.settle (h : Change k s t) : Change k s (settle t) :=
  ((((((h.withdrawOffer .down).withdrawOffer .up).selectWork.diversionCheck.mergeArbiter).offerLane .down).offerLane
    .up).clearCheck.safeCheck).beginEvaluation

end Sys2Proof.Machine
end

