-- ==== Sys2Proof/Proofs/ChangesOfCommands.lean ====
section
/-! PROOFS. The frames heard and the commands as chains of changes: which kind of command acts in which way, and that every command but
a reset and the image read is a chain of changes from the state with its pins. -/

namespace Sys2Proof.Machine
open Sys2Proof

variable {k : Scope} {s t : State}

/-! ## Frames heard (chapter 9) -/

theorem Change.stockRefused (h : Change k s t) (r : StockReason) (slot : SlotName) (b : Nat) :
    Change k s (stockRefused r slot b t) := h.notice _

theorem Change.gateNotice (h : Change k s t) (a : Answers) (i : Item) : Change k s (gateNotice a i t).2 := by
  unfold Machine.gateNotice
  cases i with
  | stock b =>
    dsimp only
    split
    · exact h
    · exact h.stockRefused _ _ _
  | lend | cancel | stop | writeOff => exact h.requestFailed _ _ _ _ _
  | stockAt | stockEnd => exact h.stockRefused _ _ _
  | _ => exact h

theorem Change.hearLend (h : Change k s t) (b : LendBody) : Change k s (hearLend b t).2 := by
  unfold Machine.hearLend
  split
  · exact h.requestFailed _ _ _ _ _
  · next hr =>
    have room : t.planner.pool.length < 48 := by
      unfold lendRefusal at hr
      split at hr
      · cases hr
      split at hr
      · cases hr
      split at hr
      · cases hr
      · next hfull => exact Nat.lt_of_not_le hfull
    have put (id : Nat) (r : Request) : PoolChange t.planner.pool (tblPut id r t.planner.pool) := PoolChange.refl.put _ _ room
    split
    · exact h.planner (put _ _)
    · exact h.planner (put _ _)

theorem Change.withdrawStaged (h : Change k s t) (n : Nat) : Change k s (withdrawStaged n t) := by
  unfold Machine.withdrawStaged
  split
  · have hw := (h.crane { t.crane with staged := none }).plan { t.planner with passed := some (readyWork t) } rfl
    split
    · exact hw
    · exact h
  · exact h

theorem Change.cancelListed (h : Change k s t) (id : Nat) (v : Visit) : Change k s (cancelListed id v t) := by
  have free : PoolChange t.planner.pool (t.planner.freePool [id]).pool := PoolChange.refl.freeRequests _
  unfold Machine.cancelListed
  dsimp only
  split
  · have hr : Change k s (t.setPlanner ((t.planner.freePool [id]).removeVisit v.number)) := h.planner free
    exact (hr.withdrawStaged _).ite hr
  · exact h.planner free

theorem Change.cancelMarks (h : Change k s t) (id : Nat) : Change k s (cancelMarks id t) := h.planner (PoolChange.refl.modify _ _)

theorem Change.hearCancel (h : Change k s t) (id : Nat) : Change k s (hearCancel id t).2 := by
  unfold Machine.hearCancel
  split
  · exact h
  · split
    · exact h
    · split
      · exact (h.cancelMarks _).ite (h.cancelListed _ _)
      · exact h.cancelMarks _

theorem Change.hearStockAt (h : Change k s t) (n : SlotName) : Change k s (hearStockAt n t).2 := by
  unfold Machine.hearStockAt
  split
  · exact h.dir (DirChange.refl.cursor _)
  · exact (h.dir (DirChange.refl.cursor _)).stockRefused _ _ _

theorem Change.binRemoved (h : Change k s t) (b : Nat) (why : FailReason) : Change k s (binRemoved b why t) :=
  (h.failVisits _ _).closeCallsOfBin _

theorem Change.stockApplied (h : Change k s t) (sl : Slot) (b : StockBody) : Change k s (stockApplied sl b t) := by
  have h := h.dir (DirChange.refl.stockApply (cfg := t.cfg) sl b)
  refine Change.releaseBin ?_ _
  split
  · exact h.binRemoved _ _
  · exact h

theorem Change.hearStock (h : Change k s t) (b : StockBody) : Change k s (hearStock b t).2 := by
  unfold Machine.hearStock
  split
  · exact h.stockRefused _ _ _
  · dsimp only
    split
    · exact (h.stockRefused _ _ _).dir (DirChange.refl.cursor _)
    · exact (h.stockApplied _ _).dir (DirChange.refl.cursor _)

theorem Change.hearStockEnd (h : Change .event s t) : Change .event s (hearStockEnd t) := (h.stockEnded rfl _).deriveMode

theorem Change.hearWriteOff (h : Change k s t) (b : Nat) : Change k s (hearWriteOff b t).2 := by
  unfold Machine.hearWriteOff
  split
  · exact (h.dir (DirChange.refl.writeOff _)).binRemoved _ _
  · exact h

theorem Change.hearStop (h : Change .event s t) : Change .event s (hearStop t) := (h.stopTaken rfl _).craneStop.deriveMode

theorem Change.leaveHalt (h : Change k s t) : Change k s (leaveHalt t) := (h.craneTo _).ite (h.craneTo _).nextMove

theorem Change.resumeSteps (h : Change k s t) : Change k s (resumeSteps t) := by
  have h := h.readEncoders
  exact (h.resolveLoad.clearBlocked.leaveHalt.ite h.resolveLoad.clearBlocked).ite h.clearBlocked

theorem Change.hearResume (h : Change .event s t) : Change .event s (hearResume t) :=
  ((h.stopTaken rfl _).deriveMode.crane _).ite (h.stopTaken rfl _).deriveMode.resumeSteps

theorem Change.hearQuery (h : Change k s t) : Change k s (hearQuery t) :=
  (((h.notice _).limited _).line (LineChange.refl.discard _)).ite (h.notice _)

theorem Change.hearFault (h : Change k s t) (sender : Nat) (b : FaultBody) : Change k s (hearFault sender b t) := by
  unfold Machine.hearFault
  split
  · exact h.hearHandoffLost _ _
  · exact h.hearBinCaught _ _
  · exact h

theorem Change.applyItem (h : Change .event s t) (hd : Header) (i : Item) : Change .event s (applyItem hd i t).2 := by
  cases i with
  | alarm b => exact h.hearAlarm b
  | restore b => exact h.hearRestore b
  | offer r => exact h.hearOffer _ r
  | taken b => exact h.hearTaken b
  | roomCall b => exact h.hearRoomCall _ b
  | bid b => exact h.hearBid b
  | claim b => exact h.hearClaim b
  | lend b => exact h.hearLend b
  | cancel id => exact h.hearCancel id
  | stockAt n => exact h.hearStockAt n
  | stock b => exact h.hearStock b
  | stockEnd => exact h.hearStockEnd
  | stop => exact h.hearStop
  | resume => exact h.hearResume
  | writeOff b => exact h.hearWriteOff b
  | query => exact h.hearQuery
  | fault b => exact h.hearFault _ b
  | closing | closed | opened | safe | requestDone | requestFailed | binStored | binOverdue | stationReport | stockRefused =>
    exact h

theorem Change.takeItem (h : Change .event s t) (hd : Header) (i : Item) (a : Answers) : Change .event s (takeItem hd i a t).2 := by
  unfold Machine.takeItem
  split
  · exact h
  · split
    · exact h
    · split
      · exact h
      · exact h.gateNotice _ _
      · exact h.applyItem hd i

theorem Change.afterItem (h : Change k s t) : Change k s (afterItem t) :=
  ((h.withdrawOffer .down).withdrawOffer .up).ite ((h.withdrawOffer .down).withdrawOffer .up).clearPassed

theorem Change.takeItems (h : Change .event s t) (hd : Header) (items : List Item) (a : Answers) :
    Change .event s (takeItems hd items a t).2 := by
  induction items generalizing a t with
  | nil => exact h
  | cons i rest ih => exact ih (h.takeItem hd i a).afterItem _

theorem Change.passedSince (h : Change k s t) (before : State) : Change k s (passedSince before t) :=
  (h.plan { t.planner with passed := some (readyWork before) } rfl).ite h

theorem Change.takeClaims (h : Change k s t) (items : List Item) : Change k s (takeClaims items t) := by
  refine Change.foldl (fun i h => ?_) _ h
  cases i with
  | claim b => exact (h.hearClaim b).ite h
  | _ => exact h

theorem Change.enterNeighbour (h : Change .event s t) (hd : Header) : Change .event s (enterNeighbour hd t) :=
  (h.line (LineChange.refl.enter rfl _ _)).ite (h.line (LineChange.refl.enter rfl _ _)).retestRoute

theorem Change.setSlots (h : Change .event s t) (x : Bool × Bool) : Change .event s (setSlots x t) :=
  h.line (LineChange.refl.flags rfl _ _ _)

theorem Change.frameHeard (h : Change .event s t) (hd : Header) (items : List Item) : Change .event s (frameHeard hd items t) := by
  have hs := h.setSlots (false, false)
  have he := hs.enterNeighbour hd
  refine hs.ite (he.settle.ite ((he.takeClaims _).settle.ite ((he.settle.setSlots _).ite ?_)))
  exact ((he.takeItems hd items _).passedSince _).settle.setSlots _

/-! ## The commands -/

theorem Change.reportSent (h : Change k s t) (o : Owner) : Change k s (reportSent o t) := by
  cases o with
  | bid c => exact h.callSent _ _
  | claim c => exact h.callSent _ _
  | _ => exact h

theorem Change.contend (h : Change k s t) (rivals : List (Nat × Nat)) : Change k s (contend rivals t) := by
  unfold Machine.contend
  split
  · next hc =>
    simp only [onLineFrame, Bool.and_eq_true, Option.isNone_iff_eq_none, List.find?_eq_none, Bool.not_eq_true',
      Bool.not_eq_false] at hc
    split
    · next f q hq => exact ((h.line (LineChange.refl.win f q (condWord t) hq hc.2)).reportSent _).ite h
    · exact h
  · exact h

theorem Change.reportOutcome (h : Change k s t) (f : TxFrame) (o : TxOutcome) : Change k s (reportOutcome f o t) := by
  unfold Machine.reportOutcome
  split
  · exact h.offerOutcome _ _ _
  · exact (h.queueFrame _ rfl).ite h
  · exact h.claimOutcome _ _
  · exact h.closingOutcome _
  · exact h
  · exact h
  · exact h

theorem Change.frameEnds (h : Change k s t) (o : TxOutcome) : Change k s (frameEnds o t) := by
  unfold Machine.frameEnds
  split
  · exact (h.line (LineChange.refl.keep _)).reportOutcome _ _
  · exact h

theorem Change.parkCompletes (h : Change k s t) : Change k s (parkCompletes t) :=
  ((h.clearCurrent.craneTo _).crane _).ite ((h.clearCurrent.craneTo _).crane _).unpark

theorem Change.storeAgain (h : Change k s t) (new : Slot) : Change k s (storeAgain new t) := (h.crane _).park.ite (h.makeCurrent _ _ _ _)

theorem Change.slotConflict (h : Change k s t) (b : Nat) (old : Slot) : Change k s (slotConflict b old t) := by
  unfold Machine.slotConflict
  dsimp only
  split
  · next d hd =>
    have hn (b : Bool) : Change k s ((Machine.noteHeld b t).setDir d) := (h.noteHeld b).dir (DirChange.refl.reslot (d := t.dir) hd)
    exact ((hn _).clearCurrent.faultNotice _).storeAgain _
  · exact (h.noteHeld _).storeBlocked _ _

theorem Change.storeInPosition (h : Change k s t) (m : Move) : Change k s (storeInPosition m t) := by
  unfold Machine.storeInPosition
  split
  · exact (h.slotConflict _ _).ite (h.crane _)
  · exact h.crane _

theorem Change.inPosition (h : Change k s t) : Change k s (inPosition t) := by
  unfold Machine.inPosition
  split
  · next m _ _ =>
    refine h.ite ?_
    have h := h.readEncoders
    cases m.kind with
    | park => exact h.parkCompletes
    | store => exact h.storeInPosition m
    | fetch | deliver | takeIn => exact h.crane _
  · exact h

theorem Change.discardBound (h : Change k s t) : Change k s (discardBound t) := by
  unfold Machine.discardBound
  split
  · exact ((h.plan { t.planner with passed := some (readyWork t) } rfl).crane _).ite h
  · exact h

theorem Change.tagMismatch (h : Change k s t) (m : Move) (x : Nat) : Change k s (tagMismatch m x t) := by
  have hd := h.dir (DirChange.refl.markDoubt (Machine.fetchBin m t) x)
  have hw := ((hd.withholdBin x).ite (p := (t.dir.markDoubt (Machine.fetchBin m t) x).isDoubted x = true) hd).withholdBin
    (Machine.fetchBin m t)
  refine Change.discardBound (Change.crane (Change.faultNotice ?_ _) _)
  split
  · exact hw.failVisit _ _ _
  · exact hw

theorem Change.forkTagRead (h : Change k s t) (r : TagRead) : Change k s (forkTagRead r t) := by
  unfold Machine.forkTagRead
  split
  · refine Change.ite ?_ h
    cases r with
    | hit => exact h.crane _
    | noRead => exact (h.crane _).faultNotice _
    | mismatch x => exact h.tagMismatch _ _
  · exact h

theorem Change.takeOutRefused (h : Change k s t) (m : Move) : Change k s (takeOutRefused m t) := by
  have h := (h.clearCurrent.discardStaged.crane { (Machine.discardStaged (Machine.clearCurrent t)).crane with
    state := .faulted, unknownLoad := true, fireFinish := false, drive := .stop }).faultNotice (faultBody .craneLoadUnknown)
  unfold Machine.takeOutRefused
  dsimp only
  split
  · exact h.failVisit _ _ _
  · exact h

theorem Change.fetchDone (h : Change k s t) (m : Move) : Change k s (fetchDone m t) := by
  unfold Machine.fetchDone
  refine h.clearCurrent.afterCompletion.ite ?_
  dsimp only
  split
  · next hd => exact (h.carryFetched _ _ _ (DirChange.refl.takeOut hd)).clearCurrent.afterCompletion
  · exact h.takeOutRefused m

theorem Change.deliverDone (h : Change k s t) : Change k s (deliverDone t) := by
  unfold Machine.deliverDone
  split
  · exact ((h.crane _).clearCurrent.handOver _ _).afterCompletion
  · exact h.clearCurrent.afterCompletion

theorem Change.takeInDone (h : Change k s t) : Change k s (takeInDone t) := by
  unfold Machine.takeInDone
  split
  · exact (((h.crane _).locateBin _ _).setPortIn _).clearStow.clearCurrent.afterCompletion
  · exact h.clearStow.clearCurrent.afterCompletion

theorem Change.storeDone (h : Change k s t) : Change k s (storeDone t) := by
  unfold Machine.storeDone
  split
  · exact ((h.crane _).clearCurrent.storeBin _ _ _).afterCompletion
  · exact h.clearCurrent.afterCompletion

theorem Change.forkDone (h : Change k s t) : Change k s (forkDone t) := by
  unfold Machine.forkDone
  split
  · next m _ _ =>
    refine Change.ite ?_ h
    have h := h.readEncoders
    cases m.kind with
    | fetch => exact h.fetchDone m
    | deliver => exact h.deliverDone
    | takeIn => exact h.takeInDone
    | store => exact h.storeDone
    | park => exact h
  · exact h

theorem Change.fireStopped (h : Change k s t) : Change k s (fireStopped t) :=
  ((h.crane _).abandonMove.craneTo _).resolveLoad.park.ite ((h.crane _).abandonMove.craneTo _).resolveLoad

theorem Change.stopStopped (h : Change k s t) : Change k s (stopStopped t) :=
  ((h.abandonMove.craneTo _).crane _).resumeSteps.ite (h.abandonMove.craneTo _)

theorem Change.craneStopped (h : Change k s t) : Change k s (craneStopped t) :=
  (h.readEncoders.fireStopped.ite h.readEncoders.stopStopped).ite h

theorem Change.budgetExpires (h : Change k s t) : Change k s (budgetExpires t) := by
  unfold Machine.budgetExpires
  split
  · exact h.stall _
  · exact h

theorem Change.storeBack (h : Change k s t) : Change k s (storeBack t) := by
  unfold Machine.storeBack
  split
  · exact ((h.crane _).handBackLink _).makeStore _
  · exact h

theorem Change.portInTagRead (h : Change k s t) (id : Option Nat) : Change k s (portInTagRead id t) := by
  unfold Machine.portInTagRead
  split
  · exact ((h.setStow _).ite ((h.setPortIn _).clearStow.faultNotice _)).ite h
  · exact h

theorem Change.transferOutExpires (h : Change k s t) (l : Lane) : Change k s (transferOutExpires l t) := by
  unfold Machine.transferOutExpires
  split
  · exact h.outExpires _ _
  · exact h

theorem Change.diversionTransferExpires (h : Change k s t) : Change k s (diversionTransferExpires t) := by
  unfold Machine.diversionTransferExpires
  split
  · exact h.diversionExpires _
  · exact h

theorem Change.mergeTransferExpires (h : Change k s t) : Change k s (mergeTransferExpires t) := by
  unfold Machine.mergeTransferExpires
  split
  · exact h.mergeExpires _
  · exact h

theorem Change.callWindowExpires (h : Change k s t) (c : Call) : Change k s (callWindowExpires c t) := by
  unfold Machine.callWindowExpires
  split
  · exact h.windowExpires _
  · exact h

theorem Change.sweepBin (h : Change k s t) (b : Nat) : Change k s (sweepBin b t) := by
  unfold Machine.sweepBin
  split
  · dsimp only
    split
    · exact ((h.notice _).dir (DirChange.refl.bin _ _)).ite (h.notice _)
    · exact h
  · exact h

theorem Change.overdueSweep (h : Change k s t) : Change k s (overdueSweep t) :=
  Change.foldl (fun b h => h.sweepBin b) _ (h.plan { t.planner with sweep := some ⟨t.clock, 60000⟩ } rfl)

theorem Change.expiry (h : Change k s t) (timer : State → Option Timer) {f : State → State} (hf : Change k s (f t)) :
    Change k s (expiry timer f t) := hf.ite h

/-! ## What kind of command acts in which way -/

/-- The effect on a live station of a command that is no frame heard, no report of a fire input, no sweep, no reset and no image
read. -/
def effect : Instr → Option (State → State)
  | .contention _ rivals => some (contend rivals)
  | .frameAbandoned _ => some (frameEnds .unheard)
  | .outcome _ ack obj => some (frameEnds (outcomeOf ack obj))
  | .lineIdle _ => some fun s => s.setLine { s.line with footing := true }
  | .inPosition _ => some inPosition
  | .forkTagRead _ r => some (forkTagRead r)
  | .forkDone _ => some forkDone
  | .stopped _ => some craneStopped
  | .moveBudgetExpiry _ => some (expiry budgetTimer budgetExpires)
  | .holdLimitExpiry _ => some (expiry holdTimer storeBack)
  | .arrival _ place => some (entryReport place)
  | .binAtPosition _ place => some (positionReport place)
  | .portInTagRead _ id => some (portInTagRead id)
  | .transferLimitExpiryOut _ l => some (expiry (outTimer l) (transferOutExpires l))
  | .diversionExpiry _ => some (expiry diversionTimer diversionTransferExpires)
  | .transferLimitExpiryIn _ l => some (expiry (inTimer l) (inExpires l))
  | .mergeTransferExpiry _ => some (expiry mergeTimer mergeTransferExpires)
  | .offerRetryExpiry _ l => some (expiry (fun s => s.spine.retry l) (clearRetry l))
  | .mergeWaitExpiry _ => some (expiry (fun s => s.spine.mergeWait) mergeWaitExpires)
  | .evaluationDone _ => some evaluationDone
  | .windowExpiry _ c => some (expiry (windowTimer c) (callWindowExpires c))
  | .closingRetryExpiry _ => some (expiry (shutterTimer (·.retry)) closingRetryExpires)
  | .closeLimitExpiry _ => some (expiry (shutterTimer (·.closeLimit)) closeLimitExpires)
  | .shutterDriveLimitExpiry _ => some (expiry (shutterTimer (·.driveLimit)) driveLimitExpires)
  | .closedSensor _ => some shutterClosed
  | .openSensor _ => some shutterOpened
  | .boundarySensorChange _ => some fun s => s
  | _ => none

/-- The effect of a report of a fire input, in START and UNCONFIGURED too. -/
def inputEffect : Instr → Option (State → State)
  | .inputActive _ i => some (inputReadsActive i)
  | .inputInactive _ i => some (inputReadsInactive i)
  | .inputFilterExpiry _ i => some (expiry (fun s => (s.fire.filter i).timer) (filterExpires i))
  | _ => none

/-- A command with an effect on a live station is that effect. -/
theorem exec_of_effect {c : Instr} {f : State → State} (hf : effect c = some f) (s : State) :
    exec c s = .next (live c.pins f s) := by
  cases c <;> cases hf <;> rfl

theorem exec_of_inputEffect {c : Instr} {f : State → State} (hf : inputEffect c = some f) (s : State) :
    exec c s = .next (filterEvent c.pins f s) := by
  cases c <;> cases hf <;> rfl

/-- The sweep restarts and looks at every bin, in every mode (R160). -/
theorem exec_overdueSweepExpiry (p : Pins) (s : State) : exec (.overdueSweepExpiry p) s =
    .next (if s.live then settle (expiry (fun s => s.planner.sweep) overdueSweep (s.setPins p))
      else expiry (fun s => s.planner.sweep) overdueSweep (s.setPins p)) := rfl

/-- The seven kinds of commands. -/
theorem command_kinds (c : Instr) : (∃ h items, c.frame = some (h, items)) ∨ (∃ f, effect c = some f)
    ∨ (∃ f, inputEffect c = some f) ∨ (∃ p, c = .overdueSweepExpiry p) ∨ (∃ p image, c = .readComplete p image)
    ∨ (∃ p, c = .resetRelease p) ∨ ∃ p, c = .resetAssert p := by
  cases c with
  | alarm | closing | closed | opened | safe | restore | offer | taken | roomCall | bid | claim | lend | cancel | stockAt
  | stock | stockEnd | stop | resume | writeOff | query | faultBinCaught | faultHandoffLost | fault | requestDone
  | requestFailed | binStored | binOverdue | stationReport | stockRefused | discardedFrame =>
    exact .inl ⟨_, _, rfl⟩
  | inputActive | inputInactive | inputFilterExpiry => exact .inr (.inr (.inl ⟨_, rfl⟩))
  | overdueSweepExpiry p => exact .inr (.inr (.inr (.inl ⟨p, rfl⟩)))
  | readComplete p image => exact .inr (.inr (.inr (.inr (.inl ⟨p, image, rfl⟩))))
  | resetRelease p => exact .inr (.inr (.inr (.inr (.inr (.inl ⟨p, rfl⟩)))))
  | resetAssert p => exact .inr (.inr (.inr (.inr (.inr (.inr ⟨p, rfl⟩)))))
  | _ => exact .inr (.inl ⟨_, rfl⟩)

theorem Change.effect {c : Instr} {f : State → State} (h : Change .event s t) (hf : effect c = some f) : Change .event s (f t) := by
  cases c <;> cases hf
  case contention rivals => exact h.contend rivals
  case frameAbandoned => exact h.frameEnds _
  case outcome => exact h.frameEnds _
  case lineIdle => exact h.line (LineChange.refl.flags rfl _ _ _)
  case inPosition => exact h.inPosition
  case forkTagRead r => exact h.forkTagRead r
  case forkDone => exact h.forkDone
  case stopped => exact h.craneStopped
  case moveBudgetExpiry => exact h.expiry _ h.budgetExpires
  case holdLimitExpiry => exact h.expiry _ h.storeBack
  case arrival place => exact h.entryReport place
  case binAtPosition place => exact h.positionReport place
  case portInTagRead id => exact h.portInTagRead id
  case transferLimitExpiryOut l => exact h.expiry _ (h.transferOutExpires l)
  case diversionExpiry => exact h.expiry _ h.diversionTransferExpires
  case transferLimitExpiryIn l => exact h.expiry _ (h.inExpires l)
  case mergeTransferExpiry => exact h.expiry _ h.mergeTransferExpires
  case offerRetryExpiry l => exact h.expiry _ (h.clearRetry l)
  case mergeWaitExpiry => exact h.expiry _ (h.spine _)
  case evaluationDone => exact h.evaluationDone
  case windowExpiry c => exact h.expiry _ (h.callWindowExpires c)
  case closingRetryExpiry => exact h.expiry _ (h.shutter _)
  case closeLimitExpiry => exact h.expiry _ h.closeLimitExpires
  case shutterDriveLimitExpiry => exact h.expiry _ h.driveLimitExpires
  case closedSensor => exact h.shutterClosed
  case openSensor => exact h.shutterOpened
  case boundarySensorChange => exact h

theorem Change.inputEffect {c : Instr} {f : State → State} (h : Change .event s t) (hf : inputEffect c = some f) :
    Change .event s (f t) := by
  cases c <;> cases hf
  case inputActive i => exact h.inputReadsActive i
  case inputInactive i => exact h.inputReadsInactive i
  case inputFilterExpiry i => exact h.expiry _ (h.filterExpires i)

/-- Every command but a reset and the image read answers a next state, and is a chain of changes of the state with its pins. -/
theorem exec_change {c : Instr} (hrel : ∀ p, c ≠ .resetRelease p) (hass : ∀ p, c ≠ .resetAssert p)
    (hread : ∀ p image, c ≠ .readComplete p image) (s : State) : ∃ t, exec c s = .next t ∧ Change .event (s.setPins c.pins) t := by
  have h : Change .event (s.setPins c.pins) (s.setPins c.pins) := .refl
  rcases command_kinds c with ⟨hd, items, hf⟩ | ⟨f, hf⟩ | ⟨f, hf⟩ | ⟨p, rfl⟩ | ⟨p, image, rfl⟩ | ⟨p, rfl⟩ | ⟨p, rfl⟩
  · obtain ⟨heard, hexec⟩ := exec_of_frame hf s
    exact ⟨_, hexec, (h.frameHeard hd heard).ite h⟩
  · exact ⟨_, exec_of_effect hf s, (h.effect hf).settle.ite h⟩
  · exact ⟨_, exec_of_inputEffect hf s, h.ite ((h.inputEffect hf).settle.ite (h.inputEffect hf))⟩
  · have hs := h.expiry (fun s => s.planner.sweep) h.overdueSweep
    exact ⟨_, exec_overdueSweepExpiry p s, hs.settle.ite hs⟩
  · exact absurd rfl (hread p image)
  · exact absurd rfl (hrel p)
  · exact absurd rfl (hass p)

end Sys2Proof.Machine
end

