-- ==== Sys2Proof/Proofs/Invariants.lean ====
section
/-! PROOFS. The invariants of the transmit queue, the tables, the open calls, the request pool and the slot counts: each holds after
every change it held before, and so after every step. -/

namespace Sys2Proof.Machine
open Sys2Proof Safety

/-! ## What no change touches -/

theorem Change.fixed {k : Scope} {s t : State} (h : Change k s t) : t.fixed = s.fixed := by
  induction h with
  | refl => rfl
  | _ => simpa

theorem Change.cfg {k : Scope} {s t : State} (h : Change k s t) : t.cfg = s.cfg := congrArg (·.2.2.2.1) h.fixed

/-- A change leaves the mode, or sets one of a configured station. -/
theorem Change.mode_eq_or {k : Scope} {s t : State} (h : Change k s t) : t.mode = s.mode ∨ t.mode.idle = false := by
  induction h with
  | refl => exact .inl rfl
  | mode _ v hv _ => exact .inr hv
  | _ => assumption

/-! ## The transmit queue (R163, R175) -/

/-- The queue of the transmit queue's invariant. -/
structure QueueSound (q : List TxFrame) : Prop where
  frames  : q.length ≤ 12
  notices : noticeCount q ≤ 6
  ordered : classOrdered q = true
  onLine  : (q.countP fun f => !f.waits) ≤ 1

theorem queueInv_iff (s : State) : QueueInv s ↔ QueueSound s.line.queue :=
  ⟨fun ⟨a, b, c, d⟩ => ⟨a, b, c, d⟩, fun ⟨a, b, c, d⟩ => ⟨a, b, c, d⟩⟩

theorem QueueSound.sublist {q q' : List TxFrame} (h : QueueSound q) (hs : q'.Sublist q) : QueueSound q' where
  frames := Nat.le_trans hs.length_le h.frames
  notices := Nat.le_trans hs.countP_le h.notices
  ordered := classOrdered_sublist hs h.ordered
  onLine := Nat.le_trans hs.countP_le h.onLine

/-- A frame joins a queue with room for it. -/
theorem QueueSound.insert {q : List TxFrame} {f : TxFrame} (h : QueueSound q) (waits : f.waits = true) (room : q.length < 12)
    (share : f.isNotice = true → noticeCount q < 6) : QueueSound (insertFrame f q) where
  frames := by
    rw [insertFrame_length]
    exact room
  notices := by
    have hn := h.notices
    have hc := insertFrame_countP TxFrame.isNotice f q
    unfold noticeCount at *
    split at hc
    · have := share ‹_›; omega
    · omega
  ordered := classOrdered_insert f q h.ordered
  onLine := by simpa [insertFrame_countP, waits] using h.onLine

theorem QueueSound.joins {u : LineUnit} {f : TxFrame} (h : QueueSound u.queue) (waits : f.waits = true) :
    QueueSound (u.afterAdmission (admission f u.queue)).queue := by
  rcases admission_cases f u.queue with ⟨heq, room, share⟩ | ⟨heq, -⟩ | ⟨g, q', heq, hn, -, -, -, hs, hl⟩
    | ⟨g, q', heq, h0, -, -, -, hs, hl⟩ | ⟨heq, -⟩
  all_goals rw [heq]
  · exact h.insert waits room share
  · exact h
  · exact (h.sublist hs).insert waits (by have := h.frames; omega) (by simp [hn])
  · exact (h.sublist hs).insert waits (by have := h.frames; omega) (by simp [TxFrame.isNotice, h0])
  · exact h

/-- Frames rewritten one by one, class and place on the line kept, leave the invariant. -/
theorem QueueSound.map {q : List TxFrame} (h : QueueSound q) (g : TxFrame → TxFrame) (hcls : ∀ f, (g f).cls = f.cls)
    (hline : ∀ f, (g f).onLine = f.onLine) : QueueSound (q.map g) where
  frames := by simpa using h.frames
  notices := by
    have hn : TxFrame.isNotice ∘ g = TxFrame.isNotice := funext fun f => by simp [TxFrame.isNotice, hcls]
    simpa [noticeCount, List.countP_map, hn] using h.notices
  ordered := by
    have ho := (classOrdered_iff q).mp h.ordered
    rw [classOrdered_iff, List.pairwise_map]
    simpa [hcls] using ho
  onLine := by
    have hw : (fun f => !TxFrame.waits f) ∘ g = fun f => !TxFrame.waits f := funext fun f => by simp [TxFrame.waits, hline]
    simpa [List.countP_map, hw] using h.onLine

theorem QueueSound.win {f : TxFrame} {q : List TxFrame} (h : QueueSound (f :: q)) (free : ∀ g ∈ f :: q, g.waits = true)
    (w : Byte) : QueueSound ({ f with onLine := some w } :: q) where
  frames := h.frames
  notices := by simpa [noticeCount, List.countP_cons, TxFrame.isNotice] using h.notices
  ordered := by simpa [classOrdered_iff, List.pairwise_cons] using (classOrdered_iff _).mp h.ordered
  onLine := by
    have hq : (q.countP fun f => !f.waits) = 0 :=
      List.countP_eq_zero.mpr fun g hg => by simp [free g (List.mem_cons_of_mem f hg)]
    rw [List.countP_cons, hq]
    split <;> omega

theorem LineChange.queueSound {k : Scope} {u v : LineUnit} (h : LineChange k u v) (hu : QueueSound u.queue) :
    QueueSound v.queue := by
  induction h with
  | refl => exact hu
  | joins _ f waits ih => exact ih.joins waits
  | keep _ p ih => exact ih.sublist List.filter_sublist
  | disown _ own ih => exact ih.map _ (fun _ => rfl) fun _ => rfl
  | win _ f q w front free ih =>
    rw [front] at ih free
    exact ih.win free w
  | discard _ _ ih | flags _ _ _ _ _ ih | enter _ _ _ _ ih => exact ih

theorem Change.queueInv {k : Scope} {s t : State} (h : Change k s t) (hs : QueueInv s) : QueueInv t := by
  rw [queueInv_iff] at hs ⊢
  induction h with
  | refl => exact hs
  | line _ c ih => exact c.queueSound ih
  | _ => assumption

/-! ## The tables -/

theorem tblPut_mem {α : Type} {k : Nat} {v : α} {x : Nat × α} {t : Table α} (hx : x ∈ tblPut k v t) : x = (k, v) ∨ x ∈ t := by
  induction t with
  | nil => simpa [tblPut] using hx
  | cons y t ih =>
    unfold tblPut at hx
    split at hx
    · simpa using hx
    · split at hx
      · rcases List.mem_cons.mp hx with rfl | hx
        · exact .inl rfl
        · exact .inr (List.mem_cons_of_mem _ hx)
      · rcases List.mem_cons.mp hx with rfl | hx
        · exact .inr List.mem_cons_self
        · exact (ih hx).imp id (List.mem_cons_of_mem _)

theorem tblErase_sublist {α : Type} (k : Nat) (t : Table α) : (tblErase k t).Sublist t := by
  induction t with
  | nil => exact .slnil
  | cons y t ih =>
    unfold tblErase
    split
    · exact List.sublist_cons_self _ _
    · exact ih.cons_cons _

/-- The directory tables in the model's canonical form. -/
structure DirForm (d : Directory) : Prop where
  slots       : tblWf d.slots = true
  slotsListed : ∀ x ∈ d.slots, x.2 ≠ ⟨.empty, false⟩
  bins        : tblWf d.bins = true
  loads       : tblWf d.loads = true
  loadsListed : ∀ x ∈ d.loads, x.2 ≠ 0

theorem tablesInv_iff (s : State) : TablesInv s ↔ DirForm s.dir ∧ tblWf s.line.neighbours = true := by
  constructor
  · rintro ⟨a, b, c, d, e, f⟩
    exact ⟨⟨a, by simpa using b, c, d, by simpa using e⟩, f⟩
  · rintro ⟨⟨a, b, c, d, e⟩, f⟩
    exact ⟨a, by simpa using b, c, d, by simpa using e, f⟩

theorem DirForm.setSlot {d : Directory} (h : DirForm d) (sl : Slot) (r : SlotRec) : DirForm (d.setSlot sl r) := by
  obtain ⟨hs, hl, hb, hlo, hll⟩ := h
  by_cases hr : r = ⟨.empty, false⟩
  · exact ⟨by simp [Directory.setSlot, hr, tblWf_erase _ _ hs],
      fun x hx => hl x ((tblErase_sublist _ _).mem (by simpa [Directory.setSlot, hr] using hx)), hb, hlo, hll⟩
  · refine ⟨by simp [Directory.setSlot, hr, tblWf_put _ _ _ hs], fun x hx => ?_, hb, hlo, hll⟩
    rcases tblPut_mem (by simpa [Directory.setSlot, hr] using hx) with rfl | hx
    · exact hr
    · exact hl x hx

theorem DirForm.setLoad {d : Directory} (h : DirForm d) (sl : Slot) (n : Nat) : DirForm (d.setLoad sl n) := by
  refine ⟨h.slots, h.slotsListed, h.bins, d.loads_setLoad_wf h.loads sl n, fun x hx => ?_⟩
  by_cases hn : n = 0
  · exact h.loadsListed x ((tblErase_sublist _ _).mem (by simpa [Directory.setLoad, hn] using hx))
  · rcases tblPut_mem (by simpa [Directory.setLoad, hn] using hx) with rfl | hx
    · exact hn
    · exact h.loadsListed x hx

theorem DirChange.form {c d : Directory} (h : DirChange c d) (hc : DirForm c) : DirForm d := by
  induction h with
  | refl => exact hc
  | slot _ sl r ih => exact ih.setSlot sl r
  | bin _ b e ih => exact ⟨ih.slots, ih.slotsListed, tblWf_put _ _ _ ih.bins, ih.loads, ih.loadsListed⟩
  | drop _ b ih => exact ⟨ih.slots, ih.slotsListed, tblWf_erase _ _ ih.bins, ih.loads, ih.loadsListed⟩
  | load _ sl n ih => exact ih.setLoad sl n
  | cursor _ _ ih => exact ⟨ih.slots, ih.slotsListed, ih.bins, ih.loads, ih.loadsListed⟩

theorem LineChange.neighboursForm {k : Scope} {u v : LineUnit} (h : LineChange k u v) (hu : tblWf u.neighbours = true) :
    tblWf v.neighbours = true := by
  induction h with
  | refl => exact hu
  | joins _ f _ ih => simpa using ih
  | enter _ _ n x ih => exact tblWf_put _ _ _ ih
  | _ => assumption

theorem Change.tablesInv {k : Scope} {s t : State} (h : Change k s t) (hs : TablesInv s) : TablesInv t := by
  rw [tablesInv_iff] at hs ⊢
  induction h with
  | refl => exact hs
  | dir _ c ih => exact ⟨c.form ih.1, ih.2⟩
  | line _ c ih => exact ⟨ih.1, c.neighboursForm ih.2⟩
  | _ => assumption

/-! ## Open calls and requests (R64, R87, R88) -/

/-- The placement unit of the invariant of open calls. -/
structure CallsSound (p : Placement) : Prop where
  calls    : p.calls.length ≤ 4
  distinct : (p.calls.map (·.call)).Nodup
  cursor   : p.sweep < 64

theorem callsInv_iff (s : State) : CallsInv s ↔ CallsSound s.placement :=
  ⟨fun ⟨a, b, c⟩ => ⟨a, b, c⟩, fun ⟨a, b, c⟩ => ⟨a, b, c⟩⟩

theorem CallsChange.sound {p q : Placement} (h : CallsChange p q) (hp : CallsSound p) : CallsSound q := by
  induction h with
  | refl => exact hp
  | rewrite _ f call ih =>
    have hcall : (·.call) ∘ f = (·.call) := funext call
    exact ⟨by simpa using ih.calls, by simpa [hcall] using ih.distinct, ih.cursor⟩
  | keep _ f ih =>
    exact ⟨Nat.le_trans (List.length_filter_le _ _) ih.calls, ih.distinct.sublist (List.filter_sublist.map _), ih.cursor⟩
  | @add q _ e room new ih =>
    refine ⟨by rw [List.length_append]; exact room, ?_, ih.cursor⟩
    have hnew : ∀ x ∈ q.calls, x.call ≠ e.call := by simpa [Placement.entry] using new
    simpa [List.nodup_append, ih.distinct] using hnew
  | sweep _ r range ih => exact ⟨ih.calls, ih.distinct, range ih.cursor⟩

theorem Change.callsInv {k : Scope} {s t : State} (h : Change k s t) (hs : CallsInv s) : CallsInv t := by
  rw [callsInv_iff] at hs ⊢
  induction h with
  | refl => exact hs
  | placement _ c ih => exact c.sound ih
  | _ => assumption

theorem PoolChange.sound {p q : Table Request} (h : PoolChange p q) (hp : tblWf p = true ∧ p.length ≤ 48) :
    tblWf q = true ∧ q.length ≤ 48 := by
  induction h with
  | refl => exact hp
  | erase _ k ih => exact ⟨tblWf_erase _ _ ih.1, Nat.le_trans (tblErase_length_le _ _) ih.2⟩
  | modify _ k f ih => exact ⟨tblWf_modify _ _ _ ih.1, Nat.le_trans (Nat.le_of_eq (tblModify_length _ _ _ ih.1)) ih.2⟩
  | put _ k v room ih => exact ⟨tblWf_put _ _ _ ih.1, Nat.le_trans (tblPut_length_le _ _ _) room⟩

theorem poolInv_iff (s : State) : PoolInv s ↔ tblWf s.planner.pool = true ∧ s.planner.pool.length ≤ 48 :=
  ⟨fun ⟨a, b⟩ => ⟨a, b⟩, fun ⟨a, b⟩ => ⟨a, b⟩⟩

theorem Change.poolInv {k : Scope} {s t : State} (h : Change k s t) (hs : PoolInv s) : PoolInv t := by
  rw [poolInv_iff] at hs ⊢
  induction h with
  | refl => exact hs
  | planner _ c ih => exact c.sound ih
  | _ => assumption

/-! ## The slot counts (R2) -/

section
variable {α : Type} (p : α → Bool)

/-- An erasure takes the erased record off a count. -/
theorem tblErase_countP (k : Nat) (t : Table α) :
    (tblErase k t).countP (fun x => p x.2) + ((tblGet t k).elim 0 fun v => (p v).toNat) = t.countP fun x => p x.2 := by
  induction t with
  | nil => rfl
  | cons x t ih =>
    obtain ⟨k', v⟩ := x
    by_cases hk : k = k'
    · cases hp : p v <;> simp [tblErase, tblGet, hk, hp]
    · simp only [tblErase, tblGet, hk, if_false, List.countP_cons]
      omega

/-- A write puts its record in the place of the one at its key. -/
theorem tblPut_countP (k : Nat) (w : α) (t : Table α) (ht : tblWf t = true) :
    (tblPut k w t).countP (fun x => p x.2) + ((tblGet t k).elim 0 fun v => (p v).toNat)
      = (t.countP fun x => p x.2) + (p w).toNat := by
  induction t with
  | nil => cases hp : p w <;> simp [tblPut, tblGet, hp]
  | cons x t ih =>
    obtain ⟨k', v⟩ := x
    simp only [tblWf, Bool.and_eq_true] at ht
    by_cases hlt : k < k'
    · have hget : tblGet ((k', v) :: t) k = none := by
        simp [tblGet, Nat.ne_of_lt hlt, tblGet_above (Nat.le_of_lt hlt) t ht.1]
      rw [hget]
      cases hp : p w <;> simp [tblPut, hlt, List.countP_cons, hp]
    · by_cases hk : k = k'
      · cases hp : p w <;> cases hv : p v <;> simp [tblPut, tblGet, hk, hp, hv]
      · simp only [tblPut, tblGet, hlt, hk, if_false, List.countP_cons]
        have := ih ht.2
        omega

end

/-- A write of a slot record moves a count that leaves EMPTY slots out by what the slot was and what it becomes. -/
theorem Directory.setSlot_countP (p : SlotRec → Bool) (hp : p ⟨.empty, false⟩ = false) {d : Directory}
    (h : tblWf d.slots = true) (sl : Slot) (r : SlotRec) :
    (d.setSlot sl r).slots.countP (fun x => p x.2) + (p (d.slotRec sl)).toNat
      = (d.slots.countP fun x => p x.2) + (p r).toNat := by
  have hread : (p (d.slotRec sl)).toNat = (tblGet d.slots (slotKey sl)).elim 0 fun v => (p v).toNat := by
    unfold Directory.slotRec
    cases tblGet d.slots (slotKey sl) <;> simp [hp]
  rw [hread]
  by_cases hr : r = ⟨.empty, false⟩
  · simpa [Directory.setSlot, hr, hp] using tblErase_countP p (slotKey sl) d.slots
  · simpa [Directory.setSlot, hr] using tblPut_countP p (slotKey sl) r d.slots h

/-- The counts of a directory are the numbers of its slots in each state. -/
structure DirCounted (d : Directory) : Prop where
  form     : tblWf d.slots = true
  occupied : d.counts.occupied = d.slots.countP fun x => isOccupied x.2.state
  reserved : d.counts.reserved = d.slots.countP fun x => isReserved x.2.state
  bad      : d.counts.bad = d.slots.countP fun x => x.2.state == .bad

/-- The sum of the four counts. -/
def SlotCounts.total (c : SlotCounts) : Int := c.empties + c.occupied + c.reserved + c.bad

/-- A slot that leaves one state for another takes one off the count of the first and adds one to that of the second (R2). -/
theorem SlotCounts.leave_enter (c : SlotCounts) (a b : SlotState) :
    ((c.leave a).enter b).occupied = c.occupied - (isOccupied a).toNat + (isOccupied b).toNat
    ∧ ((c.leave a).enter b).reserved = c.reserved - (isReserved a).toNat + (isReserved b).toNat
    ∧ ((c.leave a).enter b).bad = c.bad - (a == .bad).toNat + (b == .bad).toNat := by
  cases a <;> cases b <;> exact ⟨rfl, rfl, rfl⟩

/-- Where the state that is left is counted, the sum of the four counts stays. -/
theorem SlotCounts.total_leave_enter (c : SlotCounts) (a b : SlotState) (ho : (isOccupied a).toNat ≤ c.occupied)
    (hr : (isReserved a).toNat ≤ c.reserved) (hb : (a == .bad).toNat ≤ c.bad) :
    ((c.leave a).enter b).total = c.total := by
  have one : (SlotState.bad == SlotState.bad).toNat = 1 := rfl
  cases a <;> cases b <;>
    simp only [SlotCounts.leave, SlotCounts.enter, SlotCounts.total, isOccupied, isReserved, one, Bool.toNat_true] at * <;> omega

/-- A slot write moves each count by what the slot was and what it becomes, and leaves the sum of the four (R2). -/
theorem DirCounted.setSlot {d : Directory} (h : DirCounted d) (sl : Slot) (r : SlotRec) :
    DirCounted (d.setSlot sl r) ∧ (d.setSlot sl r).counts.total = d.counts.total := by
  obtain ⟨hform, hocc, hres, hbad⟩ := h
  have ho := Directory.setSlot_countP (fun x => isOccupied x.state) rfl hform sl r
  have hr := Directory.setSlot_countP (fun x => isReserved x.state) rfl hform sl r
  have hb := Directory.setSlot_countP (fun x => x.state == .bad) rfl hform sl r
  -- a slot is counted in the state it stands in
  have hin (p : SlotRec → Bool) (hp : p ⟨.empty, false⟩ = false) :
      (p (d.slotRec sl)).toNat ≤ d.slots.countP fun x => p x.2 := by
    have := Directory.setSlot_countP p hp hform sl ⟨.empty, false⟩
    simp only [hp, Bool.toNat_false] at this
    omega
  have ino := hin (fun x => isOccupied x.state) rfl
  have inr := hin (fun x => isReserved x.state) rfl
  have inb := hin (fun x => x.state == .bad) rfl
  have hwf : tblWf (d.setSlot sl r).slots = true := by
    by_cases hr : r = ⟨.empty, false⟩
    · simp [Directory.setSlot, hr, tblWf_erase _ _ hform]
    · simp [Directory.setSlot, hr, tblWf_put _ _ _ hform]
  have hcounts : (d.setSlot sl r).counts = (d.counts.leave (d.slotRec sl).state).enter r.state := rfl
  obtain ⟨lo, lr, lb⟩ := d.counts.leave_enter (d.slotRec sl).state r.state
  refine ⟨⟨hwf, ?_, ?_, ?_⟩, ?_⟩
  · rw [hcounts]; omega
  · rw [hcounts]; omega
  · rw [hcounts]; omega
  · rw [hcounts, SlotCounts.total_leave_enter] <;> omega

theorem DirChange.counted {c d : Directory} (h : DirChange c d) (hc : DirCounted c) :
    DirCounted d ∧ d.counts.total = c.counts.total := by
  induction h with
  | refl => exact ⟨hc, rfl⟩
  | slot _ sl r ih =>
    obtain ⟨hd, hsum⟩ := ih.1.setSlot sl r
    exact ⟨hd, hsum.trans ih.2⟩
  | bin _ _ _ ih | drop _ _ ih | load _ _ _ ih | cursor _ _ ih => exact ⟨⟨ih.1.1, ih.1.2, ih.1.3, ih.1.4⟩, ih.2⟩

theorem Change.counted {k : Scope} {s t : State} (h : Change k s t) (hs : DirCounted s.dir) :
    DirCounted t.dir ∧ t.dir.counts.total = s.dir.counts.total := by
  induction h with
  | refl => exact ⟨hs, rfl⟩
  | dir _ c ih =>
    obtain ⟨hd, hsum⟩ := c.counted ih.1
    exact ⟨hd, hsum.trans ih.2⟩
  | _ => assumption

end Sys2Proof.Machine
end

