-- ==== Sys2Proof/Proofs/StepInvariants.lean ====
section
/-! PROOFS. One step of the station: the fixed parts, what a station in reset, START or UNCONFIGURED does, and the invariants of queue,
tables, calls, pool and counts through every command and through the clock. -/

namespace Sys2Proof.Machine
open Sys2Proof Safety

/-! ## A station in reset, START or UNCONFIGURED -/

theorem exec_frame_of_not_live {c : Instr} {h : Header} {items : List Item} (hf : c.frame = some (h, items)) {s : State}
    (hl : s.live = false) : exec c s = .next (s.setPins c.pins) := by
  obtain ⟨heard, hexec⟩ := exec_of_frame hf s
  have hlive : (s.setPins c.pins).live = false := hl
  simp [hexec, hear, hlive]

theorem exec_effect_of_not_live {c : Instr} {f : State → State} (hf : effect c = some f) {s : State}
    (hl : s.live = false) : exec c s = .next (s.setPins c.pins) := by
  have hlive : (s.setPins c.pins).live = false := hl
  simp [exec_of_effect hf, live, hlive]

theorem exec_effect_of_live {c : Instr} {f : State → State} (hf : effect c = some f) {s : State}
    (hl : s.live = true) : exec c s = .next (settle (f (s.setPins c.pins))) := by
  have hlive : (s.setPins c.pins).live = true := hl
  simp [exec_of_effect hf, live, hlive]

/-- Out of reset a station that is not live is in START or UNCONFIGURED. -/
theorem idle_of_not_live {s : State} (hl : s.live = false) (hr : s.inReset = false) : s.mode.idle = true := by
  simpa [State.live, hr] using hl

theorem idle_false_of_live {s : State} (hl : s.live = true) : s.mode.idle = false := by
  simp only [State.live, Bool.and_eq_true, Bool.not_eq_true'] at hl
  exact hl.2

/-- A fire input changes its filter alone where the station is not live. -/
theorem exec_inputEffect_of_not_live {c : Instr} {f : State → State} (hf : inputEffect c = some f) {s : State}
    (hl : s.live = false) : ∃ x, exec c s = .next ((s.setPins c.pins).setFire x) := by
  have hlive : (s.setPins c.pins).live = false := hl
  have same (u : State) : u = u.setFire u.fire := rfl
  have filter (i : FireInput) (x : InputFilter) (u : State) : ∃ y, setFilter i x u = u.setFire y := by
    cases i <;> exact ⟨_, rfl⟩
  cases hr : s.inReset with
  | true => exact ⟨s.fire, by simp [exec_of_inputEffect hf, filterEvent, hr]; rfl⟩
  | false =>
    have hidle := idle_of_not_live hl hr
    obtain ⟨y, hy⟩ : ∃ y, f (s.setPins c.pins) = (s.setPins c.pins).setFire y := by
      cases c <;> cases hf
      case inputActive p i =>
        show ∃ y, inputReadsActive i (s.setPins p) = _
        simp only [inputReadsActive]
        split
        · exact ⟨_, same _⟩
        · exact filter _ _ _
      case inputInactive p i => exact filter _ _ _
      case inputFilterExpiry p i =>
        show ∃ y, expiry _ (filterExpires i) (s.setPins p) = _
        simp only [expiry]
        split
        · simp only [filterExpires]
          split
          · exact filter _ _ _
          · exact filter _ _ _
          · next h1 h2 =>
            simp only [State.setPins_mode] at h1 h2
            cases hm : s.mode <;> simp [hm, Mode.idle] at hidle h1 h2
        · exact ⟨_, same _⟩
    exact ⟨y, by simp [exec_of_inputEffect hf, filterEvent, hr, hlive, hy]⟩

theorem sweepBin_slots (b : Nat) (s : State) : (sweepBin b s).dir.slots = s.dir.slots ∧ (sweepBin b s).dir.counts = s.dir.counts := by
  unfold sweepBin
  split
  · dsimp only
    split
    · split
      · exact ⟨rfl, rfl⟩
      · exact ⟨rfl, rfl⟩
    · exact ⟨rfl, rfl⟩
  · exact ⟨rfl, rfl⟩

theorem overdueSweep_slots (s : State) :
    (overdueSweep s).dir.slots = s.dir.slots ∧ (overdueSweep s).dir.counts = s.dir.counts := by
  have fold (l : List Nat) (u : State) : (l.foldl (fun s b => sweepBin b s) u).dir.slots = u.dir.slots
      ∧ (l.foldl (fun s b => sweepBin b s) u).dir.counts = u.dir.counts := by
    induction l generalizing u with
    | nil => exact ⟨rfl, rfl⟩
    | cons b l ih => exact ⟨(ih _).1.trans (sweepBin_slots b u).1, (ih _).2.trans (sweepBin_slots b u).2⟩
  exact fold _ _

/-- Where the station is not live, a command that is no reset and no image read leaves mode, crane and slots alone. -/
theorem exec_of_not_live {c : Instr} (hrel : ∀ p, c ≠ .resetRelease p) (hass : ∀ p, c ≠ .resetAssert p)
    (hread : ∀ p image, c ≠ .readComplete p image) {s t : State} (hl : s.live = false) (ht : exec c s = .next t) :
    t.mode = s.mode ∧ t.crane = s.crane ∧ t.dir.slots = s.dir.slots := by
  rcases command_kinds c with ⟨hd, items, hf⟩ | ⟨f, hf⟩ | ⟨f, hf⟩ | ⟨p, rfl⟩ | ⟨p, image, rfl⟩ | ⟨p, rfl⟩ | ⟨p, rfl⟩
  · obtain rfl : s.setPins c.pins = t := by simpa [exec_frame_of_not_live hf hl] using ht
    exact ⟨rfl, rfl, rfl⟩
  · obtain rfl : s.setPins c.pins = t := by simpa [exec_effect_of_not_live hf hl] using ht
    exact ⟨rfl, rfl, rfl⟩
  · obtain ⟨x, hx⟩ := exec_inputEffect_of_not_live hf hl
    obtain rfl : (s.setPins c.pins).setFire x = t := by simpa [hx] using ht
    exact ⟨rfl, rfl, rfl⟩
  · obtain rfl : expiry (fun s => s.planner.sweep) overdueSweep (s.setPins p) = t := by
      simpa [exec_overdueSweepExpiry, hl] using ht
    unfold expiry
    split
    · exact ⟨by simp, by simp, (overdueSweep_slots _).1⟩
    · exact ⟨rfl, rfl, rfl⟩
  · exact absurd rfl (hread p image)
  · exact absurd rfl (hrel p)
  · exact absurd rfl (hass p)

/-! ## The end of the image read -/

theorem Change.startCrane {k : Scope} {s t : State} (h : Change k s t) : Change k s (startCrane t) :=
  (h.readEncoders.loadFault _).ite h.readEncoders

/-- The station as it stands at the entry to STOCKING, its rack empty (R25, R189). -/
def stockingBegun (s : State) : State :=
  (s.setDir { s.dir with counts := ⟨2 * s.cfg.nc * s.cfg.nl, 0, 0, 0⟩ }).setMode .stocking

theorem enterStocking_change (s : State) : Change .event (stockingBegun s) (enterStocking s) := by
  have h : Change .event (stockingBegun s) (stockingBegun s) := .refl
  exact ((h.startCrane).fire rfl _).applyHeld.deriveMode

/-- The read ends in UNCONFIGURED or in STOCKING (R186, R189). -/
theorem readComplete_cases (image : List Byte) (s : State) :
    (∃ l, readComplete image s = (s.setLoader l).setMode .unconfigured) ∨
    ∃ l cfg, readComplete image s = settle (enterStocking ((s.setLoader l).setCfg cfg)) := by
  unfold readComplete
  dsimp only
  split
  · split
    · exact .inl ⟨_, rfl⟩
    · exact .inr ⟨_, _, rfl⟩
  · exact .inl ⟨_, rfl⟩

theorem exec_readComplete (p : Pins) (image : List Byte) (s : State) : exec (.readComplete p image) s =
    .next (if !s.inReset && s.mode == .start then readComplete image (s.setPins p) else s.setPins p) := rfl

/-! ## Through every step -/

/-- Two states with the same line unit, calls, pool and directory tables. -/
structure SameTables (s u : State) : Prop where
  line      : u.line = s.line
  placement : u.placement = s.placement
  pool      : u.planner.pool = s.planner.pool
  slots     : u.dir.slots = s.dir.slots
  bins      : u.dir.bins = s.dir.bins
  loads     : u.dir.loads = s.dir.loads

theorem exec_readComplete_change (p : Pins) (image : List Byte) (s : State) :
    ∃ t u, exec (.readComplete p image) s = .next t ∧ SameTables s u ∧ Change .event u t := by
  rw [exec_readComplete]
  split
  · rcases readComplete_cases image (s.setPins p) with ⟨l, hl⟩ | ⟨l, cfg, hl⟩
    · exact ⟨_, ((s.setPins p).setLoader l).setMode .unconfigured, by rw [hl], ⟨rfl, rfl, rfl, rfl, rfl, rfl⟩, .refl⟩
    · exact ⟨_, stockingBegun (((s.setPins p).setLoader l).setCfg cfg), by rw [hl], ⟨rfl, rfl, rfl, rfl, rfl, rfl⟩,
        (enterStocking_change _).settle⟩
  · exact ⟨_, s.setPins p, rfl, ⟨rfl, rfl, rfl, rfl, rfl, rfl⟩, .refl⟩

/-- A step is a tick on an empty queue, or the command at the front. -/
theorem step_cases {s t : State} (h : step s = .next t) :
    (s.pending = [] ∧ t = tick s) ∨ ∃ c rest, s.pending = c :: rest ∧ exec c (s.setPending rest) = .next t := by
  unfold step at h
  split at h
  · next c rest hp => exact .inr ⟨c, rest, hp, h⟩
  · next hp => exact .inl ⟨hp, by simpa using h.symm⟩

/-- A property of the tables that every change keeps and that holds after both commands of the reset input is kept by every step. -/
theorem step_keeps {P : State → Prop} (same : ∀ {s u : State}, SameTables s u → P s → P u)
    (change : ∀ {s t : State}, Change .event s t → P s → P t) (released : ∀ p s, P (resetReleased p s))
    (asserted : ∀ p s, P (resetAsserted p s)) {s t : State} (hs : P s) (h : step s = .next t) : P t := by
  rcases step_cases h with ⟨-, rfl⟩ | ⟨c, rest, -, ht⟩
  · unfold tick
    split
    · exact hs
    · exact same (s := s) ⟨rfl, rfl, rfl, rfl, rfl, rfl⟩ hs
  · by_cases hrel : ∃ p, c = .resetRelease p
    · obtain ⟨p, rfl⟩ := hrel
      obtain rfl : resetReleased p (s.setPending rest) = t := by simpa [exec, execResetRelease] using ht
      exact released p _
    by_cases hass : ∃ p, c = .resetAssert p
    · obtain ⟨p, rfl⟩ := hass
      obtain rfl : resetAsserted p (s.setPending rest) = t := by simpa [exec, execResetAssert] using ht
      exact asserted p _
    by_cases hread : ∃ p image, c = .readComplete p image
    · obtain ⟨p, image, rfl⟩ := hread
      obtain ⟨t', u, ht', hsame, hchange⟩ := exec_readComplete_change p image (s.setPending rest)
      obtain rfl : t' = t := by simpa [ht'] using ht
      exact change hchange (same hsame (same (s := s) ⟨rfl, rfl, rfl, rfl, rfl, rfl⟩ hs))
    replace hrel := not_exists.mp hrel
    replace hass := not_exists.mp hass
    replace hread (p image) : c ≠ .readComplete p image := fun h => hread ⟨p, image, h⟩
    obtain ⟨t', ht', hchange⟩ := exec_change hrel hass hread (s.setPending rest)
    obtain rfl : t' = t := by simpa [ht'] using ht
    exact change hchange (same (s := s) ⟨rfl, rfl, rfl, rfl, rfl, rfl⟩ hs)

/-! ## The invariants after both commands of the reset input -/

theorem queueInv_of_empty {s : State} (h : s.line = LineUnit.reset) : QueueInv s := by
  rw [queueInv_iff, h]
  exact ⟨by decide, by decide, rfl, by decide⟩

theorem callsInv_of_empty {s : State} (h : s.placement = Placement.reset) : CallsInv s := by
  rw [callsInv_iff, h]
  exact ⟨by decide, by decide, by decide⟩

theorem tablesInv_of_empty {s : State} (hd : s.dir = Directory.reset) (hl : s.line = LineUnit.reset) : TablesInv s := by
  rw [tablesInv_iff, hd, hl]
  exact ⟨⟨rfl, by simp [Directory.reset], rfl, rfl, by simp [Directory.reset]⟩, rfl⟩

theorem poolInv_of_empty {s : State} (h : s.planner.pool = []) : PoolInv s := by
  rw [poolInv_iff, h]
  exact ⟨rfl, by decide⟩

theorem countsInv_of_empty {s : State} (hd : s.dir = Directory.reset) (hm : s.mode = .start) : CountsInv s where
  form := by rw [hd]; rfl
  occupied := by rw [hd]; rfl
  reserved := by rw [hd]; rfl
  bad := by rw [hd]; rfl
  start := fun _ => by rw [hd]; rfl
  sum := fun h => by rw [hm] at h; cases h

/-! ## The slot counts through every step -/

theorem counted_of_countsInv {s : State} (h : CountsInv s) : DirCounted s.dir := ⟨h.form, h.occupied, h.reserved, h.bad⟩

theorem DirCounted.countsInv {s : State} (h : DirCounted s.dir) (start : s.mode = .start → s.dir.slots = [])
    (sum : s.mode.idle = false → s.dir.counts.total = 2 * s.cfg.nc * s.cfg.nl) : CountsInv s :=
  ⟨h.form, h.occupied, h.reserved, h.bad, start, sum⟩

theorem countsInv_exec {c : Instr} (hrel : ∀ p, c ≠ .resetRelease p) (hass : ∀ p, c ≠ .resetAssert p)
    (hread : ∀ p image, c ≠ .readComplete p image) {s t : State} (hs : CountsInv s) (ht : exec c s = .next t) :
    CountsInv t := by
  obtain ⟨t', ht', hchange⟩ := exec_change hrel hass hread s
  obtain rfl : t' = t := by simpa [ht'] using ht
  obtain ⟨hcounted, htotal⟩ := hchange.counted (counted_of_countsInv (s := s) hs)
  have hcfg : t'.cfg = s.cfg := hchange.cfg
  cases hl : s.live with
  | true =>
    have hidle : t'.mode.idle = false := by
      rcases hchange.mode_eq_or with hm | hm
      · rw [hm]; exact idle_false_of_live hl
      · exact hm
    refine hcounted.countsInv (fun hm => by rw [hm] at hidle; cases hidle) fun _ => ?_
    rw [htotal, hcfg]
    exact hs.sum (idle_false_of_live hl)
  | false =>
    obtain ⟨hmode, -, hslots⟩ := exec_of_not_live hrel hass hread hl ht
    refine hcounted.countsInv (fun hm => hslots.trans (hs.start (hmode ▸ hm))) fun hm => ?_
    rw [htotal, hcfg]
    exact hs.sum (hmode ▸ hm)

theorem countsInv_readComplete {p : Pins} {image : List Byte} {s t : State} (hs : CountsInv s)
    (ht : exec (.readComplete p image) s = .next t) : CountsInv t := by
  rw [exec_readComplete] at ht
  split at ht
  · next hstart =>
    have hempty : s.dir.slots = [] := hs.start (by simpa using (Bool.and_eq_true_iff.mp hstart).2)
    rcases readComplete_cases image (s.setPins p) with ⟨l, hl⟩ | ⟨l, cfg, hl⟩
    · obtain rfl : ((s.setPins p).setLoader l).setMode .unconfigured = t := by simpa [hl] using ht
      exact DirCounted.countsInv (s := ((s.setPins p).setLoader l).setMode .unconfigured) (counted_of_countsInv (s := s) hs) nofun nofun
    · obtain rfl : settle (enterStocking (((s.setPins p).setLoader l).setCfg cfg)) = t := by simpa [hl] using ht
      have hchange := (enterStocking_change (((s.setPins p).setLoader l).setCfg cfg)).settle
      have hbegun : DirCounted (stockingBegun (((s.setPins p).setLoader l).setCfg cfg)).dir := by
        constructor <;> simp [stockingBegun, hempty, tblWf]
      obtain ⟨hcounted, htotal⟩ := hchange.counted hbegun
      have hidle : (settle (enterStocking (((s.setPins p).setLoader l).setCfg cfg))).mode.idle = false := by
        rcases hchange.mode_eq_or with hm | hm
        · rw [hm]; rfl
        · exact hm
      refine hcounted.countsInv (fun hm => by rw [hm] at hidle; cases hidle) fun _ => ?_
      rw [htotal, hchange.cfg]
      simp [stockingBegun, SlotCounts.total]
  · obtain rfl : s.setPins p = t := by simpa using ht
    exact DirCounted.countsInv (s := s.setPins p) (counted_of_countsInv (s := s) hs) hs.start hs.sum

theorem countsInv_step {s t : State} (hs : CountsInv s) (h : step s = .next t) : CountsInv t := by
  rcases step_cases h with ⟨-, rfl⟩ | ⟨c, rest, -, ht⟩
  · unfold tick
    split
    · exact hs
    · exact DirCounted.countsInv (counted_of_countsInv (s := s) hs) hs.start hs.sum
  · have hs : CountsInv (s.setPending rest) := DirCounted.countsInv (counted_of_countsInv (s := s) hs) hs.start hs.sum
    by_cases hrel : ∃ p, c = .resetRelease p
    · obtain ⟨p, rfl⟩ := hrel
      obtain rfl : resetReleased p (s.setPending rest) = t := by simpa [exec, execResetRelease] using ht
      exact countsInv_of_empty rfl rfl
    by_cases hass : ∃ p, c = .resetAssert p
    · obtain ⟨p, rfl⟩ := hass
      obtain rfl : resetAsserted p (s.setPending rest) = t := by simpa [exec, execResetAssert] using ht
      exact countsInv_of_empty rfl rfl
    by_cases hread : ∃ p image, c = .readComplete p image
    · obtain ⟨p, image, rfl⟩ := hread
      exact countsInv_readComplete hs ht
    replace hrel := not_exists.mp hrel
    replace hass := not_exists.mp hass
    replace hread (p image) : c ≠ .readComplete p image := fun h => hread ⟨p, image, h⟩
    exact countsInv_exec hrel hass hread hs ht

end Sys2Proof.Machine

namespace Sys2Proof.Proofs
open Sys2Proof Sys2Proof.Machine Sys2Proof.Safety

/-- Settles O1: the definition of a step on a queue that is not empty. -/
theorem stepRunsFrontCommand : Obligations.StepRunsFrontCommand := by
  intro s c rest hp
  simp [step, hp]

/-- Settles O3: such a command is a chain of changes, and no change touches the fixed parts. -/
theorem commandsKeepFixedParts : Obligations.CommandsKeepFixedParts := by
  intro c s hrel hass hread
  obtain ⟨t, ht, hchange⟩ := exec_change hrel hass hread s
  obtain ⟨hclock, hreset, hloader, hcfg, hpins, hpending⟩ :
      t.clock = s.clock ∧ t.inReset = s.inReset ∧ t.loader = s.loader ∧ t.cfg = s.cfg ∧ t.pins = c.pins
        ∧ t.pending = s.pending := by simpa [State.fixed] using hchange.fixed
  exact ⟨t, ht, hclock, hreset, hloader, hcfg, hpending, hpins⟩

/-- Settles O4: of the kinds of commands, those that remain are a frame heard and an effect on a live station. -/
theorem silentUnlessConfigured : Obligations.SilentUnlessConfigured := by
  intro c s hl hrel hass hread hact hinact hexp hsweep
  rcases command_kinds c with ⟨hd, items, hf⟩ | ⟨f, hf⟩ | ⟨f, hf⟩ | ⟨p, rfl⟩ | ⟨p, image, rfl⟩ | ⟨p, rfl⟩ | ⟨p, rfl⟩
  · exact exec_frame_of_not_live hf hl
  · exact exec_effect_of_not_live hf hl
  · cases c <;> cases hf
    · exact absurd rfl (hact _ _)
    · exact absurd rfl (hinact _ _)
    · exact absurd rfl (hexp _ _)
  · exact absurd rfl (hsweep p)
  · exact absurd rfl (hread p image)
  · exact absurd rfl (hrel p)
  · exact absurd rfl (hass p)

/-- Settles O5: every change of the line unit keeps the queue sound. -/
theorem stepKeepsQueueLimits : Obligations.StepKeepsQueueLimits := fun _ _ =>
  step_keeps (fun h hs => by rw [queueInv_iff] at hs ⊢; rwa [h.line]) Change.queueInv
    (fun _ _ => queueInv_of_empty rfl) fun _ _ => queueInv_of_empty rfl

/-- Settles O6: every write keeps the keys rising and lists no record that an unlisted key reads as. -/
theorem stepKeepsTableForm : Obligations.StepKeepsTableForm := fun _ _ =>
  step_keeps (fun h hs => by
      rw [tablesInv_iff] at hs ⊢
      obtain ⟨⟨a, b, c, d, e⟩, f⟩ := hs
      exact ⟨⟨h.slots ▸ a, h.slots ▸ b, h.bins ▸ c, h.loads ▸ d, h.loads ▸ e⟩, h.line ▸ f⟩)
    Change.tablesInv (fun _ _ => tablesInv_of_empty rfl rfl) fun _ _ => tablesInv_of_empty rfl rfl

/-- Settles O7: a call enters a table with room for a call that is not open, a request a pool with room. -/
theorem stepKeepsCallAndPoolLimits : Obligations.StepKeepsCallAndPoolLimits :=
  ⟨fun _ _ => step_keeps (fun h hs => by rw [callsInv_iff] at hs ⊢; rwa [h.placement]) Change.callsInv
      (fun _ _ => callsInv_of_empty rfl) fun _ _ => callsInv_of_empty rfl,
    fun _ _ => step_keeps (fun h hs => by rw [poolInv_iff] at hs ⊢; rwa [h.pool]) Change.poolInv
      (fun _ _ => poolInv_of_empty rfl) fun _ _ => poolInv_of_empty rfl⟩

/-- Settles O8: a slot write moves the counts with the slot and leaves their sum; the rack is empty until the configuration is
taken. -/
theorem stepKeepsSlotCounts : Obligations.StepKeepsSlotCounts := fun _ _ => countsInv_step

/-- Settles O10: both states hold nothing in queue, calls, tables and pool, and their crane rests in START at clock 0. -/
theorem invariantsHoldAfterReset : Obligations.InvariantsHoldAfterReset := by
  have empty (s : State) (hl : s.line = LineUnit.reset) (hp : s.placement = Placement.reset) (hd : s.dir = Directory.reset)
      (hpool : s.planner.pool = []) (hm : s.mode = .start) (hc : s.crane.current = none) (hclock : s.clock = 0) : Inv s :=
    ⟨queueInv_of_empty hl, callsInv_of_empty hp, tablesInv_of_empty hd hl, poolInv_of_empty hpool, countsInv_of_empty hd hm,
      ⟨fun _ => hc, fun _ => hc⟩, ⟨fun _ => by simp [hclock], fun _ h => by simp [hclock] at h⟩⟩
  exact ⟨empty _ rfl rfl rfl rfl rfl rfl rfl, fun p s => ⟨resetReleased p s, rfl, empty _ rfl rfl rfl rfl rfl rfl rfl⟩⟩

end Sys2Proof.Proofs
end

