-- ==== Sys2Proof/Proofs/CraneRest.lean ====
section
/-! PROOFS. A resting crane has no current move (R42): what each operation that writes the crane record does to its state and its
current move. -/

namespace Sys2Proof.Machine
open Sys2Proof Safety

/-- The state and the current move of the crane. -/
def Crane.pose (c : Crane) : CraneState × Option Move := (c.state, c.current)

/-- In IDLE, PARKED, HALTED and FAULTED no move is current (R42). -/
def RestSound (s : State) : Prop := s.crane.state = .idle ∨ s.crane.state.rests = true → s.crane.current = none

section
variable {s t : State}

theorem RestSound.of_pose (h : RestSound s) (hp : t.crane.pose = s.crane.pose) : RestSound t := by
  obtain ⟨hstate, hcurrent⟩ := Prod.mk.inj hp
  unfold RestSound at h ⊢
  rwa [hstate, hcurrent]

theorem RestSound.of_crane (h : RestSound s) (hc : t.crane = s.crane) : RestSound t := h.of_pose (hc ▸ rfl)

theorem restSound_of_current (h : s.crane.current = none) : RestSound s := fun _ => h

theorem restSound_of_state (h : s.crane.state ≠ .idle) (hr : s.crane.state.rests = false) : RestSound s := by
  rintro (hi | hi)
  · exact absurd hi h
  · rw [hr] at hi; cases hi

/-! ## Moves made current (R43, R46, R52) -/

theorem startMove_restSound (m : Move) (s : State) : RestSound (startMove m s) := by
  unfold startMove
  split
  · exact restSound_of_current rfl
  · dsimp only
    exact restSound_of_state (by simp) (by simp [CraneState.rests])

theorem holdDeliver_restSound (m : Move) (s : State) : RestSound (holdDeliver m s) := by
  unfold holdDeliver
  exact restSound_of_state (by simp) (by simp [CraneState.rests])

theorem stageContinuation_pose (m : Move) (s : State) : (stageContinuation m s).crane.pose = s.crane.pose := by
  unfold stageContinuation
  split
  · rfl
  · rfl
  · rfl

theorem makeCurrent_restSound (kind : MoveKind) (target : Target) (visit : Option Nat) (bound : Bool) (s : State) :
    RestSound (makeCurrent kind target visit bound s) := by
  unfold makeCurrent
  dsimp only
  cases kind with
  | deliver =>
    dsimp only
    split
    · exact startMove_restSound _ _
    · exact holdDeliver_restSound _ _
  | fetch | takeIn => exact (startMove_restSound _ _).of_pose (stageContinuation_pose _ _)
  | store | park => exact startMove_restSound _ _

/-! ## The stage and the completions (R44, R57, R59) -/

theorem discardStaged_pose (s : State) : (discardStaged s).crane.pose = s.crane.pose := by
  unfold discardStaged
  split
  · rfl
  · dsimp only
    split
    · rfl
    · split
      · simp [Crane.pose]
      · split <;> simp [Crane.pose]
      · rfl

theorem discardStaged_current (s : State) : (discardStaged s).crane.current = s.crane.current :=
  (Prod.mk.inj (discardStaged_pose s)).2

theorem storeBlocked_restSound (b : Nat) (slot : SlotName) (s : State) : RestSound (storeBlocked b slot s) := by
  refine restSound_of_current ?_
  simp [storeBlocked, discardStaged_current, clearCurrent]

theorem makeStore_restSound (b : Nat) (s : State) : RestSound (makeStore b s) := by
  unfold makeStore
  split
  · exact makeCurrent_restSound _ _ _ _ _
  · exact storeBlocked_restSound _ _ _

theorem RestSound.nextMove (h : RestSound s) : RestSound (nextMove s) := by
  unfold Machine.nextMove
  split
  · split
    · exact makeCurrent_restSound _ _ _ _ _
    · exact makeStore_restSound _ _
  · exact h

theorem park_restSound (s : State) : RestSound (park s) := makeCurrent_restSound _ _ _ _ _

theorem craneTo_restSound (st : CraneState) (h : s.crane.current = none) : RestSound (craneTo st s) := restSound_of_current h

theorem promote_restSound (h : s.crane.current = none) : RestSound (promote s) := by
  unfold promote
  split
  · exact craneTo_restSound _ h
  · split
    · dsimp only
      split
      · exact makeStore_restSound _ _
      · exact makeCurrent_restSound _ _ _ _ _
    · split
      · exact makeCurrent_restSound _ _ _ _ _
      · exact craneTo_restSound _ ((discardStaged_current s).trans h)

theorem afterCompletion_restSound (h : s.crane.current = none) : RestSound (afterCompletion s) := by
  unfold afterCompletion
  split
  · exact park_restSound _
  · exact promote_restSound h

/-! ## Abandoned moves and the load (R49, R62) -/

theorem carryFetched_pose (b : Nat) (visit : Option Nat) (uncertain : Bool) (d : Directory) (s : State) :
    (carryFetched b visit uncertain d s).crane.pose = s.crane.pose := by
  simp [carryFetched, Crane.pose]

theorem abandonFetch_pose (m : Move) (s : State) : (abandonFetch m s).crane.pose = s.crane.pose := by
  unfold abandonFetch
  split
  · simp
  · split
    · rfl
    · dsimp only
      split
      · exact carryFetched_pose _ _ _ _ _
      · split <;> simp [Crane.pose]

theorem abandonDeliver_pose (m : Move) (s : State) : (abandonDeliver m s).crane.pose = s.crane.pose := by
  unfold abandonDeliver
  dsimp only
  split <;> simp [Crane.pose]

theorem abandonTakeIn_pose (s : State) : (abandonTakeIn s).crane.pose = s.crane.pose := by
  unfold abandonTakeIn
  split
  · simp
  · split <;> simp [Crane.pose]

theorem abandonStore_pose (s : State) : (abandonStore s).crane.pose = s.crane.pose := by
  unfold abandonStore
  split <;> rfl

/-- An abandoned move is removed, and the crane's state is left to the caller. -/
theorem abandonMove_pose (s : State) : (abandonMove s).crane.pose = (s.crane.state, none) := by
  have removed {u : State} (h : u.crane.pose = s.crane.pose) : (clearCurrent u).crane.pose = (s.crane.state, none) :=
    Prod.ext (Prod.mk.inj h).1 rfl
  unfold abandonMove
  split
  · next h => exact Prod.ext rfl h
  · split
    · exact removed (abandonFetch_pose _ _)
    · exact removed (abandonDeliver_pose _ _)
    · exact removed (abandonTakeIn_pose _)
    · exact removed (abandonStore_pose _)
    · exact removed rfl

theorem abandonMove_current (s : State) : (abandonMove s).crane.current = none := (Prod.mk.inj (abandonMove_pose s)).2

theorem stall_restSound (m : Move) (s : State) : RestSound (stall m s) := by
  refine restSound_of_current ?_
  simp [stall, discardStaged_current, abandonMove_current]

/-- The load resolution leaves the current move, and the state but for FAULTED where the load stays unknown (R62). -/
theorem resolveLoad_pose (s : State) : (resolveLoad s).2.crane.current = s.crane.current
    ∧ ((resolveLoad s).2.crane.state = s.crane.state ∨ (resolveLoad s).1 = false ∧ (resolveLoad s).2.crane.state = .faulted) := by
  unfold resolveLoad
  split
  · split
    · split
      · exact ⟨rfl, .inl rfl⟩
      · simp
    · split
      · exact ⟨rfl, .inl rfl⟩
      · simp [loadFault, craneTo, Crane.setState]
  · split
    · simp [loadFault, craneTo, Crane.setState]
    · exact ⟨rfl, .inl rfl⟩

/-! ## PORT_OUT emptied, blocked places (R52, R125) -/

theorem RestSound.portOutEmptied (h : RestSound s) : RestSound (portOutEmptied s) := by
  unfold Machine.portOutEmptied
  split
  · exact startMove_restSound _ _
  · exact h

/-- A crane that does not wait over PORT_OUT is not touched by its emptying. -/
theorem portOutEmptied_of_not_holding (h : s.crane.state ≠ .holding) : portOutEmptied s = s := by
  unfold portOutEmptied
  split
  · next hs _ => exact absurd hs h
  · rfl

theorem RestSound.clearPlace (h : RestSound s) (place : SpinePlace) : RestSound (clearPlace place s) := by
  unfold Machine.clearPlace
  dsimp only
  split
  · split
    · cases place with
      | portOut => exact RestSound.portOutEmptied (h.of_crane (by simp))
      | portIn | down | up => exact h.of_crane (by simp)
    · exact h
  · exact h

theorem clearPlace_crane_of_not_holding (h : s.crane.state ≠ .holding) (place : SpinePlace) :
    (clearPlace place s).crane = s.crane := by
  unfold clearPlace
  dsimp only
  split
  · split
    · cases place with
      | portOut =>
        dsimp only
        rw [portOutEmptied_of_not_holding (by simpa using h)]
        simp
      | portIn | down | up => simp
    · rfl
  · rfl

theorem RestSound.clearBlocked (h : RestSound s) : RestSound (clearBlocked s) :=
  (((h.clearPlace _).clearPlace _).clearPlace _).clearPlace _

theorem clearBlocked_crane_of_not_holding (h : s.crane.state ≠ .holding) : (clearBlocked s).crane = s.crane := by
  have h1 := clearPlace_crane_of_not_holding h .portOut
  have h2 := clearPlace_crane_of_not_holding (s := clearPlace .portOut s) (by rwa [h1]) .portIn
  have h3 := clearPlace_crane_of_not_holding (s := clearPlace .portIn (clearPlace .portOut s)) (by rwa [h2, h1]) .down
  have h4 := clearPlace_crane_of_not_holding (s := clearPlace .down (clearPlace .portIn (clearPlace .portOut s)))
    (by rwa [h3, h2, h1]) .up
  exact h4.trans (h3.trans (h2.trans h1))

/-! ## Fire, restore, STOP and RESUME (R59 to R61, R134, R135) -/

theorem dropWaiting_current (s : State) : (dropWaiting s).crane.current = none := by
  unfold dropWaiting
  simp

theorem RestSound.craneEntersFire (h : RestSound s) : RestSound (craneEntersFire s) := by
  have h := h.of_pose (discardStaged_pose s)
  unfold Machine.craneEntersFire
  dsimp only
  split
  · exact park_restSound _
  · exact park_restSound _
  · next hstate _ =>
    split
    · exact h
    · split
      · exact h.of_pose rfl
      · exact restSound_of_state nofun rfl
  · exact h

theorem RestSound.unpark (h : RestSound s) : RestSound (unpark s) := by
  unfold Machine.unpark
  split
  · next hp =>
    have hc : s.crane.current = none := h (.inr (by rw [hp]; rfl))
    split
    · exact craneTo_restSound _ hc
    · exact (craneTo_restSound _ hc).nextMove
  · exact h

theorem RestSound.craneStop (h : RestSound s) : RestSound (craneStop s) := by
  unfold Machine.craneStop
  split
  · next hs => exact craneTo_restSound _ (h (.inl hs))
  · next hs => exact craneTo_restSound _ (h (.inr (by rw [hs]; rfl)))
  · exact craneTo_restSound _ ((discardStaged_current _).trans (dropWaiting_current s))
  · exact restSound_of_state nofun rfl
  · exact h.of_pose rfl
  · exact h
  · exact h

theorem RestSound.leaveHalt (hc : s.crane.current = none) : RestSound (leaveHalt s) := by
  unfold Machine.leaveHalt
  split
  · exact craneTo_restSound _ hc
  · exact (craneTo_restSound _ hc).nextMove

theorem RestSound.resumeSteps (h : RestSound s) : RestSound (resumeSteps s) := by
  unfold Machine.resumeSteps
  dsimp only
  have h : RestSound (readEncoders s) := h.of_pose rfl
  split
  · next hs =>
    have hc : (readEncoders s).crane.current = none := h (.inr (by rcases hs with hs | hs <;> rw [hs] <;> rfl))
    obtain ⟨hcur, hst⟩ := resolveLoad_pose (readEncoders s)
    have hstate : (resolveLoad (readEncoders s)).2.crane.state ≠ .holding := by
      rcases hst with hst | ⟨-, hst⟩
      · rw [hst]; rcases hs with hs | hs <;> rw [hs] <;> decide
      · rw [hst]; decide
    have hclear : (Machine.clearBlocked (resolveLoad (readEncoders s)).2).crane.current = none := by
      rw [clearBlocked_crane_of_not_holding hstate, hcur, hc]
    split
    · exact RestSound.leaveHalt hclear
    · exact restSound_of_current hclear
  · exact h.clearBlocked

theorem RestSound.deriveMode (h : RestSound s) : RestSound (deriveMode s) := by
  have h : RestSound (leaveWorking s.mode (s.setMode (newMode s))) := h.of_crane (by simp)
  unfold Machine.deriveMode enterFire
  split
  · exact h.craneEntersFire
  · exact h

theorem RestSound.hearResume (h : RestSound s) : RestSound (hearResume s) := by
  have h : RestSound (Machine.deriveMode (s.setStopTaken false)) := RestSound.deriveMode (h.of_crane rfl)
  unfold Machine.hearResume
  dsimp only
  split
  · exact h.of_pose rfl
  · exact h.resumeSteps

/-! ## Alarms and restores (R128 to R131, R149, R150) -/

theorem RestSound.alarmRaised (h : RestSound s) (c : Compartment) : RestSound (alarmRaised c s) := by
  refine (RestSound.deriveMode (h.of_crane ?_)).of_crane (retestRoute_crane _)
  split <;> simp

theorem RestSound.localCause (h : RestSound s) (i : FireInput) : RestSound (localCause i s) := by
  unfold Machine.localCause
  dsimp only
  split
  · split
    · exact h
    · exact h.of_crane (by simp)
  · exact RestSound.alarmRaised (h.of_crane (by simp)) _

theorem RestSound.hearAlarm (h : RestSound s) (b : AlarmBody) : RestSound (hearAlarm b s) := by
  unfold Machine.hearAlarm
  dsimp only
  split
  · exact h
  · split
    · exact h.of_crane (by simp)
    · exact RestSound.alarmRaised (h.of_crane (by simp)) _

theorem RestSound.foldl {α : Type} {f : State → α → State} (step : ∀ {s : State} (a : α), RestSound s → RestSound (f s a))
    (l : List α) (h : RestSound s) : RestSound (l.foldl f s) := by
  induction l generalizing s with
  | nil => exact h
  | cons a l ih => exact ih (step a h)

theorem spineResumes_crane (s : State) : (spineResumes s).crane = s.crane := by simp [spineResumes]

theorem RestSound.restoreEffects (h : RestSound s) (c : Compartment) : RestSound (restoreEffects c s) := by
  have hd : RestSound (Machine.deriveMode (if c == ownComp s.cfg then s.setSafeMade false else s)) :=
    RestSound.deriveMode (h.of_crane (by split <;> rfl))
  unfold Machine.restoreEffects
  dsimp only
  generalize Machine.deriveMode (if c == ownComp s.cfg then s.setSafeMade false else s) = u at hd ⊢
  have hu : RestSound (if c == ownComp s.cfg then Machine.unpark u else u) := by
    split
    · exact hd.unpark
    · exact hd
  generalize (if c == ownComp s.cfg then Machine.unpark u else u) = v at hu ⊢
  have hv : RestSound (spineResumes (retestRoute v)) := hu.of_crane (by rw [spineResumes_crane, retestRoute_crane])
  generalize spineResumes (retestRoute v) = w at hv ⊢
  have hw : RestSound (if bordersShutter w.cfg c then reopen w else w) := by
    split
    · exact hv.of_crane (reopen_crane w)
    · exact hv
  split
  · exact RestSound.foldl (fun i h => h.localCause i) _ hw
  · exact hw

theorem RestSound.hearRestore (h : RestSound s) (b : RestoreBody) : RestSound (hearRestore b s).2 := by
  unfold Machine.hearRestore
  dsimp only
  split
  · split
    · exact RestSound.restoreEffects (h.of_crane (by simp)) _
    · exact h.of_crane (by simp)
  · exact h.of_crane (by simp)

theorem RestSound.filterExpires (h : RestSound s) (i : FireInput) : RestSound (filterExpires i s) := by
  unfold Machine.filterExpires
  dsimp only
  split
  · exact h.of_crane (by simp)
  · exact h.of_crane (by simp)
  · exact RestSound.localCause (h.of_crane (by simp)) i

theorem RestSound.applyHeld (h : RestSound s) : RestSound (applyHeld s) :=
  RestSound.foldl (fun i h => RestSound.localCause (h.of_crane (by simp)) i) _ h

/-! ## The end of an event (R75, R78) -/

theorem stageFree_pose (w : Work) (s : State) : (stageFree w s).crane.pose = s.crane.pose := by
  unfold stageFree
  split
  · cases w with
    | visit v => simp [askLeg, noteHeld, Crane.pose]
    | stow => simp [askLeg, noteHeld, Crane.pose]
  · rfl

theorem RestSound.giveFree (h : RestSound s) (w : Work) : RestSound (giveFree w s) := by
  unfold Machine.giveFree
  split
  · exact makeCurrent_restSound _ _ _ _ _
  · exact h.of_pose (stageFree_pose w s)

theorem RestSound.selectAmong (h : RestSound s) (orders : List Nat) {give : Work → State → State}
    (hg : ∀ w {u : State}, RestSound u → RestSound (give w u)) : RestSound (selectAmong orders give s) := by
  unfold Machine.selectAmong
  split
  · next o _ =>
    have hc : RestSound (chooseAt s o).2 := h.of_crane (chooseAt_crane s o)
    split
    · next heq => rw [heq] at hc; exact hg _ hc
    · next heq => rw [heq] at hc; exact hc
  · exact h

theorem RestSound.selectWork (h : RestSound s) : RestSound (selectWork s) := by
  unfold Machine.selectWork
  split
  · split
    · exact h.selectAmong _ fun w u hu => (hu.of_pose (stageFree_pose w u)).of_crane (giveBack_crane _ _)
    · exact h
  · split
    · exact h.of_crane rfl
    · split
      · exact RestSound.selectAmong (s := clearPassed s) (h.of_crane rfl) _ fun w u hu => hu.giveFree w
      · exact h.of_crane rfl

theorem RestSound.settle (h : RestSound s) : RestSound (settle s) := by
  have h : RestSound (withdrawOffer .up (withdrawOffer .down s)) := h.of_crane (by simp)
  refine h.selectWork.of_crane ?_
  simp [Machine.settle]

/-! ## Arrivals (R112, R117) -/

theorem RestSound.mergeArrives (h : RestSound s) : RestSound (mergeArrives s) := by
  unfold Machine.mergeArrives
  split
  · exact RestSound.portOutEmptied (h.of_crane (by simp))
  · exact h.of_crane rfl

theorem RestSound.laneEntry (h : RestSound s) (l : Lane) : RestSound (laneEntry l s) := by
  unfold Machine.laneEntry
  split
  · split
    · split
      · exact h.of_crane (by simp)
      · exact h.mergeArrives
    · exact h
  · exact h.of_crane (by simp)
  · exact h
  · exact h

theorem RestSound.entryReport (h : RestSound s) (place : SpinePlace) : RestSound (entryReport place s) := by
  cases place with
  | down => exact h.laneEntry _
  | up => exact h.laneEntry _
  | portOut =>
    unfold Machine.entryReport
    dsimp only
    split
    · exact h.of_crane (by simp)
    · exact h
  | portIn =>
    unfold Machine.entryReport
    dsimp only
    split
    · split <;> exact h.of_crane (by simp)
    · exact h

/-! ## Frames heard -/

theorem withdrawStaged_pose (n : Nat) (s : State) : (withdrawStaged n s).crane.pose = s.crane.pose := by
  unfold withdrawStaged
  split
  · split <;> rfl
  · rfl

theorem hearCancel_pose (id : Nat) (s : State) : (hearCancel id s).2.crane.pose = s.crane.pose := by
  unfold hearCancel
  split
  · rfl
  · split
    · rfl
    · split
      · dsimp only
        split
        · rfl
        · unfold cancelListed
          dsimp only
          split
          · split
            · exact withdrawStaged_pose _ _
            · rfl
          · rfl
      · rfl

theorem RestSound.applyItem (h : RestSound s) (hd : Header) (i : Item) : RestSound (applyItem hd i s).2 := by
  cases i with
  | alarm b => exact h.hearAlarm b
  | restore b => exact h.hearRestore b
  | cancel id => exact h.of_pose (hearCancel_pose id s)
  | stockEnd => exact RestSound.deriveMode (h.of_crane rfl)
  | stop => exact RestSound.deriveMode (RestSound.craneStop (h.of_crane rfl))
  | resume => exact h.hearResume
  | offer | taken | roomCall | bid | claim | lend | stockAt | stock | writeOff | query | fault | closing | closed | opened
  | safe | requestDone | requestFailed | binStored | binOverdue | stationReport | stockRefused =>
    exact h.of_crane (by simp [Machine.applyItem])

theorem RestSound.takeItem (h : RestSound s) (hd : Header) (i : Item) (a : Answers) : RestSound (takeItem hd i a s).2 := by
  unfold Machine.takeItem
  split
  · exact h
  · split
    · exact h
    · split
      · exact h
      · exact h.of_crane (gateNotice_crane _ _ _)
      · exact h.applyItem hd i

theorem RestSound.afterItem (h : RestSound s) : RestSound (afterItem s) := by
  unfold Machine.afterItem
  dsimp only
  split <;> exact h.of_crane (by simp)

theorem RestSound.takeItems (h : RestSound s) (hd : Header) (items : List Item) (a : Answers) :
    RestSound (takeItems hd items a s).2 := by
  induction items generalizing a s with
  | nil => exact h
  | cons i rest ih => exact ih (h.takeItem hd i a).afterItem _

theorem takeClaims_crane (items : List Item) (s : State) : (takeClaims items s).crane = s.crane := by
  unfold takeClaims
  refine foldl_crane _ (fun u i => ?_) _ _
  cases i with
  | claim b => dsimp only; split <;> simp
  | _ => rfl

theorem RestSound.frameHeard (h : RestSound s) (hd : Header) (items : List Item) : RestSound (frameHeard hd items s) := by
  have hs : RestSound (setSlots (false, false) s) := h.of_crane rfl
  have he : RestSound (enterNeighbour hd (setSlots (false, false) s)) := hs.of_crane (by simp)
  unfold Machine.frameHeard
  dsimp only
  split
  · exact hs
  · split
    · exact he.settle
    · split
      · exact RestSound.settle (he.of_crane (takeClaims_crane _ _))
      · split
        · exact he.settle.of_crane rfl
        · have ht := he.takeItems hd items Answers.none
          refine RestSound.of_crane (RestSound.settle (ht.of_crane ?_)) rfl
          unfold passedSince
          split <;> rfl

/-! ## The reports of the drive link (R47, R50, R57 to R60) -/

theorem parkCompletes_restSound (s : State) : RestSound (parkCompletes s) := by
  have h (u : State) (hu : u.crane.current = none) : RestSound (if u.fire.alarmed (ownComp u.cfg) then u else Machine.unpark u) := by
    split
    · exact restSound_of_current hu
    · exact (restSound_of_current hu).unpark
  exact h _ rfl

theorem slotConflict_restSound (b : Nat) (old : Slot) (s : State) : RestSound (slotConflict b old s) := by
  unfold slotConflict
  dsimp only
  split
  · unfold storeAgain
    split
    · exact park_restSound _
    · exact makeCurrent_restSound _ _ _ _ _
  · exact storeBlocked_restSound _ _ _

theorem RestSound.inPosition (h : RestSound s) : RestSound (inPosition s) := by
  unfold Machine.inPosition
  split
  · split
    · exact h
    · dsimp only
      split
      · exact parkCompletes_restSound _
      · unfold storeInPosition
        split
        · split
          · exact slotConflict_restSound _ _ _
          · exact h.of_pose rfl
        · exact h.of_pose rfl
      · exact h.of_pose rfl
      · exact h.of_pose rfl
      · exact h.of_pose rfl
  · exact h

theorem discardBound_pose (s : State) : (discardBound s).crane.pose = s.crane.pose := by
  unfold discardBound
  split
  · split <;> rfl
  · rfl

theorem tagMismatch_state (m : Move) (x : Nat) (s : State) : (tagMismatch m x s).crane.state = s.crane.state := by
  unfold tagMismatch
  dsimp only
  rw [(Prod.mk.inj (discardBound_pose _)).1]
  split <;> split <;> simp

theorem RestSound.forkTagRead (h : RestSound s) (r : TagRead) : RestSound (forkTagRead r s) := by
  unfold Machine.forkTagRead
  split
  · next m hm _ =>
    split
    · cases r with
      | hit => exact h.of_pose rfl
      | noRead => exact RestSound.of_crane (s := s.setCrane { s.crane with tag := .passed }) (h.of_pose rfl) (by simp [tagUnread])
      | mismatch x =>
        have hs : (tagMismatch m x s).crane.state = .moving := (tagMismatch_state m x s).trans hm
        exact restSound_of_state (by rw [hs]; decide) (by rw [hs]; rfl)
    · exact h
  · exact h

theorem takeOutRefused_current (m : Move) (s : State) : (takeOutRefused m s).crane.current = none := by
  unfold takeOutRefused
  dsimp only
  split <;> simp [discardStaged_current, clearCurrent]

theorem RestSound.forkDone (h : RestSound s) : RestSound (forkDone s) := by
  have cleared (u : State) : RestSound (afterCompletion (clearCurrent u)) := afterCompletion_restSound rfl
  unfold Machine.forkDone
  split
  · split
    · dsimp only
      split
      · unfold fetchDone
        split
        · exact cleared _
        · dsimp only
          split
          · exact cleared _
          · exact restSound_of_current (takeOutRefused_current _ _)
      · unfold deliverDone
        split
        · exact afterCompletion_restSound (by simp [clearCurrent])
        · exact cleared _
      · unfold takeInDone
        split
        · exact cleared _
        · exact cleared _
      · unfold storeDone
        split
        · exact afterCompletion_restSound (by simp [clearCurrent])
        · exact cleared _
      · exact h.of_pose rfl
    · exact h
  · exact h

theorem RestSound.craneStopped (h : RestSound s) : RestSound (craneStopped s) := by
  unfold Machine.craneStopped
  split
  · split
    · unfold fireStopped
      dsimp only
      split
      · exact park_restSound _
      · exact restSound_of_current ((resolveLoad_pose _).1.trans (abandonMove_current _))
    · unfold stopStopped
      dsimp only
      have hh : RestSound (craneTo .halted (abandonMove (readEncoders s))) := craneTo_restSound _ (abandonMove_current _)
      split
      · exact RestSound.resumeSteps (hh.of_pose rfl)
      · exact hh
  · exact h

theorem RestSound.storeBack (h : RestSound s) : RestSound (storeBack s) := by
  unfold Machine.storeBack
  split
  · exact makeStore_restSound _ _
  · exact h

/-! ## The commands -/

theorem RestSound.expiry (h : RestSound s) (timer : State → Option Timer) {f : State → State} (hf : RestSound (f s)) :
    RestSound (expiry timer f s) := by
  unfold Machine.expiry
  split
  · exact hf
  · exact h

theorem RestSound.effect {c : Instr} {f : State → State} (h : RestSound s) (hf : effect c = some f) : RestSound (f s) := by
  cases c <;> cases hf
  case inPosition => exact h.inPosition
  case forkTagRead r => exact h.forkTagRead r
  case forkDone => exact h.forkDone
  case stopped => exact h.craneStopped
  case moveBudgetExpiry =>
    refine h.expiry _ ?_
    unfold budgetExpires
    split
    · exact stall_restSound _ _
    · exact h
  case holdLimitExpiry => exact h.expiry _ h.storeBack
  case arrival place => exact h.entryReport place
  case lineIdle => exact h.of_crane rfl
  case boundarySensorChange => exact h
  case evaluationDone => exact h.of_crane (evaluationDone_crane s)
  case transferLimitExpiryOut l => exact h.expiry _ (h.of_crane (transferOutExpires_crane l s))
  case diversionExpiry => exact h.expiry _ (h.of_crane (diversionTransferExpires_crane s))
  case transferLimitExpiryIn l => exact h.expiry _ (h.of_crane (inExpires_crane l s))
  case mergeTransferExpiry => exact h.expiry _ (h.of_crane (mergeTransferExpires_crane s))
  case offerRetryExpiry l => exact h.expiry _ (h.of_crane (clearRetry_crane l s))
  case mergeWaitExpiry => exact h.expiry _ (h.of_crane (mergeWaitExpires_crane s))
  case windowExpiry c => exact h.expiry _ (h.of_crane (callWindowExpires_crane c s))
  case closingRetryExpiry => exact h.expiry _ (h.of_crane (closingRetryExpires_crane s))
  case closeLimitExpiry => exact h.expiry _ (h.of_crane (closeLimitExpires_crane s))
  case shutterDriveLimitExpiry => exact h.expiry _ (h.of_crane (driveLimitExpires_crane s))
  case contention | frameAbandoned | outcome | binAtPosition | portInTagRead | closedSensor | openSensor =>
    exact h.of_crane (by simp)

theorem RestSound.inputEffect {c : Instr} {f : State → State} (h : RestSound s) (hf : inputEffect c = some f) :
    RestSound (f s) := by
  cases c <;> cases hf
  case inputActive i => exact h.of_crane (by simp)
  case inputInactive i => exact h.of_crane (by simp)
  case inputFilterExpiry i => exact h.expiry _ (h.filterExpires i)

theorem RestSound.exec {c : Instr} (hrel : ∀ p, c ≠ .resetRelease p) (hass : ∀ p, c ≠ .resetAssert p)
    (hread : ∀ p image, c ≠ .readComplete p image) (h : RestSound s) (ht : exec c s = .next t) : RestSound t := by
  have hp : RestSound (s.setPins c.pins) := h.of_crane rfl
  rcases command_kinds c with ⟨hd, items, hf⟩ | ⟨f, hf⟩ | ⟨f, hf⟩ | ⟨p, rfl⟩ | ⟨p, image, rfl⟩ | ⟨p, rfl⟩ | ⟨p, rfl⟩
  · obtain ⟨heard, hexec⟩ := exec_of_frame hf s
    obtain rfl : hear c.pins hd heard s = t := by simpa [hexec] using ht
    unfold hear
    dsimp only
    split
    · exact hp.frameHeard hd heard
    · exact hp
  · obtain rfl : live c.pins f s = t := by simpa [exec_of_effect hf] using ht
    unfold live
    dsimp only
    split
    · exact (hp.effect hf).settle
    · exact hp
  · obtain rfl : filterEvent c.pins f s = t := by simpa [exec_of_inputEffect hf] using ht
    unfold filterEvent
    dsimp only
    split
    · exact hp
    · split
      · exact (hp.inputEffect hf).settle
      · exact hp.inputEffect hf
  · have hsweep : RestSound (Machine.expiry (fun s => s.planner.sweep) overdueSweep (s.setPins p)) :=
      hp.expiry _ (hp.of_crane (overdueSweep_crane _))
    rw [exec_overdueSweepExpiry] at ht
    split at ht
    · cases ht; exact hsweep.settle
    · cases ht; exact hsweep
  · exact absurd rfl (hread p image)
  · exact absurd rfl (hrel p)
  · exact absurd rfl (hass p)

/-- The entry to STOCKING finds a crane without a current move, which it may set FAULTED (R63). -/
theorem restSound_readComplete {image : List Byte} (hc : s.crane.current = none) : RestSound (readComplete image s) := by
  have started (u : State) (hu : u.crane.current = none) : RestSound (enterStocking u) := by
    have hu : (stockingBegun u).crane.current = none := hu
    have hs : (startCrane (stockingBegun u)).crane.current = none := by
      unfold startCrane
      dsimp only
      split
      · simpa [loadFault, craneTo, Crane.setState, readEncoders] using hu
      · exact hu
    exact RestSound.deriveMode (RestSound.applyHeld (restSound_of_current hs))
  rcases readComplete_cases image s with ⟨l, hl⟩ | ⟨l, cfg, hl⟩
  · rw [hl]; exact restSound_of_current hc
  · rw [hl]; exact (started ((s.setLoader l).setCfg cfg) hc).settle

end

theorem restInv_iff (s : State) : RestInv s ↔ RestSound s ∧ (s.mode = .start → s.crane.current = none) :=
  ⟨fun ⟨a, b⟩ => ⟨a, b⟩, fun ⟨a, b⟩ => ⟨a, b⟩⟩

/-- No command but the two of the reset input leads into START: what stands in START after one stood there before, its crane
untouched. -/
theorem exec_start {c : Instr} (hrel : ∀ p, c ≠ .resetRelease p) (hass : ∀ p, c ≠ .resetAssert p)
    (hread : ∀ p image, c ≠ .readComplete p image) {s t : State} (ht : exec c s = .next t) (hm : t.mode = .start) :
    s.mode = .start ∧ t.crane = s.crane := by
  cases hl : s.live with
  | true =>
    obtain ⟨t', ht', hchange⟩ := exec_change hrel hass hread s
    obtain rfl : t' = t := by simpa [ht'] using ht
    have hidle := idle_false_of_live hl
    rcases hchange.mode_eq_or with h | h
    · rw [← show t'.mode = s.mode from h, hm] at hidle; cases hidle
    · rw [hm] at h; cases h
  | false =>
    obtain ⟨hmode, hcrane, -⟩ := exec_of_not_live hrel hass hread hl ht
    exact ⟨hmode ▸ hm, hcrane⟩

/-- The read's end leaves START, but where the reset input is asserted. -/
theorem exec_readComplete_start {p : Pins} {image : List Byte} {s t : State} (ht : exec (.readComplete p image) s = .next t)
    (hm : t.mode = .start) : t = s.setPins p ∧ s.inReset = true := by
  rw [exec_readComplete] at ht
  split at ht
  · rcases readComplete_cases image (s.setPins p) with ⟨l, hl⟩ | ⟨l, cfg, hl⟩
    · rw [hl] at ht; cases ht; cases hm
    · rw [hl] at ht
      cases ht
      rcases (enterStocking_change (((s.setPins p).setLoader l).setCfg cfg)).settle.mode_eq_or with h | h
      · rw [hm] at h; cases h
      · rw [hm] at h; cases h
  · next hnot =>
    obtain rfl : s.setPins p = t := by simpa using ht
    exact ⟨rfl, by simpa [show s.mode = .start from hm] using hnot⟩

theorem restInv_step {s t : State} (hs : RestInv s) (h : step s = .next t) : RestInv t := by
  obtain ⟨hrest, hstart⟩ := (restInv_iff s).mp hs
  refine (restInv_iff t).mpr ?_
  rcases step_cases h with ⟨-, rfl⟩ | ⟨c, rest, -, ht⟩
  · unfold tick
    split
    · exact ⟨hrest, hstart⟩
    · exact ⟨RestSound.of_crane (s := s) hrest rfl, hstart⟩
  · have hrest : RestSound (s.setPending rest) := hrest.of_crane rfl
    by_cases hrel : ∃ p, c = .resetRelease p
    · obtain ⟨p, rfl⟩ := hrel
      obtain rfl : resetReleased p (s.setPending rest) = t := by simpa [exec, execResetRelease] using ht
      exact ⟨restSound_of_current rfl, fun _ => rfl⟩
    by_cases hass : ∃ p, c = .resetAssert p
    · obtain ⟨p, rfl⟩ := hass
      obtain rfl : resetAsserted p (s.setPending rest) = t := by simpa [exec, execResetAssert] using ht
      exact ⟨restSound_of_current rfl, fun _ => rfl⟩
    by_cases hread : ∃ p image, c = .readComplete p image
    · obtain ⟨p, image, rfl⟩ := hread
      refine ⟨?_, fun hm => ?_⟩
      · rw [exec_readComplete] at ht
        split at ht
        · next hmode =>
          obtain rfl : readComplete image ((s.setPending rest).setPins p) = t := by simpa using ht
          exact restSound_readComplete (s := (s.setPending rest).setPins p)
            (hstart (by simpa using (Bool.and_eq_true_iff.mp hmode).2))
        · obtain rfl : (s.setPending rest).setPins p = t := by simpa using ht
          exact hrest.of_crane rfl
      · obtain ⟨rfl, -⟩ := exec_readComplete_start ht hm
        exact hstart hm
    replace hrel := not_exists.mp hrel
    replace hass := not_exists.mp hass
    replace hread (p image) : c ≠ .readComplete p image := fun h => hread ⟨p, image, h⟩
    refine ⟨hrest.exec hrel hass hread ht, fun hm => ?_⟩
    obtain ⟨hmode, hcrane⟩ := exec_start hrel hass hread ht hm
    rw [hcrane]
    exact hstart hmode

end Sys2Proof.Machine

namespace Sys2Proof.Proofs
open Sys2Proof Sys2Proof.Machine Sys2Proof.Safety

/-- Settles O9: a crane is set to rest only where its move was removed before. -/
theorem stepKeepsCraneRest : Obligations.StepKeepsCraneRest := fun _ _ => restInv_step

end Sys2Proof.Proofs
end

