-- ==== Sys2Proof/Proofs/ClockTick.lean ====
section
/-! PROOFS. The millisecond that passes on an empty queue: which expiries it brings (R153, R156), and the end of START by clock 200
(R185). -/

namespace Sys2Proof.Machine
open Sys2Proof Safety

theorem mem_hit {c d : Instr} {s : State} {t : Option Timer} : c ∈ hit s t d ↔ c = d ∧ timerHits s.clock t = true := by
  unfold hit
  split <;> simp [*]

theorem mem_readHits {c : Instr} {s : State} :
    c ∈ readHits s ↔ c = .readComplete s.pins silentMemory ∧ s.mode = .start ∧ readEndsBy ≤ s.clock.toNat := by
  unfold readHits
  split <;> simp [*]

/-- A window runs for a call of the table only. -/
theorem entry_of_windowTimer_hits {now : Time} {c : Call} {s : State} (h : timerHits now (windowTimer c s) = true) :
    ∃ e ∈ s.placement.calls, e.call = c := by
  unfold windowTimer Placement.entry at h
  split at h
  · next e he => exact ⟨e, List.mem_of_find?_eq_some he, by simpa using List.find?_some he⟩
  · cases h

theorem mem_windowHits {c : Instr} {s : State} :
    c ∈ windowHits s ↔ ∃ k, c = .windowExpiry s.pins k ∧ timerHits s.clock (windowTimer k s) = true := by
  simp only [windowHits, List.mem_flatMap, mem_hit]
  constructor
  · rintro ⟨e, -, hc, ht⟩
    exact ⟨e.call, hc, ht⟩
  · rintro ⟨k, hc, ht⟩
    obtain ⟨e, he, rfl⟩ := entry_of_windowTimer_hits ht
    exact ⟨e, he, hc, ht⟩

/-- What falls due at a reading: the expiry of each timer that hits it, and the end of the image read. -/
theorem mem_expiries (c : Instr) (s : State) : c ∈ expiries s ↔
    (∃ i, c = .inputFilterExpiry s.pins i ∧ timerHits s.clock (s.fire.filter i).timer = true) ∨
    c = .moveBudgetExpiry s.pins ∧ timerHits s.clock (budgetTimer s) = true ∨
    c = .holdLimitExpiry s.pins ∧ timerHits s.clock (holdTimer s) = true ∨
    (∃ l, c = .transferLimitExpiryOut s.pins l ∧ timerHits s.clock (outTimer l s) = true) ∨
    c = .diversionExpiry s.pins ∧ timerHits s.clock (diversionTimer s) = true ∨
    (∃ l, c = .transferLimitExpiryIn s.pins l ∧ timerHits s.clock (inTimer l s) = true) ∨
    c = .mergeTransferExpiry s.pins ∧ timerHits s.clock (mergeTimer s) = true ∨
    (∃ l, c = .offerRetryExpiry s.pins l ∧ timerHits s.clock (s.spine.retry l) = true) ∨
    c = .mergeWaitExpiry s.pins ∧ timerHits s.clock s.spine.mergeWait = true ∨
    (∃ k, c = .windowExpiry s.pins k ∧ timerHits s.clock (windowTimer k s) = true) ∨
    c = .closingRetryExpiry s.pins ∧ timerHits s.clock (shutterTimer (·.retry) s) = true ∨
    c = .closeLimitExpiry s.pins ∧ timerHits s.clock (shutterTimer (·.closeLimit) s) = true ∨
    c = .shutterDriveLimitExpiry s.pins ∧ timerHits s.clock (shutterTimer (·.driveLimit) s) = true ∨
    c = .overdueSweepExpiry s.pins ∧ timerHits s.clock s.planner.sweep = true ∨
    c = .readComplete s.pins silentMemory ∧ s.mode = .start ∧ readEndsBy ≤ s.clock.toNat := by
  have inputs (p : FireInput → Prop) : (∃ i, p i) ↔ p .smoke ∨ p .heat ∨ p .callPoint :=
    ⟨fun ⟨i, hi⟩ => by cases i <;> simp [hi], by rintro (h | h | h) <;> exact ⟨_, h⟩⟩
  have lanes (p : Lane → Prop) : (∃ l, p l) ↔ p .down ∨ p .up :=
    ⟨fun ⟨l, hl⟩ => by cases l <;> simp [hl], by rintro (h | h) <;> exact ⟨_, h⟩⟩
  unfold expiries
  rw [inputs, lanes, lanes, lanes]
  simp only [List.mem_append, or_assoc, mem_hit, mem_windowHits, mem_readHits]
  rfl

theorem tick_of_inReset {s : State} (h : s.inReset = true) : tick s = s := by simp [tick, h]

/-- What waits after a tick is what falls due at its reading, whatever the order (log 2). -/
theorem mem_tick_pending {s : State} (h : s.inReset = false) (c : Instr) :
    c ∈ (tick s).pending ↔ c ∈ expiries (s.setClock (s.clock + 1)) := by
  simp [tick, h, mem_inOrder]

theorem tick_eq {s : State} (h : s.inReset = false) :
    tick s = { s with clock := s.clock + 1, pending := (tick s).pending } := by
  simp [tick, h, State.setClock, State.setPending]

/-! ## START ends by clock 200 -/

theorem startInv_tick {s : State} (hs : StartInv s) (hp : s.pending = []) : StartInv (tick s) := by
  cases hr : s.inReset with
  | true => rwa [tick_of_inReset hr]
  | false =>
    have hlt (hm : s.mode = .start) : s.clock.toNat < 200 := by
      refine Nat.lt_of_le_of_ne (hs.clock hm) fun h200 => ?_
      obtain ⟨-, p, image, hmem⟩ := hs.ends hm h200
      simp [hp] at hmem
    have hmode : (tick s).mode = s.mode := by rw [tick_eq hr]
    have hclock : (tick s).clock = s.clock + 1 := by rw [tick_eq hr]
    have hreset : (tick s).inReset = false := by rw [tick_eq hr]; exact hr
    have hnat (hm : s.mode = .start) : (s.clock + 1).toNat = s.clock.toNat + 1 := by
      have := hlt hm
      bv_omega
    constructor
    · intro hm
      have hm : s.mode = .start := hmode ▸ hm
      rw [hclock, hnat hm]
      exact Nat.succ_le_of_lt (hlt hm)
    · intro hm h200
      have hm : s.mode = .start := hmode ▸ hm
      refine ⟨hreset, s.pins, silentMemory, (mem_tick_pending hr _).mpr ?_⟩
      have hread : Instr.readComplete s.pins silentMemory ∈ readHits (s.setClock (s.clock + 1)) := by
        refine mem_readHits.mpr ⟨rfl, hm, ?_⟩
        rw [hclock] at h200
        exact Nat.le_of_eq h200.symm
      exact List.mem_append_right _ hread

theorem startInv_step {s t : State} (hs : StartInv s) (h : step s = .next t) : StartInv t := by
  rcases step_cases h with ⟨hp, rfl⟩ | ⟨c, rest, hp, ht⟩
  · exact startInv_tick hs hp
  by_cases hrel : ∃ p, c = .resetRelease p
  · obtain ⟨p, rfl⟩ := hrel
    obtain rfl : resetReleased p (s.setPending rest) = t := by simpa [exec, execResetRelease] using ht
    exact ⟨fun _ => Nat.zero_le _, nofun⟩
  by_cases hass : ∃ p, c = .resetAssert p
  · obtain ⟨p, rfl⟩ := hass
    obtain rfl : resetAsserted p (s.setPending rest) = t := by simpa [exec, execResetAssert] using ht
    exact ⟨fun _ => Nat.zero_le _, nofun⟩
  by_cases hread : ∃ p image, c = .readComplete p image
  · obtain ⟨p, image, rfl⟩ := hread
    refine ⟨fun hm => ?_, fun hm h200 => ?_⟩
    · obtain ⟨rfl, -⟩ := exec_readComplete_start ht hm
      exact hs.clock hm
    · obtain ⟨rfl, hreset⟩ := exec_readComplete_start ht hm
      obtain ⟨hout, -⟩ := hs.ends hm h200
      rw [show s.inReset = true from hreset] at hout
      cases hout
  replace hrel := not_exists.mp hrel
  replace hass := not_exists.mp hass
  replace hread (p image) : c ≠ .readComplete p image := fun h => hread ⟨p, image, h⟩
  obtain ⟨t', ht', hclock, hreset, -, -, hpending, -⟩ := Proofs.commandsKeepFixedParts c (s.setPending rest) hrel hass hread
  obtain rfl : t' = t := by simpa [ht'] using ht
  have hstart (hm : t'.mode = .start) : s.mode = .start := (exec_start hrel hass hread ht hm).1
  refine ⟨fun hm => ?_, fun hm h200 => ?_⟩
  · rw [hclock]
    exact hs.clock (hstart hm)
  · rw [hclock] at h200
    obtain ⟨hr, p, image, hmem⟩ := hs.ends (hstart hm) h200
    rw [hp, List.mem_cons] at hmem
    refine ⟨hreset.trans hr, p, image, ?_⟩
    rw [hpending]
    exact hmem.resolve_left fun heq => hread p image heq.symm

end Sys2Proof.Machine

namespace Sys2Proof.Proofs
open Sys2Proof Sys2Proof.Machine Sys2Proof.Safety

/-- Settles O2: what waits after a tick is a rearrangement of what falls due. -/
theorem emptyQueueTicksClock : Obligations.EmptyQueueTicksClock := by
  refine ⟨fun _ _ => startInv_step, fun s hp => ⟨fun hr => ?_, fun hr => ?_⟩⟩
  · simp [step, hp, tick_of_inReset hr]
  · refine ⟨(tick s).pending, ?_⟩
    intro u
    have due (c : Instr) := (mem_tick_pending hr c).trans (mem_expiries c _)
    have read (image : List Byte) : .readComplete s.pins image ∈ (tick s).pending ↔
        s.mode = .start ∧ readEndsBy ≤ (s.clock + 1).toNat ∧ image = silentMemory := by
      refine (due _).trans ?_
      simp only [reduceCtorEq, false_and, exists_false, false_or]
      simp only [Instr.readComplete.injEq]
      constructor
      · rintro ⟨⟨-, rfl⟩, hmode, hclock⟩
        exact ⟨hmode, hclock, rfl⟩
      · rintro ⟨hmode, hclock, rfl⟩
        exact ⟨⟨rfl, rfl⟩, hmode, hclock⟩
    refine ⟨?_, (due _).trans ?_, (due _).trans ?_, (due _).trans ?_, (due _).trans ?_, (due _).trans ?_, (due _).trans ?_,
      (due _).trans ?_, (due _).trans ?_, (due _).trans ?_, fun l => (due _).trans ?_, fun l => (due _).trans ?_,
      fun l => (due _).trans ?_, fun i => (due _).trans ?_, fun c => (due _).trans ?_, read⟩
    · have ht : step s = .next (tick s) := by simp [step, hp]
      exact ht.trans (congrArg _ (tick_eq hr))
    all_goals simp [State.setClock]
    all_goals rfl

end Sys2Proof.Proofs
end

