-- ==== Sys2Proof/Proofs/Events.lean ====
section
/-! PROOFS. The commands that are no frames: an event of a live station ends with the checks, and an expiry acts where its timer
runs and has expired (R156). -/

namespace Sys2Proof.Machine
open Sys2Proof Safety

section
variable {c : Instr} {f : State → State} {timer : State → Option Timer} {s : State} {t : Timer}

theorem expiry_of_due (ht : timer s = some t) (hd : t.dur ≤ (s.clock - t.start).toNat) : expiry timer f s = f s := by
  have hdue : timerDue s.clock (timer s) = true := by
    rw [ht]
    exact decide_eq_true hd
  exact if_pos hdue

theorem expiry_of_early (ht : timer s = some t) (hd : (s.clock - t.start).toNat < t.dur) : expiry timer f s = s := by
  have hdue : ¬ timerDue s.clock (timer s) = true := by
    rw [ht]
    exact fun h => absurd (of_decide_eq_true h) (Nat.not_le_of_lt hd)
  exact if_neg hdue

theorem expiry_of_none (ht : timer s = none) : expiry timer f s = s := by simp [expiry, ht, timerDue]

/-- An expiry that is due acts in the event. -/
theorem exec_expiry_of_due (hf : effect c = some (expiry timer f)) (hl : s.live = true)
    (ht : timer (s.setPins c.pins) = some t) (hd : t.dur ≤ (s.clock - t.start).toNat) :
    exec c s = .next (settle (f (s.setPins c.pins))) := by
  rw [exec_effect_of_live hf hl, expiry_of_due ht hd]

/-- An expiry that is early changes nothing. -/
theorem exec_expiry_of_early (hf : effect c = some (expiry timer f)) (hl : s.live = true)
    (ht : timer (s.setPins c.pins) = some t) (hd : (s.clock - t.start).toNat < t.dur) :
    exec c s = .next (settle (s.setPins c.pins)) := by
  rw [exec_effect_of_live hf hl, expiry_of_early ht hd]

/-- The event of a fire input, out of reset. -/
theorem exec_inputEffect (hf : inputEffect c = some f) (hr : s.inReset = false) :
    exec c s = .next (if s.live = true then settle (f (s.setPins c.pins)) else f (s.setPins c.pins)) := by
  have hr' : (s.setPins c.pins).inReset = false := hr
  have hl : (s.setPins c.pins).live = s.live := rfl
  simp only [exec_of_inputEffect hf, filterEvent, hr', hl, Bool.false_eq_true, if_false]

end

end Sys2Proof.Machine
end

