-- ==== Sys2Proof/Proofs/FrameItems.lean ====
section
/-! PROOFS. A frame heard: what its event leaves as it was, its first item as the command of its row, the answer slots, the sender
check and the mode gate (R164 to R173). -/

namespace Sys2Proof.Machine
open Sys2Proof Safety

/-! ## What the operations of the blocks leave as the station heard it -/

/-- What the station was told or has heard: stock end and stop, alarm records and input filters, neighbour table, answer slots and
footing. -/
def State.records (s : State) :=
  (s.stockEnded, s.stopTaken, s.fire.alarms, s.fire.smoke, s.fire.heat, s.fire.callPoint, s.line.neighbours, s.line.ack, s.line.obj,
    s.line.footing)

theorem LineChange.records {u v : LineUnit} (h : LineChange .blocks u v) :
    (v.neighbours, v.ack, v.obj, v.footing) = (u.neighbours, u.ack, u.obj, u.footing) := by
  induction h with
  | refl => rfl
  | flags _ hk | enter _ hk => cases hk
  | joins _ f waits ih => rw [← ih]; unfold LineUnit.afterAdmission; split <;> rfl
  | keep _ _ ih | disown _ _ ih | win _ _ _ _ _ _ ih | discard _ _ ih => exact ih

/-- An operation of the blocks leaves what the station was told or has heard. -/
theorem Change.records {s t : State} (h : Change .blocks s t) : t.records = s.records := by
  induction h with
  | refl => rfl
  | stockEnded _ hk | stopTaken _ hk | fire _ hk => cases hk
  | line _ c ih =>
    rw [← ih]
    have hc := c.records
    simp only [Prod.mk.injEq] at hc
    obtain ⟨hn, ha, ho, hf⟩ := hc
    simp [State.records, hn, ha, ho, hf]
  | _ => assumption

theorem settle_records (s : State) : (settle s).records = s.records := (Change.refl (k := .blocks)).settle.records

theorem settle_ack (s : State) : (settle s).line.ack = s.line.ack := congrArg (·.2.2.2.2.2.2.2.1) (settle_records s)

theorem settle_obj (s : State) : (settle s).line.obj = s.line.obj := congrArg (·.2.2.2.2.2.2.2.2.1) (settle_records s)

theorem takeClaims_records (items : List Item) (s : State) : (takeClaims items s).records = s.records :=
  ((Change.refl (k := .blocks)).takeClaims items).records

theorem retestRoute_records (s : State) : (retestRoute s).records = s.records := (Change.refl (k := .blocks)).retestRoute.records

/-! ## The neighbour table (R170) -/

/-- The sender's entry, before the routes are tested. -/
def withNeighbour (h : Header) (s : State) : State :=
  s.setLine { s.line with neighbours := tblPut h.sender (h.cond, s.clock) s.line.neighbours }

theorem enterNeighbour_records (h : Header) (s : State) : (enterNeighbour h s).records = (withNeighbour h s).records := by
  unfold enterNeighbour
  dsimp only
  split
  · rfl
  · exact retestRoute_records _

theorem entered_records (p : Pins) (h : Header) (s : State) :
    (entered p h s).records = (withNeighbour h (setSlots (false, false) (s.setPins p))).records := enterNeighbour_records _ _

theorem entered_neighbours (p : Pins) (h : Header) (s : State) :
    (entered p h s).line.neighbours = tblPut h.sender (h.cond, s.clock) s.line.neighbours :=
  congrArg (·.2.2.2.2.2.2.1) (entered_records p h s)

theorem entered_ack (p : Pins) (h : Header) (s : State) : (entered p h s).line.ack = false :=
  congrArg (·.2.2.2.2.2.2.2.1) (entered_records p h s)

theorem entered_obj (p : Pins) (h : Header) (s : State) : (entered p h s).line.obj = false :=
  congrArg (·.2.2.2.2.2.2.2.2.1) (entered_records p h s)

theorem afterItem_neighbours (s : State) : (afterItem s).line.neighbours = s.line.neighbours := by
  unfold afterItem
  dsimp only
  split <;> simp

theorem takeItems_neighbours (h : Header) (items : List Item) (a : Answers) (s : State) :
    (takeItems h items a s).2.line.neighbours = s.line.neighbours := by
  induction items generalizing a s with
  | nil => rfl
  | cons i rest ih => exact (ih _ _).trans ((afterItem_neighbours _).trans (takeItem_neighbours _ _ _ _))

theorem passedSince_line (before s : State) : (passedSince before s).line = s.line := by
  unfold passedSince
  split <;> rfl

/-- A frame heard in a station with its footing on the line: the station's own frames apart, its event begins with the entry. -/
theorem hear_of_hears {h : Header} {s : State} (p : Pins) (hh : Hears h s) (items : List Item) : hear p h items s =
    if classGood h items = false then settle (entered p h s)
    else if addressed s.cfg h = false then settle (takeClaims items (entered p h s))
    else if items = [] then setSlots (Answers.none.slots h.cls) (settle (entered p h s))
    else setSlots ((takeItems h items Answers.none (entered p h s)).1.slots h.cls)
      (settle (passedSince (s.setPins p) (takeItems h items Answers.none (entered p h s)).2)) := by
  obtain ⟨hl, hf, hs, ho⟩ := hh
  have hlive : (s.setPins p).live = true := hl
  have hfoot : (s.setPins p).line.footing = true := hf
  have hsnd : ¬(63 ≤ h.sender ∨ h.sender = (setSlots (false, false) (s.setPins p)).cfg.station) := by
    rintro (h1 | h1)
    · omega
    · exact ho h1
  have hcfg : (enterNeighbour h (setSlots (false, false) (s.setPins p))).cfg = s.cfg := entered_cfg p h s
  simp only [hear, hlive, hfoot, Bool.and_self, if_true, frameHeard, if_neg hsnd, hcfg, Bool.not_eq_true', List.isEmpty_iff, entered]

theorem hear_neighbours {h : Header} {s : State} (p : Pins) (hh : Hears h s) (items : List Item) :
    (hear p h items s).line.neighbours = tblPut h.sender (h.cond, s.clock) s.line.neighbours := by
  rw [hear_of_hears p hh, ← entered_neighbours p]
  split
  · simp
  · split
    · simp
    · split
      · simp
      · simp [passedSince_line, takeItems_neighbours]

/-! ## The first item -/

section
variable {c : Instr} {p : Pins} {h : Header} {i : Item} {rest : List Item} {s : State}

/-- The command of a frame whose items reach the blocks: its first item is taken, and the rest follows. -/
theorem exec_reaches (hc : exec c s = .next (hear p h (i :: rest) s)) (hr : Reaches h (i :: rest) s) : exec c s =
    .next (follow s h rest (takeItem h i Answers.none (entered p h s)).1 (takeItem h i Answers.none (entered p h s)).2) := by
  rw [hc, hear_reaches p hr]

/-- The first item is admitted and acts at its block. -/
theorem exec_admitted (hc : exec c s = .next (hear p h (i :: rest) s)) (hr : Reaches h (i :: rest) s)
    (hs : senderGood s.cfg h.sender i = true) (ha : addressGood s.cfg h i = true) (hn : concerns h (entered p h s) i = true)
    (hg : gate s i = .admitted) {v : Verdict} {t : State} (happly : applyItem h i (entered p h s) = (v, t)) :
    exec c s = .next (follow s h rest (Answers.none.note v) t) := by
  rw [exec_reaches hc hr, takeItem_admitted (by simpa using hs) (by simpa using ha) hn (by simpa using hg), happly]

/-- The gate refuses the first item, which draws its notice. -/
theorem exec_gateRefused (hc : exec c s = .next (hear p h (i :: rest) s)) (hr : Reaches h (i :: rest) s)
    (hs : senderGood s.cfg h.sender i = true) (ha : addressGood s.cfg h i = true) (hn : concerns h (entered p h s) i = true)
    (hg : gate s i = .refused) {a : Answers} {t : State} (hnotice : gateNotice refused i (entered p h s) = (a, t)) :
    exec c s = .next (follow s h rest a t) := by
  rw [exec_reaches hc hr, takeItem_refused (by simpa using hs) (by simpa using ha) hn (by simpa using hg)]
  rw [refused] at hnotice
  rw [hnotice]

/-- The gate drops the first item. -/
theorem exec_gateDropped (hc : exec c s = .next (hear p h (i :: rest) s)) (hr : Reaches h (i :: rest) s)
    (hs : senderGood s.cfg h.sender i = true) (ha : addressGood s.cfg h i = true) (hn : concerns h (entered p h s) i = true)
    (hg : gate s i = .dropped) : exec c s = .next (follow s h rest unanswered (entered p h s)) := by
  rw [exec_reaches hc hr, takeItem_dropped (by simpa using hs) (by simpa using ha) hn (by simpa using hg)]
  rfl

/-- The first item does not concern the station. -/
theorem exec_unconcerned (hc : exec c s = .next (hear p h (i :: rest) s)) (hr : Reaches h (i :: rest) s)
    (hs : senderGood s.cfg h.sender i = true) (hn : concerns h (entered p h s) i = false) :
    exec c s = .next (follow s h rest unanswered (entered p h s)) := by
  rw [exec_reaches hc hr]
  simp [takeItem, hs, hn]
  rfl

/-- The first item comes from a sender its row does not allow. -/
theorem exec_wrongSender (hc : exec c s = .next (hear p h (i :: rest) s)) (hr : Reaches h (i :: rest) s)
    (hs : senderGood s.cfg h.sender i = false) : exec c s = .next (follow s h rest wrongSender (entered p h s)) := by
  rw [exec_reaches hc hr, takeItem_wrongSender (by simpa using hs)]
  rfl

end

/-- The items taken from the gateways alone. -/
theorem senderGood_of_fromGateway {i : Item} (hg : i.fromGateway = true) (cfg : StationConfig) (n : Nat) :
    senderGood cfg n i = isGateway cfg n := by
  cases i with
  | restore | roomCall => cases hg
  | _ => simp [senderGood, hg]

/-! ## The gate (R171) -/

theorem mode_idle_of_live {s : State} (hl : s.live = true) : s.mode.idle = false := by
  simp only [State.live, Bool.and_eq_true, Bool.not_eq_true'] at hl
  exact hl.2

/-- RUN and GUARD let every item pass. -/
theorem gate_of_working {s : State} (hm : s.mode.working = true) (i : Item) : gate s i = .admitted := by
  cases h : s.mode with
  | run | guard => simp [gate, h]
  | start | unconfigured | stocking | fire | fireSafe | halted => simp [h, Mode.working] at hm

theorem gate_of_stocking {s : State} (hm : s.mode = .stocking) (i : Item) : gate s i = gateStocking i := by simp [gate, hm]

theorem gate_of_halted {s : State} (hm : s.mode = .halted) (i : Item) : gate s i = gateHalted i := by simp [gate, hm]

/-- A fire mode refuses or drops what its own column does not let pass, and before the stock end what STOCKING does not. -/
theorem gate_of_fiery {s : State} (hm : s.mode.fiery = true) (i : Item) : gate s i =
    if s.stockEnded = true ∨ gateFire i ≠ .admitted then gateFire i else gateStocking i := by
  have hgate : gate s i = if s.stockEnded then gateFire i
      else if gateFire i = .admitted then gateStocking i else gateFire i := by
    cases h : s.mode with
    | fire | fireSafe => simp [gate, h]
    | start | unconfigured | stocking | run | guard | halted => simp [h, Mode.fiery] at hm
  rw [hgate]
  by_cases hs : s.stockEnded = true <;> by_cases hf : gateFire i = .admitted <;> simp [hs, hf]

/-- The modes of a live station. -/
theorem mode_of_live {s : State} (hl : s.live = true) :
    s.mode.working = true ∨ s.mode = .stocking ∨ s.mode = .halted ∨ s.mode.fiery = true := by
  have hidle := mode_idle_of_live hl
  cases h : s.mode with
  | start | unconfigured => simp [h, Mode.idle] at hidle
  | stocking | run | guard | fire | fireSafe | halted => simp [Mode.working, Mode.fiery]

/-- What every column of the gate does with an item, the gate of a live station does, but in RUN and GUARD, which let it pass. -/
theorem gate_of_columns {s : State} {i : Item} {g : Gate} (hl : s.live = true) (hw : s.mode.working = true → g = .admitted)
    (h1 : gateStocking i = g) (h2 : gateHalted i = g) (h3 : gateFire i = g) : gate s i = g := by
  rcases mode_of_live hl with hm | hm | hm | hm
  · rw [gate_of_working hm, hw hm]
  · rw [gate_of_stocking hm, h1]
  · rw [gate_of_halted hm, h2]
  · rw [gate_of_fiery hm]
    split
    · exact h3
    · exact h1

/-! ## The answer slots (R173) -/

theorem Answers.slots_eq (a : Answers) (cls : Nat) :
    a.slots cls = (!a.badSender && (cls != 3 || a.taken), !a.badSender && a.refused) := by
  unfold Answers.slots
  cases ha : a.badSender with
  | true => simp
  | false => by_cases h : cls = 3 <;> simp [h]

/-- An item adds its verdict to the answers. -/
theorem takeItem_answers (h : Header) (i : Item) (a : Answers) (u : State) :
    (takeItem h i a u).1.taken = (a.taken || (takeItem h i Answers.none u).1.taken)
    ∧ (takeItem h i a u).1.refused = (a.refused || (takeItem h i Answers.none u).1.refused)
    ∧ (takeItem h i a u).1.badSender = (a.badSender || (takeItem h i Answers.none u).1.badSender) := by
  have note (v : Verdict) : (a.note v).taken = (a.taken || (Answers.none.note v).taken)
      ∧ (a.note v).refused = (a.refused || (Answers.none.note v).refused)
      ∧ (a.note v).badSender = (a.badSender || (Answers.none.note v).badSender) := by
    cases v <;> simp [Answers.note, Answers.none]
  have gateNote (a : Answers) : (gateNotice a i u).1.taken = a.taken ∧ (gateNotice a i u).1.refused = a.refused
      ∧ (gateNotice a i u).1.badSender = a.badSender := by
    cases i with
    | stock b => dsimp only [gateNotice]; split <;> simp
    | _ => simp [gateNotice]
  unfold takeItem
  split
  · exact note .badSender
  · split
    · exact note .silent
    · split
      · exact note .silent
      · simpa only [gateNote] using note .refused
      · exact note _

/-- A selection is made with nothing staged, for a crane that is IDLE, HOLDING, or moving to anything but the park position (R75). -/
theorem selectionCondition_iff (s : State) : selectionCondition s = true ↔
    s.mode.working = true ∧ s.crane.staged = none ∧ (s.crane.state = .idle ∨ s.crane.state = .holding
      ∨ ∃ m, s.crane.state = .moving ∧ s.crane.current = some m ∧ m.kind ≠ .park) := by
  unfold selectionCondition craneTakesWork
  cases hs : s.crane.state with
  | idle | holding | stopping | parked | halted | faulted => simp
  | moving => cases hc : s.crane.current <;> simp

/-- The items of the row's command and those the blocks hear have the same classes: a FAULT row names its kind (R182). -/
theorem exec_frame {c : Instr} {h : Header} {items : List Item} (hf : c.frame = some (h, items)) (s : State) :
    ∃ heard, exec c s = .next (hear c.pins h heard s) ∧ classGood h heard = classGood h items := by
  cases c with
  | alarm | closing | closed | opened | safe | restore | offer | taken | roomCall | bid | claim | lend | cancel | stockAt
  | stock | stockEnd | stop | resume | writeOff | query | faultBinCaught | faultHandoffLost | fault | requestDone
  | requestFailed | binStored | binOverdue | stationReport | stockRefused | discardedFrame =>
    obtain ⟨⟩ := hf
    exact ⟨_, rfl, rfl⟩
  | resetRelease | resetAssert | readComplete | contention | frameAbandoned | outcome | inPosition | forkTagRead | forkDone
  | stopped | moveBudgetExpiry | holdLimitExpiry | arrival | binAtPosition | portInTagRead | transferLimitExpiryOut
  | diversionExpiry | transferLimitExpiryIn | mergeTransferExpiry | offerRetryExpiry | mergeWaitExpiry | evaluationDone
  | windowExpiry | inputActive | inputInactive | inputFilterExpiry | closingRetryExpiry | closeLimitExpiry
  | shutterDriveLimitExpiry | closedSensor | openSensor | boundarySensorChange | overdueSweepExpiry | lineIdle =>
    cases hf

end Sys2Proof.Machine

namespace Sys2Proof.Proofs
open Sys2Proof Sys2Proof.Machine Sys2Proof.Safety

/-- Settles O14: nothing in a frame's event writes the neighbour table but the entry of its sender. -/
theorem heardFrameEntersNeighbour : Obligations.HeardFrameEntersNeighbour := by
  intro c h items s hf hh
  obtain ⟨heard, hexec⟩ := exec_of_frame hf s
  refine ⟨_, hexec, ?_, fun n hn => ?_⟩
  · rw [hear_neighbours _ hh, tblGet_put_same]
  · rw [hear_neighbours _ hh, tblGet_put_other _ _ hn]

/-- Settles O29: the gate admits these rows in every mode of a live station, and no block hears them. -/
theorem rowsHeardWithoutEffect : Obligations.RowsHeardWithoutEffect := by
  intro p h rest s heard passed
  have row {c : Instr} {i : Item} (hc : exec c s = .next (hear p h (i :: rest) s)) (hr : heard i)
      (hs : senderGood s.cfg h.sender i = true) (ha : addressGood s.cfg h i = true) (hn : concerns h (entered p h s) i = true)
      (h1 : gateStocking i = .admitted) (h2 : gateHalted i = .admitted) (h3 : gateFire i = .admitted)
      (happly : applyItem h i (entered p h s) = (.silent, entered p h s)) : exec c s = passed :=
    exec_admitted hc hr hs ha hn (gate_of_columns hr.live (fun _ => rfl) h1 h2 h3) happly
  refine ⟨fun _ hr => row rfl hr rfl rfl rfl rfl rfl rfl rfl,
    fun _ hr => row rfl hr rfl rfl rfl rfl rfl rfl rfl,
    fun _ hr => row rfl hr rfl rfl rfl rfl rfl rfl rfl,
    fun _ hr => row rfl hr rfl rfl rfl rfl rfl rfl rfl,
    fun _ hr => row rfl hr rfl rfl rfl rfl rfl rfl rfl,
    fun _ hr => row rfl hr rfl rfl rfl rfl rfl rfl rfl,
    fun _ hr => row rfl hr rfl rfl rfl rfl rfl rfl rfl,
    fun _ hr => row rfl hr rfl rfl rfl rfl rfl rfl rfl,
    fun _ hr => row rfl hr rfl rfl rfl rfl rfl rfl rfl,
    fun b hr hc hl => ?_, fun items hh hc => ?_⟩
  · refine row rfl hr rfl rfl rfl rfl rfl rfl ?_
    have hfault : hearFault h.sender b (entered p h s) = entered p h s := by
      unfold hearFault
      split
      · next hk => exact absurd hk hl
      · next hk => exact absurd hk hc
      · rfl
    simp [applyItem, hfault]
  · have hexec : exec (.discardedFrame p h items) s = .next (hear p h items s) := rfl
    rw [hexec, hear_of_hears p hh, if_pos hc]

/-- Settles O30: the verdicts add up item by item, the slots are read from their sum, and the rows whose sender is wrong end
at the sender check. -/
theorem wrongSenderIgnored : Obligations.WrongSenderIgnored := by
  refine ⟨⟨rfl, rfl, rfl, rfl⟩, ?follow, ?afterItem, ?passed, ?items, ?unaddressed, ?empty, ?rows⟩
  case follow =>
    intro h rest a s u x y
    have hslots := Answers.slots_eq x.1 h.cls
    simp only [follow, setSlots, State.setLine, x] at hslots ⊢
    rw [hslots]
  case afterItem =>
    intro u w taking
    have htaking : selectionCondition w = true ↔ taking := selectionCondition_iff w
    refine ⟨fun h => ?_, fun h => ?_⟩
    · exact if_pos (htaking.mpr h)
    · exact if_neg (mt htaking.mp h)
  case passed =>
    intro s u
    refine ⟨fun hs hu => ?_, fun h => ?_⟩
    · have hu : u.planner.passed.isSome = true := Option.isSome_iff_ne_none.mpr hu
      simp only [passedSince, hs, hu, Option.isNone_none, Bool.and_self, if_true]
      rfl
    · unfold passedSince
      rcases h with h | h <;> simp [h]
  case items =>
    intro h i rest a u x y
    exact ⟨rfl, rfl, takeItem_answers h i a u⟩
  case unaddressed =>
    intro c h items s hf hh hno
    obtain ⟨heard, hexec, hclass⟩ := exec_frame hf s
    refine ⟨_, hexec, ?_⟩
    have quiet (t : State) (ht : t.records = (entered c.pins h s).records) : (settle t).line.ack = false ∧ (settle t).line.obj = false := by
      rw [settle_ack, settle_obj]
      exact ⟨(congrArg (·.2.2.2.2.2.2.2.1) ht).trans (entered_ack _ _ _), (congrArg (·.2.2.2.2.2.2.2.2.1) ht).trans (entered_obj _ _ _)⟩
    rw [hear_of_hears _ hh, hclass]
    split
    · exact quiet _ rfl
    · next hgood =>
      rw [if_pos (hno.resolve_left hgood)]
      exact quiet _ (takeClaims_records _ _)
  case empty =>
    intro p h s hh hcls ha t
    have hexec : exec (.discardedFrame p h []) s = .next (hear p h [] s) := rfl
    have hgood : classGood h [] = true := by simpa [classGood] using hcls
    rw [hexec, hear_of_hears p hh, hgood, ha, Answers.slots_eq]
    simp [setSlots, State.setLine, Answers.none, t]
  case rows =>
    intro p h rest s heard ignored
    have gateway (i : Item) (hg : i.fromGateway = true) (h1 : h.sender ≠ s.cfg.gateway1) (h2 : h.sender ≠ s.cfg.gateway2) :
        senderGood s.cfg h.sender i = false := by
      simp [senderGood_of_fromGateway hg, isGateway, h1, h2]
    refine ⟨fun b hr hs => exec_wrongSender rfl hr (by simpa [senderGood] using hs),
      fun b hr hs => exec_wrongSender rfl hr (by simp [senderGood, isDeskStation]; omega),
      fun h1 h2 => ⟨?_, ?_, ?_, ?_, ?_, ?_, ?_, ?_, ?_⟩⟩
    · exact fun _ hr => exec_wrongSender rfl hr (gateway _ rfl h1 h2)
    · exact fun _ hr => exec_wrongSender rfl hr (gateway _ rfl h1 h2)
    · exact fun _ hr => exec_wrongSender rfl hr (gateway _ rfl h1 h2)
    · exact fun _ hr => exec_wrongSender rfl hr (gateway _ rfl h1 h2)
    · exact fun hr => exec_wrongSender rfl hr (gateway _ rfl h1 h2)
    · exact fun hr => exec_wrongSender rfl hr (gateway _ rfl h1 h2)
    · exact fun hr => exec_wrongSender rfl hr (gateway _ rfl h1 h2)
    · exact fun _ hr => exec_wrongSender rfl hr (gateway _ rfl h1 h2)
    · exact fun hr => exec_wrongSender rfl hr (gateway _ rfl h1 h2)

end Sys2Proof.Proofs
end

