-- ==== Sys2Proof/Proofs/ModeGate.lean ====
section
/-! PROOFS. The mode gate row by row (R171, R172). -/

namespace Sys2Proof.Machine
open Sys2Proof Safety

theorem gateReason_num (m : Mode) : (gateReason m).num = if m.fiery = true then 2 else 1 := by
  unfold gateReason
  split <;> rfl

/-- Outside RUN and GUARD every column does with an item what the three do. -/
theorem gate_of_idle_columns {s : State} {i : Item} {g : Gate} (hl : s.live = true) (hm : s.mode.working = false)
    (h1 : gateStocking i = g) (h2 : gateHalted i = g) (h3 : gateFire i = g) : gate s i = g :=
  gate_of_columns hl (fun hw => by rw [hm] at hw; cases hw) h1 h2 h3

/-- STOCKING and the fire modes refuse an item whose two columns do. -/
theorem gate_refused_of_stocking_or_fiery {s : State} {i : Item} (hm : s.mode = .stocking ∨ s.mode.fiery = true)
    (h1 : gateStocking i = .refused) (h3 : gateFire i = .refused) : gate s i = .refused := by
  rcases hm with hm | hm
  · rw [gate_of_stocking hm, h1]
  · rw [gate_of_fiery hm, if_pos (.inr (by simp [h3])), h3]

theorem gate_refused_of_fiery {s : State} {i : Item} (hm : s.mode.fiery = true) (h3 : gateFire i = .refused) :
    gate s i = .refused := by
  rw [gate_of_fiery hm, if_pos (.inr (by simp [h3])), h3]

/-- A CLAIM is dropped outside RUN and GUARD. -/
theorem gate_claim_of_not_working {s : State} (hm : s.mode.working = false) (b : ClaimBody) : gate s (.claim b) = .dropped := by
  cases h : s.mode with
  | run | guard => rw [h] at hm; cases hm
  | start | unconfigured | stocking | halted => simp [gate, h, gateStocking, gateHalted]
  | fire | fireSafe => cases hs : s.stockEnded <;> simp [gate, h, hs, gateFire]

theorem takeClaims_of_not_working {s : State} (hm : s.mode.working = false) (items : List Item) : takeClaims items s = s := by
  unfold takeClaims
  induction items with
  | nil => rfl
  | cons i rest ih =>
    cases i with
    | claim b => simpa [gate_claim_of_not_working hm] using ih
    | _ => exact ih

end Sys2Proof.Machine

namespace Sys2Proof.Proofs
open Sys2Proof Sys2Proof.Machine Sys2Proof.Safety

/-- Settles O31: each row's column of the gate, and the notice its refusal draws. -/
theorem modeGateTurnsAway : Obligations.ModeGateTurnsAway := by
  intro p h rest s heard e asked
  have hasked (kind : AnsweredKind) (bin : Nat) (desk : Option Desk) (requests : List (Nat × Nat)) :
      requestFailed (gateReason e.mode) kind bin desk requests e = asked kind.num bin desk requests := by
    simp only [requestFailed, gateReason_num, asked, e, entered_mode]
  refine ⟨fun hm => ?_, fun hg => ?_⟩
  · have off (i : Item) {g : Gate} (hr : Reaches h (i :: rest) s) (h1 : gateStocking i = g) (h2 : gateHalted i = g)
        (h3 : gateFire i = g) : gate s i = g := gate_of_idle_columns hr.live hm h1 h2 h3
    refine ⟨fun r hr => ?_, fun b hr hd => ?_, fun b hr => ?_, fun b hr => ?_, fun b hh hc ha => ?_⟩
    · exact exec_gateRefused rfl hr rfl rfl rfl (off _ hr rfl rfl rfl) rfl
    · exact exec_gateDropped rfl hr hd rfl rfl (off _ hr rfl rfl rfl)
    · exact exec_gateDropped rfl hr rfl rfl rfl (off _ hr rfl rfl rfl)
    · exact exec_gateDropped rfl hr rfl rfl rfl (off _ hr rfl rfl rfl)
    · have hexec : exec (.claim p h b rest) s = .next (hear p h (.claim b :: rest) s) := rfl
      have he : (entered p h s).mode.working = false := by simpa using hm
      rw [hexec, hear_of_hears p hh, hc, ha, takeClaims_of_not_working he]
      rfl
  · have gateway {i : Item} (hi : i.fromGateway = true) : senderGood s.cfg h.sender i = true :=
      (senderGood_of_fromGateway hi _ _).trans hg
    refine ⟨fun b hr hid hbin hm => ?_, fun id hr hid hm => ?_, fun bin hr ho hm => ?_, fun hr hm => ?_, fun n hr ho hm => ?_,
      fun b hr ho hm => ?_, fun a b u ha hm hgw ho => ?_, fun hr ho hm => ?_⟩
    · exact exec_gateRefused rfl hr (gateway rfl) rfl (by simp [concerns, hid, e] at hbin ⊢; exact hbin)
        (gate_refused_of_stocking_or_fiery hm rfl rfl) (congrArg (refused, ·) (hasked .lend b.bin (some b.desk) [(b.id, b.ref)]))
    · have hgate : gate s (.cancel id) = .refused := gate_refused_of_stocking_or_fiery hm rfl rfl
      refine ⟨fun hnone ho => ?_, fun r v hr' hv => ?_⟩
      · refine exec_gateRefused rfl hr (gateway rfl) rfl (by simpa [concerns, hid] using .inr ho) hgate ?_
        simp only [gateNotice, cancelNames]
        rw [hnone]
        exact congrArg (refused, ·) (hasked .cancel 0 none [(id, 0)])
      · refine exec_gateRefused rfl hr (gateway rfl) rfl ?_ hgate ?_
        · have hsome : (tblGet (entered p h s).planner.pool id).isSome = true := by rw [hr']; rfl
          simp [concerns, hid, hsome]
        · simp only [gateNotice, cancelNames]
          rw [hr']
          dsimp only
          rw [hv]
          exact congrArg (refused, ·) (hasked .cancel v.bin (some r.desk) [(id, r.ref)])
    · have hgate : gate s (.writeOff bin) = .refused := by
        rcases hm with hm | ⟨hm, hend⟩
        · rw [gate_of_stocking hm]; rfl
        · rw [gate_of_fiery hm, if_neg (by simp [hend, gateFire])]; rfl
      exact exec_gateRefused rfl hr (gateway rfl) ho rfl hgate (congrArg (refused, ·) (hasked .writeOff bin none []))
    · have hgate : gate s .stop = .refused := by rw [gate_of_halted hm]; rfl
      exact exec_gateRefused rfl hr (gateway rfl) rfl rfl hgate (congrArg (refused, ·) (hasked .stop 0 none []))
    · exact exec_gateRefused rfl hr (gateway rfl) ho rfl (gate_refused_of_fiery hm rfl) rfl
    · exact exec_gateRefused rfl hr (gateway rfl) ho rfl (gate_refused_of_fiery hm rfl) rfl
    · have hs : senderGood u.cfg h.sender (.stock b) = true := (senderGood_of_fromGateway rfl _ _).trans hgw
      rw [takeItem_refused hs ho rfl (gate_refused_of_fiery hm rfl)]
      simp [gateNotice, Answers.note, ha]
    · have hgate : gate s .stockEnd = .refused := by
        rcases hm with hm | hm
        · rw [gate_of_halted hm]; rfl
        · exact gate_refused_of_fiery hm rfl
      exact exec_gateRefused rfl hr (gateway rfl) ho rfl hgate rfl

end Sys2Proof.Proofs
end

