-- ==== Sys2Proof/Proofs/FireUnit.lean ====
section
/-! PROOFS. The fire unit: what an alarm, a restore, the fire inputs and the owned shutter do (R128 to R131, R140 to R152). -/

namespace Sys2Proof.Machine
open Sys2Proof Safety

/-! ## Frames withdrawn by their owner (R176) -/

theorem Owner.isOffer_eq (l : Lane) (o : Owner) : o.isOffer l = (o == .offer l) := by
  rw [Bool.eq_iff_iff, beq_iff_eq]
  cases o <;> simp [Owner.isOffer, @eq_comm _ l]

theorem Owner.isAlarm_eq (c : Compartment) (o : Owner) : o.isAlarm c = (o == .alarm c) := by
  rw [Bool.eq_iff_iff, beq_iff_eq]
  cases o <;> simp [Owner.isAlarm, @eq_comm _ c]

theorem Owner.isClosing_eq (o : Owner) : o.isClosing = (o == .closing) := by
  cases o <;> simp [Owner.isClosing]

theorem Owner.isCall_eq (c : Call) (o : Owner) : o.isCall c = (o == .bid c || o == .claim c) := by
  rw [Bool.eq_iff_iff]
  cases o <;> simp [Owner.isCall, @eq_comm _ c]

/-- A state with its shutter written anew is itself where the shutter is the one it has. -/
theorem with_shutter_self {u : State} {x : Option Shutter} (h : u.fire.shutter = x) :
    { u with fire := { u.fire with shutter := x } } = u := by subst h; rfl

/-! ## An alarm raised (R131, R140) -/

/-- A compartment newly alarmed: a bordering shutter begins to clear or stays, then mode and routes follow. -/
theorem alarmRaised_eq (c : Compartment) (u : State) : alarmRaised c u = retestRoute (deriveMode { u with fire := { u.fire with
    shutter := u.fire.shutter.map fun x : Shutter =>
      if bordersShutter u.cfg c = false then x
      else if x.state = ShutterState.isOpen ∨ x.state = ShutterState.opening ∨ x.state = ShutterState.faultDrive .opening then
        { x with state := .clearing, closeLimit := some ⟨u.clock, u.cfg.closeLimit * 1000⟩, driveLimit := none
                 foundShut := false }
      else { x with foundShut := false } } }) := by
  unfold alarmRaised
  refine congrArg (fun v => retestRoute (deriveMode v)) ?_
  cases hs : u.fire.shutter with
  | none => simp [shutterProcedure, hs, with_shutter_self hs]
  | some x =>
    cases hb : bordersShutter u.cfg c with
    | false => simp [with_shutter_self hs]
    | true =>
      cases hx : x.state with
      | faultDrive d => cases d <;> simp [shutterProcedure, hs, hx, startClearing, setShutter, State.setFire, secondsTimer]
      | isOpen | clearing | closingDrive | shut | opening =>
        simp [shutterProcedure, hs, hx, startClearing, setShutter, State.setFire, secondsTimer]

/-! ## A restore (R149, R150, R152) -/

theorem bordersShutter_own (cfg : StationConfig) : bordersShutter cfg (ownComp cfg) = true := by simp [bordersShutter]

/-- The effects of a restore that clears a compartment, the own one or another. -/
theorem restoreEffects_eq (c : Compartment) (s : State) : restoreEffects c s =
    if c = ownComp s.cfg then reraise (reopen (spineResumes (retestRoute (unpark (deriveMode (s.setSafeMade false))))))
    else if bordersShutter s.cfg c = true then reopen (spineResumes (retestRoute (deriveMode s)))
    else spineResumes (retestRoute (deriveMode s)) := by
  have cfg {k : Scope} {t : State} (h : Change k s t) : t.cfg = s.cfg := h.cfg
  unfold restoreEffects
  by_cases hc : c = ownComp s.cfg
  · have hcfg := cfg (((Change.refl (k := .event)).safeMade false).deriveMode.unpark.retestRoute.spineResumes)
    have hb : bordersShutter s.cfg c = true := hc ▸ bordersShutter_own s.cfg
    have hown : (c == ownComp s.cfg) = true := by simpa using hc
    simp only [hown, if_true, hcfg, hb, if_pos hc]
  · have hcfg := cfg ((Change.refl (k := .event)).deriveMode.retestRoute.spineResumes)
    have hown : (c == ownComp s.cfg) = false := by simpa using hc
    simp only [hown, Bool.false_eq_true, if_false, hcfg, if_neg hc]

/-- The inputs still active are raised anew one after another. -/
theorem reraise_eq (u : State) :
    let again := fun (active : Bool) (i : FireInput) (v : State) => if active = true then localCause i v else v
    reraise u = again u.fire.callPoint.active .callPoint (again u.fire.heat.active .heat (again u.fire.smoke.active .smoke u)) := by
  intro again
  unfold reraise fireInputs
  cases hs : u.fire.smoke.active <;> cases hh : u.fire.heat.active <;> cases hc : u.fire.callPoint.active <;>
    simp [List.filter, Fire.filter, hs, hh, hc, again]

/-! ## Local causes and the fire inputs (R129, R130) -/

theorem queueAlarm_eq (c : Compartment) (epoch : Nat) (i : FireInput) (u : State) :
    queueAlarm c epoch i u = queueFrame (frameOf (.alarm ⟨c, epoch, i.cause, u.cfg.station⟩) 63 (.alarm c)) u := rfl

/-- A local cause that stands already changes nothing. -/
theorem localCause_of_held {i : FireInput} {u : State} (ha : (u.fire.alarms.get (ownComp u.cfg)).alarmed = true)
    (hi : (u.fire.alarms.get (ownComp u.cfg)).has i = true) : localCause i u = u := by
  simp only [localCause, ha, hi, if_true]

/-- A further cause of an alarmed compartment joins its record and is told. -/
theorem localCause_of_alarmed {i : FireInput} {u : State} (ha : (u.fire.alarms.get (ownComp u.cfg)).alarmed = true)
    (hi : (u.fire.alarms.get (ownComp u.cfg)).has i = false) :
    localCause i u = queueAlarm (ownComp u.cfg) (u.fire.alarms.get (ownComp u.cfg)).epoch i
      (setAlarm (ownComp u.cfg) ((u.fire.alarms.get (ownComp u.cfg)).add i) u) := by
  simp only [localCause, ha, hi, if_true, Bool.false_eq_true, if_false]

/-- The first cause alarms the compartment with the next epoch. -/
theorem localCause_of_clear {i : FireInput} {u : State} (ha : (u.fire.alarms.get (ownComp u.cfg)).alarmed = false) :
    localCause i u =
      let r := u.fire.alarms.get (ownComp u.cfg)
      let epoch := r.last % 255 + 1
      alarmRaised (ownComp u.cfg) (queueAlarm (ownComp u.cfg) epoch i
        (setAlarm (ownComp u.cfg) (AlarmRec.add { r with alarmed := true, epoch := epoch, last := epoch, stamp := some u.clock } i)
          u)) := by
  simp only [localCause, ha, Bool.false_eq_true, if_false, nextEpoch]

/-! ## The owned shutter (R141 to R147) -/

/-- A CLOSING not on the line goes, and one on the line is no longer the shutter's. -/
theorem dropClosing_eq (u : State) : dropClosing u = { u with line := { u.line with
    queue := (u.line.queue.filter fun f => !(f.onLine.isNone && f.owner == .closing)).map fun f =>
      if f.owner = .closing then { f with owner := .plain } else f } } := by
  simp only [dropClosing, disownClosing, withdraw, TxFrame.waits, Owner.isClosing_eq, beq_iff_eq, LineUnit.setQueue, State.setLine]

theorem outExternal_of_none {u : State} {l : Lane} (h : u.spine.out l = none) : outExternal u l = none := by
  simp [outExternal, h]

theorem outExternal_of_some {u : State} {l : Lane} {x : Handoff} (h : u.spine.out l = some x) (hp : x.peer ≠ u.cfg.station) :
    outExternal u l = some x := by
  simp [outExternal, h, Handoff.external, hp]

theorem inExternal_of_none {u : State} {l : Lane} (h : u.spine.incoming l = none) : inExternal u l = none := by
  simp [inExternal, h]

theorem inExternal_of_some {u : State} {l : Lane} {x : Handoff} (h : u.spine.incoming l = some x) (hp : x.peer ≠ u.cfg.station) :
    inExternal u l = some x := by
  simp [inExternal, h, Handoff.external, hp]

/-- FAULT BIN_CAUGHT and the bin's location, in one equation. -/
theorem binCaught_eq (r : TravelRecord) (place : PlaceCode) (u : State) : binCaught r place u =
    faultNotice { faultBody .binCaught with
      bin := r.bin, second := r.home, code := place.num, place := u.cfg.segment, hop := r.hop }
      { u with dir := if r.home = u.cfg.station then u.dir.locate r.bin (.caught u.cfg.segment) else u.dir } := by
  unfold binCaught
  by_cases h : r.home = u.cfg.station
  · simp only [if_pos h]
    rfl
  · simp only [if_neg h]

theorem catchDown_of_none {u : State} (h : u.spine.outDown = none) : catchDown u = u := by
  simp [catchDown, outExternal_of_none (l := .down) h]

theorem catchUp_of_none {u : State} (h : u.spine.inUp = none) : catchUp u = u := by
  simp [catchUp, inExternal_of_none (l := .up) h]

theorem catchDown_of_holding {u : State} {y : Handoff} {r : TravelRecord} (h : u.spine.outDown = some y)
    (hp : y.peer ≠ u.cfg.station) (hr : u.spine.down = .holding r) : catchDown u = binCaught r .down { u with
      spine := { u.spine with down := .blocked none (some (y.bin, y.peer)), outDown := none, driveDown := false } } := by
  simp only [catchDown, outExternal_of_some (l := .down) h hp, hr, PlaceState.record?]
  rfl

theorem catchUp_of_record {u : State} {z : Handoff} {r : TravelRecord} (h : u.spine.inUp = some z)
    (hp : z.peer ≠ u.cfg.station) (hr : z.record = some r) : catchUp u = binCaught r .up { u with
      spine := { u.spine with up := .blocked none none, inUp := none, driveUp := false } } := by
  simp only [catchUp, inExternal_of_some (l := .up) h hp, hr]
  rfl

/-- Neither compartment beside the shutter is alarmed. -/
theorem adjacentClear_iff (u : State) :
    adjacentClear u = true ↔ ∀ c, bordersShutter u.cfg c = true → (u.fire.alarms.get c).alarmed = false := by
  have all (c : Compartment) : c ∈ compartmentsDown := by revert c; decide
  simp only [adjacentClear, List.all_eq_true, Bool.not_eq_true', Bool.and_eq_false_imp, Fire.alarmed]
  exact ⟨fun h c => h c (all c), fun h c _ => h c⟩

end Sys2Proof.Machine

namespace Sys2Proof.Proofs
open Sys2Proof Sys2Proof.Machine Sys2Proof.Safety

/-- Settles O32: the record of the compartment decides. -/
theorem alarmHeard : Obligations.AlarmHeard := by
  intro p h b rest s hr e r withdrawn alarms
  have hgate : gate s (.alarm b) = .admitted := gate_of_columns hr.live (fun _ => rfl) rfl rfl rfl
  have hwithdrawn : withdraw (Owner.isAlarm b.comp) e = withdrawn := by
    simp only [withdraw, TxFrame.waits, Owner.isAlarm_eq, LineUnit.setQueue, State.setLine, withdrawn]
  have hfire : e.fire = s.fire := entered_fire p h s
  refine ⟨fun h0 => ?_, fun h0 ha => ?_, fun h0 ha => ?_⟩
  · have heard : hearAlarm b e = e := if_pos h0
    exact exec_admitted rfl hr rfl rfl rfl hgate (by rw [applyItem, heard, if_pos h0])
  · have heard : hearAlarm b e = setAlarm b.comp { r with epoch := b.epoch, last := b.epoch } withdrawn := by
      simp only [hearAlarm, if_neg h0, hfire, hwithdrawn]
      exact if_pos ha
    refine exec_admitted rfl hr rfl rfl rfl hgate ?_
    rw [applyItem, heard, if_neg h0]
    simp only [setAlarm, State.setFire, withdrawn, hfire, alarms]
  · have heard : hearAlarm b e = alarmRaised b.comp
        (setAlarm b.comp { r with alarmed := true, epoch := b.epoch, last := b.epoch, stamp := some s.clock } withdrawn) := by
      simp only [hearAlarm, if_neg h0, hfire, hwithdrawn]
      rw [if_neg (by simpa using ha), show withdrawn.clock = s.clock from entered_clock p h s]
    refine exec_admitted rfl hr rfl rfl rfl hgate ?_
    rw [applyItem, heard, if_neg h0, alarmRaised_eq]
    simp only [setAlarm, State.setFire, withdrawn, hfire, alarms, show e.clock = s.clock from entered_clock p h s,
      show e.cfg = s.cfg from entered_cfg p h s]

/-- Settles O34: the epoch of the record decides whether the restore clears, and the compartment whose effects follow. -/
theorem restoreHeard : Obligations.RestoreHeard := by
  refine ⟨fun u => ⟨fun hn => ?_, fun hp hs => ?_, fun hp hs => ?_, reraise_eq u, fun c => ⟨fun x hx hf hb => ?_, fun hx => ?_⟩⟩, ?_⟩
  · unfold unpark
    split
    · next hp => exact absurd hp hn
    · rfl
  · simp [unpark, hp, hs, craneTo, Crane.setState, State.setCrane]
  · simp [unpark, hp, hs, craneTo, Crane.setState, State.setCrane]
  · simp [endFoundShut, hx, hf, hb]
  · unfold endFoundShut
    split
    · next x hsome => rcases hx x hsome with hf | hb <;> simp [*]
    · rfl
  · intro p h b rest s hr hs e r cleared resumed
    have hgate : gate s (.restore b) = .admitted := gate_of_columns hr.live (fun _ => rfl) rfl rfl rfl
    have hsender : senderGood s.cfg h.sender (.restore b) = true := by simpa [senderGood] using hs
    have hfire : e.fire = s.fire := entered_fire p h s
    have hcfg : e.cfg = s.cfg := entered_cfg p h s
    have answer {stale : Bool} {v : State} (hv : hearRestore b e = (stale, v)) :
        exec (.restore p h b rest) s = .next (follow s h rest (Answers.none.note (if stale then .refused else .taken)) v) :=
      exec_admitted rfl hr hsender rfl rfl hgate (by rw [applyItem, hv])
    have hcleared : withdraw (Owner.isAlarm b.comp) (setAlarm b.comp r.cleared e) = cleared := by
      simp only [withdraw, TxFrame.waits, Owner.isAlarm_eq, LineUnit.setQueue, State.setLine, cleared, setAlarm, State.setFire,
        hfire, AlarmRec.cleared, r]
    have restored (ha : r.alarmed = true) (he : r.epoch = b.epoch) : hearRestore b e = (false, restoreEffects b.comp cleared) := by
      simp only [hearRestore, hfire]
      rw [if_pos ha, if_pos he, hcleared]
    have hcc : cleared.cfg = s.cfg := hcfg
    refine ⟨fun ha he ho hb => ?_, fun ha he ho hb => ?_, fun ha he ho => ?_, fun ha he => ?_, fun ha => ?_⟩
    · have heffects : restoreEffects b.comp cleared = resumed (deriveMode cleared) := by
        rw [restoreEffects_eq, hcc, if_neg ho, if_neg (by simp [hb])]
        rfl
      rw [answer (restored ha he), heffects]
      rfl
    · have heffects : restoreEffects b.comp cleared = reopen (resumed (deriveMode cleared)) := by
        rw [restoreEffects_eq, hcc, if_neg ho, if_pos hb]
        rfl
      rw [answer (restored ha he), heffects]
      rfl
    · have heffects := (restoreEffects_eq b.comp cleared).trans (if_pos (ho.trans (congrArg ownComp hcc.symm)))
      rw [answer (restored ha he), heffects]
      rfl
    · have stale : hearRestore b e = (true, endFoundShut b.comp e) := by
        simp only [hearRestore, hfire]
        rw [if_pos ha, if_neg he]
      rw [answer stale]
      rfl
    · have quiet : hearRestore b e = (false, endFoundShut b.comp e) := by
        simp only [hearRestore, hfire]
        exact if_neg (by simpa using ha)
      rw [answer quiet]
      rfl

/-- Settles O59: a cause is told with its epoch, and the filter decides when an input counts. -/
theorem fireInputsFiltered : Obligations.FireInputsFiltered := by
  refine ⟨alarmRaised_eq, fun i u => ?_, fun p i s hr => ?_⟩
  · intro c r epoch cause held raised
    have hheld : held = r.has i := by cases i <;> rfl
    have hraised (x : AlarmRec) : raised x = queueAlarm c epoch i (setAlarm c (x.add i) u) := by cases i <;> rfl
    refine ⟨fun ha hh => localCause_of_held ha (hheld ▸ hh), fun ha hh => ?_, fun ha => ?_⟩
    · rw [hraised, localCause_of_alarmed ha (hheld ▸ hh), show epoch = r.epoch from if_pos ha]
    · rw [hraised, localCause_of_clear ha, show epoch = r.last % 255 + 1 from if_neg (by simp [ha])]
  · intro e ended x
    have hfilter : e.fire.filter i = x := rfl
    have hended {c : Instr} {f : State → State} (hf : inputEffect c = some f) (hp : c.pins = p) : exec c s = ended (f e) := by
      subst hp
      exact exec_inputEffect hf hr
    refine ⟨fun ha ht => ?_, fun h => ?_, ?_, fun t ht hd => ?_⟩
    · rw [hended (f := inputReadsActive i) rfl rfl]
      simp only [inputReadsActive, hfilter, ha, ht, Option.isSome_none, Bool.or_self, Bool.false_eq_true, if_false]
      rfl
    · rw [hended (f := inputReadsActive i) rfl rfl]
      have hread : (x.active || x.timer.isSome) = true := by simpa using h
      simp only [inputReadsActive, hfilter, hread, if_true]
    · exact hended (f := inputReadsInactive i) rfl rfl
    · have hexec : exec (.inputFilterExpiry p i) s = ended (filterExpires i e) := by
        rw [hended (f := expiry (fun s => (s.fire.filter i).timer) (filterExpires i)) rfl rfl, expiry_of_due (s := e) ht hd]
      intro counted c r alarm
      rw [hexec]
      have halarms : counted.fire.alarms = s.fire.alarms := by cases i <;> rfl
      have hcfg : counted.cfg = s.cfg := by cases i <;> rfl
      have hclock : counted.clock = s.clock := by cases i <;> rfl
      have hlive (hl : s.live = true) : ended (filterExpires i e) = .next (settle (localCause i counted)) := by
        have hcause : filterExpires i e = localCause i counted := by
          have hidle := mode_idle_of_live hl
          unfold filterExpires
          split
          · next hm => rw [show s.mode = .start from hm] at hidle; cases hidle
          · next hm => rw [show s.mode = .unconfigured from hm] at hidle; cases hidle
          · rfl
        simp only [ended, hl, if_true, hcause]
      have hqueue (epoch : Nat) (a : AlarmRec) : queueAlarm c epoch i (setAlarm c a counted) = alarm epoch (setAlarm c a counted) := by
        rw [queueAlarm_eq, show (setAlarm c a counted).cfg = s.cfg from hcfg]
      have hr : counted.fire.alarms.get (ownComp counted.cfg) = r := by rw [halarms, hcfg]
      refine ⟨fun hm => ?_, fun hm => ?_, fun hl ha => ?_, fun hl ha hi => ?_, fun hl ha hi => ?_⟩
      · have hdead : s.live = false := by simp [State.live, hm, Mode.idle]
        have hf : filterExpires i e = setFilter i { timer := none, active := true, held := true } e := by
          simp only [filterExpires, show e.mode = .start from hm]
        simp only [ended, hdead, Bool.false_eq_true, if_false, hf]
      · have hdead : s.live = false := by simp [State.live, hm, Mode.idle]
        have hf : filterExpires i e = counted := by simp only [filterExpires, show e.mode = .unconfigured from hm, counted, hfilter]
        simp only [ended, hdead, Bool.false_eq_true, if_false, hf]
      · rw [hlive hl, localCause_of_clear (by rw [hr]; exact ha), hr, hcfg, hclock]
        simp only [c, hqueue]
      · rw [hlive hl, localCause_of_alarmed (by rw [hr]; exact ha) (by rw [hr]; exact hi), hr, hcfg, hqueue]
      · rw [hlive hl, localCause_of_held (by rw [hr]; exact ha) (by rw [hr]; exact hi)]

/-- Settles O60: each event of the shutter in each of its states. -/
theorem shutterEvents : Obligations.ShutterEvents := by
  refine ⟨fun p x s hl hx => ?_, fun x u hx => ?_⟩
  · intro e shut due announce
    have hxe : e.fire.shutter = some x := hx
    have acts {c : Instr} {f : State → State} {v : State} (hf : effect c = some f) (hp : c.pins = p) (hv : f e = v) :
        exec c s = .next (settle v) := by
      subst hp
      rw [exec_effect_of_live hf hl, ← hv]
      rfl
    have expires {c : Instr} {f : State → State} {g : Shutter → Option Timer} {t : Timer} {v : State} (ht : g x = some t) (hd : due t)
        (hf : effect c = some (expiry (shutterTimer g) f)) (hp : c.pins = p) (hv : f e = v) : exec c s = .next (settle v) :=
      acts hf hp ((expiry_of_due (timer := shutterTimer g) (s := e) (by simp only [shutterTimer, hxe]; exact ht) hd).trans hv)
    refine ⟨exec_effect_of_live (f := fun s => s) rfl hl, fun t ht hd => ?_, fun t ht hd hs => ?_, fun t ht hd hs => ?_,
      fun t d ht hd hs => ?_, fun hs => ?_, fun hs => ?_, fun hs => ?_, fun hs => ?_⟩
    · refine expires ht hd rfl rfl ?_
      simp only [closingRetryExpires, hxe]
      rfl
    · intro forced caught
      have hforced : startClosing { x with closeLimit := none } (dropClosing e) = forced := by rw [dropClosing_eq]; rfl
      have close : closeLimitExpires e = catchUp (catchDown forced) := by
        rw [closeLimitExpires, hxe]
        exact (if_pos hs).trans (congrArg (fun v => catchUp (catchDown v)) hforced)
      have hcaught (r : TravelRecord) (place : PlaceCode) {u : State} (hcfg : u.cfg = s.cfg) :
          binCaught r place u = caught r place.num u := by
        simp only [binCaught_eq, caught, hcfg]
      have step {v : State} (hv : catchUp (catchDown forced) = v) : exec (.closeLimitExpiry p) s = .next (settle v) :=
        expires (f := closeLimitExpires) ht hd rfl rfl (close.trans hv)
      refine ⟨fun hout hin => step ?_, fun y r hout hp hr hin => step ?_, fun z r hout hin hp hr => step ?_,
        fun y r z q hout hp hr hin hq hrec => step ?_⟩
      · rw [catchDown_of_none (u := forced) hout, catchUp_of_none (u := forced) hin]
      · have hdown := (catchDown_of_holding (u := forced) hout hp hr).trans (hcaught r .down rfl)
        exact (congrArg catchUp hdown).trans (catchUp_of_none hin)
      · rw [catchDown_of_none (u := forced) hout]
        exact (catchUp_of_record (u := forced) hin hp hr).trans (hcaught r .up rfl)
      · have hdown := (catchDown_of_holding (u := forced) hout hp hr).trans (hcaught r .down rfl)
        refine (congrArg catchUp hdown).trans ((catchUp_of_record ?_ ?_ hrec).trans (hcaught q .up rfl))
        · exact hin
        · exact hq
    · refine expires (f := closeLimitExpires) ht hd rfl rfl ?_
      rw [closeLimitExpires, hxe]
      exact if_neg hs
    · refine expires (f := driveLimitExpires) ht hd rfl rfl ?_
      cases d <;> simp only [driveLimitExpires, hxe, hs] <;> rfl
    · refine acts (f := shutterClosed) rfl rfl ?_
      rcases hs with hs | hs <;> simp only [shutterClosed, hxe, hs] <;> rfl
    · refine acts (f := shutterOpened) rfl rfl ?_
      rcases hs with hs | hs <;> simp only [shutterOpened, hxe, hs] <;> rfl
    · refine acts (f := shutterClosed) rfl rfl ?_
      rcases hs with hs | hs | hs | hs | hs <;> simp only [shutterClosed, hxe, hs]
    · refine acts (f := shutterOpened) rfl rfl ?_
      rcases hs with hs | hs | hs | hs | hs <;> simp only [shutterOpened, hxe, hs]
  · intro clear
    have hclear : adjacentClear u = true ↔ clear := adjacentClear_iff u
    refine ⟨fun hn => ?_, fun hc hs => ?_, fun hc hs => ?_, fun hs => ?_⟩
    · simp only [reopen, hx, if_neg (mt hclear.mp hn)]
    · simp only [reopen, hx, if_pos (hclear.mpr hc), hs, dropClosing_eq]
      rfl
    · rcases hs with hs | hs | hs <;> simp only [reopen, hx, if_pos (hclear.mpr hc), hs] <;> rfl
    · rcases hs with hs | hs | hs <;> simp only [reopen, hx, hs, ite_self]

end Sys2Proof.Proofs
end

