-- ==== Sys2Proof/Proofs/Start.lean ====
section
/-! PROOFS. Reset, the image and its clamping, and the entry to STOCKING (R184 to R189). -/

namespace Sys2Proof.Machine
open Sys2Proof Safety

/-! ## Reset (R127) -/

theorem placeAtReset_eq (x : PlaceSensors) :
    placeAtReset x = if x.entry = true ∨ x.position = true then .blocked none none else .empty := by
  unfold placeAtReset PlaceSensors.readsEmpty
  cases x.entry <;> cases x.position <;> rfl

/-! ## Clamping (R187) -/

theorem hold_bounds {lo hi : Nat} (h : lo ≤ hi) (x : Nat) : lo ≤ hold lo hi x ∧ hold lo hi x ≤ hi := by
  unfold Machine.hold
  omega

/-- A value held once is held. -/
theorem hold_hold (lo hi x : Nat) : hold lo hi (hold lo hi x) = hold lo hi x := by
  unfold Machine.hold
  omega

theorem clampNeighbour_clampNeighbour (x : Nat) : clampNeighbour (clampNeighbour x) = clampNeighbour x := by
  unfold clampNeighbour
  split <;> simp [*]

theorem clampGrade_clampGrade (g : Grade) : clampGrade (clampGrade g) = clampGrade g := by
  simp only [clampGrade, hold_hold]

theorem clampConfig_clampConfig (c : StationConfig) : clampConfig (clampConfig c) = clampConfig c := by
  have hmap : (c.compMap.map fun e => e.map (hold 0 47)).map (fun e => e.map (hold 0 47))
      = c.compMap.map fun e => e.map (hold 0 47) := by
    ext i hi : 1
    cases h : c.compMap[i] <;> simp [h, hold_hold]
  simp only [clampConfig, hold_hold, clampNeighbour_clampNeighbour, clampGrade_clampGrade, hmap]

/-! ## The image check (R162, R184) -/

/-- The bits of octets, most significant first, counted through. -/
theorem flatMap_octets {α : Type} (g : Nat → Nat → α) (n : Nat) :
    (List.range n).flatMap (fun a => (List.range 8).map (g a)) = (List.range (8 * n)).map fun i => g (i / 8) (i % 8) := by
  induction n with
  | zero => rfl
  | succ n ih =>
    rw [List.range_succ (n := n), List.flatMap_append, ih, Nat.mul_add_one, List.range_add, List.map_append, List.map_map]
    congr 1
    simp only [List.flatMap_cons, List.flatMap_nil, List.append_nil]
    refine List.map_congr_left fun i hi => ?_
    have hi : i < 8 := List.mem_range.mp hi
    have h1 : (8 * n + i) / 8 = n := by omega
    have h2 : (8 * n + i) % 8 = i := by omega
    simp [h1, h2]

theorem imageBits_eq (image : List Byte) : (imageBody image).flatMap octetBits =
    (List.range 1008).map fun i => (image.getD (i / 8) 0xFF).getLsbD (7 - i % 8) := by
  have h := flatMap_octets (fun n i => (image.getD n 0xFF).getLsbD (7 - i)) 126
  rw [← h, imageBody, List.flatMap_map]
  rfl

/-- One bit into the CRC, on numbers. -/
theorem crcBit_toNat (c : BitVec 16) (b : Bool) : (crcBit c b).toNat =
    if c.toNat / 32768 = b.toNat then c.toNat * 2 % 65536 else (c.toNat * 2 % 65536) ^^^ 0x1021 := by
  have hmsb : c.msb = decide (c.toNat / 32768 = 1) := by
    have := c.isLt
    rw [BitVec.msb_eq_decide]
    simp only [decide_eq_decide]
    omega
  have hshift : (c <<< 1).toNat = c.toNat * 2 % 65536 := by simp [Nat.shiftLeft_eq]
  have hrange : c.toNat / 32768 = 0 ∨ c.toNat / 32768 = 1 := by
    have := c.isLt
    omega
  unfold crcBit
  rw [hmsb]
  rcases hrange with h | h <;> cases b <;> simp [h, hshift]

theorem getLsbD_toNat (x : Byte) (i : Nat) : (x.getLsbD i).toNat = x.toNat / 2 ^ i % 2 := by
  rw [BitVec.getLsbD, Nat.testBit_eq_decide_div_mod_eq]
  rcases Nat.mod_two_eq_zero_or_one (x.toNat / 2 ^ i) with h | h <;> simp [h]

/-- The check of an image, on numbers: the CRC of its first 126 octets. -/
theorem imageGood_iff (image : List Byte) :
    let bit := fun i : Nat => (image.getD (i / 8) 0xFF).toNat / 2 ^ (7 - i % 8) % 2
    imageGood image = true ↔ ((List.range 1008).foldl (fun c i =>
      let c2 := c * 2 % 65536
      if c / 32768 = bit i then c2 else c2 ^^^ 0x1021) 0xC3A5) = imageCrc image := by
  intro bit
  have hfold : (crcOctets (imageBody image)).toNat = (List.range 1008).foldl (fun c i =>
      let c2 := c * 2 % 65536
      if c / 32768 = bit i then c2 else c2 ^^^ 0x1021) 0xC3A5 := by
    rw [crcOctets, imageBits_eq, crcBits, List.foldl_map]
    refine (List.foldl_hom BitVec.toNat fun c i => ?_).symm
    rw [crcBit_toNat, getLsbD_toNat]
  rw [imageGood, beq_iff_eq, hfold]

theorem compMap_rawConfig (image : List Byte) (i : Compartment) :
    (rawConfig image).compMap.get i = if octet image (4 + i.val) = 255 then none else some (octet image (4 + i.val)) := by
  simp [rawConfig, Vector.get]
  rfl

theorem restrictedDesks_rawConfig (image : List Byte) : (rawConfig image).restrictedDesks =
    ([57, 58, 59, 60, 61, 62, 63, 64].map (octet image)).filter fun d => decide (d ≠ 255) :=
  List.filter_congr fun d _ => by rw [Bool.eq_iff_iff, bne_iff_ne, decide_eq_true_iff]

/-! ## Forbidden combinations (R186) -/

theorem rises_iff_pairwise (l : List Nat) : rises l = true ↔ l.Pairwise (· < ·) := by
  induction l with
  | nil => simp [rises]
  | cons a l ih =>
    cases l with
    | nil => simp [rises]
    | cons b l =>
      have first : (∀ x ∈ b :: l, a < x) ∧ (b :: l).Pairwise (· < ·) ↔ a < b ∧ (b :: l).Pairwise (· < ·) :=
        ⟨fun ⟨h, hp⟩ => ⟨h b List.mem_cons_self, hp⟩, fun ⟨h, hp⟩ => ⟨fun x hx => (List.mem_cons.mp hx).elim (fun e => e ▸ h)
          fun hx => Nat.lt_trans h (List.rel_of_pairwise_cons hp hx), hp⟩⟩
      rw [List.pairwise_cons, first, ← ih, rises, Bool.and_eq_true, decide_eq_true_iff]

theorem getElem_compMap (c : StationConfig) {i : Nat} (hi : i < c.compMap.toList.length) :
    c.compMap.toList[i] = c.compMap.get ⟨i, by simpa using hi⟩ := by
  simp [Vector.get]

/-- The map rises where no used entry is at or below one before it. -/
theorem rises_usedEntries_iff (c : StationConfig) : rises (usedEntries c) = true ↔
    ∀ i j : Compartment, i < j → ∀ lo hi, c.compMap.get i = some lo → c.compMap.get j = some hi → lo < hi := by
  rw [rises_iff_pairwise, usedEntries, List.pairwise_filterMap, List.pairwise_iff_getElem]
  refine ⟨fun h i j hij lo hi hlo hhi => ?_, fun h i j hi hj hij lo hlo hh hhh => ?_⟩
  · exact h i j (by simp) (by simp) hij lo ((getElem_compMap c _).trans hlo) hi ((getElem_compMap c _).trans hhi)
  · rw [getElem_compMap c] at hlo hhh
    exact h ⟨i, by simpa using hi⟩ ⟨j, by simpa using hj⟩ hij lo hh hlo hhh

theorem mem_usedEntries (c : StationConfig) (lo : Nat) : lo ∈ usedEntries c ↔ ∃ i, c.compMap.get i = some lo := by
  rw [usedEntries, List.mem_filterMap]
  constructor
  · rintro ⟨e, he, hlo⟩
    obtain ⟨i, hi, rfl⟩ := List.mem_iff_getElem.mp he
    exact ⟨⟨i, by simpa using hi⟩, (getElem_compMap c hi).symm.trans hlo⟩
  · rintro ⟨i, hi⟩
    have hlt : i.val < c.compMap.toList.length := by simp
    exact ⟨some lo, List.mem_iff_getElem.mpr ⟨i.val, hlt, (getElem_compMap c hlt).trans hi⟩, rfl⟩

theorem forbidden_iff (c : StationConfig) : forbidden c = true ↔ c.up = c.station ∨ c.down = c.station
    ∨ (∃ i j lo hi, i < j ∧ c.compMap.get i = some lo ∧ c.compMap.get j = some hi ∧ hi ≤ lo)
    ∨ (∀ i lo, c.compMap.get i = some lo → c.segment < lo) ∨ (∃ d, d ∈ c.restrictedDesks ∧ 7 < d)
    ∨ c.firePanel = c.gateway1 ∨ c.firePanel = c.gateway2 := by
  have hfalls : (!rises (usedEntries c)) = true ↔
      ∃ i j lo hi, i < j ∧ c.compMap.get i = some lo ∧ c.compMap.get j = some hi ∧ hi ≤ lo := by
    rw [Bool.not_eq_true', ← Bool.not_eq_true, rises_usedEntries_iff]
    simp only [Classical.not_forall, Nat.not_lt, exists_prop]
    exact ⟨fun ⟨i, j, hij, lo, hi, hlo, hhi, h⟩ => ⟨i, j, lo, hi, hij, hlo, hhi, h⟩,
      fun ⟨i, j, lo, hi, hij, hlo, hhi, h⟩ => ⟨i, j, hij, lo, hi, hlo, hhi, h⟩⟩
  have hbelow : (!(usedEntries c).any fun lo => decide (lo ≤ c.segment)) = true ↔
      ∀ i lo, c.compMap.get i = some lo → c.segment < lo := by
    simp only [Bool.not_eq_true', List.any_eq_false, mem_usedEntries, decide_eq_true_eq, Nat.not_le]
    exact ⟨fun h i lo hlo => h lo ⟨i, hlo⟩, fun h lo ⟨i, hlo⟩ => h i lo hlo⟩
  have hdesks : (c.restrictedDesks.any fun d => decide (7 < d)) = true ↔ ∃ d, d ∈ c.restrictedDesks ∧ 7 < d := by
    simp
  unfold forbidden
  simp only [Bool.or_eq_true, hfalls, hbelow, hdesks, beq_iff_eq, or_assoc]

/-! ## The causes held during START (R151) -/

theorem applyHeld_eq (u : State) :
    let smoke := fun v : State => if u.fire.smoke.held = true then
      localCause .smoke { v with fire := { v.fire with smoke := { v.fire.smoke with held := false } } } else v
    let heat := fun v : State => if u.fire.heat.held = true then
      localCause .heat { v with fire := { v.fire with heat := { v.fire.heat with held := false } } } else v
    let callPoint := fun v : State => if u.fire.callPoint.held = true then
      localCause .callPoint { v with fire := { v.fire with callPoint := { v.fire.callPoint with held := false } } } else v
    applyHeld u = callPoint (heat (smoke u)) := by
  intro smoke heat callPoint
  unfold applyHeld fireInputs
  cases hs : u.fire.smoke.held <;> cases hh : u.fire.heat.held <;> cases hc : u.fire.callPoint.held <;>
    simp only [List.filter, Fire.filter, hs, hh, hc, smoke, heat, callPoint] <;> rfl

/-! ## The entry to STOCKING (R189) -/

/-- A crane that starts loaded is FAULTED, its load unknown (R63). -/
theorem startCrane_eq (s : State) :
    let u := { s with crane := { s.crane with
      pos := ⟨hold 0 s.cfg.nc s.pins.encCol, hold 1 s.cfg.nl s.pins.encLevel⟩
      state := if s.pins.load then .faulted else s.crane.state } }
    startCrane s = if s.pins.load then faultNotice (faultBody .craneLoadUnknown) u else u := by
  change (if s.pins.load then loadFault 0 (readEncoders s) else readEncoders s) = _
  cases s.pins.load <;> rfl

theorem enterStocking_eq (s : State) :
    let u := { s with
      mode := .stocking
      dir := { s.dir with counts := ⟨2 * s.cfg.nc * s.cfg.nl, 0, 0, 0⟩ }
      crane := { s.crane with
        pos := ⟨hold 0 s.cfg.nc s.pins.encCol, hold 1 s.cfg.nl s.pins.encLevel⟩
        state := if s.pins.load then .faulted else s.crane.state }
      fire := { s.fire with shutter := startShutter s.cfg s.pins } }
    enterStocking s = deriveMode (applyHeld (if s.pins.load then faultNotice (faultBody .craneLoadUnknown) u else u)) := by
  unfold enterStocking
  simp only [startCrane_eq]
  cases h : s.pins.load <;> simp [h] <;> rfl

end Sys2Proof.Machine

namespace Sys2Proof.Proofs
open Sys2Proof Sys2Proof.Machine Sys2Proof.Safety

/-- Settles O23: the state after reset is as written. -/
theorem resetCommandsStartAnew : Obligations.ResetCommandsStartAnew := by
  refine ⟨rfl, fun p s => ⟨?_, rfl⟩⟩
  intro place filter
  have hplace (x : PlaceSensors) : placeAtReset x = place x := placeAtReset_eq x
  have hexec : exec (.resetRelease p) s = .next (resetReleased p s) := rfl
  rw [hexec, resetReleased]
  simp only [hplace]
  rfl

/-- Settles O20: a value held at its limits stays held, so that clamping twice is clamping once. -/
theorem clampedWithinRanges : Obligations.ClampedWithinRanges := by
  refine ⟨fun lo hi x hle => ?_, fun raw => ?_⟩
  · unfold Machine.hold
    omega
  · intro c neighbour grade
    refine ⟨⟨rfl, rfl, rfl, rfl, rfl, fun i => ?_⟩, ⟨rfl, rfl, rfl, rfl, rfl, rfl, rfl, rfl, rfl, rfl, rfl, rfl, rfl, rfl, rfl⟩,
      ⟨rfl, rfl, rfl, rfl, rfl, rfl, rfl, rfl, rfl⟩, ⟨rfl, rfl, rfl, rfl, rfl, rfl, rfl, rfl, rfl, rfl, rfl, rfl⟩, ?_,
      clampConfig_clampConfig raw⟩
    · have hget : c.compMap.get i = (raw.compMap.get i).map (hold 0 47) := by
        simp [c, clampConfig, Vector.get]
        rfl
      rw [hget]
      exact ⟨fun h => by simp [h], fun x h => by simp [h]⟩
    · have hsegment : c.segment ≤ 47 := (hold_bounds (by decide) raw.segment).2
      have hpass : c.passTime ≤ 20000 := (hold_bounds (by decide) raw.passTime).2
      exact Nat.mul_le_mul hsegment hpass

/-- Settles O24: the check and the fields of the image on numbers, and the entry to STOCKING of an image that is taken. -/
theorem readCompleteConfigures : Obligations.ReadCompleteConfigures := by
  refine ⟨fun image => ⟨imageGood_iff image, ?_, ?_⟩, forbidden_iff, applyHeld_eq, fun p image s hr hm => ?_⟩
  · exact ⟨rfl, rfl, rfl, rfl, compMap_rawConfig image, rfl, rfl, rfl, rfl, rfl, rfl, rfl, rfl,
      rfl, rfl, rfl, rfl⟩
  · exact ⟨rfl, rfl, rfl, rfl, rfl, rfl, rfl, rfl, rfl, rfl, rfl, restrictedDesks_rawConfig image, rfl, rfl, rfl, rfl, rfl, rfl, rfl, rfl, rfl, rfl, rfl,
      rfl, rfl⟩
  · intro cfg
    have hread : exec (.readComplete p image) s = .next (readComplete image (s.setPins p)) := by
      rw [exec_readComplete, if_pos (by simp [hr, hm])]
    refine ⟨fun hbad => ?_, fun hgood hf => ?_, fun hgood hf => ?_⟩
    · rw [hread, readComplete, if_neg (by simp [hbad])]
      rfl
    · rw [hread, readComplete, if_pos hgood]
      exact congrArg Host.Outcome.next (if_pos hf)
    · intro u
      rw [hread, readComplete, if_pos hgood]
      refine congrArg Host.Outcome.next ((if_neg (by rw [hf]; exact Bool.false_ne_true)).trans ?_)
      exact congrArg settle (enterStocking_eq _)

end Sys2Proof.Proofs
end

