-- ==== Sys2Proof/Proofs/Line.lean ====
section
/-! PROOFS. The line: the footing, the contention and the condition word, admission to the queue, and the outcomes of the station's
own frames (R161 to R163, R169, R174 to R177). -/

namespace Sys2Proof.Machine
open Sys2Proof Safety

/-- A command of a live station acts by its effect, and the event ends. -/
theorem exec_acts {c : Instr} {f : State → State} {s v : State} (hf : effect c = some f) (hl : s.live = true)
    (hv : f (s.setPins c.pins) = v) : exec c s = .next (settle v) := hv ▸ exec_effect_of_live hf hl

/-! ## Contention (R163) -/

/-- The station wins over the lowest bits where no rival's are below its own. -/
theorem wins_iff (own k : Nat) (rivals : List Nat) : wins own k rivals = true ↔ ∀ r ∈ rivals, own % 2 ^ k ≤ r % 2 ^ k := by
  induction k generalizing rivals with
  | zero => simp [wins, Nat.mod_one]
  | succ k ih =>
    have split (x : Nat) : x % 2 ^ (k + 1) = x % 2 ^ k + 2 ^ k * (x / 2 ^ k % 2) := Nat.mod_pow_succ
    have below (x : Nat) : x % 2 ^ k < 2 ^ k := Nat.mod_lt _ (Nat.two_pow_pos k)
    have bit (x : Nat) : x / 2 ^ k % 2 = 0 ∨ x / 2 ^ k % 2 = 1 := Nat.mod_two_eq_zero_or_one _
    unfold wins
    by_cases hown : sentReleased k own = true
    · have hbit : own / 2 ^ k % 2 = 1 := by simpa [sentReleased] using hown
      rw [if_pos hown]
      by_cases hall : rivals.all (sentReleased k) = true
      · rw [if_pos hall, ih]
        refine forall₂_congr fun r hr => ?_
        have hr : r / 2 ^ k % 2 = 1 := by simpa [sentReleased] using List.all_eq_true.mp hall r hr
        rw [split own, split r, hbit, hr]
        omega
      · rw [if_neg hall]
        obtain ⟨r, hr, hdriven⟩ : ∃ r ∈ rivals, sentReleased k r = false := by simpa [List.all_eq_true] using hall
        have hr0 : r / 2 ^ k % 2 = 0 := (bit r).resolve_right fun h => by simp [sentReleased, h] at hdriven
        refine iff_of_false Bool.false_ne_true fun h => ?_
        have := h r hr
        rw [split own, split r, hbit, hr0] at this
        have := below r
        omega
    · have hbit : own / 2 ^ k % 2 = 0 := (bit own).resolve_right fun h => hown (by simp [sentReleased, h])
      rw [if_neg hown, ih]
      constructor
      · intro h r hr
        rw [split own, split r, hbit]
        rcases bit r with h0 | h1
        · have := h r (List.mem_filter.mpr ⟨hr, by simp [sentReleased, h0]⟩)
          omega
        · have := below own
          rw [h1]
          omega
      · intro h r hr
        obtain ⟨hmem, hdriven⟩ := List.mem_filter.mp hr
        have hr0 : r / 2 ^ k % 2 = 0 := (bit r).resolve_right fun h => by simp [sentReleased, h] at hdriven
        have := h r hmem
        rw [split own, split r, hbit, hr0] at this
        omega

theorem onLineFrame_of_waiting {s : State} (h : ∀ g, g ∈ s.line.queue → g.onLine = none) : onLineFrame s = none :=
  List.find?_eq_none.mpr fun g hg => by simp [TxFrame.waits, h g hg]

/-- A station with its footing, no frame on the line and one in its queue contends with the first. -/
theorem contend_eq {s : State} {f : TxFrame} {q : List TxFrame} (hfoot : s.line.footing = true) (hq : s.line.queue = f :: q)
    (hw : ∀ g, g ∈ f :: q → g.onLine = none) (rivals : List (Nat × Nat)) : contend rivals s =
    if wins (f.cls * 64 + s.cfg.station) 9 (rivals.map fun r => r.1 * 64 + r.2) = true then frameWins f q s else s := by
  have hnone : onLineFrame s = none := onLineFrame_of_waiting (hq ▸ hw)
  unfold contend
  rw [hq, if_pos (by simp [hfoot, hnone])]
  rfl

theorem contend_of_no_footing {s : State} (h : s.line.footing = false) (rivals : List (Nat × Nat)) : contend rivals s = s :=
  if_neg (by simp [h])

theorem hear_of_no_footing {s : State} (h : s.line.footing = false) (p : Pins) (hd : Header) (items : List Item) :
    hear p hd items s = s.setPins p := if_neg (by simp [h])

/-! ## The condition word (R169, R179) -/

theorem condWord_toNat (u : State) : (condWord u).toNat = u.mode.num * 32 + shutterCode u.fire.shutter * 8
    + (if laneHeld u u.spine.down u.spine.outDown then 2 else 0) + (if laneHeld u u.spine.up u.spine.outUp then 1 else 0) := by
  have hmode : u.mode.num ≤ 5 := by cases u.mode <;> decide
  have hshutter : shutterCode u.fire.shutter ≤ 3 := by
    unfold shutterCode
    split
    · decide
    · split <;> decide
  have hdown : (if laneHeld u u.spine.down u.spine.outDown then 2 else 0) ≤ 2 := by split <;> decide
  have hup : (if laneHeld u u.spine.up u.spine.outUp then 1 else 0) ≤ 1 := by split <;> decide
  unfold condWord
  rw [BitVec.toNat_ofNat]
  omega

/-! ## Admission (R175) -/

/-- A frame comes behind those of its class or a lower one. -/
theorem insertFrame_eq (f : TxFrame) {q : List TxFrame} (hq : classOrdered q = true) : insertFrame f q =
    (q.filter fun g => decide (g.cls ≤ f.cls)) ++ f :: q.filter fun g => decide (f.cls < g.cls) := by
  rw [classOrdered_iff] at hq
  induction q with
  | nil => rfl
  | cons g q ih =>
    obtain ⟨hg, hq⟩ := List.pairwise_cons.mp hq
    unfold insertFrame
    split
    · next hle => simp [hle, ih hq, Nat.not_lt.mpr hle]
    · next hlt =>
      have hrest : ∀ x ∈ q, f.cls < x.cls := fun x hx => Nat.lt_of_lt_of_le (Nat.lt_of_not_le hlt) (hg x hx)
      have hlow : (q.filter fun x => decide (x.cls ≤ f.cls)) = [] :=
        List.filter_eq_nil_iff.mpr fun x hx => by simpa using hrest x hx
      have hhigh : (q.filter fun x => decide (f.cls < x.cls)) = q :=
        List.filter_eq_self.mpr fun x hx => by simpa using hrest x hx
      simp [hlt, hlow, hhigh, Nat.lt_of_not_le hlt]

theorem takeLast_append {p : TxFrame → Bool} {a b : List TxFrame} {g : TxFrame} (hg : p g = true) (hb : ∀ x, x ∈ b → p x = false) :
    takeLast p (a ++ g :: b) = some (g, a ++ b) := by
  have hnone : takeLast p b = none := by
    induction b with
    | nil => rfl
    | cons x b ih =>
      rw [takeLast, ih fun y hy => hb y (List.mem_cons_of_mem _ hy)]
      simp [hb x List.mem_cons_self]
  induction a with
  | nil => simp [takeLast, hnone, hg]
  | cons x a ih => simp [takeLast, ih]

theorem takeLast_none {p : TxFrame → Bool} {q : List TxFrame} (h : ∀ x, x ∈ q → p x = false) : takeLast p q = none := by
  induction q with
  | nil => rfl
  | cons x q ih =>
    rw [takeLast, ih fun y hy => h y (List.mem_cons_of_mem _ hy)]
    simp [h x List.mem_cons_self]

theorem waitingNotice_iff (g : TxFrame) : (g.isNotice && g.waits) = true ↔ g.cls = 4 ∧ g.onLine = none := by
  simp [TxFrame.isNotice, TxFrame.waits]

theorem waitingLow_iff (g : TxFrame) :
    ((g.cls == 1 || g.cls == 2) && g.waits) = true ↔ (g.cls = 1 ∨ g.cls = 2) ∧ g.onLine = none := by
  simp [TxFrame.waits]

section
variable {f g : TxFrame} {q a b : List TxFrame}

theorem admission_notice (hf : f.cls = 4) : admission f q =
    if noticeCount q < 6 ∧ q.length < 12 then .taken (insertFrame f q) else .lost := if_pos (by simp [TxFrame.isNotice, hf])

theorem admission_short (hf : f.cls ≠ 4) (hq : q.length < 12) : admission f q = .taken (insertFrame f q) := by
  rw [admission, if_neg (by simp [TxFrame.isNotice, hf]), if_pos hq]

theorem admission_noticeOut (hf : f.cls ≠ 4) (hq : 12 ≤ q.length) (hs : q = a ++ g :: b) (hg : g.cls = 4 ∧ g.onLine = none)
    (hb : ∀ x, x ∈ b → ¬ (x.cls = 4 ∧ x.onLine = none)) : admission f q = .noticeOut (insertFrame f (a ++ b)) := by
  have hlast : takeLast (fun g => g.isNotice && g.waits) q = some (g, a ++ b) := by
    rw [hs]
    exact takeLast_append ((waitingNotice_iff g).mpr hg) fun x hx =>
      Bool.eq_false_iff.mpr (mt (waitingNotice_iff x).mp (hb x hx))
  rw [admission, if_neg (by simp [TxFrame.isNotice, hf]), if_neg (by omega), hlast]

theorem admission_without_notice (hf : f.cls ≠ 4) (hq : 12 ≤ q.length) (hn : ∀ x, x ∈ q → ¬ (x.cls = 4 ∧ x.onLine = none)) :
    admission f q = if f.cls = 0 then
        match takeLast (fun g => (g.cls == 1 || g.cls == 2) && g.waits) q with
        | some (g, q') => .displaced g (insertFrame f q')
        | none => .full
      else .full := by
  have hnone : takeLast (fun g => g.isNotice && g.waits) q = none :=
    takeLast_none fun x hx => Bool.eq_false_iff.mpr (mt (waitingNotice_iff x).mp (hn x hx))
  rw [admission, if_neg (by simp [TxFrame.isNotice, hf]), if_neg (by omega), hnone] <;> rfl

end

end Sys2Proof.Machine

namespace Sys2Proof.Proofs
open Sys2Proof Sys2Proof.Machine Sys2Proof.Safety

/-- Settles O25: a station without its footing hears no frame and does not contend. -/
theorem lineTakenFromFirstIdle : Obligations.LineTakenFromFirstIdle := by
  intro p s hl
  refine ⟨exec_effect_of_live (c := .lineIdle p) rfl hl, fun hfoot => ⟨fun rivals => ?_, fun c h items hf => ?_⟩⟩
  · exact exec_acts (c := .contention p rivals) rfl hl (contend_of_no_footing (s := s.setPins p) hfoot rivals)
  · obtain ⟨heard, hexec, -⟩ := exec_frame hf s
    rw [hexec, hear_of_no_footing hfoot]
    rfl

/-- Settles O26: bit by bit the station wins exactly where no rival's field is below its own. -/
theorem contentionGoesToLowestField : Obligations.ContentionGoesToLowestField := by
  refine ⟨fun u => ?_, fun p rivals f q s hl hfoot hq hw hcls hstation hrivals => ?_⟩
  · intro mode shutter held
    have hmode : mode = u.mode.num := by cases hm : u.mode <;> simp only [mode, hm] <;> rfl
    have hshutter : shutter = shutterCode u.fire.shutter := by
      cases hx : u.fire.shutter with
      | none => simp only [shutter, hx]; rfl
      | some x => cases hstate : x.state <;> simp only [shutter, shutterCode, hx, hstate]
    have hheld (place : PlaceState) (out : Option Handoff) : held place out = if laneHeld u place out = true then 1 else 0 := by
      cases place <;> simp [held, laneHeld]
    rw [condWord_toNat, hmode, hshutter, hheld, hheld]
    congr 2
    split <;> rfl
  · intro own
    have hown : own < 2 ^ 9 := by omega
    have hbelow : ∀ r ∈ rivals, r.1 * 64 + r.2 < 2 ^ 9 := fun r hr => by
      have := hrivals r hr
      omega
    have hwins : wins own 9 (rivals.map fun r => r.1 * 64 + r.2) = true ↔ ∀ r ∈ rivals, own ≤ r.1 * 64 + r.2 := by
      rw [wins_iff, List.forall_mem_map]
      refine forall₂_congr fun r hr => ?_
      rw [Nat.mod_eq_of_lt hown, Nat.mod_eq_of_lt (hbelow r hr)]
    have hcontend := contend_eq (s := s.setPins p) hfoot hq hw rivals
    refine ⟨fun h => exec_acts (c := .contention p rivals) rfl hl (hcontend.trans ((if_pos (hwins.mpr h)).trans ?_)),
      fun ⟨r, hr, hlt⟩ => exec_acts (c := .contention p rivals) rfl hl
        (hcontend.trans (if_neg fun h => Nat.not_le_of_lt hlt (hwins.mp h r hr)))⟩
    cases hx : f.owner <;> simp only [frameWins, reportSent, hx] <;> rfl

end Sys2Proof.Proofs
end

