-- ==== Sys2Proof/Proofs/Outcomes.lean ====
section
/-! PROOFS. Frames that the queue takes, displaces or refuses, and the outcomes of the station's own frames at the blocks that
queued them (R72, R92, R96, R97, R114, R118, R142, R174, R175). -/

namespace Sys2Proof.Machine
open Sys2Proof Safety

/-! ## A frame at the queue (R175) -/

section
variable {f g : TxFrame} {q : List TxFrame} {u : State}

theorem queueFrame_of_taken (h : admission f u.line.queue = .taken q) :
    queueFrame f u = { u with line := { u.line with queue := q } } := by
  unfold queueFrame
  rw [h]
  rfl

theorem queueFrame_of_lost (h : admission f u.line.queue = .lost) :
    queueFrame f u = { u with line := { u.line with discarded := true } } := by
  unfold queueFrame
  rw [h]
  rfl

theorem queueFrame_of_noticeOut (h : admission f u.line.queue = .noticeOut q) :
    queueFrame f u = { u with line := { u.line with queue := q, discarded := true } } := by
  unfold queueFrame
  rw [h]
  rfl

theorem queueFrame_of_displaced (h : admission f u.line.queue = .displaced g q) :
    queueFrame f u = frameRefused g.owner { u with line := { u.line with queue := q } } := by
  unfold queueFrame
  rw [h]
  rfl

theorem queueFrame_of_full (h : admission f u.line.queue = .full) : queueFrame f u = frameRefused f.owner u := by
  unfold queueFrame
  rw [h]
  rfl

end

/-! ## A TAKEN and the queue (R118) -/

theorem tryTaken_of_refused (own bin : Nat) (place : TakenPlace) (u : LineUnit)
    (h : ∀ n, (admission (takenFrame own bin place n) u.queue).entered = false) (left sending : Nat) :
    tryTaken own bin place left sending u = u := by
  induction left generalizing sending with
  | zero => rfl
  | succ left ih => simp [tryTaken, h, ih]

theorem frameRefused_taken_of_short {u : State} (bin : Nat) (place : TakenPlace) {k : Nat} (hk : k < 3)
    (hq : u.line.queue.length < 12) :
    frameRefused (.taken bin place k) u = queueFrame (takenFrame u.cfg.station bin place (k + 1)) u := by
  have hcls : (takenFrame u.cfg.station bin place (k + 1)).cls ≠ 4 := by
    change (1 : Nat) ≠ 4
    decide
  have hadm := admission_short hcls hq
  obtain ⟨left, hleft⟩ : ∃ left, 3 - k = left + 1 := ⟨2 - k, by omega⟩
  rw [queueFrame_of_taken hadm, frameRefused, hleft, tryTaken, hadm]
  rfl

/-! ## A BID and a CLAIM refused (R92, R96) -/

section
variable {u : State} {c : Call} {x : CallEntry} {cost bin : Nat}

theorem releaseEntry_of_held (ho : x.own = some (cost, bin)) (hw : x.writtenOff = false) :
    releaseEntry x u = { u with dir := u.dir.releaseHold bin x.volume x.mass } := by
  simp only [releaseEntry, ho, hw]
  rfl

theorem releaseEntry_of_writtenOff (ho : x.own = some (cost, bin)) (hw : x.writtenOff = true) : releaseEntry x u = u := by
  simp only [releaseEntry, ho, hw, if_true]

theorem unreserveEntry_of_own (ho : x.own = some (cost, bin)) : unreserveEntry x u = { u with
    planner := { u.planner with reservations := u.planner.reservations.erase (bin, x.call.desk) } } := by
  simp only [unreserveEntry, ho]
  rfl

theorem claimLost_of_entry (hx : u.placement.entry c = some x) :
    claimLost c u = (unreserveEntry x (releaseEntry x u)).setPlacement (u.placement.remove c) := by
  unfold claimLost
  rw [hx]
  simp only [show (unreserveEntry x (releaseEntry x u)).placement = u.placement by
    rw [unreserveEntry_placement, releaseEntry_placement]]

theorem entry_call {pc : Placement} (hx : pc.entry c = some x) : x.call = c := by
  simpa using List.find?_some hx

end

/-! ## The outcome of a frame (R174) -/

/-- The frame on the line leaves the queue and its block learns the outcome; a frame abandoned is UNHEARD. -/
theorem exec_outcome {c : Instr} {p : Pins} {ack obj : Bool} {f : TxFrame} {s : State}
    (hc : c = .outcome p ack obj ∨ c = .frameAbandoned p ∧ ack = false ∧ obj = false) (hl : s.live = true)
    (hf : s.line.queue.find? (fun g => g.onLine.isSome) = some f) :
    exec c s = .next (settle (reportOutcome f (outcomeOf ack obj)
      { s with pins := p, line := { s.line with queue := s.line.queue.filter fun g => g.onLine.isNone } })) := by
  have hline : onLineFrame (s.setPins p) = some f := by
    have hwaits : (fun g : TxFrame => !g.waits) = fun g => g.onLine.isSome := funext fun g => by simp [TxFrame.waits]
    rw [onLineFrame, hwaits]
    exact hf
  have hends (o : TxOutcome) : frameEnds o (s.setPins p) = reportOutcome f o
      { s with pins := p, line := { s.line with queue := s.line.queue.filter fun g => g.onLine.isNone } } := by
    unfold frameEnds
    rw [hline]
    rfl
  rcases hc with rfl | ⟨rfl, rfl, rfl⟩
  · exact exec_acts (c := .outcome p ack obj) rfl hl (hends _)
  · exact exec_acts (c := .frameAbandoned p) rfl hl (hends _)

theorem outcomeOf_heard (ack obj : Bool) : (outcomeOf ack obj == .heard) = decide (ack = true ∧ obj = false) := by
  cases ack <;> cases obj <;> rfl

theorem outcomeOf_unheard (ack obj : Bool) : outcomeOf ack obj = .unheard ↔ ack = false ∧ obj = false := by
  cases ack <;> cases obj <;> decide

/-! ## Visits made (R65, R72) -/

/-- The number `k` after `n`, counting 255 on to 1. -/
def numberAfter (n : Nat) : Nat → Nat
  | 0 => n
  | k + 1 => (n + k) % 255 + 1

theorem numberAfter_next (n k : Nat) : numberAfter (n % 255 + 1) k = numberAfter n (k + 1) := by
  cases k with
  | zero => rfl
  | succ k =>
    simp only [numberAfter]
    omega

/-- The search for a number ends at one that no visit uses, or it has met used ones alone. -/
theorem freeNumber_unused_or (pl : Planner) (fuel n : Nat) : (∀ v, v ∈ pl.visits → v.number ≠ freeNumber pl fuel n) ∨
    ∀ k < fuel, ∃ v ∈ pl.visits, v.number = numberAfter n k := by
  induction fuel generalizing n with
  | zero => exact .inr fun k hk => absurd hk (Nat.not_lt_zero k)
  | succ fuel ih =>
    unfold freeNumber
    by_cases hn : pl.visits.any (fun v => v.number == n) = true
    · rw [if_pos hn]
      refine (ih (n % 255 + 1)).imp id fun h k hk => ?_
      cases k with
      | zero => simpa [numberAfter] using hn
      | succ k =>
        rw [← numberAfter_next]
        exact h k (Nat.lt_of_succ_lt_succ hk)
    · rw [if_neg hn]
      exact .inl fun v hv he => hn (List.any_eq_true.mpr ⟨v, hv, by simpa using he⟩)

/-- With fewer than 255 visits a number is free. -/
theorem freeNumber_unused {pl : Planner} (hlen : pl.visits.length < 254) (n : Nat) {v : Visit} (hv : v ∈ pl.visits) :
    v.number ≠ freeNumber pl 255 n := by
  refine (freeNumber_unused_or pl 255 n).elim (fun h => h v hv) fun h => ?_
  have hsub : (List.range 254).map (fun k => numberAfter n (k + 1)) ⊆ pl.visits.map (·.number) := by
    intro x hx
    obtain ⟨k, hk, rfl⟩ := List.mem_map.mp hx
    obtain ⟨w, hw, hnum⟩ := h (k + 1) (by have := List.mem_range.mp hk; omega)
    exact List.mem_map.mpr ⟨w, hw, hnum⟩
  have hnodup : ((List.range 254).map fun k => numberAfter n (k + 1)).Nodup :=
    List.pairwise_map.mpr <| List.nodup_range.imp_of_mem fun {i j} hi hj hne he => hne (by
      have hi := List.mem_range.mp hi
      have hj := List.mem_range.mp hj
      simp only [numberAfter] at he
      omega)
  have hle := length_le_of_subset hnodup hsub
  simp only [List.length_map, List.length_range] at hle
  omega

theorem freeNumber_congr {pl pl' : Planner} (h : pl.visits = pl'.visits) (fuel n : Nat) :
    freeNumber pl fuel n = freeNumber pl' fuel n := by
  induction fuel generalizing n with
  | zero => rfl
  | succ fuel ih => simp only [freeNumber, h, ih]

theorem freeNumber_range (pl : Planner) (fuel : Nat) {n : Nat} (hlo : 1 ≤ n) (hhi : n ≤ 255) :
    1 ≤ freeNumber pl fuel n ∧ freeNumber pl fuel n ≤ 255 := by
  induction fuel generalizing n with
  | zero => exact ⟨hlo, hhi⟩
  | succ fuel ih =>
    unfold freeNumber
    split
    · exact ih (by omega) (by omega)
    · exact ⟨hlo, hhi⟩

/-- The visit to the desk that waits for the bin or for the route, or is ready. -/
theorem waitingVisit_eq (pl : Planner) (bin : Nat) (desk : Desk) : pl.waitingVisit bin desk =
    pl.visits.find? fun v => decide (v.bin = bin ∧ v.desk = desk
      ∧ (v.state = .waitingBin ∨ v.state = .waitingRoute ∨ v.state = .ready)) := by
  refine congrArg (pl.visits.find? ·) (funext fun v => ?_)
  rw [Bool.eq_iff_iff]
  cases v.state <;> simp [VisitState.waiting]

end Sys2Proof.Machine

namespace Sys2Proof.Proofs
open Sys2Proof Sys2Proof.Machine Sys2Proof.Safety

/-- Settles O27: the six cases of an admission, what a block does with a frame the queue refuses, and the outcomes. -/
theorem outcomeOfOfferOrTaken : Obligations.OutcomeOfOfferOrTaken := by
  refine ⟨fun f u hord => ?_, fun u => ?_, fun c p ack obj f s hc hl hf => ?_⟩
  · intro q into put noticed low
    have hinto {l : List TxFrame} (hsub : l.Sublist q) : insertFrame f l = into l := insertFrame_eq f (classOrdered_sublist hsub hord)
    have hshort {a b : List TxFrame} {g : TxFrame} (hs : q = a ++ g :: b) : (a ++ b).Sublist q := by
      rw [hs]
      exact (List.Sublist.refl a).append (List.sublist_cons_self g b)
    refine ⟨fun hcls => ⟨fun hn hq => ?_, fun h => ?_⟩, fun hcls => ⟨fun hq => ?_, fun a g b hq hs hg hb => ?_,
      fun hq hn => ⟨fun a g b hfire hs hg hb => ?_, fun h => ?_⟩⟩⟩
    · rw [queueFrame_of_taken ((admission_notice hcls).trans (if_pos ⟨hn, hq⟩)), hinto (List.Sublist.refl q)]
    · exact queueFrame_of_lost ((admission_notice hcls).trans (if_neg fun hn =>
        h.elim (Nat.not_le_of_lt hn.1) (Nat.not_le_of_lt hn.2)))
    · rw [queueFrame_of_taken (admission_short hcls hq), hinto (List.Sublist.refl q)]
    · rw [queueFrame_of_noticeOut (admission_noticeOut hcls hq hs hg hb), hinto (hshort hs)]
    · have hlast : takeLast (fun g => (g.cls == 1 || g.cls == 2) && g.waits) q = some (g, a ++ b) := by
        rw [hs]
        exact takeLast_append ((waitingLow_iff g).mpr hg) fun x hx => Bool.eq_false_iff.mpr (mt (waitingLow_iff x).mp (hb x hx))
      have hadm := admission_without_notice hcls hq hn
      rw [if_pos hfire, hlast] at hadm
      rw [queueFrame_of_displaced hadm, hinto (hshort hs)]
    · have hadm := admission_without_notice hcls hq hn
      refine queueFrame_of_full (hadm.trans ?_)
      rcases h with h | h
      · exact if_neg h
      · rw [takeLast_none fun x hx => Bool.eq_false_iff.mpr (mt (waitingLow_iff x).mp (h x hx))]
        exact ite_self _
  · intro retry
    refine ⟨rfl, fun c => rfl, rfl, rfl, rfl, fun bin place k h => ?_, fun bin place k hk hq => frameRefused_taken_of_short bin place hk hq,
      fun c x cost bin hx ho hw => ?_⟩
    · have htry : tryTaken u.cfg.station bin place (3 - k) (k + 1) u.line = u.line := by
        rcases h with h | rfl
        · exact tryTaken_of_refused _ _ _ _ h _ _
        · rfl
      exact congrArg u.setLine htry
    · intro released
      have hentry : u.placement.entry c = some x := hx
      refine ⟨?_, ?_⟩
      · simp only [frameRefused, bidRefused, hentry, releaseEntry_of_held ho hw]
        rfl
      · simp only [frameRefused, claimLost_of_entry hentry, releaseEntry_of_held ho hw, unreserveEntry_of_own ho]
        rfl
  · intro e handoff retry
    have hexec {v : State} (hv : reportOutcome f (outcomeOf ack obj) e = v) : exec c s = .next (settle v) :=
      hv ▸ exec_outcome hc hl hf
    have hlane (l : Lane) (r : TravelRecord) (hr : s.spine.lane l = .holding r) : offerOutcome l f.addr (outcomeOf ack obj == .heard) e =
        if ack = true ∧ obj = false then driveLane l true (setOut l (handoff r.bin) e) else startRetry l e := by
      have hrec : (e.spine.lane l).record? = some r := congrArg PlaceState.record? hr
      rw [offerOutcome, hrec, outcomeOf_heard]
      simp only [decide_eq_true_eq]
      rfl
    refine ⟨fun ho => hexec ?_, fun r ho hr => hexec ?_, fun r ho hr => hexec ?_, fun bin place k ho => hexec ?_⟩
    · rcases ho with ho | ⟨x, ho⟩ | ⟨x, ho⟩ <;> rw [reportOutcome, ho]
    · rw [reportOutcome, ho]
      refine (hlane .down r hr).trans ?_
      split <;> rfl
    · rw [reportOutcome, ho]
      refine (hlane .up r hr).trans ?_
      split <;> rfl
    · rw [reportOutcome, ho]
      simp only [outcomeOf_unheard, and_assoc]
      rfl

/-- Settles O28: the outcomes of a CLAIM and of a CLOSING, and the visit of a room part. -/
theorem outcomeOfClaimOrClosing : Obligations.OutcomeOfClaimOrClosing := by
  refine ⟨fun c p ack obj f s hc hl hf => ?_, fun bin part u => ?_⟩
  · intro e calls
    have hexec {v : State} (hv : reportOutcome f (outcomeOf ack obj) e = v) : exec c s = .next (settle v) :=
      hv ▸ exec_outcome hc hl hf
    have hclosing (ho : f.owner = .closing) : reportOutcome f (outcomeOf ack obj) e = closingOutcome (outcomeOf ack obj == .heard) e := by
      rw [reportOutcome, ho]
    have hclaim (x : Call) (ho : f.owner = .claim x) :
        reportOutcome f (outcomeOf ack obj) e = claimOutcome x (outcomeOf ack obj == .heard) e := by
      rw [reportOutcome, ho]
    refine ⟨fun x entry cost bin ho hx hown hw => ⟨fun hheard => hexec ?_, fun hlost => hexec ?_⟩,
      fun x entry cost bin ho hx hown hw => hexec ?_, fun ho hnot => hexec ?_, fun x ho hx hstate => hexec ?_⟩
    · have hentry : e.placement.entry x = some entry := hx
      rw [hclaim x ho, claimOutcome, hentry]
      simp only [hown, outcomeOf_heard, hheard, hw, entry_call hentry]
      rw [if_pos (by decide), takeRoomPart_placement]
      rfl
    · have hentry : e.placement.entry x = some entry := hx
      have hnot : ¬ (ack = true ∧ obj = false) := fun h => by simp [h] at hlost
      rw [hclaim x ho, claimOutcome, hentry]
      simp only [hown, outcomeOf_heard, decide_eq_false hnot, Bool.false_and]
      rw [if_neg Bool.false_ne_true, claimLost_of_entry hentry, releaseEntry_of_held hown hw, unreserveEntry_of_own hown,
        entry_call hentry]
      rfl
    · have hentry : e.placement.entry x = some entry := hx
      rw [hclaim x ho, claimOutcome, hentry]
      simp only [hown, hw, Bool.not_true, Bool.and_false]
      rw [if_neg Bool.false_ne_true, claimLost_of_entry hentry, releaseEntry_of_writtenOff hown hw, unreserveEntry_of_own hown,
        entry_call hentry]
      rfl
    · have hshutter : e.fire.shutter = s.fire.shutter := rfl
      rw [hclosing ho, closingOutcome]
      split
      · next x hx => exact if_neg (hnot x hx)
      · rfl
    · have hshutter : e.fire.shutter = some x := hx
      rw [hclosing ho, closingOutcome, hshutter]
      simp only [if_pos hstate, outcomeOf_heard, decide_eq_true_eq]
      split
      · rfl
      · rw [startClosingRetry, hshutter]
        rfl
  · intro left waiting urgent
    have hfind : (dropReservation bin part.call.desk u).planner.waitingVisit bin part.call.desk
        = u.planner.visits.find? fun v => decide (waiting v) := waitingVisit_eq _ _ _
    refine ⟨fun w hw => ?_, fun hnone hlen => ?_⟩
    · rw [takeRoomPart, hfind, hw]
      rfl
    · rw [takeRoomPart, hfind, List.find?_eq_none.mpr fun v hv => by simpa using hnone v hv]
      refine ⟨freeNumber u.planner 255 u.planner.nextVisit, fun v hv => freeNumber_unused (by omega) _ hv,
        fun hlo hhi => freeNumber_range _ _ hlo hhi, ?_⟩
      simp only [makeVisit, freeNumber_congr (pl := (dropReservation bin part.call.desk u).planner) (pl' := u.planner) rfl]
      rfl

end Sys2Proof.Proofs
end

