-- ==== Sys2Proof/Proofs/Calls.lean ====
section
/-! PROOFS. Calls that close: what goes with one call, and with the calls in some states together (R95, R98, R99, R137). -/

namespace Sys2Proof.Machine
open Sys2Proof Safety

/-! ## One call -/

/-- The directory once the hold of a call is released; an entry whose bin was written off has none (R11, R100). -/
def heldReleased (d : Directory) (x : CallEntry) : Directory :=
  match x.own with
  | some (_, b) => if x.writtenOff then d else d.releaseHold b x.volume x.mass
  | none => d

/-- The reservations once a call closes: that of a queued CLAIM goes (R72). -/
def claimUnreserved (l : List (Nat × Desk)) (x : CallEntry) : List (Nat × Desk) :=
  match x.own with
  | some (_, b) => if x.state = .claimQueued then l.erase (b, x.call.desk) else l
  | none => l

theorem claimUnreserved_of_not_queued {x : CallEntry} (h : x.state ≠ .claimQueued) (l : List (Nat × Desk)) :
    claimUnreserved l x = l := by
  unfold claimUnreserved
  split
  · exact if_neg h
  · rfl

/-- The frame is a BID or CLAIM that the call has queued and that is not on the line. -/
def closesFrame (x : CallEntry) (f : TxFrame) : Bool :=
  f.onLine.isNone && ((x.state == .bidQueued || x.state == .claimQueued) && (f.owner == .bid x.call || f.owner == .claim x.call))

theorem releaseEntry_eq (x : CallEntry) (u : State) : releaseEntry x u = { u with dir := heldReleased u.dir x } := by
  unfold releaseEntry heldReleased
  cases x.own with
  | none => rfl
  | some own =>
    cases x.writtenOff <;> rfl

theorem withdrawCall_eq (x : CallEntry) (u : State) :
    (if x.state = .bidQueued ∨ x.state = .claimQueued then withdraw (Owner.isCall x.call) u else u)
      = { u with line := { u.line with queue := u.line.queue.filter fun f => !closesFrame x f } } := by
  split
  · next h =>
    have hstate : (x.state == .bidQueued || x.state == .claimQueued) = true := by simpa using h
    simp only [closesFrame, hstate, Bool.true_and, withdraw, Owner.isCall_eq]
    rfl
  · next h =>
    have hstate : (x.state == .bidQueued || x.state == .claimQueued) = false := by simpa using h
    simp only [closesFrame, hstate, Bool.false_and, Bool.and_false, Bool.not_false, filter_of_true]

theorem unreserveCall_eq (x : CallEntry) (u : State) : (if x.state = .claimQueued then unreserveEntry x u else u)
    = { u with planner := { u.planner with reservations := claimUnreserved u.planner.reservations x } } := by
  unfold unreserveEntry claimUnreserved
  cases hown : x.own with
  | none => exact ite_self _
  | some own =>
    obtain ⟨cost, bin⟩ := own
    split <;> rfl

/-- A call that closes takes its queued frame, its hold and its reservation with it. -/
theorem closeCall_of_entry {c : Call} {s : State} {x : CallEntry} (hx : s.placement.entry c = some x) : closeCall c s = { s with
    line := { s.line with queue := s.line.queue.filter fun f => !closesFrame x f }
    dir := heldReleased s.dir x
    planner := { s.planner with reservations := claimUnreserved s.planner.reservations x }
    placement := s.placement.remove c } := by
  unfold closeCall
  rw [hx]
  simp only [← entry_call hx, withdrawCall_eq, releaseEntry_eq, unreserveCall_eq]
  rfl

theorem closeCall_of_closed {c : Call} {s : State} (hx : s.placement.entry c = none) : closeCall c s = s := by
  unfold closeCall
  rw [hx]

/-! ## The calls in some states -/

theorem entry_remove_other {pc : Placement} {c d : Call} (hne : d ≠ c) : (pc.remove c).entry d = pc.entry d := by
  unfold Placement.entry Placement.remove
  rw [List.find?_filter]
  refine congrArg (pc.calls.find? ·) (funext fun y => ?_)
  by_cases h : y.call = d
  · simp [h, hne]
  · simp [h]

theorem entry_of_mem {pc : Placement} (hd : (pc.calls.map (·.call)).Nodup) {x : CallEntry} (hx : x ∈ pc.calls) :
    pc.entry x.call = some x := by
  obtain ⟨y, hy⟩ := Option.isSome_iff_exists.mp
    (List.find?_isSome.mpr ⟨x, hx, by simp⟩ : (pc.calls.find? fun e => e.call == x.call).isSome = true)
  exact hy.trans (congrArg some (eq_of_key_eq hd (List.mem_of_find?_eq_some hy) hx (entry_call hy)))

/-- Calls of a list, each open and no two of one call, close together. -/
theorem closeCalls_of_entries {l : List CallEntry} (hd : (l.map (·.call)).Nodup) {s : State}
    (hopen : ∀ x, x ∈ l → s.placement.entry x.call = some x) :
    (l.map (·.call)).foldl (fun s c => closeCall c s) s = { s with
      line := { s.line with queue := s.line.queue.filter fun f => !l.any fun x => closesFrame x f }
      dir := l.foldl heldReleased s.dir
      planner := { s.planner with reservations := l.foldl claimUnreserved s.planner.reservations }
      placement := { s.placement with calls := s.placement.calls.filter fun y => l.all fun x => y.call != x.call } } := by
  induction l generalizing s with
  | nil => simp [filter_of_true]
  | cons x l ih =>
    obtain ⟨hx, hd⟩ := List.nodup_cons.mp hd
    have hrest (y : CallEntry) (hy : y ∈ l) : y.call ≠ x.call := fun h =>
      hx (List.mem_map.mpr ⟨y, hy, h⟩)
    rw [List.map_cons, List.foldl_cons, closeCall_of_entry (hopen x List.mem_cons_self), ih hd fun y hy =>
      (entry_remove_other (hrest y hy)).trans (hopen y (List.mem_cons_of_mem _ hy))]
    simp only [List.foldl_cons, List.any_cons, List.all_cons, List.filter_filter, Bool.not_or, Placement.remove, Bool.and_comm]

theorem any_closesFrame (l : List CallEntry) (f : TxFrame) : (l.any fun x => closesFrame x f) =
    (f.onLine.isNone && l.any fun x =>
      (x.state == .bidQueued || x.state == .claimQueued) && (f.owner == .bid x.call || f.owner == .claim x.call)) := by
  cases h : f.onLine.isNone <;> simp [closesFrame, h]

/-- The calls in the states a test names close together. -/
theorem closeCalls_eq {s : State} (hinv : CallsInv s) (p : CallState → Bool) : closeCalls p s = { s with
    line := { s.line with queue := s.line.queue.filter fun f => !(s.placement.calls.filter fun x => p x.state).any fun x => closesFrame x f }
    dir := (s.placement.calls.filter fun x => p x.state).foldl heldReleased s.dir
    planner := { s.planner with
      reservations := (s.placement.calls.filter fun x => p x.state).foldl claimUnreserved s.planner.reservations }
    placement := { s.placement with calls := s.placement.calls.filter fun x => !p x.state } } := by
  have hsub : (s.placement.calls.filter fun x => p x.state).Sublist s.placement.calls := List.filter_sublist
  unfold closeCalls
  rw [closeCalls_of_entries (hinv.distinct.sublist (hsub.map _)) fun x hx => entry_of_mem hinv.distinct (hsub.subset hx)]
  have hstay : (s.placement.calls.filter fun y => (s.placement.calls.filter fun x => p x.state).all fun x => y.call != x.call)
      = s.placement.calls.filter fun x => !p x.state := by
    refine List.filter_congr fun y hy => ?_
    cases hp : p y.state with
    | true => exact Bool.eq_false_iff.mpr fun h => by simpa using List.all_eq_true.mp h y (List.mem_filter.mpr ⟨hy, hp⟩)
    | false =>
      refine List.all_eq_true.mpr fun x hx => ?_
      obtain ⟨hx, hpx⟩ := List.mem_filter.mp hx
      refine bne_iff_ne.mpr fun h => ?_
      obtain rfl := eq_of_key_eq hinv.distinct hy hx h
      rw [hp] at hpx
      cases hpx
  rw [hstay]

end Sys2Proof.Machine
end

