-- ==== Sys2Proof/Proofs/Modes.lean ====
section
/-! PROOFS. The mode as it is derived, what a change of it does to calls and crane, and the routes (R74, R99, R108, R109, R115, R132,
R134, R137). -/

namespace Sys2Proof.Machine
open Sys2Proof Safety

/-! ## The stage (R48, R134) -/

theorem discardStaged_of_none {s : State} (h : s.crane.staged = none) : discardStaged s = s := by
  unfold discardStaged
  rw [h]

theorem discardStaged_of_some {s : State} {m : Move} (h : s.crane.staged = some m) : discardStaged s =
    if m.bound = true then { s with crane := { s.crane with staged := none } }
    else match m.kind with
      | .fetch => handBackLink m.visit { s with crane := { s.crane with staged := none } }
      | .takeIn => if s.planner.stow = .staged then { s with
          crane := { s.crane with staged := none }, planner := { s.planner with stow := .ready } }
        else { s with crane := { s.crane with staged := none } }
      | _ => { s with crane := { s.crane with staged := none } } := by
  unfold discardStaged
  rw [h]
  rfl

theorem discardStaged_crane (s : State) : (discardStaged s).crane = { s.crane with staged := none } := by
  cases h : s.crane.staged with
  | none =>
    rw [discardStaged_of_none h, ← h]
  | some m =>
    rw [discardStaged_of_some h]
    split
    · rfl
    · split
      · rw [handBackLink_crane]
      · split <;> rfl
      · rfl

theorem discardStaged_discardStaged (s : State) : discardStaged (discardStaged s) = discardStaged s :=
  discardStaged_of_none (by rw [discardStaged_crane])

/-! ## What the crane's acts leave of the spine -/

theorem handBack_spine (n : Nat) (s : State) : (handBack n s).spine = s.spine := by
  unfold handBack
  split
  · rfl
  · simp only
    split
    · rfl
    · split <;> rfl

theorem handBackLink_spine (link : Option Nat) (s : State) : (handBackLink link s).spine = s.spine := by
  cases link with
  | none => rfl
  | some n => exact handBack_spine n s

theorem visitTo_spine (link : Option Nat) (st : VisitState) (s : State) : (visitTo link st s).spine = s.spine := by
  cases link <;> rfl

theorem discardStaged_spine (s : State) : (discardStaged s).spine = s.spine := by
  cases h : s.crane.staged with
  | none => rw [discardStaged_of_none h]
  | some m =>
    rw [discardStaged_of_some h]
    split
    · rfl
    · split
      · rw [handBackLink_spine]
      · split <;> rfl
      · rfl

theorem reportStart_spine (m : Move) (s : State) : (reportStart m s).spine = s.spine := by
  unfold reportStart
  split
  · exact visitTo_spine _ _ _
  · exact visitTo_spine _ _ _
  all_goals rfl

theorem startMove_spine (m : Move) (s : State) : (startMove m s).spine = s.spine := by
  unfold startMove
  split
  · rfl
  · exact reportStart_spine _ _

theorem park_spine (s : State) : (park s).spine = s.spine :=
  (startMove_spine _ _).trans (discardStaged_spine s)

theorem dropWaiting_spine (s : State) : (dropWaiting s).spine = s.spine := visitTo_spine _ _ _

/-! ## The mode (R132) -/

theorem anyAlarm_iff (f : Fire) : f.anyAlarm = true ↔ ∃ c : Compartment, f.alarmed c = true := by
  have hall (c : Compartment) : c ∈ compartmentsDown := by
    revert c
    decide
  simp [Fire.anyAlarm, hall]

theorem newMode_eq (s : State) : newMode s = if s.fire.alarmed (ownComp s.cfg) then (if s.safeMade then .fireSafe else .fire)
    else if s.stockEnded = false then .stocking else if s.stopTaken then .halted
    else if ∃ c : Compartment, s.fire.alarmed c = true then .guard else .run := by
  simp only [newMode, anyAlarm_iff, Bool.not_eq_true']

theorem deriveMode_mode (s : State) : (deriveMode s).mode = newMode s := by simp [deriveMode]

theorem leaveWorking_of_stays {old : Mode} {s : State} (h : old.working = false ∨ s.mode.working = true) : leaveWorking old s = s :=
  if_neg (by rcases h with h | h <;> simp [h])

theorem enterFire_of_stays {old : Mode} {s : State} (h : old.fiery = true ∨ s.mode.fiery = false) : enterFire old s = s :=
  if_neg (by rcases h with h | h <;> simp [h])

theorem deriveMode_of_same {s : State} (h : newMode s = s.mode) : deriveMode s = s := by
  have hset : s.setMode (newMode s) = s := by rw [h]; rfl
  unfold deriveMode
  rw [hset, leaveWorking_of_stays (by cases s.mode.working <;> simp), enterFire_of_stays (by cases s.mode.fiery <;> simp)]

/-! ## The entry to FIRE (R134) -/

theorem craneEntersFire_discardStaged (s : State) : craneEntersFire (discardStaged s) = craneEntersFire s := by
  unfold craneEntersFire
  rw [discardStaged_discardStaged]

section
variable {s : State}

theorem craneEntersFire_of_idle (hs : s.crane.staged = none) (h : s.crane.state = .idle) : craneEntersFire s = park s := by
  simp only [craneEntersFire, discardStaged_of_none hs, h]

theorem dropWaiting_of_some {m : Move} (h : s.crane.current = some m) :
    dropWaiting s = { visitTo m.visit .onCrane s with crane := { s.crane with current := none, holdTimer := none } } := by
  unfold dropWaiting
  rw [h]
  change visitTo m.visit _ _ = _
  cases m.visit <;> rfl

theorem craneEntersFire_of_holding {m : Move} (hs : s.crane.staged = none) (h : s.crane.state = .holding)
    (hm : s.crane.current = some m) : craneEntersFire s =
      park { visitTo m.visit .onCrane s with crane := { s.crane with current := none, holdTimer := none } } := by
  simp only [craneEntersFire, discardStaged_of_none hs, h, dropWaiting_of_some hm]

/-- A moving crane finishes within the fire grace, or stops. -/
theorem craneEntersFire_of_moving {m : Move} {t : Timer} (hs : s.crane.staged = none) (h : s.crane.state = .moving)
    (hm : s.crane.current = some m) (hk : m.kind ≠ .park) (ht : m.timer = some t) : craneEntersFire s =
      if m.estimate - (s.clock - t.start).toNat ≤ s.cfg.fireGrace * 1000 then { s with
        limited := s.limited || s.crane.estimateHeld, crane := { s.crane with fireFinish := true } }
      else { s with
        limited := s.limited || s.crane.estimateHeld
        crane := { s.crane with state := .stopping, fireStop := true, drive := .controlledStop } } := by
  have htime : remainingTime s = m.estimate - (s.clock - t.start).toNat := by
    simp only [remainingTime, h, hm, remainingOf, ht]
    rfl
  have hheld : remainingHeld s = s.crane.estimateHeld := by simp only [remainingHeld, h, hm]
  have hacts : craneEntersFire s = if remainingTime s ≤ s.cfg.fireGrace * 1000
      then (noteHeld (remainingHeld s) s).setCrane { (noteHeld (remainingHeld s) s).crane with fireFinish := true }
      else (noteHeld (remainingHeld s) s).setCrane
        { (noteHeld (remainingHeld s) s).crane with state := .stopping, fireStop := true, drive := .controlledStop } := by
    simp only [craneEntersFire, discardStaged_of_none hs, h, hm, if_neg hk]
  rw [hacts, htime, hheld]
  split <;> rfl

theorem craneEntersFire_of_rest (hs : s.crane.staged = none)
    (h : s.crane.state = .stopping ∨ s.crane.state = .parked ∨ s.crane.state = .halted ∨ s.crane.state = .faulted
      ∨ ∃ m, s.crane.state = .moving ∧ s.crane.current = some m ∧ m.kind = .park) : craneEntersFire s = s := by
  rcases h with h | h | h | h | ⟨m, h, hm, hk⟩
  · simp only [craneEntersFire, discardStaged_of_none hs, h]
  · simp only [craneEntersFire, discardStaged_of_none hs, h]
  · simp only [craneEntersFire, discardStaged_of_none hs, h]
  · simp only [craneEntersFire, discardStaged_of_none hs, h]
  · simp only [craneEntersFire, discardStaged_of_none hs, h, hm, if_pos hk]

end

theorem craneEntersFire_spine (s : State) : (craneEntersFire s).spine = s.spine := by
  rw [← discardStaged_spine s]
  unfold craneEntersFire
  dsimp only
  split
  · exact park_spine _
  · exact (park_spine _).trans (dropWaiting_spine _)
  · split
    · rfl
    · split <;> rfl
  · rfl

theorem closeCall_spine (c : Call) (s : State) : (closeCall c s).spine = s.spine := by
  cases hx : s.placement.entry c with
  | none => rw [closeCall_of_closed hx]
  | some x => rw [closeCall_of_entry hx]

theorem closeCalls_spine (p : CallState → Bool) (s : State) : (closeCalls p s).spine = s.spine := by
  unfold closeCalls
  generalize ((s.placement.calls.filter fun e => p e.state).map (·.call)) = l
  induction l generalizing s with
  | nil => rfl
  | cons c l ih => exact (ih (closeCall c s)).trans (closeCall_spine c s)

theorem deriveMode_spine (s : State) : (deriveMode s).spine = s.spine := by
  have hleave (old : Mode) (u : State) : (leaveWorking old u).spine = u.spine := by
    unfold leaveWorking
    split
    · exact closeCalls_spine _ _
    · rfl
  have henter (old : Mode) (u : State) : (enterFire old u).spine = u.spine := by
    unfold enterFire
    split
    · exact craneEntersFire_spine _
    · rfl
  exact (henter _ _).trans (hleave _ _)

/-! ## Segments and boundaries (R108) -/

theorem mem_compartmentsDown (c : Compartment) : c ∈ compartmentsDown := by
  revert c
  decide

/-- The first compartment of a test, counted down, is the highest one that passes. -/
theorem find?_compartmentsDown (p : Compartment → Bool) (c : Compartment) :
    compartmentsDown.find? p = some c ↔ p c = true ∧ ∀ c', c < c' → p c' = false := by
  have hsorted : compartmentsDown.Pairwise (· > ·) := by decide
  rw [List.find?_eq_some_iff_append]
  refine and_congr_right fun hc => ⟨?_, fun h => ?_⟩
  · rintro ⟨before, after, hl, hbefore⟩ c' hlt
    have hmem : c' ∈ before ++ c :: after := hl ▸ mem_compartmentsDown c'
    rcases List.mem_append.mp hmem with hb | ha
    · simpa using hbefore c' hb
    · rw [hl] at hsorted
      rcases List.mem_cons.mp ha with rfl | ha
      · exact absurd hlt (Fin.lt_irrefl _)
      · exact absurd hlt (Fin.lt_asymm ((List.pairwise_cons.mp (List.pairwise_append.mp hsorted).2.1).1 c' ha))
  · obtain ⟨before, after, hl⟩ := List.append_of_mem (mem_compartmentsDown c)
    rw [hl] at hsorted
    exact ⟨before, after, hl, fun a ha => by
      simpa using h a ((List.pairwise_append.mp hsorted).2.2 a ha c List.mem_cons_self)⟩

theorem compOf_eq_some_iff (cfg : StationConfig) (j : Nat) (c : Compartment) : compOf cfg j = some c ↔
    ∃ lo, cfg.compMap.get c = some lo ∧ lo ≤ j ∧ ∀ c' lo', c < c' → cfg.compMap.get c' = some lo' → j < lo' := by
  rw [compOf, find?_compartmentsDown]
  constructor
  · rintro ⟨hc, habove⟩
    cases hlo : cfg.compMap.get c with
    | none => simp [hlo] at hc
    | some lo =>
      refine ⟨lo, rfl, by simpa [hlo] using hc, fun c' lo' hlt hlo' => ?_⟩
      simpa [hlo'] using habove c' hlt
  · rintro ⟨lo, hlo, hle, habove⟩
    refine ⟨by simpa [hlo] using hle, fun c' hlt => ?_⟩
    cases hlo' : cfg.compMap.get c' with
    | none => rfl
    | some lo' => simpa using habove c' lo' hlt hlo'

theorem isBoundary_iff (cfg : StationConfig) (j : Nat) : isBoundary cfg j = true ↔
    ∃ c, cfg.compMap.get c = some j ∧ compOf cfg 0 ≠ some c := by
  simp [isBoundary, mem_compartmentsDown, @eq_comm _ (compOf cfg 0)]

/-! ## Routes (R109, R115) -/

theorem segClear_iff (s : State) (j : Nat) : segClear s.cfg s.fire j = true ↔
    ∀ c, compOf s.cfg j = some c → (s.fire.alarms.get c).alarmed = false := by
  unfold segClear
  cases h : compOf s.cfg j <;> simp [Fire.alarmed]

theorem showsOpen_iff (s : State) (b : Nat) : showsOpen s b = true ↔
    if b = s.cfg.segment then ∃ x, s.fire.shutter = some x ∧ x.state = .isOpen
    else ∃ w t, tblGet s.line.neighbours b = some (w, t) ∧ w.toNat / 8 % 4 = 1 := by
  unfold showsOpen
  split
  · unfold Fire.shutterOpen
    cases s.fire.shutter <;> simp
  · cases tblGet s.line.neighbours b with
    | none => simp
    | some e => simp [shutterField, Prod.ext_iff]

/-- A span is open where every segment of it is clear and every boundary in it shows OPEN. -/
theorem spanOpen_iff (s : State) (lo hi : Nat) : spanOpen s lo hi = true ↔ ∀ j, lo ≤ j → j ≤ hi →
    segClear s.cfg s.fire j = true ∧ (lo < j → isBoundary s.cfg j = true → showsOpen s j = true) := by
  simp only [spanOpen, List.all_eq_true, List.mem_range, Bool.or_eq_true, Bool.and_eq_true, decide_eq_true_eq, beq_iff_eq,
    Bool.not_eq_true']
  constructor
  · intro h j hlo hhi
    obtain hlt | ⟨hclear, hcross⟩ := h j (by omega)
    · omega
    · refine ⟨hclear, fun hlt hb => ?_⟩
      obtain (heq | hnot) | hshows := hcross
      · omega
      · simp [hb] at hnot
      · exact hshows
  · intro h j hj
    by_cases hlt : j < lo
    · exact .inl hlt
    · obtain ⟨hclear, hcross⟩ := h j (by omega) (by omega)
      refine .inr ⟨hclear, ?_⟩
      by_cases heq : j = lo
      · exact .inl (.inl heq)
      · cases hb : isBoundary s.cfg j with
        | false => exact .inl (.inr rfl)
        | true => exact .inr (hcross (by omega) hb)

/-- A crossing is open where every boundary in it shows OPEN with no alarm beside it. -/
theorem crossingOpen_iff (s : State) (lo hi : Nat) : crossingOpen s lo hi = true ↔ ∀ b, lo < b → b ≤ hi →
    isBoundary s.cfg b = true → showsOpen s b = true ∧ segClear s.cfg s.fire b = true ∧ segClear s.cfg s.fire (b - 1) = true := by
  simp only [crossingOpen, List.all_eq_true, List.mem_range, Bool.or_eq_true, Bool.and_eq_true, decide_eq_true_eq,
    Bool.not_eq_true']
  constructor
  · intro h b hlo hhi hb
    obtain (hle | hnot) | ⟨⟨hshows, habove⟩, hbelow⟩ := h b (by omega)
    · omega
    · simp [hb] at hnot
    · exact ⟨hshows, habove, hbelow⟩
  · intro h b hb
    by_cases hle : b ≤ lo
    · exact .inl (.inl hle)
    · cases hbound : isBoundary s.cfg b with
      | false => exact .inl (.inr rfl)
      | true =>
        obtain ⟨hshows, habove, hbelow⟩ := h b (by omega) (by omega) hbound
        exact .inr ⟨⟨hshows, habove⟩, hbelow⟩

/-! ## The route test (R74, R137) -/

/-- Of calls that have no CLAIM queued no reservation goes. -/
theorem closeCalls_of_unclaimed {v : State} (hinv : CallsInv v) {p : CallState → Bool}
    (hp : ∀ st, p st = true → st ≠ .claimQueued) : closeCalls p v = { v with
      line := { v.line with queue := v.line.queue.filter fun f => !(f.onLine.isNone && (v.placement.calls.filter fun x => p x.state).any
        fun x => x.state == .bidQueued && (f.owner == .bid x.call || f.owner == .claim x.call)) }
      dir := (v.placement.calls.filter fun x => p x.state).foldl heldReleased v.dir
      placement := { v.placement with calls := v.placement.calls.filter fun x => !p x.state } } := by
  have hstate (x : CallEntry) (hx : x ∈ v.placement.calls.filter fun x => p x.state) : x.state ≠ .claimQueued :=
    hp _ (List.mem_filter.mp hx).2
  have hframes (f : TxFrame) : ((v.placement.calls.filter fun x => p x.state).any fun x => closesFrame x f) =
      (f.onLine.isNone && (v.placement.calls.filter fun x => p x.state).any fun x =>
        x.state == .bidQueued && (f.owner == .bid x.call || f.owner == .claim x.call)) := by
    rw [any_closesFrame]
    refine congrArg _ (Bool.eq_iff_iff.mpr ?_)
    simp only [List.any_eq_true]
    exact exists_congr fun x => and_congr_right fun hx => by rw [beq_eq_false_iff_ne.mpr (hstate x hx), Bool.or_false]
  have hreserved : (v.placement.calls.filter fun x => p x.state).foldl claimUnreserved v.planner.reservations
      = v.planner.reservations :=
    foldl_same (fun l x hx => claimUnreserved_of_not_queued (hstate x hx) l) _
  rw [closeCalls_eq hinv]
  simp only [hframes, hreserved]

theorem retestRoute_of_same {s : State} (h : downOpen s = s.spine.routeOpen) : retestRoute s = s := if_pos h

theorem retestRoute_of_opened {s : State} (hnow : downOpen s = true) (hwas : s.spine.routeOpen = false) : retestRoute s =
    reportRoute true { s with spine := { s.spine with routeOpen := true } } := by
  unfold retestRoute
  rw [if_neg (by simp [hnow, hwas]), hnow]
  rfl

theorem retestRoute_of_closed {s : State} (hnow : downOpen s = false) (hwas : s.spine.routeOpen = true) : retestRoute s =
    closeCalls CallState.closesWithRoute (reportRoute false { s with spine := { s.spine with routeOpen := false } }) := by
  unfold retestRoute
  rw [if_neg (by simp [hnow, hwas]), hnow]
  rfl

end Sys2Proof.Machine

namespace Sys2Proof.Proofs
open Sys2Proof Sys2Proof.Machine Sys2Proof.Safety

/-- Settles O21: the mode is a function of alarms, SAFE report, stock end and STOP; its change acts on the open calls and the crane
alone. -/
theorem modeDerived : Obligations.ModeDerived := by
  refine ⟨fun s => ⟨?_, deriveMode_of_same, deriveMode_fire s, congrArg Spine.routeOpen (deriveMode_spine s), rfl⟩,
    fun old s => ⟨leaveWorking_of_stays, enterFire_of_stays, fun ho hm => if_pos (by simp [ho, hm]), fun ho hm hinv => ?_⟩,
    fun s => ⟨fun m hm => ?_, fun hs => ⟨craneEntersFire_of_idle hs, fun m => craneEntersFire_of_holding hs,
      fun m t h hm hk ht => ⟨fun hle => ?_, fun hlt => ?_⟩, craneEntersFire_of_rest hs⟩⟩⟩
  · rw [deriveMode_mode, newMode_eq]
  · intro closing held reserved
    have hheld : held = heldReleased := funext fun d => funext fun x => by
      cases hown : x.own <;> simp only [held, heldReleased, hown]
    have hreserved : reserved = claimUnreserved := funext fun l => funext fun x => by
      cases hown : x.own <;> simp only [reserved, claimUnreserved, hown]
    rw [leaveWorking, if_pos (by simp [ho, hm]), closeCalls_eq hinv, hheld, hreserved]
    simp only [any_closesFrame, bne, Bool.not_not]
    rfl
  · intro empty
    refine ⟨(craneEntersFire_discardStaged s).symm, fun hb => ?_, fun n hb hk hn => ?_, fun hb hk hst => ?_⟩
    · rw [discardStaged_of_some hm, if_pos hb]
    · rw [discardStaged_of_some hm, if_neg (by simp [hb]), hk, hn]
      rfl
    · rw [discardStaged_of_some hm, if_neg (by simp [hb]), hk]
      exact if_pos hst
  · rw [craneEntersFire_of_moving hs h hm hk ht, if_pos hle]
  · rw [craneEntersFire_of_moving hs h hm hk ht, if_neg (Nat.not_le_of_lt hlt)]

/-- Settles O22: the routes are spans of clear segments and open boundaries, and the test acts on a change alone. -/
theorem routeRetested : Obligations.RouteRetested := by
  refine ⟨fun s r => ?_, fun s => ⟨?_, compOf_eq_some_iff s.cfg, isBoundary_iff s.cfg, retestRoute_of_same, fun hnow hwas => ?_,
    fun hnow hwas hinv => ?_⟩⟩
  · intro quiet shown
    have hquiet (j : Nat) : segClear s.cfg s.fire j = true ↔ quiet j := segClear_iff s j
    have hshown (b : Nat) : showsOpen s b = true ↔ shown b := showsOpen_iff s b
    refine ⟨fun d hd => ?_, fun hhome => ?_, fun sender => ?_⟩
    · rw [routeOpenFor, hd]
    · rw [routeOpenFor, hhome]
      simp only [upOpen, Bool.or_eq_true, beq_iff_eq, spanOpen_iff, hquiet, hshown]
    · simp only [offerBoundary, isDeskStation, Bool.or_eq_true, Bool.and_eq_true, decide_eq_true_eq, crossingOpen_iff, hquiet,
        hshown]
  · rw [downOpen, spanOpen_iff]
    simp only [segClear_iff, showsOpen_iff]
    refine forall_congr' fun j => ?_
    split <;> simp [*]
  · rw [retestRoute_of_opened hnow hwas]
    rfl
  · intro stays closing held
    have hstays : CallState.closesWithRoute = fun st => !stays st := funext fun st => by cases st <;> rfl
    have hheld : held = heldReleased := funext fun d => funext fun x => by
      cases hown : x.own <;> simp only [held, heldReleased, hown]
    have hinv' : CallsInv (reportRoute false { s with spine := { s.spine with routeOpen := false } }) :=
      ⟨hinv.calls, hinv.distinct, hinv.cursor⟩
    rw [retestRoute_of_closed hnow hwas, closeCalls_of_unclaimed hinv' (fun st hst => by rintro rfl; cases hst), hstays, hheld]
    simp only [Bool.not_not]
    rfl

end Sys2Proof.Proofs
end

