-- ==== Sys2Proof/Proofs/Offers.lean ====
section
/-! PROOFS. An OFFER heard: the six tests, one after the other, and what an acceptance or a refusal leaves (R76, R111, R115, R116). -/

namespace Sys2Proof.Machine
open Sys2Proof Safety

section
variable {u : State} {sender : Nat} {r : TravelRecord} {l : Lane}

/-! ## The place an OFFER is for (R115, test 1) -/

theorem offerLaneOf_desk {cfg : StationConfig} {d : Desk} (hd : r.dest = .desk d) :
    offerLaneOf cfg sender r = if sender = cfg.up then some .down else none := by
  rw [offerLaneOf, hd]

theorem offerLaneOf_home {cfg : StationConfig} (hd : r.dest = .home) : offerLaneOf cfg sender r =
    if sender = cfg.down ∨ cfg.down = 63 ∧ 48 ≤ sender ∧ sender ≤ 55 then some .up else none := by
  rw [offerLaneOf, hd]
  simp only [isDeskStation, Bool.and_eq_true, decide_eq_true_eq]

/-! ## The tests in order -/

theorem hearOffer_of_no_lane (hl : offerLaneOf u.cfg sender r = none) : hearOffer sender r u = (false, u) := by
  rw [hearOffer, hl]

theorem hearOffer_of_boundary (hb : offerBoundary u sender = false) : hearOffer sender r u = (false, u) := by
  unfold hearOffer
  split
  · rfl
  · rw [hb]
    rfl

theorem hearOffer_of_not_through (hl : offerLaneOf u.cfg sender r = some l) (hb : offerBoundary u sender = true)
    (ht : offerThrough u.cfg r = false) : hearOffer sender r u = (false, u) := by
  simp only [hearOffer, hl, hb, ht]
  rfl

theorem hearOffer_of_no_room (hl : offerLaneOf u.cfg sender r = some l) (hb : offerBoundary u sender = true)
    (ht : offerThrough u.cfg r = true) (hr : offerRoom u sender l r = false) : hearOffer sender r u = (false, noRoom l r u) := by
  simp only [hearOffer, hl, hb, ht, hr]
  rfl

theorem hearOffer_of_merge (hl : offerLaneOf u.cfg sender r = some l) (hb : offerBoundary u sender = true)
    (ht : offerThrough u.cfg r = true) (hr : offerRoom u sender l r = true) (hm : offerMerge u l = false) :
    hearOffer sender r u = (false, mergeWins u) := by
  simp only [hearOffer, hl, hb, ht, hr, hm]
  rfl

theorem hearOffer_of_accepted (hl : offerLaneOf u.cfg sender r = some l) (hb : offerBoundary u sender = true)
    (ht : offerThrough u.cfg r = true) (hr : offerRoom u sender l r = true) (hm : offerMerge u l = true)
    (ha : offerAdopts u r = false) : hearOffer sender r u = (true, acceptOffer l sender r u) := by
  simp only [hearOffer, hl, hb, ht, hr, hm, ha]
  rfl

/-- An OFFER that an adoption would follow is accepted where a slot is found. -/
theorem hearOffer_of_adoption {cfg : StationConfig} (hc : u.cfg = cfg) (hl : offerLaneOf u.cfg sender r = some l)
    (hb : offerBoundary u sender = true) (ht : offerThrough u.cfg r = true) (hr : offerRoom u sender l r = true)
    (hm : offerMerge u l = true) (ha : offerAdopts u r = true) : hearOffer sender r u =
      if (u.dir.adoptSlot cfg r).isSome = true
      then (true, acceptOffer l sender r { u with limited := u.limited || u.dir.adoptHeld cfg r })
      else (false, { u with limited := u.limited || u.dir.adoptHeld cfg r }) := by
  subst hc
  simp only [hearOffer, hl, hb, ht, hr, hm, ha]
  rfl

/-! ## What is left -/

section
variable {cfg : StationConfig} {now : Time} (hc : u.cfg = cfg) (hn : u.clock = now)
include hc hn

theorem acceptOffer_down : acceptOffer .down sender r u = { u with spine := { u.spine with
    down := .reserved, inDown := some ⟨r.bin, sender, ⟨now, cfg.transferLimit * 1000⟩, some r⟩, driveDown := true
    lastGrant := .upNeighbour, waiting := false, kept := false, mergeWait := none } } := by
  subst hc hn
  rfl

theorem acceptOffer_up : acceptOffer .up sender r u = { u with spine := { u.spine with
    up := .reserved, inUp := some ⟨r.bin, sender, ⟨now, cfg.transferLimit * 1000⟩, some r⟩, driveUp := true } } := by
  subst hc hn
  rfl

theorem mergeWins_of_holding {x : TravelRecord} (hp : u.spine.portOut = .holding x) : mergeWins u = { u with spine := { u.spine with
    down := .reserved, inDown := some ⟨x.bin, cfg.station, ⟨now, cfg.transferLimit * 1000⟩, none⟩
    lastGrant := .portOut, waiting := true, kept := false, drivePortOut := true, driveDown := true } } := by
  subst hc hn
  have hport : (u.setSpine { u.spine with waiting := true }).spine.portOut.record? = some x := congrArg PlaceState.record? hp
  rw [mergeWins, grantPortOut, hport]
  rfl

end

/-! ## The bin's way (R115, tests 3 to 5) -/

theorem boundHere_desk {cfg : StationConfig} {d : Desk} (hd : r.dest = .desk d) : boundHere cfg r = false := by
  simp [boundHere, hd]

theorem boundHere_home {cfg : StationConfig} (hd : r.dest = .home) : boundHere cfg r = decide (r.home = cfg.station) := by
  rw [Bool.eq_iff_iff]
  simp [boundHere, hd]

theorem offerThrough_desk {cfg : StationConfig} {d : Desk} (hd : r.dest = .desk d) : offerThrough cfg r = true := by
  simp [offerThrough, hd]

theorem offerThrough_home {cfg : StationConfig} (hd : r.dest = .home) : offerThrough cfg r = true ↔
    r.home = cfg.station ∨ cfg.up ≠ 63 ∧ cfg.segment < r.home := by
  simp [offerThrough, hd]

/-- DOWN has room where it is EMPTY and not kept for another. -/
theorem offerRoom_desk {d : Desk} (hd : r.dest = .desk d) : offerRoom u sender .down r = true ↔
    u.spine.down = .empty ∧ (u.spine.kept = true → sender = u.cfg.up) := by
  have hlane : u.spine.lane .down = u.spine.down := rfl
  rw [offerRoom, boundHere_desk hd, hlane]
  cases u.spine.kept <;> simp

theorem offerRoom_here (hd : r.dest = .home) (hh : r.home = u.cfg.station) : offerRoom u sender l r = true ↔
    u.spine.up = .empty ∧ u.spine.portIn = .empty := by
  simp [offerRoom, boundHere_home hd, hh]

theorem offerRoom_through (hd : r.dest = .home) (hh : r.home ≠ u.cfg.station) : offerRoom u sender .up r = true ↔
    u.spine.up = .empty := by
  have hlane : u.spine.lane .up = u.spine.up := rfl
  simp [offerRoom, boundHere_home hd, hh, hlane]

theorem offerMerge_down : offerMerge u .down = true ↔ portOutReady u = false ∨ u.spine.lastGrant ≠ .upNeighbour := by
  cases h : portOutReady u <;> simp [offerMerge, h]

theorem offerAdopts_home (hd : r.dest = .home) : offerAdopts u r = true ↔ r.home = u.cfg.station ∧ u.dir.bin r.bin = none := by
  simp [offerAdopts, boundHere_home hd]

theorem noRoom_here (hd : r.dest = .home) (hh : r.home = u.cfg.station) : noRoom l r u = { u with
    planner := { u.planner with mark := u.planner.mark || u.planner.stow == .ready || u.planner.stow == .staged } } := by
  unfold noRoom
  have hmark : (u.planner.mark || u.planner.stow == .ready || u.planner.stow == .staged) =
      if u.planner.stow = .ready ∨ u.planner.stow = .staged then true else u.planner.mark := by
    cases u.planner.stow <;> cases u.planner.mark <;> rfl
  rw [if_pos (by rw [boundHere_home hd]; exact decide_eq_true hh), promoteStow, hmark]
  split <;> rfl

theorem noRoom_through (hd : r.dest = .home) (hh : r.home ≠ u.cfg.station) : noRoom .up r u = u := by
  unfold noRoom
  rw [if_neg (by rw [boundHere_home hd]; exact fun h => hh (of_decide_eq_true h))]

theorem noRoom_desk {d : Desk} (hd : r.dest = .desk d) : noRoom .down r u = { u with spine := { u.spine with waiting := true } } := by
  unfold noRoom
  rw [if_neg (by rw [boundHere_desk hd]; exact Bool.false_ne_true)]
  rfl

theorem applyItem_offer {h : Header} {accepted : Bool} {v : State} (hv : hearOffer h.sender r u = (accepted, v)) :
    applyItem h (.offer r) u = (if accepted then .taken else .refused, v) := by
  simp only [applyItem, hv]

end

end Sys2Proof.Machine

namespace Sys2Proof.Proofs
open Sys2Proof Sys2Proof.Machine Sys2Proof.Safety

/-- Settles O35: each OFFER passes the six tests in order. -/
theorem offerAccepted : Obligations.OfferAccepted := by
  intro p h r rest s hr hw e handoff intoUp fromBelow hb
  have accepted {v : State} (hv : hearOffer h.sender r e = (true, v)) :
      exec (.offer p h r rest) s = .next (follow s h rest took v) :=
    exec_admitted (c := .offer p h r rest) rfl hr rfl rfl rfl (gate_of_working hw _) (applyItem_offer hv)
  have hcfg : e.cfg = s.cfg := entered_cfg p h s
  have hclock : e.clock = s.clock := entered_clock p h s
  have below (hd : r.dest = .home) (hs : fromBelow) : offerLaneOf e.cfg h.sender r = some .up := by
    rw [hcfg, offerLaneOf_home hd, if_pos hs]
  have here (hd : r.dest = .home) (hh : r.home = s.cfg.station) : offerThrough e.cfg r = true :=
    (offerThrough_home hd).mpr (.inl (hcfg ▸ hh))
  refine ⟨fun d hd hs hdown hm => accepted ?_, fun hd hs hh hup63 hseg hempty => accepted ?_,
    fun hd hs hh hempty hport => ⟨fun hbin => accepted ?_, fun hbin hslot => accepted ?_⟩⟩
  · rw [hearOffer_of_accepted ((offerLaneOf_desk hd).trans (if_pos (hcfg ▸ hs))) hb (offerThrough_desk hd)
      ((offerRoom_desk hd).mpr ⟨hdown, fun _ => hcfg ▸ hs⟩) (offerMerge_down.mpr (hm.imp id fun h => by rw [h]; decide))
      (by simp [offerAdopts, boundHere_desk hd]), acceptOffer_down hcfg hclock]
  · have hh' : r.home ≠ e.cfg.station := hcfg ▸ hh
    rw [hearOffer_of_accepted (below hd hs) hb ((offerThrough_home hd).mpr (.inr (hcfg ▸ ⟨hup63, hseg⟩)))
      ((offerRoom_through hd hh').mpr hempty) rfl (Bool.eq_false_iff.mpr fun h => hh' ((offerAdopts_home hd).mp h).1),
      acceptOffer_up hcfg hclock]
  · have hknown : offerAdopts e r = false :=
      Bool.eq_false_iff.mpr fun h => by simp [((offerAdopts_home hd).mp h).2] at hbin
    rw [hearOffer_of_accepted (below hd hs) hb (here hd hh) ((offerRoom_here hd (hcfg ▸ hh)).mpr ⟨hempty, hport⟩) rfl hknown,
      acceptOffer_up hcfg hclock]
  · rw [hearOffer_of_adoption hcfg (below hd hs) hb (here hd hh) ((offerRoom_here hd (hcfg ▸ hh)).mpr ⟨hempty, hport⟩) rfl
      ((offerAdopts_home hd).mpr ⟨hcfg ▸ hh, hbin⟩), if_pos hslot]
    exact congrArg (Prod.mk true)
      (acceptOffer_up (u := { e with limited := e.limited || e.dir.adoptHeld s.cfg r }) hcfg hclock)

/-- Settles O36: the first test that an OFFER fails, and what its refusal leaves. -/
theorem offerRefused : Obligations.OfferRefused := by
  intro p h r rest s hr hw e answer fromBelow
  have refused' {v : State} (hv : hearOffer h.sender r e = (false, v)) : exec (.offer p h r rest) s = answer v :=
    exec_admitted (c := .offer p h r rest) rfl hr rfl rfl rfl (gate_of_working hw _) (applyItem_offer hv)
  have hcfg : e.cfg = s.cfg := entered_cfg p h s
  have above {d : Desk} (hd : r.dest = .desk d) (hs : h.sender = s.cfg.up) : offerLaneOf e.cfg h.sender r = some .down := by
    rw [hcfg, offerLaneOf_desk hd, if_pos hs]
  have below (hd : r.dest = .home) (hs : fromBelow) : offerLaneOf e.cfg h.sender r = some .up := by
    rw [hcfg, offerLaneOf_home hd, if_pos hs]
  have here (hd : r.dest = .home) (hh : r.home = s.cfg.station) : offerThrough e.cfg r = true :=
    (offerThrough_home hd).mpr (.inl (hcfg ▸ hh))
  have adopts (hd : r.dest = .home) (hs : fromBelow) (hh : r.home = s.cfg.station) (hempty : e.spine.up = .empty)
      (hport : e.spine.portIn = .empty) (hbin : e.dir.bin r.bin = none) (hslot : e.dir.adoptSlot s.cfg r = none)
      (hb : offerBoundary e h.sender = true) :
      hearOffer h.sender r e = (false, { e with limited := e.limited || e.dir.adoptHeld s.cfg r }) := by
    rw [hearOffer_of_adoption hcfg (below hd hs) hb (here hd hh) ((offerRoom_here hd (hcfg ▸ hh)).mpr ⟨hempty, hport⟩) rfl
      ((offerAdopts_home hd).mpr ⟨hcfg ▸ hh, hbin⟩), hslot]
    rfl
  refine ⟨fun d hd hs => refused' (hearOffer_of_no_lane ?_), fun hd hs => refused' (hearOffer_of_no_lane ?_),
    fun hb => refused' (hearOffer_of_boundary hb), fun hb => ⟨fun d hd hs hdown => refused' ?_,
      fun d x hd hs hdown hport hroute hgrant => refused' ?_, fun hd hs hh hnot => refused' ?_,
      fun hd hs hh hup hseg hfull => refused' ?_, fun hd hs hh hfull => refused' ?_,
      fun hd hs hh hempty hport hbin hslot => refused' (adopts hd hs hh hempty hport hbin hslot hb),
      fun hd hs hh hempty hport hbin => refused' ?_⟩, fun u sender d hd => offerRoom_desk hd⟩
  · rw [hcfg, offerLaneOf_desk hd, if_neg hs]
  · rw [hcfg, offerLaneOf_home hd, if_neg hs]
  · rw [hearOffer_of_no_room (above hd hs) hb (offerThrough_desk hd)
      (Bool.eq_false_iff.mpr fun h => hdown ((offerRoom_desk hd).mp h).1), noRoom_desk hd]
  · have hready : portOutReady e = true := by simp [portOutReady, PlaceState.record?, hport, hroute, e, hw]
    have hmerge : offerMerge e .down = false := by simp [offerMerge, hready, hgrant]
    rw [hearOffer_of_merge (above hd hs) hb (offerThrough_desk hd) ((offerRoom_desk hd).mpr ⟨hdown, fun _ => hcfg ▸ hs⟩) hmerge,
      mergeWins_of_holding hcfg (entered_clock p h s) hport]
  · refine hearOffer_of_not_through (below hd hs) hb (Bool.eq_false_iff.mpr fun ht => ?_)
    rcases (offerThrough_home hd).mp ht with hh' | ⟨hup, hseg⟩
    · exact hh (hcfg ▸ hh')
    · rw [hcfg] at hup hseg
      exact hnot.elim hup (Nat.not_le_of_lt hseg)
  · have hh' : r.home ≠ e.cfg.station := hcfg ▸ hh
    rw [hearOffer_of_no_room (below hd hs) hb ((offerThrough_home hd).mpr (.inr (hcfg ▸ ⟨hup, hseg⟩)))
      (Bool.eq_false_iff.mpr fun h => hfull ((offerRoom_through hd hh').mp h)), noRoom_through hd hh']
  · have hh' : r.home = e.cfg.station := hcfg ▸ hh
    rw [hearOffer_of_no_room (below hd hs) hb (here hd hh)
      (Bool.eq_false_iff.mpr fun h => hfull.elim (· ((offerRoom_here hd hh').mp h).1) (· ((offerRoom_here hd hh').mp h).2)),
      noRoom_here hd hh']
  · rw [adopts hd hs hh hempty hport (by simp [Directory.bin, hbin]) (by simp [Directory.adoptSlot, hbin]) hb,
      show Directory.adoptHeld s.cfg e.dir r = false by simp [Directory.adoptHeld, hbin], Bool.or_false]

end Sys2Proof.Proofs
end

