-- ==== Sys2Proof/Proofs/Handed.lean ====
section
/-! PROOFS. A TAKEN heard and the visit it completes, and the two FAULTs that a station acts on (R83, R119, R120, R144, R145). -/

namespace Sys2Proof.Machine
open Sys2Proof Safety

/-! ## Requests told (R83, R182) -/

/-- The QUEUED requests of a visit, with their references. -/
theorem withRefs_queuedOf (pl : Planner) (v : Visit) : pl.withRefs (pl.queuedOf v) = v.requests.filterMap fun id =>
    (tblGet pl.pool id).bind fun r => if r.state = .queued then some (id, r.ref) else none := by
  unfold Planner.withRefs Planner.queuedOf
  induction v.requests with
  | nil => rfl
  | cons id ids ih =>
    cases hr : tblGet pl.pool id with
    | none =>
      have hq : pl.queued id = false := by simp [Planner.queued, hr]
      rw [List.filter_cons_of_neg (by simp [hq]), ih, List.filterMap_cons_none (by simp [hr])]
    | some r =>
      by_cases hs : r.state = .queued
      · have hq : pl.queued id = true := by simp [Planner.queued, hr, hs]
        rw [List.filter_cons_of_pos hq, List.map_cons, ih, List.filterMap_cons_some (by simp [hr, hs]; rfl)]
        simp [hr]
      · have hq : pl.queued id = false := by simp [Planner.queued, hr, hs]
        rw [List.filter_cons_of_neg (by simp [hq]), ih, List.filterMap_cons_none (by simp [hr, hs])]

theorem completeVisit_eq (v : Visit) (u : State) :
    let queued := v.requests.filterMap fun id => (tblGet u.planner.pool id).bind fun r =>
      if r.state = .queued then some (id, r.ref) else none
    let told := if queued = [] then u
      else notice (.requestDone (.head v.bin (some v.desk) 0) :: queued.map fun r => .requestDone (.request r.1 r.2)) u
    completeVisit v u = { told with planner := { u.planner with
      visits := u.planner.visits.filter fun w => w.number != v.number
      pool := v.requests.foldl (fun pool id => tblErase id pool) u.planner.pool } } := by
  intro queued told
  unfold completeVisit
  rw [withRefs_queuedOf]
  simp only [List.isEmpty_iff, told, queued]
  split <;> rfl

/-! ## The lanes of a TAKEN (R119) -/

/-- The lane stands EMPTY. -/
def emptyLane : Lane → Spine → Spine
  | .down, sp => { sp with down := .empty }
  | .up, sp => { sp with up := .empty }

/-- The lane stands EMPTY, its transfer out ended and its drive still. -/
def endTransferOut : Lane → Spine → Spine
  | .down, sp => { sp with down := .empty, outDown := none, driveDown := false }
  | .up, sp => { sp with up := .empty, outUp := none, driveUp := false }

/-- The spine of a station once a lane has looked at a TAKEN. -/
theorem takenLane_eq {own : Nat} {p : Pins} {u : State} (hc : u.cfg.station = own) (hp : u.pins = p) (l : Lane) (b : TakenBody) :
    takenLane l b u = { u with spine := match (u.spine.out l).filter fun x => x.peer != own with
      | some x => if x.bin = b.bin ∧ x.peer = b.taker then endTransferOut l u.spine else u.spine
      | none => match u.spine.lane l with
        | .blocked _ (some lost) =>
          if lost = (b.bin, b.taker) ∧ (laneSensors p l).entry = false ∧ (laneSensors p l).position = false
          then emptyLane l u.spine else u.spine
        | _ => u.spine } := by
  subst hc hp
  have hext : outExternal u l = (u.spine.out l).filter fun x => x.peer != u.cfg.station := rfl
  have hempty : setLane l .empty u = { u with spine := emptyLane l u.spine } := by cases l <;> rfl
  have hend : driveLane l false (setOut l none { u with spine := emptyLane l u.spine })
      = { u with spine := endTransferOut l u.spine } := by cases l <;> rfl
  unfold takenLane
  rw [hext, hempty, hend]
  cases (u.spine.out l).filter fun x => x.peer != u.cfg.station with
  | some x =>
    dsimp only
    split <;> rfl
  | none =>
    cases u.spine.lane l with
    | empty | reserved | holding r => rfl
    | blocked kept lost =>
      cases lost with
      | none => rfl
      | some lost =>
        simp only [PlaceState.lostTo, PlaceSensors.readsEmpty, Bool.and_eq_true, Bool.not_eq_true', beq_iff_eq]
        split <;> rfl

/-- What a TAKEN shows of its bin's place, once the lanes have looked (log 19). -/
theorem hearTaken_eq (b : TakenBody) (u : State) : hearTaken b u =
    let v := takenLane .up b (takenLane .down b u)
    deskTakes b { v with dir := if 48 ≤ b.taker ∧ b.taker ≤ 55 then v.dir.locate b.bin (.desk (deskOf b.taker))
      else if 48 ≤ b.taker then v.dir
      else match b.place with
        | .down => v.dir.locate b.bin (.lane b.taker .down)
        | .up => v.dir.locate b.bin (.lane b.taker .up)
        | .none => v.dir } := by
  unfold hearTaken takenLocation
  generalize takenLane .up b (takenLane .down b u) = v
  simp only [isDeskStation, Bool.and_eq_true, decide_eq_true_eq]
  by_cases hdesk : 48 ≤ b.taker ∧ b.taker ≤ 55
  · rw [if_pos hdesk, if_pos hdesk]
    rfl
  · rw [if_neg hdesk, if_neg hdesk]
    by_cases hpanel : 48 ≤ b.taker
    · rw [if_pos hpanel, if_pos hpanel]
    · rw [if_neg hpanel, if_neg hpanel]
      cases b.place <;> rfl

theorem deskTakes_eq (b : TakenBody) (u : State) : deskTakes b u =
    match u.planner.visits.find? fun v => isDeskStation b.taker && v.bin == b.bin && v.desk == deskOf b.taker
      && v.state == .onSpine with
    | some v => completeVisit v u
    | none => u := by
  unfold deskTakes
  cases isDeskStation b.taker with
  | true => rfl
  | false =>
    have hnone : (u.planner.visits.find? fun v => false && v.bin == b.bin && v.desk == deskOf b.taker && v.state == .onSpine)
        = none := List.find?_eq_none.mpr fun v _ => by simp
    rw [hnone]
    rfl

/-! ## HANDOFF_LOST and BIN_CAUGHT heard (R120, R145) -/

theorem codeLane_eq_some_iff (code : Nat) (l : Lane) : codeLane code = some l ↔ code = l.place.num := by
  unfold codeLane
  cases l with
  | down => simp [Lane.place, PlaceCode.num]
  | up =>
    by_cases h4 : code = 4
    · simp [h4, Lane.place, PlaceCode.num]
    · simp [h4, Lane.place, PlaceCode.num]

section
variable {u : State} {sender : Nat} {b : FaultBody}

theorem hearHandoffLost_of_named {x : BinEntry} {l : Lane} {since : Time} (hx : u.dir.bin b.bin = some x)
    (hs : x.status = .out (.lane sender l) since) (hc : b.code = l.place.num) : hearHandoffLost sender b u =
      { u with dir := u.dir.setBin b.bin { x with status := .out .unknown since } } := by
  unfold hearHandoffLost
  simp only [(codeLane_eq_some_iff _ _).mpr hc, hx, hs, if_true, locateBin, Directory.locate]
  rfl

theorem hearHandoffLost_of_other (h : ∀ x l since, u.dir.bin b.bin = some x → x.status = .out (.lane sender l) since →
    b.code ≠ l.place.num) : hearHandoffLost sender b u = u := by
  unfold hearHandoffLost
  split
  · next l x hl hx =>
    split
    · next loc since hs =>
      refine if_neg ?_
      rintro rfl
      exact h x l since hx hs ((codeLane_eq_some_iff _ _).mp hl)
    · rfl
  · rfl

/-- The part that DOWN has in a bin caught at the up neighbour's shutter. -/
def downCaught (sender bin : Nat) (s : State) : State :=
  match inExternal s .down with
  | some h =>
    if h.bin = bin ∧ h.peer = sender then
      driveLane .down false (setIncoming .down none (setLane .down (if s.pins.down.readsEmpty then .empty else .blocked none none) s))
    else s
  | none => s

/-- The part that UP has in it. -/
def upCaught (sender bin : Nat) (s : State) : State :=
  match outExternal s .up with
  | some h => if h.bin = bin ∧ h.peer = sender then driveLane .up false (setOut .up none (setLane .up (.blocked none none) s)) else s
  | none => s

theorem downCaught_of_handoff {bin : Nat} (hs : sender ≠ u.cfg.station)
    (h : ∃ x, u.spine.inDown = some x ∧ x.bin = bin ∧ x.peer = sender) : downCaught sender bin u = { u with spine := { u.spine with
      down := if u.pins.down.entry = true ∨ u.pins.down.position = true then .blocked none none else .empty
      inDown := none, driveDown := false } } := by
  obtain ⟨x, hx, hb, hp⟩ := h
  have hext : inExternal u .down = some x := inExternal_of_some hx (hp ▸ hs)
  have hreads : (if u.pins.down.readsEmpty = true then PlaceState.empty else .blocked none none) =
      if u.pins.down.entry = true ∨ u.pins.down.position = true then .blocked none none else .empty := by
    unfold PlaceSensors.readsEmpty
    cases u.pins.down.entry <;> cases u.pins.down.position <;> rfl
  unfold downCaught
  rw [hext]
  simp only [hb, hp, and_self, if_true, hreads]
  rfl

theorem downCaught_of_other {bin : Nat} (h : ¬ ∃ x, u.spine.inDown = some x ∧ x.bin = bin ∧ x.peer = sender) :
    downCaught sender bin u = u := by
  unfold downCaught
  split
  · next x hx => exact if_neg fun hm => h ⟨x, (Option.filter_eq_some_iff.mp hx).1, hm⟩
  · rfl

theorem upCaught_of_handoff {bin : Nat} (hs : sender ≠ u.cfg.station)
    (h : ∃ x, u.spine.outUp = some x ∧ x.bin = bin ∧ x.peer = sender) : upCaught sender bin u = { u with spine := { u.spine with
      up := .blocked none none, outUp := none, driveUp := false } } := by
  obtain ⟨x, hx, hb, hp⟩ := h
  have hext : outExternal u .up = some x := outExternal_of_some hx (hp ▸ hs)
  unfold upCaught
  rw [hext]
  simp only [hb, hp, and_self, if_true]
  rfl

theorem upCaught_of_other {bin : Nat} (h : ¬ ∃ x, u.spine.outUp = some x ∧ x.bin = bin ∧ x.peer = sender) :
    upCaught sender bin u = u := by
  unfold upCaught
  split
  · next x hx => exact if_neg fun hm => h ⟨x, (Option.filter_eq_some_iff.mp hx).1, hm⟩
  · rfl

theorem ofKind_of_kind {b : FaultBody} {k : FaultKind} (h : b.kind = k) : ofKind k b = b := by
  subst h
  rfl

end

end Sys2Proof.Machine

namespace Sys2Proof.Proofs
open Sys2Proof Sys2Proof.Machine Sys2Proof.Safety

/-- Settles O37: the two lanes, the bin's location and the visit at the desk, one after the other. -/
theorem takenHeard : Obligations.TakenHeard := by
  refine ⟨fun p h b rest s hr => ?_, completeVisit_eq⟩
  intro e external down up u
  have hgate : gate s (.taken b) = .admitted := gate_of_columns hr.live (fun _ => rfl) rfl rfl rfl
  have hcfg : e.cfg.station = s.cfg.station := congrArg StationConfig.station (entered_cfg p h s)
  have hpins : e.pins = p := entered_pins p h s
  refine exec_admitted (c := .taken p h b rest) rfl hr rfl rfl rfl hgate (Prod.ext rfl ?_)
  change hearTaken b e = _
  have hdown : takenLane .down b e = { e with spine := down e.spine } := takenLane_eq hcfg hpins .down b
  have hup : takenLane .up b { e with spine := down e.spine } = { e with spine := up (down e.spine) } :=
    takenLane_eq (u := { e with spine := down e.spine }) hcfg hpins .up b
  rw [hearTaken_eq, hdown, hup]
  exact deskTakes_eq b u

/-- Settles O38: each FAULT acts on the bin's location, and a BIN_CAUGHT on the two handoffs with the up neighbour. -/
theorem faultsHeard : Obligations.FaultsHeard := by
  intro p h b rest s e
  have hcfg : e.cfg = s.cfg := entered_cfg p h s
  have answer {c : Instr} {v : State} (hr : Reaches h (.fault b :: rest) s)
      (hc : exec c s = .next (hear p h (.fault b :: rest) s)) (hv : hearFault h.sender b e = v) :
      exec c s = .next (follow s h rest unanswered v) :=
    exec_admitted hc hr rfl rfl rfl (gate_of_columns hr.live (fun _ => rfl) rfl rfl rfl) (hv ▸ rfl)
  refine ⟨fun hr hk => ?_, fun hr hk => ?_⟩
  · have hcmd : exec (.faultHandoffLost p h b rest) s = .next (hear p h (.fault b :: rest) s) :=
      congrArg (fun b => Host.Outcome.next (hear p h (.fault b :: rest) s)) (ofKind_of_kind hk)
    have hhear : hearFault h.sender b e = hearHandoffLost h.sender b e := by rw [hearFault, hk]
    exact ⟨fun x l since hx hs hc => answer hr hcmd (hhear.trans (hearHandoffLost_of_named hx hs hc)),
      fun hother => answer hr hcmd (hhear.trans (hearHandoffLost_of_other hother))⟩
  · intro caught
    have hcmd : exec (.faultBinCaught p h b rest) s = .next (hear p h (.fault b :: rest) s) :=
      congrArg (fun b => Host.Outcome.next (hear p h (.fault b :: rest) s)) (ofKind_of_kind hk)
    have hhear : hearFault h.sender b e = hearBinCaught h.sender b e := by rw [hearFault, hk]
    refine ⟨fun hs => answer hr hcmd (hhear.trans (if_neg (hcfg ▸ hs))), fun hs => ?_⟩
    intro matched emptied down up ends inDown outUp
    have hstation : h.sender ≠ caught.cfg.station := fun he => hr.other (he.trans (congrArg StationConfig.station hcfg))
    have hpins : caught.pins = p := entered_pins p h s
    have hlower {v : State} (hv : upCaught h.sender b.bin (downCaught h.sender b.bin caught) = v) :
        exec (.faultBinCaught p h b rest) s = .next (follow s h rest unanswered v) :=
      answer hr hcmd (hhear.trans ((if_pos (hs.trans (congrArg StationConfig.up hcfg.symm))).trans hv))
    have hin (hd : inDown) : downCaught h.sender b.bin caught = { caught with spine := down e.spine } := by
      rw [downCaught_of_handoff hstation hd, hpins]
    refine ⟨fun hd hu => hlower ?_, fun hd hu => hlower ?_, fun hd hu => hlower ?_, fun hd hu => hlower ?_⟩
    · rw [downCaught_of_other (u := caught) hd, upCaught_of_other (u := caught) hu]
      rfl
    · rw [hin hd]
      exact upCaught_of_other hu
    · rw [downCaught_of_other (u := caught) hd, upCaught_of_handoff hstation hu]
    · rw [hin hd]
      exact upCaught_of_handoff hstation hu

end Sys2Proof.Proofs
end

