-- ==== Sys2Proof/Proofs/CallFrames.lean ====
section
/-! PROOFS. The frames of the room auction heard, and the window of a call (R72, R88, R94 to R98). -/

namespace Sys2Proof.Machine
open Sys2Proof Safety

/-! ## A ROOM_CALL (R88) -/

theorem callTaken_iff (sender : Nat) (b : RoomCallBody) (u : State) : callTaken sender b u = true ↔
    sender = 48 + b.call.desk.val ∧ 1 ≤ b.volume ∧ b.volume ≤ 64 ∧ 1 ≤ b.mass ∧ b.mass ≤ 250
      ∧ (b.restricted = true → b.call.desk.val ∈ u.cfg.restrictedDesks) ∧ downOpen u = true ∧ u.crane.state ≠ .faulted
      ∧ u.placement.calls.length < 4 ∧ ∀ x, x ∈ u.placement.calls → x.call ≠ b.call := by
  have hrestricted : (!b.restricted || restrictedDesk u.cfg b.call.desk) = true ↔
      (b.restricted = true → b.call.desk.val ∈ u.cfg.restrictedDesks) := by
    cases b.restricted <;> simp [restrictedDesk]
  have hopen : (u.placement.entry b.call).isNone = true ↔ ∀ x, x ∈ u.placement.calls → x.call ≠ b.call := by
    simp [Placement.entry]
  simp only [callTaken, Bool.and_eq_true, decide_eq_true_eq, hrestricted, hopen, beq_iff_eq, bne_iff_ne, deskStation, and_assoc]

theorem newCall_eq {u : State} {now : Time} (hn : u.clock = now) (b : RoomCallBody) : newCall b u =
    { call := b.call, volume := b.volume, mass := b.mass, restricted := b.restricted, window := ⟨now, hold 50 2000 b.window⟩
      state := .waitingEval, own := none, best := none, writtenOff := false } := hn ▸ rfl

/-! ## A BID (R94) -/

theorem windowRuns_iff (st : CallState) : st.windowRuns = true ↔ st ≠ .claimQueued ∧ st ≠ .claimSent := by
  cases st <;> simp [CallState.windowRuns]

theorem beats_eq (a b : Nat × Nat) : beats a b = decide (a.1 < b.1 ∨ a.1 = b.1 ∧ a.2 < b.2) := by
  rw [Bool.eq_iff_iff]
  simp [beats]

theorem hearBid_eq (b : BidBody) (u : State) : hearBid b u = { u with
    placement := { u.placement with calls := u.placement.calls.map fun x : CallEntry =>
      if x.call = b.call ∧ x.state ≠ .claimQueued ∧ x.state ≠ .claimSent ∧ (match x.best with
        | none => true
        | some y => decide (b.cost < y.1 ∨ b.cost = y.1 ∧ b.station < y.2)) = true
      then { x with best := some (b.cost, b.station) } else x } } := by
  unfold hearBid Placement.modify
  refine congrArg (fun calls => u.setPlacement { u.placement with calls := calls }) (List.map_congr_left fun x _ => ?_)
  dsimp only
  by_cases hc : x.call = b.call
  · by_cases hr : x.state.windowRuns = true
    · have hw := (windowRuns_iff x.state).mp hr
      rw [if_pos hc, if_pos hr]
      cases hbest : x.best with
      | none => simp [hc, hw]
      | some y => simp [hc, hw, beats_eq]
    · rw [if_pos hc, if_neg hr, if_neg fun h => hr ((windowRuns_iff x.state).mpr ⟨h.2.1, h.2.2.1⟩)]
  · rw [if_neg hc, if_neg fun h => hc h.1]

/-! ## A CLAIM (R98) -/

/-- A call that another station claims closes, but for one with its own CLAIM on the line (log 9, log 22). -/
theorem hearClaim_eq (b : ClaimBody) (u : State) : hearClaim b u =
    match u.placement.calls.find? (fun y => y.call == b.call) with
    | none => u
    | some x => if x.state = .claimSent then u else { u with
      line := if x.state = .bidQueued ∨ x.state = .claimQueued then { u.line with queue := u.line.queue.filter fun f : TxFrame =>
        !(f.onLine.isNone && (f.owner == Owner.bid b.call || f.owner == Owner.claim b.call)) } else u.line
      dir := match x.own with
        | some (_, bin) => if x.writtenOff = true then u.dir else u.dir.releaseHold bin x.volume x.mass
        | none => u.dir
      planner := match x.own with
        | some (_, bin) => if x.state = .claimQueued
          then { u.planner with reservations := u.planner.reservations.erase (bin, b.call.desk) } else u.planner
        | none => u.planner
      placement := { u.placement with calls := u.placement.calls.filter fun y : CallEntry => y.call != b.call } } := by
  have hentry : u.placement.entry b.call = u.placement.calls.find? fun y => y.call == b.call := rfl
  unfold hearClaim
  rw [hentry]
  cases hx : u.placement.calls.find? fun y => y.call == b.call with
  | none => rfl
  | some x =>
    dsimp only
    by_cases hsent : x.state = .claimSent
    · rw [if_pos hsent, if_pos hsent]
    · rw [if_neg hsent, if_neg hsent, closeCall_of_entry (hentry.trans hx)]
      have hcall : x.call = b.call := entry_call (hentry.trans hx)
      have hline : { u.line with queue := u.line.queue.filter fun f => !closesFrame x f } =
          if x.state = .bidQueued ∨ x.state = .claimQueued then { u.line with queue := u.line.queue.filter fun f : TxFrame =>
            !(f.onLine.isNone && (f.owner == Owner.bid b.call || f.owner == Owner.claim b.call)) } else u.line := by
        by_cases hq : x.state = .bidQueued ∨ x.state = .claimQueued
        · have hstate : (x.state == .bidQueued || x.state == .claimQueued) = true := by simpa using hq
          simp only [if_pos hq, closesFrame, hstate, Bool.true_and, hcall]
        · have hstate : (x.state == .bidQueued || x.state == .claimQueued) = false := by simpa using hq
          simp only [if_neg hq, closesFrame, hstate, Bool.false_and, Bool.and_false, Bool.not_false, filter_of_true]
      rw [hline]
      cases hown : x.own with
      | none => simp only [heldReleased, claimUnreserved, hown]; rfl
      | some own =>
        obtain ⟨cost, bin⟩ := own
        simp only [heldReleased, claimUnreserved, hown, hcall]
        by_cases hq : x.state = .claimQueued
        · simp only [if_pos hq]
          rfl
        · simp only [if_neg hq]
          rfl

theorem takeClaims_claim {b : ClaimBody} {u : State} (hm : u.mode.working = true) (rest : List Item) :
    takeClaims (.claim b :: rest) u = takeClaims rest (hearClaim b u) := by
  have hgate : gate u (.claim b) = .admitted := gate_of_working hm _
  unfold takeClaims
  rw [List.foldl_cons]
  simp only [hgate, if_true]

theorem takeClaims_other {i : Item} {u : State} (h : u.mode.working = false ∨ ∀ b, i ≠ .claim b) (rest : List Item) :
    takeClaims (i :: rest) u = takeClaims rest u := by
  unfold takeClaims
  rw [List.foldl_cons]
  cases i with
  | claim b =>
    rcases h with hm | hi
    · simp only [gate_claim_of_not_working hm]
      rfl
    · exact absurd rfl (hi b)
  | _ => rfl

/-! ## The window (R95, R96) -/

theorem closesFrame_of_unqueued {x : CallEntry} (h : x.state ≠ .bidQueued ∧ x.state ≠ .claimQueued) (f : TxFrame) :
    closesFrame x f = false := by
  simp [closesFrame, h]

section
variable {u : State} {x : CallEntry} (hx : u.placement.entry x.call = some x)
include hx

/-- A call without a bid closes alone. -/
theorem closeCall_of_unbid (hs : x.state ≠ .bidQueued ∧ x.state ≠ .claimQueued) (ho : x.own = none) :
    closeCall x.call u = { u with placement := u.placement.remove x.call } := by
  rw [closeCall_of_entry hx]
  simp only [closesFrame_of_unqueued hs, Bool.not_false, filter_of_true, heldReleased, claimUnreserved, ho]

/-- A call whose BID was sent closes with its hold. -/
theorem closeCall_of_sent {cost bin : Nat} (hs : x.state ≠ .bidQueued ∧ x.state ≠ .claimQueued) (ho : x.own = some (cost, bin))
    (hw : x.writtenOff = false) : closeCall x.call u =
      { u with dir := u.dir.releaseHold bin x.volume x.mass, placement := u.placement.remove x.call } := by
  rw [closeCall_of_entry hx, claimUnreserved_of_not_queued hs.2]
  simp only [closesFrame_of_unqueued hs, Bool.not_false, filter_of_true, heldReleased, ho, hw]
  rfl

/-- A call whose BID is queued closes with BID and hold. -/
theorem closeCall_of_queued {cost bin : Nat} (hs : x.state = .bidQueued) (ho : x.own = some (cost, bin))
    (hw : x.writtenOff = false) : closeCall x.call u = { u with
      line := { u.line with queue := u.line.queue.filter fun f =>
        !(f.onLine.isNone && (f.owner == .bid x.call || f.owner == .claim x.call)) }
      dir := u.dir.releaseHold bin x.volume x.mass, placement := u.placement.remove x.call } := by
  rw [closeCall_of_entry hx, claimUnreserved_of_not_queued (by simp [hs])]
  simp only [closesFrame, heldReleased, ho, hw, hs]
  rfl

end

theorem beaten_iff {own cost bin : Nat} {x : CallEntry} (ho : x.own = some (cost, bin)) : beaten own x = true ↔
    ∃ y, x.best = some y ∧ (y.1 < cost ∨ y.1 = cost ∧ y.2 < own) := by
  unfold beaten
  rw [ho]
  cases x.best with
  | none => simp
  | some y => simp [beats_eq]

theorem beginClaim_of_fits {x : CallEntry} {u : State} {cost bin : Nat} (ho : x.own = some (cost, bin))
    (hf : roomPartFits u bin x.call.desk = true) : beginClaim x u = queueFrame
      (frameOf (.claim ⟨x.call, u.cfg.station, bin⟩) (48 + x.call.desk.val) (.claim x.call)) { u with
        planner := { u.planner with reservations := u.planner.reservations ++ [(bin, x.call.desk)] }
        placement := { u.placement with calls := u.placement.calls.map fun y : CallEntry =>
          if y.call = x.call then { y with state := .claimQueued } else y } } := by
  simp only [beginClaim, ho, hf]
  rfl

theorem beginClaim_of_not_fits {x : CallEntry} {u : State} {cost bin : Nat} (ho : x.own = some (cost, bin))
    (hf : roomPartFits u bin x.call.desk = false) : beginClaim x u = closeCall x.call u := by
  simp only [beginClaim, ho, hf]
  rfl

/-- A room part fits where none is before the port for the bin and desk, none is reserved, and the list has an entry free. -/
theorem roomPartFits_iff (u : State) (bin : Nat) (desk : Desk) : roomPartFits u bin desk = true ↔
    (∀ v, v ∈ u.planner.visits → v.bin = bin → v.desk = desk → v.state ≠ .atPort → v.state ≠ .onSpine → v.room = none)
      ∧ (bin, desk) ∉ u.planner.reservations ∧ u.planner.visits.length + u.planner.reservations.length < 24 := by
  have hbefore (st : VisitState) : st.beforePort = true ↔ st ≠ .atPort ∧ st ≠ .onSpine := by cases st <;> simp [VisitState.beforePort]
  have hvisits : (!u.planner.visits.any fun v => v.bin == bin && v.desk == desk && v.state.beforePort && v.room.isSome) = true ↔
      ∀ v, v ∈ u.planner.visits → v.bin = bin → v.desk = desk → v.state ≠ .atPort → v.state ≠ .onSpine → v.room = none := by
    simp only [Bool.not_eq_true', List.any_eq_false, Bool.and_eq_true, beq_iff_eq, hbefore, Option.isSome_iff_ne_none]
    refine forall₂_congr fun v _ => ⟨fun h hb hd h1 h2 => ?_, fun h ⟨⟨⟨hb, hd⟩, h1, h2⟩, hroom⟩ => hroom (h hb hd h1 h2)⟩
    exact Classical.byContradiction fun hroom => h ⟨⟨⟨hb, hd⟩, h1, h2⟩, hroom⟩
  have hreserved : (!u.planner.reservations.contains (bin, desk)) = true ↔ (bin, desk) ∉ u.planner.reservations := by simp
  simp only [roomPartFits, Bool.and_eq_true, hvisits, hreserved, decide_eq_true_eq, and_assoc]

end Sys2Proof.Machine

namespace Sys2Proof.Proofs
open Sys2Proof Sys2Proof.Machine Sys2Proof.Safety

/-- Settles O39: the tests of a ROOM_CALL are those of the call table. -/
theorem roomCallHeard : Obligations.RoomCallHeard := by
  intro p h b rest s hr hw hlo hhi e accepted
  have hcfg : e.cfg = s.cfg := entered_cfg p h s
  have hclock : e.clock = s.clock := entered_clock p h s
  have hcrane : e.crane = s.crane := entered_crane p h s
  have hsender : senderGood s.cfg h.sender (.roomCall b) = true := by simp [senderGood, isDeskStation, hlo, hhi]
  have htaken : callTaken h.sender b e = true ↔ accepted := by rw [callTaken_iff, hcfg, hcrane]
  have answer {v : State} (hv : hearRoomCall h.sender b e = v) :
      exec (.roomCall p h b rest) s = .next (follow s h rest unanswered v) :=
    exec_admitted (c := .roomCall p h b rest) rfl hr hsender rfl rfl (gate_of_working hw _) (hv ▸ rfl)
  refine ⟨fun ha => answer ((if_pos (htaken.mpr ha)).trans ?_), fun ha => answer (if_neg (mt htaken.mp ha))⟩
  exact congrArg (fun c => e.setPlacement { e.placement with calls := e.placement.calls ++ [c] }) (newCall_eq hclock b)

/-- Settles O40: a BID and a CLAIM at the call they name, and the further CLAIMs of a frame. -/
theorem bidAndClaimHeard : Obligations.BidAndClaimHeard := by
  refine ⟨fun p h b rest s hr hw => ?_, ?_⟩
  · exact exec_admitted (c := .bid p h b rest) rfl hr rfl rfl rfl (gate_of_working hw _) (Prod.ext rfl (hearBid_eq b _))
  intro claimed
  have hclaimed (b : ClaimBody) (u : State) : hearClaim b u = claimed b u := hearClaim_eq b u
  refine ⟨fun u => ⟨rfl, fun i rest => ⟨fun b hi hm => ?_, fun h => takeClaims_other h rest⟩⟩, fun p h b rest s hh hc hw => ?_⟩
  · rw [hi, takeClaims_claim hm, hclaimed]
  · intro u
    have hcmd : exec (.claim p h b rest) s = .next (hear p h (.claim b :: rest) s) := rfl
    cases ha : addressed s.cfg h with
    | true =>
      rw [if_pos rfl]
      exact exec_admitted hcmd ⟨hh, hc, ha⟩ rfl rfl rfl (gate_of_working hw _) (Prod.ext rfl (hclaimed b _))
    | false =>
      have hworking : (entered p h s).mode.working = true := (entered_mode p h s).symm ▸ hw
      rw [hcmd, hear_of_hears p hh, hc, ha, takeClaims_claim hworking, hclaimed]
      rfl

/-- Settles O57: by the state of the call, and by whether the own bid is beaten. -/
theorem windowExpires : Obligations.WindowExpires := by
  refine ⟨roomPartFits_iff, fun p x s hl hx hdue => ?_⟩
  intro e closed
  have hentry : e.placement.entry x.call = some x := hx
  have hruns (h : x.state ≠ .claimQueued ∧ x.state ≠ .claimSent) : windowTimer x.call e = some x.window := by
    rw [windowTimer, hentry]
    exact if_pos ((windowRuns_iff x.state).mpr h)
  have expires {v : State} (h : x.state ≠ .claimQueued ∧ x.state ≠ .claimSent) (hv : Machine.windowExpires x e = v) :
      exec (.windowExpiry p x.call) s = .next (settle v) := by
    refine exec_acts (c := .windowExpiry p x.call) rfl hl ((expiry_of_due (hruns h) hdue).trans ?_)
    rw [callWindowExpires, hentry]
    exact hv
  have hroom (bin : Nat) : roomPartFits e bin x.call.desk = roomPartFits s bin x.call.desk := rfl
  refine ⟨fun hs ho => expires ?_ ?_, fun hs => ?_, fun cost bin hs ho hw => expires ?_ ?_, fun cost bin hs ho hw => ?_⟩
  · rcases hs with hs | hs | hs <;> simp [hs]
  · have hclose : Machine.windowExpires x e = closeCall x.call e := by
      rcases hs with hs | hs | hs <;> rw [Machine.windowExpires, hs]
    rw [hclose, closeCall_of_unbid hentry (by rcases hs with hs | hs | hs <;> simp [hs]) ho]
    rfl
  · have hnone : windowTimer x.call e = none := by
      rw [windowTimer, hentry]
      exact if_neg (mt (windowRuns_iff x.state).mp (by rcases hs with hs | hs <;> simp [hs]))
    exact exec_acts (c := .windowExpiry p x.call) rfl hl (expiry_of_none hnone)
  · simp [hs]
  · have hclose : Machine.windowExpires x e = closeCall x.call e := by rw [Machine.windowExpires, hs]
    rw [hclose, closeCall_of_queued hentry hs ho hw]
    rfl
  · intro beat lost
    have hbeat : beaten e.cfg.station x = true ↔ beat := beaten_iff ho
    have hsent : Machine.windowExpires x e = if beaten e.cfg.station x = true then closeCall x.call e else beginClaim x e := by
      rw [Machine.windowExpires, hs]
    have hlost : closeCall x.call e = lost := closeCall_of_sent hentry (by simp [hs]) ho hw
    have hruns : x.state ≠ .claimQueued ∧ x.state ≠ .claimSent := by simp [hs]
    refine ⟨fun hb => expires hruns ?_, fun hb hf => expires hruns ?_, fun hb hf => expires hruns ?_⟩
    · rw [hsent, if_pos (hbeat.mpr hb), hlost]
    · rw [hsent, if_neg (mt hbeat.mp hb), beginClaim_of_not_fits ho ((hroom bin).trans hf), hlost]
    · rw [hsent, if_neg (mt hbeat.mp hb), beginClaim_of_fits ho ((hroom bin).trans hf)]

end Sys2Proof.Proofs
end

