-- ==== Sys2Proof/Proofs/Lending.lean ====
section
/-! PROOFS. LEND and CANCEL heard: the tests of a lending request, the visit it joins or makes, and the request cancelled
(R64 to R71, R75, R81). -/

namespace Sys2Proof.Machine
open Sys2Proof Safety

/-! ## The readiness test (R68) -/

theorem readiness_of_entry {u : State} {b : Nat} {x : BinEntry} (hx : u.dir.bin b = some x) : readiness u b =
    if x.status = .stored ∧ x.doubt = false then (if downOpen u = true then .ready else .waitingRoute) else .waitingBin := by
  have hstored : u.dir.isStored b = decide (x.status = .stored) := by
    unfold Directory.isStored
    rw [hx]
    cases hs : x.status <;> simp [BinEntry.isOut, hs]
  have hdoubt : u.dir.isDoubted b = x.doubt := by
    unfold Directory.isDoubted
    rw [hx]
  unfold readiness
  rw [hstored, hdoubt]
  by_cases hs : x.status = .stored <;> cases hd : x.doubt <;> simp [hs]

theorem readiness_of_absent {u : State} {b : Nat} (hx : u.dir.bin b = none) : readiness u b = .waitingBin := by
  simp [readiness, Directory.isStored, hx]

/-! ## A LEND (R70, R71) -/

section
variable {b : LendBody} {u : State} {x : BinEntry} (hx : u.dir.bin b.bin = some x)
include hx

/-- The tests in order, on the fields of the bin's entry. -/
theorem lendRefusal_eq : lendRefusal b u =
    if (tblGet u.planner.pool b.id).isSome = true then some .duplicate
    else if x.restricted = true ∧ b.desk.val ∉ u.cfg.restrictedDesks then some .restricted
    else if 48 ≤ u.planner.pool.length ∨ 8 ≤ ((visitsBeforePort u b.bin b.desk).map fun v => v.requests.length).sum
      ∨ u.planner.waitingVisit b.bin b.desk = none ∧ 24 ≤ u.planner.visits.length + u.planner.reservations.length
    then some .queueFull else none := by
  have hrestricted : (binRestricted u b.bin && !restrictedDesk u.cfg b.desk) = true ↔
      x.restricted = true ∧ b.desk.val ∉ u.cfg.restrictedDesks := by
    simp [binRestricted, hx, restrictedDesk]
  unfold lendRefusal
  simp only [hrestricted, Bool.and_eq_true, Option.isNone_iff_eq_none, decide_eq_true_eq]
  by_cases h1 : 48 ≤ u.planner.pool.length <;>
    by_cases h2 : 8 ≤ ((visitsBeforePort u b.bin b.desk).map fun v => v.requests.length).sum <;> simp only [h1, h2] <;> simp

end

theorem hearLend_of_refused {b : LendBody} {u : State} {why : FailReason} (h : lendRefusal b u = some why) :
    hearLend b u = (.refused, requestFailed why .lend b.bin (some b.desk) [(b.id, b.ref)] u) := by
  unfold hearLend
  rw [h]

theorem hearLend_of_waiting {b : LendBody} {u : State} {w : Visit} (h : lendRefusal b u = none)
    (hw : u.planner.waitingVisit b.bin b.desk = some w) : hearLend b u = (.taken, lendJoins b w u) := by
  unfold hearLend
  rw [h, hw]

theorem hearLend_of_new {b : LendBody} {u : State} (h : lendRefusal b u = none)
    (hw : u.planner.waitingVisit b.bin b.desk = none) : hearLend b u = (.taken, lendMakes b u) := by
  unfold hearLend
  rw [h, hw]

/-- The visit a LEND makes, with its number and its state. -/
theorem lendMakes_eq {b : LendBody} {u : State} {x : BinEntry} {now : Time} (hx : u.dir.bin b.bin = some x) (hn : u.clock = now) :
    let n := freeNumber u.planner 255 u.planner.nextVisit
    lendMakes b u = { u with planner := { u.planner with
      pool := tblPut b.id ⟨b.ref, b.desk, b.rank, .queued, n⟩ u.planner.pool
      nextVisit := n % 255 + 1, seqCount := u.planner.seqCount + 1
      visits := u.planner.visits ++ [
        { number := n, bin := b.bin, desk := b.desk, rank := if b.rank = .urgent then .urgent else .normal
          requests := [b.id], room := none, stamp := now, seq := u.planner.seqCount
          state := if x.status = .stored ∧ x.doubt = false then (if downOpen u then .ready else .waitingRoute)
            else .waitingBin }] } } := by
  subst hn
  have hrank : RankAsked.visitRank b.rank = if b.rank = .urgent then .urgent else .normal := by cases b.rank <;> rfl
  intro n
  rw [lendMakes, makeVisit, readiness_of_entry hx, hrank]
  rfl

/-! ## A CANCEL (R81) -/

section
variable {id : Nat} {u : State} {r : Request} {v : Visit}

theorem hearCancel_of_unknown (h : tblGet u.planner.pool id = none) : hearCancel id u = (.refused, u) := by
  unfold hearCancel
  rw [h]

theorem hearCancel_of_cancelled (h : tblGet u.planner.pool id = some r) (hs : r.state = .cancelled) :
    hearCancel id u = (.taken, u) := by
  unfold hearCancel
  rw [h]
  exact if_pos hs

theorem hearCancel_of_queued (h : tblGet u.planner.pool id = some r) (hs : r.state = .queued)
    (hv : u.planner.visit r.visit = some v) : hearCancel id u =
      (.taken, if v.state.fetched = true then { u with planner := { u.planner with
        pool := tblPut id { r with state := .cancelled } u.planner.pool } } else cancelListed id v u) := by
  unfold hearCancel
  rw [h]
  dsimp only
  rw [if_neg (by rw [hs]; decide), hv]
  simp only [cancelMarks, tblModify, h]
  rfl

/-- A request cancelled leaves its visit, which goes on with its other requests or its room part. -/
theorem cancelListed_of_left (hleft : (v.requests.filter fun x => x != id) ≠ [] ∨ v.room ≠ none) : cancelListed id v u = { u with
    planner := { u.planner with
      pool := tblErase id u.planner.pool
      visits := u.planner.visits.map fun w : Visit => if w.number = v.number then { w with
        requests := v.requests.filter fun x => x != id
        rank := if w.state = .staged then w.rank
          else { u.planner with pool := tblErase id u.planner.pool }.rankOf (v.requests.filter fun x => x != id) w.room } else w } } := by
  unfold cancelListed
  dsimp only
  rw [if_neg (by simpa [Classical.or_iff_not_imp_left] using hleft)]
  rfl

theorem cancelListed_of_gone (hleft : (v.requests.filter fun x => x != id) = []) (hroom : v.room = none) :
    let gone := { u with planner := { u.planner with
      pool := tblErase id u.planner.pool, visits := u.planner.visits.filter fun w : Visit => w.number != v.number } }
    cancelListed id v u = if v.state = .staged then withdrawStaged v.number gone else gone := by
  intro gone
  unfold cancelListed
  dsimp only
  rw [hleft, hroom]
  rfl

theorem withdrawStaged_of_staged {n : Nat} {m : Move} (hm : u.crane.staged = some m) (hv : m.visit = some n) (hb : m.bound = false) :
    withdrawStaged n u = { u with
      planner := { u.planner with passed := some (readyWork u) }, crane := { u.crane with staged := none } } := by
  unfold withdrawStaged
  rw [hm]
  exact if_pos ⟨hv, hb⟩

end

end Sys2Proof.Machine

namespace Sys2Proof.Proofs
open Sys2Proof Sys2Proof.Machine Sys2Proof.Safety

/-- Settles O41: a LEND that passes the tests joins the waiting visit, or makes one with a free number. -/
theorem lendTaken : Obligations.LendTaken := by
  intro p h b rest s x hr hg hm hid e hx hnew hrestricted hpool hlisted pool
  have hcfg : e.cfg = s.cfg := entered_cfg p h s
  have hgate : gate s (.lend b) = .admitted := hm.elim (gate_of_working · _) fun hm => by rw [gate_of_halted hm]; rfl
  have hconcerns : concerns h e (.lend b) = true := by simp [concerns, hid, hx]
  have answer {v : State} (hv : hearLend b e = (.taken, v)) : exec (.lend p h b rest) s = .next (follow s h rest took v) :=
    exec_admitted (c := .lend p h b rest) rfl hr ((senderGood_of_fromGateway rfl _ _).trans hg) rfl hconcerns hgate hv
  have passes (hroom : e.planner.waitingVisit b.bin b.desk = none →
      e.planner.visits.length + e.planner.reservations.length < 24) : lendRefusal b e = none := by
    rw [lendRefusal_eq hx, if_neg (by simp [hnew]), hcfg, if_neg fun h => h.2 (hrestricted h.1), if_neg]
    rintro (h | h | ⟨h, h'⟩)
    · omega
    · omega
    · have := hroom h
      omega
  refine ⟨fun w hw => answer ?_, fun hw hroom => ⟨freeNumber e.planner 255 e.planner.nextVisit,
    fun v hv => freeNumber_unused (by omega) _ hv, fun hlo hhi => freeNumber_range _ _ hlo hhi, answer ?_⟩⟩
  · exact hearLend_of_waiting (passes fun h => by rw [hw] at h; cases h) hw
  · rw [hearLend_of_new (passes fun _ => hroom) hw, lendMakes_eq hx (entered_clock p h s)]

/-- Settles O42: the first test that a LEND fails gives the reason. -/
theorem lendRefused : Obligations.LendRefused := by
  intro p h b rest s hr hg hm hid e answer
  have hcfg : e.cfg = s.cfg := entered_cfg p h s
  have hgate : gate s (.lend b) = .admitted := hm.elim (gate_of_working · _) fun hm => by rw [gate_of_halted hm]; rfl
  have hsender : senderGood s.cfg h.sender (.lend b) = true := (senderGood_of_fromGateway rfl _ _).trans hg
  refine ⟨fun hx => exec_unconcerned (c := .lend p h b rest) rfl hr hsender ?_, fun x hx => ?_⟩
  · have hbin : (entered p h s).dir.bin b.bin = none := hx
    simp [concerns, hbin]
  have hconcerns : concerns h e (.lend b) = true := by simp [concerns, hid, hx]
  have refuses {why : FailReason} (hv : lendRefusal b e = some why) : exec (.lend p h b rest) s = answer why.num :=
    exec_admitted (c := .lend p h b rest) rfl hr hsender rfl hconcerns hgate (hearLend_of_refused hv)
  refine ⟨fun hdup => refuses (why := .duplicate) ?_, fun hnew => ⟨fun h1 h2 => refuses (why := .restricted) ?_,
    fun h1 hfull => refuses (why := .queueFull) ?_⟩⟩
  · rw [lendRefusal_eq hx, if_pos hdup]
  · rw [lendRefusal_eq hx, if_neg (by simp [hnew]), hcfg, if_pos ⟨h1, h2⟩]
  · rw [lendRefusal_eq hx, if_neg (by simp [hnew]), hcfg, if_neg (fun h => h1.elim (by simp [h.1]) h.2), if_pos hfull]

/-- Settles O43: the states of the request and of its visit. -/
theorem cancelHeard : Obligations.CancelHeard := by
  intro p h id rest s hr hg hm hid e
  have hcrane : e.crane = s.crane := entered_crane p h s
  have hcfg : e.cfg = s.cfg := entered_cfg p h s
  have hgate : gate s (.cancel id) = .admitted := hm.elim (gate_of_working · _) fun hm => by rw [gate_of_halted hm]; rfl
  have hsender : senderGood s.cfg h.sender (.cancel id) = true := (senderGood_of_fromGateway rfl _ _).trans hg
  have answer {verdict : Verdict} {v : State} (hc : (tblGet e.planner.pool id).isSome = true ∨ toOwn s.cfg h = true)
      (hv : hearCancel id e = (verdict, v)) :
      exec (.cancel p h id rest) s = .next (follow s h rest (Answers.none.note verdict) v) :=
    exec_admitted (c := .cancel p h id rest) rfl hr hsender rfl (by simpa [concerns, hid, e] using hc) hgate hv
  refine ⟨fun hnone ho => answer (.inr ho) (hearCancel_of_unknown hnone), fun hnone ho => ?_, fun r hreq => ?_⟩
  · have hpool : tblGet (entered p h s).planner.pool id = none := hnone
    exact exec_unconcerned (c := .cancel p h id rest) rfl hr hsender (by simp [concerns, hpool, ho])
  have hsome : (tblGet e.planner.pool id).isSome = true := by rw [hreq]; rfl
  refine ⟨fun hs => answer (.inl hsome) (hearCancel_of_cancelled hreq hs), fun v hs hv => ?_⟩
  intro freed left gone
  have listed (hf : v.state.fetched = false) : exec (.cancel p h id rest) s = .next (follow s h rest took (cancelListed id v e)) :=
    answer (.inl hsome) ((hearCancel_of_queued hreq hs hv).trans (congrArg (Prod.mk Verdict.taken) (if_neg (by simp [hf]))))
  refine ⟨fun hf => ?_, fun hf hleft => ?_, fun hw hleft hroom => ?_, fun m hstate hleft hroom hstaged hvisit hb => ?_⟩
  · exact answer (.inl hsome) ((hearCancel_of_queued hreq hs hv).trans (congrArg (Prod.mk Verdict.taken) (if_pos hf)))
  · rw [listed hf, cancelListed_of_left hleft]
  · have hf : v.state.fetched = false ∧ v.state ≠ .staged := by cases hst : v.state <;> simp_all [VisitState.waiting, VisitState.fetched]
    rw [listed hf.1, cancelListed_of_gone hleft hroom, if_neg hf.2]
  · have hmove : e.crane.staged = some m := by rw [hcrane, hstaged]
    rw [listed (by rw [hstate]; rfl), cancelListed_of_gone hleft hroom, if_pos hstate,
      withdrawStaged_of_staged (u := { e with planner := gone }) hmove hvisit hb, ← hcrane]

end Sys2Proof.Proofs
end

