-- ==== Sys2Proof/Proofs/Stocking.lean ====
section
/-! PROOFS. STOCK_AT and STOCK heard: the cursor, the tests of a body, and what a body leaves (R19 to R22). -/

namespace Sys2Proof.Machine
open Sys2Proof Safety

/-! ## The cursor (R19) -/

theorem nextCursor_eq (cfg : StationConfig) (sl : Slot) : nextCursor cfg sl =
    if sl.level < cfg.nl then some ⟨sl.face, sl.col, sl.level + 1⟩
    else if sl.col < cfg.nc then some ⟨sl.face, sl.col + 1, 1⟩
    else if sl.face = .L then some ⟨.R, 1, 1⟩ else none := by
  unfold nextCursor
  cases sl.face <;> rfl

/-! ## The tests of a body (R20) -/

section
variable {d : Directory} {sl : Slot} {bin : Nat} {late : Bool}

/-- The bin is recorded in another slot. -/
theorem recordedElsewhere_iff : (bin != 0 && (match d.bin bin with | some e => e.slot != sl | none => false)) = true ↔
    bin ≠ 0 ∧ ∃ x, d.bin bin = some x ∧ x.slot ≠ sl := by
  cases d.bin bin <;> simp

theorem stockRefusal_of_reserved {a : Nat} (h : d.slotState sl = .reserved a) : d.stockRefusal sl bin late = some .slotBusy := by
  unfold Directory.stockRefusal
  rw [h]
  rfl

theorem stockRefusal_of_bad (h : d.slotState sl = .bad) (hb : bin ≠ 0) : d.stockRefusal sl bin late = some .slotBusy := by
  unfold Directory.stockRefusal
  rw [h]
  exact if_pos (by simpa using hb)

theorem stockRefusal_of_none (h : d.slotState sl = .empty ∨ d.slotState sl = .bad) : d.stockRefusal sl 0 late = none := by
  unfold Directory.stockRefusal
  rcases h with h | h <;> rw [h] <;> rfl

theorem stockRefusal_of_empty (h : d.slotState sl = .empty) : d.stockRefusal sl bin late =
    if bin ≠ 0 ∧ ∃ x, d.bin bin = some x ∧ x.slot ≠ sl then some .duplicateBin else none := by
  unfold Directory.stockRefusal
  rw [h]
  exact (if_neg Bool.false_ne_true).trans (ite_of_iff recordedElsewhere_iff _ _)

theorem promised_iff {a : Nat} : (match d.bin a with
    | some e => decide (0 < e.promVolume) || decide (0 < e.promMass)
    | none => false) = true ↔ ∃ x, d.bin a = some x ∧ (0 < x.promVolume ∨ 0 < x.promMass) := by
  cases d.bin a <;> simp

theorem stockRefusal_of_busy {a : Nat} (h : d.slotState sl = .occupied a)
    (hbusy : late = true ∨ d.slotDoubt sl = false ∧ ∃ x, d.bin a = some x ∧ (0 < x.promVolume ∨ 0 < x.promMass)) :
    d.stockRefusal sl bin late = some .slotBusy := by
  unfold Directory.stockRefusal
  rw [h]
  refine if_pos (Bool.or_eq_true_iff.mpr (hbusy.imp id fun ⟨hd, hp⟩ => Bool.and_eq_true_iff.mpr ⟨by rw [hd]; rfl, ?_⟩))
  exact promised_iff.mpr hp

/-- At an OCCUPIED slot that is not busy a body is refused for its bin recorded elsewhere alone. -/
theorem stockRefusal_of_occupied {a : Nat} (h : d.slotState sl = .occupied a) (hlate : late = false)
    (hfree : d.slotDoubt sl = true ∨ ¬ ∃ x, d.bin a = some x ∧ (0 < x.promVolume ∨ 0 < x.promMass)) :
    d.stockRefusal sl bin late =
      if bin ≠ 0 ∧ ∃ x, d.bin bin = some x ∧ x.slot ≠ sl then some .duplicateBin else none := by
  unfold Directory.stockRefusal
  rw [h, hlate]
  refine (if_neg fun hbusy => ?_).trans (ite_of_iff recordedElsewhere_iff _ _)
  obtain ⟨hd, hp⟩ := Bool.and_eq_true_iff.mp ((Bool.or_eq_true_iff.mp hbusy).resolve_left Bool.false_ne_true)
  exact hfree.elim (fun hd' => by simp [hd'] at hd) fun hnone => hnone (promised_iff.mp hp)

end

/-- The bin of an OCCUPIED slot has a visit STAGED or later. -/
theorem lateVisit_iff {u : State} {sl : Slot} {a : Nat} (h : u.dir.slotState sl = .occupied a) : lateVisit u sl = true ↔
    ∃ v, v ∈ u.planner.visits ∧ v.bin = a ∧ v.state.waiting = false := by
  unfold lateVisit
  rw [h]
  simp

/-! ## A body applied (R20, R21) -/

section
variable {cfg : StationConfig} {d : Directory} {sl : Slot} {b : StockBody} {a : Nat}

theorem stockApply_of_none (h : d.slotState sl = .empty ∨ d.slotState sl = .bad) (hb : b.bin = 0) :
    d.stockApply cfg sl b = (d.setSlot sl ⟨.empty, false⟩, none) := by
  unfold Directory.stockApply
  rcases h with h | h <;> rw [h] <;> exact if_pos hb

theorem stockApply_of_entered (h : d.slotState sl = .empty) (hb : b.bin ≠ 0) :
    d.stockApply cfg sl b = (d.enterBin cfg b sl 0 0, none) := by
  unfold Directory.stockApply
  rw [h]
  exact if_neg hb

theorem stockApply_of_rewritten {o : BinEntry} (h : d.slotState sl = .occupied a) (hb : b.bin = a) (ho : d.bin a = some o) :
    d.stockApply cfg sl b = ((d.removeBin cfg a).enterBin cfg b sl o.promVolume o.promMass, none) := by
  unfold Directory.stockApply
  rw [h]
  dsimp only
  rw [if_pos hb, ho]

theorem stockApply_of_replaced (h : d.slotState sl = .occupied a) (hb : b.bin ≠ 0) (hne : b.bin ≠ a) :
    d.stockApply cfg sl b = ((d.removeBin cfg a).enterBin cfg b sl 0 0, some a) := by
  unfold Directory.stockApply
  rw [h]
  exact (if_neg hne).trans (if_neg hb)

theorem stockApply_of_removed (h : d.slotState sl = .occupied a) (ha : a ≠ 0) (hb : b.bin = 0) :
    d.stockApply cfg sl b = ((d.removeBin cfg a).setSlot sl ⟨.empty, false⟩, some a) := by
  unfold Directory.stockApply
  rw [h]
  exact (if_neg fun he => ha (he.symm.trans hb)).trans (if_pos hb)

theorem removeBin_of_entry {o : BinEntry} (ho : d.bin a = some o) :
    d.removeBin cfg a = (d.dropBin a).subLoad o.slot ((gradeOf cfg o.grade).tare + o.mass + o.promMass) := by
  unfold Directory.removeBin
  rw [ho]
  rfl

end

section
variable {u : State} {cfg : StationConfig} {b : StockBody} {sl : Slot} (hcfg : u.cfg = cfg)

theorem slot?_of_inRack {n : SlotName} {f : Face} (hf : n.face = (match f with | .L => .L | .R => .R))
    (hin : inRack cfg ⟨f, n.col, n.level⟩ = true) : n.slot? cfg = some ⟨f, n.col, n.level⟩ := by
  unfold SlotName.slot?
  cases f <;> rw [hf] <;> exact if_pos hin

theorem slot?_of_outside {n : SlotName}
    (h : n.face = .none ∨ n.face = .position ∨ n.col < 1 ∨ cfg.nc < n.col ∨ n.level < 1 ∨ cfg.nl < n.level) :
    n.slot? cfg = none := by
  have hin (f : Face) (hface : n.face ≠ .none ∧ n.face ≠ .position) : inRack cfg ⟨f, n.col, n.level⟩ = false := by
    refine Bool.eq_false_iff.mpr fun hin => ?_
    simp only [inRack, Bool.and_eq_true, decide_eq_true_eq] at hin
    rcases h with h | h | h
    · exact hface.1 h
    · exact hface.2 h
    · omega
  unfold SlotName.slot?
  cases hf : n.face with
  | L => exact if_neg (by simp [hin .L (by simp [hf])])
  | R => exact if_neg (by simp [hin .R (by simp [hf])])
  | position | none => rfl

theorem hearStockAt_of_slot {n : SlotName} (h : n.slot? u.cfg = some sl) :
    hearStockAt n u = (.taken, { u with dir := { u.dir with cursor := some sl } }) := by
  unfold hearStockAt
  rw [h]
  rfl

theorem hearStockAt_of_none {n : SlotName} (h : n.slot? u.cfg = none) : hearStockAt n u =
    (.refused, notice [.stockRefused ⟨2, ⟨.none, 0, 0⟩, 0⟩] { u with dir := { u.dir with cursor := none } }) := by
  unfold hearStockAt
  rw [h]
  rfl

theorem hearStock_of_end (hc : u.dir.cursor = none) :
    hearStock b u = (.refused, notice [.stockRefused ⟨2, ⟨.none, 0, 0⟩, b.bin⟩] u) := by
  unfold hearStock
  rw [hc]
  rfl

include hcfg

theorem hearStock_of_refused {why : StockReason} (hc : u.dir.cursor = some sl)
    (h : u.dir.stockRefusal sl b.bin (lateVisit u sl) = some why) :
    let t := notice [.stockRefused ⟨why.num, sl.name, b.bin⟩] u
    hearStock b u = (.refused, { t with dir := { t.dir with cursor := nextCursor cfg sl } }) := by
  subst hcfg
  unfold hearStock
  rw [hc]
  dsimp only
  rw [h]
  rfl

theorem hearStock_of_applied (hc : u.dir.cursor = some sl) (h : u.dir.stockRefusal sl b.bin (lateVisit u sl) = none) :
    let t := stockApplied sl b u
    hearStock b u = (.taken, { t with dir := { t.dir with cursor := nextCursor cfg sl } }) := by
  subst hcfg
  have hkept : (stockApplied sl b u).cfg = u.cfg := ((Change.refl (k := .blocks)).stockApplied sl b).cfg
  unfold hearStock
  rw [hc]
  dsimp only
  rw [h]
  exact congrArg (fun cfg => (Verdict.taken, { stockApplied sl b u with
    dir := { (stockApplied sl b u).dir with cursor := nextCursor cfg sl } })) hkept

theorem stockApplied_of_kept {d : Directory} (h : u.dir.stockApply cfg sl b = (d, none)) :
    stockApplied sl b u = releaseBin b.bin { u with dir := d } := by
  subst hcfg
  unfold stockApplied
  rw [h]
  rfl

theorem stockApplied_of_removed {d : Directory} {a : Nat} (h : u.dir.stockApply cfg sl b = (d, some a)) :
    stockApplied sl b u = releaseBin b.bin (binRemoved a .unknownBin { u with dir := d }) := by
  subst hcfg
  unfold stockApplied
  rw [h]
  rfl

end

end Sys2Proof.Machine

namespace Sys2Proof.Proofs
open Sys2Proof Sys2Proof.Machine Sys2Proof.Safety

/-- Settles O44: the rows of the stocking table, by the state of the slot at the cursor. -/
theorem stockHeard : Obligations.StockHeard := by
  intro p h rest s hg ho hm e nowhere
  have hcfg : e.cfg = s.cfg := entered_cfg p h s
  have gateway {i : Item} (hi : i.fromGateway = true) : senderGood s.cfg h.sender i = true :=
    (senderGood_of_fromGateway hi _ _).trans hg
  have hgate {i : Item} (hr : Reaches h (i :: rest) s) (h1 : gateStocking i = .admitted) (h2 : gateHalted i = .admitted) :
      gate s i = .admitted := by
    rcases mode_of_live hr.live with hw | hs | hh | hf
    · exact gate_of_working hw _
    · rw [gate_of_stocking hs, h1]
    · rw [gate_of_halted hh, h2]
    · rw [hm] at hf
      cases hf
  refine ⟨fun n hr => ?_, fun b hr => ?_⟩
  · have answer {verdict : Verdict} {v : State} (hv : hearStockAt n e = (verdict, v)) :
        exec (.stockAt p h n rest) s = .next (follow s h rest (Answers.none.note verdict) v) :=
      exec_admitted (c := .stockAt p h n rest) rfl hr (gateway rfl) ho rfl (hgate hr rfl rfl) hv
    refine ⟨fun f hf hin => answer (hearStockAt_of_slot (hcfg.symm ▸ slot?_of_inRack hf hin)),
      fun hout => answer (hearStockAt_of_none (hcfg.symm ▸ slot?_of_outside hout))⟩
  have answer {verdict : Verdict} {v : State} (hv : hearStock b e = (verdict, v)) :
      exec (.stock p h b rest) s = .next (follow s h rest (Answers.none.note verdict) v) :=
    exec_admitted (c := .stock p h b rest) rfl hr (gateway rfl) ho rfl (hgate hr rfl rfl) hv
  refine ⟨fun hc => answer (hearStock_of_end hc), fun sl hc => ?_⟩
  intro next moved refusal applied late promised g entry elsewhere
  have hnext : nextCursor s.cfg sl = next := nextCursor_eq s.cfg sl
  have refuses {why : StockReason} (hwhy : e.dir.stockRefusal sl b.bin (lateVisit e sl) = some why) :
      exec (.stock p h b rest) s = refusal why.num :=
    answer ((hearStock_of_refused hcfg hc hwhy).trans (by rw [hnext]))
  have applies {v : State} (hnone : e.dir.stockRefusal sl b.bin (lateVisit e sl) = none) (hv : stockApplied sl b e = v) :
      exec (.stock p h b rest) s = .next (follow s h rest took (moved v)) :=
    answer ((hearStock_of_applied hcfg hc hnone).trans (by rw [hnext, hv]))
  have hentry (pv pm : Nat) : stockEntry s.cfg b sl pv pm = entry (min pv g.capacity) (min pm g.massLimit) := rfl
  have enters (d : Directory) : d.enterBin s.cfg b sl 0 0 =
      ((d.setSlot sl ⟨.occupied b.bin, false⟩).setBin b.bin (entry 0 0)).addLoad sl (g.tare + (entry 0 0).mass) := by
    unfold Directory.enterBin
    rw [hentry, Nat.zero_min, Nat.zero_min]
    rfl
  refine ⟨fun a hs => refuses (why := .slotBusy) (stockRefusal_of_reserved hs),
    fun hs hb => refuses (why := .slotBusy) (stockRefusal_of_bad hs hb),
    fun hs hb hx => refuses (why := .duplicateBin) ((stockRefusal_of_empty hs).trans (if_pos ⟨hb, hx⟩)),
    fun hs hb => applies (hb ▸ stockRefusal_of_none hs) (stockApplied_of_kept hcfg (stockApply_of_none hs hb)),
    fun hs hb hx => applies ((stockRefusal_of_empty hs).trans (if_neg fun h => hx h.2))
      (stockApplied_of_kept hcfg ((stockApply_of_entered hs hb).trans (by rw [enters]))),
    fun a hs ha => ?_⟩
  have hlate : lateVisit e sl = true ↔ late a := lateVisit_iff hs
  refine ⟨fun hbusy => refuses (why := .slotBusy) (stockRefusal_of_busy hs (hbusy.imp hlate.mpr id)), fun hnot hfree => ?_⟩
  have hrefusal := stockRefusal_of_occupied (bin := b.bin) hs (Bool.eq_false_iff.mpr (mt hlate.mp hnot)) hfree
  refine ⟨fun hb hx => refuses (why := .duplicateBin) (hrefusal.trans (if_pos ⟨hb, hx⟩)), fun o hb hoa hslot => ?_,
    fun hb hne hx => ?_, fun hb => ?_⟩
  · subst hb
    intro x
    refine applies (hrefusal.trans (if_neg ?_)) (stockApplied_of_kept hcfg ((stockApply_of_rewritten hs rfl hoa).trans ?_))
    · rintro ⟨-, y, hy, hne⟩
      rw [hoa] at hy
      cases hy
      exact hne hslot
    · rw [removeBin_of_entry hoa, hslot]
      rfl
  · exact applies (hrefusal.trans (if_neg fun h => hx h.2))
      (stockApplied_of_removed hcfg ((stockApply_of_replaced hs hb hne).trans (by rw [enters])))
  · refine applies (hrefusal.trans (if_neg fun h => h.1 hb))
      ((stockApplied_of_removed hcfg (stockApply_of_removed hs ha hb)).trans (by rw [hb]))

end Sys2Proof.Proofs
end

