-- ==== Sys2Proof/Proofs/Control.lean ====
section
/-! PROOFS. STOCK_END, STOP and RESUME heard, the load resolution, and how the crane leaves a halt (R23, R41, R45, R52, R60 to R62,
R125). -/

namespace Sys2Proof.Machine
open Sys2Proof Safety

/-! ## A visit handed back beside the crane (R68) -/

theorem handBack_withCrane (n : Nat) (u : State) (c : Crane) : handBack n { u with crane := c } = { handBack n u with crane := c } := by
  unfold handBack
  have hvisit : { u with crane := c }.planner.visit n = u.planner.visit n := rfl
  rw [hvisit]
  cases u.planner.visit n with
  | none => rfl
  | some v =>
    dsimp only
    split
    · rfl
    · split <;> rfl

theorem visitTo_stow (link : Option Nat) (st : VisitState) (u : State) : (visitTo link st u).planner.stow = u.planner.stow := by
  cases link <;> rfl

/-! ## The stow through the entry of a frame's sender (R170) -/

theorem closeCall_stow (c : Call) (u : State) : (closeCall c u).planner.stow = u.planner.stow := by
  cases hx : u.placement.entry c with
  | none => rw [closeCall_of_closed hx]
  | some x => rw [closeCall_of_entry hx]

theorem closeCalls_stow (p : CallState → Bool) (u : State) : (closeCalls p u).planner.stow = u.planner.stow := by
  unfold closeCalls
  generalize ((u.placement.calls.filter fun e => p e.state).map (·.call)) = l
  induction l generalizing u with
  | nil => rfl
  | cons c l ih => exact (ih (closeCall c u)).trans (closeCall_stow c u)

theorem retestRoute_stow (u : State) : (retestRoute u).planner.stow = u.planner.stow := by
  unfold retestRoute
  split
  · rfl
  · dsimp only
    split
    · rfl
    · exact closeCalls_stow _ _

theorem entered_stow (p : Pins) (h : Header) (s : State) : (entered p h s).planner.stow = s.planner.stow := by
  unfold entered enterNeighbour
  dsimp only
  split
  · rfl
  · exact retestRoute_stow _

/-! ## A STOP at the crane (R45, R52, R60) -/

section
variable {u : State} {c : Crane} (hc : u.crane = c)
include hc

theorem craneStop_of_rest (h : c.state = .idle ∨ c.state = .parked) : craneStop u = { u with crane := { c with state := .halted } } := by
  subst hc
  unfold craneStop
  rcases h with h | h <;> rw [h] <;> rfl

theorem craneStop_of_halted (h : c.state = .halted ∨ c.state = .faulted) : craneStop u = u := by
  subst hc
  unfold craneStop
  rcases h with h | h <;> rw [h]

theorem craneStop_of_stopping (h : c.state = .stopping) :
    craneStop u = { u with crane := { c with fireStop := false, resumeKept := false } } := by
  cases c
  cases h
  unfold craneStop
  rw [hc]
  rfl

theorem craneStop_of_moving (h : c.state = .moving) : craneStop u = { discardStaged u with crane := { c with
    staged := none, state := .stopping, fireStop := false, fireFinish := false, drive := .controlledStop } } := by
  subst hc
  unfold craneStop
  rw [h]
  dsimp only
  rw [discardStaged_crane]
  rfl

theorem craneStop_of_holding (h : c.state = .holding) : craneStop u = craneTo .halted (discardStaged (dropWaiting u)) := by
  subst hc
  unfold craneStop
  rw [h]

/-- A HOLDING crane halts with its DELIVER removed. -/
theorem craneStop_of_holding_unstaged {m : Move} (h : c.state = .holding) (hm : c.current = some m) (hs : c.staged = none) :
    craneStop u = { visitTo m.visit .onCrane u with crane := { c with state := .halted, current := none, holdTimer := none } } := by
  rw [craneStop_of_holding hc h, dropWaiting_of_some (hc ▸ hm), discardStaged_of_none (by rw [hc]; exact hs), hc]
  rfl

/-- A free FETCH staged behind the DELIVER hands its visit back. -/
theorem craneStop_of_holding_fetch {m st : Move} {n : Nat} (h : c.state = .holding) (hm : c.current = some m)
    (hs : c.staged = some st) (hb : st.bound = false) (hk : st.kind = .fetch) (hn : st.visit = some n) :
    craneStop u = { handBack n (visitTo m.visit .onCrane u) with
      crane := { c with state := .halted, current := none, staged := none, holdTimer := none } } := by
  rw [craneStop_of_holding hc h, dropWaiting_of_some (hc ▸ hm), discardStaged_of_some (m := st) (by rw [hc]; exact hs),
    if_neg (by simp [hb]), hk, hn, hc]
  exact congrArg (craneTo .halted) (handBack_withCrane n (visitTo m.visit .onCrane u) _)

/-- A free TAKE_IN staged behind the DELIVER makes the stow ready again. -/
theorem craneStop_of_holding_takeIn {m st : Move} (h : c.state = .holding) (hm : c.current = some m)
    (hs : c.staged = some st) (hb : st.bound = false) (hk : st.kind = .takeIn) (hst : u.planner.stow = .staged) :
    let v := visitTo m.visit .onCrane u
    craneStop u = { v with
      crane := { c with state := .halted, current := none, staged := none, holdTimer := none }
      planner := { v.planner with stow := .ready } } := by
  intro v
  have hstow : v.planner.stow = .staged := (visitTo_stow _ _ _).trans hst
  rw [craneStop_of_holding hc h, dropWaiting_of_some (hc ▸ hm), discardStaged_of_some (m := st) (by rw [hc]; exact hs),
    if_neg (by simp [hb]), hk, hc]
  exact congrArg (craneTo .halted) (if_pos hstow)

end

/-! ## The crane leaves its halt (R41, R61) -/

section
variable {u : State}

theorem leaveHalt_of_fire (h : u.mode.fiery = true) : leaveHalt u = { u with crane := { u.crane with state := .parked } } := if_pos h

theorem leaveHalt_of_calm (h : u.mode.fiery = false) :
    leaveHalt u = nextMove { u with crane := { u.crane with state := .idle } } := if_neg (by simp [h])

theorem nextMove_of_none (h : u.crane.carried = none) : nextMove u = u := by
  unfold nextMove
  rw [h]

theorem nextMove_of_visit {c : Carried} {v : Nat} (h : u.crane.carried = some c) (hv : c.visit = some v) :
    nextMove u = makeCurrent .deliver (.pos ⟨0, u.cfg.portLevel⟩) (some v) true u := by
  unfold nextMove
  rw [h]
  dsimp only
  rw [hv]
  rfl

theorem nextMove_of_unbound {c : Carried} (h : u.crane.carried = some c) (hv : c.visit = none) : nextMove u = makeStore c.bin u := by
  unfold nextMove
  rw [h]
  dsimp only
  rw [hv]

theorem makeStore_of_entry {b : Nat} {e : BinEntry} (h : u.dir.bin b = some e) :
    makeStore b u = makeCurrent .store (.slot e.slot) none true u := by
  unfold makeStore binSlot
  rw [h]
  rfl

theorem makeStore_of_absent {b : Nat} (h : u.dir.bin b = none) :
    let v := discardStaged { u with crane := { u.crane with current := none, forkCycle := false, tag := .awaited } }
    makeStore b u = faultNotice { faultBody .storeBlocked with bin := b, slotA := ⟨.none, 0, 0⟩ }
      { v with crane := { v.crane with state := .faulted, fireFinish := false, drive := .stop } } := by
  unfold makeStore binSlot
  rw [h]
  rfl

end

/-! ## The blocked places (R125) -/

section
variable {u : State} {place : SpinePlace}

/-- What a place of the spine holds. -/
def placeOf (sp : Spine) : SpinePlace → PlaceState
  | .portOut => sp.portOut
  | .portIn => sp.portIn
  | .down => sp.down
  | .up => sp.up

theorem clearPlace_of_blocked {kept : Option TravelRecord} {lost : Option (Nat × Nat)}
    (h : placeOf u.spine place = .blocked kept lost) (h1 : (placeSensors u.pins place).entry = false)
    (h2 : (placeSensors u.pins place).position = false) :
    let e := { u with dir := match kept with | some r => u.dir.locate r.bin .unknown | none => u.dir }
    clearPlace place u = match place with
      | .portOut => portOutEmptied { e with spine := { u.spine with portOut := .empty } }
      | .portIn => { e with
        spine := { u.spine with portIn := .empty }, planner := { u.planner with stow := .absent, mark := false } }
      | .down => { e with spine := { u.spine with down := .empty } }
      | .up => { e with spine := { u.spine with up := .empty } } := by
  have hreads : (placeSensors u.pins place).readsEmpty = true := by simp [PlaceSensors.readsEmpty, h1, h2]
  unfold clearPlace
  cases place <;> simp only [placeOf] at h <;> dsimp only <;> rw [h] <;> dsimp only <;> rw [if_pos hreads] <;>
    cases kept <;> rfl

theorem clearPlace_of_other (h : (∀ kept lost, placeOf u.spine place ≠ .blocked kept lost)
    ∨ (placeSensors u.pins place).entry = true ∨ (placeSensors u.pins place).position = true) : clearPlace place u = u := by
  have hreads (h : (placeSensors u.pins place).entry = true ∨ (placeSensors u.pins place).position = true) :
      ¬ (placeSensors u.pins place).readsEmpty = true := by
    rcases h with h | h <;> simp [PlaceSensors.readsEmpty, h]
  have hplace : ∀ kept lost, placeOf u.spine place = .blocked kept lost → ¬ (placeSensors u.pins place).readsEmpty = true :=
    fun kept lost hb => h.elim (fun hn => absurd hb (hn kept lost)) hreads
  unfold clearPlace
  cases hx : placeOf u.spine place with
  | blocked kept lost =>
    have hr := hplace kept lost hx
    cases place <;> simp only [placeOf] at hx <;> dsimp only <;> rw [hx] <;> exact if_neg hr
  | _ => cases place <;> simp only [placeOf] at hx <;> dsimp only <;> rw [hx]

end

/-! ## The load resolution (R62) -/

section
variable {u : State}

theorem resolveLoad_of_none (h : u.crane.carried = none) : resolveLoad u =
    if u.pins.load = true then (false, loadFault 0 u) else (true, { u with crane := { u.crane with unknownLoad := false } }) := by
  unfold resolveLoad
  rw [h]
  rfl

theorem resolveLoad_of_certain {c : Carried} (h : u.crane.carried = some c) (hc : c.uncertain = false) : resolveLoad u =
    if u.pins.load = true then (true, u) else (false, loadFault c.bin u) := by
  unfold resolveLoad
  rw [h]
  exact if_neg (by simp [hc])

theorem resolveLoad_of_uncertain {c : Carried} (h : u.crane.carried = some c) (hc : c.uncertain = true) : resolveLoad u =
    if u.pins.load = true then (true, { u with crane := { u.crane with carried := some { c with uncertain := false } } })
    else (true, handBackLink c.visit (storeBin c.bin none (c.record.bind recordRoom)
      { u with crane := { u.crane with carried := none } })) := by
  unfold resolveLoad
  rw [h]
  exact if_pos hc

end

/-! ## RESUME (R61) -/

section
variable {m : State} {cfg : StationConfig} {p : Pins} (hcfg : m.cfg = cfg) (hpins : m.pins = p)
include hcfg hpins

theorem readEncoders_eq : readEncoders m = { m with crane := { m.crane with
    pos := ⟨hold 0 cfg.nc p.encCol, hold 1 cfg.nl p.encLevel⟩ } } := by
  subst hcfg hpins
  rfl

theorem resumeSteps_of_running (h : m.crane.state ≠ .halted ∧ m.crane.state ≠ .faulted) : resumeSteps m =
    clearBlocked { m with crane := { m.crane with pos := ⟨hold 0 cfg.nc p.encCol, hold 1 cfg.nl p.encLevel⟩ } } := by
  unfold resumeSteps
  rw [readEncoders_eq hcfg hpins]
  exact if_neg (by simpa using h)

theorem resumeSteps_of_halted (h : m.crane.state = .halted ∨ m.crane.state = .faulted) : resumeSteps m =
    let x := resolveLoad { m with crane := { m.crane with pos := ⟨hold 0 cfg.nc p.encCol, hold 1 cfg.nl p.encLevel⟩ } }
    if x.1 = true then leaveHalt (clearBlocked x.2) else clearBlocked x.2 := by
  unfold resumeSteps
  rw [readEncoders_eq hcfg hpins]
  exact if_pos h

end

end Sys2Proof.Machine

namespace Sys2Proof.Proofs
open Sys2Proof Sys2Proof.Machine Sys2Proof.Safety

/-- Settles O45: STOCK_END and STOP set their flag, the crane stops by its state, and the mode is derived. -/
theorem stockEndAndStopHeard : Obligations.StockEndAndStopHeard := by
  intro p h rest s hg e
  have gateway {i : Item} (hi : i.fromGateway = true) : senderGood s.cfg h.sender i = true :=
    (senderGood_of_fromGateway hi _ _).trans hg
  refine ⟨fun hr ho hm => ?_, fun hr hm => ?_⟩
  · have hgate : gate s .stockEnd = .admitted := hm.elim (fun hm => by rw [gate_of_stocking hm]; rfl) (gate_of_working · _)
    exact exec_admitted (c := .stockEnd p h rest) rfl hr (gateway rfl) ho rfl hgate rfl
  · intro stopped
    have hgate : gate s .stop = .admitted := by
      rcases mode_of_live hr.live with hw | hs | hh | hf
      · exact gate_of_working hw _
      · rw [gate_of_stocking hs]; rfl
      · exact absurd hh hm
      · rw [gate_of_fiery hf]
        split <;> rfl
    have hcrane : { e with stopTaken := true }.crane = s.crane := entered_crane p h s
    have hstow : { e with stopTaken := true }.planner.stow = s.planner.stow := entered_stow p h s
    have stops {v : State} (hv : craneStop { e with stopTaken := true } = v) : exec (.stop p h rest) s = stopped v :=
      exec_admitted (c := .stop p h rest) rfl hr (gateway rfl) rfl rfl hgate (hv ▸ rfl)
    refine ⟨fun hs => stops (craneStop_of_rest hcrane hs), fun hs => stops (craneStop_of_halted hcrane hs),
      fun hs => stops (craneStop_of_stopping hcrane hs), fun hs => stops (craneStop_of_moving hcrane hs),
      fun m hs hc hst => stops ((craneStop_of_holding_unstaged hcrane hs hc hst).trans ?_), fun m st hs hc hst hb =>
      ⟨fun n hk hn => stops (craneStop_of_holding_fetch hcrane hs hc hst hb hk hn), fun hk hstaged =>
        stops (craneStop_of_holding_takeIn hcrane hs hc hst hb hk (hstow.trans hstaged))⟩⟩
    cases m.visit <;> rfl

/-- Settles O46: the load resolution, the blocked places and the next move, in the order of the rule. -/
theorem resumeHeard : Obligations.ResumeHeard := by
  refine ⟨fun u => ⟨leaveHalt_of_fire, leaveHalt_of_calm, nextMove_of_none, fun c v => nextMove_of_visit, fun c => nextMove_of_unbound,
    fun b e => makeStore_of_entry, fun b => makeStore_of_absent⟩, fun place u => ?_, fun p h rest s hr hg => ?_⟩
  · intro x sensors
    have hx : placeOf u.spine place = x := by cases place <;> rfl
    have hsensors : placeSensors u.pins place = sensors := by cases place <;> rfl
    refine ⟨rfl, fun kept lost hb h1 h2 => ?_, fun hother => clearPlace_of_other (by rw [hx, hsensors]; exact hother)⟩
    intro e
    refine (clearPlace_of_blocked (hx.trans hb) (by rw [hsensors]; exact h1) (by rw [hsensors]; exact h2)).trans ?_
    cases place <;> cases kept <;> rfl
  · intro m crane resumed unknown
    have hgate : gate s .resume = .admitted := gate_of_columns hr.live (fun _ => rfl) rfl rfl rfl
    have resumes {v : State} (hv : hearResume (entered p h s) = v) : exec (.resume p h rest) s = resumed v :=
      exec_admitted (c := .resume p h rest) rfl hr ((senderGood_of_fromGateway rfl _ _).trans hg) rfl rfl hgate (hv ▸ rfl)
    have hm : m.fixed = (entered p h s).fixed := deriveMode_fixed { entered p h s with stopTaken := false }
    have hcfg : m.cfg = s.cfg := (congrArg (·.2.2.2.1) hm).trans (entered_cfg p h s)
    have hpins : m.pins = p := (congrArg (·.2.2.2.2.1) hm).trans (entered_pins p h s)
    have steps {v : State} (hn : ¬ (m.crane.state = .stopping ∧ m.crane.fireStop = false)) (hv : resumeSteps m = v) :
        exec (.resume p h rest) s = resumed v := resumes ((if_neg hn).trans hv)
    refine ⟨fun hs hf => resumes (if_pos ⟨hs, hf⟩), fun hs => steps ?_ (resumeSteps_of_running hcfg hpins ?_), fun hs => ?_⟩
    · rcases hs with hs | hs | hs | hs | ⟨hs, hf⟩ <;> simp [*]
    · rcases hs with hs | hs | hs | hs | ⟨hs, hf⟩ <;> simp [hs]
    let w : State := { m with crane := crane }
    have load : w.pins.load = p.load := congrArg (·.load) hpins
    have halted {v : State} {free : Bool} (hv : resolveLoad w = (free, v)) :
        exec (.resume p h rest) s = resumed (if free = true then leaveHalt (clearBlocked v) else clearBlocked v) :=
      steps (by rcases hs with hs | hs <;> simp [hs]) ((resumeSteps_of_halted hcfg hpins hs).trans (by rw [hv]))
    have freed {v : State} (hv : resolveLoad w = (true, v)) :
        exec (.resume p h rest) s = resumed (leaveHalt (clearBlocked v)) :=
      (halted hv).trans (congrArg resumed (if_pos rfl))
    have kept {bin : Nat} (hv : resolveLoad w = (false, loadFault bin w)) :
        exec (.resume p h rest) s = unknown bin :=
      (halted hv).trans (congrArg resumed (if_neg (by simp)))
    refine ⟨fun hc hl => freed ((resolveLoad_of_none (u := w) hc).trans (if_neg (by simp [load, hl]))),
      fun hc hl => kept ((resolveLoad_of_none (u := w) hc).trans (if_pos (load.trans hl))), fun c hc =>
      ⟨fun hu hl => freed ((resolveLoad_of_certain (u := w) hc hu).trans (if_pos (load.trans hl))),
        fun hu hl => kept ((resolveLoad_of_certain (u := w) hc hu).trans (if_neg (by simp [load, hl]))),
        fun hu hl => freed ((resolveLoad_of_uncertain (u := w) hc hu).trans (if_pos (load.trans hl))),
        fun hu hl => freed ((resolveLoad_of_uncertain (u := w) hc hu).trans (if_neg (by simp [load, hl])))⟩⟩

end Sys2Proof.Proofs
end

