-- ==== Sys2Proof/Proofs/Removal.lean ====
section
/-! PROOFS. A bin that leaves the table takes its visits and its calls with it; WRITE_OFF and QUERY heard (R21, R24, R80, R100,
R183). -/

namespace Sys2Proof.Machine
open Sys2Proof Safety

/-- Of a list with a key of its own in each member, those that share no key with the members a test names are those it does not
name. -/
theorem filter_without_keys {α β : Type} [DecidableEq β] {l : List α} {key : α → β} (hd : (l.map key).Nodup) (p : α → Bool) :
    (l.filter fun y => (l.filter p).all fun x => key y != key x) = l.filter fun y => !p y := by
  refine List.filter_congr fun y hy => ?_
  cases hp : p y with
  | true => exact Bool.eq_false_iff.mpr fun h => by simpa using List.all_eq_true.mp h y (List.mem_filter.mpr ⟨hy, hp⟩)
  | false =>
    refine List.all_eq_true.mpr fun x hx => bne_iff_ne.mpr fun h => ?_
    obtain ⟨hx, hpx⟩ := List.mem_filter.mp hx
    rw [eq_of_key_eq hd hy hx h, hpx] at hp
    cases hp

/-! ## The visits of a bin fail (R80) -/

/-- The state once a visit has failed without the release of a hold. -/
def visitFails (why : FailReason) (u : State) (v : Visit) : State :=
  let queued := v.requests.filterMap fun id => (tblGet u.planner.pool id).bind fun r =>
    if r.state = .queued then some (id, r.ref) else none
  let gone := { u with planner := { u.planner with
    visits := u.planner.visits.filter fun w => w.number != v.number
    pool := v.requests.foldl (fun pool id => tblErase id pool) u.planner.pool } }
  if queued = [] then gone
  else notice (.requestFailed (.head v.bin (some v.desk) (why.num * 16))
    :: queued.map fun r => .requestFailed (.request r.1 r.2)) gone

theorem failVisit_of_visit {n : Nat} {u : State} {v : Visit} (hv : u.planner.visit n = some v) (hn : v.number = n) (why : FailReason) :
    failVisit n why false u = visitFails why u v := by
  subst hn
  unfold failVisit visitFails
  rw [hv]
  simp only [withRefs_queuedOf, List.isEmpty_iff]
  cases v.room <;> rfl

theorem visitFails_line (why : FailReason) (u : State) (v : Visit) : ∃ line, visitFails why u v = { u with
    line := line
    planner := { u.planner with
      visits := u.planner.visits.filter fun w => w.number != v.number
      pool := v.requests.foldl (fun pool id => tblErase id pool) u.planner.pool } } := by
  unfold visitFails
  dsimp only
  split
  · exact ⟨_, rfl⟩
  · exact ⟨_, rfl⟩

theorem visit_of_mem {pl : Planner} (hd : (pl.visits.map (·.number)).Nodup) {v : Visit} (hv : v ∈ pl.visits) :
    pl.visit v.number = some v := by
  obtain ⟨w, hw⟩ := Option.isSome_iff_exists.mp
    (List.find?_isSome.mpr ⟨v, hv, by simp⟩ : (pl.visits.find? fun w => w.number == v.number).isSome = true)
  exact hw.trans (congrArg some (eq_of_key_eq hd (List.mem_of_find?_eq_some hw) hv (by simpa using List.find?_some hw)))

theorem visit_removed_other {l : List Visit} {n m : Nat} (hne : n ≠ m) :
    ((l.filter fun w => w.number != m).find? fun w => w.number == n) = l.find? fun w => w.number == n := by
  rw [List.find?_filter]
  refine congrArg (l.find? ·) (funext fun w => ?_)
  by_cases h : w.number = n
  · simp [h, hne]
  · simp [h]

/-- Visits of a list, each in the planner and no two of one number, fail together. -/
theorem failVisit_foldl {l : List Visit} (hd : (l.map (·.number)).Nodup) (why : FailReason) {u : State}
    (hl : ∀ v, v ∈ l → u.planner.visit v.number = some v) :
    (l.map (·.number)).foldl (fun u n => failVisit n why false u) u = l.foldl (visitFails why) u := by
  induction l generalizing u with
  | nil => rfl
  | cons v l ih =>
    obtain ⟨hv, hd⟩ := List.nodup_cons.mp hd
    rw [List.map_cons, List.foldl_cons, List.foldl_cons, failVisit_of_visit (hl v List.mem_cons_self) rfl]
    refine ih hd fun w hw => ?_
    have hne : w.number ≠ v.number := fun h => hv (List.mem_map.mpr ⟨w, hw, h⟩)
    obtain ⟨line, hline⟩ := visitFails_line why u v
    rw [hline]
    exact (visit_removed_other hne).trans (hl w (List.mem_cons_of_mem _ hw))

/-- Failed visits leave the list and the pool; nothing else changes but the queue. -/
theorem visitFails_foldl (why : FailReason) (l : List Visit) (u : State) : l.foldl (visitFails why) u = { u with
    line := (l.foldl (visitFails why) u).line
    planner := { u.planner with
      visits := u.planner.visits.filter fun w => l.all fun v => w.number != v.number
      pool := l.foldl (fun pool v => v.requests.foldl (fun pool id => tblErase id pool) pool) u.planner.pool } } := by
  induction l generalizing u with
  | nil => simp [filter_of_true]
  | cons v l ih =>
    obtain ⟨line, hline⟩ := visitFails_line why u v
    refine (ih (visitFails why u v)).trans ?_
    simp only [List.foldl_cons, hline, List.filter_filter, List.all_cons, Bool.and_comm]

theorem failVisits_eq {u : State} (hd : (u.planner.visits.map (·.number)).Nodup) (bin : Nat) (why : FailReason) :
    failVisits bin why u = (u.planner.visits.filter fun v => v.bin == bin).foldl (visitFails why) u := by
  have hsub : (u.planner.visits.filter fun v => v.bin == bin).Sublist u.planner.visits := List.filter_sublist
  exact failVisit_foldl (hd.sublist (hsub.map _)) why fun v hv => visit_of_mem hd (hsub.subset hv)

/-! ## The calls that hold a bin close (R100) -/

/-- The call holds the bin. -/
def holdsBin (bin : Nat) (x : CallEntry) : Bool :=
  match x.own with
  | some (_, b) => b == bin
  | none => false

/-- The entry of a call whose bin was removed. -/
def markWritten (bin : Nat) (x : CallEntry) : CallEntry := if holdsBin bin x = true then { x with writtenOff := true } else x

@[simp] theorem markWritten_call (bin : Nat) (x : CallEntry) : (markWritten bin x).call = x.call := by
  unfold markWritten
  split <;> rfl

@[simp] theorem markWritten_own (bin : Nat) (x : CallEntry) : (markWritten bin x).own = x.own := by
  unfold markWritten
  split <;> rfl

@[simp] theorem markWritten_state (bin : Nat) (x : CallEntry) : (markWritten bin x).state = x.state := by
  unfold markWritten
  split <;> rfl

@[simp] theorem holdsBin_markWritten (bin : Nat) (x : CallEntry) : holdsBin bin (markWritten bin x) = holdsBin bin x := by
  simp [holdsBin]

@[simp] theorem closesFrame_markWritten (bin : Nat) (x : CallEntry) (f : TxFrame) :
    closesFrame (markWritten bin x) f = closesFrame x f := by simp [closesFrame]

/-- A call whose bin was removed has no hold to release. -/
theorem heldReleased_markWritten {bin : Nat} {x : CallEntry} (h : holdsBin bin x = true) (d : Directory) :
    heldReleased d (markWritten bin x) = d := by
  have hw : (markWritten bin x).writtenOff = true := by simp [markWritten, h]
  unfold heldReleased
  rw [hw]
  cases (markWritten bin x).own <;> rfl

theorem claimUnreserved_markWritten {bin : Nat} {x : CallEntry} (h : holdsBin bin x = true) (l : List (Nat × Desk)) :
    claimUnreserved l (markWritten bin x) = if x.state = .claimQueued then l.erase (bin, x.call.desk) else l := by
  unfold claimUnreserved
  unfold holdsBin at h
  simp only [markWritten_own, markWritten_state, markWritten_call]
  cases hown : x.own with
  | none => simp [hown] at h
  | some own =>
    rw [hown] at h
    rw [← beq_iff_eq.mp h]

theorem closeCallsOfBin_eq {u : State} (hcalls : (u.placement.calls.map (·.call)).Nodup) (bin : Nat) :
    let closing := u.placement.calls.filter fun x => holdsBin bin x && x.state != .claimSent
    closeCallsOfBin bin u = { u with
      line := { u.line with queue := u.line.queue.filter fun f => !closing.any fun x => closesFrame x f }
      planner := { u.planner with
        reservations := closing.foldl (fun l x => if x.state = .claimQueued then l.erase (bin, x.call.desk) else l)
          u.planner.reservations }
      placement := { u.placement with
        calls := (u.placement.calls.filter fun x => !(holdsBin bin x && x.state != .claimSent)).map (markWritten bin) } } := by
  intro closing
  have hholds (x : CallEntry) (hx : x ∈ closing) : holdsBin bin x = true :=
    (Bool.and_eq_true_iff.mp (List.mem_filter.mp hx).2).1
  have hmarked : ((u.placement.calls.map (markWritten bin)).filter fun x => holdsBin bin x && x.state != .claimSent)
      = closing.map (markWritten bin) := by
    rw [List.filter_map]
    exact congrArg (List.map _) (List.filter_congr fun x _ => by simp)
  have hd : ((u.placement.calls.map (markWritten bin)).map (·.call)).Nodup := by
    have hcall : ((u.placement.calls.map (markWritten bin)).map (·.call)) = u.placement.calls.map (·.call) := by simp
    exact hcall ▸ hcalls
  have hsub : (closing.map (markWritten bin)).Sublist (u.placement.calls.map (markWritten bin)) :=
    List.filter_sublist.map _
  unfold closeCallsOfBin
  change ((List.filter (fun x => holdsBin bin x && x.state != .claimSent) (u.placement.calls.map (markWritten bin))).map
    (·.call)).foldl (fun s c => closeCall c s)
      { u with placement := { u.placement with calls := u.placement.calls.map (markWritten bin) } } = _
  rw [hmarked, closeCalls_of_entries (hd.sublist (hsub.map _)) fun x hx =>
    entry_of_mem (pc := { u.placement with calls := u.placement.calls.map (markWritten bin) }) hd (hsub.subset hx)]
  have hdir : (closing.map (markWritten bin)).foldl heldReleased u.dir = u.dir := by
    rw [List.foldl_map]
    exact foldl_same (fun d x hx => heldReleased_markWritten (hholds x hx) d) _
  have hres (l : List (Nat × Desk)) : (closing.map (markWritten bin)).foldl claimUnreserved l
      = closing.foldl (fun l x => if x.state = .claimQueued then l.erase (bin, x.call.desk) else l) l := by
    rw [List.foldl_map]
    exact foldl_congr_mem (fun l x hx => claimUnreserved_markWritten (hholds x hx) l) l
  have hleft : ((u.placement.calls.map (markWritten bin)).filter fun y =>
        (closing.map (markWritten bin)).all fun x => y.call != x.call)
      = (u.placement.calls.filter fun x => !(holdsBin bin x && x.state != .claimSent)).map (markWritten bin) := by
    rw [List.filter_map, ← filter_without_keys hcalls]
    exact congrArg (List.map _) (List.filter_congr fun y _ => by simp [closing, List.all_map, Function.comp_def])
  have hframes : (fun f => !(closing.map (markWritten bin)).any fun x => closesFrame x f)
      = fun f => !closing.any fun x => closesFrame x f := by simp [List.any_map, Function.comp_def]
  rw [hdir, hres, hleft, hframes]

/-! ## WRITE_OFF and QUERY (R24, R183, R190) -/

theorem lostBin_of_entry {d : Directory} {bin : Nat} {x : BinEntry} {since : Time} (hx : d.bin bin = some x)
    (hs : x.status = .out .unknown since ∨ ∃ seg, x.status = .out (.caught seg) since) : d.lostBin bin = true := by
  unfold Directory.lostBin
  rw [hx]
  rcases hs with hs | ⟨seg, hs⟩ <;> simp only [hs]

theorem lostBin_of_other {d : Directory} {bin : Nat} (h : ∀ x since, d.bin bin = some x →
    x.status ≠ .out .unknown since ∧ ∀ seg, x.status ≠ .out (.caught seg) since) : d.lostBin bin = false := by
  unfold Directory.lostBin
  cases hx : d.bin bin with
  | none => rfl
  | some x =>
    dsimp only
    split
    · next seg since hs => exact absurd hs ((h x since hx).2 seg)
    · next since hs => exact absurd hs (h x since hx).1
    · rfl

theorem writeOff_of_entry {cfg : StationConfig} {d : Directory} {bin : Nat} {x : BinEntry} (hx : d.bin bin = some x) :
    d.writeOff cfg bin = ((d.dropBin bin).subLoad x.slot (binShare cfg x)).setSlot x.slot ⟨.empty, false⟩ := by
  unfold Directory.writeOff Directory.removeBin
  rw [hx]

theorem hearQuery_of_room {u : State} (h : noticeCount u.line.queue < 6 ∧ u.line.queue.length < 12) : hearQuery u = { u with
    limited := false
    line := { u.line with queue := insertFrame (noticeFrame [.stationReport (stationReport u)]) u.line.queue, discarded := false } } := by
  have hadm (r : List Item) : admission (noticeFrame r) u.line.queue = .taken (insertFrame (noticeFrame r) u.line.queue) :=
    (admission_notice rfl).trans (if_pos h)
  unfold hearQuery noticeEnters notice
  simp only [hadm]
  rfl

theorem hearQuery_of_full {u : State} (h : 6 ≤ noticeCount u.line.queue ∨ 12 ≤ u.line.queue.length) :
    hearQuery u = { u with line := { u.line with discarded := true } } := by
  have hadm (r : List Item) : admission (noticeFrame r) u.line.queue = .lost := (admission_notice rfl).trans (if_neg (by omega))
  unfold hearQuery noticeEnters notice
  simp only [hadm]
  rfl

end Sys2Proof.Machine

namespace Sys2Proof.Proofs
open Sys2Proof Sys2Proof.Machine Sys2Proof.Safety

/-- Settles O47: visits and calls of a removed bin go together; the report is written out; WRITE_OFF and QUERY by their cases. -/
theorem writeOffAndQueryHeard : Obligations.WriteOffAndQueryHeard := by
  refine ⟨fun u bin why hinv hd => ?_, fun u => ?_, fun p h rest s hg ho => ?_⟩
  · intro holds failing closing fails failed
    have hfailed : failed = failVisits bin why u := (failVisits_eq hd bin why).symm
    have hform : failed = { u with
        line := failed.line
        planner := { u.planner with
          visits := u.planner.visits.filter fun v => v.bin != bin
          pool := failing.foldl (fun pool v => v.requests.foldl (fun pool id => tblErase id pool) pool) u.planner.pool } } := by
      refine (visitFails_foldl why (u.planner.visits.filter fun v => v.bin == bin) u).trans ?_
      rw [filter_without_keys hd]
      rfl
    refine ⟨hform, ?_⟩
    unfold binRemoved
    rw [← hfailed]
    have hplacement : failed.placement = u.placement := congrArg (·.placement) hform
    have hreservations : failed.planner.reservations = u.planner.reservations := congrArg (·.planner.reservations) hform
    refine (closeCallsOfBin_eq (hplacement ▸ hinv.distinct) bin).trans ?_
    simp only [hplacement, hreservations, any_closesFrame]
    rfl
  · intro heardAge
    have hmode : u.mode.num = match u.mode with
        | .run => 1 | .guard => 2 | .fire => 3 | .fireSafe => 4 | .halted => 5 | .start | .unconfigured | .stocking => 0 := by
      cases u.mode <;> rfl
    have hcrane : u.crane.state.num = match u.crane.state with
        | .idle => 0 | .moving => 1 | .holding => 2 | .stopping => 3 | .parked => 4 | .halted => 5 | .faulted => 6 := by
      cases u.crane.state <;> rfl
    have hage (n : Nat) : neighbourAge u n = heardAge n := by
      unfold neighbourAge
      cases hn : tblGet u.line.neighbours n <;> simp only [heardAge, hn] <;> rfl
    unfold stationReport
    rw [hmode, hcrane, hage, hage] <;> rfl
  · intro e
    refine ⟨fun bin hr hm => ?_, fun hr => ?_⟩
    · have hgate : gate s (.writeOff bin) = .admitted := by
        rcases hm with hm | hm | ⟨hm, hs⟩
        · exact gate_of_working hm _
        · rw [gate_of_halted hm]; rfl
        · rw [gate_of_fiery hm, if_pos (.inl hs)]; rfl
      have answer {verdict : Verdict} {v : State} (hv : hearWriteOff bin e = (verdict, v)) :
          exec (.writeOff p h bin rest) s = .next (follow s h rest (Answers.none.note verdict) v) :=
        exec_admitted (c := .writeOff p h bin rest) rfl hr ((senderGood_of_fromGateway rfl _ _).trans hg) ho rfl hgate hv
      have hcfg : e.cfg = s.cfg := entered_cfg p h s
      refine ⟨fun x since hx hs => answer ((if_pos (lostBin_of_entry hx hs)).trans ?_),
        fun hother => answer (if_neg (by simp [lostBin_of_other hother]))⟩
      exact congrArg (fun d => (Verdict.taken, binRemoved bin .writtenOff (e.setDir d))) (hcfg ▸ writeOff_of_entry hx)
    · have hgate : gate s .query = .admitted := gate_of_columns hr.live (fun _ => rfl) rfl rfl rfl
      have heard {v : State} (hv : hearQuery e = v) : exec (.query p h rest) s = .next (follow s h rest took v) :=
        exec_admitted (c := .query p h rest) rfl hr ((senderGood_of_fromGateway rfl _ _).trans hg) ho rfl hgate (hv ▸ rfl)
      exact ⟨fun hq => heard (hearQuery_of_room hq), fun hq => heard (hearQuery_of_full hq)⟩

end Sys2Proof.Proofs
end

