-- ==== Sys2Proof/Proofs/Slots.lean ====
section
/-! PROOFS. The lock map, the slot chosen, holds, and take-out, store and re-slot of a bin (R7, R11 to R17). -/

namespace Sys2Proof.Machine
open Sys2Proof Safety

/-! ## The lock map (R7) -/

/-- A column of the rack is in a lock code's set. -/
theorem lockSet_iff {nc col code : Nat} (hcode : code ≤ 7) : lockSet nc col code = true ↔
    (code = 1 ∧ nc - max 1 (nc / 8) + 1 ≤ col) ∨ (code = 2 ∧ nc - max 1 (nc / 4) + 1 ≤ col)
      ∨ (code = 3 ∧ nc - max 1 (nc / 2) + 1 ≤ col) ∨ (code = 4 ∧ col ≤ max 1 (nc / 8)) ∨ (code = 5 ∧ col ≤ max 1 (nc / 4))
      ∨ (code = 6 ∧ col ≤ max 1 (nc / 2)) ∨ code = 7 := by
  have run (n : Nat) : max 1 (nc / n) = lockRun nc n := rfl
  simp only [run]
  obtain rfl | rfl | rfl | rfl | rfl | rfl | rfl | rfl : code = 0 ∨ code = 1 ∨ code = 2 ∨ code = 3 ∨ code = 4 ∨ code = 5
    ∨ code = 6 ∨ code = 7 := by omega
  all_goals simp [lockSet]

theorem lockedSlot_eq (cfg : StationConfig) (sl : Slot) : lockedSlot cfg sl =
    (lockSet cfg.nc sl.col (match sl.face with | .L => cfg.lockL | .R => cfg.lockR).code
      != (match sl.face with | .L => cfg.lockL | .R => cfg.lockR).complement) := by
  cases h : sl.face <;> simp only [lockedSlot, h]

/-! ## The order of the rack's slots (R17) -/

/-- Column, then level, then face L. -/
def slotOrder (sl x : Slot) : Prop :=
  sl.col < x.col ∨ sl.col = x.col ∧ (sl.level < x.level ∨ sl.level = x.level ∧ (sl.face = .L ∨ x.face = .R))

theorem slotOrder_self (sl : Slot) : slotOrder sl sl := .inr ⟨rfl, .inr ⟨rfl, by cases sl.face <;> simp⟩⟩

theorem rackSlots_ordered (cfg : StationConfig) : (rackSlots cfg).Pairwise slotOrder := by
  refine List.pairwise_flatMap.mpr ⟨fun c _ => List.pairwise_flatMap.mpr ⟨fun l _ => ?_, ?_⟩, ?_⟩
  · simp [slotOrder]
  · refine List.pairwise_lt_range.imp fun {l k} hlt x hx y hy => ?_
    simp only [List.mem_cons, List.not_mem_nil, or_false] at hx hy
    rcases hx with rfl | rfl <;> rcases hy with rfl | rfl <;> exact .inr ⟨rfl, .inl (Nat.succ_lt_succ hlt)⟩
  · refine List.pairwise_lt_range.imp fun {c k} hlt x hx y hy => .inl ?_
    simp only [List.mem_flatMap, List.mem_cons, List.not_mem_nil, or_false] at hx hy
    obtain ⟨_, _, rfl | rfl⟩ := hx <;> obtain ⟨_, _, rfl | rfl⟩ := hy <;> exact Nat.succ_lt_succ hlt

theorem mem_rackSlots {cfg : StationConfig} {sl : Slot} : sl ∈ rackSlots cfg ↔ inRack cfg sl = true := by
  obtain ⟨face, col, level⟩ := sl
  simp only [rackSlots, inRack, List.mem_flatMap, List.mem_range, List.mem_cons, List.not_mem_nil, or_false, Slot.mk.injEq,
    Bool.and_eq_true, decide_eq_true_eq]
  refine ⟨fun ⟨c, hc, k, hk, h⟩ => by omega, fun ⟨⟨⟨h1, h2⟩, h3⟩, h4⟩ => ⟨col - 1, by omega, level - 1, by omega, ?_⟩⟩
  cases face <;> simp [Nat.sub_add_cancel h1, Nat.sub_add_cancel h3]

theorem nearestSlot_none {cfg : StationConfig} {start : Pos} {l : List Slot} : nearestSlot cfg start l = none ↔ l = [] := by
  cases l with
  | nil => simp [nearestSlot]
  | cons y l =>
    unfold nearestSlot
    cases nearestSlot cfg start l with
    | none => simp
    | some best =>
      dsimp only
      split <;> simp

/-- The first of least leg in a list of slots: those of as short a leg come no earlier. -/
theorem nearestSlot_least {cfg : StationConfig} {start : Pos} {l : List Slot} (hl : l.Pairwise slotOrder) {sl : Slot}
    (h : nearestSlot cfg start l = some sl) : sl ∈ l ∧ ∀ x ∈ l, legTime cfg start sl.pos true < legTime cfg start x.pos true
      ∨ legTime cfg start sl.pos true = legTime cfg start x.pos true ∧ slotOrder sl x := by
  induction l generalizing sl with
  | nil => cases h
  | cons y l ih =>
    obtain ⟨hy, hl⟩ := List.pairwise_cons.mp hl
    unfold nearestSlot at h
    have first (x : Slot) (hx : x ∈ l)
        (hle : legTime cfg start y.pos true ≤ legTime cfg start x.pos true) :
        legTime cfg start y.pos true < legTime cfg start x.pos true
          ∨ legTime cfg start y.pos true = legTime cfg start x.pos true ∧ slotOrder y x :=
      (Nat.lt_or_eq_of_le hle).imp id fun he => ⟨he, hy x hx⟩
    cases hr : nearestSlot cfg start l with
    | none =>
      rw [hr] at h
      cases h
      have hnil : l = [] := nearestSlot_none.mp hr
      subst hnil
      exact ⟨List.mem_cons_self, fun x hx => by
        obtain rfl : x = y := by simpa using hx
        exact .inr ⟨rfl, slotOrder_self x⟩⟩
    | some best =>
      obtain ⟨hmem, hbest⟩ := ih hl hr
      rw [hr] at h
      dsimp only at h
      split at h
      · next hlt =>
        cases h
        refine ⟨List.mem_cons_of_mem _ hmem, fun x hx => ?_⟩
        rcases List.mem_cons.mp hx with rfl | hx
        · exact .inl hlt
        · exact hbest x hx
      · next hle =>
        cases h
        refine ⟨List.mem_cons_self, fun x hx => ?_⟩
        rcases List.mem_cons.mp hx with rfl | hx
        · exact .inr ⟨rfl, slotOrder_self x⟩
        · refine first x hx ?_
          rcases hbest x hx with hb | ⟨hb, -⟩ <;> omega

theorem mem_keptSlots {cfg : StationConfig} {d : Directory} {restricted : Bool} {share : Nat} {sl : Slot} :
    sl ∈ d.keptSlots cfg restricted share ↔ inRack cfg sl = true ∧ d.slotRec sl = ⟨.empty, false⟩
      ∧ lockedSlot cfg sl = restricted ∧ d.load sl + share ≤ cfg.columnMassLimit := by
  simp [Directory.keptSlots, mem_rackSlots, and_assoc]

theorem chooseSlot_none {cfg : StationConfig} {d : Directory} {restricted : Bool} {share : Nat} {start : Pos} :
    d.chooseSlot cfg restricted share start = none ↔ ∀ sl, sl ∉ d.keptSlots cfg restricted share :=
  nearestSlot_none.trans List.eq_nil_iff_forall_not_mem

theorem chooseSlot_least {cfg : StationConfig} {d : Directory} {restricted : Bool} {share : Nat} {start : Pos} {sl : Slot}
    (h : d.chooseSlot cfg restricted share start = some sl) : sl ∈ d.keptSlots cfg restricted share
      ∧ ∀ x ∈ d.keptSlots cfg restricted share, legTime cfg start sl.pos true < legTime cfg start x.pos true
        ∨ legTime cfg start sl.pos true = legTime cfg start x.pos true ∧ slotOrder sl x :=
  nearestSlot_least ((rackSlots_ordered cfg).sublist List.filter_sublist) h

/-- The slot chosen is EMPTY without doubt. -/
theorem chooseSlot_empty {cfg : StationConfig} {d : Directory} {restricted : Bool} {share : Nat} {start : Pos} {sl : Slot}
    (h : d.chooseSlot cfg restricted share start = some sl) : d.slotRec sl = ⟨.empty, false⟩ :=
  (mem_keptSlots.mp (chooseSlot_least h).1).2.1

/-! ## Column loads -/

section
variable {d : Directory} {cfg : StationConfig} {b : Nat}

theorem load_addLoad_same (h : tblWf d.loads = true) (sl : Slot) (n : Nat) : (d.addLoad sl n).load sl = d.load sl + n :=
  d.load_setLoad_same h sl _

theorem load_subLoad_same (h : tblWf d.loads = true) (sl : Slot) (n : Nat) : (d.subLoad sl n).load sl = d.load sl - n :=
  d.load_setLoad_same h sl _

theorem load_addLoad_other {sl x : Slot} (h : faceKey x ≠ faceKey sl) (n : Nat) : (d.addLoad sl n).load x = d.load x :=
  d.load_setLoad_other h _

theorem load_subLoad_other {sl x : Slot} (h : faceKey x ≠ faceKey sl) (n : Nat) : (d.subLoad sl n).load x = d.load x :=
  d.load_setLoad_other h _

/-! ## Holds (R11) -/

theorem placeHold_of_entry {e : BinEntry} (he : d.bin b = some e) (v m : Nat) : d.placeHold cfg b v m =
    if d.holdFits cfg e v m = true then
      some ((d.setBin b { e with promVolume := e.promVolume + v, promMass := e.promMass + m }).addLoad e.slot m)
    else none := by
  unfold Directory.placeHold
  rw [he]

theorem releaseHold_of_entry {e : BinEntry} (he : d.bin b = some e) (v m : Nat) :
    d.releaseHold b v m = (d.setBin b (e.lessRoom v m)).subLoad e.slot m := by
  unfold Directory.releaseHold
  rw [he]

theorem isOut_iff {e : BinEntry} : e.isOut = true ↔ e.status ≠ .stored := by
  unfold BinEntry.isOut
  cases e.status <;> simp

theorem holdFits_iff {e : BinEntry} {v m : Nat} : d.holdFits cfg e v m = true ↔ e.status = .stored ∧ e.doubt = false
    ∧ e.fill + e.promVolume + v ≤ (gradeOf cfg e.grade).capacity
    ∧ e.mass + e.promMass + m ≤ (gradeOf cfg e.grade).massLimit ∧ d.load e.slot + m ≤ cfg.columnMassLimit := by
  have hout : e.isOut = false ↔ e.status = .stored := by rw [← Bool.not_eq_true, isOut_iff, Classical.not_not]
  simp [Directory.holdFits, hout, and_assoc]

end

end Sys2Proof.Machine

namespace Sys2Proof.Proofs
open Sys2Proof Sys2Proof.Machine Sys2Proof.Safety

/-- Settles O16: the lock sets code by code; the search keeps the first of least leg in a list in the order of the ties. -/
theorem chosenSlotIsNearest : Obligations.ChosenSlotIsNearest := by
  refine ⟨fun cfg sl => ?_, fun cfg d restricted share start => ?_⟩
  · intro lock run inSet hcode _ _
    have hset : lockSet cfg.nc sl.col lock.code = true ↔ inSet := lockSet_iff hcode
    have hlocked : lockedSlot cfg sl = (lockSet cfg.nc sl.col lock.code != lock.complement) := lockedSlot_eq cfg sl
    exact ⟨fun hc => by rw [hlocked, hc, Bool.bne_false, hset], fun hc => by rw [hlocked, hc, ← hset]; simp⟩
  · intro fitting leg
    exact ⟨chooseSlot_none.trans (forall_congr' fun sl => not_congr mem_keptSlots), fun sl h =>
      ⟨mem_keptSlots.mp (chooseSlot_least h).1, fun x hx => (chooseSlot_least h).2 x (mem_keptSlots.mpr hx)⟩⟩

/-- Settles O17: the hold adds what its release takes off again. -/
theorem holdPlacedAndReleased : Obligations.HoldPlacedAndReleased := by
  intro cfg d b v m e he
  refine ⟨?_, fun d' hd hwf => ?_⟩
  · rw [placeHold_of_entry he, ← holdFits_iff]
    split <;> simp [*]
  · rw [placeHold_of_entry he] at hd
    split at hd
    · cases hd
      have hb : b ≠ 0 := Directory.bin_ne_zero he
      have hheld : ((d.setBin b { e with promVolume := e.promVolume + v, promMass := e.promMass + m }).addLoad e.slot m).bin b
          = some { e with promVolume := e.promVolume + v, promMass := e.promMass + m } := d.bin_setBin_same hb _
      have hload := load_addLoad_same (d := d.setBin b { e with promVolume := e.promVolume + v, promMass := e.promMass + m })
        hwf e.slot m
      have hwf' := d.loads_setLoad_wf hwf e.slot (d.load e.slot + m)
      rw [releaseHold_of_entry hheld]
      refine ⟨hheld, fun x hx => d.bin_setBin_other hx _, hload, fun sl hsl => load_addLoad_other hsl m, rfl, rfl, rfl,
        fun x => ?_, fun sl => ?_, rfl⟩
      · by_cases hx : x = b
        · subst hx
          refine (Directory.bin_setBin_same _ hb _).trans (he.symm ▸ ?_)
          simp [BinEntry.lessRoom]
        · exact (Directory.bin_setBin_other _ hx _).trans (d.bin_setBin_other hx _)
      · by_cases hsl : faceKey sl = faceKey e.slot
        · rw [Directory.load_face _ hsl, d.load_face hsl]
          calc _ = (d.setLoad e.slot (d.load e.slot + m)).load e.slot - m := load_subLoad_same hwf' e.slot m
            _ = d.load e.slot + m - m := congrArg (· - m) hload
            _ = d.load e.slot := Nat.add_sub_cancel _ _
        · exact (load_subLoad_other hsl m).trans (load_addLoad_other hsl m)
    · cases hd

end Sys2Proof.Proofs
end

