-- ==== Sys2Proof/Proofs/Carriage.lean ====
section
/-! PROOFS. Take-out, store, re-slot and location of a bin, and the visits that follow them (R13 to R16, R58, R68, R73, R103). -/

namespace Sys2Proof.Machine
open Sys2Proof Safety

theorem slots_setSlot_wf {d : Directory} (h : tblWf d.slots = true) (sl : Slot) (r : SlotRec) : tblWf (d.setSlot sl r).slots = true := by
  unfold Directory.setSlot
  dsimp only
  split
  · exact tblWf_erase _ _ h
  · exact tblWf_put _ _ _ h

/-! ## An entry rewritten with its share -/

section
variable {cfg : StationConfig} {d : Directory} {b : Nat} {old new : BinEntry}

theorem bin_rewriteBin_same (hb : b ≠ 0) : (d.rewriteBin cfg b old new).bin b = some new := d.bin_setBin_same hb new

theorem bin_rewriteBin_other {x : Nat} (h : x ≠ b) : (d.rewriteBin cfg b old new).bin x = d.bin x := d.bin_setBin_other h new

theorem load_rewriteBin_same (h : tblWf d.loads = true) (hs : faceKey new.slot = faceKey old.slot) :
    (d.rewriteBin cfg b old new).load old.slot = d.load old.slot - binShare cfg old + binShare cfg new := by
  have hwf : tblWf ((d.setBin b new).subLoad old.slot (binShare cfg old)).loads = true := d.loads_setLoad_wf h _ _
  calc _ = (d.rewriteBin cfg b old new).load new.slot := Directory.load_face _ hs.symm
    _ = ((d.setBin b new).subLoad old.slot (binShare cfg old)).load new.slot + binShare cfg new := load_addLoad_same hwf _ _
    _ = ((d.setBin b new).subLoad old.slot (binShare cfg old)).load old.slot + binShare cfg new := by
      rw [Directory.load_face _ hs]
    _ = d.load old.slot - binShare cfg old + binShare cfg new :=
      congrArg (· + binShare cfg new) (load_subLoad_same (d := d.setBin b new) h _ _)

theorem load_rewriteBin_old (h : tblWf d.loads = true) (hs : faceKey new.slot ≠ faceKey old.slot) :
    (d.rewriteBin cfg b old new).load old.slot = d.load old.slot - binShare cfg old :=
  (load_addLoad_other hs.symm _).trans (load_subLoad_same (d := d.setBin b new) h _ _)

theorem load_rewriteBin_new (h : tblWf d.loads = true) (hs : faceKey new.slot ≠ faceKey old.slot) :
    (d.rewriteBin cfg b old new).load new.slot = d.load new.slot + binShare cfg new :=
  (load_addLoad_same (d.loads_setLoad_wf h _ _) _ _).trans
    (congrArg (· + binShare cfg new) (load_subLoad_other (d := d.setBin b new) hs _))

theorem load_rewriteBin_other {sl : Slot} (h1 : faceKey sl ≠ faceKey old.slot) (h2 : faceKey sl ≠ faceKey new.slot) :
    (d.rewriteBin cfg b old new).load sl = d.load sl :=
  (load_addLoad_other h2 _).trans (load_subLoad_other (d := d.setBin b new) h1 _)

end

/-! ## Take-out and store (R13, R14) -/

section
variable {cfg : StationConfig} {d : Directory} {b : Nat} {e : BinEntry} (he : d.bin b = some e)
include he

theorem takeOut_of_entry (now : Time) : d.takeOut now b = if e.isOut = true then none
    else some ((d.setSlot e.slot ⟨.reserved b, false⟩).setBin b { e with status := .out .crane now, overdue := false }) := by
  unfold Directory.takeOut
  rw [he]

theorem store_of_entry (content : Option Contents) (room : Option (Nat × Nat)) : d.store cfg b content room =
    if e.isOut = true then some ((d.setSlot e.slot ⟨.occupied b, false⟩).rewriteBin cfg b e (storedEntry cfg e content room))
    else none := by
  unfold Directory.store
  rw [he]

theorem reslot_of_entry (old : Slot) (start : Pos) : d.reslot cfg b old start =
    if e.status ≠ .stored ∧ e.slot = old ∧ d.slotState old = .reserved b then
      match d.chooseSlot cfg e.restricted (binShare cfg e) start with
      | some new =>
        some (new, ((d.setSlot old ⟨.bad, false⟩).setSlot new ⟨.reserved b, false⟩).rewriteBin cfg b e { e with slot := new })
      | none => none
    else none := by
  have hasked : (e.isOut && e.slot == old && d.slotState old == .reserved b) = true ↔
      e.status ≠ .stored ∧ e.slot = old ∧ d.slotState old = .reserved b := by simp [isOut_iff, and_assoc]
  unfold Directory.reslot
  rw [he]
  exact (ite_of_iff hasked _ _).trans (by cases d.chooseSlot cfg e.restricted (binShare cfg e) start <;> rfl)

/-- A store that is made: the entry, its slot, and the load of its column face. -/
theorem store_spec (hslots : tblWf d.slots = true) (hloads : tblWf d.loads = true) (hout : e.isOut = true)
    (content : Option Contents) (room : Option (Nat × Nat)) : ∃ d', d.store cfg b content room = some d'
      ∧ d'.bin b = some (storedEntry cfg e content room) ∧ d'.slotRec e.slot = ⟨.occupied b, false⟩
      ∧ d'.load e.slot = d.load e.slot - binShare cfg e + ((gradeOf cfg e.grade).tare
        + (storedEntry cfg e content room).mass + (storedEntry cfg e content room).promMass)
      ∧ (∀ sl, faceKey sl ≠ faceKey e.slot → d'.load sl = d.load sl) ∧ (∀ y, y ≠ b → d'.bin y = d.bin y)
      ∧ (∀ sl, slotKey sl ≠ slotKey e.slot → d'.slotRec sl = d.slotRec sl) ∧ d'.cursor = d.cursor := by
  have hb : b ≠ 0 := Directory.bin_ne_zero he
  have hslot : (storedEntry cfg e content room).slot = e.slot := by
    unfold storedEntry
    cases content <;> cases room <;> rfl
  have hgrade : (storedEntry cfg e content room).grade = e.grade := by
    unfold storedEntry
    cases content <;> cases room <;> rfl
  rw [← hgrade]
  refine ⟨_, (store_of_entry he content room).trans (if_pos hout), bin_rewriteBin_same hb,
    d.slotRec_setSlot_same hslots e.slot ⟨.occupied b, false⟩,
    load_rewriteBin_same (d := d.setSlot e.slot ⟨.occupied b, false⟩) hloads (congrArg faceKey hslot), fun sl hsl =>
    load_rewriteBin_other (d := d.setSlot e.slot ⟨.occupied b, false⟩) hsl (by rwa [hslot]), fun y hy => bin_rewriteBin_other hy,
    fun sl hsl => d.slotRec_setSlot_other hsl ⟨.occupied b, false⟩, rfl⟩

end

/-! ## Location (R16) -/

theorem locate_absent {d : Directory} {b : Nat} (h : d.bin b = none) (loc : Location) : d.locate b loc = d := by
  unfold Directory.locate
  rw [h]

theorem locate_stored {d : Directory} {b : Nat} {e : BinEntry} (he : d.bin b = some e) (h : e.status = .stored) (loc : Location) :
    d.locate b loc = d := by
  unfold Directory.locate
  rw [he]
  dsimp only
  rw [h]

theorem locate_out {d : Directory} {b : Nat} {e : BinEntry} {old : Location} {since : Time} (he : d.bin b = some e)
    (h : e.status = .out old since) (loc : Location) : d.locate b loc = d.setBin b { e with status := .out loc since } := by
  unfold Directory.locate
  rw [he]
  dsimp only
  rw [h]

/-! ## The visits of a bin stored or taken out (R68, R73) -/

theorem map_waiting (b : Nat) (p : Visit → Prop) [DecidablePred p] (f : Visit → Visit) (l : List Visit) :
    (l.map fun v => if v.bin = b ∧ p v then f v else v) = l.map fun v => if v.bin = b then (if p v then f v else v) else v :=
  List.map_congr_left fun v _ => by by_cases h : v.bin = b <;> simp [h]

theorem releaseBin_eq (b : Nat) (u : State) : releaseBin b u = { u with planner := { u.planner with
    visits := u.planner.visits.map fun v => if v.bin = b then
      (if v.state = .waitingBin then { v with state := readiness u b } else v) else v } } :=
  congrArg (fun l => { u with planner := { u.planner with visits := l } })
    (map_waiting b (fun v => v.state = .waitingBin) (fun v => { v with state := readiness u b }) u.planner.visits)

theorem withholdBin_eq (b : Nat) (u : State) : withholdBin b u = { u with planner := { u.planner with
    visits := u.planner.visits.map fun v => if v.bin = b then
      (if v.state = .ready ∨ v.state = .waitingRoute then { v with state := .waitingBin } else v) else v } } :=
  congrArg (fun l => { u with planner := { u.planner with visits := l } })
    (map_waiting b (fun v => v.state = .ready ∨ v.state = .waitingRoute) (fun v => { v with state := .waitingBin }) u.planner.visits)

theorem storeBin_of_refused {u : State} {b : Nat} {content : Option Contents} {room : Option (Nat × Nat)}
    (h : u.dir.store u.cfg b content room = none) : storeBin b content room u = u := by
  unfold storeBin
  rw [h]

theorem storeBin_of_store {u : State} {b : Nat} {content : Option Contents} {room : Option (Nat × Nat)} {d : Directory} {x : BinEntry}
    (h : u.dir.store u.cfg b content room = some d) (hx : d.bin b = some x) :
    storeBin b content room u = notice [.binStored ⟨b, x.slot.name⟩] (releaseBin b { u with dir := d }) := by
  have hslot : binSlot (releaseBin b (u.setDir d)) b = some x.slot := congrArg (Option.map _) hx
  unfold storeBin
  rw [h]
  exact congrArg (fun n => notice [.binStored ⟨b, n⟩] (releaseBin b { u with dir := d })) (by rw [hslot])

end Sys2Proof.Machine

namespace Sys2Proof.Proofs
open Sys2Proof Sys2Proof.Machine Sys2Proof.Safety

/-- Settles O18: a bin stored again as it is brings its slot, entry and load back. -/
theorem takeOutAndStore : Obligations.TakeOutAndStore := by
  refine ⟨fun cfg now d b e he hslots hloads hshare => ⟨fun hout => (takeOut_of_entry he now).trans (if_pos hout), fun hin => ?_⟩,
    fun d b loc => ⟨fun h => locate_absent h loc, fun e he => ⟨fun h => locate_stored he h loc, fun old since h => ?_⟩⟩,
    fun cfg d b e content room he hslots hloads => ?_, fun u b => ⟨fun content room => storeBin_of_refused,
      fun content room d x h hx => ?_, fun x => readiness_of_entry, readiness_of_absent, releaseBin_eq b u, withholdBin_eq b u⟩⟩
  · have hb : b ≠ 0 := Directory.bin_ne_zero he
    have hstored : e.status = .stored := by
      refine Classical.byContradiction fun h => ?_
      rw [isOut_iff.mpr h] at hin
      cases hin
    refine ⟨(store_of_entry he none none).trans (if_neg (by simp [hin])), _,
      (takeOut_of_entry he now).trans (if_neg (by simp [hin])), Directory.bin_setBin_same _ hb _,
      d.slotRec_setSlot_same hslots e.slot ⟨.reserved b, false⟩, rfl, rfl, fun x hx => Directory.bin_setBin_other _ hx _,
      fun sl hsl => d.slotRec_setSlot_other hsl ⟨.reserved b, false⟩, ?_⟩
    have hentry : ((d.setSlot e.slot ⟨.reserved b, false⟩).setBin b { e with status := .out .crane now, overdue := false }).bin b
        = some { e with status := .out .crane now, overdue := false } := Directory.bin_setBin_same _ hb _
    obtain ⟨d'', hstore, hbin, hslot, hload, hloads', hbins, hslots', -⟩ :=
      store_spec (cfg := cfg) hentry (slots_setSlot_wf hslots e.slot ⟨.reserved b, false⟩) hloads rfl none none
    refine ⟨d'', hstore, hbin.trans ?_, hslot, fun sl => ?_, fun x hx => (hbins x hx).trans (Directory.bin_setBin_other _ hx _),
      fun sl hsl => (hslots' sl hsl).trans (d.slotRec_setSlot_other hsl ⟨.reserved b, false⟩)⟩
    · rw [hstored] <;> rfl
    · by_cases hsl : faceKey sl = faceKey e.slot
      · rw [Directory.load_face _ hsl, d.load_face hsl]
        exact hload.trans (Nat.sub_add_cancel hshare)
      · exact hloads' sl hsl
  · intro t
    have ht : t = d.setBin b { e with status := .out loc since } := locate_out he h loc
    rw [ht]
    exact ⟨d.bin_setBin_same (Directory.bin_ne_zero he) _, fun x hx => d.bin_setBin_other hx _, rfl, rfl, rfl, rfl⟩
  · intro promVolume promMass kept x
    have hx : storedEntry cfg e content room = x := by
      unfold storedEntry
      cases content <;> cases room <;> rfl
    refine ⟨fun h => (store_of_entry he content room).trans (if_neg (by simp [isOut_iff, h])), fun loc since h => ?_⟩
    exact hx ▸ store_spec (cfg := cfg) he hslots hloads (isOut_iff.mpr (by simp [h])) content room
  · exact (storeBin_of_store h hx).trans (congrArg _ (releaseBin_eq b { u with dir := d }))

end Sys2Proof.Proofs
end

