-- ==== Sys2Proof/Proofs/Moves.lean ====
section
/-! PROOFS. Moves made current and started, the re-slot, and the crane reporting in position (R15, R29, R32, R43, R46, R47, R52, R57,
R59). -/

namespace Sys2Proof.Machine
open Sys2Proof Safety

/-! ## The re-slot (R15) -/

theorem slotRec_setSlot_listed (d : Directory) (sl : Slot) {r : SlotRec} (h : r ≠ ⟨.empty, false⟩) : (d.setSlot sl r).slotRec sl = r := by
  simp [Directory.slotRec, Directory.setSlot, h, tblGet_put_same]

theorem reslot_absent {cfg : StationConfig} {d : Directory} {b : Nat} (h : d.bin b = none) (old : Slot) (start : Pos) :
    d.reslot cfg b old start = none := by
  unfold Directory.reslot
  rw [h]

/-- Two slots of one key have one record. -/
theorem slotRec_key (d : Directory) {x y : Slot} (h : slotKey x = slotKey y) : d.slotRec x = d.slotRec y := by
  simp only [Directory.slotRec, h]

theorem reslot_spec {cfg : StationConfig} {d : Directory} {b : Nat} {old new : Slot} {start : Pos} {x : BinEntry}
    (hx : d.bin b = some x) (hasked : x.status ≠ .stored ∧ x.slot = old ∧ d.slotState old = .reserved b)
    (hnew : d.chooseSlot cfg x.restricted (binShare cfg x) start = some new) (hloads : tblWf d.loads = true) :
    ∃ t, d.reslot cfg b old start = some (new, t) ∧ t.bin b = some { x with slot := new }
      ∧ t.slotRec old = ⟨.bad, false⟩ ∧ t.slotRec new = ⟨.reserved b, false⟩
      ∧ (∀ sl, slotKey sl ≠ slotKey old → slotKey sl ≠ slotKey new → t.slotRec sl = d.slotRec sl)
      ∧ (∀ y, y ≠ b → t.bin y = d.bin y) ∧ t.cursor = d.cursor
      ∧ (faceKey new ≠ faceKey old →
        t.load old = d.load old - binShare cfg x ∧ t.load new = d.load new + binShare cfg x)
      ∧ (faceKey new = faceKey old → t.load old = d.load old - binShare cfg x + binShare cfg x)
      ∧ ∀ sl, faceKey sl ≠ faceKey old → faceKey sl ≠ faceKey new → t.load sl = d.load sl := by
  obtain ⟨hout, rfl, hold⟩ := hasked
  have hne : slotKey x.slot ≠ slotKey new := fun h => by
    have hrec := (slotRec_key d h).trans (chooseSlot_empty hnew)
    rw [Directory.slotState, hrec] at hold
    cases hold
  have hreslot := reslot_of_entry (cfg := cfg) hx x.slot start
  rw [if_pos ⟨hout, rfl, hold⟩, hnew] at hreslot
  refine ⟨_, hreslot, bin_rewriteBin_same (Directory.bin_ne_zero hx),
    ((d.setSlot x.slot ⟨.bad, false⟩).slotRec_setSlot_other hne ⟨.reserved b, false⟩).trans (slotRec_setSlot_listed d _ (by simp)),
    slotRec_setSlot_listed (d.setSlot x.slot ⟨.bad, false⟩) new (r := ⟨.reserved b, false⟩) (by simp), fun sl h1 h2 =>
      ((d.setSlot x.slot ⟨.bad, false⟩).slotRec_setSlot_other h2 ⟨.reserved b, false⟩).trans (d.slotRec_setSlot_other h1 ⟨.bad, false⟩),
    fun y hy => bin_rewriteBin_other hy, rfl, fun hf => ⟨load_rewriteBin_old hloads hf, load_rewriteBin_new hloads hf⟩,
    fun hf => load_rewriteBin_same hloads hf, fun sl h1 h2 => load_rewriteBin_other h1 h2⟩

/-! ## A move started (R46) -/

theorem visitTo_eq (link : Option Nat) (st : VisitState) (u : State) : visitTo link st u = { u with planner := { u.planner with
    visits := u.planner.visits.map fun w => if link = some w.number then { w with state := st } else w } } := by
  cases link with
  | none => simp [visitTo]
  | some n =>
    have hvisits : (u.planner.visits.map fun w => if w.number = n then { w with state := st } else w)
        = u.planner.visits.map fun w => if some n = some w.number then { w with state := st } else w :=
      List.map_congr_left fun w _ => ite_of_iff (by rw [Option.some_inj, eq_comm]) _ _
    exact congrArg (fun l => { u with planner := { u.planner with visits := l } }) hvisits

section
variable {m : Move} {u : State}

theorem startMove_of_fire (hm : u.mode.fiery = true) (hk : m.kind ≠ .park) :
    startMove m u = { u with crane := { u.crane with state := .idle, current := none } } := if_pos (by simp [hm, hk])

theorem startMove_of_park (hk : m.kind = .park) : startMove m u = { u with crane := { u.crane with
      pos := encoderPos u.cfg u.pins, state := .moving
      current := some { m with timer := some ⟨u.clock, m.estimate + m.estimate / 4 + u.cfg.slack⟩ }
      forkCycle := false, tag := .awaited, holdTimer := none, fireStop := false, fireFinish := false
      drive := .go m.kind m.target } } := by
  cases m
  cases hk
  exact if_neg (by simp)

theorem startMove_of_calm (hm : u.mode.fiery = false) : startMove m u = reportStart m { u with crane := { u.crane with
      pos := encoderPos u.cfg u.pins, state := .moving
      current := some { m with timer := some ⟨u.clock, m.estimate + m.estimate / 4 + u.cfg.slack⟩ }
      forkCycle := false, tag := .awaited, holdTimer := none, fireStop := false, fireFinish := false
      drive := .go m.kind m.target } } := if_neg (by simp [hm])

theorem reportStart_of_fetch (hk : m.kind = .fetch) : reportStart m u = visitTo m.visit .fetching (stampStart u) := by
  unfold reportStart
  rw [hk]

theorem reportStart_of_deliver (hk : m.kind = .deliver) : reportStart m u = visitTo m.visit .delivering (stampStart u) := by
  unfold reportStart
  rw [hk]

theorem reportStart_of_takeIn (hk : m.kind = .takeIn) : reportStart m u =
    { u with planner := { u.planner with startStamp := some u.clock, stow := .current, mark := false } } := by
  unfold reportStart
  rw [hk] <;> rfl

theorem reportStart_of_store (hk : m.kind = .store) : reportStart m u = stampStart u := by
  unfold reportStart
  rw [hk]

theorem startMove_dir (m : Move) (u : State) : (startMove m u).dir = u.dir := by
  unfold startMove reportStart visitTo
  dsimp only
  split
  · rfl
  · cases m.kind <;> dsimp only <;> cases m.visit <;> rfl

end

/-! ## A move made current (R32, R43, R52) -/

/-- The move that becomes current, with its estimate. -/
def estimated (kind : MoveKind) (target : Target) (visit : Option Nat) (bound : Bool) (u : State) : Move :=
  ⟨kind, target, visit, bound, legTime u.cfg (encoderPos u.cfg u.pins) target.at kind.forks, none⟩

theorem forks_eq (kind : MoveKind) : kind.forks = (kind != .park) := by cases kind <;> rfl

/-- The state once the estimate was asked. -/
def estimating (target : Target) (u : State) : State := { u with
  limited := u.limited || legHeld u.cfg (encoderPos u.cfg u.pins) target.at, planner := { u.planner with passed := none }
  crane := { u.crane with estimateHeld := legHeld u.cfg (encoderPos u.cfg u.pins) target.at } }

/-- The state with the continuation staged, its leg estimated from a position. -/
def continued (cfg : StationConfig) (start : Pos) (next : Move) (u : State) : State := { u with
  limited := u.limited || legHeld cfg start next.target.at, crane := { u.crane with staged := some next } }

section
variable {kind : MoveKind} {target : Target} {visit : Option Nat} {bound : Bool} {u : State}

theorem makeCurrent_of_started (h : kind = .store ∨ kind = .park ∨ kind = .deliver ∧ u.spine.portOut = .empty) :
    makeCurrent kind target visit bound u = startMove (estimated kind target visit bound u) (estimating target u) := by
  rcases h with rfl | rfl | ⟨rfl, h⟩
  · rfl
  · rfl
  · exact if_pos h

theorem makeCurrent_of_held (h : u.spine.portOut ≠ .empty) : makeCurrent .deliver target visit bound u =
    holdDeliver (estimated .deliver target visit bound u) (estimating target u) := if_neg h

theorem stageContinuation_fetch {m : Move} {cfg : StationConfig} (hk : m.kind = .fetch) (hcfg : u.cfg = cfg) :
    stageContinuation m u = continued cfg m.target.at
      ⟨.deliver, .pos (portPos cfg), m.visit, true, legTime cfg m.target.at (portPos cfg) true, none⟩ u := by
  subst hcfg
  unfold stageContinuation
  rw [hk] <;> rfl

theorem makeCurrent_fetch : makeCurrent .fetch target visit bound u =
    continued u.cfg target.at ⟨.deliver, .pos (portPos u.cfg), visit, true, legTime u.cfg target.at (portPos u.cfg) true, none⟩
      (startMove (estimated .fetch target visit bound u) (estimating target u)) :=
  stageContinuation_fetch (m := estimated .fetch target visit bound u) rfl (congrArg (·.2.2.2.1) (startMove_fixed _ (estimating target u)))

/-- The target of the STORE behind a TAKE_IN. -/
def takeInTarget (u : State) : Target :=
  match u.spine.portIn.record?.bind fun r => binSlot u r.bin with
  | some sl => .slot sl
  | none => .pos (portPos u.cfg)

theorem stageContinuation_takeIn {m : Move} {cfg : StationConfig} {t : Target} (hk : m.kind = .takeIn) (hcfg : u.cfg = cfg)
    (ht : takeInTarget u = t) : stageContinuation m u =
      continued cfg (portPos cfg) ⟨.store, t, none, true, legTime cfg (portPos cfg) t.at true, none⟩ u := by
  subst hcfg ht
  unfold stageContinuation
  rw [hk] <;> rfl

theorem takeInTarget_startMove (m : Move) : takeInTarget (startMove m (estimating target u)) = takeInTarget u := by
  have hcfg : (startMove m (estimating target u)).cfg = u.cfg := congrArg (·.2.2.2.1) (startMove_fixed m (estimating target u))
  unfold takeInTarget binSlot
  rw [startMove_spine, startMove_dir, hcfg] <;> rfl

theorem makeCurrent_takeIn : makeCurrent .takeIn target visit bound u =
    continued u.cfg (portPos u.cfg) ⟨.store, takeInTarget u, none, true, legTime u.cfg (portPos u.cfg) (takeInTarget u).at true, none⟩
      (startMove (estimated .takeIn target visit bound u) (estimating target u)) := by
  have hcfg : (startMove (estimated .takeIn target visit bound u) (estimating target u)).cfg = u.cfg :=
    congrArg (·.2.2.2.1) (startMove_fixed _ (estimating target u))
  have hmade : makeCurrent .takeIn target visit bound u = stageContinuation (estimated .takeIn target visit bound u)
    (startMove (estimated .takeIn target visit bound u) (estimating target u)) := rfl
  exact hmade.trans (stageContinuation_takeIn rfl hcfg (takeInTarget_startMove _))

theorem takeInTarget_of_entry {r : TravelRecord} {e : BinEntry} (hr : u.spine.portIn = .holding r) (he : u.dir.bin r.bin = some e) :
    takeInTarget u = .slot e.slot := by
  have hslot : (u.spine.portIn.record?.bind fun r => binSlot u r.bin) = some e.slot := by
    rw [hr]
    exact congrArg (Option.map _) he
  unfold takeInTarget
  rw [hslot]

theorem takeInTarget_of_absent (h : ∀ r, u.spine.portIn = .holding r → u.dir.bin r.bin = none) :
    takeInTarget u = .pos (portPos u.cfg) := by
  have hslot : (u.spine.portIn.record?.bind fun r => binSlot u r.bin) = none := by
    cases hp : u.spine.portIn with
    | holding r => exact congrArg (Option.map _) (h r hp)
    | _ => rfl
  unfold takeInTarget
  rw [hslot]

end

/-! ## In position (R47, R57, R59) -/

section
variable {u : State} {m : Move} (hs : u.crane.state = .moving) (hm : u.crane.current = some m) (hf : u.crane.forkCycle = false)
include hs hm hf

theorem inPosition_of_store (hk : m.kind = .store) : inPosition u = storeInPosition m (readEncoders u) := by
  unfold inPosition
  rw [hs, hm]
  refine (if_neg (by simp [hf])).trans ?_
  rw [hk]

theorem inPosition_of_park (hk : m.kind = .park) : inPosition u = parkCompletes (readEncoders u) := by
  unfold inPosition
  rw [hs, hm]
  refine (if_neg (by simp [hf])).trans ?_
  rw [hk]

theorem inPosition_of_forks (hk : m.kind = .fetch ∨ m.kind = .deliver ∨ m.kind = .takeIn) :
    inPosition u = { u with crane := { u.crane with pos := encoderPos u.cfg u.pins, forkCycle := true } } := by
  unfold inPosition
  rw [hs, hm]
  refine (if_neg (by simp [hf])).trans ?_
  rcases hk with hk | hk | hk <;> rw [hk] <;> rfl

end

section
variable {u : State} {m : Move} {sl : Slot} {c : Carried}

theorem storeInPosition_of_slot (ht : m.target = .slot sl) (hc : u.crane.carried = some c) : storeInPosition m u =
    if u.pins.slot = true then slotConflict c.bin sl u else { u with crane := { u.crane with forkCycle := true } } := by
  unfold storeInPosition
  rw [ht, hc] <;> rfl

theorem slotConflict_of_reslot {new : Slot} {d : Directory}
    (h : u.dir.reslot u.cfg c.bin sl (encoderPos u.cfg u.pins) = some (new, d)) : slotConflict c.bin sl u =
      storeAgain new (slotConflictFault c.bin sl new (clearCurrent { u with
        limited := u.limited || u.dir.reslotHeld u.cfg c.bin sl (encoderPos u.cfg u.pins), dir := d })) := by
  unfold slotConflict
  dsimp only
  rw [h] <;> rfl

theorem slotConflict_of_none (h : u.dir.reslot u.cfg c.bin sl (encoderPos u.cfg u.pins) = none) : slotConflict c.bin sl u =
    storeBlocked c.bin sl.name { u with
      limited := u.limited || u.dir.reslotHeld u.cfg c.bin sl (encoderPos u.cfg u.pins) } := by
  unfold slotConflict
  dsimp only
  rw [h] <;> rfl

/-! ## STORE_BLOCKED (R57) -/

/-- The crane without its current move. -/
def Crane.cleared (c : Crane) : Crane := { c with current := none, forkCycle := false, tag := .awaited }

theorem storeBlocked_of_unstaged (b : Nat) (n : SlotName) (h : u.crane.staged = none) : storeBlocked b n u =
    faultNotice { faultBody .storeBlocked with bin := b, slotA := n }
      { u with crane := { u.crane.cleared with state := .faulted, fireFinish := false, drive := .stop } } := by
  unfold storeBlocked
  rw [discardStaged_of_none (s := clearCurrent u) h] <;> rfl

theorem storeBlocked_of_fetch (b : Nat) (n : SlotName) {st : Move} {k : Nat} (h : u.crane.staged = some st) (hb : st.bound = false)
    (hk : st.kind = .fetch) (hn : st.visit = some k) : storeBlocked b n u =
      faultNotice { faultBody .storeBlocked with bin := b, slotA := n }
        { handBack k { u with crane := { u.crane.cleared with staged := none } } with
          crane := { u.crane.cleared with staged := none, state := .faulted, fireFinish := false, drive := .stop } } := by
  have hdiscard : discardStaged (clearCurrent u) = handBack k { u with crane := { u.crane.cleared with staged := none } } := by
    rw [discardStaged_of_some (s := clearCurrent u) h, if_neg (by simp [hb]), hk, hn] <;> rfl
  have hcrane : (handBack k { u with crane := { u.crane.cleared with staged := none } }).crane
      = { u.crane.cleared with staged := none } := handBack_crane _ _
  unfold storeBlocked
  rw [hdiscard]
  exact congrArg (fun c => faultNotice { faultBody .storeBlocked with bin := b, slotA := n }
    { handBack k { u with crane := { u.crane.cleared with staged := none } } with
      crane := { c with state := .faulted, fireFinish := false, drive := .stop } }) hcrane

theorem storeBlocked_of_takeIn (b : Nat) (n : SlotName) {st : Move} (h : u.crane.staged = some st) (hb : st.bound = false)
    (hk : st.kind = .takeIn) (hst : u.planner.stow = .staged) : storeBlocked b n u =
      faultNotice { faultBody .storeBlocked with bin := b, slotA := n } { u with
        crane := { u.crane.cleared with staged := none, state := .faulted, fireFinish := false, drive := .stop }
        planner := { u.planner with stow := .ready } } := by
  have hdiscard : discardStaged (clearCurrent u) = { u with
      crane := { u.crane.cleared with staged := none }, planner := { u.planner with stow := .ready } } := by
    rw [discardStaged_of_some (s := clearCurrent u) h, if_neg (by simp [hb]), hk]
    exact if_pos hst
  unfold storeBlocked
  rw [hdiscard] <;> rfl

end

end Sys2Proof.Machine

namespace Sys2Proof.Proofs
open Sys2Proof Sys2Proof.Machine Sys2Proof.Safety

/-- Settles O48: a start by the move's kind, a move made current with what it stages, and a STORE in position by its slot sensor. -/
theorem inPositionReported : Obligations.InPositionReported := by
  refine ⟨fun cfg d b old start => ⟨fun h => reslot_absent h old start, fun x hx => ?_⟩, fun m u => ?_,
    fun kind target visit bound u => ?_, fun p m s hl hs hm hfork => ?_⟩
  · intro share asked
    refine ⟨fun h => (reslot_of_entry hx old start).trans (if_neg h), fun h => ?_, fun new h hnew hloads => reslot_spec hx h hnew hloads⟩
    have hnone : d.chooseSlot cfg x.restricted (binShare cfg x) start = none := h
    refine (reslot_of_entry hx old start).trans ?_
    rw [hnone]
    exact ite_self _
  · intro stamped seen moved
    exact ⟨startMove_of_fire, startMove_of_park, fun hcalm =>
      ⟨fun hk => (startMove_of_calm hcalm).trans ((reportStart_of_fetch hk).trans (visitTo_eq _ _ _)),
        fun hk => (startMove_of_calm hcalm).trans ((reportStart_of_deliver hk).trans (visitTo_eq _ _ _)),
        fun hk => (startMove_of_calm hcalm).trans (reportStart_of_takeIn hk),
        fun hk => (startMove_of_calm hcalm).trans (reportStart_of_store hk)⟩⟩
  · intro here port m asked started made followed
    have hm : estimated kind target visit bound u = m := by
      unfold estimated
      rw [forks_eq] <;> rfl
    have hstarted : startMove (estimated kind target visit bound u) (estimating target u) = started := by rw [hm] <;> rfl
    refine ⟨fun h => (makeCurrent_of_started h).trans hstarted, fun hk h => ?_, fun hk => ?_, fun hk =>
      ⟨fun r e hr he => ?_, fun h => ?_⟩⟩
    · have hheld : made = holdDeliver (estimated kind target visit bound u) (estimating target u) := by
        cases hk
        exact makeCurrent_of_held h
      rw [hheld, hm]
      exact visitTo_eq _ _ _
    · have hfetch : made = followed target.at ⟨.deliver, .pos port, visit, true, legTime u.cfg target.at port true, none⟩ := by
        cases hk
        exact makeCurrent_fetch
      exact hfetch
    · have htake : made = continued u.cfg port ⟨.store, takeInTarget u, none, true, legTime u.cfg port (takeInTarget u).at true, none⟩
          started := by
        cases hk
        exact makeCurrent_takeIn
      rw [htake, takeInTarget_of_entry hr he] <;> rfl
    · have htake : made = continued u.cfg port ⟨.store, takeInTarget u, none, true, legTime u.cfg port (takeInTarget u).at true, none⟩
          started := by
        cases hk
        exact makeCurrent_takeIn
      rw [htake, takeInTarget_of_absent h] <;> rfl
  · intro e here rest forks
    have acts {v : State} (hv : inPosition (s.setPins p) = v) : exec (.inPosition p) s = .next (settle v) :=
      exec_acts (c := .inPosition p) rfl hl hv
    have parks (hk : m.kind = .park) : inPosition (s.setPins p) = parkCompletes (readEncoders e) :=
      inPosition_of_park (u := s.setPins p) hs hm hfork hk
    refine ⟨fun hk => acts (inPosition_of_forks (u := s.setPins p) hs hm hfork hk), fun sl c hk ht hc => ?_,
      fun hk => ⟨fun ha => acts ((parks hk).trans (if_pos ha)), fun ha => acts ((parks hk).trans (if_neg (Bool.eq_false_iff.mp ha)))⟩⟩
    intro held
    have stores : inPosition (s.setPins p) = if p.slot = true then slotConflict c.bin sl (readEncoders e) else forks :=
      (inPosition_of_store (u := s.setPins p) hs hm hfork hk).trans (storeInPosition_of_slot (u := readEncoders e) ht hc)
    have conflicts (hslot : p.slot = true) : inPosition (s.setPins p) = slotConflict c.bin sl (readEncoders e) :=
      stores.trans (if_pos hslot)
    have blocks (hslot : p.slot = true) (hr : s.dir.reslot s.cfg c.bin sl here = none) :
        inPosition (s.setPins p) = storeBlocked c.bin sl.name { readEncoders e with limited := held } :=
      (conflicts hslot).trans (slotConflict_of_none (u := readEncoders e) hr)
    refine ⟨fun hslot => acts (stores.trans (if_neg (by simp [hslot]))), fun new d hslot hr hfin => ?_, fun new d hslot hr hfin => ?_,
      fun hslot hr hst => acts ((blocks hslot hr).trans (storeBlocked_of_unstaged _ _ hst)), fun st hslot hr hst hb => ?_⟩
    · exact acts ((conflicts hslot).trans ((slotConflict_of_reslot (u := readEncoders e) hr).trans (if_neg (Bool.eq_false_iff.mp hfin))))
    · exact acts ((conflicts hslot).trans ((slotConflict_of_reslot (u := readEncoders e) hr).trans (if_pos hfin)))
    · exact ⟨fun n hk hn => acts ((blocks hslot hr).trans (storeBlocked_of_fetch _ _ hst hb hk hn)),
        fun hk hstow => acts ((blocks hslot hr).trans (storeBlocked_of_takeIn _ _ hst hb hk hstow))⟩

end Sys2Proof.Proofs
end

