-- ==== Sys2Proof/Proofs/ForkTag.lean ====
section
/-! PROOFS. The fork tag: doubt marks, a visit that fails, and the report of the tag reader (R4, R50, R51, R73, R75, R80). -/

namespace Sys2Proof.Machine
open Sys2Proof Safety

/-! ## Doubt marks (R4) -/

/-- A slot that keeps its state keeps the counts. -/
theorem leave_enter_occupied {c : SlotCounts} {b : Nat} (h : 0 < c.occupied) :
    (c.leave (.occupied b)).enter (.occupied b) = c := by
  cases c
  simp only [SlotCounts.leave, SlotCounts.enter, SlotCounts.mk.injEq, and_true, true_and]
  exact Nat.sub_add_cancel h

section
variable {d : Directory} {b : Nat} {e : BinEntry} (he : d.bin b = some e) (hs : e.status = .stored)
include he hs

theorem doubtBin_of_stored : d.doubtBin b =
    (d.setSlot e.slot { d.slotRec e.slot with doubt := true }).setBin b { e with doubt := true } := by
  unfold Directory.doubtBin
  rw [he]
  exact if_neg (by simp [isOut_iff, hs])

theorem doubtBin_bin_same : (d.doubtBin b).bin b = some { e with doubt := true } := by
  rw [doubtBin_of_stored he hs]
  exact Directory.bin_setBin_same _ (Directory.bin_ne_zero he) _

theorem doubtBin_bin_other {x : Nat} (h : x ≠ b) : (d.doubtBin b).bin x = d.bin x := by
  rw [doubtBin_of_stored he hs]
  exact Directory.bin_setBin_other _ h _

theorem doubtBin_slot_same : (d.doubtBin b).slotRec e.slot = ⟨d.slotState e.slot, true⟩ := by
  rw [doubtBin_of_stored he hs]
  exact slotRec_setSlot_listed d e.slot (r := { d.slotRec e.slot with doubt := true }) (by simp)

theorem doubtBin_slot_other {sl : Slot} (h : slotKey sl ≠ slotKey e.slot) : (d.doubtBin b).slotRec sl = d.slotRec sl := by
  rw [doubtBin_of_stored he hs]
  exact d.slotRec_setSlot_other h _

theorem doubtBin_state (sl : Slot) : (d.doubtBin b).slotState sl = d.slotState sl := by
  unfold Directory.slotState
  by_cases h : slotKey sl = slotKey e.slot
  · rw [slotRec_key _ h, slotRec_key d h, doubtBin_slot_same he hs]
    rfl
  · rw [doubtBin_slot_other he hs h]

theorem doubtBin_loads : (d.doubtBin b).loads = d.loads := by
  rw [doubtBin_of_stored he hs] <;> rfl

theorem doubtBin_cursor : (d.doubtBin b).cursor = d.cursor := by
  rw [doubtBin_of_stored he hs] <;> rfl

theorem doubtBin_counts (ho : d.slotState e.slot = .occupied b) (hc : 0 < d.counts.occupied) : (d.doubtBin b).counts = d.counts := by
  have hrec : (d.slotRec e.slot).state = .occupied b := ho
  rw [doubtBin_of_stored he hs]
  exact (congrArg (fun st => (d.counts.leave st).enter st) hrec).trans (leave_enter_occupied hc)

end

theorem doubtBin_of_other {d : Directory} {x : Nat} (h : ∀ y, d.bin x = some y → y.status ≠ .stored) : d.doubtBin x = d := by
  unfold Directory.doubtBin
  cases hx : d.bin x with
  | none => rfl
  | some y => exact if_pos (isOut_iff.mpr (h y hx))

theorem markDoubt_of_ne {d : Directory} {b x : Nat} (h : x ≠ b) : d.markDoubt b x = (d.doubtBin b).doubtBin x := if_neg h

theorem markDoubt_self (d : Directory) (b : Nat) : d.markDoubt b b = d.doubtBin b := if_pos rfl

/-! ## A visit that fails (R80) -/

theorem failVisit_eq {u : State} {n : Nat} {v : Visit} (hv : u.planner.visit n = some v) (why : FailReason) (release : Bool) :
    let queued := v.requests.filterMap fun id => (tblGet u.planner.pool id).bind fun r =>
      if r.state = .queued then some (id, r.ref) else none
    let gone := { u with planner := { u.planner with
      visits := u.planner.visits.filter fun w => w.number != n
      pool := v.requests.foldl (fun pool id => tblErase id pool) u.planner.pool } }
    let told := if queued = [] then gone
      else notice (.requestFailed (.head v.bin (some v.desk) (why.num * 16))
        :: queued.map fun r => .requestFailed (.request r.1 r.2)) gone
    failVisit n why release u = (match v.room with
      | some part => { told with dir := if release = true then u.dir.releaseHold v.bin part.volume part.mass else u.dir }
      | none => told) := by
  intro queued gone told
  have htold : told.dir = u.dir := by
    simp only [told]
    split <;> rfl
  have hfail : failVisit n why release u = (match v.room with
      | some part => if release = true then { told with dir := told.dir.releaseHold v.bin part.volume part.mass } else told
      | none => told) := by
    unfold failVisit
    rw [hv]
    simp only [withRefs_queuedOf, List.isEmpty_iff]
    rfl
  rw [hfail]
  cases v.room with
  | none => rfl
  | some part =>
    cases release with
    | true => exact congrArg (fun d => { told with dir := d.releaseHold v.bin part.volume part.mass }) htold
    | false => exact congrArg (fun d => { told with dir := d }) htold

/-! ## The report of the tag reader (R50, R51) -/

theorem fetchBin_of_visit {m : Move} {n : Nat} {v : Visit} {u : State} (hn : m.visit = some n) (hv : u.planner.visit n = some v) :
    fetchBin m u = v.bin := by
  have hlink : m.visit.bind u.planner.visit = some v := by rw [hn]; exact hv
  unfold fetchBin
  rw [hlink]

theorem forkTagRead_of_fetch {u : State} {m : Move} (hs : u.crane.state = .moving) (hm : u.crane.current = some m)
    (hk : m.kind = .fetch ∧ u.crane.forkCycle = true ∧ u.crane.tag = .awaited) (r : TagRead) : forkTagRead r u = (match r with
      | .hit => { u with crane := { u.crane with tag := .passed } }
      | .noRead => tagUnread m u
      | .mismatch x => tagMismatch m x u) := by
  unfold forkTagRead
  rw [hs, hm]
  refine (if_pos hk).trans ?_
  cases r <;> rfl

theorem tagMismatch_of_visit {u : State} {m : Move} {b n : Nat} (hb : fetchBin m u = b) (hn : m.visit = some n) (x : Nat) :
    let marked := { u with dir := u.dir.markDoubt b x }
    let failed := faultNotice { faultBody .tagMismatch with bin := b, second := x, slotA := m.target.name }
      (failVisit n .tagMismatch true (withholdBin b (if marked.dir.isDoubted x then withholdBin x marked else marked)))
    tagMismatch m x u = discardBound { failed with
      crane := { failed.crane with tag := .mismatched, current := some { m with visit := none } } } := by
  subst hb
  unfold tagMismatch
  rw [hn] <;> rfl

/-- The bound DELIVER goes from the stage, and the planner passes over the work that stands ready; a free move stays. -/
theorem discardBound_of_kept {u : State} (h : u.crane.staged = none ∨ ∃ d, u.crane.staged = some d ∧ d.bound = false) :
    discardBound u = u := by
  unfold discardBound
  rcases h with h | ⟨d, h, hb⟩
  · rw [h]
  · rw [h]
    exact if_neg (by simp [hb])

theorem discardBound_of_bound {u : State} {d : Move} (h : u.crane.staged = some d) (hb : d.bound = true) : discardBound u = { u with
    crane := { u.crane with staged := none }, planner := { u.planner with passed := some (readyWork u) } } := by
  unfold discardBound
  rw [h]
  exact if_pos hb

/-- Where every piece of ready work is passed over, a crane that is not IDLE gets none. -/
theorem selectWork_of_passed {u : State} (hst : u.crane.staged = none) (hidle : u.crane.state ≠ .idle)
    (hp : u.planner.passed = some (readyWork u)) : (selectWork u).crane = u.crane := by
  have hdue : selectionDue u = false := by
    unfold selectionDue
    rw [hp]
    simp only [Bool.or_eq_false_iff, beq_eq_false_iff_ne, List.any_eq_false]
    refine ⟨hidle, fun w hw hnone => ?_⟩
    have hseen : ((readyWork u).any fun x => x.1 == w.1 && decide (x.2 ≤ w.2)) = true :=
      List.any_eq_true.mpr ⟨w, hw, by simp⟩
    rw [hseen] at hnone
    cases hnone
  unfold selectWork
  rw [hst]
  dsimp only
  split
  · rfl
  · rw [if_neg (by simp [hdue])] <;> rfl

end Sys2Proof.Machine

namespace Sys2Proof.Proofs
open Sys2Proof Sys2Proof.Machine Sys2Proof.Safety

/-- Settles O49: the doubt marks bin by bin, the failed visit, and the report by what was read. -/
theorem forkTagReported : Obligations.ForkTagReported := by
  refine ⟨fun d b x e he hs => ?_, fun u n v why release hv => failVisit_eq hv why release, ⟨rfl, rfl, rfl⟩,
    fun p m n v s hl hs hm hk hfork htag hn hv => ?_⟩
  · intro t
    have hb (h : x = b) : t = d.doubtBin b := by rw [show t = d.markDoubt b x from rfl, h, markDoubt_self]
    have hne (h : x ≠ b) : t = (d.doubtBin b).doubtBin x := markDoubt_of_ne h
    by_cases hx : x = b
    · subst hx
      rw [hb rfl]
      refine ⟨doubtBin_bin_same he hs, doubtBin_slot_same he hs, fun y hy hys => ?_, fun h => absurd hs (h e he),
        fun z hz _ => doubtBin_bin_other he hs hz, doubtBin_loads he hs, doubtBin_cursor he hs, fun ho _ hc => doubtBin_counts he hs ho hc⟩
      obtain rfl : e = y := by simpa [he] using hy
      exact ⟨doubtBin_bin_same he hs, doubtBin_slot_same he hs, fun sl hsl _ => doubtBin_slot_other he hs hsl⟩
    · have hbin : (d.doubtBin b).bin x = d.bin x := doubtBin_bin_other he hs hx
      rw [hne hx]
      by_cases hstored : ∃ y, d.bin x = some y ∧ y.status = .stored
      · obtain ⟨y, hy, hys⟩ := hstored
        have hy' : (d.doubtBin b).bin x = some y := hbin.trans hy
        have hslot : ((d.doubtBin b).doubtBin x).slotRec e.slot = ⟨d.slotState e.slot, true⟩ := by
          by_cases h : slotKey e.slot = slotKey y.slot
          · rw [slotRec_key _ h, doubtBin_slot_same hy' hys, doubtBin_state he hs, Directory.slotState, Directory.slotState,
              slotRec_key d h]
          · rw [doubtBin_slot_other hy' hys h, doubtBin_slot_same he hs]
        refine ⟨(doubtBin_bin_other hy' hys (Ne.symm hx)).trans (doubtBin_bin_same he hs), hslot, fun z hz hzs => ?_,
          fun h => absurd hys (h y hy), fun z h1 h2 => (doubtBin_bin_other hy' hys h2).trans (doubtBin_bin_other he hs h1),
          (doubtBin_loads hy' hys).trans (doubtBin_loads he hs), (doubtBin_cursor hy' hys).trans (doubtBin_cursor he hs),
          fun ho hox hc => ?_⟩
        · obtain rfl : y = z := by simpa [hy] using hz
          refine ⟨doubtBin_bin_same hy' hys, (doubtBin_slot_same hy' hys).trans ?_, fun sl h1 h2 =>
            (doubtBin_slot_other hy' hys h2).trans (doubtBin_slot_other he hs h1)⟩
          rw [doubtBin_state he hs]
        · have hcounts := doubtBin_counts he hs ho hc
          exact (doubtBin_counts hy' hys ((doubtBin_state he hs _).trans (hox y hy hys)) (hcounts ▸ hc)).trans hcounts
      · have hnone : ∀ y, d.bin x = some y → y.status ≠ .stored := fun y hy hys => hstored ⟨y, hy, hys⟩
        have hsame : (d.doubtBin b).doubtBin x = d.doubtBin b := doubtBin_of_other fun y hy => hnone y (hbin.symm.trans hy)
        rw [hsame]
        exact ⟨doubtBin_bin_same he hs, doubtBin_slot_same he hs, fun y hy hys => absurd hys (hnone y hy),
          fun _ => ⟨hbin, fun sl hsl => doubtBin_slot_other he hs hsl⟩, fun z h1 _ => doubtBin_bin_other he hs h1,
          doubtBin_loads he hs, doubtBin_cursor he hs, fun ho _ hc => doubtBin_counts he hs ho hc⟩
  · intro e passed
    have acts {r : TagRead} {v : State} (hr : forkTagRead r (s.setPins p) = v) : exec (.forkTagRead p r) s = .next (settle v) :=
      exec_acts (c := .forkTagRead p r) rfl hl hr
    have reads := forkTagRead_of_fetch (u := s.setPins p) hs hm ⟨hk, hfork, htag⟩
    have hbin : fetchBin m e = v.bin := fetchBin_of_visit (u := e) hn hv
    refine ⟨acts (reads .hit), acts ((reads .noRead).trans ?_), fun x => ?_⟩
    · exact congrArg (fun b => faultNotice { faultBody .tagUnread with bin := b, slotA := m.target.name } passed) hbin
    · intro marked held failed put kept
      have hheld : held.crane = s.crane := by
        simp only [held, withholdBin_crane]
        split <;> rfl
      have hcrane : failed.crane = s.crane :=
        (faultNotice_crane _ (failVisit n .tagMismatch true held)).trans ((failVisit_crane n .tagMismatch true held).trans hheld)
      have hmismatch : forkTagRead (.mismatch x) (s.setPins p) = discardBound kept :=
        (reads (.mismatch x)).trans ((tagMismatch_of_visit (u := e) hbin hn x).trans
          (congrArg (fun c : Crane => discardBound { failed with
            crane := { c with tag := .mismatched, current := some { m with visit := none } } }) hcrane))
      refine ⟨fun hst => acts (hmismatch.trans (discardBound_of_kept hst)), fun d hst hb =>
        ⟨acts (hmismatch.trans (discardBound_of_bound (u := kept) hst hb)), fun _ => selectWork_of_passed rfl ?_ rfl⟩⟩
      exact fun h => by rw [hs] at h; cases h

end Sys2Proof.Proofs
end

