-- ==== Sys2Proof/Proofs/Completions.lean ====
section
/-! PROOFS. Fork done: the current move completes, and what follows a completion (R44, R47, R50, R54, R56, R58, R106, R135). -/

namespace Sys2Proof.Machine
open Sys2Proof Safety

/-! ## The bin handed over (R54, R106) -/

theorem handOver_of_entry {u : State} {bin n : Nat} {v : Visit} {x : BinEntry} (hv : u.planner.visit n = some v)
    (hx : u.dir.bin bin = some x) :
    let queued := v.requests.filter fun id => match tblGet u.planner.pool id with
      | some r => r.state == .queued
      | none => false
    let record : TravelRecord :=
      { bin := bin, home := u.cfg.station, dest := .desk v.desk, hop := 0
        purpose := if v.room = none then .lend else if queued = [] then .room else .lendRoom
        grade := x.grade, fill := x.fill, mass := x.mass, count := x.count, restricted := x.restricted
        call := v.room.map fun part => ⟨part.call, part.volume, part.mass⟩, requests := queued }
    handOver bin (some n) u = { u with
      spine := { u.spine with portOut := .holding record, portOutVisit := some n }
      dir := u.dir.locate bin .portOut
      planner := { u.planner with visits := u.planner.visits.map fun w =>
        if w.number = n then { w with state := .atPort } else w } } := by
  intro queued record
  have hlink : (some n).bind u.planner.visit = some v := hv
  have hqueued : u.planner.queuedOf v = queued := by
    unfold Planner.queuedOf
    refine List.filter_congr fun id _ => ?_
    unfold Planner.queued
    cases tblGet u.planner.pool id <;> rfl
  have hpurpose : (if v.room.isNone = true then Purpose.lend else if queued.isEmpty = true then .room else .lendRoom)
      = if v.room = none then Purpose.lend else if queued = [] then .room else .lendRoom := by
    simp only [Option.isNone_iff_eq_none, List.isEmpty_iff]
  have hrecord : formRecord u bin (some n) = record := by
    unfold formRecord
    dsimp only
    rw [hlink, hx]
    simp only [hqueued]
    exact congrArg (fun why => { record with purpose := why }) hpurpose
  have hfree : noteFree bin (some n) u = u := if_neg (by simp [hlink, hx])
  unfold handOver
  dsimp only
  rw [hrecord, hfree] <;> rfl

/-! ## What follows a completion (R44, R135) -/

section
variable {u : State} {m : Move}

theorem afterCompletion_of_order (h : u.crane.fireFinish = true) :
    afterCompletion u = park { u with crane := { u.crane with fireFinish := false } } := if_pos h

theorem afterCompletion_of_free (h : u.crane.fireFinish = false) : afterCompletion u = promote u := if_neg (by simp [h])

theorem promote_of_unstaged (h : u.crane.staged = none) :
    promote u = { u with crane := { u.crane with state := .idle, staged := none } } := by
  unfold promote
  rw [h]
  exact congrArg (fun st => { u with crane := { u.crane with state := .idle, staged := st } }) h

theorem promote_of_bound_store {c : Carried} (h : u.crane.staged = some m) (hb : m.bound = true) (hk : m.kind = .store)
    (hc : u.crane.carried = some c) : promote u = makeStore c.bin { u with crane := { u.crane with staged := none } } := by
  unfold promote
  rw [h]
  refine (if_pos hb).trans ?_
  dsimp only
  rw [hk, State.setCrane_crane, hc] <;> rfl

theorem promote_of_bound (h : u.crane.staged = some m) (hb : m.bound = true) (hk : m.kind ≠ .store) :
    promote u = makeCurrent m.kind m.target m.visit true { u with crane := { u.crane with staged := none } } := by
  unfold promote
  rw [h]
  refine (if_pos hb).trans ?_
  dsimp only
  split
  · next hstore _ => exact absurd hstore hk
  · rfl

theorem promote_of_stands (h : u.crane.staged = some m) (hb : m.bound = false) (hs : stagedStands m u = true) :
    promote u = makeCurrent m.kind m.target m.visit false { u with crane := { u.crane with staged := none } } := by
  unfold promote
  rw [h]
  exact (if_neg (by simp [hb])).trans (if_pos hs)

theorem promote_of_lost (h : u.crane.staged = some m) (hb : m.bound = false) (hs : stagedStands m u = false) :
    promote u = craneTo .idle (discardStaged u) := by
  unfold promote
  rw [h]
  exact (if_neg (by simp [hb])).trans (if_neg (by simp [hs]))

theorem readiness_iff {b : Nat} : readiness u b = .ready ↔
    downOpen u = true ∧ ∃ x, u.dir.bin b = some x ∧ x.status = .stored ∧ x.doubt = false := by
  cases hx : u.dir.bin b with
  | none => simp [readiness_of_absent hx]
  | some x =>
    rw [readiness_of_entry hx]
    split
    · next h => split <;> simp [*]
    · next h => simpa using fun _ => h

theorem stagedStands_fetch {n : Nat} {v : Visit} (hk : m.kind = .fetch) (hn : m.visit = some n) (hv : u.planner.visit n = some v) :
    stagedStands m u = true ↔ u.mode.fiery = false ∧ readiness u v.bin = .ready := by
  have hlink : m.visit.bind u.planner.visit = some v := by rw [hn]; exact hv
  unfold stagedStands
  rw [hk, hlink]
  simp

theorem stagedStands_takeIn (hk : m.kind = .takeIn) (hst : u.planner.stow = .staged) :
    stagedStands m u = u.spine.portIn.record?.isSome := by
  unfold stagedStands
  rw [hk, hst] <;> rfl

end

/-! ## Fork done (R47, R50, R54, R56, R58) -/

theorem forkDone_of_cycle {u : State} {m : Move} (hs : u.crane.state = .moving) (hm : u.crane.current = some m)
    (hf : u.crane.forkCycle = true) : forkDone u = (match m.kind with
      | .fetch => fetchDone m (readEncoders u)
      | .deliver => deliverDone (readEncoders u)
      | .takeIn => takeInDone (readEncoders u)
      | .store => storeDone (readEncoders u)
      | .park => readEncoders u) := by
  unfold forkDone
  rw [hs, hm]
  exact (if_pos hf).trans (by cases m.kind <;> rfl)

section
variable {u : State} {m : Move} {n : Nat} {v : Visit}

theorem fetchDone_of_mismatch (h : u.crane.tag = .mismatched) : fetchDone m u = afterCompletion (clearCurrent u) := if_pos h

theorem fetchDone_of_takeOut {d : Directory} (ht : u.crane.tag ≠ .mismatched) (hn : m.visit = some n)
    (hv : u.planner.visit n = some v) (hd : u.dir.takeOut u.clock v.bin = some d) :
    fetchDone m u = afterCompletion (clearCurrent (carryFetched v.bin (some n) false d u)) := by
  unfold fetchDone
  rw [if_neg ht, fetchBin_of_visit hn hv]
  dsimp only
  rw [hd, hn]

theorem fetchDone_of_refused (ht : u.crane.tag ≠ .mismatched) (hn : m.visit = some n) (hv : u.planner.visit n = some v)
    (hd : u.dir.takeOut u.clock v.bin = none) : fetchDone m u = takeOutRefused m u := by
  unfold fetchDone
  rw [if_neg ht, fetchBin_of_visit hn hv]
  dsimp only
  rw [hd]

theorem clearCurrent_carryFetched (b n : Nat) (uncertain : Bool) (d : Directory) (u : State) :
    clearCurrent (carryFetched b (some n) uncertain d u) = { visitTo (some n) .onCrane (withholdBin b { u with dir := d }) with
      crane := { u.crane with
        carried := some ⟨b, none, some n, uncertain⟩, current := none, forkCycle := false, tag := .awaited } } := rfl

theorem takeOutRefused_of_visit {t : State} (ht : clearCurrent u = t) (hn : m.visit = some n) :
    let q := discardStaged t
    takeOutRefused m u = failVisit n .unknownBin true (faultNotice (faultBody .craneLoadUnknown)
      { q with crane := { q.crane with state := .faulted, unknownLoad := true, fireFinish := false, drive := .stop } }) := by
  subst ht
  unfold takeOutRefused
  rw [hn] <;> rfl

theorem deliverDone_of_carried {c : Carried} (hc : u.crane.carried = some c) : deliverDone u =
    afterCompletion (handOver c.bin c.visit (clearCurrent { u with crane := { u.crane with carried := none } })) := by
  unfold deliverDone
  rw [hc] <;> rfl

theorem takeInDone_of_holding {r : TravelRecord} (hr : u.spine.portIn = .holding r) : takeInDone u =
    afterCompletion (clearCurrent { u with
      dir := u.dir.locate r.bin .crane, spine := { u.spine with portIn := .empty }
      planner := { u.planner with stow := .absent, mark := false }
      crane := { u.crane with carried := some ⟨r.bin, some r, none, false⟩ } }) := by
  unfold takeInDone
  rw [hr] <;> rfl

theorem storeDone_of_carried {c : Carried} (hc : u.crane.carried = some c) : storeDone u =
    afterCompletion (storeBin c.bin (c.record.map recordContents) (c.record.bind recordRoom)
      (clearCurrent { u with crane := { u.crane with carried := none } })) := by
  unfold storeDone
  rw [hc] <;> rfl

end

end Sys2Proof.Machine

namespace Sys2Proof.Proofs
open Sys2Proof Sys2Proof.Machine Sys2Proof.Safety

/-- Settles O50: each kind of move completes by its own step, and the staged move follows by what stands. -/
theorem forkDoneCompletes : Obligations.ForkDoneCompletes := by
  refine ⟨fun u bin n v x hv hx => handOver_of_entry hv hx, fun p m s hl hs hm hf => ?_⟩
  intro e crane done
  have acts {v : State} (hv : forkDone (s.setPins p) = v) : exec (.forkDone p) s = .next (settle v) :=
    exec_acts (c := .forkDone p) rfl hl hv
  have completes := forkDone_of_cycle (u := s.setPins p) hs hm hf
  have fetches (hk : m.kind = .fetch) : forkDone (s.setPins p) = fetchDone m (readEncoders e) := by rw [completes, hk] <;> rfl
  have delivers (hk : m.kind = .deliver) : forkDone (s.setPins p) = deliverDone (readEncoders e) := by rw [completes, hk] <;> rfl
  have takesIn (hk : m.kind = .takeIn) : forkDone (s.setPins p) = takeInDone (readEncoders e) := by rw [completes, hk] <;> rfl
  have stores (hk : m.kind = .store) : forkDone (s.setPins p) = storeDone (readEncoders e) := by rw [completes, hk] <;> rfl
  refine ⟨fun n v d hk ht hn hv hd => ?_,
    fun n v hk ht hn hv hd => ?_, fun hk ht => acts ((fetches hk).trans (fetchDone_of_mismatch (u := readEncoders e) ht)),
    fun c hk hc => acts ((delivers hk).trans (deliverDone_of_carried (u := readEncoders e) hc)),
    fun r hk hr => acts ((takesIn hk).trans (takeInDone_of_holding (u := readEncoders e) hr)),
    fun c hk hc => acts ((stores hk).trans (storeDone_of_carried (u := readEncoders e) hc)), fun u => ?_⟩
  · have htaken : forkDone (s.setPins p) = afterCompletion (clearCurrent (carryFetched v.bin (some n) false d (readEncoders e))) :=
      (fetches hk).trans (fetchDone_of_takeOut (u := readEncoders e) ht hn hv hd)
    exact acts (htaken.trans (congrArg afterCompletion (clearCurrent_carryFetched v.bin n false d (readEncoders e))))
  · have hrefused : forkDone (s.setPins p) = takeOutRefused m (readEncoders e) :=
      (fetches hk).trans (fetchDone_of_refused (u := readEncoders e) ht hn hv hd)
    exact acts (hrefused.trans (takeOutRefused_of_visit (t := { e with crane := crane }) rfl hn))
  intro emptied idle
  refine ⟨afterCompletion_of_order, fun hfin => ?_⟩
  rw [afterCompletion_of_free hfin]
  refine ⟨promote_of_unstaged, fun m hst => ⟨fun hb => ⟨fun c hk hc => promote_of_bound_store hst hb hk hc,
    fun hk => promote_of_bound hst hb hk⟩, fun n v hb hk hn hv => ?_, fun hb hk hstow => ?_⟩⟩
  · intro stands
    have hstands : stagedStands m u = true ↔ stands := (stagedStands_fetch hk hn hv).trans (and_congr_right fun _ => readiness_iff)
    refine ⟨fun h => (promote_of_stands hst hb (hstands.mpr h)).trans (by rw [hk]),
      fun h => (promote_of_lost hst hb (Bool.eq_false_iff.mpr (mt hstands.mp h))).trans ?_⟩
    have hdiscard : discardStaged u = handBack n emptied := by
      rw [discardStaged_of_some hst, if_neg (by simp [hb]), hk, hn] <;> rfl
    rw [hdiscard]
    exact congrArg (fun c : Crane => { handBack n emptied with crane := { c with state := .idle } }) (handBack_crane n emptied)
  · have hstands := stagedStands_takeIn hk hstow
    refine ⟨fun r hr => (promote_of_stands hst hb (by rw [hstands, hr] <;> rfl)).trans (by rw [hk]),
      fun hr => (promote_of_lost hst hb ?_).trans ?_⟩
    · rw [hstands]
      cases hp : u.spine.portIn with
      | holding r => exact absurd hp (hr r)
      | _ => rfl
    · rw [discardStaged_of_some hst, if_neg (by simp [hb]), hk]
      exact congrArg (craneTo .idle) (if_pos hstow)

end Sys2Proof.Proofs
end

