-- ==== Sys2Proof/Proofs/Stopping.lean ====
section
/-! PROOFS. A move abandoned at its last certain point, the crane reporting stopped, and a PARK (R49, R59 to R62, R134). -/

namespace Sys2Proof.Machine
open Sys2Proof Safety

/-! ## Commands that leave the crane record alone -/

theorem failVisit_withCrane (n : Nat) (why : FailReason) (release : Bool) (u : State) (c : Crane) :
    failVisit n why release { u with crane := c } = { failVisit n why release u with crane := c } := by
  unfold failVisit
  have hvisit : { u with crane := c }.planner.visit n = u.planner.visit n := rfl
  rw [hvisit]
  cases u.planner.visit n with
  | none => rfl
  | some v =>
    dsimp only
    generalize (u.planner.withRefs (u.planner.queuedOf v)).isEmpty = silent
    cases v.room <;> cases silent <;> cases release <;> rfl

/-- The fire order to stop is taken off the crane. -/
def unordered (u : State) : State := { u with crane := { u.crane with fireStop := false } }

theorem handBackLink_unordered (link : Option Nat) (u : State) : handBackLink link (unordered u) = unordered (handBackLink link u) := by
  cases link with
  | none => rfl
  | some n =>
    exact (handBack_withCrane n u _).trans
      (congrArg (fun c : Crane => { handBack n u with crane := { c with fireStop := false } }) (handBack_crane n u).symm)

theorem failVisit_unordered (n : Nat) (why : FailReason) (release : Bool) (u : State) :
    failVisit n why release (unordered u) = unordered (failVisit n why release u) :=
  (failVisit_withCrane n why release u _).trans
    (congrArg (fun c : Crane => { failVisit n why release u with crane := { c with fireStop := false } })
      (failVisit_crane n why release u).symm)

/-! ## A FETCH abandoned (R49) -/

section
variable {m : Move} {u : State}

theorem abandonFetch_of_early (hf : u.crane.forkCycle = false) : abandonFetch m u = handBackLink m.visit u := if_pos (by simp [hf])

theorem abandonFetch_of_mismatch (hf : u.crane.forkCycle = true) (ht : u.crane.tag = .mismatched) :
    abandonFetch m u = { u with crane := { u.crane with unknownLoad := true } } := (if_neg (by simp [hf])).trans (if_pos ht)

theorem abandonFetch_of_takeOut {d : Directory} (hf : u.crane.forkCycle = true) (ht : u.crane.tag ≠ .mismatched)
    (hd : u.dir.takeOut u.clock (fetchBin m u) = some d) : abandonFetch m u = carryFetched (fetchBin m u) m.visit true d u := by
  unfold abandonFetch
  rw [if_neg (by simp [hf]), if_neg ht]
  dsimp only
  rw [hd]

theorem abandonFetch_of_refused (hf : u.crane.forkCycle = true) (ht : u.crane.tag ≠ .mismatched)
    (hd : u.dir.takeOut u.clock (fetchBin m u) = none) :
    let t := { u with crane := { u.crane with unknownLoad := true } }
    abandonFetch m u = match m.visit with
      | some n => failVisit n .unknownBin true t
      | none => t := by
  unfold abandonFetch
  rw [if_neg (by simp [hf]), if_neg ht]
  dsimp only
  rw [hd] <;> rfl

/-! ## The other moves abandoned (R49) -/

theorem abandonDeliver_of_early (hf : u.crane.forkCycle = false) : abandonDeliver m u = visitTo m.visit .onCrane u := by
  unfold abandonDeliver
  cases m.visit <;> exact if_neg (by simp [visitTo, hf])

theorem abandonDeliver_of_cycle (hf : u.crane.forkCycle = true) : abandonDeliver m u = { visitTo m.visit .onCrane u with
    crane := { u.crane with carried := u.crane.carried.map fun c => { c with uncertain := true } }
    spine := { u.spine with portOut := .blocked none none } } := by
  unfold abandonDeliver
  cases m.visit <;> exact if_pos hf

theorem abandonTakeIn_of_early (hf : u.crane.forkCycle = false) :
    abandonTakeIn u = { u with planner := { u.planner with stow := .ready } } := if_pos (by simp [hf])

theorem abandonTakeIn_of_holding {r : TravelRecord} (hf : u.crane.forkCycle = true) (hr : u.spine.portIn = .holding r) :
    abandonTakeIn u = { u with
      crane := { u.crane with carried := some ⟨r.bin, some r, none, true⟩ }
      dir := u.dir.locate r.bin .crane, spine := { u.spine with portIn := .blocked none none }
      planner := { u.planner with stow := .absent, mark := false } } := by
  unfold abandonTakeIn
  rw [if_neg (by simp [hf]), hr] <;> rfl

theorem abandonTakeIn_of_lost (hf : u.crane.forkCycle = true) (hr : u.spine.portIn.record? = none) : abandonTakeIn u = { u with
    crane := { u.crane with unknownLoad := true }, planner := { u.planner with stow := .absent, mark := false } } := by
  unfold abandonTakeIn
  rw [if_neg (by simp [hf]), hr] <;> rfl

theorem abandonStore_of_early (hf : u.crane.forkCycle = false) : abandonStore u = u := if_neg (by simp [hf])

theorem abandonStore_of_cycle (hf : u.crane.forkCycle = true) : abandonStore u =
    { u with crane := { u.crane with carried := u.crane.carried.map fun c => { c with uncertain := true } } } := if_pos hf

end

/-! ## A fire order does not change how a move is abandoned -/

theorem abandonFetch_unordered (m : Move) (u : State) : abandonFetch m (unordered u) = unordered (abandonFetch m u) := by
  by_cases hf : u.crane.forkCycle = false
  · rw [abandonFetch_of_early hf, abandonFetch_of_early (u := unordered u) hf, handBackLink_unordered]
  · have hf : u.crane.forkCycle = true := by simpa using hf
    by_cases ht : u.crane.tag = .mismatched
    · rw [abandonFetch_of_mismatch hf ht, abandonFetch_of_mismatch (u := unordered u) hf ht] <;> rfl
    · cases hd : u.dir.takeOut u.clock (fetchBin m u) with
      | some d =>
        rw [abandonFetch_of_takeOut hf ht hd, abandonFetch_of_takeOut (u := unordered u) hf ht hd]
        cases hv : m.visit <;> rfl
      | none =>
        rw [abandonFetch_of_refused hf ht hd, abandonFetch_of_refused (u := unordered u) hf ht hd]
        cases m.visit with
        | none => rfl
        | some n => exact failVisit_unordered n .unknownBin true { u with crane := { u.crane with unknownLoad := true } }

theorem visitTo_unordered (link : Option Nat) (st : VisitState) (u : State) :
    visitTo link st (unordered u) = unordered (visitTo link st u) := by cases link <;> rfl

theorem abandonDeliver_unordered (m : Move) (u : State) : abandonDeliver m (unordered u) = unordered (abandonDeliver m u) := by
  cases hf : u.crane.forkCycle with
  | false => rw [abandonDeliver_of_early hf, abandonDeliver_of_early (u := unordered u) hf, visitTo_unordered]
  | true => rw [abandonDeliver_of_cycle hf, abandonDeliver_of_cycle (u := unordered u) hf, visitTo_unordered] <;> rfl

theorem abandonTakeIn_unordered (u : State) : abandonTakeIn (unordered u) = unordered (abandonTakeIn u) := by
  cases hf : u.crane.forkCycle with
  | false => rw [abandonTakeIn_of_early hf, abandonTakeIn_of_early (u := unordered u) hf] <;> rfl
  | true =>
    cases hr : u.spine.portIn.record? with
    | some r =>
      have hp : u.spine.portIn = .holding r := by
        cases hp : u.spine.portIn <;> rw [hp] at hr <;> cases hr <;> rfl
      rw [abandonTakeIn_of_holding hf hp, abandonTakeIn_of_holding (u := unordered u) hf hp] <;> rfl
    | none => rw [abandonTakeIn_of_lost hf hr, abandonTakeIn_of_lost (u := unordered u) hf hr] <;> rfl

theorem abandonStore_unordered (u : State) : abandonStore (unordered u) = unordered (abandonStore u) := by
  cases hf : u.crane.forkCycle with
  | false => rw [abandonStore_of_early hf, abandonStore_of_early (u := unordered u) hf]
  | true => rw [abandonStore_of_cycle hf, abandonStore_of_cycle (u := unordered u) hf] <;> rfl

/-! ## The current move abandoned (R49) -/

/-- What is abandoned of a move, before the move is removed. -/
def abandonKind (m : Move) (u : State) : State :=
  match m.kind with
  | .fetch => abandonFetch m u
  | .deliver => abandonDeliver m u
  | .takeIn => abandonTakeIn u
  | .store => abandonStore u
  | .park => u

theorem abandonMove_of_current {u : State} {m : Move} (hm : u.crane.current = some m) :
    abandonMove u = clearCurrent (abandonKind m u) := by
  unfold abandonMove
  rw [hm] <;> rfl

theorem abandonMove_unordered {u : State} {m : Move} (hm : u.crane.current = some m) :
    abandonMove (unordered u) = unordered (abandonMove u) := by
  have hkind : abandonKind m (unordered u) = unordered (abandonKind m u) := by
    unfold abandonKind
    cases m.kind with
    | fetch => exact abandonFetch_unordered m u
    | deliver => exact abandonDeliver_unordered m u
    | takeIn => exact abandonTakeIn_unordered u
    | store => exact abandonStore_unordered u
    | park => rfl
  rw [abandonMove_of_current hm, abandonMove_of_current (u := unordered u) hm, hkind] <;> rfl

/-- A stopped crane under no fire order halts, and a RESUME kept acts at once. -/
theorem craneStopped_of_stop {u : State} (hs : u.crane.state = .stopping) (hf : u.crane.fireStop = false) :
    craneStopped u = stopStopped (readEncoders u) := (if_pos hs).trans (if_neg (by simp [hf]))

theorem craneStopped_of_order {u : State} (hs : u.crane.state = .stopping) (hf : u.crane.fireStop = true) :
    craneStopped u = fireStopped (readEncoders u) := (if_pos hs).trans (if_pos hf)

theorem fireStopped_eq {u : State} {m : Move} (hm : u.crane.current = some m) :
    let t := abandonMove u
    let x := resolveLoad { t with crane := { t.crane with fireStop := false, state := .idle } }
    fireStopped u = if x.1 = true then park x.2 else x.2 :=
  congrArg (fun t => if (resolveLoad (craneTo .idle t)).1 = true then park (resolveLoad (craneTo .idle t)).2
    else (resolveLoad (craneTo .idle t)).2) (abandonMove_unordered hm)

/-! ## A PARK (R59) -/

theorem park_discardStaged (u : State) : park u = park (discardStaged u) := by
  have hnone : (discardStaged u).crane.staged = none := congrArg Crane.staged (discardStaged_crane u)
  have htwice : discardStaged (discardStaged u) = discardStaged u := discardStaged_of_none hnone
  have hcfg : (discardStaged u).cfg = u.cfg := congrArg (·.2.2.2.1) (discardStaged_fixed u)
  unfold park
  rw [htwice, hcfg]

theorem park_of_unstaged {u : State} (h : u.crane.staged = none) :
    let target : Target := .pos (parkPos u.cfg)
    park u = { estimating target u with crane := { (estimating target u).crane with
      pos := encoderPos u.cfg u.pins, state := .moving
      current := some { estimated .park target none false u with
        timer := some ⟨u.clock, (estimated .park target none false u).estimate + (estimated .park target none false u).estimate / 4
          + u.cfg.slack⟩ }
      forkCycle := false, tag := .awaited, holdTimer := none, fireStop := false, fireFinish := false
      drive := .go .park target } } := by
  unfold park
  rw [discardStaged_of_none h]
  exact (makeCurrent_of_started (kind := .park) (u := u) (.inr (.inl rfl))).trans
    (startMove_of_park (m := estimated .park (.pos (parkPos u.cfg)) none false u) (u := estimating (.pos (parkPos u.cfg)) u) rfl)

end Sys2Proof.Machine

namespace Sys2Proof.Proofs
open Sys2Proof Sys2Proof.Machine Sys2Proof.Safety

/-- Settles O51: what each kind of move leaves, then HALTED after a STOP, or the load resolution and the PARK of a fire order. -/
theorem stoppedReported : Obligations.StoppedReported := by
  refine ⟨fun p m s hl hs hm => ?_, park_discardStaged, fun u hst => park_of_unstaged hst⟩
  intro e ended u
  have hu : u = clearCurrent (abandonKind m e) := abandonMove_of_current (u := e) hm
  have acts {v : State} (hv : craneStopped (s.setPins p) = v) : exec (.stopped p) s = .next (settle v) :=
    exec_acts (c := .stopped p) rfl hl hv
  refine ⟨fun hstop => ?_, fun hstop => ?_, fun n v hk hn hv => ⟨fun hf => ?_, fun d hf ht hd => ?_⟩,
    fun n v hk hn hv hf ht hd => ?_, fun hk hf ht => ?_, fun c hk hc => ?_, fun c hk hc => ⟨fun hf => ?_, fun hf => ?_⟩,
    fun hk hf => ?_, fun r hk hf hr => ?_⟩
  · have hstopped : craneStopped (s.setPins p) = stopStopped e := craneStopped_of_stop (u := s.setPins p) hs hstop
    intro halted
    exact ⟨fun hr => acts (hstopped.trans (if_neg (Bool.eq_false_iff.mp hr))),
      fun hr => acts (hstopped.trans (if_pos hr))⟩
  · intro crane faulted
    let w : State := { u with crane := crane }
    have hstopped : craneStopped (s.setPins p) = if (resolveLoad w).1 = true then park (resolveLoad w).2 else (resolveLoad w).2 :=
      (craneStopped_of_order (u := s.setPins p) hs hstop).trans (fireStopped_eq (u := e) hm)
    have hfixed : u.fixed = e.fixed := abandonMove_fixed e
    have load : w.pins.load = p.load := congrArg (·.2.2.2.2.1.load) hfixed
    have parks {v : State} (hv : resolveLoad w = (true, v)) : exec (.stopped p) s = .next (settle (park v)) :=
      acts (hstopped.trans (by rw [hv]; exact if_pos rfl))
    have faults {bin : Nat} (hv : resolveLoad w = (false, loadFault bin w)) : exec (.stopped p) s = faulted bin :=
      acts (hstopped.trans (by rw [hv]; exact if_neg Bool.false_ne_true))
    exact ⟨fun hc => ⟨fun hl => parks ((resolveLoad_of_none (u := w) hc).trans (if_neg (by simp [load, hl]))),
        fun hl => faults ((resolveLoad_of_none (u := w) hc).trans (if_pos (load.trans hl)))⟩, fun c hc =>
      ⟨fun hu hl => parks ((resolveLoad_of_certain (u := w) hc hu).trans (if_pos (load.trans hl))),
        fun hu hl => faults ((resolveLoad_of_certain (u := w) hc hu).trans (if_neg (by simp [load, hl]))),
        fun hu hl => parks ((resolveLoad_of_uncertain (u := w) hc hu).trans (if_pos (load.trans hl))),
        fun hu hl => parks ((resolveLoad_of_uncertain (u := w) hc hu).trans (if_neg (by simp [load, hl])))⟩⟩
  · have hkind : abandonKind m e = handBack n e := by
      rw [abandonKind, hk]
      exact (abandonFetch_of_early (u := e) hf).trans (by rw [hn] <;> rfl)
    rw [hu, hkind]
    exact congrArg (fun c => { handBack n e with crane := Crane.cleared c }) (handBack_crane n e)
  · have hbin : fetchBin m e = v.bin := fetchBin_of_visit (u := e) hn hv
    have hkind : abandonKind m e = carryFetched v.bin (some n) true d e := by
      rw [abandonKind, hk]
      exact (abandonFetch_of_takeOut (u := e) hf ht (hbin ▸ hd)).trans (by rw [hbin, hn])
    rw [hu, hkind]
    exact clearCurrent_carryFetched v.bin n true d e
  · have hbin : fetchBin m e = v.bin := fetchBin_of_visit (u := e) hn hv
    have hkind : abandonKind m e = { failVisit n .unknownBin true e with crane := { e.crane with unknownLoad := true } } := by
      rw [abandonKind, hk]
      exact (abandonFetch_of_refused (u := e) hf ht (hbin ▸ hd)).trans (by rw [hn]; exact failVisit_withCrane n _ _ e _)
    rw [hu, hkind] <;> rfl
  · rw [hu, abandonKind, hk]
    exact congrArg clearCurrent (abandonFetch_of_mismatch (u := e) hf ht)
  · rw [hu, abandonKind, hk]
    have hcarried (b : Bool) (hf : s.crane.forkCycle = b) : clearCurrent (abandonStore e) = { e with crane := { ended with
        carried := s.crane.carried.map fun c => if b = true then { c with uncertain := true } else c } } := by
      cases b with
      | false =>
        rw [abandonStore_of_early (u := e) hf]
        simp only [Bool.false_eq_true, if_false, Option.map_id']
        rfl
      | true => exact congrArg clearCurrent (abandonStore_of_cycle (u := e) hf)
    exact (hcarried _ rfl).trans (by rw [hc] <;> rfl)
  · rw [hu, abandonKind, hk]
    exact (congrArg clearCurrent (abandonDeliver_of_early (u := e) hf)).trans
      (congrArg (fun c => { visitTo m.visit .onCrane e with crane := Crane.cleared c }) (visitTo_crane m.visit .onCrane e))
  · rw [hu, abandonKind, hk]
    refine (congrArg clearCurrent (abandonDeliver_of_cycle (u := e) hf)).trans ?_
    exact congrArg (fun x : Option Carried => ({ visitTo m.visit .onCrane e with
      crane := { ended with carried := x.map fun c => { c with uncertain := true } }
      spine := { s.spine with portOut := .blocked none none } } : State)) hc
  · rw [hu, abandonKind, hk]
    exact congrArg clearCurrent (abandonTakeIn_of_early (u := e) hf)
  · rw [hu, abandonKind, hk]
    exact congrArg clearCurrent (abandonTakeIn_of_holding (u := e) hf hr)

end Sys2Proof.Proofs
end

