-- ==== Sys2Proof/Proofs/HandBacks.lean ====
section
/-! PROOFS. A visit handed back, the bin a stall names, and the crane unit's expiries (R48, R53, R64, R66, R68). -/

namespace Sys2Proof.Machine
open Sys2Proof Safety

/-! ## Requests relisted (R68) -/

theorem tblGet_modify {α : Type} (t : Table α) (k x : Nat) (f : α → α) :
    tblGet (tblModify k f t) x = if x = k then (tblGet t x).map f else tblGet t x := by
  unfold tblModify
  by_cases hx : x = k
  · subst hx
    cases h : tblGet t x with
    | none => simp [h]
    | some v => simp [tblGet_put_same]
  · rw [if_neg hx]
    cases tblGet t k with
    | none => rfl
    | some v => exact tblGet_put_other _ _ hx

theorem relist_get (ids : List Nat) (n : Nat) (pool : Table Request) (id : Nat) : tblGet (relist ids n pool) id =
    if id ∈ ids then (tblGet pool id).map fun r => { r with visit := n } else tblGet pool id := by
  unfold relist
  induction ids generalizing pool with
  | nil => simp
  | cons i ids ih =>
    rw [List.foldl_cons, ih, tblGet_modify]
    by_cases hi : id = i <;> by_cases hm : id ∈ ids <;> simp [hi, hm, Function.comp_def]

/-- The request is QUEUED and asked for as urgent. -/
def asksUrgent (x : Option Request) : Bool :=
  match x with
  | some r => r.state == .queued && r.rank == .urgent
  | none => false

theorem rankOf_eq (pl : Planner) (requests : List Nat) (room : Option RoomPart) : pl.rankOf requests room =
    if (requests.any fun id => asksUrgent (tblGet pl.pool id)) = true then .urgent
    else if room.isSome = true then .room else .normal := rfl

/-- A request relisted keeps its state and rank. -/
theorem asksUrgent_relist (ids : List Nat) (n : Nat) (pool : Table Request) (id : Nat) :
    asksUrgent (tblGet (relist ids n pool) id) = asksUrgent (tblGet pool id) := by
  rw [relist_get]
  split
  · cases tblGet pool id <;> rfl
  · rfl

theorem rankOf_relist (pl qs : Planner) (ids : List Nat) (n : Nat) (h : qs.pool = relist ids n pl.pool) (requests : List Nat)
    (room : Option RoomPart) : qs.rankOf requests room = pl.rankOf requests room := by
  rw [rankOf_eq, rankOf_eq, h]
  simp only [asksUrgent_relist]

/-! ## A visit handed back (R64, R66, R68) -/

/-- The pool once the requests of a visit that are not QUEUED are freed. -/
def keptPool (pl : Planner) (v : Visit) : Table Request :=
  (v.requests.filter fun id => !pl.queued id).foldl (fun pool id => tblErase id pool) pl.pool

/-- The planner once the requests of a visit that are not QUEUED are freed. -/
def freedPlanner (pl : Planner) (v : Visit) : Planner := { pl with pool := keptPool pl v }

/-- Another waiting visit of the bin to the desk. -/
def otherWaiting (n : Nat) (v w : Visit) : Bool :=
  w.number != n && w.bin == v.bin && w.desk == v.desk && (w.state == .waitingBin || w.state == .waitingRoute || w.state == .ready)

theorem waiting_eq (st : VisitState) : st.waiting = (st == .waitingBin || st == .waitingRoute || st == .ready) := by
  cases st <;> rfl

section
variable {u : State} {n : Nat} {v : Visit} (hv : u.planner.visit n = some v)
include hv

theorem visit_number : v.number = n := by simpa using List.find?_some hv

/-- A visit with nothing left in it is gone. -/
theorem handBack_of_empty (hk : u.planner.queuedOf v = []) (hr : v.room = none) : handBack n u =
    { u with planner := { freedPlanner u.planner v with visits := u.planner.visits.filter fun w => w.number != n } } := by
  unfold handBack
  rw [hv]
  exact if_pos (by simp [hk, hr])

/-- A visit with a request or a room part left takes rank and readiness anew, alone or merged. -/
theorem handBack_of_kept (hk : u.planner.queuedOf v ≠ [] ∨ v.room ≠ none) :
    let x := { v with requests := u.planner.queuedOf v }
    handBack n u = match u.planner.visits.find? (otherWaiting n v) with
      | none => u.setPlanner ((freedPlanner u.planner v).replaced u x)
      | some w =>
        let a := if madeFirst x w = true then x else w
        let b := if madeFirst x w = true then w else x
        let pl := (freedPlanner u.planner v).removeVisit b.number
        u.setPlanner ({ pl with pool := relist b.requests a.number pl.pool }.replaced u (mergeVisits a b)) := by
  intro x
  have hwaiting : (fun w : Visit => w.number != n && w.bin == v.bin && w.desk == v.desk && w.state.waiting) = otherWaiting n v :=
    funext fun w => by rw [waiting_eq] <;> rfl
  have hleft : ¬ ((u.planner.queuedOf v).isEmpty && v.room.isNone) = true := by
    simp only [Bool.and_eq_true, List.isEmpty_iff, Option.isNone_iff_eq_none]
    exact fun h => hk.elim (absurd h.1) (absurd h.2)
  unfold handBack
  rw [hv]
  refine (if_neg hleft).trans ?_
  dsimp only
  rw [hwaiting]
  cases hf : u.planner.visits.find? (otherWaiting n v) <;> simp only [Planner.freePool, hf] <;> rfl

theorem handBack_of_alone (hk : u.planner.queuedOf v ≠ [] ∨ v.room ≠ none) (hf : u.planner.visits.find? (otherWaiting n v) = none) :
    handBack n u = { u with planner := { freedPlanner u.planner v with visits := u.planner.visits.map fun w => if w.number = n
      then { v with
        requests := u.planner.queuedOf v
        rank := (freedPlanner u.planner v).rankOf (u.planner.queuedOf v) v.room, state := readiness u v.bin } else w } } := by
  refine (handBack_of_kept hv hk).trans ?_
  rw [hf]
  obtain rfl := visit_number hv
  rfl

theorem handBack_of_merged {w a b : Visit} (hk : u.planner.queuedOf v ≠ [] ∨ v.room ≠ none)
    (hf : u.planner.visits.find? (otherWaiting n v) = some w)
    (ha : (if madeFirst { v with requests := u.planner.queuedOf v } w = true
      then { v with requests := u.planner.queuedOf v } else w) = a)
    (hb : (if madeFirst { v with requests := u.planner.queuedOf v } w = true
      then w else { v with requests := u.planner.queuedOf v }) = b) : handBack n u = { u with planner := { freedPlanner u.planner v with
      pool := relist b.requests a.number (keptPool u.planner v)
      visits := (u.planner.visits.filter fun y => y.number != b.number).map fun y => if y.number = a.number
        then { a with
          requests := a.requests ++ b.requests, room := if a.room = none then b.room else a.room
          rank := (freedPlanner u.planner v).rankOf (a.requests ++ b.requests) (if a.room = none then b.room else a.room), state := readiness u a.bin }
        else y } } := by
  have hroom : a.room.or b.room = if a.room = none then b.room else a.room := by cases a.room <;> rfl
  refine (handBack_of_kept hv hk).trans ?_
  rw [hf]
  dsimp only
  rw [ha, hb, ← hroom]
  have hrank := rankOf_relist (freedPlanner u.planner v)
    { (freedPlanner u.planner v).removeVisit b.number with pool := relist b.requests a.number (keptPool u.planner v) }
    b.requests a.number rfl (a.requests ++ b.requests) (a.room.or b.room)
  exact congrArg (fun rank => ({ u with planner := { freedPlanner u.planner v with
      pool := relist b.requests a.number (keptPool u.planner v)
      visits := (u.planner.visits.filter fun y => y.number != b.number).map fun y => if y.number = a.number
        then { a with
          requests := a.requests ++ b.requests, room := a.room.or b.room, rank := rank, state := readiness u a.bin }
        else y } } : State)) hrank

end

/-! ## The bin a stall names (R48, R182) -/

section
variable {m : Move} {u : State}

theorem stallBin_of_carried {c : Carried} (h : u.crane.carried = some c) : stallBin m u = c.bin := by
  unfold stallBin
  rw [h]

theorem stallBin_of_fetch (h : u.crane.carried = none) (hk : m.kind = .fetch) : stallBin m u = fetchBin m u := by
  unfold stallBin
  rw [h, hk]

theorem stallBin_of_takeIn (h : u.crane.carried = none) (hk : m.kind = .takeIn) :
    stallBin m u = (match u.spine.portIn with | .holding r => r.bin | _ => 0) := by
  unfold stallBin
  rw [h, hk]
  cases u.spine.portIn <;> rfl

theorem stallBin_of_other (h : u.crane.carried = none) (hk : m.kind = .deliver ∨ m.kind = .store ∨ m.kind = .park) :
    stallBin m u = 0 := by
  unfold stallBin
  rw [h]
  rcases hk with hk | hk | hk <;> rw [hk]

theorem fetchBin_of_slot {sl : Slot} (hn : m.visit.bind u.planner.visit = none) (ht : m.target = .slot sl) :
    fetchBin m u = (match u.dir.slotState sl with | .occupied b => b | .reserved b => b | _ => 0) := by
  unfold fetchBin
  rw [hn, ht] <;> dsimp only <;> cases u.dir.slotState sl <;> rfl

end

end Sys2Proof.Machine

namespace Sys2Proof.Proofs
open Sys2Proof Sys2Proof.Machine Sys2Proof.Safety

/-- Settles O52: the hand-back by what the visit keeps and meets, the bin a stall names, and the two expiries. -/
theorem craneTimersExpire : Obligations.CraneTimersExpire := by
  refine ⟨fun u n v hv => ?_, fun m u => ?_, fun p m t s hl hm => ?_⟩
  · intro queued kept pool freed waiting rank
    refine ⟨fun hk hr => handBack_of_empty hv hk hr, fun hk hf => handBack_of_alone hv hk hf, fun w hk hf => ?_⟩
    intro x earlier a b t
    have hfirst : madeFirst x w = true ↔ earlier := by simp [madeFirst, earlier, x]
    have ht := handBack_of_merged hv hk hf (ite_of_iff hfirst _ _ : _ = a) (ite_of_iff hfirst _ _ : _ = b)
    have hpool : t.planner.pool = relist b.requests a.number pool := congrArg (·.planner.pool) ht
    rw [hpool]
    exact ⟨ht, relist_get b.requests a.number pool⟩
  · intro named
    refine ⟨fun c => stallBin_of_carried, fun hc => ⟨fun v hk hv => ?_, fun sl b hk hv ht hst => ?_, fun sl hk hv ht hst => ?_,
      fun r hk hr => ?_, fun hk hr => ?_, stallBin_of_other hc⟩⟩
    · refine (stallBin_of_fetch hc hk).trans ?_
      unfold fetchBin
      rw [show m.visit.bind u.planner.visit = some v from hv]
    · rw [stallBin_of_fetch hc hk, fetchBin_of_slot hv ht]
      rcases hst with hst | hst <;> rw [hst]
    · rw [stallBin_of_fetch hc hk, fetchBin_of_slot hv ht]
      rcases hst with hst | hst <;> rw [hst]
    · rw [stallBin_of_takeIn hc hk, hr]
    · rw [stallBin_of_takeIn hc hk]
      cases hp : u.spine.portIn with
      | holding r => exact absurd hp (hr r)
      | _ => rfl
  · intro e
    refine ⟨fun hs ht => ?_, fun c hs ht hc => ?_⟩
    · have htimer : budgetTimer e = some t := by
        unfold budgetTimer
        rcases hs with hs | hs <;> simp only [e, hs, hm, ht]
      refine ⟨fun hd => (exec_expiry_of_due (c := .moveBudgetExpiry p) rfl hl htimer hd).trans ?_,
        fun hd => exec_expiry_of_early (c := .moveBudgetExpiry p) rfl hl htimer hd⟩
      have hstall : budgetExpires e = stall m e := by
        unfold budgetExpires
        rw [show e.crane.current = some m from hm]
      exact congrArg (fun x => Host.Outcome.next (settle x)) hstall
    · have htimer : holdTimer e = some t := (if_pos hs).trans ht
      refine ⟨fun hd => (exec_expiry_of_due (c := .holdLimitExpiry p) rfl hl htimer hd).trans ?_,
        fun hd => exec_expiry_of_early (c := .holdLimitExpiry p) rfl hl htimer hd⟩
      have hstored : storeBack e = makeStore c.bin (handBackLink c.visit
          { e with crane := { s.crane with current := none, holdTimer := none, carried := some { c with visit := none } } }) := by
        unfold storeBack
        rw [show e.crane.carried = some c from hc] <;> rfl
      exact congrArg (fun x => Host.Outcome.next (settle x)) hstored

end Sys2Proof.Proofs
end


-- ==== Sys2Proof/Proofs/SpineReports.lean ====
section
/-! PROOFS. Arrivals, bins at position, the port-in tag, and the spine unit's expiries (R55, R107, R112, R117, R121 to R123). -/

namespace Sys2Proof.Machine
open Sys2Proof Safety

/-! ## Handoffs, internal and with another station (R107) -/

section
variable {u : State} {l : Lane} {x : Handoff}

theorem external_iff : x.external u.cfg.station = true ↔ x.peer ≠ u.cfg.station := by simp [Handoff.external]

theorem diversion_of_own (h : u.spine.outUp = some x) (hp : x.peer = u.cfg.station) : diversion u = some x := by
  simp [diversion, h, Handoff.external, hp]

theorem diversion_of_none (h : u.spine.outUp = none) : diversion u = none := by simp [diversion, h]

theorem merge_of_own (h : u.spine.inDown = some x) (hp : x.peer = u.cfg.station) : merge u = some x := by
  simp [merge, h, Handoff.external, hp]

/-! ## Arrivals (R117) -/

theorem laneEntry_of_external (hr : u.spine.lane l = .reserved) (hi : u.spine.incoming l = some x) (hp : x.peer ≠ u.cfg.station) :
    laneEntry l u = laneArrives l x u := by
  unfold laneEntry
  rw [hr, hi]
  exact if_pos (external_iff.mpr hp)

theorem laneEntry_of_internal (hr : u.spine.lane l = .reserved) (hi : u.spine.incoming l = some x) (hp : x.peer = u.cfg.station) :
    laneEntry l u = mergeArrives u := by
  unfold laneEntry
  rw [hr, hi]
  exact if_neg fun h => external_iff.mp h hp

theorem laneEntry_of_empty (h : u.spine.lane l = .empty) : laneEntry l u = setLane l (.blocked none none) u := by
  unfold laneEntry
  rw [h]
  cases l <;> rfl

theorem laneEntry_of_full (h : (∃ r, u.spine.lane l = .holding r) ∨ ∃ kept lost, u.spine.lane l = .blocked kept lost) :
    laneEntry l u = u := by
  unfold laneEntry
  rcases h with ⟨r, h⟩ | ⟨kept, lost, h⟩ <;> rw [h]

/-- A bin of another station stands in its lane, located there at its home, and TAKEN is queued. -/
theorem laneArrives_of_record {r : TravelRecord} (hr : x.record = some r) :
    laneArrives l x u = queueFrame (takenFrame u.cfg.station r.bin l.takenPlace 1) { setIncoming l none (setLane l (.holding (hopped r)) u) with
      dir := if r.home = u.cfg.station then u.dir.locate r.bin (.lane u.cfg.station l) else u.dir } := by
  have hlocated (t : State) : (if r.home = t.cfg.station then locateBin r.bin (.lane t.cfg.station l) t else t)
      = { t with dir := if r.home = t.cfg.station then t.dir.locate r.bin (.lane t.cfg.station l) else t.dir } := by
    split <;> rfl
  unfold laneArrives
  rw [hr]
  dsimp only
  rw [hlocated]
  cases l <;> rfl

theorem mergeArrives_of_holding {r : TravelRecord} (hr : u.spine.portOut = .holding r) :
    mergeArrives u = portOutEmptied (visitTo u.spine.portOutVisit .onSpine { u with
      dir := u.dir.locate r.bin (.lane u.cfg.station .down)
      spine := { u.spine with
        down := .holding r, portOut := .empty, inDown := none, portOutVisit := none, drivePortOut := false } }) := by
  unfold mergeArrives
  rw [hr] <;> rfl

theorem diversionArrives_of_holding {r : TravelRecord} (hr : u.spine.up = .holding r) : diversionArrives u = { u with
    dir := u.dir.locate r.bin .portIn
    spine := { u.spine with portIn := .holding r, up := .empty, outUp := none, driveUp := false } } := by
  unfold diversionArrives
  rw [hr] <;> rfl

theorem portOutEmptied_of_holding {m : Move} (hs : u.crane.state = .holding) (hm : u.crane.current = some m) :
    portOutEmptied u = startMove m u := by
  unfold portOutEmptied
  rw [hs, hm]

theorem portOutEmptied_of_other (h : u.crane.state ≠ .holding ∨ u.crane.current = none) : portOutEmptied u = u := by
  unfold portOutEmptied
  split
  · next hs hm => exact h.elim (absurd hs) fun hn => by rw [hn] at hm; cases hm
  · rfl

/-! ## The home diversion of a fire mode (R121, R136) -/

theorem fireDiversion_of_calm (h : u.mode.fiery = false) : fireDiversion u = u := if_neg (by simp [h])

theorem homeBinWaits_of_home {r : TravelRecord} (hr : u.spine.up = .holding r) (hd : r.dest = .home) (hh : r.home = u.cfg.station)
    (hp : u.pins.up.position = true) (ho : u.spine.outUp = none) : homeBinWaits u = some r := by
  have hbound : boundHere u.cfg r = true := by simp [boundHere, hd, hh]
  unfold homeBinWaits
  rw [hr]
  exact if_pos (by simp [hbound, hp, ho])

theorem homeBinWaits_of_other (h : u.pins.up.position = false ∨ (∀ r, u.spine.up = .holding r → r.dest ≠ .home ∨ r.home ≠ u.cfg.station)
    ∨ u.spine.outUp ≠ none) : homeBinWaits u = none := by
  unfold homeBinWaits
  cases hup : u.spine.up with
  | holding r =>
    refine if_neg fun hw => ?_
    simp only [boundHere, Bool.and_eq_true, beq_iff_eq, Option.isNone_iff_eq_none] at hw
    obtain ⟨⟨⟨hd, hh⟩, hp⟩, ho⟩ := hw
    rcases h with h | h | h
    · rw [h] at hp
      cases hp
    · exact (h r hup).elim (absurd hd) (absurd hh)
    · exact h ho
  | _ => rfl

theorem fireDiversion_of_other (h : u.pins.up.position = false
    ∨ (∀ r, u.spine.up = .holding r → r.dest ≠ .home ∨ r.home ≠ u.cfg.station) ∨ u.spine.outUp ≠ none) : fireDiversion u = u := by
  unfold fireDiversion
  rw [homeBinWaits_of_other h]
  exact ite_self _

theorem fireDiversion_of_home {r : TravelRecord} (hf : u.mode.fiery = true) (hw : homeBinWaits u = some r) :
    fireDiversion u = divert r u := by
  unfold fireDiversion
  rw [hw]
  exact if_pos hf

/-- The transfer to PORT_IN begins where PORT_IN is EMPTY; else the bin waits. -/
theorem beginDiversion_eq (r : TravelRecord) : beginDiversion r u = { u with spine := if u.spine.portIn = .empty then { u.spine with
    outUp := some ⟨r.bin, u.cfg.station, ⟨u.clock, u.cfg.transferLimit * 1000⟩, none⟩, drivePortIn := true, driveUp := true }
    else u.spine } := by
  unfold beginDiversion
  split <;> rfl

theorem divert_of_entry {r : TravelRecord} {x : BinEntry} (hx : u.dir.bin r.bin = some x) :
    divert r u = if x.status ≠ .stored then beginDiversion r u else blockUp r x.slot.name u := by
  unfold divert
  rw [hx]
  exact ite_of_iff isOut_iff _ _

theorem divert_of_absent {r : TravelRecord} (hx : u.dir.bin r.bin = none) : divert r u =
    (match u.dir.adopt u.cfg u.clock r (.lane u.cfg.station .up) with
      | some d => beginDiversion r { u with limited := u.limited || u.dir.adoptHeld u.cfg r, dir := d }
      | none => blockUp r SlotName.nowhere { u with limited := u.limited || u.dir.adoptHeld u.cfg r }) := by
  unfold divert
  rw [hx]
  dsimp only
  cases u.dir.adopt u.cfg u.clock r (.lane u.cfg.station .up) <;> rfl

/-! ## The port-in tag (R55) -/

theorem portInTagRead_of_absent {r : TravelRecord} (hr : u.spine.portIn = .holding r) (hst : u.planner.stow = .absent)
    (id : Option Nat) : portInTagRead id u =
      if id = some r.bin then { u with planner := { u.planner with stow := .ready } } else portTagFails r (id.getD 0) u := by
  unfold portInTagRead
  rw [hr]
  exact if_pos hst

/-! ## Expiries (R121, R122) -/

theorem transferOutExpires_of_external {r : TravelRecord} (h : u.spine.out l = some x) (hp : x.peer ≠ u.cfg.station)
    (hr : u.spine.lane l = .holding r) : transferOutExpires l u = handoffLost x.bin x.peer l.place r.hop
      (driveLane l false (setOut l none (setLane l (.blocked none (some (x.bin, x.peer))) (loseHome r u)))) := by
  unfold transferOutExpires
  rw [outExternal_of_some h hp]
  unfold outExpires
  rw [hr] <;> rfl

theorem loseHome_eq (r : TravelRecord) : loseHome r u =
    { u with dir := if r.home = u.cfg.station then u.dir.locate r.bin .unknown else u.dir } := by
  unfold loseHome
  split <;> rfl

theorem diversionExpires_of_holding {r : TravelRecord} (hr : u.spine.up = .holding r) : diversionExpires x u =
    handoffLost x.bin x.peer .up r.hop { u with
      dir := u.dir.locate x.bin .unknown
      spine := { u.spine with up := .blocked none none, outUp := none, driveUp := false, drivePortIn := false } } := by
  unfold diversionExpires
  rw [hr] <;> rfl

theorem mergeExpires_of_holding {r : TravelRecord} (hr : u.spine.portOut = .holding r) : mergeExpires x u =
    handoffLost x.bin x.peer .portOut r.hop { u with
      dir := u.dir.locate x.bin .unknown
      spine := { u.spine with
        down := .empty, portOut := .blocked none none, inDown := none, portOutVisit := none
        driveDown := false, drivePortOut := false } } := by
  unfold mergeExpires
  rw [hr] <;> rfl

end

section
variable {p : Pins} {s : State} {l : Lane} {x : Handoff} {r : TravelRecord} (hl : s.live = true)
include hl

/-- A transfer out to another station that is due is lost. -/
theorem exec_transferOut_due (h : s.spine.out l = some x) (hp : x.peer ≠ s.cfg.station)
    (hd : x.timer.dur ≤ (s.clock - x.timer.start).toNat) (hr : s.spine.lane l = .holding r) :
    exec (.transferLimitExpiryOut p l) s = .next (settle (handoffLost x.bin x.peer l.place r.hop (driveLane l false (setOut l none
      (setLane l (.blocked none (some (x.bin, x.peer))) { s.setPins p with
        dir := if r.home = s.cfg.station then s.dir.locate r.bin .unknown else s.dir }))))) := by
  have htimer : outTimer l (s.setPins p) = some x.timer := by rw [outTimer, outExternal_of_some (u := s.setPins p) h hp] <;> rfl
  rw [exec_expiry_of_due (c := .transferLimitExpiryOut p l) rfl hl htimer hd]
  exact congrArg (fun v => Host.Outcome.next (settle v))
    ((transferOutExpires_of_external (u := s.setPins p) h hp hr).trans (by rw [loseHome_eq] <;> rfl))

/-- A transfer out that is not due goes on. -/
theorem exec_transferOut_early (h : s.spine.out l = some x) (hd : (s.clock - x.timer.start).toNat < x.timer.dur) :
    exec (.transferLimitExpiryOut p l) s = .next (settle (s.setPins p)) := by
  by_cases hp : x.peer = s.cfg.station
  · have hnone : outExternal (s.setPins p) l = none := by simp [outExternal, h, Handoff.external, hp]
    have htimer : outTimer l (s.setPins p) = none := by rw [outTimer, hnone] <;> rfl
    exact exec_acts (c := .transferLimitExpiryOut p l) rfl hl (expiry_of_none htimer)
  · have htimer : outTimer l (s.setPins p) = some x.timer := by rw [outTimer, outExternal_of_some (u := s.setPins p) h hp] <;> rfl
    exact exec_expiry_of_early (c := .transferLimitExpiryOut p l) rfl hl htimer hd

/-- A transfer in that is due is given up. -/
theorem exec_transferIn_due (h : s.spine.incoming l = some x) (hp : x.peer ≠ s.cfg.station)
    (hd : x.timer.dur ≤ (s.clock - x.timer.start).toNat) :
    exec (.transferLimitExpiryIn p l) s = .next (settle (inExpires l (s.setPins p))) :=
  have htimer : inTimer l (s.setPins p) = some x.timer := by rw [inTimer, inExternal_of_some (u := s.setPins p) h hp] <;> rfl
  exec_expiry_of_due (c := .transferLimitExpiryIn p l) rfl hl htimer hd

theorem exec_diversion_due (h : s.spine.outUp = some x) (hp : x.peer = s.cfg.station)
    (hd : x.timer.dur ≤ (s.clock - x.timer.start).toNat) (hr : s.spine.up = .holding r) :
    exec (.diversionExpiry p) s = .next (settle (handoffLost x.bin s.cfg.station .up r.hop { s.setPins p with
      dir := s.dir.locate x.bin .unknown
      spine := { s.spine with up := .blocked none none, outUp := none, driveUp := false, drivePortIn := false } })) := by
  have hrun : diversion (s.setPins p) = some x := diversion_of_own (u := s.setPins p) h hp
  have htimer : diversionTimer (s.setPins p) = some x.timer := by rw [diversionTimer, hrun] <;> rfl
  have hexpires : diversionTransferExpires (s.setPins p) = diversionExpires x (s.setPins p) := by
    rw [diversionTransferExpires, hrun]
  rw [exec_expiry_of_due (c := .diversionExpiry p) rfl hl htimer hd, ← hp]
  exact congrArg (fun v => Host.Outcome.next (settle v)) (hexpires.trans (diversionExpires_of_holding (u := s.setPins p) hr))

theorem exec_merge_due (h : s.spine.inDown = some x) (hp : x.peer = s.cfg.station)
    (hd : x.timer.dur ≤ (s.clock - x.timer.start).toNat) (hr : s.spine.portOut = .holding r) :
    exec (.mergeTransferExpiry p) s = .next (settle (handoffLost x.bin s.cfg.station .portOut r.hop { s.setPins p with
      dir := s.dir.locate x.bin .unknown
      spine := { s.spine with
        down := .empty, portOut := .blocked none none, inDown := none, portOutVisit := none
        driveDown := false, drivePortOut := false } })) := by
  have hrun : merge (s.setPins p) = some x := merge_of_own (u := s.setPins p) h hp
  have htimer : mergeTimer (s.setPins p) = some x.timer := by rw [mergeTimer, hrun] <;> rfl
  have hexpires : mergeTransferExpires (s.setPins p) = mergeExpires x (s.setPins p) := by rw [mergeTransferExpires, hrun]
  rw [exec_expiry_of_due (c := .mergeTransferExpiry p) rfl hl htimer hd, ← hp]
  exact congrArg (fun v => Host.Outcome.next (settle v)) (hexpires.trans (mergeExpires_of_holding (u := s.setPins p) hr))

end

end Sys2Proof.Machine

namespace Sys2Proof.Proofs
open Sys2Proof Sys2Proof.Machine Sys2Proof.Safety

/-- Settles O53: each place's entry report by what stands in it and what it expects. -/
theorem arrivalReported : Obligations.ArrivalReported := by
  intro p s hl e own
  have acts {place : SpinePlace} {v : State} (hv : entryReport place e = v) : exec (.arrival p place) s = .next (settle v) :=
    exec_acts (c := .arrival p place) rfl hl hv
  refine ⟨fun x r hd hi hp hr => ?_, fun x r hd hi hp hr => ?_, fun x r hd hi hp hr => ?_, fun x r hin hout hp hr => ?_,
    fun h => acts (laneEntry_of_empty (u := e) (l := .down) h), fun h => acts (laneEntry_of_empty (u := e) (l := .up) h),
    fun h => acts (if_pos h), fun hin hout => ?_, fun place => ?_, fun u => ⟨fun m => portOutEmptied_of_holding, portOutEmptied_of_other⟩⟩
  · exact acts ((laneEntry_of_external (u := e) (l := .down) hd hi hp).trans (laneArrives_of_record hr))
  · exact acts ((laneEntry_of_external (u := e) (l := .up) hd hi hp).trans (laneArrives_of_record hr))
  · exact acts ((laneEntry_of_internal (u := e) (l := .down) hd hi hp).trans (mergeArrives_of_holding hr))
  · have hrun : (diversion e).isSome = true := by rw [diversion_of_own (u := e) hout hp] <;> rfl
    exact acts ((if_pos hin).trans ((if_pos hrun).trans (diversionArrives_of_holding hr)))
  · have hnone : ¬ (diversion e).isSome = true := by rw [diversion_of_none (u := e) hout]; exact Bool.false_ne_true
    exact acts ((if_pos hin).trans (if_neg hnone))
  · intro x h
    have hfull (y : PlaceState) (hy : y = x) : y ≠ .empty := by
      rintro rfl
      rcases h with ⟨r, h⟩ | ⟨kept, lost, h⟩ <;> rw [← hy] at h <;> cases h
    cases place with
    | portOut => exact acts (if_neg (hfull s.spine.portOut rfl))
    | portIn => exact acts (if_neg (hfull s.spine.portIn rfl))
    | down => exact acts (laneEntry_of_full (u := e) (l := .down) h)
    | up => exact acts (laneEntry_of_full (u := e) (l := .up) h)

/-- Settles O54: the drives stop, the diversion of a fire mode follows the bin table, and the port-in tag is checked. -/
theorem portAndPositionReported : Obligations.PortAndPositionReported := by
  intro p s hl e
  have acts {place : SpinePlace} {v : State} (hv : positionReport place e = v) :
      exec (.binAtPosition p place) s = .next (settle v) := exec_acts (c := .binAtPosition p place) rfl hl hv
  have stops (hout : s.spine.outDown = none) : positionReport .down e = { e with spine := { s.spine with driveDown := false } } :=
    if_pos (by simp [e, hout])
  have runs (hout : s.spine.outUp = none) :
      positionReport .up e = fireDiversion { e with spine := { s.spine with driveUp := false } } :=
    congrArg fireDiversion (if_pos (by simp [e, hout]))
  refine ⟨fun hout => acts (stops hout), fun hm hout => acts ((runs hout).trans (fireDiversion_of_calm hm)),
    fun x hout => acts (if_neg (by simp [e, hout])), fun x hout => acts ?_, fun r hm hup hd hh hp hout => ?_,
    fun hm hout h => acts ((runs hout).trans (fireDiversion_of_other (h.imp id .inl))), acts rfl, acts rfl, fun r hr hst => ?_⟩
  · have hrun : positionReport .up e = fireDiversion e := congrArg fireDiversion (if_neg (by simp [e, hout]))
    exact hrun.trans (fireDiversion_of_other (.inr (.inr (by simp [e, hout]))))
  · intro still diverted started blocked asked
    have hwait : homeBinWaits { e with spine := still } = some r :=
      homeBinWaits_of_home (u := { e with spine := still }) hup hd hh hp hout
    have hrun : positionReport .up e = divert r { e with spine := still } := (runs hout).trans (fireDiversion_of_home hm hwait)
    have habsent (hx : s.dir.bin r.bin = none) := divert_of_absent (u := { e with spine := still }) hx
    refine ⟨fun x loc since hx hout => acts (hrun.trans ((divert_of_entry (u := { e with spine := still }) hx).trans
        ((if_pos (by simp [hout])).trans (beginDiversion_eq r)))),
      fun x hx hst => acts (hrun.trans ((divert_of_entry (u := { e with spine := still }) hx).trans (if_neg (by simp [hst])))),
      fun d hx hd => ?_, fun hx hd => ?_⟩
    · have hadopted : divert r { e with spine := still } = beginDiversion r { asked with spine := still, dir := d } :=
        (habsent hx).trans (by rw [show Directory.adopt _ _ _ r _ = some d from hd])
      exact acts (hrun.trans (hadopted.trans (beginDiversion_eq r)))
    · have hblocked : divert r { e with spine := still } = blockUp r SlotName.nowhere { asked with spine := still } :=
        (habsent hx).trans (by rw [show Directory.adopt _ _ _ r _ = none from hd])
      exact acts (hrun.trans hblocked)
  · have reads {id : Option Nat} {v : State} (hv : portInTagRead id e = v) :
        exec (.portInTagRead p id) s = .next (settle v) := exec_acts (c := .portInTagRead p id) rfl hl hv
    have htag := portInTagRead_of_absent (u := e) hr hst
    exact ⟨reads ((htag _).trans (if_pos rfl)), fun id hid => reads ((htag id).trans (if_neg hid))⟩

/-- Settles O55: each expiry that is due acts by its own step. -/
theorem spineTimersExpire : Obligations.SpineTimersExpire := by
  intro p s hl e due own lost unknown
  refine ⟨fun x r h hp hd hr => exec_transferOut_due (l := .down) hl h hp hd hr,
    fun x r h hp hd hr => exec_transferOut_due (l := .up) hl h hp hd hr, fun x r h hp hd hr => exec_diversion_due hl h hp hd hr,
    fun x h hp hd => exec_transferIn_due (l := .down) hl h hp hd, fun x h hp hd => exec_transferIn_due (l := .up) hl h hp hd,
    fun x r h hp hd hr => exec_merge_due hl h hp hd hr,
    fun t h hd => exec_expiry_of_due (c := .offerRetryExpiry p .down) (timer := fun s => s.spine.retry .down)
      (f := clearRetry .down) rfl hl h hd,
    fun t h hd => exec_expiry_of_due (c := .offerRetryExpiry p .up) (timer := fun s => s.spine.retry .up)
      (f := clearRetry .up) rfl hl h hd,
    fun t h hd => exec_expiry_of_due (c := .mergeWaitExpiry p) (timer := fun s => s.spine.mergeWait) (f := mergeWaitExpires) rfl hl h hd,
    fun x h hd => exec_transferOut_early (l := .down) hl h (Nat.lt_of_not_le hd)⟩

end Sys2Proof.Proofs
end

