-- ==== Sys2Proof/Proofs/Evaluation.lean ====
section
/-! PROOFS. The prices of a bid, the eligible bins, the bid of an evaluation, and the overdue sweep (R33 to R38, R85, R90 to R92). -/

namespace Sys2Proof.Machine
open Sys2Proof Safety

/-! ## Prices (R33 to R37) -/

section
variable {u : State}

theorem backlogVisits_eq (u : State) : backlogVisits u =
    u.planner.visits.filter fun v => v.state == .ready && (v.rank == .urgent || v.rank == .room) := by
  unfold backlogVisits
  refine List.filter_congr fun v _ => ?_
  cases v.rank <;> rfl

/-- The slots of a list of visits' bins are those of the entries the bin table has. -/
theorem visitSlots_eq (u : State) (vs : List Visit) : visitSlots u vs = (vs.filterMap fun v => u.dir.bin v.bin).map (·.slot) := by
  unfold visitSlots binSlot
  exact (List.map_filterMap ..).symm

theorem remainingTime_eq (u : State) : remainingTime u = (match u.crane.state, u.crane.current with
      | .moving, some m => (match m.timer with | some t => m.estimate - (u.clock - t.start).toNat | none => m.estimate)
      | .holding, some m => m.estimate
      | _, _ => 0) := by
  unfold remainingTime remainingOf
  cases u.crane.state <;> cases u.crane.current with
  | none => rfl
  | some m => cases m.timer <;> rfl

theorem piggyback_of_waiting {desk : Desk} {bin : Nat} {x : BinEntry}
    (h : ∃ v, v ∈ u.planner.visits ∧ v.bin = bin ∧ v.desk = desk
      ∧ (v.state = .waitingBin ∨ v.state = .waitingRoute ∨ v.state = .ready)) : piggyback u desk bin x = roundTrip u.cfg x.slot := by
  obtain ⟨v, hv, rfl, rfl, hs⟩ := h
  exact if_pos (List.any_eq_true.mpr ⟨v, hv, by rw [waiting_eq]; rcases hs with hs | hs | hs <;> simp [hs]⟩)

theorem piggyback_of_none {desk : Desk} {bin : Nat} {x : BinEntry}
    (h : ∀ v, v ∈ u.planner.visits → v.bin = bin → v.desk = desk →
      v.state ≠ .waitingBin ∧ v.state ≠ .waitingRoute ∧ v.state ≠ .ready) : piggyback u desk bin x = 0 := by
  refine if_neg fun hany => ?_
  obtain ⟨v, hv, hw⟩ := List.any_eq_true.mp hany
  simp only [Bool.and_eq_true, beq_iff_eq, waiting_eq, Bool.or_eq_true] at hw
  obtain ⟨⟨hb, hd⟩, hs⟩ := hw
  obtain ⟨h1, h2, h3⟩ := h v hv hb hd
  rcases hs with (hs | hs) | hs
  · exact h1 hs
  · exact h2 hs
  · exact h3 hs

theorem remainingHeld_iff : remainingHeld u = true ↔
    ∃ m, u.crane.current = some m ∧ (u.crane.state = .moving ∨ u.crane.state = .holding) ∧ u.crane.estimateHeld = true := by
  unfold remainingHeld
  cases u.crane.state <;> cases u.crane.current <;> simp

theorem backlogHeld_iff : (visitSlots u (backlogVisits u)).any (roundTripHeld u.cfg) = true ↔
    ∃ v x, v ∈ u.planner.visits ∧ v.state = .ready ∧ v.rank ≠ .normal ∧ u.dir.bin v.bin = some x
      ∧ legHeld u.cfg (portPos u.cfg) x.slot.pos = true := by
  simp only [visitSlots_eq, List.any_eq_true, List.mem_map, List.mem_filterMap, backlogVisits, List.mem_filter, Bool.and_eq_true,
    beq_iff_eq, bne_iff_ne]
  constructor
  · rintro ⟨_, ⟨x, ⟨v, ⟨hv, hs, hr⟩, hx⟩, rfl⟩, hfar⟩
    exact ⟨v, x, hv, hs, hr, hx, hfar⟩
  · rintro ⟨v, x, hv, hs, hr, hx, hfar⟩
    exact ⟨x.slot, ⟨x, ⟨v, ⟨hv, hs, hr⟩, hx⟩, rfl⟩, hfar⟩

end

/-! ## Eligible bins (R91) -/

section
variable {u : State} {c : CallEntry}

theorem binFits_iff {x : BinEntry} : binFits u c x = true ↔
    x.status = .stored ∧ x.doubt = false ∧ lockedSlot u.cfg x.slot = c.restricted ∧ x.restricted = c.restricted
      ∧ x.fill + x.promVolume + c.volume ≤ (gradeOf u.cfg x.grade).capacity
      ∧ x.mass + x.promMass + c.mass ≤ (gradeOf u.cfg x.grade).massLimit
      ∧ u.dir.load x.slot ≤ u.cfg.columnMassLimit ∧ u.dir.load x.slot + c.mass ≤ u.cfg.columnMassLimit := by
  have hover : u.dir.over u.cfg x.slot = false ↔ u.dir.load x.slot ≤ u.cfg.columnMassLimit := by simp [Directory.over]
  simp only [binFits, Bool.and_eq_true, holdFits_iff, beq_iff_eq, Bool.not_eq_true', hover]
  exact ⟨fun ⟨⟨⟨⟨hs, hd, hv, hm, hc⟩, hl⟩, hr⟩, hn⟩ => ⟨hs, hd, hl, hr, hv, hm, hn, hc⟩,
    fun ⟨hs, hd, hl, hr, hv, hm, hn, hc⟩ => ⟨⟨⟨⟨hs, hd, hv, hm, hc⟩, hl⟩, hr⟩, hn⟩⟩

theorem fetched_iff (st : VisitState) : st.fetched = false ↔ st ≠ .fetching ∧ st ≠ .onCrane ∧ st ≠ .delivering ∧ st ≠ .holding
    ∧ st ≠ .atPort ∧ st ≠ .onSpine := by cases st <;> simp [VisitState.fetched]

theorem beforePort_iff (st : VisitState) : st.beforePort = true ↔ st ≠ .atPort ∧ st ≠ .onSpine := by
  cases st <;> simp [VisitState.beforePort]

theorem binFree_iff {b : Nat} : binFree u c b = true ↔
    (∀ v, v ∈ u.planner.visits → v.bin = b → v.state ≠ .fetching ∧ v.state ≠ .onCrane ∧ v.state ≠ .delivering
      ∧ v.state ≠ .holding ∧ v.state ≠ .atPort ∧ v.state ≠ .onSpine)
    ∧ (∀ v, v ∈ u.planner.visits → v.bin = b → v.desk = c.call.desk → v.state ≠ .atPort → v.state ≠ .onSpine → v.room = none)
    ∧ (b, c.call.desk) ∉ u.planner.reservations
    ∧ ∀ y cost, y ∈ u.placement.calls → y.call ≠ c.call → y.call.desk = c.call.desk → y.own ≠ some (cost, b) := by
  have hcrane : (u.planner.visits.any fun v => v.bin == b && v.state.fetched) = false ↔
      ∀ v, v ∈ u.planner.visits → v.bin = b → v.state ≠ .fetching ∧ v.state ≠ .onCrane ∧ v.state ≠ .delivering
        ∧ v.state ≠ .holding ∧ v.state ≠ .atPort ∧ v.state ≠ .onSpine := by
    simp [← fetched_iff]
  have hroom : (u.planner.visits.any fun v => v.bin == b && v.desk == c.call.desk && v.state.beforePort && v.room.isSome) = false ↔
      ∀ v, v ∈ u.planner.visits → v.bin = b → v.desk = c.call.desk → v.state ≠ .atPort → v.state ≠ .onSpine → v.room = none := by
    simp [beforePort_iff]
  have hheld (y : CallEntry) : holdsBin b y = true ↔ ∃ cost, y.own = some (cost, b) := by
    unfold holdsBin
    rcases y.own with - | ⟨cost, x⟩ <;> simp
  have hdesk : (u.placement.calls.any fun x => x.call != c.call && x.call.desk == c.call.desk && holdsBin b x) = false ↔
      ∀ y cost, y ∈ u.placement.calls → y.call ≠ c.call → y.call.desk = c.call.desk → y.own ≠ some (cost, b) := by
    simp only [List.any_eq_false, Bool.and_eq_true, bne_iff_ne, beq_iff_eq, hheld]
    exact ⟨fun h y cost hy h1 h2 h3 => h y hy ⟨⟨h1, h2⟩, cost, h3⟩, fun h y hy ⟨⟨h1, h2⟩, cost, h3⟩ => h y cost hy h1 h2 h3⟩
  have hres : u.planner.reservations.contains (b, c.call.desk) = false ↔ (b, c.call.desk) ∉ u.planner.reservations := by simp
  rw [← hcrane, ← hroom, ← hres, ← hdesk]
  rw [← and_assoc, ← and_assoc, ← Bool.not_eq_true', ← Bool.not_eq_true', ← Bool.not_eq_true', ← Bool.not_eq_true',
    ← Bool.and_eq_true, ← Bool.and_eq_true, ← Bool.and_eq_true]
  exact Iff.rfl

theorem occupant_bind (d : Directory) (sl : Slot) (ok : Nat → BinEntry → Bool) :
    (match occupant d sl with
      | some (b, e) => if ok b e = true then some (b, e) else none
      | none => none) = (match d.slotState sl with
        | .occupied b => (d.bin b).bind fun x => if ok b x = true then some (b, x) else none
        | _ => none) := by
  unfold occupant
  cases d.slotState sl with
  | occupied b => cases hb : d.bin b <;> simp only [hb] <;> rfl
  | _ => rfl

end

/-! ## The bid (R92) -/

theorem mem_of_cheapest {cost : Nat × BinEntry → Nat} {l : List (Nat × BinEntry)} {y : Nat × BinEntry}
    (h : cheapest cost l = some y) : y ∈ l := by
  induction l generalizing y with
  | nil => cases h
  | cons x l ih =>
    unfold cheapest at h
    cases hr : cheapest cost l with
    | none =>
      rw [hr] at h
      cases h
      exact List.mem_cons_self
    | some z =>
      rw [hr] at h
      dsimp only at h
      split at h
      · cases h
        exact List.mem_cons_of_mem _ (ih hr)
      · cases h
        exact List.mem_cons_self

/-- The first of least cost in a list. -/
theorem cheapest_first {cost : Nat × BinEntry → Nat} {before after : List (Nat × BinEntry)} {x : Nat × BinEntry}
    (hb : ∀ y, y ∈ before → cost x < cost y) (ha : ∀ y, y ∈ after → cost x ≤ cost y) :
    cheapest cost (before ++ x :: after) = some x := by
  have hlast : cheapest cost (x :: after) = some x := by
    unfold cheapest
    cases hy : cheapest cost after with
    | none => rfl
    | some y => exact if_neg (Nat.not_lt_of_le (ha y (mem_of_cheapest hy)))
  induction before with
  | nil => exact hlast
  | cons y before ih =>
    have hrest := ih fun z hz => hb z (List.mem_cons_of_mem _ hz)
    rw [List.cons_append, cheapest, hrest]
    exact if_pos (hb y List.mem_cons_self)

section
variable {u : State} {c : CallEntry} (hc : evaluating u.placement = some c)
include hc

/-- The search of an evaluation, with its cursor moved and LIMITED noted. -/
theorem evaluationDone_of_call :
    let search := sweepColumns u.cfg.nc 64 u.cfg.searchSpan u.placement.sweep
    let bins := eligibleBins u c search.1
    let cost := fun x : Nat × BinEntry => bidCost u (backlog u) c.call.desk x.1 x.2
    let t := { u with limited := u.limited || pricesHeld u bins, placement := { u.placement with sweep := search.2 } }
    evaluationDone u = (match cheapest cost bins with
      | some x => bidFor c (cost x) x.1 t
      | none => { t with placement := t.placement.modify c.call fun e => { e with state := .noBid } }) := by
  intro search bins cost t
  unfold evaluationDone
  rw [hc]
  dsimp only
  cases cheapest (fun x => bidCost u (backlog u) c.call.desk x.1 x.2)
    (eligibleBins u c (sweepColumns u.cfg.nc 64 u.cfg.searchSpan u.placement.sweep).1) <;> rfl

end

theorem bidFor_of_hold {c : CallEntry} {cost b : Nat} {u : State} {d : Directory} (hd : u.dir.placeHold u.cfg b c.volume c.mass = some d) :
    bidFor c cost b u = queueFrame (frameOf (.bid ⟨c.call, cost, u.cfg.station, b⟩) 63 (.bid c.call)) { u with
      dir := d, placement := u.placement.modify c.call fun e => { e with state := .bidQueued, own := some (cost, b) } } := by
  unfold bidFor
  rw [hd] <;> rfl

/-! ## The overdue sweep (R85) -/

section
variable {u : State} {b : Nat} {e : BinEntry} (he : u.dir.bin b = some e)
include he

theorem sweepBin_of_kept (h : overdueNow u e = none) : sweepBin b u = u := by
  unfold sweepBin
  rw [he]
  dsimp only
  rw [h]

theorem sweepBin_of_overdue {loc : Location} {since : Time} (h : overdueNow u e = some (loc, since)) : sweepBin b u =
    if noticeEnters [overdueItem u b loc since] u = true then
      { notice [overdueItem u b loc since] u with dir := u.dir.setBin b { e with overdue := true } }
    else notice [overdueItem u b loc since] u := by
  unfold sweepBin
  rw [he]
  dsimp only
  rw [h] <;> rfl

end

theorem notice_of_room {u : State} (items : List Item) (h : noticeCount u.line.queue < 6 ∧ u.line.queue.length < 12) :
    noticeEnters items u = true
      ∧ notice items u = { u with line := { u.line with queue := insertFrame (noticeFrame items) u.line.queue } } := by
  have hadm : admission (noticeFrame items) u.line.queue = .taken (insertFrame (noticeFrame items) u.line.queue) :=
    (admission_notice rfl).trans (if_pos h)
  unfold noticeEnters notice
  simp only [hadm]
  exact ⟨rfl, rfl⟩

theorem notice_of_full {u : State} (items : List Item) (h : 6 ≤ noticeCount u.line.queue ∨ 12 ≤ u.line.queue.length) :
    noticeEnters items u = false ∧ notice items u = { u with line := { u.line with discarded := true } } := by
  have hadm : admission (noticeFrame items) u.line.queue = .lost := (admission_notice rfl).trans (if_neg (by omega))
  unfold noticeEnters notice
  simp only [hadm]
  exact ⟨rfl, rfl⟩

end Sys2Proof.Machine

namespace Sys2Proof.Proofs
open Sys2Proof Sys2Proof.Machine Sys2Proof.Safety

/-- Settles O56: the prices, the tests of a bin one by one, and the first of least cost held and bid for. -/
theorem evaluationBidsForCheapest : Obligations.EvaluationBidsForCheapest := by
  refine ⟨fun u desk bin x => ?_, fun u bins => ?_, fun u c cols => ?_, fun p c s hl hc => ?_⟩
  · intro trip remaining staged ahead
    refine ⟨?_, piggyback_of_waiting, piggyback_of_none⟩
    unfold backlog
    rw [remainingTime_eq, visitSlots_eq, backlogVisits_eq, List.map_map] <;> rfl
  · intro far
    have hbins : (bins.any fun x => roundTripHeld u.cfg x.2.slot) = true ↔ ∃ b x, (b, x) ∈ bins ∧ far x := by
      simp only [List.any_eq_true, Prod.exists]
      rfl
    unfold pricesHeld
    rw [Bool.or_eq_true, Bool.or_eq_true, remainingHeld_iff, backlogHeld_iff, hbins, or_assoc] <;> rfl
  · intro up
    refine ⟨eligible u c, ?_, fun b x => ?_⟩
    · exact congrArg (List.filterMap · _) (funext fun sl => occupant_bind u.dir sl (eligible u c))
    · rw [eligible, Bool.and_eq_true, binFits_iff, binFree_iff]
      simp only [and_assoc]
  · intro e search bins cost limited calls
    have acts {v : State} (hv : evaluationDone (s.setPins p) = v) : exec (.evaluationDone p) s = .next (settle v) :=
      exec_acts (c := .evaluationDone p) rfl hl hv
    have hdone := evaluationDone_of_call (u := e) hc
    refine ⟨fun hnil => acts (hdone.trans ?_), fun x before after d hsplit hb ha hd => acts (hdone.trans ?_)⟩
    · have hnone : cheapest (fun x => bidCost e (backlog e) c.call.desk x.1 x.2) bins = none := by rw [hnil] <;> rfl
      rw [hnone] <;> rfl
    · have hfirst : cheapest (fun x => bidCost e (backlog e) c.call.desk x.1 x.2) bins = some x := by
        rw [hsplit]
        exact cheapest_first hb ha
      rw [hfirst]
      exact bidFor_of_hold hd

/-- Settles O58: the sweep starts its timer anew and reports each bin that is due, where the notice enters. -/
theorem overdueBinsReported : Obligations.OverdueBinsReported := by
  refine ⟨fun p t s ht hd => ?_, fun s b e he => ⟨fun h => ?_, fun loc since hs => ⟨fun hn => ?_, fun hn ho => ?_⟩⟩⟩
  · intro u
    have hsweep : expiry (fun s => s.planner.sweep) overdueSweep (s.setPins p) = u := expiry_of_due (s := s.setPins p) ht hd
    rw [exec_overdueSweepExpiry, hsweep]
  · refine sweepBin_of_kept he ?_
    unfold overdueNow
    cases hst : e.status with
    | stored => rfl
    | out loc since =>
      rcases h with h | h
      · rw [hst] at h
        cases h
      · exact if_neg (by simp [h])
  · refine sweepBin_of_kept he ?_
    unfold overdueNow
    rw [hs]
    exact if_neg fun h => Nat.not_lt_of_le hn (of_decide_eq_true (Bool.and_eq_true_iff.mp h).2)
  · intro item
    have hover : overdueNow s e = some (loc, since) := by
      unfold overdueNow
      rw [hs]
      exact if_pos (Bool.and_eq_true_iff.mpr ⟨by simp [ho], decide_eq_true hn⟩)
    have hsweep := sweepBin_of_overdue he hover
    refine ⟨fun hq => ?_, fun hq => ?_⟩
    · obtain ⟨henters, hnotice⟩ := notice_of_room [overdueItem s b loc since] hq
      exact hsweep.trans ((if_pos henters).trans (by rw [hnotice] <;> rfl))
    · obtain ⟨henters, hnotice⟩ := notice_of_full [overdueItem s b loc since] hq
      exact hsweep.trans ((if_neg (by simp [henters])).trans hnotice)

end Sys2Proof.Proofs
end

