-- ==== Sys2Proof/Proofs/Octets.lean ====
section
/-! PROOFS. Octets: numbers, choice fields and item bodies read back as they were written (R167, R180 to R183). -/

namespace Sys2Proof.Machine
open Sys2Proof Safety

/-! ## Numbers in octets -/

theorem toNat_oct (x : Nat) : (oct x).toNat = x % 256 := BitVec.toNat_ofNat x 8

theorem toNat_oct_of_lt {x : Nat} (h : x < 256) : (oct x).toNat = x := by rw [toNat_oct, Nat.mod_eq_of_lt h]

theorem toNat_oct_of_fits {x : Nat} (h : fits8 x = true) : (oct x).toNat = x := toNat_oct_of_lt (of_decide_eq_true h)

theorem num2_oct {x : Nat} (h : fits16 x = true) : num2 (oct (x / 256)) (oct x) = x := by
  have hx : x < 65536 := of_decide_eq_true h
  simp only [num2, toNat_oct]
  omega

theorem num3_oct {x : Nat} (h : fits24 x = true) : num3 (oct (x / 65536)) (oct (x / 256)) (oct x) = x := by
  have hx : x < 16777216 := of_decide_eq_true h
  simp only [num3, toNat_oct]
  omega

theorem num4_oct {x : Nat} (h : fits32 x = true) :
    num4 (oct (x / 16777216)) (oct (x / 65536)) (oct (x / 256)) (oct x) = x := by
  have hx : x < 4294967296 := of_decide_eq_true h
  simp only [num4, toNat_oct]
  omega

/-! ## Choice fields -/

@[simp] theorem decComp_encComp : ∀ c, decComp (encComp c) = some c := by decide

@[simp] theorem decDesk_encDesk : ∀ d, decDesk (encDesk d) = some d := by decide

@[simp] theorem decDeskOr_encDeskOr : ∀ d, decDeskOr (encDeskOr d) = some d
  | none => rfl
  | some d => by
    have ne : encDesk d ≠ 0xFF := by revert d; decide
    rw [decDeskOr, encDeskOr, if_neg ne, decDesk_encDesk] <;> rfl

@[simp] theorem decDest_encDest : ∀ d, decDest (encDest d) = some d
  | .home => rfl
  | .desk d => by
    have ne : encDesk d ≠ 0x80 := by revert d; decide
    rw [decDest, encDest, if_neg ne, decDesk_encDesk] <;> rfl

@[simp] theorem decCause_encCause (c : Cause) : decCause (encCause c) = some c := by cases c <;> rfl

@[simp] theorem decFace_encFace (f : FaceCode) : decFace (encFace f) = some f := by cases f <;> rfl

@[simp] theorem decTakenPlace_encTakenPlace (p : TakenPlace) : decTakenPlace (encTakenPlace p) = some p := by cases p <;> rfl

@[simp] theorem decRank_encRank (r : RankAsked) : decRank (encRank r) = some r := by cases r <;> rfl

@[simp] theorem decKind_encKind (k : LocationKind) : decKind (encKind k) = some k := by cases k <;> rfl

@[simp] theorem decFault_encFault (k : FaultKind) : decFault (encFault k) = some k := by cases k <;> rfl

@[simp] theorem decFlag_encFlag (b : Bool) : decFlag (encFlag b) = b := by cases b <;> rfl

@[simp] theorem purposeOf_encPurpose (p : Purpose) (c r : Bool) : purposeOf (encPurpose p c r).toNat = p := by
  cases p <;> cases c <;> cases r <;> rfl

@[simp] theorem call_encPurpose (p : Purpose) (c r : Bool) : (encPurpose p c r).getLsbD 6 = c := by
  cases p <;> cases c <;> cases r <;> rfl

@[simp] theorem restricted_encPurpose (p : Purpose) (c r : Bool) : (encPurpose p c r).getLsbD 7 = r := by
  cases p <;> cases c <;> cases r <;> rfl

@[simp] theorem limited_encReportFlags (l d c : Bool) : (encReportFlags l d c).getLsbD 0 = l := by
  cases l <;> cases d <;> cases c <;> rfl

@[simp] theorem discarded_encReportFlags (l d c : Bool) : (encReportFlags l d c).getLsbD 1 = d := by
  cases l <;> cases d <;> cases c <;> rfl

@[simp] theorem clamped_encReportFlags (l d c : Bool) : (encReportFlags l d c).getLsbD 2 = c := by
  cases l <;> cases d <;> cases c <;> rfl

/-! ## Shared records -/

theorem decSlot_encSlot {n : SlotName} (h : n.fits = true) : decSlot (encFace n.face) (oct n.col) (oct n.level) = some n := by
  obtain ⟨hc, hl⟩ := Bool.and_eq_true_iff.mp h
  simp only [decSlot, decFace_encFace, Option.map_some, toNat_oct_of_fits hc, toNat_oct_of_fits hl]

theorem decCall_encCall {c : Call} (h : c.fits = true) : decCall (encDesk c.desk) (oct (c.num / 256)) (oct c.num) = some c := by
  simp only [decCall, decDesk_encDesk, Option.map_some, num2_oct h]

/-! ## The travel record of an OFFER -/

theorem decIds_oct3 {x : Nat} (h : fits24 x = true) (rest : List Byte) : decIds (oct3 x ++ rest) = x :: decIds rest :=
  congrArg (· :: decIds rest) (num3_oct h)

theorem decIds_flatMap : ∀ ids : List Nat, ids.all fits24 = true → decIds (ids.flatMap oct3) = ids
  | [], _ => rfl
  | x :: xs, h => by
    obtain ⟨hx, hxs⟩ := Bool.and_eq_true_iff.mp (List.all_cons ▸ h)
    rw [List.flatMap_cons, decIds_oct3 hx, decIds_flatMap xs hxs]

/-- The eight ids of an OFFER: those of the record, and 0 beyond. -/
def paddedIds (ids : List Nat) : List Nat := (List.range 8).map fun i => ids.getD i 0

theorem encIds_eq (ids : List Nat) : encIds ids = (paddedIds ids).flatMap oct3 := (List.flatMap_map ..).symm

theorem paddedIds_fits {ids : List Nat} (h : ids.all fits24 = true) : (paddedIds ids).all fits24 = true := by
  rw [List.all_eq_true] at h ⊢
  intro x hx
  obtain ⟨i, -, rfl⟩ := List.mem_map.mp hx
  by_cases hi : i < ids.length
  · rw [List.getD_eq_getElem?_getD, List.getElem?_eq_getElem hi, Option.getD_some]
    exact h _ (List.getElem_mem hi)
  · rw [List.getD_eq_getElem?_getD, List.getElem?_eq_none (Nat.le_of_not_lt hi)]
    rfl

theorem take_paddedIds {ids : List Nat} (h : ids.length ≤ 8) : (paddedIds ids).take ids.length = ids := by
  refine List.ext_getElem (by simp [paddedIds, h]) fun i h₁ h₂ => ?_
  simp [paddedIds, h₂]

theorem decIds_encIds {ids : List Nat} (h : ids.all fits24 = true) (hl : ids.length ≤ 8) :
    (decIds (encIds ids)).take ids.length = ids := by
  rw [encIds_eq, decIds_flatMap _ (paddedIds_fits h), take_paddedIds hl]

/-! ## Bodies with a record of their own -/

theorem decCallPart_of_none (d a b v m : Byte) : decCallPart false d a b v m = some none := rfl

theorem decCallPart_of_some {p : CallPart} (hc : p.call.fits = true) (hv : fits8 p.volume = true) (hm : fits8 p.mass = true) :
    decCallPart true (encDesk p.call.desk) (oct (p.call.num / 256)) (oct p.call.num) (oct p.volume) (oct p.mass)
      = some (some p) := by
  simp only [decCallPart, if_true, decCall_encCall hc, Option.map_some, toNat_oct_of_fits hv, toNat_oct_of_fits hm]

theorem decOffer_encOffer {r : TravelRecord} (h : r.fits = true) : decOffer (encOffer r) = some r := by
  obtain ⟨bin, home, dest, purpose, hop, grade, fill, mass, count, restricted, call, requests⟩ := r
  simp only [TravelRecord.fits, Bool.and_eq_true, decide_eq_true_eq] at h
  obtain ⟨⟨⟨⟨⟨⟨⟨⟨⟨hbin, hhome⟩, hhop⟩, hgrade⟩, hfill⟩, hmass⟩, hcount⟩, hcall⟩, hlen⟩, hids⟩ := h
  cases call with
  | none =>
    simp [-BitVec.getLsbD_eq_getElem, encOffer, oct2, encCallPart, decOffer, decCallPart_of_none, num2_oct, toNat_oct_of_fits,
      hbin, hhome, hhop, hgrade, hfill, hmass, hcount, toNat_oct_of_lt (Nat.lt_of_le_of_lt hlen (by decide)), hlen, decIds_encIds hids hlen]
  | some p =>
    simp only [Bool.and_eq_true] at hcall
    obtain ⟨⟨hc, hv⟩, hm⟩ := hcall
    simp [-BitVec.getLsbD_eq_getElem, encOffer, oct2, encCallPart, encCall, decOffer, decCallPart_of_some hc hv hm, num2_oct, toNat_oct_of_fits, hbin,
      hhome, hhop, hgrade, hfill, hmass, hcount, toNat_oct_of_lt (Nat.lt_of_le_of_lt hlen (by decide)), hlen,
      decIds_encIds hids hlen]

theorem decNotice_encNotice {b : NoticeBody} (h : b.fits = true) : decNotice (encNotice b) = some b := by
  cases b with
  | head bin desk reason =>
    obtain ⟨hb, hr⟩ := Bool.and_eq_true_iff.mp h
    have zero : num3 (oct (0 / 65536)) (oct (0 / 256)) (oct 0) = 0 := rfl
    simp [-Nat.zero_div, encNotice, oct3, oct2, decNotice, zero, num2_oct hb, toNat_oct_of_fits hr]
  | request id ref =>
    simp only [NoticeBody.fits, Bool.and_eq_true, decide_eq_true_eq] at h
    obtain ⟨⟨hne, hid⟩, href⟩ := h
    simp [encNotice, oct3, oct4, decNotice, num3_oct hid, num4_oct href, hne]

theorem decFaultBody_encFaultBody {b : FaultBody} (h : b.fits = true) : decFaultBody (encFaultBody b) = some b := by
  simp only [FaultBody.fits, Bool.and_eq_true] at h
  obtain ⟨⟨⟨⟨⟨⟨⟨hplaced, hbin⟩, hsecond⟩, hA⟩, hB⟩, hcode⟩, hplace⟩, hhop⟩ := h
  simp [encFaultBody, oct2, encSlot, decFaultBody, decSlot_encSlot hA, decSlot_encSlot hB, num2_oct hbin, num2_oct hsecond,
    toNat_oct_of_fits hcode, toNat_oct_of_fits hplace, toNat_oct_of_fits hhop, hplaced]

theorem decOverdue_encoded {b : BinOverdueBody} (hplaced : b.placed = true) (hbin : fits16 b.bin = true)
    (hvalue : fits8 b.value = true) (hminutes : fits24 b.minutes = true) :
    decOverdue (encodeBody (.binOverdue b)) = some b := by
  simp [encodeBody, oct2, oct3, decOverdue, num2_oct hbin, toNat_oct_of_fits hvalue, num3_oct hminutes, hplaced]

theorem decReport_encReport {b : ReportBody} (h : b.fits = true) : decReport (encReport b) = some b := by
  simp only [ReportBody.fits, Bool.and_eq_true] at h
  obtain ⟨⟨⟨⟨⟨⟨⟨⟨⟨⟨hm, hc⟩, hp⟩, hv⟩, he⟩, ho⟩, hr⟩, hb⟩, hcrc⟩, hup⟩, hdown⟩ := h
  simp [-BitVec.getLsbD_eq_getElem, encReport, oct2, decReport, toNat_oct_of_fits hm, toNat_oct_of_fits hc, toNat_oct_of_fits hp, toNat_oct_of_fits hv,
    num2_oct he, num2_oct ho, num2_oct hr, num2_oct hb, num2_oct hcrc, num2_oct hup, num2_oct hdown]

/-! ## Item bodies -/

theorem length_encOffer (r : TravelRecord) : (encOffer r).length = 41 := by
  unfold encOffer
  cases r.call <;> rfl

/-- The body of an item has the octets its code fixes. -/
theorem bodyLength_code (i : Item) : bodyLength i.code = some (encodeBody i).length := by
  cases i with
  | offer r => exact congrArg some (length_encOffer r).symm
  | requestDone b => cases b <;> rfl
  | requestFailed b => cases b <;> rfl
  | _ => rfl

theorem length_encodeBody (i : Item) : (encodeBody i).length = i.size := by rw [Item.size, bodyLength_code, Option.getD_some]

section
variable {b : AlarmBody} {f : SafeBody} {t : TakenBody} {rc : RoomCallBody} {bd : BidBody} {cl : ClaimBody} {l : LendBody}
  {k : StockBody} {st : BinStoredBody} {rf : StockRefusedBody}

theorem decodeBody_alarm (he : fits8 b.epoch = true) (hs : fits8 b.source = true) :
    decodeBody 0x01 (encodeBody (.alarm b)) = some (.alarm b) := by
  show (match decComp (encComp b.comp), decCause (encCause b.cause) with
    | some c, some k => some (Item.alarm ⟨c, (oct b.epoch).toNat, k, (oct b.source).toNat⟩)
    | _, _ => none) = _
  rw [decComp_encComp, decCause_encCause, toNat_oct_of_fits he, toNat_oct_of_fits hs]

theorem decodeBody_safe (he : fits8 f.epoch = true) (hs : fits8 f.station = true) :
    decodeBody 0x05 (encodeBody (.safe f)) = some (.safe f) := by
  show (decComp (encComp f.comp)).map (fun c => Item.safe ⟨c, (oct f.epoch).toNat, (oct f.station).toNat⟩) = _
  rw [decComp_encComp, toNat_oct_of_fits he, toNat_oct_of_fits hs, Option.map_some]

theorem decodeBody_restore {r : RestoreBody} (he : fits8 r.epoch = true) :
    decodeBody 0x06 (encodeBody (.restore r)) = some (.restore r) := by
  show (decComp (encComp r.comp)).map (fun c => Item.restore ⟨c, (oct r.epoch).toNat⟩) = _
  rw [decComp_encComp, toNat_oct_of_fits he, Option.map_some]

theorem decodeBody_taken (hb : fits16 t.bin = true) (ht : fits8 t.taker = true) :
    decodeBody 0x11 (encodeBody (.taken t)) = some (.taken t) := by
  show (decTakenPlace (encTakenPlace t.place)).map
    (fun p => Item.taken ⟨num2 (oct (t.bin / 256)) (oct t.bin), (oct t.taker).toNat, p⟩) = _
  rw [decTakenPlace_encTakenPlace, num2_oct hb, toNat_oct_of_fits ht, Option.map_some]

theorem decodeBody_roomCall (hc : rc.call.fits = true) (hv : fits8 rc.volume = true) (hm : fits8 rc.mass = true)
    (hw : fits16 rc.window = true) : decodeBody 0x18 (encodeBody (.roomCall rc)) = some (.roomCall rc) := by
  show (decCall (encDesk rc.call.desk) (oct (rc.call.num / 256)) (oct rc.call.num)).map (fun c => Item.roomCall
    ⟨c, (oct rc.volume).toNat, (oct rc.mass).toNat, decFlag (encFlag rc.restricted), num2 (oct (rc.window / 256)) (oct rc.window)⟩)
    = _
  rw [decCall_encCall hc, toNat_oct_of_fits hv, toNat_oct_of_fits hm, decFlag_encFlag, num2_oct hw, Option.map_some]

theorem decodeBody_bid (hc : bd.call.fits = true) (hcost : fits24 bd.cost = true) (hs : fits8 bd.station = true)
    (hb : fits16 bd.bin = true) : decodeBody 0x19 (encodeBody (.bid bd)) = some (.bid bd) := by
  show (decCall (encDesk bd.call.desk) (oct (bd.call.num / 256)) (oct bd.call.num)).map (fun c => Item.bid
    ⟨c, num3 (oct (bd.cost / 65536)) (oct (bd.cost / 256)) (oct bd.cost), (oct bd.station).toNat,
      num2 (oct (bd.bin / 256)) (oct bd.bin)⟩) = _
  rw [decCall_encCall hc, num3_oct hcost, toNat_oct_of_fits hs, num2_oct hb, Option.map_some]

theorem decodeBody_claim (hc : cl.call.fits = true) (hs : fits8 cl.station = true) (hb : fits16 cl.bin = true) :
    decodeBody 0x1A (encodeBody (.claim cl)) = some (.claim cl) := by
  show (decCall (encDesk cl.call.desk) (oct (cl.call.num / 256)) (oct cl.call.num)).map (fun c => Item.claim
    ⟨c, (oct cl.station).toNat, num2 (oct (cl.bin / 256)) (oct cl.bin)⟩) = _
  rw [decCall_encCall hc, toNat_oct_of_fits hs, num2_oct hb, Option.map_some]

theorem decodeBody_lend (hi : fits24 l.id = true) (hb : fits16 l.bin = true) (hr : fits32 l.ref = true) :
    decodeBody 0x20 (encodeBody (.lend l)) = some (.lend l) := by
  show (match decDesk (encDesk l.desk), decRank (encRank l.rank) with
    | some d, some k => some (Item.lend ⟨num3 (oct (l.id / 65536)) (oct (l.id / 256)) (oct l.id),
        num2 (oct (l.bin / 256)) (oct l.bin),
        num4 (oct (l.ref / 16777216)) (oct (l.ref / 65536)) (oct (l.ref / 256)) (oct l.ref), d, k⟩)
    | _, _ => none) = _
  rw [decDesk_encDesk, decRank_encRank, num3_oct hi, num2_oct hb, num4_oct hr]

theorem decodeBody_stockAt {n : SlotName} (h : n.fits = true) : decodeBody 0x22 (encodeBody (.stockAt n)) = some (.stockAt n) :=
  congrArg (Option.map Item.stockAt) (decSlot_encSlot h)

theorem decodeBody_stock (hb : fits16 k.bin = true) (hg : fits8 k.grade = true) (hf : fits8 k.fill = true)
    (hm : fits16 k.mass = true) (hc : fits8 k.count = true) : decodeBody 0x23 (encodeBody (.stock k)) = some (.stock k) := by
  show some (Item.stock ⟨num2 (oct (k.bin / 256)) (oct k.bin), (oct k.grade).toNat, (oct k.fill).toNat,
    num2 (oct (k.mass / 256)) (oct k.mass), (oct k.count).toNat, decFlag (encFlag k.restricted)⟩) = _
  rw [num2_oct hb, toNat_oct_of_fits hg, toNat_oct_of_fits hf, num2_oct hm, toNat_oct_of_fits hc, decFlag_encFlag]

theorem decodeBody_binStored (hb : fits16 st.bin = true) (hs : st.slot.fits = true) :
    decodeBody 0x32 (encodeBody (.binStored st)) = some (.binStored st) := by
  show (decSlot (encFace st.slot.face) (oct st.slot.col) (oct st.slot.level)).map (fun n => Item.binStored
    ⟨num2 (oct (st.bin / 256)) (oct st.bin), n⟩) = _
  rw [decSlot_encSlot hs, num2_oct hb, Option.map_some]

theorem decodeBody_stockRefused (hr : fits8 rf.reason = true) (hs : rf.slot.fits = true) (hb : fits16 rf.bin = true) :
    decodeBody 0x36 (encodeBody (.stockRefused rf)) = some (.stockRefused rf) := by
  show (decSlot (encFace rf.slot.face) (oct rf.slot.col) (oct rf.slot.level)).map (fun n => Item.stockRefused
    ⟨(oct rf.reason).toNat, n, num2 (oct (rf.bin / 256)) (oct rf.bin)⟩) = _
  rw [decSlot_encSlot hs, toNat_oct_of_fits hr, num2_oct hb, Option.map_some]

end

/-- A body of its code that fits reads back as the item written. -/
theorem decodeBody_encodeBody {i : Item} (h : i.fits = true) : decodeBody i.code (encodeBody i) = some i := by
  cases i <;> simp only [Item.fits, Bool.and_eq_true] at h
  case alarm b => exact decodeBody_alarm h.1 h.2
  case closing g => exact congrArg (fun x => some (Item.closing x)) (toNat_oct_of_fits h)
  case closed g => exact congrArg (fun x => some (Item.closed x)) (toNat_oct_of_fits h)
  case opened g => exact congrArg (fun x => some (Item.opened x)) (toNat_oct_of_fits h)
  case safe b => exact decodeBody_safe h.1 h.2
  case restore b => exact decodeBody_restore h
  case offer r => exact congrArg (Option.map Item.offer) (decOffer_encOffer h)
  case taken b => exact decodeBody_taken h.1 h.2
  case roomCall b =>
    obtain ⟨⟨⟨hc, hv⟩, hm⟩, hw⟩ := h
    exact decodeBody_roomCall hc hv hm hw
  case bid b =>
    obtain ⟨⟨⟨hc, hcost⟩, hs⟩, hb⟩ := h
    exact decodeBody_bid hc hcost hs hb
  case claim b =>
    obtain ⟨⟨hc, hs⟩, hb⟩ := h
    exact decodeBody_claim hc hs hb
  case lend b =>
    obtain ⟨⟨hi, hb⟩, hr⟩ := h
    exact decodeBody_lend hi hb hr
  case cancel id => exact congrArg (fun x => some (Item.cancel x)) (num3_oct h)
  case stockAt n => exact decodeBody_stockAt h
  case stock b =>
    obtain ⟨⟨⟨⟨hb, hg⟩, hf⟩, hm⟩, hc⟩ := h
    exact decodeBody_stock hb hg hf hm hc
  case stockEnd => rfl
  case stop => rfl
  case resume => rfl
  case writeOff bin => exact congrArg (fun x => some (Item.writeOff x)) (num2_oct h)
  case query => rfl
  case requestDone b => exact congrArg (Option.map Item.requestDone) (decNotice_encNotice h)
  case requestFailed b => exact congrArg (Option.map Item.requestFailed) (decNotice_encNotice h)
  case binStored b => exact decodeBody_binStored h.1 h.2
  case binOverdue b =>
    obtain ⟨⟨⟨hplaced, hb⟩, hv⟩, hm⟩ := h
    exact congrArg (Option.map Item.binOverdue) (decOverdue_encoded hplaced hb hv hm)
  case fault b => exact congrArg (Option.map Item.fault) (decFaultBody_encFaultBody h)
  case stationReport b => exact congrArg (Option.map Item.stationReport) (decReport_encReport h)
  case stockRefused b =>
    obtain ⟨⟨hr, hs⟩, hb⟩ := h
    exact decodeBody_stockRefused hr hs hb

end Sys2Proof.Machine
end

