-- ==== Sys2Proof/Proofs/Frames.lean ====
section
/-! PROOFS. Frames: the item stream and the bits of a frame read back as they were written (R162, R164, R167, R179). -/

namespace Sys2Proof.Machine
open Sys2Proof Safety

/-! ## Control octets -/

theorem code_lt (i : Item) : i.code < 64 := by cases i <;> simp only [Item.code, Nat.reduceLT]

theorem toNat_control (more run : Bool) (code : Nat) : (control more run code).toNat % 64 = code % 64 := by
  rw [control, toNat_oct]
  split <;> split <;> omega

theorem code_control (more run : Bool) (i : Item) : (control more run i.code).toNat % 64 = i.code :=
  (toNat_control ..).trans (Nat.mod_eq_of_lt (code_lt i))

theorem control_bits (more run : Bool) (code : Fin 64) :
    (control more run code).getLsbD 7 = more ∧ (control more run code).getLsbD 6 = run := by
  revert more run code
  decide +kernel

theorem more_control (more run : Bool) (i : Item) : (control more run i.code).getLsbD 7 = more :=
  (control_bits more run ⟨i.code, code_lt i⟩).1

theorem run_control (more run : Bool) (i : Item) : (control more run i.code).getLsbD 6 = run :=
  (control_bits more run ⟨i.code, code_lt i⟩).2

/-! ## The item stream -/

section
variable {i : Item}

/-- The body at the head of the octets is taken, and the octets behind it are left. -/
theorem takeBody_append (h : i.fits = true) (rest : List Byte) : takeBody i.code (encodeBody i ++ rest) = some (i, rest) := by
  have long : ¬ (encodeBody i ++ rest).length < (encodeBody i).length := by rw [List.length_append]; omega
  rw [takeBody, bodyLength_code]
  dsimp only
  rw [if_neg long, List.take_left, List.drop_left, decodeBody_encodeBody h, Option.map_some]

/-- A code whose bodies have octets takes no item from an empty rest. -/
theorem takeBody_nil (h : i.size ≠ 0) : takeBody i.code [] = none := by
  have long : ([] : List Byte).length < (encodeBody i).length := by
    rw [length_encodeBody]
    exact Nat.pos_of_ne_zero h
  rw [takeBody, bodyLength_code]
  dsimp only
  rw [if_pos long]

theorem parseItems_more (h : i.fits = true) (fuel : Nat) (run : Bool) (rest : List Byte) :
    parseItems (fuel + 1) (control true run i.code :: (encodeBody i ++ rest)) = i :: parseItems fuel rest := by
  rw [parseItems, code_control, takeBody_append h]
  dsimp only
  rw [more_control, if_pos rfl]

theorem parseItems_run (h : i.fits = true) (hs : i.size ≠ 0) (fuel : Nat) (rest : List Byte) :
    parseItems (fuel + 1) (control false true i.code :: (encodeBody i ++ rest)) = i :: parseRun i.code fuel rest := by
  rw [parseItems, code_control, takeBody_append h]
  dsimp only
  rw [more_control, run_control, if_neg Bool.false_ne_true, if_pos (by simp [hs])]

theorem parseItems_last (h : i.fits = true) (fuel : Nat) (rest : List Byte) :
    parseItems (fuel + 1) (control false false i.code :: (encodeBody i ++ rest)) = [i] := by
  rw [parseItems, code_control, takeBody_append h]
  dsimp only
  rw [more_control, run_control, if_neg Bool.false_ne_true, if_neg (by simp)]

/-- Items each under a control octet of its own are parsed in their order. -/
theorem parseItems_encodeChain : ∀ (items : List Item) (fuel : Nat), items.all Item.fits = true → items.length ≤ fuel →
    parseItems fuel (encodeChain items) = items
  | [], 0, _, _ => rfl
  | [], _ + 1, _, _ => rfl
  | [i], fuel + 1, hf, _ => by
    have := parseItems_last (i := i) (by simpa using hf) fuel []
    rwa [List.append_nil] at this
  | i :: j :: rest, fuel + 1, hf, hl => by
    rw [List.all_cons, Bool.and_eq_true] at hf
    obtain ⟨hi, hrest⟩ := hf
    exact (parseItems_more hi fuel false _).trans
      (congrArg (i :: ·) (parseItems_encodeChain (j :: rest) fuel hrest (Nat.le_of_succ_le_succ hl)))

/-- Bodies of one code are parsed to the end of the stream. -/
theorem parseRun_bodies (hs : i.size ≠ 0) : ∀ (items : List Item) (fuel : Nat),
    (∀ j ∈ items, j.code = i.code ∧ j.fits = true) → items.length ≤ fuel →
    parseRun i.code fuel (items.flatMap encodeBody) = items
  | [], 0, _, _ => rfl
  | [], fuel + 1, _, _ => by
    rw [List.flatMap_nil, parseRun, takeBody_nil hs]
  | j :: rest, fuel + 1, hf, hl => by
    obtain ⟨hc, hj⟩ := hf j List.mem_cons_self
    rw [List.flatMap_cons, parseRun, ← hc, takeBody_append hj]
    dsimp only
    rw [hc, parseRun_bodies hs rest fuel (fun k hk => hf k (List.mem_cons_of_mem j hk)) (Nat.le_of_succ_le_succ hl)]

end

theorem length_encodeChain : ∀ items : List Item, items.length ≤ (encodeChain items).length
  | [] => Nat.le_refl 0
  | [_] => Nat.le_add_left 1 _
  | i :: j :: rest => by
    have ih := length_encodeChain (j :: rest)
    simp only [encodeChain, List.length_cons, List.length_append] at ih ⊢
    omega

theorem length_bodies {n : Nat} (hn : n ≠ 0) : ∀ items : List Item, (∀ j ∈ items, j.size = n) →
    items.length ≤ (items.flatMap encodeBody).length
  | [], _ => Nat.le_refl 0
  | j :: rest, h => by
    have ih := length_bodies hn rest fun k hk => h k (List.mem_cons_of_mem j hk)
    rw [List.flatMap_cons, List.length_append, length_encodeBody, h j List.mem_cons_self, List.length_cons]
    omega

theorem decodeStream_encodeChain {items : List Item} (hf : items.all Item.fits = true) :
    decodeStream (encodeChain items) = items :=
  parseItems_encodeChain items _ hf (length_encodeChain items)

theorem size_of_code {i j : Item} (h : j.code = i.code) : j.size = i.size := by rw [Item.size, Item.size, h]

theorem decodeStream_encodeRun {i : Item} {rest : List Item} (hs : i.size ≠ 0)
    (hf : ∀ j ∈ i :: rest, j.code = i.code ∧ j.fits = true) : decodeStream (encodeRun (i :: rest)) = i :: rest := by
  have hrest : ∀ j ∈ rest, j.code = i.code ∧ j.fits = true := fun j hj => hf j (List.mem_cons_of_mem i hj)
  have enough : rest.length ≤ ((i :: rest).flatMap encodeBody).length := by
    rw [List.flatMap_cons, List.length_append]
    exact Nat.le_add_left_of_le (length_bodies hs rest fun j hj => size_of_code (hrest j hj).1)
  exact (parseItems_run (hf i List.mem_cons_self).2 hs _ _).trans
    (congrArg (i :: ·) (parseRun_bodies hs rest _ hrest enough))

/-! ## Numbers in bits -/

theorem numBits_succ (k x : Nat) : numBits (k + 1) x = numBits k (x / 2) ++ [x % 2 == 1] := by
  rw [numBits, List.range_succ, List.map_append, numBits]
  congr 1
  · refine List.map_congr_left fun i hi => ?_
    have lt : i < k := List.mem_range.mp hi
    rw [Nat.div_div_eq_div_mul, ← Nat.pow_succ', show k + 1 - 1 - i = (k - 1 - i).succ by omega]
  · simp

theorem bitsNum_concat (l : List Bool) (b : Bool) : bitsNum (l ++ [b]) = 2 * bitsNum l + (if b then 1 else 0) := by
  simp [bitsNum]

/-- The bits of a number are that number's remainder. -/
theorem bitsNum_numBits : ∀ k x : Nat, bitsNum (numBits k x) = x % 2 ^ k
  | 0, x => (Nat.mod_one x).symm
  | k + 1, x => by
    rw [numBits_succ, bitsNum_concat, bitsNum_numBits k, Nat.pow_succ', Nat.mod_mul]
    rcases Nat.mod_two_eq_zero_or_one x with h | h <;> simp [h, Nat.add_comm]

theorem bitsNum_of_lt {k x : Nat} (h : x < 2 ^ k) : bitsNum (numBits k x) = x := by rw [bitsNum_numBits, Nat.mod_eq_of_lt h]

theorem length_numBits (k x : Nat) : (numBits k x).length = k := by rw [numBits, List.length_map, List.length_range]

theorem octetBits_eq (x : Byte) : octetBits x = numBits 8 x.toNat := by
  refine List.map_congr_left fun i _ => ?_
  rw [BitVec.getLsbD, Nat.testBit_eq_decide_div_mod_eq]
  rfl

theorem length_octetBits (x : Byte) : (octetBits x).length = 8 := by rw [octetBits_eq, length_numBits]

theorem oct_bitsNum_octetBits (x : Byte) : oct (bitsNum (octetBits x)) = x := by
  rw [octetBits_eq, bitsNum_of_lt x.isLt, oct, BitVec.ofNat_toNat, BitVec.setWidth_eq]

/-- The octets of a stream's bits are the stream. -/
theorem bitsOctets_octetBits : ∀ (stream : List Byte) (rest : List Bool),
    bitsOctets stream.length (stream.flatMap octetBits ++ rest) = stream
  | [], _ => rfl
  | x :: xs, rest => by
    rw [List.flatMap_cons, List.append_assoc, List.length_cons, bitsOctets, List.take_left' (length_octetBits x),
      List.drop_left' (length_octetBits x), oct_bitsNum_octetBits, bitsOctets_octetBits xs]

theorem length_streamBits : ∀ stream : List Byte, (stream.flatMap octetBits).length = 8 * stream.length
  | [] => rfl
  | x :: xs => by
    rw [List.flatMap_cons, List.length_append, length_octetBits, length_streamBits xs, List.length_cons]
    omega

/-! ## The frame on the line -/

section
variable {h : Header} {stream : List Byte}

theorem length_frameBody (h : Header) (stream : List Byte) : (frameBody h stream).length = 32 + 8 * stream.length := by
  simp only [frameBody, List.length_append, length_numBits, length_octetBits, length_streamBits, List.length_singleton]

/-- The bits of a frame after its start bit. -/
def frameBits (h : Header) (stream : List Byte) : List Bool :=
  frameBody h stream ++ numBits 16 (crcBits (frameBody h stream)).toNat

theorem encodeFrame_eq (h : Header) (stream : List Byte) : encodeFrame h stream = false :: frameBits h stream := rfl

theorem readHeader_frameBits (hf : h.fits = true) : readHeader (frameBits h stream) = h := by
  simp only [Header.fits, Bool.and_eq_true, decide_eq_true_eq] at hf
  obtain ⟨⟨hc, hs⟩, ha⟩ := hf
  have fields : readHeader (frameBits h stream) = ⟨bitsNum (numBits 3 h.cls), bitsNum (numBits 6 h.sender), h.group,
    bitsNum (numBits 6 h.addr), oct (bitsNum (octetBits h.cond))⟩ := rfl
  rw [fields, bitsNum_of_lt hc, bitsNum_of_lt (by omega), bitsNum_of_lt ha, oct_bitsNum_octetBits]

theorem readLength_frameBits (hl : stream.length ≤ 64) : readLength (frameBits h stream) = stream.length := by
  have field : readLength (frameBits h stream) = bitsNum (numBits 8 stream.length) := rfl
  rw [field, bitsNum_of_lt (by omega)]

theorem drop_frameBits : (frameBits h stream).drop 32
    = stream.flatMap octetBits ++ numBits 16 (crcBits (frameBody h stream)).toNat := rfl

/-- A frame of a header that fits, with a stream of 1..64 octets, is read at every station but its sender's. -/
theorem readFrame_encodeFrame {own : Nat} (hf : h.fits = true) (hn : stream ≠ []) (hl : stream.length ≤ 64)
    (ho : h.sender ≠ own) : readFrame own (encodeFrame h stream) = some (h, stream) := by
  have sender : h.sender ≠ 63 := by
    simp only [Header.fits, Bool.and_eq_true, decide_eq_true_eq] at hf
    omega
  have len := length_frameBody h stream
  have total : (frameBits h stream).length = 32 + 8 * stream.length + 16 := by
    rw [frameBits, List.length_append, len, length_numBits]
  have check : bitsNum ((frameBits h stream).drop (32 + 8 * stream.length))
      = (crcBits ((frameBits h stream).take (32 + 8 * stream.length))).toNat := by
    rw [frameBits, List.drop_left' len, List.take_left' len, bitsNum_of_lt (BitVec.isLt _)]
  rw [encodeFrame_eq, readFrame, readAfterStart]
  simp only [readLength_frameBits hl, readHeader_frameBits hf]
  rw [if_pos ⟨List.length_pos_iff.mpr hn, hl, total, check, sender, ho⟩, drop_frameBits, bitsOctets_octetBits]

end

/-! ## Commands that are frames -/

theorem fits_of_frameFits {h : Header} {items : List Item} (hf : frameFits h items = true) :
    h.fits = true ∧ items.all Item.fits = true := by
  simp only [frameFits, Bool.and_eq_true] at hf
  exact hf.1.1

theorem fits_of_discardFits {h : Header} {items : List Item} (hf : discardFits h items = true) :
    h.fits = true ∧ items.all Item.fits = true := by
  simp only [discardFits, Bool.and_eq_true] at hf
  exact hf.1.1

/-- The header and the items of a well-formed command that is a frame fit their fields. -/
theorem frame_fits {c : Instr} {h : Header} {items : List Item} (hw : c.wf = true) (hf : c.frame = some (h, items)) :
    h.fits = true ∧ items.all Item.fits = true := by
  cases c <;> cases hf
  case discardedFrame => exact fits_of_discardFits hw
  case faultBinCaught => exact fits_of_frameFits (Bool.and_eq_true_iff.mp hw).1
  case faultHandoffLost => exact fits_of_frameFits (Bool.and_eq_true_iff.mp hw).1
  case fault => exact fits_of_frameFits (Bool.and_eq_true_iff.mp (Bool.and_eq_true_iff.mp hw).1).1
  all_goals exact fits_of_frameFits hw

/-- The header and the items of a well-formed command that is a frame make that command again. -/
theorem frameCommand_of_wf {c : Instr} {h : Header} {items : List Item} (hw : c.wf = true) (hf : c.frame = some (h, items)) :
    frameCommand c.pins h items = c := by
  cases c <;> cases hf
  case alarm p b rest => exact Laws.FrameCommand.alarm p h b rest _ _ rfl hw
  case closing p b rest => exact Laws.FrameCommand.closing p h b rest _ _ rfl hw
  case closed p b rest => exact Laws.FrameCommand.closed p h b rest _ _ rfl hw
  case opened p b rest => exact Laws.FrameCommand.opened p h b rest _ _ rfl hw
  case safe p b rest => exact Laws.FrameCommand.safe p h b rest _ _ rfl hw
  case restore p b rest => exact Laws.FrameCommand.restore p h b rest _ _ rfl hw
  case offer p b rest => exact Laws.FrameCommand.offer p h b rest _ _ rfl hw
  case taken p b rest => exact Laws.FrameCommand.taken p h b rest _ _ rfl hw
  case roomCall p b rest => exact Laws.FrameCommand.roomCall p h b rest _ _ rfl hw
  case bid p b rest => exact Laws.FrameCommand.bid p h b rest _ _ rfl hw
  case claim p b rest => exact Laws.FrameCommand.claim p h b rest _ _ rfl hw
  case lend p b rest => exact Laws.FrameCommand.lend p h b rest _ _ rfl hw
  case cancel p b rest => exact Laws.FrameCommand.cancel p h b rest _ _ rfl hw
  case stockAt p b rest => exact Laws.FrameCommand.stockAt p h b rest _ _ rfl hw
  case stock p b rest => exact Laws.FrameCommand.stock _ _ rfl hw
  case stockEnd p rest => exact Laws.FrameCommand.stockEnd p h rest _ _ rfl hw
  case stop p rest => exact Laws.FrameCommand.stop p h rest _ _ rfl hw
  case resume p rest => exact Laws.FrameCommand.resume p h rest _ _ rfl hw
  case writeOff p b rest => exact Laws.FrameCommand.writeOff p h b rest _ _ rfl hw
  case query p rest => exact Laws.FrameCommand.query p h rest _ _ rfl hw
  case faultBinCaught p b rest => exact Laws.FrameCommand.faultBinCaught p h b rest _ _ rfl hw
  case faultHandoffLost p b rest => exact Laws.FrameCommand.faultHandoffLost p h b rest _ _ rfl hw
  case fault p b rest => exact Laws.FrameCommand.fault _ _ rfl hw
  case requestDone p b rest => exact Laws.FrameCommand.requestDone p h b rest _ _ rfl hw
  case requestFailed p b rest => exact Laws.FrameCommand.requestFailed p h b rest _ _ rfl hw
  case binStored p b rest => exact Laws.FrameCommand.binStored p h b rest _ _ rfl hw
  case binOverdue p b rest => exact Laws.FrameCommand.binOverdue p h b rest _ _ rfl hw
  case stationReport p b rest => exact Laws.FrameCommand.stationReport p h b rest _ _ rfl hw
  case stockRefused p b rest => exact Laws.FrameCommand.stockRefused p h b rest _ _ rfl hw
  case discardedFrame p => exact Laws.FrameCommand.discardedFrame p h items _ _ rfl hw

end Sys2Proof.Machine

namespace Sys2Proof.Proofs
open Sys2Proof Sys2Proof.Machine Sys2Proof.Safety

/-- Settles O12: the frame is read back, its stream decodes to its items, and header and items make the command again. -/
theorem encodedFrameDecodes : Obligations.EncodedFrameDecodes := by
  intro own c h items hw hf hne hs hl
  obtain ⟨hh, hi⟩ := frame_fits hw hf
  have stream : encodeChain items ≠ [] := fun e => hne (by
    have := decodeStream_encodeChain hi
    rw [e] at this
    exact this.symm)
  rw [heardCommand, readFrame_encodeFrame hh stream hl hs, Option.map_some, decodeStream_encodeChain hi]
  exact congrArg some (frameCommand_of_wf hw hf)

/-- Settles O13: the control octet sets RUN, so each body of the code is taken to the end of the stream. -/
theorem encodedRunDecodes : Obligations.EncodedRunDecodes := fun _ _ hs hf => decodeStream_encodeRun hs hf

end Sys2Proof.Proofs
end

