-- ==== Sys2Proof/Proofs/Selection.lean ====
section
/-! PROOFS. The planner's selection: the highest order with ready work, the visit chosen within it, the free move given to the crane
or staged, and the staged move it displaces (R29, R39, R43, R75 to R78). -/

namespace Sys2Proof.Machine
open Sys2Proof Safety

/-! ## The first of a list -/

/-- In rising numbers the first that passes a test is the least. -/
theorem find?_least {p : Nat → Bool} {k : Nat} (hp : p k = true) (hn : ∀ o, o < k → p o = false) :
    ∀ {l : List Nat}, l.Pairwise (· < ·) → k ∈ l → l.find? p = some k
  | [], _, hk => absurd hk List.not_mem_nil
  | a :: l, hl, hk => by
    rcases List.mem_cons.mp hk with rfl | hk
    · exact List.find?_cons_of_pos hp
    · obtain ⟨ha, hl⟩ := List.pairwise_cons.mp hl
      rw [List.find?_cons_of_neg (by simp [hn a (ha k hk)])]
      exact find?_least hp hn hl hk

theorem mem_of_pickFirst {before : Visit → Visit → Bool} {w : Visit} : ∀ {l : List Visit}, pickFirst before l = some w → w ∈ l
  | v :: l, h => by
    unfold pickFirst at h
    cases hp : pickFirst before l with
    | none =>
      rw [hp] at h
      cases h
      exact List.mem_cons_self
    | some x =>
      rw [hp] at h
      dsimp only at h
      split at h <;> cases h
      · exact List.mem_cons_of_mem v (mem_of_pickFirst hp)
      · exact List.mem_cons_self

/-- A visit that comes before every other of the list, and that none comes before, is picked. -/
theorem pickFirst_first {before : Visit → Visit → Bool} {v : Visit} : ∀ {l : List Visit}, v ∈ l →
    (∀ w ∈ l, w ≠ v → before v w = true ∧ before w v = false) → pickFirst before l = some v
  | a :: l, hv, h => by
    have tail : ∀ w ∈ l, w ≠ v → before v w = true ∧ before w v = false := fun w hw => h w (List.mem_cons_of_mem a hw)
    unfold pickFirst
    by_cases hm : v ∈ l
    · rw [pickFirst_first hm tail]
      dsimp only
      by_cases ha : a = v
      · rw [ha, ite_self]
      · rw [if_pos (h a List.mem_cons_self ha).1]
    · obtain rfl : v = a := (List.mem_cons.mp hv).resolve_right hm
      cases hp : pickFirst before l with
      | none => rfl
      | some w =>
        have hw := mem_of_pickFirst hp
        exact if_neg (by simp [(tail w hw fun e => hm (e ▸ hw)).2])

/-! ## Ready work by its order (R76) -/

theorem order_lt_iff (a b : Rank) : a.order < b.order ↔ a = .urgent ∧ b ≠ .urgent ∨ a = .room ∧ b = .normal := by
  cases a <;> cases b <;> decide

theorem order_inj {a b : Rank} (h : a.order = b.order) : a = b := by
  revert h
  cases a <;> cases b <;> decide

theorem order_normal {a : Rank} (h : a ≠ .normal) : a.order < 3 := by
  cases a with
  | urgent => decide
  | room => decide
  | normal => exact absurd rfl h

section
variable {u : State} {o : Nat} {v w : Visit}

theorem mem_readyVisits : w ∈ readyVisits u o ↔
    w ∈ u.planner.visits ∧ w.state = .ready ∧ w.rank.order = o ∧ ∃ x, u.dir.bin w.bin = some x := by
  simp [readyVisits, binSlot, Option.isSome_iff_exists, and_assoc]

theorem readyAt_of_visit (h : w ∈ readyVisits u o) : readyAt u o = true := by
  unfold readyAt
  rw [Bool.or_eq_true]
  refine .inr ?_
  rw [Bool.not_eq_true', List.isEmpty_eq_false_iff]
  exact List.ne_nil_of_mem h

theorem readyAt_of_stow (h : u.planner.stow = .ready) : readyAt u (stowOrder u) = true := by simp [readyAt, h]

/-- No ready work stands at an order that is not the stow's and has no ready visit. -/
theorem readyAt_of_none (hs : u.planner.stow = .ready → stowOrder u ≠ o)
    (hv : ∀ w ∈ u.planner.visits, w.state = .ready → ∀ x, u.dir.bin w.bin = some x → w.rank.order ≠ o) : readyAt u o = false := by
  unfold readyAt
  rw [Bool.or_eq_false_iff, Bool.not_eq_false', List.isEmpty_iff]
  refine ⟨?_, List.eq_nil_iff_forall_not_mem.mpr fun w hw => ?_⟩
  · rw [Bool.and_eq_false_iff, beq_eq_false_iff_ne, beq_eq_false_iff_ne]
    exact Decidable.not_or_of_imp hs
  · obtain ⟨hw, hr, ho, x, hx⟩ := mem_readyVisits.mp hw
    exact hv w hw hr x hx ho

theorem stowOrder_of_mark (h : u.planner.mark = true) : stowOrder u = 0 := if_pos h

theorem stowOrder_of_unmarked (h : u.planner.mark = false) : stowOrder u = 3 := if_neg (by simp [h])

theorem stowOrder_of_not_mark (h : u.planner.mark ≠ true) : stowOrder u = 3 := if_neg h

end

/-! ## The visit chosen (R77) -/

/-- The score of a visit to the bin entered so, from a place (R39). -/
def scoreFrom (u : State) (here : Pos) (v : Visit) (x : BinEntry) : Int :=
  (legTime u.cfg here x.slot.pos true : Int) - ((u.clock - v.stamp).toNat / 2 : Nat)

/-- One visit of a rank is taken before another (R77). -/
def TakenBefore (u : State) (here : Pos) (v : Visit) (e : BinEntry) (w : Visit) (x : BinEntry) : Prop :=
  u.cfg.ageLimit * 1000 ≤ (u.clock - v.stamp).toNat ∧ ((u.clock - w.stamp).toNat < (u.clock - v.stamp).toNat
      ∨ (u.clock - w.stamp).toNat = (u.clock - v.stamp).toNat ∧ ((w.seq - v.seq).toNat < 2 ^ 31 ∧ v.seq ≠ w.seq))
    ∨ (u.clock - v.stamp).toNat < u.cfg.ageLimit * 1000 ∧ (u.clock - w.stamp).toNat < u.cfg.ageLimit * 1000
      ∧ (scoreFrom u here v e < scoreFrom u here w x
        ∨ scoreFrom u here v e = scoreFrom u here w x ∧ ((w.seq - v.seq).toNat < 2 ^ 31 ∧ v.seq ≠ w.seq))

/-- The visit that a selection at that place makes the crane's next work (R76, R77). -/
def Chosen (u : State) (here : Pos) (v : Visit) (e : BinEntry) : Prop :=
  v ∈ u.planner.visits ∧ v.state = .ready ∧ u.dir.bin v.bin = some e
  ∧ (u.planner.stow = .ready → u.planner.mark = false ∧ v.rank ≠ .normal)
  ∧ ∀ w x, w ∈ u.planner.visits → w ≠ v → w.state = .ready → u.dir.bin w.bin = some x →
    (v.rank = .urgent ∧ w.rank ≠ .urgent ∨ v.rank = .room ∧ w.rank = .normal) ∨ v.rank = w.rank ∧ TakenBefore u here v e w x

/-- The scores of the ready visits of a visit's rank are asked and one of them holds an axis time (R29; log 29). -/
def weighedHeld (u : State) (here : Pos) (v : Visit) : Bool :=
  let peers := u.planner.visits.filter fun w => w.state == .ready && w.rank == v.rank && (u.dir.bin w.bin).isSome
  (peers.all fun w => decide ((u.clock - w.stamp).toNat < u.cfg.ageLimit * 1000)) && peers.any fun w => match u.dir.bin w.bin with
    | some x => legHeld u.cfg here x.slot.pos
    | none => false

theorem madeFirst_iff {a b : Visit} : madeFirst a b = true ↔ (b.seq - a.seq).toNat < 2 ^ 31 ∧ a.seq ≠ b.seq := by
  simp [madeFirst]

/-- Of two visits at most one is made first. -/
theorem madeFirst_asymm {a b : Visit} (h : (b.seq - a.seq).toNat < 2 ^ 31 ∧ a.seq ≠ b.seq) : madeFirst b a = false := by
  obtain ⟨hlt, hne⟩ := h
  rw [Bool.eq_false_iff]
  intro hb
  obtain ⟨hgt, -⟩ := madeFirst_iff.mp hb
  have : a.seq.toNat ≠ b.seq.toNat := fun e => hne (BitVec.eq_of_toNat_eq e)
  rw [BitVec.toNat_sub] at hlt hgt
  omega

section
variable {u : State} {here : Pos} {v w : Visit} {e x : BinEntry}

theorem visitPos_of_entry (hx : u.dir.bin v.bin = some x) : visitPos u v = x.slot.pos := by
  unfold visitPos binSlot
  rw [hx] <;> rfl

theorem score_of_entry (hx : u.dir.bin v.bin = some x) : score u v = scoreFrom u (predictedPos u) v x := by
  unfold score
  rw [visitPos_of_entry hx] <;> rfl

theorem mem_overAge {vs : List Visit} :
    w ∈ overAge u vs ↔ w ∈ vs ∧ u.cfg.ageLimit * 1000 ≤ (u.clock - w.stamp).toNat :=
  List.mem_filter.trans (and_congr_right fun _ => decide_eq_true_iff)

theorem olderFirst_of_age (h : (u.clock - w.stamp).toNat < (u.clock - v.stamp).toNat
      ∨ (u.clock - w.stamp).toNat = (u.clock - v.stamp).toNat ∧ ((w.seq - v.seq).toNat < 2 ^ 31 ∧ v.seq ≠ w.seq)) :
    olderFirst u v w = true ∧ olderFirst u w v = false := by
  unfold olderFirst age
  rcases h with h | ⟨h, hf⟩
  · simp only [Bool.or_eq_true, decide_eq_true_eq, h, true_or, Bool.or_eq_false_iff, decide_eq_false_iff_not, Nat.not_lt,
      Bool.and_eq_false_iff, beq_eq_false_iff_ne, true_and]
    omega
  · simp [h, madeFirst_iff.mpr hf, madeFirst_asymm hf]

theorem lowerFirst_of_score (h : score u v < score u w
      ∨ score u v = score u w ∧ ((w.seq - v.seq).toNat < 2 ^ 31 ∧ v.seq ≠ w.seq)) :
    lowerFirst u v w = true ∧ lowerFirst u w v = false := by
  unfold lowerFirst
  rcases h with h | ⟨h, hf⟩
  · simp only [Bool.or_eq_true, decide_eq_true_eq, h, true_or, Bool.or_eq_false_iff, decide_eq_false_iff_not, Int.not_lt,
      Bool.and_eq_false_iff, beq_eq_false_iff_ne, true_and]
    omega
  · simp [h, madeFirst_iff.mpr hf, madeFirst_asymm hf]

section
variable (hc : Chosen u (predictedPos u) v e)
include hc

theorem Chosen.mem : v ∈ readyVisits u v.rank.order := by
  obtain ⟨hv, hr, he, -, -⟩ := hc
  exact mem_readyVisits.mpr ⟨hv, hr, rfl, e, he⟩

/-- Another ready visit of the rank is taken after the one chosen. -/
theorem Chosen.before (hw : w ∈ readyVisits u v.rank.order) (hne : w ≠ v) :
    ∃ x, u.dir.bin w.bin = some x ∧ TakenBefore u (predictedPos u) v e w x := by
  obtain ⟨-, -, -, -, others⟩ := hc
  obtain ⟨hw, hr, ho, x, hx⟩ := mem_readyVisits.mp hw
  refine ⟨x, hx, ?_⟩
  rcases others w x hw hne hr hx with h | ⟨-, h⟩
  · have := (order_lt_iff _ _).mpr h
    omega
  · exact h

theorem Chosen.readyAt_above {o : Nat} (ho : o < v.rank.order) : readyAt u o = false := by
  obtain ⟨-, -, -, stow, others⟩ := hc
  refine readyAt_of_none (fun hs => ?_) fun w hw hr x hx => ?_
  · obtain ⟨hm, hn⟩ := stow hs
    rw [stowOrder_of_unmarked hm]
    have := order_normal hn
    omega
  · by_cases hne : w = v
    · rw [hne]
      omega
    · rcases others w x hw hne hr hx with h | ⟨h, -⟩
      · have := (order_lt_iff _ _).mpr h
        omega
      · rw [← h]
        omega

theorem Chosen.chooseVisit : chooseVisit u (readyVisits u v.rank.order) = some v := by
  have he : u.dir.bin v.bin = some e := hc.2.2.1
  unfold Machine.chooseVisit
  by_cases hage : u.cfg.ageLimit * 1000 ≤ (u.clock - v.stamp).toNat
  · have hv : v ∈ overAge u (readyVisits u v.rank.order) := mem_overAge.mpr ⟨hc.mem, hage⟩
    rw [if_neg (by rw [List.isEmpty_iff]; exact List.ne_nil_of_mem hv)]
    refine pickFirst_first hv fun w hw hne => ?_
    obtain ⟨x, -, ⟨-, h⟩ | ⟨h, -⟩⟩ := hc.before (mem_overAge.mp hw).1 hne
    · exact olderFirst_of_age h
    · omega
  · have young : ∀ w ∈ readyVisits u v.rank.order, w ≠ v → ∃ x, u.dir.bin w.bin = some x
        ∧ (u.clock - w.stamp).toNat < u.cfg.ageLimit * 1000 ∧ (scoreFrom u (predictedPos u) v e < scoreFrom u (predictedPos u) w x
        ∨ scoreFrom u (predictedPos u) v e = scoreFrom u (predictedPos u) w x ∧ ((w.seq - v.seq).toNat < 2 ^ 31 ∧ v.seq ≠ w.seq)) := by
      intro w hw hne
      obtain ⟨x, hx, ⟨h, -⟩ | ⟨-, h⟩⟩ := hc.before hw hne
      · exact absurd h hage
      · exact ⟨x, hx, h⟩
    have empty : overAge u (readyVisits u v.rank.order) = [] := List.eq_nil_iff_forall_not_mem.mpr fun w hw => by
      obtain ⟨hw, h⟩ := mem_overAge.mp hw
      by_cases hne : w = v
      · exact hage (hne ▸ h)
      · obtain ⟨-, -, hlt, -⟩ := young w hw hne
        omega
    rw [empty]
    refine (if_pos rfl).trans (pickFirst_first hc.mem fun w hw hne => ?_)
    obtain ⟨x, hx, -, h⟩ := young w hw hne
    rw [← score_of_entry he, ← score_of_entry hx] at h
    exact lowerFirst_of_score h

end

theorem overAge_isEmpty (vs : List Visit) :
    (overAge u vs).isEmpty = vs.all fun w => decide ((u.clock - w.stamp).toNat < u.cfg.ageLimit * 1000) := by
  rw [Bool.eq_iff_iff, List.isEmpty_iff, overAge, List.filter_eq_nil_iff, List.all_eq_true]
  refine forall₂_congr fun w _ => ?_
  rw [decide_eq_true_iff, decide_eq_true_iff, Nat.not_le] <;> rfl

theorem scoreHeld_eq {vs : List Visit} (h : ∀ w ∈ vs, ∃ x, u.dir.bin w.bin = some x) :
    scoreHeld u vs = vs.any fun w => match u.dir.bin w.bin with
      | some x => legHeld u.cfg (predictedPos u) x.slot.pos
      | none => false := by
  unfold scoreHeld
  rw [Bool.eq_iff_iff, List.any_eq_true, List.any_eq_true]
  refine exists_congr fun w => and_congr_right fun hw => ?_
  obtain ⟨x, hx⟩ := h w hw
  rw [visitPos_of_entry hx, hx]

/-- The peers of a visit are the ready visits of its order. -/
theorem weighedHeld_eq (u : State) (v : Visit) : weighedHeld u (predictedPos u) v =
    ((overAge u (readyVisits u v.rank.order)).isEmpty && scoreHeld u (readyVisits u v.rank.order)) := by
  have peers : readyVisits u v.rank.order
      = u.planner.visits.filter fun w => w.state == .ready && w.rank == v.rank && (u.dir.bin w.bin).isSome := by
    refine List.filter_congr fun w _ => ?_
    have ranks : (w.rank.order == v.rank.order) = (w.rank == v.rank) := by
      rw [Bool.eq_iff_iff, beq_iff_eq, beq_iff_eq]
      exact ⟨order_inj, congrArg _⟩
    rw [ranks, binSlot, Option.isSome_map]
  rw [overAge_isEmpty, scoreHeld_eq fun w hw => (mem_readyVisits.mp hw).2.2.2, peers] <;> rfl

/-- Where a visit is chosen at its order, LIMITED takes note of the scores asked. -/
theorem Chosen.chooseAt (hc : Chosen u (predictedPos u) v e) :
    chooseAt u v.rank.order = (some (.visit v), { u with limited := u.limited || weighedHeld u (predictedPos u) v }) := by
  have stow : ¬ (u.planner.stow = .ready ∧ stowOrder u = v.rank.order) := fun ⟨hs, ho⟩ => by
    obtain ⟨hm, hn⟩ := hc.2.2.2.1 hs
    rw [stowOrder_of_unmarked hm] at ho
    have := order_normal hn
    omega
  unfold Machine.chooseAt
  rw [if_neg stow]
  dsimp only
  rw [hc.chooseVisit, weighedHeld_eq]
  cases (overAge u (readyVisits u v.rank.order)).isEmpty with
  | true => rfl
  | false => simp

end

/-! ## A selection (R75 to R77) -/

section
variable {u : State} {orders : List Nat} {give : Work → State → State}

theorem selectAmong_of_chosen {v : Visit} {e : BinEntry} (hl : orders.Pairwise (· < ·)) (ho : v.rank.order ∈ orders)
    (hc : Chosen u (predictedPos u) v e) : selectAmong orders give u
      = give (.visit v) { u with limited := u.limited || weighedHeld u (predictedPos u) v } := by
  unfold selectAmong highestReady
  rw [find?_least (readyAt_of_visit hc.mem) (fun o => hc.readyAt_above) hl ho]
  dsimp only
  rw [hc.chooseAt]

theorem selectAmong_of_stow (hl : orders.Pairwise (· < ·)) (hs : u.planner.stow = .ready) (ho : stowOrder u ∈ orders)
    (hn : ∀ o, o < stowOrder u → readyAt u o = false) : selectAmong orders give u = give .stow u := by
  unfold selectAmong highestReady
  rw [find?_least (readyAt_of_stow hs) hn hl ho]
  dsimp only
  rw [chooseAt, if_pos ⟨hs, rfl⟩]

theorem selectAmong_of_none (h : ∀ o ∈ orders, readyAt u o = false) : selectAmong orders give u = u := by
  have nothing : orders.find? (readyAt u) = none := List.find?_eq_none.mpr fun o ho => by simp [h o ho]
  unfold selectAmong highestReady
  rw [nothing]

/-- The stow comes before every visit: by its mark, or by a rank above NORMAL that no ready visit has. -/
theorem readyAt_above_stow (hs : u.planner.mark = true ∨ ∀ v ∈ u.planner.visits, v.state = .ready → v.rank = .normal) (o : Nat)
    (ho : o < stowOrder u) : readyAt u o = false := by
  have unmarked : u.planner.mark ≠ true := fun h => by simp [stowOrder_of_mark h] at ho
  have three := stowOrder_of_not_mark unmarked
  refine readyAt_of_none (fun _ => by omega) fun w hw hr _ _ => ?_
  rw [hs.resolve_left unmarked w hw hr, Rank.order]
  omega

end

/-! ## The free move staged (R43, R75) -/

section
variable {u : State} {cur : Move}

theorem stageFree_stow (hcur : u.crane.current = some cur) : stageFree .stow u = { u with
    limited := u.limited || legHeld u.cfg cur.target.at ⟨0, u.cfg.portLevel⟩
    planner := { u.planner with stow := .staged }
    crane := { u.crane with staged := some ⟨.takeIn, .pos ⟨0, u.cfg.portLevel⟩, none, false,
      legTime u.cfg cur.target.at ⟨0, u.cfg.portLevel⟩ true, none⟩ } } := by
  unfold stageFree
  rw [hcur] <;> rfl

theorem workTarget_of_entry {v : Visit} {e : BinEntry} (he : u.dir.bin v.bin = some e) :
    workTarget u (.visit v) = .slot e.slot := by
  unfold workTarget binSlot
  dsimp only
  rw [he] <;> rfl

theorem stageFree_visit {v : Visit} {e : BinEntry} (hcur : u.crane.current = some cur) (he : u.dir.bin v.bin = some e) :
    stageFree (.visit v) u = { u with
      limited := u.limited || legHeld u.cfg cur.target.at e.slot.pos
      crane := { u.crane with
        staged := some ⟨.fetch, .slot e.slot, some v.number, false, legTime u.cfg cur.target.at e.slot.pos true, none⟩ }
      planner := { u.planner with visits := u.planner.visits.map fun w =>
        if w.number = v.number then { w with state := .staged } else w } } := by
  unfold stageFree
  rw [hcur]
  dsimp only [askLeg]
  have noted : workTarget (noteHeld (legHeld u.cfg cur.target.at (workTarget u (.visit v)).at) u) (.visit v)
      = workTarget u (.visit v) := rfl
  rw [noted, workTarget_of_entry he] <;> rfl

end

end Sys2Proof.Machine
end

