-- ==== Sys2Proof/Proofs/EventEnd.lean ====
section
/-! PROOFS. The end of an event, check by check (log 8): OFFERs withdrawn and queued, the crane's work, the home diversion, the merge
arbiter, the clear check, the SAFE report and the next evaluation. -/

namespace Sys2Proof.Machine
open Sys2Proof Safety

/-! ## The crane's work with nothing staged (R75 to R77) -/

theorem order_mem (r : Rank) : r.order ∈ [0, 1, 2, 3, 4] := by cases r <;> decide

theorem stowOrder_mem (u : State) : stowOrder u ∈ [0, 1, 2, 3, 4] := by
  unfold stowOrder
  split <;> decide

theorem clearPassed_of_none {u : State} (h : u.planner.passed = none) : clearPassed u = u := by
  have same : ({ u.planner with passed := none } : Planner) = u.planner := by rw [← h]
  exact congrArg (fun pl : Planner => ({ u with planner := pl } : State)) same

section
variable {u : State} {m : Move}

theorem selectWork_of_condition (hst : u.crane.staged = none) (h : selectionCondition u = false) : selectWork u = clearPassed u := by
  unfold selectWork
  rw [hst]
  exact if_pos (by simp [h])

section
variable (hst : u.crane.staged = none) (hs : selectionCondition u = true)
include hst hs

theorem selectWork_of_due (hd : selectionDue u = true) : selectWork u = selectAmong [0, 1, 2, 3, 4] giveFree (clearPassed u) := by
  unfold selectWork
  rw [hst]
  exact (if_neg (by simp [hs])).trans (if_pos hd)

theorem selectWork_of_undue (hd : selectionDue u = false) :
    selectWork u = { u with planner := { u.planner with passed := some (readyWork u) } } := by
  unfold selectWork
  rw [hst]
  exact (if_neg (by simp [hs])).trans (if_neg (by simp [hd]))

theorem selectWork_of_unpassed (hp : u.planner.passed = none) : selectWork u = selectAmong [0, 1, 2, 3, 4] giveFree u := by
  have due : selectionDue u = true := by
    unfold selectionDue
    rw [hp]
  rw [selectWork_of_due hst hs due, clearPassed_of_none hp]

end

theorem selectionDue_iff {seen : List (Option Nat × Nat)} (hp : u.planner.passed = some seen) : selectionDue u = true ↔
    u.crane.state = .idle ∨ ∃ w, w ∈ readyWork u ∧ ∀ x, x ∈ seen → x.1 = w.1 → w.2 < x.2 := by
  unfold selectionDue
  rw [hp]
  simp only [Bool.or_eq_true, beq_iff_eq, List.any_eq_true, Bool.not_eq_true', List.any_eq_false, Bool.and_eq_true,
    decide_eq_true_eq, not_and, Nat.not_le]

/-- A selection that is due is made as one that nothing was passed over. -/
theorem selectWork_of_passed_due {seen : List (Option Nat × Nat)} (hst : u.crane.staged = none)
    (hs : selectionCondition u = true) (hp : u.planner.passed = some seen)
    (h : u.crane.state = .idle ∨ ∃ w, w ∈ readyWork u ∧ ∀ x, x ∈ seen → x.1 = w.1 → w.2 < x.2) :
    selectWork u = selectWork (clearPassed u) :=
  (selectWork_of_due hst hs ((selectionDue_iff hp).mpr h)).trans
    (selectWork_of_due (u := clearPassed u) hst hs rfl).symm

theorem giveFree_of_idle (h : u.crane.state = .idle) (w : Work) :
    giveFree w u = makeCurrent w.kind (workTarget u w) w.link false u := if_pos h

theorem giveFree_of_busy (h : u.crane.state ≠ .idle) (w : Work) : giveFree w u = stageFree w u := if_neg h

theorem predictedPos_of_unstaged (hst : u.crane.staged = none) : predictedPos u = (match u.crane.current with
    | some m => m.target.at
    | none => ⟨hold 0 u.cfg.nc u.pins.encCol, hold 1 u.cfg.nl u.pins.encLevel⟩) := by
  unfold predictedPos
  rw [hst]
  cases u.crane.current <;> rfl

theorem predictedPos_of_staged (hst : u.crane.staged = some m) : predictedPos u = m.target.at := by
  unfold predictedPos
  rw [hst]

theorem selectWork_of_nothing (hst : u.crane.staged = none) (hs : selectionCondition u = true) (hp : u.planner.passed = none)
    (h : ∀ o ∈ [0, 1, 2, 3, 4], readyAt u o = false) : selectWork u = u :=
  (selectWork_of_unpassed hst hs hp).trans (selectAmong_of_none h)

theorem selectWork_of_stow (hst : u.crane.staged = none) (hs : selectionCondition u = true) (hp : u.planner.passed = none)
    (hr : u.planner.stow = .ready) (h : u.planner.mark = true ∨ ∀ v ∈ u.planner.visits, v.state = .ready → v.rank = .normal) :
    selectWork u = giveFree .stow u :=
  (selectWork_of_unpassed hst hs hp).trans
    (selectAmong_of_stow (by decide) hr (stowOrder_mem u) (readyAt_above_stow h))

theorem selectWork_of_chosen {v : Visit} {e : BinEntry} (hst : u.crane.staged = none) (hs : selectionCondition u = true)
    (hp : u.planner.passed = none) (hc : Chosen u (predictedPos u) v e) : selectWork u
      = giveFree (.visit v) { u with limited := u.limited || weighedHeld u (predictedPos u) v } :=
  (selectWork_of_unpassed hst hs hp).trans (selectAmong_of_chosen (by decide) (order_mem v.rank) hc)

end

/-! ## A free staged move and the work that displaces it (R45, R78) -/

section
variable {u : State} {m cur : Move} {v : Visit} {e : BinEntry}

theorem selectWork_of_kept (hst : u.crane.staged = some m) (h : u.mode.working = false ∨ m.bound = true) : selectWork u = u := by
  unfold selectWork
  rw [hst]
  exact if_neg (by rcases h with h | h <;> simp [h])

theorem selectWork_of_free (hst : u.crane.staged = some m) (hw : u.mode.working = true) (hb : m.bound = false) :
    selectWork u = displace m u := by
  unfold selectWork
  rw [hst]
  exact if_pos (by simp [hw, hb])

theorem stagedOrder_of_visit {n : Nat} {w : Visit} (hn : m.visit = some n) (hv : u.planner.visit n = some w) :
    stagedOrder u m = w.rank.order := by
  unfold stagedOrder
  rw [hn, Option.bind_some, hv]

theorem stagedOrder_of_stow (hn : m.visit = none) : stagedOrder u m = stowOrder u := by
  unfold stagedOrder
  rw [hn] <;> rfl

/-- The orders above the staged move's. -/
theorem orders_above (k : Nat) : ([0, 1, 2, 3, 4].filter fun o => decide (o < k)).Pairwise (· < ·) :=
  List.Pairwise.filter _ (by decide)

theorem mem_orders_above {o k : Nat} (ho : o ∈ [0, 1, 2, 3, 4]) (hk : o < k) :
    o ∈ [0, 1, 2, 3, 4].filter fun o => decide (o < k) := List.mem_filter.mpr ⟨ho, decide_eq_true hk⟩

theorem displace_of_none (h : ∀ o, o < stagedOrder u m → readyAt u o = false) : displace m u = u :=
  selectAmong_of_none fun o ho => h o (of_decide_eq_true (List.mem_filter.mp ho).2)

theorem displace_of_stow (hr : u.planner.stow = .ready) (hlt : stowOrder u < stagedOrder u m)
    (h : u.planner.mark = true ∨ ∀ v ∈ u.planner.visits, v.state = .ready → v.rank = .normal) :
    displace m u = giveBack m (stageFree .stow u) :=
  selectAmong_of_stow (orders_above _) hr (mem_orders_above (stowOrder_mem u) hlt) (readyAt_above_stow h)

theorem displace_of_chosen (hc : Chosen u (predictedPos u) v e) (hlt : v.rank.order < stagedOrder u m) : displace m u
    = giveBack m (stageFree (.visit v) { u with limited := u.limited || weighedHeld u (predictedPos u) v }) :=
  selectAmong_of_chosen (orders_above _) (mem_orders_above (order_mem v.rank) hlt) hc

theorem giveBack_of_fetch {n : Nat} (hk : m.kind = .fetch) (hn : m.visit = some n) : giveBack m u = handBack n u := by
  unfold giveBack
  rw [hk, hn] <;> rfl

theorem giveBack_of_takeIn (hk : m.kind = .takeIn) : giveBack m u = setStow .ready u := by
  unfold giveBack
  rw [hk]

/-- A staged FETCH stays where no ready work has a higher rank than its visit. -/
theorem displace_of_rank {n : Nat} {w : Visit} (hn : m.visit = some n) (hv : u.planner.visit n = some w)
    (hr : ∀ v ∈ u.planner.visits, v.state = .ready → ¬ (v.rank = .urgent ∧ w.rank ≠ .urgent ∨ v.rank = .room ∧ w.rank = .normal))
    (hs : u.planner.stow = .ready → u.planner.mark = false ∧ w.rank ≠ .normal) : displace m u = u := by
  refine displace_of_none fun o ho => readyAt_of_none (fun h => ?_) fun x hx hxr _ _ => ?_
  all_goals rw [stagedOrder_of_visit hn hv] at ho
  · obtain ⟨hm, hnorm⟩ := hs h
    rw [stowOrder_of_unmarked hm]
    have := order_normal hnorm
    omega
  · have := mt (order_lt_iff x.rank w.rank).mp (hr x hx hxr)
    omega

/-- A staged TAKE_IN stays where it is promoted, or no ready visit has a rank above NORMAL. -/
theorem displace_of_staged_stow (hn : m.visit = none)
    (h : u.planner.mark = true ∨ ∀ v ∈ u.planner.visits, v.state = .ready → v.rank = .normal) : displace m u = u := by
  refine displace_of_none fun o ho => ?_
  rw [stagedOrder_of_stow hn] at ho
  exact readyAt_above_stow h o ho

end

/-! ## OFFERs withdrawn and queued (R113) -/

section
variable {u : State} {l : Lane} {r : TravelRecord}

/-- The queue without the OFFERs of a lane that have not won contention. -/
def withoutOffers (l : Lane) (u : State) : State :=
  { u with line := { u.line with queue := u.line.queue.filter fun f => !(f.onLine.isNone && f.owner == .offer l) } }

theorem withdraw_isOffer : withdraw (Owner.isOffer l) u = withoutOffers l u := by
  unfold withdraw withoutOffers
  simp only [Owner.isOffer_eq] <;> rfl

theorem withdrawOffer_of_standing (hr : u.spine.lane l = .holding r) (hm : u.mode.working = true) (ho : routeOpenFor u r = true) :
    withdrawOffer l u = u := by
  unfold withdrawOffer
  rw [hr]
  exact if_pos (by simp [PlaceState.record?, hm, ho])

theorem withdrawOffer_of_unheld (h : u.mode.working = false ∨ ∀ r, u.spine.lane l ≠ .holding r) :
    withdrawOffer l u = withoutOffers l u := by
  rw [← withdraw_isOffer]
  unfold withdrawOffer
  cases hl : u.spine.lane l with
  | holding r => exact if_neg (by simp [PlaceState.record?, h.resolve_right fun hn => hn r hl])
  | _ => exact if_neg Bool.false_ne_true

theorem withdrawOffer_of_closed (hr : u.spine.lane l = .holding r) (ho : routeOpenFor u r = false) :
    withdrawOffer l u = withoutOffers l u := by
  rw [← withdraw_isOffer]
  unfold withdrawOffer
  rw [hr]
  exact if_neg (by simp [PlaceState.record?, ho])

theorem offerDue_iff : offerDue u l r = true ↔ u.mode.working = true ∧ u.spine.out l = none
    ∧ (∀ f, f ∈ u.line.queue → f.owner ≠ .offer l) ∧ u.spine.retry l = none ∧ routeOpenFor u r = true := by
  simp [offerDue, hasFrame, Owner.isOffer_eq, and_assoc]

theorem offerLane_of_undue (hr : u.spine.lane l = .holding r) (hd : offerDue u l r = false) : offerLane l u = u := by
  unfold offerLane
  rw [hr]
  dsimp only [PlaceState.record?]
  cases offerPeer u.cfg l r with
  | none => rfl
  | some peer => exact if_neg (by simp [hd])

theorem offerLane_of_due {peer : Nat} (hr : u.spine.lane l = .holding r) (hp : offerPeer u.cfg l r = some peer)
    (hd : offerDue u l r = true) : offerLane l u = queueFrame (frameOf (.offer r) peer (.offer l)) u := by
  unfold offerLane
  rw [hr]
  dsimp only [PlaceState.record?]
  rw [hp]
  exact if_pos hd

theorem offerLane_of_unheld (h : (u.spine.lane l).record? = none) : offerLane l u = u := by
  unfold offerLane
  rw [h]

end

/-! ## The merge arbiter and the home diversion (R111, R121) -/

section
variable {u : State} {r : TravelRecord}

theorem portOutReady_iff : portOutReady u = true ↔
    (∃ r, u.spine.portOut = .holding r) ∧ u.mode.working = true ∧ downOpen u = true := by
  unfold portOutReady
  cases u.spine.portOut <;> simp [PlaceState.record?]

theorem mergeArbiter_of_unready (h : u.spine.down ≠ .empty ∨ u.spine.kept = true ∨ portOutReady u = false) :
    mergeArbiter u = u := by
  refine if_neg fun ⟨hd, hk, hr⟩ => ?_
  rcases h with h | h | h
  · exact h hd
  · rw [h] at hk
    cases hk
  · rw [h] at hr
    cases hr

theorem mergeArbiter_of_ready (hd : u.spine.down = .empty) (hk : u.spine.kept = false) (hr : portOutReady u = true) :
    mergeArbiter u = if u.spine.waiting = false ∨ u.spine.lastGrant = .upNeighbour then grantPortOut u else keepDown u :=
  if_pos ⟨hd, hk, hr⟩

theorem grantPortOut_of_unkept (hr : u.spine.portOut = .holding r) (hk : u.spine.kept = false) : grantPortOut u = { u with
    spine := { u.spine with
      down := .reserved, inDown := some ⟨r.bin, u.cfg.station, ⟨u.clock, u.cfg.transferLimit * 1000⟩, none⟩
      lastGrant := .portOut, drivePortOut := true, driveDown := true } } := by
  unfold grantPortOut
  rw [hr]
  have same : ({ u.spine with kept := false } : Spine) = u.spine := by rw [← hk]
  exact congrArg (fun x : Spine => ({ u with spine := { x with
    down := .reserved, inDown := some ⟨r.bin, u.cfg.station, ⟨u.clock, u.cfg.transferLimit * 1000⟩, none⟩
    lastGrant := .portOut, drivePortOut := true, driveDown := true } } : State)) same

theorem diversionCheck_of_home (hm : u.mode.working = true ∨ u.mode = .halted) (hw : homeBinWaits u = some r) :
    diversionCheck u = divert r u := by
  unfold diversionCheck
  rw [hw]
  exact if_pos (by simpa using hm)

theorem diversionCheck_of_none (hw : homeBinWaits u = none) : diversionCheck u = u := by
  unfold diversionCheck
  rw [hw]
  exact ite_self _

theorem diversionCheck_of_mode (h : u.mode.fiery = true ∨ u.mode = .stocking) : diversionCheck u = u := by
  refine if_neg ?_
  revert h
  cases u.mode <;> decide

theorem divert_of_out {x : BinEntry} {loc : Location} {since : Time} (hx : u.dir.bin r.bin = some x)
    (hs : x.status = .out loc since) : divert r u = beginDiversion r u :=
  (divert_of_entry hx).trans (if_pos (by rw [hs]; exact nofun))

theorem divert_of_stored {x : BinEntry} (hx : u.dir.bin r.bin = some x) (hs : x.status = .stored) :
    divert r u = blockUp r x.slot.name u := (divert_of_entry hx).trans (if_neg fun h => h hs)

theorem divert_of_adopted {d : Directory} (hx : u.dir.bin r.bin = none)
    (hd : u.dir.adopt u.cfg u.clock r (.lane u.cfg.station .up) = some d) : divert r u
      = beginDiversion r { u with limited := u.limited || u.dir.adoptHeld u.cfg r, dir := d } := by
  rw [divert_of_absent hx, hd]

theorem divert_of_unslotted (hx : u.dir.bin r.bin = none) (hd : u.dir.adopt u.cfg u.clock r (.lane u.cfg.station .up) = none) :
    divert r u = blockUp r SlotName.nowhere { u with limited := u.limited || u.dir.adoptHeld u.cfg r } := by
  rw [divert_of_absent hx, hd]

end

/-! ## The adoption of a bin (R17, R18) -/

theorem adopt_of_none {cfg : StationConfig} {d : Directory} {r : TravelRecord}
    (h : r.bin = 0 ∨ d.chooseSlot cfg r.restricted (recordShare cfg r) (portPos cfg) = none) (now : Time) (loc : Location) :
    d.adopt cfg now r loc = none := by
  have nothing : d.adoptSlot cfg r = none := by
    unfold Directory.adoptSlot
    rcases h with h | h
    · exact if_pos h
    · rw [h, ite_self]
  unfold Directory.adopt
  rw [nothing]

theorem adopt_of_slot {cfg : StationConfig} {d : Directory} {r : TravelRecord} {sl : Slot} (hb : r.bin ≠ 0)
    (h : d.chooseSlot cfg r.restricted (recordShare cfg r) (portPos cfg) = some sl) (now : Time) (loc : Location) :
    d.adopt cfg now r loc = some (((d.setSlot sl ⟨.reserved r.bin, false⟩).setBin r.bin (adoptedEntry cfg now r sl loc)).addLoad sl
      (binShare cfg (adoptedEntry cfg now r sl loc))) := by
  have slot : d.adoptSlot cfg r = some sl := (if_neg hb).trans h
  unfold Directory.adopt
  rw [slot]

/-! ## Shutter, SAFE report, evaluation (R89, R141, R148) -/

section
variable {u : State} {x : Shutter}

theorem outExternal_none {l : Lane} : outExternal u l = none ↔ ∀ y, u.spine.out l = some y → y.peer = u.cfg.station := by
  simp [outExternal, Option.filter_eq_none_iff, Handoff.external]

theorem inExternal_none {l : Lane} : inExternal u l = none ↔ ∀ y, u.spine.incoming l = some y → y.peer = u.cfg.station := by
  simp [inExternal, Option.filter_eq_none_iff, Handoff.external]

theorem boundaryQuiet_iff : boundaryQuiet u = true ↔
    (∀ y, u.spine.outDown = some y → y.peer = u.cfg.station) ∧ ∀ y, u.spine.inUp = some y → y.peer = u.cfg.station := by
  unfold boundaryQuiet
  rw [Bool.and_eq_true, Option.isNone_iff_eq_none, Option.isNone_iff_eq_none, outExternal_none, inExternal_none] <;> rfl

theorem closingQueued_iff : closingQueued u = true ↔ ∃ f seg, f ∈ u.line.queue ∧ Item.closing seg ∈ f.items := by
  unfold closingQueued
  rw [List.any_eq_true]
  refine exists_congr fun f => ?_
  rw [List.any_eq_true, exists_and_left]
  refine and_congr_right fun _ => ⟨fun ⟨i, hi, h⟩ => ?_, fun ⟨seg, h⟩ => ⟨_, h, rfl⟩⟩
  cases i with
  | closing seg => exact ⟨seg, hi⟩
  | _ => cases h

theorem clearCheck_of_clearing (hx : u.fire.shutter = some x) (hs : x.state = .clearing) (hq : boundaryQuiet u = true)
    (hb : u.pins.boundary = false) : clearCheck u = if u.cfg.down = 63 then startClosing x u
      else if closingQueued u || x.retry.isSome then u
      else queueFrame (frameOf (.closing u.cfg.segment) u.cfg.down .closing) u := by
  unfold clearCheck
  rw [hx]
  exact if_pos ⟨hs, hq, hb⟩

theorem clearCheck_of_other (h : ∀ x, u.fire.shutter = some x →
    x.state ≠ .clearing ∨ boundaryQuiet u = false ∨ u.pins.boundary = true) : clearCheck u = u := by
  unfold clearCheck
  cases hx : u.fire.shutter with
  | none => rfl
  | some x =>
    refine if_neg fun ⟨hs, hq, hb⟩ => ?_
    rcases h x hx with h | h | h
    · exact h hs
    · rw [h] at hq
      cases hq
    · rw [h] at hb
      cases hb

theorem rests_iff {c : CraneState} : c.rests = true ↔ c = .parked ∨ c = .halted ∨ c = .faulted := by
  cases c <;> simp [CraneState.rests]

theorem spineQuiet_iff {x : Spine} : x.quiet = true ↔ x.inDown = none ∧ x.inUp = none ∧ x.outDown = none ∧ x.outUp = none := by
  simp [Spine.quiet, and_assoc]

theorem shutterSafe_iff {f : Fire} : shutterSafe f = true ↔
    ∀ x, f.shutter = some x → x.state = .shut ∨ x.state = .faultDrive .closing := by
  unfold shutterSafe
  cases f.shutter <;> simp

theorem frameRefused_safeMade (o : Owner) (u : State) : (frameRefused o u).safeMade = u.safeMade := by
  cases o with
  | offer l => cases l <;> rfl
  | bid c | claim c =>
    unfold frameRefused bidRefused claimLost releaseEntry unreserveEntry
    dsimp only
    repeat' split
    all_goals rfl
  | _ => rfl

theorem queueFrame_safeMade (f : TxFrame) (u : State) : (queueFrame f u).safeMade = u.safeMade := by
  unfold queueFrame
  dsimp only
  split
  · exact frameRefused_safeMade _ _
  · exact frameRefused_safeMade _ _
  · rfl

theorem beginEvaluation_of_evaluating {c : CallEntry} (hc : c ∈ u.placement.calls) (h : c.state = .evaluating) :
    beginEvaluation u = u := by
  refine if_pos ?_
  rw [evaluating, List.find?_isSome]
  exact ⟨c, hc, by rw [h]; rfl⟩

theorem beginEvaluation_of_none (h : ∀ c ∈ u.placement.calls, c.state ≠ .waitingEval) : beginEvaluation u = u := by
  have nothing : (u.placement.calls.find? fun e => e.state == .waitingEval) = none :=
    List.find?_eq_none.mpr fun c hc => by simpa using h c hc
  unfold beginEvaluation
  rw [nothing]
  exact ite_self _

theorem beginEvaluation_of_waiting {c : CallEntry} (he : ∀ y ∈ u.placement.calls, y.state ≠ .evaluating)
    (hc : u.placement.calls.find? (fun y => y.state == .waitingEval) = some c) : beginEvaluation u
      = { u with placement := u.placement.modify c.call fun e => { e with state := .evaluating } } := by
  have idle : evaluating u.placement = none := List.find?_eq_none.mpr fun c hc => by simpa using he c hc
  unfold beginEvaluation
  rw [idle, hc] <;> rfl

end

end Sys2Proof.Machine
end

