-- ==== Sys2Proof/Proofs/Settling.lean ====
section
/-! PROOFS. The end of an event as a whole: the quiet event, what every event's end leaves, and its checks in order (log 8). -/

namespace Sys2Proof.Machine
open Sys2Proof Safety

/-! ## The checks in their order -/

theorem settle_eq (s : State) : settle s = beginEvaluation (safeCheck (clearCheck (offerLane .up (offerLane .down (mergeArbiter
    (diversionCheck (selectWork (withdrawOffer .up (withdrawOffer .down s))))))))) := rfl

section
variable {s : State} (h : Quiet s)
include h

theorem withdrawOffer_of_quiet (l : Lane) : withdrawOffer l s = s := by
  have unheld : ∀ r, s.spine.lane l ≠ .holding r := fun r hr => by
    cases l with
    | down => exact absurd h.down (by rw [show s.spine.down = .holding r from hr]; exact nofun)
    | up => exact absurd h.up (by rw [show s.spine.up = .holding r from hr]; exact nofun)
  have kept : (s.line.queue.filter fun f => !(f.onLine.isNone && f.owner == .offer l)) = s.line.queue := by
    refine List.filter_eq_self.mpr fun f hf => ?_
    have hq := List.all_eq_true.mp h.offers f hf
    simp only [Owner.isOffer_eq, TxFrame.waits, Bool.not_eq_true', Bool.and_eq_false_iff, Bool.or_eq_false_iff] at hq ⊢
    cases l with
    | down => exact hq.imp_right (·.1)
    | up => exact hq.imp_right (·.2)
  rw [withdrawOffer_of_unheld (.inr unheld), withoutOffers, kept]

theorem selectWork_of_quiet : selectWork s = s := by
  cases hc : selectionCondition s with
  | false => rw [selectWork_of_condition h.staged hc, clearPassed_of_none h.passed]
  | true =>
    refine selectWork_of_nothing h.staged hc h.passed fun o ho => h.work hc o ?_
    revert o
    decide

theorem diversionCheck_of_quiet : diversionCheck s = s := by
  refine diversionCheck_of_none ?_
  unfold homeBinWaits
  rw [h.up]

theorem mergeArbiter_of_quiet : mergeArbiter s = s := by
  refine mergeArbiter_of_unready (.inr (.inr ?_))
  unfold portOutReady
  rw [h.portOut] <;> rfl

theorem offerLane_of_quiet (l : Lane) : offerLane l s = s := by
  refine offerLane_of_unheld ?_
  cases l with
  | down => exact h.down
  | up => exact h.up

theorem safeCheck_of_quiet : safeCheck s = s := if_neg fun hs => h.notSafe hs.1

theorem beginEvaluation_of_quiet : beginEvaluation s = s :=
  beginEvaluation_of_none fun c hc => bne_iff_ne.mp (List.all_eq_true.mp h.calls c hc)

theorem settle_of_quiet : settle s = s := by
  rw [settle_eq, withdrawOffer_of_quiet h, withdrawOffer_of_quiet h, selectWork_of_quiet h, diversionCheck_of_quiet h,
    mergeArbiter_of_quiet h, offerLane_of_quiet h, offerLane_of_quiet h, clearCheck_of_other fun x hx => .inl (h.shutter x hx),
    safeCheck_of_quiet h, beginEvaluation_of_quiet h]

end

theorem beginEvaluation_safeMade (u : State) : (beginEvaluation u).safeMade = u.safeMade := by
  unfold beginEvaluation
  split
  · rfl
  · split <;> rfl

/-- The mode stands at an event's end but for the SAFE report. -/
theorem settle_mode (s : State) : (settle s).mode = s.mode
    ∨ s.mode = .fire ∧ (settle s).mode = .fireSafe ∧ (settle s).safeMade = true := by
  obtain ⟨u, hu⟩ : ∃ u, u = clearCheck (offerLane .up (offerLane .down (mergeArbiter
    (diversionCheck (selectWork (withdrawOffer .up (withdrawOffer .down s))))))) := ⟨_, rfl⟩
  have mode : u.mode = s.mode := by
    rw [hu]
    simp only [clearCheck_mode, offerLane_mode, mergeArbiter_mode, diversionCheck_mode, selectWork_mode, withdrawOffer_mode]
  rw [settle_eq, ← hu, beginEvaluation_mode, beginEvaluation_safeMade, ← mode]
  unfold safeCheck
  split
  · next hs =>
    refine .inr ⟨hs.1, ?_, ?_⟩
    · exact queueFrame_mode _ _
    · exact queueFrame_safeMade _ _
  · exact .inl rfl

theorem settle_kept (s : State) :
    (settle s).fire.alarms = s.fire.alarms ∧ (settle s).fire.smoke = s.fire.smoke ∧ (settle s).fire.heat = s.fire.heat
    ∧ (settle s).fire.callPoint = s.fire.callPoint ∧ (settle s).line.neighbours = s.line.neighbours
    ∧ (settle s).line.ack = s.line.ack ∧ (settle s).line.obj = s.line.obj ∧ (settle s).line.footing = s.line.footing
    ∧ (settle s).stockEnded = s.stockEnded ∧ (settle s).stopTaken = s.stopTaken := by
  have hr := settle_records s
  simp only [State.records, Prod.mk.injEq] at hr
  obtain ⟨hended, hstop, halarms, hsmoke, hheat, hcall, hneighbours, hack, hobj, hfooting⟩ := hr
  exact ⟨halarms, hsmoke, hheat, hcall, hneighbours, hack, hobj, hfooting, hended, hstop⟩

end Sys2Proof.Machine

namespace Sys2Proof.Proofs
open Sys2Proof Sys2Proof.Machine Sys2Proof.Safety

/-- The crane of a working station takes work: it is IDLE, HOLDING, or moving to anything but the park position (R75). -/
def Taking (s : State) : Prop :=
  s.mode.working = true ∧ (s.crane.state = .idle ∧ s.crane.current = none
    ∨ ∃ m, s.crane.current = some m ∧ (s.crane.state = .holding ∨ s.crane.state = .moving ∧ m.kind ≠ .park))

theorem selectionCondition_of_taking {s : State} (hst : s.crane.staged = none) (h : Taking s) : selectionCondition s = true := by
  obtain ⟨hw, ⟨hi, -⟩ | ⟨m, hm, hh | ⟨hv, hk⟩⟩⟩ := h
  · exact (selectionCondition_iff s).mpr ⟨hw, hst, .inl hi⟩
  · exact (selectionCondition_iff s).mpr ⟨hw, hst, .inr (.inl hh)⟩
  · exact (selectionCondition_iff s).mpr ⟨hw, hst, .inr (.inr ⟨m, hv, hm, hk⟩)⟩

theorem selectionCondition_of_other {s : State} (h : s.mode.working = false ∨ s.crane.state = .stopping ∨ s.crane.state = .parked
    ∨ s.crane.state = .halted ∨ s.crane.state = .faulted
    ∨ ∃ m, s.crane.state = .moving ∧ s.crane.current = some m ∧ m.kind = .park) : selectionCondition s = false := by
  refine Bool.eq_false_iff.mpr fun hs => ?_
  obtain ⟨hw, -, hc⟩ := (selectionCondition_iff s).mp hs
  rcases h with h | h | h | h | h | ⟨m, h, hm, hk⟩
  · rw [h] at hw
    cases hw
  all_goals simp_all

/-- The visit chosen, staged behind a current move. -/
theorem chosen_staged {s : State} {cur : Move} {here : Pos} {v : Visit} {e : BinEntry} (hcur : s.crane.current = some cur)
    (hc : Chosen s here v e) : stageFree (.visit v) { s with limited := s.limited || weighedHeld s here v } = { s with
      limited := s.limited || weighedHeld s here v || legHeld s.cfg cur.target.at e.slot.pos
      crane := { s.crane with
        staged := some ⟨.fetch, .slot e.slot, some v.number, false, legTime s.cfg cur.target.at e.slot.pos true, none⟩ }
      planner := { s.planner with visits := s.planner.visits.map fun w =>
        if w.number = v.number then { w with state := .staged } else w } } :=
  stageFree_visit (u := { s with limited := s.limited || weighedHeld s here v }) hcur hc.2.2.1

section
variable {s : State} (hst : s.crane.staged = none) (ht : Taking s)
include hst ht

/-- After a CANCEL or a MISMATCH the work that stood ready is passed over until some of it rises or the crane is IDLE. -/
theorem passed_work {seen : List (Option Nat × Nat)} (hp : s.planner.passed = some seen) :
    let new := ∃ w, w ∈ readyWork s ∧ ∀ x, x ∈ seen → x.1 = w.1 → w.2 < x.2
    (s.crane.state = .idle ∨ new → selectWork s = selectWork { s with planner := { s.planner with passed := none } }) ∧
    (s.crane.state ≠ .idle → ¬ new →
      selectWork s = { s with planner := { s.planner with passed := some (readyWork s) } }) := by
  have hs := selectionCondition_of_taking hst ht
  refine ⟨selectWork_of_passed_due hst hs hp, fun hi hn => selectWork_of_undue hst hs ?_⟩
  exact Bool.eq_false_iff.mpr fun hd => ((selectionDue_iff hp).mp hd).elim hi hn

/-- The stow given, where it comes before every ready visit. -/
theorem stow_given (hp : s.planner.passed = none) (hr : s.planner.stow = .ready)
    (h : s.planner.mark = true ∨ ∀ v, v ∈ s.planner.visits → v.state = .ready → v.rank = .normal) :
    (s.crane.state = .idle → selectWork s = makeCurrent .takeIn (.pos ⟨0, s.cfg.portLevel⟩) none false s) ∧
    (∀ m, s.crane.current = some m → s.crane.state ≠ .idle → selectWork s = { s with
      limited := s.limited || legHeld s.cfg m.target.at ⟨0, s.cfg.portLevel⟩, planner := { s.planner with stow := .staged }
      crane := { s.crane with staged := some ⟨.takeIn, .pos ⟨0, s.cfg.portLevel⟩, none, false,
        legTime s.cfg m.target.at ⟨0, s.cfg.portLevel⟩ true, none⟩ } }) := by
  have given := selectWork_of_stow hst (selectionCondition_of_taking hst ht) hp hr h
  exact ⟨fun hi => given.trans (giveFree_of_idle hi .stow),
    fun m hm hi => given.trans ((giveFree_of_busy hi .stow).trans (stageFree_stow hm))⟩

/-- The visit chosen is given. -/
theorem visit_given {v : Visit} {e : BinEntry} {here : Pos} (hp : s.planner.passed = none) (hh : here = predictedPos s)
    (hc : Chosen s here v e) :
    (s.crane.state = .idle → selectWork s =
      makeCurrent .fetch (.slot e.slot) (some v.number) false { s with limited := s.limited || weighedHeld s here v }) ∧
    ∀ m, s.crane.current = some m → s.crane.state ≠ .idle → selectWork s = { s with
      limited := s.limited || weighedHeld s here v || legHeld s.cfg m.target.at e.slot.pos
      crane := { s.crane with
        staged := some ⟨.fetch, .slot e.slot, some v.number, false, legTime s.cfg m.target.at e.slot.pos true, none⟩ }
      planner := { s.planner with visits := s.planner.visits.map fun w =>
        if w.number = v.number then { w with state := .staged } else w } } := by
  subst hh
  have given := selectWork_of_chosen hst (selectionCondition_of_taking hst ht) hp hc
  have target : workTarget { s with limited := s.limited || weighedHeld s (predictedPos s) v } (.visit v) = .slot e.slot :=
    workTarget_of_entry (u := { s with limited := s.limited || weighedHeld s (predictedPos s) v }) hc.2.2.1
  refine ⟨fun hi => ?_, fun m hm hi => ?_⟩
  · rw [given, giveFree_of_idle (u := { s with limited := s.limited || weighedHeld s (predictedPos s) v }) hi, target] <;> rfl
  · rw [given, giveFree_of_busy (u := { s with limited := s.limited || weighedHeld s (predictedPos s) v }) hi, chosen_staged hm hc]

end

section
variable {s : State} {m cur : Move}

theorem fetch_displaced {n : Nat} {w : Visit} (hst : s.crane.staged = some m) (hw : s.mode.working = true) (hb : m.bound = false)
    (hk : m.kind = .fetch) (hn : m.visit = some n) (hv : s.planner.visit n = some w) (hcur : s.crane.current = some cur) :
    (s.planner.stow = .ready → (s.planner.mark = true ∨ w.rank = .normal ∧ ∀ v, v ∈ s.planner.visits → v.state = .ready →
        v.rank = .normal) → selectWork s = handBack n { s with
      limited := s.limited || legHeld s.cfg cur.target.at ⟨0, s.cfg.portLevel⟩, planner := { s.planner with stow := .staged }
      crane := { s.crane with staged := some ⟨.takeIn, .pos ⟨0, s.cfg.portLevel⟩, none, false,
        legTime s.cfg cur.target.at ⟨0, s.cfg.portLevel⟩ true, none⟩ } }) ∧
    ∀ v e, Chosen s m.target.at v e → v.rank.order < w.rank.order → selectWork s = handBack n { s with
      limited := s.limited || weighedHeld s m.target.at v || legHeld s.cfg cur.target.at e.slot.pos
      crane := { s.crane with
        staged := some ⟨.fetch, .slot e.slot, some v.number, false, legTime s.cfg cur.target.at e.slot.pos true, none⟩ }
      planner := { s.planner with visits := s.planner.visits.map fun w =>
        if w.number = v.number then { w with state := .staged } else w } } := by
  have free := selectWork_of_free hst hw hb
  have order := stagedOrder_of_visit hn hv
  refine ⟨fun hr h => ?_, fun v e hc hlt => ?_⟩
  · have below : stowOrder s < stagedOrder s m := by
      rw [order]
      by_cases hm : s.planner.mark = true
      · rw [stowOrder_of_mark hm]
        cases w.rank <;> decide
      · rw [stowOrder_of_not_mark hm, (h.resolve_left hm).1]
        decide
    rw [free, displace_of_stow hr below (h.imp_right (·.2)), giveBack_of_fetch hk hn, stageFree_stow hcur]
  · rw [← predictedPos_of_staged hst] at hc ⊢
    rw [free, displace_of_chosen hc (order.symm ▸ hlt), giveBack_of_fetch hk hn, chosen_staged hcur hc]

theorem takeIn_displaced (hst : s.crane.staged = some m) (hw : s.mode.working = true) (hb : m.bound = false)
    (hk : m.kind = .takeIn) (hn : m.visit = none) (hcur : s.crane.current = some cur) :
    (s.planner.mark = true ∨ (∀ v, v ∈ s.planner.visits → v.state = .ready → v.rank = .normal) → selectWork s = s) ∧
    ∀ v e, s.planner.mark = false → v.rank ≠ .normal → Chosen s m.target.at v e → selectWork s = { s with
      limited := s.limited || weighedHeld s m.target.at v || legHeld s.cfg cur.target.at e.slot.pos
      crane := { s.crane with
        staged := some ⟨.fetch, .slot e.slot, some v.number, false, legTime s.cfg cur.target.at e.slot.pos true, none⟩ }
      planner := { s.planner with
        stow := .ready
        visits := s.planner.visits.map fun w => if w.number = v.number then { w with state := .staged } else w } } := by
  have free := selectWork_of_free hst hw hb
  refine ⟨fun h => free.trans (displace_of_staged_stow hn h), fun v e hm hr hc => ?_⟩
  have below : v.rank.order < stagedOrder s m := by
    rw [stagedOrder_of_stow hn, stowOrder_of_unmarked hm]
    exact order_normal hr
  rw [← predictedPos_of_staged hst] at hc ⊢
  rw [free, displace_of_chosen hc below, giveBack_of_takeIn hk, chosen_staged hcur hc] <;> rfl

/-- The merge arbiter where PORT_OUT is ready and DOWN is free. -/
theorem merge_granted {r : TravelRecord} (hr : s.spine.portOut = .holding r) (hm : s.mode.working = true) (ho : downOpen s = true)
    (hd : s.spine.down = .empty) (hk : s.spine.kept = false) :
    (s.spine.waiting = false ∨ s.spine.lastGrant = .upNeighbour → mergeArbiter s = { s with spine := { s.spine with
      down := .reserved, inDown := some ⟨r.bin, s.cfg.station, ⟨s.clock, s.cfg.transferLimit * 1000⟩, none⟩
      lastGrant := .portOut, drivePortOut := true, driveDown := true } }) ∧
    (s.spine.waiting = true → s.spine.lastGrant = .portOut → mergeArbiter s = { s with spine := { s.spine with
      kept := true, mergeWait := some ⟨s.clock, s.cfg.offerRetry⟩ } }) := by
  have ready := mergeArbiter_of_ready hd hk (portOutReady_iff.mpr ⟨⟨r, hr⟩, hm, ho⟩)
  refine ⟨fun h => ready.trans ((if_pos h).trans (grantPortOut_of_unkept hr hk)), fun hw hg => ready.trans (if_neg ?_)⟩
  rintro (h | h)
  · rw [hw] at h
    cases h
  · rw [hg] at h
    cases h

theorem merge_left (h : s.spine.down ≠ .empty ∨ s.spine.kept = true ∨ s.mode.working = false ∨ downOpen s = false
    ∨ (∀ r, s.spine.portOut ≠ .holding r)) : mergeArbiter s = s := by
  have unready : s.mode.working = false ∨ downOpen s = false ∨ (∀ r, s.spine.portOut ≠ .holding r) → portOutReady s = false := by
    intro h
    rw [Bool.eq_false_iff]
    intro hr
    obtain ⟨⟨r, hr⟩, hm, ho⟩ := portOutReady_iff.mp hr
    rcases h with h | h | h
    · rw [h] at hm
      cases hm
    · rw [h] at ho
      cases ho
    · exact h r hr
  exact mergeArbiter_of_unready (h.imp_right (·.imp_right unready))

/-- The home diversion, by what the bin table says of the bin. -/
theorem home_diverted {r : TravelRecord} (hm : s.mode.working = true ∨ s.mode = .halted) (hr : s.spine.up = .holding r)
    (hd : r.dest = .home) (hh : r.home = s.cfg.station) (hp : s.pins.up.position = true) (ho : s.spine.outUp = none) :
    let asked := { s with limited := s.limited || s.dir.adoptHeld s.cfg r }
    (∀ x loc since, s.dir.bin r.bin = some x → x.status = .out loc since → diversionCheck s = beginDiversion r s) ∧
    (∀ x, s.dir.bin r.bin = some x → x.status = .stored → diversionCheck s = blockUp r x.slot.name s) ∧
    (∀ d, s.dir.bin r.bin = none → s.dir.adopt s.cfg s.clock r (.lane s.cfg.station .up) = some d →
      diversionCheck s = beginDiversion r { asked with dir := d }) ∧
    (s.dir.bin r.bin = none → s.dir.adopt s.cfg s.clock r (.lane s.cfg.station .up) = none →
      diversionCheck s = blockUp r SlotName.nowhere asked) := by
  have home := diversionCheck_of_home hm (homeBinWaits_of_home hr hd hh hp ho)
  exact ⟨fun x loc since hx hs => home.trans (divert_of_out hx hs), fun x hx hs => home.trans (divert_of_stored hx hs),
    fun d hx ha => home.trans (divert_of_adopted hx ha), fun hx ha => home.trans (divert_of_unslotted hx ha)⟩

theorem diversion_left (h : s.mode.fiery = true ∨ s.mode = .stocking ∨ s.pins.up.position = false ∨ s.spine.outUp ≠ none
    ∨ (∀ r, s.spine.up = .holding r → r.dest ≠ .home ∨ r.home ≠ s.cfg.station)) : diversionCheck s = s := by
  rcases h with h | h | h | h | h
  · exact diversionCheck_of_mode (.inl h)
  · exact diversionCheck_of_mode (.inr h)
  · exact diversionCheck_of_none (homeBinWaits_of_other (.inl h))
  · exact diversionCheck_of_none (homeBinWaits_of_other (.inr (.inr h)))
  · exact diversionCheck_of_none (homeBinWaits_of_other (.inr (.inl h)))

end

/-- The directory an adoption makes. -/
theorem adoption_made {cfg : StationConfig} {d : Directory} {r : TravelRecord} {sl : Slot} (now : Time) (loc : Location)
    (hb : r.bin ≠ 0) (hs : d.chooseSlot cfg r.restricted (recordShare cfg r) (portPos cfg) = some sl)
    (hw : tblWf d.loads = true) : ∃ t, d.adopt cfg now r loc = some t
      ∧ t.bin r.bin = some (adoptedEntry cfg now r sl loc)
      ∧ t.slotRec sl = ⟨.reserved r.bin, false⟩
      ∧ t.load sl = d.load sl + ((gradeOf cfg (hold 1 4 r.grade)).tare + min r.mass (gradeOf cfg (hold 1 4 r.grade)).massLimit)
      ∧ (∀ x, x ≠ r.bin → t.bin x = d.bin x) ∧ (∀ x, slotKey x ≠ slotKey sl → t.slotRec x = d.slotRec x)
      ∧ (∀ x, faceKey x ≠ faceKey sl → t.load x = d.load x) ∧ t.cursor = d.cursor :=
  ⟨_, adopt_of_slot hb hs now loc, (d.setSlot sl ⟨.reserved r.bin, false⟩).bin_setBin_same hb _,
    slotRec_setSlot_listed d sl (r := ⟨.reserved r.bin, false⟩) nofun,
    load_addLoad_same (d := (d.setSlot sl ⟨.reserved r.bin, false⟩).setBin r.bin (adoptedEntry cfg now r sl loc)) hw sl _,
    fun _ hx => (d.setSlot sl ⟨.reserved r.bin, false⟩).bin_setBin_other hx _, fun _ hx => d.slotRec_setSlot_other hx ⟨.reserved r.bin, false⟩,
    fun _ hx => load_addLoad_other (d := (d.setSlot sl ⟨.reserved r.bin, false⟩).setBin r.bin (adoptedEntry cfg now r sl loc)) hx _,
    rfl⟩

/-- Which neighbour or desk station a lane offers its bin to. -/
theorem offered_to (cfg : StationConfig) (r : TravelRecord) :
    (∀ k : Desk, r.dest = .desk k →
      offerPeer cfg .down r = some (if cfg.down = 63 then 48 + k.val else cfg.down) ∧ offerPeer cfg .up r = none) ∧
    (r.dest = .home → offerPeer cfg .down r = none ∧
      offerPeer cfg .up r = if cfg.up = 63 ∨ r.home = cfg.station then none else some cfg.up) := by
  unfold offerPeer
  refine ⟨fun k hk => ?_, fun hd => ?_⟩
  · rw [hk]
    exact ⟨rfl, rfl⟩
  · rw [hd]
    exact ⟨rfl, rfl⟩

/-- A lane's OFFER is queued exactly where none stands in the way. -/
theorem offer_queued {l : Lane} {s : State} {r : TravelRecord} {peer : Nat} (hr : s.spine.lane l = .holding r)
    (hp : offerPeer s.cfg l r = some peer) (hm : s.mode.working = true) (ho : routeOpenFor s r = true) :
    (s.spine.out l = none → s.spine.retry l = none → (∀ f, f ∈ s.line.queue → f.owner ≠ .offer l) →
      offerLane l s = queueFrame (frameOf (.offer r) peer (.offer l)) s) ∧
    (s.spine.out l ≠ none ∨ s.spine.retry l ≠ none ∨ (∃ f, f ∈ s.line.queue ∧ f.owner = .offer l) → offerLane l s = s) := by
  refine ⟨fun hout hretry hq => offerLane_of_due hr hp (offerDue_iff.mpr ⟨hm, hout, hq, hretry, ho⟩), fun h => ?_⟩
  refine offerLane_of_undue hr (Bool.eq_false_iff.mpr fun hd => ?_)
  obtain ⟨-, hout, hq, hretry, -⟩ := offerDue_iff.mp hd
  rcases h with h | h | ⟨f, hf, h⟩
  · exact h hout
  · exact h hretry
  · exact hq f hf h

theorem offer_withdrawn {l : Lane} {s : State} {r : TravelRecord} (hr : s.spine.lane l = .holding r) (ho : routeOpenFor s r = false) :
    withdrawOffer l s = withoutOffers l s ∧ offerLane l s = s :=
  ⟨withdrawOffer_of_closed hr ho, offerLane_of_undue hr (Bool.eq_false_iff.mpr fun hd => by
    obtain ⟨-, -, -, -, h⟩ := offerDue_iff.mp hd
    rw [ho] at h
    cases h)⟩

/-- The clear check of a shutter that is CLEARING. -/
theorem shutter_cleared {x : Shutter} {s : State} (hx : s.fire.shutter = some x) (hs : x.state = .clearing)
    (hq : boundaryQuiet s = true) (hb : s.pins.boundary = false) :
    (s.cfg.down = 63 → clearCheck s = { s with fire := { s.fire with shutter := some { x with
      state := .closingDrive, driveLimit := some ⟨s.clock, s.cfg.driveLimit * 1000⟩, retry := none } } }) ∧
    (s.cfg.down ≠ 63 → x.retry = none → (∀ f seg, f ∈ s.line.queue → Item.closing seg ∉ f.items) →
      clearCheck s = queueFrame (frameOf (.closing s.cfg.segment) s.cfg.down .closing) s) ∧
    (s.cfg.down ≠ 63 → x.retry ≠ none ∨ (∃ f seg, f ∈ s.line.queue ∧ Item.closing seg ∈ f.items) → clearCheck s = s) := by
  have clear := clearCheck_of_clearing hx hs hq hb
  refine ⟨fun hd => clear.trans (if_pos hd), fun hd hr hn => clear.trans ((if_neg hd).trans (if_neg fun h => ?_)),
    fun hd h => clear.trans ((if_neg hd).trans (if_pos ?_))⟩
  · rcases Bool.or_eq_true_iff.mp h with h | h
    · obtain ⟨f, seg, hf, hi⟩ := closingQueued_iff.mp h
      exact hn f seg hf hi
    · rw [hr] at h
      cases h
  · rcases h with h | h
    · exact Bool.or_eq_true_iff.mpr (.inr (Option.isSome_iff_ne_none.mpr h))
    · exact Bool.or_eq_true_iff.mpr (.inl (closingQueued_iff.mpr h))

/-- When the SAFE report is due (R148). -/
theorem safe_iff (s : State) : (s.mode = .fire ∧ s.crane.state.rests = true ∧ s.spine.quiet = true ∧ shutterSafe s.fire = true) ↔
    s.mode = .fire ∧ (s.crane.state = .parked ∨ s.crane.state = .halted ∨ s.crane.state = .faulted)
      ∧ s.spine.inDown = none ∧ s.spine.inUp = none ∧ s.spine.outDown = none ∧ s.spine.outUp = none
      ∧ ∀ x, s.fire.shutter = some x → x.state = .shut ∨ x.state = .faultDrive .closing := by
  rw [rests_iff, spineQuiet_iff, shutterSafe_iff]
  simp only [and_assoc]

/-- Settles O11: each check of an event's end by its own lemmas; the visit chosen is the first of its rank by age or by score. -/
theorem eventEndKeepsRecords : Obligations.EventEndKeepsRecords := by
  unfold Obligations.EventEndKeepsRecords
  intro higher chosen weighed
  refine ⟨fun s h => settle_of_quiet h, fun s => ?_, settle_eq, fun s hst => ?_, fun m s hst => ⟨selectWork_of_kept hst,
    fun n w hn hv hr hs => ?_, fun n w cur hw hb hk hn hv hcur => ⟨(fetch_displaced hst hw hb hk hn hv hcur).1,
      fun v e hc hlt => (fetch_displaced hst hw hb hk hn hv hcur).2 v e hc ((order_lt_iff _ _).mpr hlt)⟩,
    fun cur hw hb hk hn _ hcur => takeIn_displaced hst hw hb hk hn hcur⟩,
    fun cfg now d r loc => ⟨fun h => adopt_of_none h now loc, fun sl hb hs hw => adoption_made now loc hb hs hw⟩,
    offered_to, fun l s => ?_, fun s => ⟨fun r hr hm ho hd hk => merge_granted hr hm ho hd hk, merge_left,
      fun r hm hr hd hh hp ho => home_diverted hm hr hd hh hp ho, diversion_left⟩,
    fun x s hx => ?_, fun s => ⟨fun h => if_pos ((safe_iff s).mpr h), fun h => if_neg fun hs => h ((safe_iff s).mp hs)⟩, fun s => ?_⟩
  · obtain ⟨halarms, hsmoke, hheat, hcall, hneighbours, hack, hobj, hfooting, hended, hstop⟩ := settle_kept s
    exact ⟨halarms, hsmoke, hheat, hcall, hneighbours, hack, hobj, hfooting, hended, hstop, settle_mode s⟩
  · intro taking cleared atPort
    refine ⟨fun h => selectWork_of_condition hst (selectionCondition_of_other h), fun seen ht hp => passed_work hst ht hp,
      fun ht hp => ⟨fun hs hv => ?_, fun hr h => stow_given hst ht hp hr h, fun v e here hh hc =>
        visit_given hst ht hp (hh.trans (predictedPos_of_unstaged hst).symm) hc⟩⟩
    exact selectWork_of_nothing hst (selectionCondition_of_taking hst ht) hp fun o _ =>
      readyAt_of_none (fun h => absurd h hs) fun w hw hr => absurd hr (hv w hw)
  · cases hw : s.mode.working with
    | false => exact selectWork_of_kept hst (.inl hw)
    | true =>
      cases hb : m.bound with
      | true => exact selectWork_of_kept hst (.inr hb)
      | false => exact (selectWork_of_free hst hw hb).trans (displace_of_rank hn hv hr hs)
  · cases l with
    | down => exact ⟨fun r => withdrawOffer_of_standing (l := .down), withdrawOffer_of_unheld (l := .down),
        fun r => offer_withdrawn (l := .down), fun r peer => offer_queued (l := .down)⟩
    | up => exact ⟨fun r => withdrawOffer_of_standing (l := .up), withdrawOffer_of_unheld (l := .up),
        fun r => offer_withdrawn (l := .up), fun r peer => offer_queued (l := .up)⟩
  · intro quiet
    refine ⟨fun hs hq hb => shutter_cleared hx hs (boundaryQuiet_iff.mpr hq) hb, fun h => clearCheck_of_other fun y hy => ?_⟩
    obtain rfl : x = y := Option.some.inj (hx.symm.trans hy)
    exact h.imp_right (·.imp_left fun hq => Bool.eq_false_iff.mpr fun hb => hq (boundaryQuiet_iff.mp hb))
  · refine ⟨fun h => h.elim (fun ⟨c, hc, he⟩ => beginEvaluation_of_evaluating hc he) beginEvaluation_of_none,
      fun c he hc => beginEvaluation_of_waiting he hc⟩

end Sys2Proof.Proofs
end
